-- ==== Sys2Proof/Word.lean ====
section
/-! DEFINITION. Words of the part: bytes, 16-bit values and the time unit. Values of more than one byte
go most significant byte first (R212). -/

namespace Sys2Proof

/-- One byte on the host port or on the Trailer Data Line. -/
abbrev Byte := BitVec 8

/-- A 16-bit value: masks, digests, thresholds, readings. -/
abbrev Half := BitVec 16

/-- A node identity, 8 bytes in the order the node gave them (R212). -/
abbrev Identity := BitVec 64

/-- The byte of a number, modulo 256. -/
def byte (n : Nat) : Byte := BitVec.ofNat 8 n

/-- The two bytes of a 16-bit value, most significant first (R212). -/
def halfBytes (w : Half) : List Byte := [w.extractLsb' 8 8, w.extractLsb' 0 8]

/-- The two bytes of a number below 65536. -/
def natBytes2 (n : Nat) : List Byte := [byte (n / 256), byte n]

/-- The four bytes of a number below 2^32. -/
def natBytes4 (n : Nat) : List Byte :=
  [byte (n / 16777216), byte (n / 65536), byte (n / 256), byte n]

/-- The eight bytes of an identity. -/
def identityBytes (i : Identity) : List Byte :=
  [i.extractLsb' 56 8, i.extractLsb' 48 8, i.extractLsb' 40 8, i.extractLsb' 32 8,
   i.extractLsb' 24 8, i.extractLsb' 16 8, i.extractLsb' 8 8, i.extractLsb' 0 8]

/-- The number that bytes spell, most significant first. -/
def bytesNat (bs : List Byte) : Nat := bs.foldl (fun n b => n * 256 + b.toNat) 0

/-- Milliseconds in the model's time unit of 0.1 ms, the step of the echo delay (R9). -/
def ms (n : Nat) : Nat := 10 * n

end Sys2Proof
end

