-- ==== Sys2Proof/Syntax.lean ====
section
/-! DEFINITION. The commands of the block: one constructor for each row of spec/opcode_table.json. Host commands
carry their parameter bytes as R195 lists them; events carry what the part is told by them. -/

namespace Sys2Proof

/-- Left or right: the two turn inputs and combined sources. -/
inductive TurnSide where
  | left
  | right
deriving DecidableEq, Repr

/-- The three phase generators (R135). -/
inductive Generator where
  | pair
  | beacon
  | virtual
deriving DecidableEq, Repr

/-- How far a transaction got that ended before its command was taken: the rows of R197's table. -/
inductive Incomplete where
  /-- no byte and no clock edge -/
  | noClock
  /-- part of the command byte -/
  | partCommand
  /-- a command byte with parameters, and fewer than all of them -/
  | missingParameters (code : BitVec 8) (received : Nat)
  /-- an unknown command byte, with anything after it -/
  | unknown (code : BitVec 8)
deriving DecidableEq, Repr

/-- The commands the block takes. -/
inductive Instr where
  | readStatus
  | ackEvents (mask : BitVec 16)
  | setEventMask (mask : BitVec 16)
  | configure (setting : BitVec 8) (value : BitVec 16)
  | readConfig
  | startBringUp
  | restartLink
  | lookup (cls role side unit mask start : BitVec 8)
  | fetchRecord (start : BitVec 8)
  | fetchNode (start : BitVec 8)
  | takeChanges
  | bind (handle gen source : BitVec 8)
  | unbind (handle gen : BitVec 8)
  | setParameter (handle gen parameter : BitVec 8) (value : BitVec 16)
  | drive (handle gen word : BitVec 8)
  | setDemand (source demand : BitVec 8)
  | prove (handle gen : BitVec 8)
  | retire (handle gen : BitVec 8)
  | forget (handle gen : BitVec 8)
  | recatalogue (position : BitVec 8)
  | writeEnable
  | writeDisable
  | rememberUnit (unit : BitVec 8)
  | eraseEntry (index : BitVec 8)
  | pinEntry (index : BitVec 8)
  | unpinEntry (index : BitVec 8)
  | eraseList
  | ktlRead (index : BitVec 8)
  | unknownCommand (code : BitVec 8)
  | incompleteTransaction (how : Incomplete)
  | streamImage
  | resetFall
  | resetRise
  | deviceReset
  | supplyReset
  | deviceResetEnd
  | ktlScanEnd
  /-- bit i of `bad`: the read-back of entry i disagrees (R190) -/
  | ktlWriteEnd (bad : BitVec 16)
  /-- inputs 0 to 9 in the order of the wired sources (R114) -/
  | demandInputChange (input : Fin 10) (asserted : Bool)
  | followStretchEnd (side : TurnSide)
  | coupleSenseAsserted
  | coupleSenseWithdrawn
  | linePresentAsserted
  | linePresentWithdrawn
  | settleTimerExpiry
  | partTimerExpiry
  | faultTimerExpiry
  | lineRequest
  | toolLineReturn
  | yieldLimitExpiry
  | reclaimSuccess
  | reclaimTimeout
  | lineRecovery
  | gapEnd
  | frameEnd
  | replyWindowEnd
  /-- the bytes of the reply, lead character and check included -/
  | replyComplete (frame : List (BitVec 8))
  /-- `malformed`: a character was malformed, and the line has then been idle for 1 ms (R10) -/
  | replyBroken (malformed : Bool)
  | presenceTick
  /-- chain position less 1 -/
  | lastHeardTimeout (position : Fin 12)
  /-- link address less 1 -/
  | addressHoldExpiry (address : Fin 12)
  | frontierTimerExpiry
  | phaseEnd (generator : Generator)
  | deadTimerExpiry (guard : Fin 6)
  | runLimitExpiry (guard : Fin 6)
  /-- handle less 1 of the record whose deadline passes -/
  | confirmDeadline (handle : Fin 96)
  | replyFirstEdge
  | lineActivity
  | reclaimMarkEnd
deriving DecidableEq, Repr

/-- Number of parameter bytes of each command byte (R195, R214); none for an unknown byte (R199). -/
def parameterCount (code : BitVec 8) : Option Nat :=
  match code.toNat with
  | 0x01 => some 0 | 0x02 => some 2 | 0x03 => some 2 | 0x04 => some 3 | 0x05 => some 0
  | 0x10 => some 0 | 0x11 => some 0
  | 0x20 => some 6 | 0x21 => some 1 | 0x22 => some 1 | 0x23 => some 0
  | 0x30 => some 3 | 0x31 => some 2 | 0x32 => some 5 | 0x33 => some 3 | 0x34 => some 2
  | 0x35 => some 2 | 0x36 => some 2 | 0x37 => some 2 | 0x38 => some 1
  | 0x40 => some 0 | 0x41 => some 0 | 0x42 => some 1 | 0x43 => some 1 | 0x44 => some 1
  | 0x45 => some 1 | 0x46 => some 0 | 0x47 => some 1
  | _ => none

end Sys2Proof
end

