-- ==== Sys2Proof/WellFormed.lean ====
section
/-! DEFINITION. Which commands can arise. Parameter bytes of the host may hold anything (the command's own rule
answers BAD_VALUE); an event must be one its row describes. -/

namespace Sys2Proof

/-- An incomplete transaction is one of the rows of R197's table. -/
def Incomplete.wf : Incomplete → Bool
  | .noClock => true
  | .partCommand => true
  | .missingParameters code received =>
      match parameterCount code with
      | some n => decide (received < n)
      | none => false
  | .unknown code => (parameterCount code).isNone

/-- A command that can arise: an unknown byte names no command (R199), an incomplete transaction is one of
R197's, a reply has 3 to 12 bytes (R4) and begins with the lead character A5h (R212). -/
def Instr.wf : Instr → Bool
  | .unknownCommand code => (parameterCount code).isNone
  | .incompleteTransaction how => how.wf
  | .replyComplete frame =>
      decide (3 ≤ frame.length) && decide (frame.length ≤ 12) && frame.head? == some 0xA5#8
  | _ => true

end Sys2Proof
end

