-- ==== Sys2Proof/Decode.lean ====
section
/-! DEFINITION. The bytes of the host's transactions (R194, R195, R214). spec/opcode_table.json gives no row any bits, so
no word spells a command: the command bytes are those of the host port's format. -/

namespace Sys2Proof

/-- What the host sends from the fall of CS_N to its rise: the complete bytes, and the clock edges of a byte that is not
complete (R194). -/
structure Transaction where
  bytes : List (BitVec 8)
  partClocks : Nat
deriving DecidableEq, Repr

/-- A 16-bit parameter, most significant byte first (R214). -/
def halfOf (hi lo : BitVec 8) : BitVec 16 := hi ++ lo

/-- The command that a command byte and its parameter bytes name (R195, R214). -/
def commandOf (code : BitVec 8) (parameters : List (BitVec 8)) : Option Instr :=
  match code.toNat, parameters with
  | 0x01, [] => some .readStatus
  | 0x02, [a, b] => some (.ackEvents (halfOf a b))
  | 0x03, [a, b] => some (.setEventMask (halfOf a b))
  | 0x04, [n, a, b] => some (.configure n (halfOf a b))
  | 0x05, [] => some .readConfig
  | 0x10, [] => some .startBringUp
  | 0x11, [] => some .restartLink
  | 0x20, [cls, role, side, unit, mask, start] => some (.lookup cls role side unit mask start)
  | 0x21, [start] => some (.fetchRecord start)
  | 0x22, [start] => some (.fetchNode start)
  | 0x23, [] => some .takeChanges
  | 0x30, [h, g, x] => some (.bind h g x)
  | 0x31, [h, g] => some (.unbind h g)
  | 0x32, [h, g, p, a, b] => some (.setParameter h g p (halfOf a b))
  | 0x33, [h, g, w] => some (.drive h g w)
  | 0x34, [x, d] => some (.setDemand x d)
  | 0x35, [h, g] => some (.prove h g)
  | 0x36, [h, g] => some (.retire h g)
  | 0x37, [h, g] => some (.forget h g)
  | 0x38, [p] => some (.recatalogue p)
  | 0x40, [] => some .writeEnable
  | 0x41, [] => some .writeDisable
  | 0x42, [u] => some (.rememberUnit u)
  | 0x43, [i] => some (.eraseEntry i)
  | 0x44, [i] => some (.pinEntry i)
  | 0x45, [i] => some (.unpinEntry i)
  | 0x46, [] => some .eraseList
  | 0x47, [i] => some (.ktlRead i)
  | _, _ => none

/-- The command that a transaction gives the part. The first complete byte is the command byte, and the bytes after it, up
to the number it fixes, are its parameters; what follows is ignored (R194). An unknown byte is answered (R199), and a
transaction that ends before its command is taken is incomplete (R197). -/
def Transaction.command (t : Transaction) : Instr :=
  match t.bytes with
  | [] => .incompleteTransaction (if t.partClocks = 0 then .noClock else .partCommand)
  | code :: rest =>
      match parameterCount code with
      | none => .unknownCommand code
      | some n =>
          match commandOf code (rest.take n) with
          | some c => c
          | none => .incompleteTransaction (.missingParameters code rest.length)

/-- The command byte and parameter bytes of a host command (R195, R214); none for what is no command of the port's. -/
def Instr.hostBytes : Instr → Option (List (BitVec 8))
  | .readStatus => some [0x01]
  | .ackEvents m => some (0x02 :: halfBytes m)
  | .setEventMask m => some (0x03 :: halfBytes m)
  | .configure n v => some (0x04 :: n :: halfBytes v)
  | .readConfig => some [0x05]
  | .startBringUp => some [0x10]
  | .restartLink => some [0x11]
  | .lookup cls role side unit mask start => some [0x20, cls, role, side, unit, mask, start]
  | .fetchRecord start => some [0x21, start]
  | .fetchNode start => some [0x22, start]
  | .takeChanges => some [0x23]
  | .bind h g x => some [0x30, h, g, x]
  | .unbind h g => some [0x31, h, g]
  | .setParameter h g p v => some (0x32 :: h :: g :: p :: halfBytes v)
  | .drive h g w => some [0x33, h, g, w]
  | .setDemand x d => some [0x34, x, d]
  | .prove h g => some [0x35, h, g]
  | .retire h g => some [0x36, h, g]
  | .forget h g => some [0x37, h, g]
  | .recatalogue p => some [0x38, p]
  | .writeEnable => some [0x40]
  | .writeDisable => some [0x41]
  | .rememberUnit u => some [0x42, u]
  | .eraseEntry i => some [0x43, i]
  | .pinEntry i => some [0x44, i]
  | .unpinEntry i => some [0x45, i]
  | .eraseList => some [0x46]
  | .ktlRead i => some [0x47, i]
  | _ => none

/-- The command that the table's bits spell: none, for the table gives no row bits. -/
def decodeTableWord (_nbits _w : Nat) : Option Instr := none

end Sys2Proof
end

