-- ==== Sys2Proof/Config.lean ====
section
/-! DEFINITION. What is fixed for the part (its times and sizes) and the free values the spec leaves open. -/

namespace Sys2Proof.Config

/-- FREE VALUE: how many erases of an ERASE LIST a device reset finds done (R189, R191; log entry 15).
Applied to the plain counter `State.free`; taken modulo the number of entries the write was to erase. -/
opaque erasesDone : Nat → Nat

/-- Settle timer, 300 ms (R26). -/
def settleTime : Nat := ms 300
/-- Part timer, 100 ms (R26). -/
def partTime : Nat := ms 100
/-- Fault timer, 1000 ms (R24). -/
def faultTime : Nat := ms 1000
/-- Idle gap before an attempt, 1 ms (R10). -/
def gapTime : Nat := ms 1
/-- One character of a frame, 0.5 ms (R1). -/
def charTime : Nat := 5
/-- Pulse length of a Prove, 40 ms (R102). -/
def pulseTime : Nat := ms 40
/-- Reclaim mark, 2 ms (R23). -/
def reclaimMark : Nat := ms 2
/-- The line must stay high so long after the mark, 1 ms (R23). -/
def reclaimHigh : Nat := ms 1
/-- Limit of the high watch after the mark, 20 ms (R23). -/
def reclaimLimit : Nat := ms 20
/-- Presence tick, 10 ms (R58). -/
def tickTime : Nat := ms 10
/-- A hail falls due at this value of the last-heard clock, 250 ms (R51). -/
def hailDue : Nat := ms 250
/-- A node silent so long is LOST, 1000 ms (R57). -/
def silenceLimit : Nat := ms 1000
/-- Hold of an address, 1000 ms (R48). -/
def addressHold : Nat := ms 1000
/-- Frontier timer, 500 ms (R46). -/
def frontierTime : Nat := ms 500
/-- An echo delay over this ends the chain, 10.0 ms (R38). -/
def echoLimit : Nat := 100
/-- The largest echo delay counted, 12.0 ms (R9). -/
def echoMax : Nat := 120
/-- A FOLLOW source ends so long after its last rising edge, 1500 ms (R115). -/
def stretchTime : Nat := ms 1500
/-- Shortest good period of a FOLLOW input, 250 ms (R143). -/
def goodPeriod : Nat := ms 250
/-- RESET held low so long gives a device reset, and the reset lasts so long after it, 1 ms (R210). -/
def resetTime : Nat := ms 1
/-- Urgent class (R14). -/
def urgentSize : Nat := 8
/-- Drives allowed in the urgent class (R15). -/
def urgentDrives : Nat := 6
/-- Routine class (R14). -/
def routineSize : Nat := 24
/-- Consecutive urgent grants before a waiting routine request is granted (R18). -/
def fairness : Nat := 8
/-- Handles on one source list (R120). -/
def listSize : Nat := 16
/-- Samples of the Confirm Scheduler in the queue (R162). -/
def ownLimit : Nat := 4
/-- Node entries (R51). -/
def nodeLimit : Nat := 12
/-- Unit records (R31). -/
def unitLimit : Nat := 3
/-- Hints of one entry of the stored list (R176). -/
def hintLimit : Nat := 24
/-- The use counter stops here (R177). -/
def counterMax : Nat := 4294967295
/-- The reading age stops at 65535 ms (R172). -/
def ageLimitMs : Nat := 65535

end Sys2Proof.Config
end

