-- ==== Sys2Proof/Machine/Types.lean ====
section
/-! DEFINITION. The pieces of data the blocks hold, with the names the spec gives them. -/

namespace Sys2Proof.Machine

/-- A record slot; handle n (1 to 96, R68) is the value n - 1. -/
abbrev Handle := Fin 96
/-- A link address 1 to 12, less 1 (R6). -/
abbrev Addr := Fin 12
/-- One of the eighteen sources by its number (R114). -/
abbrev Src := Fin 18
/-- A function index of a node (R40). -/
abbrev FnIndex := Fin 16

/-- A countdown: stopped, running to a moment, or standing still with its remaining time kept. -/
inductive Countdown where
  | stopped
  | running (ends : Nat)
  | held (left : Nat)
deriving DecidableEq, Repr

/-- A clock that counts up: standing still at a value, or counting from a value since a moment. -/
inductive Stopwatch where
  | still (value : Nat)
  | counting (base since : Nat)
deriving DecidableEq, Repr

/-! ### Records (04) -/

/-- The four flash channels (R135). -/
inductive Chan where
  | flL | flR | flB | flV
deriving DecidableEq, Repr

/-- Output words (R5, R212). -/
inductive OutWord where
  | off | on | flash (c : Chan) | runA | runB | stop
deriving DecidableEq, Repr

inductive Class where
  | lamp | sensor | actuator | supply
deriving DecidableEq, Repr

inductive LampRole where
  | tail | stop | turn | stopTurn | reverse | fog | marker | plate | work | beacon
deriving DecidableEq, Repr

inductive LampSide where
  | left | right | centre
deriving DecidableEq, Repr

/-- A valid catalogue entry (R40), with the bytes its class does not use kept as the node sent them (R213). -/
inductive CatEntry where
  | lamp (role : LampRole) (side : LampSide) (nominal low high unused : Byte)
  | sensor (kind unitCode unused3 unused4 unused5 : Byte)
  | actuator (reversing : Bool) (maxRun unused3 unused4 unused5 : Byte)
  | supply (unused1 rated unused3 unused4 unused5 : Byte)
deriving DecidableEq, Repr

/-- States of a record other than FREE (R68). -/
inductive RecState where
  | provisional | proving | ready | bound | faulted | stale | retired
deriving DecidableEq, Repr

/-- The states a STALE record may return to (R70, state before stale). -/
inductive Before where
  | ready | bound | faulted
deriving DecidableEq, Repr

inductive RecFault where
  | none | open | overload | outputMismatch | refused | noGuard
deriving DecidableEq, Repr

inductive Motion where
  | stopped | runningA | runningB | dwell
deriving DecidableEq, Repr

inductive RetireReason where
  | uncoupled | nodeLost | chainCut | line | host | restart
deriving DecidableEq, Repr

inductive Threshold where
  | below | normal | above
deriving DecidableEq, Repr

/-- Last reading, reading age and threshold state: a sensor takes all three with its first stored reading (R215). -/
structure Reading where
  value : Half
  age : Stopwatch
  threshold : Threshold
deriving DecidableEq, Repr

/-- The router's drive state of a record (R124). `lastPlaced` is none for the value no output equals (R129). -/
structure DriveState where
  lastPlaced : Option OutWord
  failed : Bool
deriving DecidableEq, Repr

/-- A record (R70). Fields whose presence condition does not hold are none. -/
structure Record where
  state : RecState
  address : Option Addr
  position : Nat
  unit : Nat
  index : FnIndex
  entry : CatEntry
  binding : Option Src
  intended : Option Src
  fault : RecFault
  before : Option Before
  wanted : Option OutWord
  confirmed : Option OutWord
  reading : Option Reading
  lowThreshold : Half
  highThreshold : Half
  interval : Option Nat
  guard : Option (Fin 6)
  motion : Option Motion
  reason : Option RetireReason
  drive : Option DriveState
deriving DecidableEq, Repr

/-- The retire Drive outstanding mark of a slot, with a Drive that is still to be placed (R87). -/
inductive RetireDrive where
  | none
  /-- refused FULL: placed again each time an attempt on the line ends -/
  | unplaced (address : Addr) (index : FnIndex) (word : OutWord)
  /-- refused IN_FLIGHT: placed when the outcome of the Drive in flight has been reported -/
  | awaiting (address : Addr) (index : FnIndex) (word : OutWord)
  | placed
deriving DecidableEq, Repr

/-- The Sample mark of a handle (R159): set while its Sample is in the Line Queue, or unplaced after FULL, and then with
the Sample that is to be claimed again, whatever has become of its record since (R163). -/
inductive SampleMark where
  | clear
  | queued
  | unplaced (address : Addr) (index : FnIndex) (gen : Byte)
deriving DecidableEq, Repr

/-- A confirm entry less its Sample mark, which outlives it (R159, R163). -/
structure ConfirmEntry where
  deadline : Countdown
  phaseWait : Bool
  mismatch : Bool
deriving DecidableEq, Repr

/-- A record slot (R68): FREE when it holds no record. `sampleVoid`: the confirm entry that the marked Sample was claimed
for has been removed, so its outcome is discarded (R163, R166). -/
structure Slot where
  gen : Byte
  record : Option Record
  retireDrive : RetireDrive
  confirm : Option ConfirmEntry
  sampleMark : SampleMark
  sampleVoid : Bool
deriving DecidableEq, Repr

/-- A recatalogue in progress (R82). -/
structure Recatalogue where
  position : Nat
  address : Addr
  indices : List FnIndex
  taken : List (Handle × Byte)
deriving DecidableEq, Repr

/-! ### Requests and attempts (01) -/

/-- The sweep a Hail belongs to, if any (R61). -/
inductive Sweep where
  | none | reclaim | fault
deriving DecidableEq, Repr

/-- Who placed a Sample (R14). -/
inductive SampleOwner where
  | proving | confirm
deriving DecidableEq, Repr

/-- A Drive request. `prior` is what last placed was before the Drive was taken (R127). -/
structure DriveReq where
  address : Addr
  index : FnIndex
  handle : Handle
  gen : Byte
  word : OutWord
  prior : Option OutWord
deriving DecidableEq, Repr

/-- A request in the Line Queue (R5, R14), with what its owner needs of the outcome. -/
inductive Request where
  | probe
  | assign (address : Addr) (identity : Identity)
  | describe (address : Addr) (index : FnIndex) (recat : Bool)
  | extend (address : Addr) (opening : Bool)
  | drive (d : DriveReq)
  | prove (address : Addr) (index : FnIndex)
  | sample (owner : SampleOwner) (address : Addr) (index : FnIndex) (handle : Handle) (gen : Byte)
  | hail (address : Addr) (sweep : Sweep)
  /-- a Release of a chain cut, or of the window limit -/
  | release (address : Addr) (windowLimit : Bool)
  | releaseAll
  | phaseMark (mask : BitVec 4) (on : Bool)
deriving DecidableEq, Repr

/-- How far an attempt has come. -/
inductive Stage where
  /-- granted, or a second attempt due: it begins once the line has been idle for 1 ms (R10, R11) -/
  | due
  | sending (ends : Nat)
  | window (frameEnd opens ends : Nat)
  /-- a reply has begun, with the echo delay to its first edge (R9) -/
  | replying (echo : Nat)
deriving DecidableEq, Repr

/-- The request in flight (R10, R11). `second` is set from the end of its first attempt. -/
structure InFlight where
  req : Request
  urgent : Bool
  second : Bool
  seq : Bool
  window : Nat
  stage : Stage
deriving DecidableEq, Repr

inductive LineState where
  | down | ready | busy | yielded | reclaiming | fault
deriving DecidableEq, Repr

/-- RECLAIMING: the mark is being driven, or the line is watched after it (R23). -/
inductive Reclaim where
  | idle
  | mark (ends : Nat)
  | watch (markEnd : Nat)
deriving DecidableEq, Repr

inductive ReplyStatus where
  | ok | refused | fault | noFunction
deriving DecidableEq, Repr

/-- The outcome of a request (R10, R11, R13). `echo` is the captured echo delay. -/
inductive ReqOutcome where
  | replied (status : ReplyStatus) (payload : List Byte) (echo : Nat)
  | noReply
  | checkError
  | collision
  | sent
  | abandoned
deriving DecidableEq, Repr

/-- The answer to a claim (R15, R16). -/
inductive ClaimAnswer where
  | taken | merged | full | inFlight | down
deriving DecidableEq, Repr

/-! ### Coupling and bring-up (02), node table (03) -/

inductive CouplingState where
  | uncoupled | settling | coupled | parting
deriving DecidableEq, Repr

inductive EngineState where
  | idle | waitStart | probe | assign | describe | extend | matching | settled | halted
deriving DecidableEq, Repr

inductive MatchOutcome where
  | none | hit | mismatch | miss
deriving DecidableEq, Repr

inductive ChainEnd where
  | none | ended | unitLimit | windowLimit | nodeLimit
deriving DecidableEq, Repr

inductive HaltCause where
  | none | collision | badProbe | assignFailed | gateRefused
deriving DecidableEq, Repr

/-- A unit record; its unit number is its place in the list (R31). -/
structure UnitRec where
  first : Nat
  headless : Bool
  nodeCount : Nat
  digest : Half
  outcome : MatchOutcome
deriving DecidableEq, Repr

structure ProbeReply where
  identity : Identity
  head : Bool
  count : Nat
deriving DecidableEq, Repr

/-- A request of the engine's (R31): one of the walk, or the Release of the window limit (R38). -/
inductive WalkReq where
  | probe
  | assign (address : Addr) (identity : Identity)
  | describe (address : Addr) (index : FnIndex) (recat : Bool)
  | extend (address : Addr) (opening : Bool)
  | release (address : Addr)
deriving DecidableEq, Repr

/-- The same as a request of the Line Queue. -/
def WalkReq.request : WalkReq → Request
  | .probe => .probe
  | .assign a i => .assign a i
  | .describe a i b => .describe a i b
  | .extend a b => .extend a b
  | .release a => .release a true

/-- The engine's own request (R31): none, refused FULL and to be placed again, or in the Line Queue. -/
inductive EngineReq where
  | none
  | unplaced (r : WalkReq)
  | queued
deriving DecidableEq, Repr

/-- What the walk waits for beyond its state. -/
inductive Errand where
  | none
  /-- no address is free: the Assign waits for the first hold to end (R37) -/
  | waitAddress
  /-- the Extend CLOSE of R35 -/
  | closeForUnits
  /-- the Release, then the Extend CLOSE, of R38 -/
  | windowRelease
  | closeForWindow
  /-- the step that called for the match (R44) -/
  | thenAssign
  | thenSettle (reason : ChainEnd)
deriving DecidableEq, Repr

/-- A departure from SETTLED or HALTED that waits for the outcome of a recatalogue's Describe (R48, R83). -/
inductive Departure where
  | none | toProbe | toExtend
deriving DecidableEq, Repr

inductive RestartPhase where
  | none
  /-- the broadcast Release is waiting or in flight -/
  | releasing
  /-- complete while the monitor was PARTING: the engine leaves IDLE at the return to COUPLED (R50) -/
  | onReturn
deriving DecidableEq, Repr

inductive NodeState where
  | assigned | describing | live | suspect | lost
deriving DecidableEq, Repr

/-- A node entry other than FREE (R51); its chain position is its place in the list. -/
structure NodeEntry where
  state : NodeState
  address : Addr
  unit : Nat
  head : Bool
  identity : Identity
  count : Nat
  admitted : Nat
  unadmitted : Nat
  echo : Nat
  gateOpen : Bool
  failures : Nat
  heard : Stopwatch
  summary : Byte
  /-- the Bring-Up Engine's node-end digest (R31) -/
  endDigest : Option Half
deriving DecidableEq, Repr

/-! ### Proving (05), routing (06) -/

inductive ProofForm where
  | pulse | steady
deriving DecidableEq, Repr

inductive ProofStage where
  | request | phaseWait | driveWait | draining
deriving DecidableEq, Repr

/-- The proof in the proof slot (R98). `placed`: its Prove or Sample is in the Line Queue. `stopped`: the record's source has
stopped being demanded, and has not been demanded again since (R109). -/
structure Proof where
  handle : Handle
  gen : Byte
  form : ProofForm
  stage : ProofStage
  placed : Bool
  notOn : Bool
  missed : Nat
  left : Bool
  stopped : Bool
deriving DecidableEq, Repr

inductive Form where
  | steady
  | flashing (c : Chan)
  | followed
deriving DecidableEq, Repr

structure Source where
  active : Bool
  form : Form
deriving DecidableEq, Repr

/-- An entry of the pending-drive set (R126). -/
structure Pend where
  handle : Handle
  gen : Byte
  word : OutWord
  time : Nat
  urgent : Bool
deriving DecidableEq, Repr

/-! ### Flash channels and reversal guards (07) -/

inductive ChanState where
  | stopped | running | joining | following
deriving DecidableEq, Repr

/-- A running generator: its phase, the time at which that phase ends, and the effective period fixed at its
last ON start (R137). -/
structure GenRun where
  on : Bool
  ends : Nat
  period : Nat
deriving DecidableEq, Repr

/-- A Phase Mark refused FULL that is claimed again (R139). -/
structure OwedMark where
  mask : BitVec 4
  on : Bool
deriving DecidableEq, Repr

structure Gen where
  run : Option GenRun
  cycle : Nat
  owed : Option OwedMark
deriving DecidableEq, Repr

/-- The edge capture of a turn input (R143). -/
structure Capture where
  lastRise : Option Nat
  lastFall : Option Nat
  bad : Nat
  steady : Bool
deriving DecidableEq, Repr

inductive GuardState where
  | idle | runA | runB | dwell
deriving DecidableEq, Repr

/-- A direction of a reversing actuator. -/
inductive Dir where
  | a | b
deriving DecidableEq, Repr

/-- A reversal guard (R149). -/
structure Guard where
  owner : Option (Handle × Byte)
  state : GuardState
  dead : Nat
  limit : Nat
  runTimer : Option Nat
  deadTimer : Option Nat
  awaiting : Bool
  slot : Option Dir
deriving DecidableEq, Repr

/-! ### Known Trailer List (09) -/

inductive EntryState where
  | empty | valid | pinned
deriving DecidableEq, Repr

/-- A hint: position within the unit, function index, source (R176). -/
structure Hint where
  position : Nat
  index : FnIndex
  source : Src
deriving DecidableEq, Repr

/-- An entry of the list (R176). -/
structure KtlEntry where
  state : EntryState
  identity : Identity
  digest : Half
  nodeCount : Nat
  hints : List Hint
  stamp : Nat
deriving DecidableEq, Repr

/-- A cell of the non-volatile memory: the entry with its stored check (R215). -/
structure KtlCell where
  entry : KtlEntry
  check : Half
deriving DecidableEq, Repr

inductive WriteKind where
  | remember (truncated : Bool)
  | erase | pin | unpin
  | eraseList
  | renew
deriving DecidableEq, Repr

/-- The write in flight (R176, R190): kind, target (unused by ERASE LIST), contents and the end of its time limit. -/
structure KtlWrite where
  kind : WriteKind
  target : Fin 16
  content : KtlEntry
  limit : Nat
deriving DecidableEq, Repr

inductive NvOutcome where
  | none | ok | hintsTruncated | writeFailed
deriving DecidableEq, Repr

/-- A match the engine asks for (R44, R179). -/
structure MatchReq where
  unit : Nat
  first : Nat
  identity : Identity
  digest : Half
  nodeCount : Nat
deriving DecidableEq, Repr

/-! ### Host port (10) -/

/-- Result codes (R200). -/
inductive HostResult where
  | ok | accepted | busy | badHandle | badState | badValue | notEnabled | nvProtected | listFull
  | notFound | noGuard | unknownCommand
deriving DecidableEq, Repr

/-- The fifteen settings of CONFIGURE (R207), numbers in ms where they are times. -/
structure Settings where
  autoBringUp : Bool
  autoBind : Bool
  turnFollowL : Bool
  turnFollowR : Bool
  flashPeriod : Nat
  flvSource : Nat
  yieldLimit : Nat
  confirmLamp : Nat
  confirmSensor : Nat
  confirmActuator : Nat
  confirmSupply : Nat
  windowFixed : Bool
  fixed1 : Nat
  fixed2 : Nat
  fixed3 : Nat
deriving DecidableEq, Repr

/-- The next image a stream sends (R198). -/
inductive Stream where
  | none
  | records (next : Nat)
  | nodes (next : Nat)
deriving DecidableEq, Repr

/-- A transaction that the port frames (R194): the complete command and parameter bytes, the bits of the byte that is not
complete, the rising edges of SCLK since CS_N fell, the bit that SDO shows, counted from that fall, and whether a clock edge
has been seen. -/
structure SpiFrame where
  bytes : List Byte
  bits : List Bool
  clocks : Nat
  shown : Nat
  clocked : Bool
deriving DecidableEq, Repr

/-- CS_N and the transaction on the port: CS_N is high; it is low and the transaction is not framed, or was ended by RESET
(R210); or it is low and the port frames the transaction (R194). -/
inductive Spi where
  | high
  | unframed
  | framed (f : SpiFrame)
deriving DecidableEq, Repr

end Sys2Proof.Machine
end

