-- ==== Sys2Proof/Machine/State.lean ====
section
/-! DEFINITION. The state of the part, block by block, and its state after a device reset. -/

namespace Sys2Proof.Machine

/-- Coupling Monitor (R26). -/
structure Cmon where
  state : CouplingState
  sense : Bool
  settle : Option Nat
  part : Option Nat
  lineLost : Bool
deriving DecidableEq, Repr

/-- TDL Controller (01). `stray`: the first edge of a reply has been seen outside a reply window, and what follows it is line
activity, not a reply (R8; log entry 17). -/
structure Tdl where
  line : LineState
  urgent : List Request
  routine : List Request
  inFlight : Option InFlight
  orphan : Option Nat
  gapEnds : Nat
  frame : List Byte
  urgentRun : Nat
  nextBit : Vector Bool 12
  yieldDue : Bool
  yieldEnds : Option Nat
  reclaim : Reclaim
  faultEnds : Option Nat
  linePresent : Bool
  stray : Bool
deriving DecidableEq, Repr

/-- Bring-Up Engine (R31). -/
structure Bue where
  state : EngineState
  units : List UnitRec
  chainEnd : ChainEnd
  halt : HaltCause
  haltPosition : Nat
  tries : Nat
  lastProbe : Option ProbeReply
  nextIndex : Nat
  held : List (Addr × Nat)
  frontier : Countdown
  frontierHeld : Bool
  settledOnce : Bool
  request : EngineReq
  dropping : Bool
  errand : Errand
  deferred : Departure
  restart : RestartPhase
deriving DecidableEq, Repr

/-- Node Table (R51). -/
structure Ntab where
  nodes : List NodeEntry
  tick : Countdown
  hold : Bool
deriving DecidableEq, Repr

/-- Function Directory (04). -/
structure Fdir where
  slots : Vector Slot 96
  attention : List Handle
  recat : Option Recatalogue
deriving DecidableEq, Repr

/-- Proving Unit (R97, R98). -/
structure Prv where
  list : List Handle
  proof : Option Proof
deriving DecidableEq, Repr

/-- Demand Router (06). -/
structure Drt where
  inputs : Vector Bool 10
  sources : Vector Source 18
  lists : Vector (List Handle) 18
  pend : List Pend
deriving DecidableEq, Repr

/-- Flash and Reversal Timer (07). Index 0 of a pair is the left side. -/
structure Frt where
  chans : Vector ChanState 4
  gens : Vector Gen 3
  followOwed : Vector (Option OwedMark) 2
  modes : Vector Bool 2
  captures : Vector Capture 2
  turnFail : Bool
  guards : Vector Guard 6
deriving DecidableEq, Repr

/-- Confirm Scheduler (R159); confirm entries and Sample marks stand in the slots. -/
structure Csch where
  own : Nat
deriving DecidableEq, Repr

/-- Known Trailer List (R176). -/
structure Ktl where
  cells : Vector KtlCell 16
  entries : Vector KtlEntry 16
  scanning : Bool
  write : Option KtlWrite
  wel : Bool
  useCounter : Nat
  torn : Nat
  last : NvOutcome
  waiting : Option MatchReq
deriving DecidableEq, Repr

/-- Host Command Port (10), with the RESET and NVLOCK inputs. `vddLow`: VDD has fallen below 3.0 V and has not stood in
range for 1 ms since (R211). `spi`: the level of CS_N, with the transaction on the port (R194). -/
structure Hcp where
  flags : Half
  mask : Half
  cfg : Settings
  attnLow : Bool
  response : List Byte
  stream : Stream
  resetLow : Option Nat
  inReset : Bool
  resetEnds : Nat
  vddLow : Bool
  nvlock : Bool
  spi : Spi
deriving DecidableEq, Repr

/-- What is still to be done inside the event in hand; empty between events (log entry 4). -/
structure Agenda where
  /-- handles whose records have changed in this event (R89) -/
  joins : List Handle
  /-- the pending-drive set is to be drained (R127) -/
  drain : Bool
  /-- a scheduling pass is called for (R162) -/
  pass : Bool
  /-- generators whose first mark is claimed after the Drives of the event (R138) -/
  marks : List Generator
  /-- FOLLOWING channels whose mark is claimed (R142) -/
  follows : List TurnSide
deriving DecidableEq, Repr

/-- An empty agenda. -/
def Agenda.none : Agenda := { joins := [], drain := false, pass := false, marks := [], follows := [] }

/-- The state of the part and the commands waiting for it. -/
structure State where
  now : Nat
  pending : List Instr
  agenda : Agenda
  free : Nat
  cmon : Cmon
  tdl : Tdl
  bue : Bue
  ntab : Ntab
  fdir : Fdir
  prv : Prv
  drt : Drt
  frt : Frt
  csch : Csch
  ktl : Ktl
  hcp : Hcp
deriving DecidableEq, Repr

/-- The part has no behaviour that stops it: no command ends in a fault. -/
inductive Fault where
deriving DecidableEq, Repr

/-- Why a command has no meaning in the model. -/
inductive Refusal where
  /-- Raised by an arm of `exec` that has no meaning yet; no arm of this model raises it. Safe. -/
  | notModelled (mnemonic : String)
deriving DecidableEq, Repr

/-! ### Device reset values -/

/-- R26. -/
def Cmon.reset : Cmon :=
  { state := .uncoupled, sense := false, settle := none, part := none, lineLost := false }

/-- R1, R7, R14, R18, R21. -/
def Tdl.reset : Tdl :=
  { line := .down, urgent := [], routine := [], inFlight := none, orphan := none, gapEnds := 0, frame := [],
    urgentRun := 0, nextBit := Vector.replicate 12 false, yieldDue := false, yieldEnds := none,
    reclaim := .idle, faultEnds := none, linePresent := false, stray := false }

/-- R31. The next index, which it does not give, is 0 (log entry 44). -/
def Bue.reset : Bue :=
  { state := .idle, units := [], chainEnd := .none, halt := .none, haltPosition := 0, tries := 0,
    lastProbe := none, nextIndex := 0, held := [], frontier := .stopped, frontierHeld := false,
    settledOnce := false, request := .none, dropping := false, errand := .none, deferred := .none,
    restart := .none }

/-- R67. -/
def Ntab.reset : Ntab := { nodes := [], tick := .stopped, hold := false }

/-- R68: FREE, generation 0. -/
def Slot.reset : Slot :=
  { gen := 0, record := none, retireDrive := .none, confirm := none, sampleMark := .clear, sampleVoid := false }

/-- R68, R89. -/
def Fdir.reset : Fdir := { slots := Vector.replicate 96 Slot.reset, attention := [], recat := none }

/-- R97, R98. -/
def Prv.reset : Prv := { list := [], proof := none }

/-- The forms of the eighteen sources at the default settings (R114): TURN_L, TURN_R and BEACON flash on their
channels, and VD6 (17) on FL_V. -/
def Drt.resetForm (i : Nat) : Form :=
  match i with
  | 3 => .flashing .flL
  | 4 => .flashing .flR
  | 9 => .flashing .flB
  | 17 => .flashing .flV
  | _ => .steady

/-- R114, R120, R134. -/
def Drt.reset : Drt :=
  { inputs := Vector.replicate 10 false,
    sources := Vector.ofFn fun i : Fin 18 => { active := false, form := Drt.resetForm i.val },
    lists := Vector.replicate 18 [], pend := [] }

/-- R149: free, IDLE, 300 ms, 30 s. -/
def Guard.reset : Guard :=
  { owner := none, state := .idle, dead := 300, limit := 30, runTimer := none, deadTimer := none,
    awaiting := false, slot := none }

/-- R143: cleared. -/
def Capture.cleared : Capture := { lastRise := none, lastFall := none, bad := 0, steady := false }

/-- R135, R143, R148, R149. -/
def Frt.reset : Frt :=
  { chans := Vector.replicate 4 .stopped,
    gens := Vector.replicate 3 { run := none, cycle := 666, owed := none },
    followOwed := Vector.replicate 2 none, modes := Vector.replicate 2 false,
    captures := Vector.replicate 2 Capture.cleared, turnFail := false,
    guards := Vector.replicate 6 Guard.reset }

/-- R159. -/
def Csch.reset : Csch := { own := 0 }

/-- An EMPTY entry, whose other fields are shown as zero (R176). -/
def KtlEntry.blank : KtlEntry :=
  { state := .empty, identity := 0, digest := 0, nodeCount := 0, hints := [], stamp := 0 }

/-- The list at the end of a device reset: SCANNING, with the cells as they stood (R176). Nothing of the list is
taken before the scan. -/
def Ktl.reset (cells : Vector KtlCell 16) : Ktl :=
  { cells := cells, entries := Vector.replicate 16 KtlEntry.blank, scanning := true, write := none,
    wel := false, useCounter := 0, torn := 0, last := .none, waiting := none }

/-- R207. -/
def Settings.reset : Settings :=
  { autoBringUp := true, autoBind := true, turnFollowL := false, turnFollowR := false, flashPeriod := 666,
    flvSource := 6, yieldLimit := 300, confirmLamp := 1000, confirmSensor := 2000, confirmActuator := 500,
    confirmSupply := 1000, windowFixed := false, fixed1 := 4, fixed2 := 4, fixed3 := 4 }

/-- R203, R205, R206, R207. NVLOCK stands at the level of its pull-down (log entry 12), and CS_N is high (log entry 52). -/
def Hcp.reset : Hcp :=
  { flags := 0, mask := 0x1FFF, cfg := Settings.reset, attnLow := false, response := [], stream := .none,
    resetLow := none, inReset := false, resetEnds := 0, vddLow := false, nvlock := false, spi := .high }

/-- The check of an EMPTY entry as ERASE ENTRY writes it, 65 zero bytes (R215); `Laws.Commands` proves it is the
computed check. -/
def KtlCell.erasedCheck : Half := 0x71BB

/-- A cell never written: EMPTY with a correct check (log entry 13). -/
def KtlCell.blank : KtlCell := { entry := KtlEntry.blank, check := KtlCell.erasedCheck }

/-- The part at the end of a device reset (R211), with a stored list in which nothing was ever written. -/
def State.reset : State :=
  { now := 0, pending := [], agenda := Agenda.none, free := 0,
    cmon := Cmon.reset, tdl := Tdl.reset, bue := Bue.reset, ntab := Ntab.reset, fdir := Fdir.reset,
    prv := Prv.reset, drt := Drt.reset, frt := Frt.reset, csch := Csch.reset,
    ktl := Ktl.reset (Vector.replicate 16 KtlCell.blank), hcp := Hcp.reset }

end Sys2Proof.Machine
end

