-- ==== Sys2Proof/Machine/Ops.lean ====
section
/-! DEFINITION. Named operations over the state: clocks, slots and records, the Attention Set's joins, node entries,
addresses and units. -/

namespace Sys2Proof.Machine

/-! ### Clocks -/

/-- The remaining time of a running countdown is kept. -/
def Countdown.hold (now : Nat) : Countdown → Countdown
  | .running e => .held (e - now)
  | c => c

/-- A countdown that stood still runs on. -/
def Countdown.release (now : Nat) : Countdown → Countdown
  | .held r => .running (now + r)
  | c => c

def Countdown.ends : Countdown → Option Nat
  | .running e => some e
  | _ => none

def Stopwatch.value (now : Nat) : Stopwatch → Nat
  | .still v => v
  | .counting b t => b + (now - t)

def Stopwatch.hold (now : Nat) (w : Stopwatch) : Stopwatch := .still (w.value now)

def Stopwatch.release (now : Nat) : Stopwatch → Stopwatch
  | .still v => .counting v now
  | w => w

/-- The moment a counting clock reaches a value. -/
def Stopwatch.reaches (v : Nat) : Stopwatch → Option Nat
  | .still _ => none
  | .counting b t => some (t + (v - b))

/-- An event that is due at a moment is taken no earlier than that moment (log entry 2). -/
def State.advanceTo (s : State) (t : Nat) : State := { s with now := max s.now t }

/-- The line states in which clocks and deadlines run (R57, R58, R161). -/
def State.lineRuns (s : State) : Bool := s.tdl.line == .ready || s.tdl.line == .busy

/-! ### Slots and records -/

/-- The number by which the host names a handle (R68). -/
def Handle.code (h : Handle) : Byte := byte (h.val + 1)

/-- The handle a byte names, 1 to 96. -/
def handleOf (b : Byte) : Option Handle :=
  if h : 1 ≤ b.toNat ∧ b.toNat ≤ 96 then some ⟨b.toNat - 1, by omega⟩ else none

/-- All handles in rising order. -/
def allHandles : List Handle := List.finRange 96

def State.slot (s : State) (h : Handle) : Slot := s.fdir.slots[h]

def State.setSlot (s : State) (h : Handle) (x : Slot) : State :=
  { s with fdir := { s.fdir with slots := s.fdir.slots.set h x } }

def State.modifySlot (s : State) (h : Handle) (f : Slot → Slot) : State := s.setSlot h (f (s.slot h))

def State.record (s : State) (h : Handle) : Option Record := (s.slot h).record

def State.setRecord (s : State) (h : Handle) (r : Record) : State :=
  s.modifySlot h fun x => { x with record := some r }

/-- A record in a state other than FREE and RETIRED. -/
def State.live (s : State) (h : Handle) : Option Record :=
  match s.record h with
  | some r => if r.state == .retired then none else some r
  | none => none

/-- The live record a claim names by its pair (R74). -/
def State.livePair (s : State) (h : Handle) (gen : Byte) : Option Record :=
  if (s.slot h).gen == gen then s.live h else none

/-- The record a host command names (R69): handle 1 to 96, slot not FREE, generation equal; else BAD_HANDLE. -/
def State.named (s : State) (handle gen : Byte) : Option (Handle × Record) :=
  match handleOf handle with
  | some h =>
      if (s.slot h).gen == gen then (s.record h).map fun r => (h, r) else none
  | none => none

/-- READY, BOUND, FAULTED or STALE (R68). -/
def RecState.usable : RecState → Bool
  | .ready | .bound | .faulted | .stale => true
  | _ => false

def CatEntry.cls : CatEntry → Class
  | .lamp .. => .lamp
  | .sensor .. => .sensor
  | .actuator .. => .actuator
  | .supply .. => .supply

def Record.cls (r : Record) : Class := r.entry.cls

def Record.isLamp (r : Record) : Bool := r.cls == .lamp

/-- A REVERSING ACTUATOR (R79). -/
def CatEntry.reversing : CatEntry → Bool
  | .actuator rev _ _ _ _ => rev
  | _ => false

/-- The tie of a record: its binding or its intended source (R73). -/
def Record.tie (r : Record) : Option Src :=
  match r.binding with
  | some x => some x
  | none => r.intended

/-- The fault a record returns to where a rule sets NONE (R72). -/
def Record.restFault (r : Record) : RecFault :=
  if r.entry.reversing && r.guard.isNone then .noGuard else .none

/-- READY or BOUND by the binding (R73). -/
def Record.soundState (r : Record) : RecState := if r.binding.isSome then .bound else .ready

/-- Counts of FREE slots, usable records and RETIRED records (R68). -/
def State.countRecords (s : State) (p : Option Record → Bool) : Nat :=
  (allHandles.filter fun h => p (s.record h)).length

/-! ### The Attention Set (R89) -/

/-- A record has changed: its handle joins at the end of the event, unless the event is a host command's. -/
def State.join (s : State) (h : Handle) : State :=
  { s with agenda := { s.agenda with joins := h :: s.agenda.joins } }

/-- A handle joins the tail now; one already in the set keeps its place. -/
def State.joinNow (s : State) (h : Handle) : State :=
  if h ∈ s.fdir.attention then s
  else { s with fdir := { s.fdir with attention := s.fdir.attention ++ [h] } }

/-- The joins of an event, in rising handle order; never a handle twice, and never that of a FREE record (R89). -/
def State.flushJoins (s : State) : State :=
  let new := allHandles.filter fun h =>
    decide (h ∈ s.agenda.joins) && !decide (h ∈ s.fdir.attention) && (s.record h).isSome
  { s with fdir := { s.fdir with attention := s.fdir.attention ++ new } }

/-! ### Nodes, addresses and units -/

/-- A link address as it stands on the line and in images. -/
def Addr.code (a : Addr) : Byte := byte (a.val + 1)

def State.nodeAt (s : State) (position : Nat) : Option NodeEntry :=
  if position = 0 then none else s.ntab.nodes[position - 1]?

/-- The chain position of the entry that holds an address. -/
def State.positionOf (s : State) (a : Addr) : Option Nat :=
  (s.ntab.nodes.findIdx? fun n => n.address == a).map (· + 1)

def State.setNtab (s : State) (n : Ntab) : State := { s with ntab := n }

def State.modifyNode (s : State) (position : Nat) (f : NodeEntry → NodeEntry) : State :=
  if position = 0 then s
  else { s with ntab := { s.ntab with nodes := s.ntab.nodes.modify (position - 1) f } }

/-- Handles of the live records of the node at a position, in rising function index (R63). -/
def State.recordsAt (s : State) (position : Nat) : List Handle :=
  (List.finRange 16).flatMap fun i =>
    allHandles.filter fun h =>
      match s.live h with
      | some r => decide (r.position = position) && r.index == i
      | none => false

/-- The live record of a function of the node at a position (R71). -/
def State.recordOf (s : State) (position : Nat) (i : FnIndex) : Option Handle :=
  allHandles.find? fun h =>
    match s.live h with
    | some r => decide (r.position = position) && r.index == i
    | none => false

/-- The AUTO window of a unit in ms: its largest echo delay plus 2 ms, rounded up, within 2 to 12; 4 ms with no
node entry (R9). -/
def State.autoWindow (s : State) (unit : Nat) : Nat :=
  match (s.ntab.nodes.filter fun n => n.unit = unit).map (·.echo) with
  | [] => 4
  | e :: es => min 12 (max 2 ((es.foldl max e + 20 + 9) / 10))

def State.fixedWindow (s : State) (unit : Nat) : Nat :=
  match unit with
  | 1 => s.hcp.cfg.fixed1
  | 2 => s.hcp.cfg.fixed2
  | _ => s.hcp.cfg.fixed3

/-- The reply window of a unit in ms (R8). -/
def State.unitWindow (s : State) (unit : Nat) : Nat :=
  if s.hcp.cfg.windowFixed then s.fixedWindow unit else s.autoWindow unit

/-- The reply window of a request to address 0 in ms (R8). -/
def State.zeroWindow (s : State) : Nat :=
  if s.hcp.cfg.windowFixed then max s.hcp.cfg.fixed1 (max s.hcp.cfg.fixed2 s.hcp.cfg.fixed3) else 12

end Sys2Proof.Machine
end

