-- ==== Sys2Proof/Machine/Flags.lean ====
section
/-! DEFINITION. Event flags, the event mask and ATTN (R203 to R206). -/

namespace Sys2Proof.Machine

/-- The twelve event flags (R203). -/
inductive Flag where
  | coupled | parted | settled | chainChange | chainFault | unitLimit | dirFull | lineYield | lineFault
  | nvDone | ktlMismatch | frameError
deriving DecidableEq, Repr

/-- The bit of a flag, in the order of R203's table (R214). -/
def Flag.bit : Flag → Nat
  | .coupled => 0 | .parted => 1 | .settled => 2 | .chainChange => 3 | .chainFault => 4 | .unitLimit => 5
  | .dirFull => 6 | .lineYield => 7 | .lineFault => 8 | .nvDone => 9 | .ktlMismatch => 10 | .frameError => 11

/-- Set an event flag (R203). -/
def State.raise (s : State) (f : Flag) : State :=
  { s with hcp := { s.hcp with flags := s.hcp.flags ||| (1#16 <<< f.bit) } }

/-- A mask of ACK EVENTS names only the twelve flags (R204). -/
def ackMaskOk (mask : Half) : Bool := mask &&& 0xF000 == 0

/-- A mask of SET EVENT MASK names only the thirteen enables (R205). -/
def eventMaskOk (mask : Half) : Bool := mask &&& 0xE000 == 0

/-- R206: an enabled flag is set, or the Attention Set is not empty and its enable is on; released while RESET is
low and during a device reset. -/
def State.attnWanted (s : State) : Bool :=
  ((s.hcp.flags &&& s.hcp.mask &&& 0x0FFF) != 0 || (!s.fdir.attention.isEmpty && s.hcp.mask.getLsbD 12))
    && s.hcp.resetLow.isNone && !s.hcp.inReset

/-- A record's share in the turn-fail condition (R146). -/
def State.unsound (s : State) (h : Handle) : Bool :=
  match s.record h with
  | some r => r.state == .faulted || r.state == .stale
  | none => false

/-- The turn-fail condition: a record on the list of TURN_L (3), TURN_R (4), CMB_L (10) or CMB_R (11) is FAULTED or
STALE (R146). -/
def State.turnFailCondition (s : State) : Bool :=
  [(3 : Src), 4, 10, 11].any fun src => s.drt.lists[src].any s.unsound

/-- The level of TURN_FAIL (R148). -/
def State.turnFailWanted (s : State) : Bool :=
  s.turnFailCondition && (s.frt.modes[(0 : Fin 2)] || s.frt.modes[(1 : Fin 2)])

/-- ATTN and TURN_FAIL change in the event that changes one of their causes (R148, R206). -/
def State.drivePins (s : State) : State :=
  { s with
    hcp := { s.hcp with attnLow := s.attnWanted }
    frt := { s.frt with turnFail := s.turnFailWanted && !s.hcp.inReset } }

end Sys2Proof.Machine
end

