-- ==== Sys2Proof/Machine/Operands.lean ====
section
/-! DEFINITION. Operand encodings: the codes of R212 to R215, catalogue entries, the settings of CONFIGURE. -/

namespace Sys2Proof.Machine

/-! ### Output words (R212) -/

def Chan.number : Chan → Fin 4
  | .flL => 0 | .flR => 1 | .flB => 2 | .flV => 3

def OutWord.code : OutWord → Nat
  | .off => 0 | .on => 1
  | .flash .flL => 2 | .flash .flR => 3 | .flash .flB => 4 | .flash .flV => 5
  | .runA => 6 | .runB => 7 | .stop => 8

def OutWord.ofCode : Nat → Option OutWord
  | 0 => some .off | 1 => some .on
  | 2 => some (.flash .flL) | 3 => some (.flash .flR) | 4 => some (.flash .flB) | 5 => some (.flash .flV)
  | 6 => some .runA | 7 => some .runB | 8 => some .stop
  | _ => none

/-! ### Catalogue entries (R40, R213) -/

def Class.code : Class → Nat
  | .lamp => 0 | .sensor => 1 | .actuator => 2 | .supply => 3

def Class.ofCode : Nat → Option Class
  | 0 => some .lamp | 1 => some .sensor | 2 => some .actuator | 3 => some .supply | _ => none

def LampRole.code : LampRole → Nat
  | .tail => 0 | .stop => 1 | .turn => 2 | .stopTurn => 3 | .reverse => 4 | .fog => 5 | .marker => 6
  | .plate => 7 | .work => 8 | .beacon => 9

def LampRole.ofCode : Nat → Option LampRole
  | 0 => some .tail | 1 => some .stop | 2 => some .turn | 3 => some .stopTurn | 4 => some .reverse
  | 5 => some .fog | 6 => some .marker | 7 => some .plate | 8 => some .work | 9 => some .beacon | _ => none

def LampSide.code : LampSide → Nat
  | .left => 0 | .right => 1 | .centre => 2

def LampSide.ofCode : Nat → Option LampSide
  | 0 => some .left | 1 => some .right | 2 => some .centre | _ => none

/-- A lamp's bands: 0, or within its range (R40). -/
def bandLowOk (b : Byte) : Bool := decide (b.toNat ≤ 95)
def bandHighOk (b : Byte) : Bool := b == 0 || (decide (105 ≤ b.toNat) && decide (b.toNat ≤ 250))

/-- A valid catalogue entry from its six bytes, band defaults applied; none when the entry is not valid (R40, R213). -/
def parseEntry : List Byte → Option CatEntry
  | [c, b1, b2, b3, b4, b5] =>
      match c.toNat with
      | 0 =>
          match LampRole.ofCode (b1.toNat / 16), LampSide.ofCode (b1.toNat % 16) with
          | some role, some side =>
              if b2 != 0 && bandLowOk b3 && bandHighOk b4 then
                some (.lamp role side b2 (if b3 == 0 then 25 else b3) (if b4 == 0 then 200 else b4) b5)
              else none
          | _, _ => none
      | 1 => if b1.toNat ≤ 5 then some (.sensor b1 b2 b3 b4 b5) else none
      | 2 => if b1.toNat ≤ 1 then some (.actuator (b1 == 1) b2 b3 b4 b5) else none
      | 3 => if b2 != 0 then some (.supply b1 b2 b3 b4 b5) else none
      | _ => none
  | _ => none

/-- The six bytes of an entry as a record holds it (R213). -/
def CatEntry.bytes : CatEntry → List Byte
  | .lamp role side n lo hi u => [0, byte (16 * role.code + side.code), n, lo, hi, u]
  | .sensor k uc u3 u4 u5 => [1, k, uc, u3, u4, u5]
  | .actuator rev m u3 u4 u5 => [2, if rev then 1 else 0, m, u3, u4, u5]
  | .supply u1 r u3 u4 u5 => [3, u1, r, u3, u4, u5]

/-! ### Codes of states and results (R214, R215) -/

def RecState.code : RecState → Nat
  | .provisional => 1 | .proving => 2 | .ready => 3 | .bound => 4 | .faulted => 5 | .stale => 6 | .retired => 7

def Before.state : Before → RecState
  | .ready => .ready | .bound => .bound | .faulted => .faulted

def RecFault.code : RecFault → Nat
  | .none => 0 | .open => 1 | .overload => 2 | .outputMismatch => 3 | .refused => 4 | .noGuard => 5

def Motion.code : Motion → Nat
  | .stopped => 0 | .runningA => 1 | .runningB => 2 | .dwell => 3

def RetireReason.code : RetireReason → Nat
  | .uncoupled => 1 | .nodeLost => 2 | .chainCut => 3 | .line => 4 | .host => 5 | .restart => 6

def Threshold.code : Threshold → Nat
  | .below => 1 | .normal => 2 | .above => 3

def NodeState.code : NodeState → Nat
  | .assigned => 1 | .describing => 2 | .live => 3 | .suspect => 4 | .lost => 0

def EntryState.code : EntryState → Nat
  | .empty => 0 | .valid => 1 | .pinned => 2

def CouplingState.code : CouplingState → Nat
  | .uncoupled => 0 | .settling => 1 | .coupled => 2 | .parting => 3

def EngineState.code : EngineState → Nat
  | .idle => 0 | .waitStart => 1 | .probe => 2 | .assign => 3 | .describe => 4 | .extend => 5
  | .matching => 6 | .settled => 7 | .halted => 8

def ChainEnd.code : ChainEnd → Nat
  | .none => 0 | .ended => 1 | .unitLimit => 2 | .windowLimit => 3 | .nodeLimit => 4

def HaltCause.code : HaltCause → Nat
  | .none => 0 | .collision => 1 | .badProbe => 2 | .assignFailed => 3 | .gateRefused => 4

def LineState.code : LineState → Nat
  | .down => 0 | .ready => 1 | .busy => 2 | .yielded => 3 | .reclaiming => 4 | .fault => 5

def NvOutcome.code : NvOutcome → Nat
  | .none => 0 | .ok => 1 | .hintsTruncated => 2 | .writeFailed => 3

def HostResult.code : HostResult → Nat
  | .ok => 0 | .accepted => 1 | .busy => 2 | .badHandle => 3 | .badState => 4 | .badValue => 5
  | .notEnabled => 6 | .nvProtected => 7 | .listFull => 8 | .notFound => 9 | .noGuard => 10
  | .unknownCommand => 11

def ReplyStatus.ofCode : Nat → Option ReplyStatus
  | 0 => some .ok | 1 => some .refused | 2 => some .fault | 3 => some .noFunction | _ => none

def bit (b : Bool) : Nat := if b then 1 else 0

/-- The source a byte names, 0 to 17 (R114). -/
def srcOf (b : Byte) : Option Src := if h : b.toNat < 18 then some ⟨b.toNat, h⟩ else none

/-- VD1 to VD6 are named 1 to 6 (R214) and are sources 12 to 17. -/
def virtualOf (n : Nat) : Option Src :=
  if h : 1 ≤ n ∧ n ≤ 6 then some ⟨n + 11, by omega⟩ else none

/-! ### Settings (R207) -/

/-- A value within the range of a setting; false for a number outside 0 to 14. -/
def settingOk (number value : Nat) : Bool :=
  match number with
  | 0 | 1 | 2 | 3 | 11 => decide (value ≤ 1)
  | 4 => decide (500 ≤ value) && decide (value ≤ 1000)
  | 5 => decide (1 ≤ value) && decide (value ≤ 6)
  | 6 => decide (100 ≤ value) && decide (value ≤ 500)
  | 7 | 8 | 9 | 10 => decide (100 ≤ value) && decide (value ≤ 5000)
  | 12 | 13 | 14 => decide (2 ≤ value) && decide (value ≤ 12)
  | _ => false

/-- The settings with one of them given a value. -/
def Settings.set (c : Settings) (number value : Nat) : Settings :=
  match number with
  | 0 => { c with autoBringUp := value == 1 }
  | 1 => { c with autoBind := value == 1 }
  | 2 => { c with turnFollowL := value == 1 }
  | 3 => { c with turnFollowR := value == 1 }
  | 4 => { c with flashPeriod := value }
  | 5 => { c with flvSource := value }
  | 6 => { c with yieldLimit := value }
  | 7 => { c with confirmLamp := value }
  | 8 => { c with confirmSensor := value }
  | 9 => { c with confirmActuator := value }
  | 10 => { c with confirmSupply := value }
  | 11 => { c with windowFixed := value == 1 }
  | 12 => { c with fixed1 := value }
  | 13 => { c with fixed2 := value }
  | 14 => { c with fixed3 := value }
  | _ => c

/-- The fifteen values in setting order (R207). -/
def Settings.values (c : Settings) : List Nat :=
  [bit c.autoBringUp, bit c.autoBind, bit c.turnFollowL, bit c.turnFollowR, c.flashPeriod, c.flvSource,
   c.yieldLimit, c.confirmLamp, c.confirmSensor, c.confirmActuator, c.confirmSupply, bit c.windowFixed,
   c.fixed1, c.fixed2, c.fixed3]

/-- The class default confirm interval (R77, R207). -/
def Settings.confirmDefault (c : Settings) : Class → Nat
  | .lamp => c.confirmLamp
  | .sensor => c.confirmSensor
  | .actuator => c.confirmActuator
  | .supply => c.confirmSupply

/-- The mode a turn input is set to: true for FOLLOW (R115). -/
def Settings.follow (c : Settings) : TurnSide → Bool
  | .left => c.turnFollowL
  | .right => c.turnFollowR

/-- The default role table (R119). -/
def defaultSource : LampRole → LampSide → Option Src
  | .tail, .right => some 1
  | .tail, _ => some 0
  | .stop, _ => some 2
  | .turn, .left => some 3
  | .turn, .right => some 4
  | .turn, .centre => none
  | .stopTurn, .left => some 10
  | .stopTurn, .right => some 11
  | .stopTurn, .centre => none
  | .reverse, _ => some 5
  | .fog, _ => some 6
  | .marker, _ => some 7
  | .plate, _ => some 0
  | .work, _ => some 8
  | .beacon, _ => some 9

end Sys2Proof.Machine
end

