-- ==== Sys2Proof/Machine/Formats.lean ====
section
/-! DEFINITION. Byte layouts: checks, request and reply frames (R212), the status word (R214) and the images (R215). -/

namespace Sys2Proof.Machine

/-! ### Cyclic checks -/

/-- One bit step of the 8-bit check, generator 07h (R212). -/
def crc8Step (r : Byte) : Byte := if r.msb then (r <<< 1) ^^^ 0x07#8 else r <<< 1

/-- One byte folded into the 8-bit check, most significant bit first. -/
def crc8Byte (r b : Byte) : Byte :=
  crc8Step (crc8Step (crc8Step (crc8Step (crc8Step (crc8Step (crc8Step (crc8Step (r ^^^ b))))))))

/-- The frame check over the bytes after the lead character, start value FFh (R212). -/
def frameCheck (bs : List Byte) : Byte := bs.foldl crc8Byte 0xFF#8

/-- One bit step of the 16-bit check, generator 1021h (R213). -/
def crc16Step (r : Half) : Half := if r.msb then (r <<< 1) ^^^ 0x1021#16 else r <<< 1

/-- One byte folded into the 16-bit check. -/
def crc16Byte (r : Half) (b : Byte) : Half :=
  crc16Step (crc16Step (crc16Step (crc16Step (crc16Step (crc16Step (crc16Step (crc16Step
    (r ^^^ (b.setWidth 16 <<< 8)))))))))

/-- The start value of a unit's digest (R41, R213). -/
def digestStart : Half := 0xFFFF#16

/-- Fold bytes into a digest (R41). -/
def digestFold (d : Half) (bs : List Byte) : Half := bs.foldl crc16Byte d

/-! ### Request frames (R3, R212) -/

/-- The lead character. -/
def lead : Byte := 0xA5#8

/-- The kind code of a request. -/
def Request.kind : Request → Nat
  | .probe => 1 | .assign .. => 2 | .describe .. => 3 | .extend .. => 4 | .drive .. => 5 | .prove .. => 6
  | .sample .. => 7 | .hail .. => 8 | .release .. => 9 | .releaseAll => 9 | .phaseMark .. => 10

/-- The link address 1 to 12 a request is addressed to, if any (R6). -/
def Request.address : Request → Option Addr
  | .probe | .assign .. | .releaseAll | .phaseMark .. => none
  | .describe a _ _ => some a
  | .extend a _ => some a
  | .drive d => some d.address
  | .prove a _ => some a
  | .sample _ a _ _ _ => some a
  | .hail a _ => some a
  | .release a _ => some a

/-- The destination field (R6). -/
def Request.destination : Request → Nat
  | .probe | .assign .. => 0
  | .releaseAll | .phaseMark .. => 15
  | r => match r.address with
    | some a => a.val + 1
    | none => 0

/-- The function index field: the new address for an Assign, 0 for kinds with no function (R3, R5). -/
def Request.fnField : Request → Nat
  | .assign a _ => a.val + 1
  | .describe _ i _ => i.val
  | .drive d => d.index.val
  | .prove _ i => i.val
  | .sample _ _ i _ _ => i.val
  | _ => 0

/-- The payload (R5, R212). -/
def Request.payload : Request → List Byte
  | .assign _ i => identityBytes i
  | .extend _ opening => [if opening then 1 else 0]
  | .drive d => [byte d.word.code]
  | .prove _ _ => [40]
  | .phaseMark m on => [byte (m.toNat + if on then 128 else 0)]
  | _ => []

/-- The bytes of a request frame after the lead character, less the check. -/
def Request.body (r : Request) (seq : Bool) : List Byte :=
  byte (16 * r.destination + r.kind) :: byte ((if seq then 128 else 0) + r.fnField) :: r.payload

/-- A request frame (R212). -/
def Request.frame (r : Request) (seq : Bool) : List Byte :=
  lead :: (r.body seq ++ [frameCheck (r.body seq)])

/-- Broadcasts and Release are not answered (R5). -/
def Request.answered : Request → Bool
  | .release .. | .releaseAll | .phaseMark .. => false
  | _ => true

/-! ### Reply frames (R4, R212) -/

/-- Length of an OK reply's payload. -/
def Request.okLength : Request → Nat
  | .probe => 9
  | .describe .. => 6
  | .prove .. => 1
  | .sample .. => 4
  | .hail .. => 1
  | _ => 0

/-- Payload length by kind and status (R4). -/
def Request.replyLength (r : Request) : ReplyStatus → Nat
  | .ok => r.okLength
  | .fault => 1
  | _ => 0

/-- The source address a valid reply carries (R4). -/
def Request.replySource : Request → Nat
  | .assign a _ => a.val + 1
  | r => r.destination

/-- Codes inside a payload that make a reply broken when wrong: the fault reading, and a Sample's output word and
quality (R212). -/
def Request.payloadOk (r : Request) (st : ReplyStatus) (p : List Byte) : Bool :=
  match st, r, p with
  | .fault, _, [b] => b == 1 || b == 2
  | .ok, .sample .., w :: q :: _ => decide (w.toNat % 128 ≤ 8) && decide (q.toNat ≤ 1)
  | _, _, _ => true

/-- The status and payload of a valid reply to a request; none for a broken one (R4). Characters after the length
the reply calls for are not used. -/
def Request.parseReply (r : Request) (bs : List Byte) : Option (ReplyStatus × List Byte) :=
  match bs with
  | l :: b :: rest =>
      match ReplyStatus.ofCode (b.toNat % 16) with
      | some st =>
          let p := rest.take (r.replyLength st)
          let check := rest[r.replyLength st]?
          if l == lead && decide (b.toNat / 16 = r.replySource) && check == some (frameCheck (b :: p))
              && r.payloadOk st p then
            some (st, p)
          else none
      | none => none
  | _ => none

/-- The identity, unit-head flag and function count of a Probe reply (R212). -/
def parseProbe (p : List Byte) : ProbeReply :=
  let last := (p[8]?.getD 0).toNat
  { identity := BitVec.ofNat 64 (bytesNat (p.take 8)), head := decide (128 ≤ last), count := last % 32 }

/-- A Sample reply (R158, R212). -/
structure SampleReply where
  word : OutWord
  level : Bool
  good : Bool
  value : Half
deriving DecidableEq, Repr

def parseSample (p : List Byte) : SampleReply :=
  let w := (p[0]?.getD 0).toNat
  { word := (OutWord.ofCode (w % 128)).getD .off, level := decide (128 ≤ w), good := p[1]?.getD 0 == 0,
    value := BitVec.ofNat 16 (bytesNat (p.drop 2)) }

/-- Lit: ON, or FLASH with its level lit (R158). -/
def SampleReply.lit (x : SampleReply) : Bool :=
  match x.word with
  | .on => true
  | .flash _ => x.level
  | _ => false

/-- The fault reading of a FAULT reply (R212). -/
def faultReading (p : List Byte) : RecFault := if p[0]?.getD 0 == 2 then .overload else .open

/-! ### The stored list's check (R215) -/

def hintBytes (x : Hint) : List Byte := [byte (16 * x.position + x.index.val), byte x.source.val]

/-- Bytes 1 to 65 of an entry image. -/
def KtlEntry.bytes (e : KtlEntry) : List Byte :=
  byte e.state.code :: (identityBytes e.identity ++ halfBytes e.digest ++ [byte e.nodeCount, byte e.hints.length]
    ++ ((e.hints.flatMap hintBytes) ++ List.replicate 48 0).take 48 ++ natBytes4 e.stamp)

/-- The entry check over those 65 bytes (R215). -/
def KtlEntry.check (e : KtlEntry) : Half := digestFold 0xFFFF#16 e.bytes

/-- A cell whose stored check agrees with its contents (R178). -/
def KtlCell.sound (c : KtlCell) : Bool := c.check == c.entry.check

/-- A written cell: its check is computed when the entry is written (R215). -/
def KtlEntry.cell (e : KtlEntry) : KtlCell := { entry := e, check := e.check }

/-- A cell that a cut write left part-written, or whose read-back disagreed: it fails its check (R190, R191; log
entry 14). -/
def KtlEntry.tornCell (e : KtlEntry) : KtlCell := { entry := e, check := ~~~ e.check }

/-- The entry image of KTL READ, 66 bytes; an EMPTY entry shows zero in every other field (R192, R215). -/
def entryImage (index : Nat) (e : KtlEntry) : List Byte :=
  byte index :: (if e.state == .empty then KtlEntry.blank else e).bytes

/-! ### Record and node images (R95, R96, R215) -/

def optByte (d : Nat) (x : Option Nat) : Byte := byte (x.getD d)

/-- A clock counted in tenths of a millisecond, in ms, stopping at 65535 (R172). A fraction of a millisecond is rounded down
(log entry 54, the model's choice). -/
def ageMs (now : Nat) (w : Stopwatch) : Nat := min Config.ageLimitMs (w.value now / 10)

/-- The record image of a slot, 33 bytes (R215). -/
def State.recordImage (s : State) (h : Handle) : List Byte :=
  let gen := (s.slot h).gen
  let changed := if h ∈ s.fdir.attention then 128 else 0
  match s.record h with
  | none =>
      [h.code, gen, byte changed] ++ List.replicate 10 0 ++ [0xFF, 0xFF, 0, 0xFF, 0xFF, 0xFF, 0xFF]
        ++ List.replicate 13 0
  | some r =>
      let before := match r.before with
        | some b => b.state.code
        | none => 0
      let summary := match r.address with
        | some a => ((s.ntab.nodes.find? fun n => n.address == a).map (·.summary)).getD 0
        | none => 0
      let sensor := r.cls == .sensor
      [h.code, gen, byte (changed + 16 * before + r.state.code),
        optByte 0 (r.address.map fun a => a.val + 1), byte r.position, byte r.unit, byte r.index.val]
      ++ r.entry.bytes
      ++ [optByte 255 (r.binding.map (·.val)), optByte 255 (r.intended.map (·.val)), byte r.fault.code,
        optByte 255 (r.wanted.map OutWord.code), optByte 255 (r.confirmed.map OutWord.code),
        optByte 255 (r.motion.map Motion.code), optByte 255 (r.guard.map (·.val)),
        optByte 0 (r.reason.map RetireReason.code), optByte 0 (r.reading.map fun x => x.threshold.code)]
      ++ natBytes2 (r.interval.getD 0)
      ++ halfBytes ((r.reading.map (·.value)).getD 0)
      ++ natBytes2 ((r.reading.map fun x => ageMs s.now x.age).getD 0)
      ++ halfBytes (if sensor then r.lowThreshold else 0) ++ halfBytes (if sensor then r.highThreshold else 0)
      ++ [summary]

/-- The node image of a position, 21 bytes; zero bytes where no entry stands (R215). The last-heard clock is given in ms, a
fraction of a millisecond rounded down (log entry 54, the model's choice). -/
def State.nodeImage (s : State) (position : Nat) : List Byte :=
  match s.nodeAt position with
  | none => List.replicate 21 0
  | some n =>
      [byte position, byte n.state.code, n.address.code, byte n.unit, byte (bit n.head + 2 * bit n.gateOpen)]
      ++ identityBytes n.identity
      ++ [byte n.count, byte n.admitted, byte n.unadmitted, byte n.echo, byte n.failures]
      ++ natBytes2 (min 1000 (n.heard.value s.now / 10)) ++ [n.summary]

/-! ### The status word (R202, R214) -/

/-- NV busy: scanning, or a write in flight (R176). -/
def State.nvBusy (s : State) : Bool := s.ktl.scanning || s.ktl.write.isSome

/-- The status word, 14 bytes. -/
def State.statusWord (s : State) : List Byte :=
  let halt := if s.bue.state == .halted then s.bue.halt.code else 0
  let usable := fun (x : Option Record) => match x with
    | some r => r.state.usable
    | none => false
  let gone := fun (x : Option Record) => match x with
    | some r => r.state == .retired
    | none => false
  [byte s.cmon.state.code, byte s.bue.state.code, byte (16 * s.bue.chainEnd.code + halt), byte s.tdl.line.code,
   byte (16 * s.bue.units.length + s.ntab.nodes.length),
   byte (s.countRecords Option.isNone), byte (s.countRecords usable), byte (s.countRecords gone),
   byte s.fdir.attention.length]
  ++ halfBytes s.hcp.flags
  ++ [byte (bit s.ktl.wel + 2 * bit s.nvBusy + 4 * s.ktl.last.code), byte s.ktl.torn,
      byte (bit (s.frt.captures[(0 : Fin 2)].steady || s.frt.captures[(1 : Fin 2)].steady) + 2 * bit s.frt.turnFail)]

/-- The data of READ CONFIG, 33 bytes (R209, R214). -/
def State.configData (s : State) : List Byte :=
  s.hcp.cfg.values.flatMap natBytes2
  ++ [byte (bit s.frt.modes[(0 : Fin 2)] + 2 * bit s.frt.modes[(1 : Fin 2)])] ++ halfBytes s.hcp.mask

end Sys2Proof.Machine
end

