-- ==== Sys2Proof/Machine/Line.lean ====
section
/-! DEFINITION. TDL Controller: the Line Queue and its claims, the arbiter, attempts and their frames (01). -/

namespace Sys2Proof.Machine

/-! ### The Line Queue (R14, R15, R16) -/

/-- A predicate holds of the request in flight. -/
def State.inFlightIs (s : State) (p : Request → Bool) : Bool :=
  match s.tdl.inFlight with
  | some f => p f.req
  | none => false

/-- Entries of the urgent class that satisfy a predicate; the request in flight keeps its entry (R14). -/
def Tdl.urgentOf (t : Tdl) (p : Request → Bool) : Nat :=
  t.urgent.countP p + (match t.inFlight with
    | some f => if f.urgent && p f.req then 1 else 0
    | none => 0)

/-- Entries of the routine class that satisfy a predicate. -/
def Tdl.routineOf (t : Tdl) (p : Request → Bool) : Nat :=
  t.routine.countP p + (match t.inFlight with
    | some f => if !f.urgent && p f.req then 1 else 0
    | none => 0)

def Request.isDrive : Request → Bool
  | .drive _ => true
  | _ => false

/-- A Drive for a handle. -/
def Request.isDriveFor (h : Handle) : Request → Bool
  | .drive d => d.handle == h
  | _ => false

def State.urgentEntries (s : State) : Nat := s.tdl.urgentOf fun _ => true

def State.routineEntries (s : State) : Nat := s.tdl.routineOf fun _ => true

/-- Drives in the urgent class. -/
def State.urgentDriveEntries (s : State) : Nat := s.tdl.urgentOf Request.isDrive

/-- A waiting or in-flight request satisfies a predicate. -/
def State.queued (s : State) (p : Request → Bool) : Bool :=
  s.tdl.urgent.any p || s.tdl.routine.any p || s.inFlightIs p

/-- The Line Queue holds a Drive for the handle, waiting or in flight. -/
def State.driveQueued (s : State) (h : Handle) : Bool := s.queued (Request.isDriveFor h)

def State.setUrgent (s : State) (q : List Request) : State := { s with tdl := { s.tdl with urgent := q } }
def State.setRoutine (s : State) (q : List Request) : State := { s with tdl := { s.tdl with routine := q } }

/-- A routine claim other than a Drive's (R15). -/
def State.claimRoutine (s : State) (r : Request) : State × ClaimAnswer :=
  if s.tdl.line == .down then (s, .down)
  else if s.routineEntries < Config.routineSize then (s.setRoutine (s.tdl.routine ++ [r]), .taken)
  else (s, .full)

/-- A Phase Mark's claim (R15): refused DOWN in DOWN, YIELDED, RECLAIMING and FAULT. -/
def State.claimMark (s : State) (mask : BitVec 4) (on : Bool) : State × ClaimAnswer :=
  if !s.lineRuns then (s, .down)
  else if s.urgentEntries < Config.urgentSize then
    (s.setUrgent (s.tdl.urgent ++ [.phaseMark mask on]), .taken)
  else (s, .full)

/-- A waiting Drive for the handle carries the word claimed and keeps its place (R16). -/
def mergeWord (h : Handle) (w : OutWord) (q : List Request) : List Request :=
  q.map fun r => match r with
    | .drive d => if d.handle == h then .drive { d with word := w } else r
    | _ => r

/-- A Drive's claim in a class (R15, R16). -/
def State.claimDrive (s : State) (d : DriveReq) (urgent : Bool) : State × ClaimAnswer :=
  if s.tdl.line == .down then (s, .down)
  else if s.inFlightIs (Request.isDriveFor d.handle) then (s, .inFlight)
  else if s.tdl.urgent.any (Request.isDriveFor d.handle) then
    (s.setUrgent (mergeWord d.handle d.word s.tdl.urgent), .merged)
  else if s.tdl.routine.any (Request.isDriveFor d.handle) then
    (s.setRoutine (mergeWord d.handle d.word s.tdl.routine), .merged)
  else if urgent then
    if s.urgentDriveEntries < Config.urgentDrives ∧ s.urgentEntries < Config.urgentSize then
      (s.setUrgent (s.tdl.urgent ++ [.drive d]), .taken)
    else (s, .full)
  else if s.routineEntries < Config.routineSize then (s.setRoutine (s.tdl.routine ++ [.drive d]), .taken)
  else (s, .full)

/-! ### Making room at the head of the routine class (R17, R64) -/

/-- The newest `k` requests of a queue that may be taken out; the queue left, and those taken out, newest first. The newest are
those nearest the tail: a request's place tells its age, also where Releases placed at the head have come later (log entry 59,
the model's choice). -/
def takeOutNewest (keep : Request → Bool) (k : Nat) (q : List Request) : List Request × List Request :=
  let r := q.reverse.foldl (fun (acc : Nat × List Request × List Request) r =>
      if 0 < acc.1 && !keep r then (acc.1 - 1, acc.2.1, acc.2.2 ++ [r]) else (acc.1, r :: acc.2.1, acc.2.2))
    (k, [], [])
  (r.2.1, r.2.2)

def Request.isHailTo (a : Addr) : Request → Bool
  | .hail b _ => b == a
  | _ => false

def Request.isSweepHail : Request → Bool
  | .hail _ .none => false
  | .hail _ _ => true
  | _ => false

def Request.isCutRelease : Request → Bool
  | .release _ false => true
  | _ => false

def Request.isRestartRelease : Request → Bool
  | .releaseAll => true
  | _ => false

/-! ### Attempts (R7 to R12) -/

/-- The window of a request's attempt, in ms (R8): of the destination node's unit, or the one for address 0. To a link address
that no node entry holds any more it is 4 ms, in FIXED mode too, where R8 gives none (log entry 47). -/
def State.windowOf (s : State) (r : Request) : Nat :=
  match r.address with
  | some a =>
      match s.ntab.nodes.find? fun n => n.address == a with
      | some n => s.unitWindow n.unit
      | none => 4
  | none => s.zeroWindow

/-- The sequence bit a request carries: the next bit of its address, 0 for addresses 0 and 15 (R7). -/
def State.seqOf (s : State) (r : Request) : Bool :=
  match r.address with
  | some a => s.tdl.nextBit[a]
  | none => false

def State.setNextBit (s : State) (a : Addr) (b : Bool) : State :=
  { s with tdl := { s.tdl with nextBit := s.tdl.nextBit.set a b } }

def State.setInFlight (s : State) (f : Option InFlight) : State := { s with tdl := { s.tdl with inFlight := f } }

def State.setLine (s : State) (l : LineState) : State := { s with tdl := { s.tdl with line := l } }

/-- Line activity: the idle gap begins again (R10). -/
def State.restartGap (s : State) : State := { s with tdl := { s.tdl with gapEnds := s.now + Config.gapTime } }

/-- The second attempt of a Drive carries the pending entry's word, which leaves the set (R12). -/
def State.secondWord (s : State) (r : Request) : State × Request :=
  match r with
  | .drive d =>
      match s.drt.pend.find? fun p => p.handle == d.handle with
      | some p =>
          let s := { s with drt := { s.drt with pend := s.drt.pend.filter fun q => !(q.handle == d.handle) } }
          let s := match s.live d.handle with
            | some rec =>
                s.setRecord d.handle { rec with drive := rec.drive.map fun x => { x with lastPlaced := some p.word } }
            | none => s
          (s, .drive { d with word := p.word })
      | none => (s, r)
  | _ => (s, r)

/-- Begin the attempt that is due: the frame is sent with the address's next bit and the window in force now; the
second attempt keeps the first's bit (R7, R8, R11, R12). The line has been idle, so no stray reply is under way (R10). -/
def State.startAttempt (s : State) (f : InFlight) : State :=
  let (s, r) := if f.second then s.secondWord f.req else (s, f.req)
  let seq := if f.second then f.seq else s.seqOf r
  let frame := r.frame seq
  let f := { f with req := r, seq := seq, window := s.windowOf r,
                    stage := .sending (s.now + Config.charTime * frame.length) }
  { s with tdl := { s.tdl with inFlight := some f, frame := frame, stray := false } }

/-- Begin a due attempt if the line has been idle for 1 ms (R10). -/
def State.startIfIdle (s : State) : State :=
  match s.tdl.inFlight with
  | some f => if f.stage == .due && decide (s.tdl.gapEnds ≤ s.now) then s.startAttempt f else s
  | none => s

/-- Grant a request: the line is BUSY and its first attempt is due (R18). -/
def State.grant (s : State) (r : Request) (urgent : Bool) : State :=
  ({ s with tdl := { s.tdl with
      line := .busy
      inFlight := some { req := r, urgent := urgent, second := false, seq := false, window := 0, stage := .due } } }
    : State).startIfIdle

/-- The arbiter (R18): the urgent head, otherwise the routine head, with fairness to the routine class. -/
def State.arbitrate (s : State) : State :=
  if s.tdl.line == .ready && s.tdl.inFlight.isNone then
    match s.tdl.urgent, s.tdl.routine with
    | [], [] => s
    | u :: us, [] => ({ s with tdl := { s.tdl with urgent := us, urgentRun := 0 } } : State).grant u true
    | [], r :: rs => ({ s with tdl := { s.tdl with routine := rs, urgentRun := 0 } } : State).grant r false
    | u :: us, r :: rs =>
        if Config.fairness ≤ s.tdl.urgentRun then
          ({ s with tdl := { s.tdl with routine := rs, urgentRun := 0 } } : State).grant r false
        else
          ({ s with tdl := { s.tdl with urgent := us, urgentRun := s.tdl.urgentRun + 1 } } : State).grant u true
  else s

/-- A request interrupted by a yield or a fault goes back to the head of its class (R19). -/
def State.interrupt (s : State) : State :=
  match s.tdl.inFlight with
  | some f =>
      if f.urgent then { s with tdl := { s.tdl with inFlight := none, urgent := f.req :: s.tdl.urgent } }
      else { s with tdl := { s.tdl with inFlight := none, routine := f.req :: s.tdl.routine } }
  | none => s

/-- The part is driving the line itself (R22). -/
def State.driving (s : State) : Bool :=
  s.tdl.orphan.isSome || (match s.tdl.inFlight with
    | some f => (match f.stage with
      | .sending _ => true
      | _ => false)
    | none => false)

end Sys2Proof.Machine
end

