-- ==== Sys2Proof/Machine/Router.lean ====
section
/-! DEFINITION. Demand Router: sources, source lists, wanted outputs, the pending-drive set and its draining (06). -/

namespace Sys2Proof

open Machine in
/-- The turn source of a side (R114). -/
def TurnSide.src : TurnSide → Src
  | .left => 3
  | .right => 4

/-- The place of a side in the pairs of the Flash and Reversal Timer. -/
def TurnSide.number : TurnSide → Fin 2
  | .left => 0
  | .right => 1

open Machine in
/-- The flash channel of a side (R135). -/
def TurnSide.chan : TurnSide → Chan
  | .left => .flL
  | .right => .flR

end Sys2Proof

namespace Sys2Proof.Machine

def State.source (s : State) (x : Src) : Source := s.drt.sources[x]

def State.setSourceEntry (s : State) (x : Src) (v : Source) : State :=
  { s with drt := { s.drt with sources := s.drt.sources.set x v } }

def State.list (s : State) (x : Src) : List Handle := s.drt.lists[x]

def State.setList (s : State) (x : Src) (l : List Handle) : State :=
  { s with drt := { s.drt with lists := s.drt.lists.set x l } }

/-- The source list of `x` has room for one more handle (R120). -/
def State.listHasRoom (s : State) (x : Src) : Bool := (s.list x).length < Config.listSize

/-- The turn side of a source, if it is a turn source. -/
def turnSideOf : Src → Option TurnSide
  | 3 => some .left
  | 4 => some .right
  | _ => none

/-- The filtered turn input of a side. -/
def State.turnInput (s : State) : TurnSide → Bool
  | .left => s.drt.inputs[(3 : Fin 10)]
  | .right => s.drt.inputs[(4 : Fin 10)]

/-- The level of a followed source: its filtered turn input. -/
def State.followLevel (s : State) (x : Src) : Bool :=
  match turnSideOf x with
  | some side => s.turnInput side
  | none => false

/-- What a source asks of a LAMP, or of a SUPPLY, on its list (R124). -/
def State.asks (s : State) (x : Src) (supply : Bool) : OutWord :=
  let src := s.source x
  if !src.active then .off
  else match src.form with
    | .steady => .on
    | .flashing c => if supply then .on else .flash c
    | .followed => if s.followLevel x then .on else .off

/-- The wanted output of a record (R124). Without a tie a LAMP wants OFF, and a SUPPLY or ACTUATOR what the host last
asked for. -/
def State.wantedNow (s : State) (r : Record) : Option OutWord :=
  match r.tie with
  | some x => some (s.asks x (r.cls == .supply))
  | none => if r.isLamp then some .off else r.wanted

/-! ### Demanded and phased sources (R100) -/

/-- The driver or the host asks for the source. -/
def State.demanded (s : State) (x : Src) : Bool :=
  if x = 10 then (s.source 2).active || (s.source 3).active
  else if x = 11 then (s.source 2).active || (s.source 4).active
  else (s.source x).active

/-- A demanded source is phased for a lamp when the lamp is driven FLASH, or ON and OFF by the flash phase (R100). -/
def State.phased (s : State) (x : Src) : Bool :=
  if x = 10 then (s.source 3).active
  else if x = 11 then (s.source 4).active
  else (s.source x).active && (s.source x).form != .steady

/-- The channel a record is driven FLASH on, if any. -/
def State.flashChannel (s : State) (r : Record) : Option Chan :=
  match r.tie with
  | some x => match s.asks x false with
    | .flash c => some c
    | _ => none
  | none => none

/-! ### Withholding (R128) -/

/-- Withheld for overload. -/
def Record.overloadHeld (r : Record) : Bool :=
  r.fault == .overload && (r.state == .faulted || (r.state == .stale && r.before == some .faulted))

/-- Withheld under a pulse proof. -/
def State.pulseHeld (s : State) (h : Handle) (r : Record) : Bool :=
  r.state == .proving && (match s.prv.proof with
    | some p => p.handle == h && p.form == .pulse && p.stage != .draining
    | none => false)

def State.withheld (s : State) (h : Handle) (r : Record) : Bool := r.overloadHeld || s.pulseHeld h r

/-! ### The pending-drive set (R126) -/

/-- The output a guard last asked for, by its state (R129, R131). -/
def State.guardWord (s : State) (g : Fin 6) : OutWord :=
  match s.frt.guards[g].state with
  | .runA => .runA
  | .runB => .runB
  | .idle | .dwell => .stop

/-- The output the router places for a record: its wanted output, or what its guard last asked for. -/
def State.placeWord (s : State) (r : Record) : Option OutWord :=
  match r.guard with
  | some g => some (s.guardWord g)
  | none => r.wanted

def State.setPend (s : State) (l : List Pend) : State := { s with drt := { s.drt with pend := l } }

def State.pendHolds (s : State) (h : Handle) : Bool := s.drt.pend.any fun p => p.handle == h

def State.removePend (s : State) (h : Handle) : State := s.setPend (s.drt.pend.filter fun p => !(p.handle == h))

/-- The set is to be drained (R127). -/
def State.callDrain (s : State) : State := { s with agenda := { s.agenda with drain := true } }

/-- Enter an output for a record. An entry it holds keeps its time and place. The class is urgent when the record
stands on a list (R126). The set is then drained (R127). -/
def State.enter (s : State) (h : Handle) (r : Record) (w : OutWord) : State :=
  let urgent := r.tie.isSome
  let s := s.callDrain
  if s.pendHolds h then
    s.setPend (s.drt.pend.map fun p => if p.handle == h then { p with word := w, urgent := urgent } else p)
  else
    s.setPend (s.drt.pend ++ [{ handle := h, gen := (s.slot h).gen, word := w, time := s.now, urgent := urgent }])

/-- Enter an output that differs from the last placed; an output equal to it has any pending entry removed (R125,
R133). -/
def State.enterIfDiffers (s : State) (h : Handle) (r : Record) (w : OutWord) : State :=
  match r.drive with
  | some d => if d.lastPlaced == some w then s.removePend h else s.enter h r w
  | none => s

/-- Ask for an output of a record that is not withheld; nothing is entered for a withheld one (R128). -/
def State.askOutput (s : State) (h : Handle) (w : OutWord) : State :=
  match s.live h with
  | some r => if s.withheld h r then s else s.enterIfDiffers h r w
  | none => s

def State.setDrive (s : State) (h : Handle) (f : DriveState → DriveState) : State :=
  match s.live h with
  | some r => s.setRecord h { r with drive := r.drive.map f }
  | none => s

/-- Drive-settled: no entry in the set and no Drive in the Line Queue (R129). -/
def State.settled (s : State) (h : Handle) : Bool := !s.pendHolds h && !s.driveQueued h

/-- Drain one entry: claim its Drive (R127). -/
def State.drainOne (s : State) (p : Pend) : State :=
  match s.livePair p.handle p.gen with
  | some r =>
      match r.address, r.drive with
      | some a, some d =>
          let (t, ans) := s.claimDrive
            { address := a, index := r.index, handle := p.handle, gen := p.gen, word := p.word, prior := d.lastPlaced }
            p.urgent
          match ans with
          | .taken | .merged =>
              (t.removePend p.handle).setDrive p.handle fun x => { x with lastPlaced := some p.word }
          | _ => s
      | _, _ => s.removePend p.handle
  | none => s.removePend p.handle

/-- Drain the set, oldest entry first (R127). The list is kept in the order of entry. -/
def State.drain (s : State) : State := s.drt.pend.foldl State.drainOne s

def State.drainIfDue (s : State) : State :=
  if s.agenda.drain then ({ s with agenda := { s.agenda with drain := false } } : State).drain else s

/-- Place again (R129): the last placed output becomes one no output equals, and the output is entered. The request is
dropped for a withheld record. -/
def State.placeAgain (s : State) (h : Handle) : State :=
  match s.live h with
  | some r =>
      if s.withheld h r then s
      else match s.placeWord r with
        | some w => (s.setDrive h fun d => { d with lastPlaced := none }).enter h r w
        | none => s
  | none => s

/-! ### Wanted outputs and the routing of source changes (R123, R125) -/

/-- The wanted output of a record is computed again, reported, and entered or its entry removed. A withheld record has
its wanted output computed only (R128). -/
def State.rewant (s : State) (h : Handle) : State :=
  match s.live h with
  | some r =>
      match s.wantedNow r with
      | some w =>
          let r' := { r with wanted := some w }
          let s := s.setRecord h r'
          if s.withheld h r' then s else s.enterIfDiffers h r' w
      | none => s
  | none => s

/-- A change of a source is routed over its list, in list order, and the set is drained (R125). -/
def State.route (s : State) (x : Src) : State := ((s.list x).foldl State.rewant s).callDrain

/-! ### Ties and lists (R120) -/

def State.leaveList (s : State) (x : Src) (h : Handle) : State := s.setList x ((s.list x).filter fun y => !(y == h))

def State.joinList (s : State) (x : Src) (h : Handle) : State :=
  if h ∈ s.list x then s else s.setList x (s.list x ++ [h])

/-- Where a tie is kept: intended source before a record is usable, binding after (R73). -/
def Record.withTie (r : Record) (t : Option Src) : Record :=
  if r.state.usable then { r with binding := t, intended := none }
  else { r with intended := t, binding := none }

/-- READY and BOUND follow the binding, in the record and in its state before stale (R73, R75). -/
def Record.followBinding (r : Record) : Record :=
  let sound : Before := if r.binding.isSome then .bound else .ready
  match r.state, r.before with
  | .ready, _ | .bound, _ => { r with state := r.soundState }
  | .stale, some .ready | .stale, some .bound => { r with before := some sound }
  | _, _ => r

/-- A record's tie changes: the lists follow, READY and BOUND follow, and the record is driven under R123. A SUPPLY
that loses its tie wants OFF again (R124). The caller has checked the room. -/
def State.changeTie (s : State) (h : Handle) (t : Option Src) : State :=
  match s.live h with
  | some r =>
      if r.tie = t then s
      else
        let r' := (r.withTie t).followBinding
        let r' := if t.isNone && r.cls == .supply then { r' with wanted := some .off } else r'
        let s := match r.tie with
          | some x => s.leaveList x h
          | none => s
        let s := match t with
          | some x => s.joinList x h
          | none => s
        (s.setRecord h r').rewant h
  | none => s

end Sys2Proof.Machine
end

