-- ==== Sys2Proof/Machine/Guards.lean ====
section
/-! DEFINITION. Reversal guards (R149 to R157). -/

namespace Sys2Proof.Machine

def State.guard (s : State) (g : Fin 6) : Guard := s.frt.guards[g]

def State.setGuard (s : State) (g : Fin 6) (x : Guard) : State :=
  { s with frt := { s.frt with guards := s.frt.guards.set g x } }

def Dir.runState : Dir → GuardState
  | .a => .runA
  | .b => .runB

def Dir.word : Dir → OutWord
  | .a => .runA
  | .b => .runB

def GuardState.motion : GuardState → Motion
  | .idle => .stopped
  | .runA => .runningA
  | .runB => .runningB
  | .dwell => .dwell

/-- A motion claim (R75). -/
def State.setMotion (s : State) (h : Handle) (m : Motion) : State :=
  match s.live h with
  | some r => if r.cls == .actuator then s.setRecord h { r with motion := some m } else s
  | none => s

/-- A guard takes new contents and reports its state as the owner's motion (R156). -/
def State.putGuard (s : State) (g : Fin 6) (x : Guard) : State :=
  let s := s.setGuard g x
  match x.owner with
  | some (h, gen) => if (s.slot h).gen == gen then s.setMotion h x.state.motion else s
  | none => s

/-- The guard asks the router for an output of its owner (R151, R152). -/
def State.guardAsk (s : State) (g : Fin 6) (w : OutWord) : State :=
  match (s.guard g).owner with
  | some (h, gen) => if (s.slot h).gen == gen then s.askOutput h w else s
  | none => s

/-- The guard enters a run: it asks for it and starts the run-limit timer (R151, R153). -/
def State.guardEnterRun (s : State) (g : Fin 6) (d : Dir) : State :=
  let x := s.guard g
  let s := s.putGuard g { x with state := d.runState, runTimer := some (s.now + ms (1000 * x.limit)),
                                 deadTimer := none, awaiting := false, slot := none }
  s.guardAsk g d.word

/-- The STOP attempt has ended: the dead timer starts with the dead time (R153). -/
def State.guardStopEnded (s : State) (g : Fin 6) : State :=
  let x := s.guard g
  if x.state == .dwell && x.awaiting then
    s.setGuard g { x with awaiting := false, deadTimer := some (s.now + ms x.dead) }
  else s

/-- The router reports that the STOP needs no Drive when the record is drive-settled with STOP last placed (R153). -/
def State.stopNeedsNoDrive (s : State) (g : Fin 6) : State :=
  match (s.guard g).owner with
  | some (h, _) =>
      match s.live h with
      | some r =>
          match r.drive with
          | some d => if s.settled h && d.lastPlaced == some .stop then s.guardStopEnded g else s
          | none => s
      | none => s
  | none => s

/-- The guard enters DWELL awaiting STOP with a pending slot, and asks for STOP unless the router has entered it
(R151, R152, R155). -/
def State.guardEnterDwell (s : State) (g : Fin 6) (slot : Option Dir) (entered : Bool) : State :=
  let x := s.guard g
  let s := s.putGuard g { x with state := .dwell, runTimer := none, deadTimer := none, awaiting := true, slot := slot }
  let s := if entered then s else s.guardAsk g .stop
  s.stopNeedsNoDrive g

/-- A run request (R151). -/
def State.guardRun (s : State) (g : Fin 6) (d : Dir) : State :=
  let x := s.guard g
  match x.state with
  | .idle => s.guardEnterRun g d
  | .dwell => s.setGuard g { x with slot := some d }
  | st =>
      if st = d.runState then
        (s.setGuard g { x with runTimer := some (s.now + ms (1000 * x.limit)) }).guardAsk g d.word
      else s.guardEnterDwell g (some d) false

/-- A STOP request (R152). `entered`: the router has entered STOP itself, under R128. -/
def State.guardStop (s : State) (g : Fin 6) (entered : Bool) : State :=
  let x := s.guard g
  match x.state with
  | .idle => if entered then s else s.guardAsk g .stop
  | .dwell => s.setGuard g { x with slot := none }
  | _ => s.guardEnterDwell g none entered

/-- A REPLIED outcome of a Drive for the owner that carried STOP ends the STOP attempt (R153). -/
def State.guardDriveReplied (s : State) (h : Handle) (w : OutWord) : State :=
  match s.live h with
  | some r => match r.guard with
    | some g => if w = .stop then s.guardStopEnded g else s
    | none => s
  | none => s

/-- The dead timer runs out (R153). -/
def State.guardDeadOut (s : State) (g : Fin 6) : State :=
  let x := s.guard g
  match x.slot with
  | none => s.putGuard g { x with state := .idle, deadTimer := none, awaiting := false }
  | some d => s.guardEnterRun g d

/-- The run-limit timer runs out in RUN_A or RUN_B: STOP is asked for, the guard dwells and the owner joins the
Attention Set (R155). -/
def State.guardLimitOut (s : State) (g : Fin 6) : State :=
  let s := match (s.guard g).owner with
    | some (h, _) => s.join h
    | none => s
  s.guardEnterDwell g none false

/-- The lowest guard no record holds (R79). -/
def State.freeGuard (s : State) : Option (Fin 6) :=
  (List.finRange 6).find? fun g => (s.guard g).owner.isNone

/-- Assignment (R149): 300 ms, and 30 s or the actuator's shorter maximum run. -/
def Guard.assigned (h : Handle) (gen : Byte) (maxRun : Nat) : Guard :=
  { Guard.reset with
    owner := some (h, gen), limit := if maxRun ≠ 0 ∧ maxRun < 30 then maxRun else 30 }

end Sys2Proof.Machine
end

