-- ==== Sys2Proof/Machine/Directory.lean ====
section
/-! DEFINITION. Function Directory: record states, claims, admission and retirement (04). -/

namespace Sys2Proof.Machine

/-! ### What follows a change of a record (R76) -/

/-- A confirm entry on entry to the usable states: one interval ahead, standing still with the line (R160, R161). -/
def State.newConfirm (s : State) (r : Record) : ConfirmEntry :=
  let d := ms (r.interval.getD 0)
  { deadline := if s.lineRuns then .running (s.now + d) else .held d, phaseWait := false, mismatch := false }

def State.createConfirm (s : State) (h : Handle) (r : Record) : State :=
  s.modifySlot h fun x => { x with confirm := some (s.newConfirm r) }

/-- The entry is removed; its Sample keeps the mark until the outcome, which is discarded (R160, R163, R166). -/
def State.removeConfirm (s : State) (h : Handle) : State :=
  s.modifySlot h fun x => { x with confirm := none, sampleVoid := x.sampleMark != .clear }

/-- The word the router enters for a record withheld for overload (R128). -/
def Record.safeWord (r : Record) : OutWord := if r.cls == .actuator then .stop else .off

/-- The router's part in a change of a record: OFF or STOP when it becomes withheld for overload, also told to its
guard as a STOP request; its entry removed when it becomes withheld under a pulse proof; its output entered if it
differs when it stops being withheld (R101, R128, R152). An entry that the record holds already keeps its time and place
under the OFF or STOP (R126; log entry 40). -/
def State.reactWithheld (s : State) (h : Handle) (old new : Record) (was : Bool) : State :=
  if new.overloadHeld && !old.overloadHeld then
    let s := s.enter h new new.safeWord
    match new.guard with
    | some g => s.guardStop g true
    | none => s
  else if s.withheld h new then
    if was then s else s.removePend h
  else if was then
    match s.placeWord new with
    | some w => s.enterIfDiffers h new w
    | none => s
  else s

/-- A record takes new contents: a change of state or fault joins the Attention Set (R89), a move into or out of the
usable states is the Confirm Scheduler's (R160), and withholding follows (R128). -/
def State.commit (s : State) (h : Handle) (old new : Record) : State :=
  let was := s.withheld h old
  let s := s.setRecord h new
  let s := if old.state = new.state ∧ old.fault = new.fault then s else s.join h
  let s :=
    if new.state.usable && !old.state.usable then s.createConfirm h new
    else if old.state.usable && !new.state.usable then s.removeConfirm h
    else s
  s.reactWithheld h old new was

/-- A claim on the record a pair names: dropped when the pair names no live record or the change is not defined in its
state (R74). -/
def State.claim (s : State) (h : Handle) (gen : Byte) (f : Record → Option Record) : State :=
  match s.livePair h gen with
  | some r => match f r with
    | some r' => s.commit h r r'
    | none => s
  | none => s

/-! ### The claims of R75, as changes of one record -/

/-- begin proof -/
def Record.beginProof (r : Record) : Option Record :=
  if r.state = .provisional ∧ r.isLamp then some { r with state := .proving } else none

/-- return to list -/
def Record.returnToList (r : Record) : Option Record :=
  if r.state = .proving then some { r with state := .provisional } else none

/-- The intended source becomes the binding (R73). -/
def Record.bindIntended (r : Record) : Record := { r with binding := r.tie, intended := none }

/-- proof passed -/
def Record.proofPassed (r : Record) : Option Record :=
  if r.state = .proving then
    let r := r.bindIntended
    some { r with state := r.soundState, fault := r.restFault }
  else none

/-- proof failed -/
def Record.proofFailed (f : RecFault) (r : Record) : Option Record :=
  if r.state = .proving then some { r.bindIntended with state := .faulted, fault := f } else none

/-- put back for proof, and host PROVE's condition (R113) -/
def Record.putBack (r : Record) : Option Record :=
  if r.isLamp ∧ (r.state = .ready ∨ r.state = .bound ∨ r.state = .faulted) then
    some { r with state := .provisional, intended := r.tie, binding := none, fault := r.restFault }
  else none

/-- catalogue read -/
def Record.catalogueRead (r : Record) : Option Record :=
  if r.state = .provisional ∧ !r.isLamp then
    let r := r.bindIntended
    some { r with state := r.soundState }
  else none

/-- fault -/
def Record.takeFault (f : RecFault) (r : Record) : Option Record :=
  match r.state with
  | .ready | .bound => some { r with state := .faulted, fault := f }
  | .faulted => some { r with fault := f }
  | .stale => some { r with before := some .faulted, fault := f }
  | _ => none

/-- mismatch mark -/
def Record.mismatchMark (r : Record) : Option Record :=
  match r.state with
  | .ready | .bound => some { r with fault := .outputMismatch }
  | _ => none

/-- healthy -/
def Record.healthy (r : Record) : Option Record :=
  match r.state, r.before with
  | .ready, _ | .bound, _ => some { r with fault := r.restFault }
  | .faulted, _ => some { r with state := r.soundState, fault := r.restFault }
  | .stale, some .faulted =>
      some { r with before := some (if r.binding.isSome then .bound else .ready), fault := r.restFault }
  | .stale, _ => some { r with fault := r.restFault }
  | _, _ => none

/-- stale -/
def Record.makeStale (r : Record) : Option Record :=
  match r.state with
  | .ready => some { r with state := .stale, before := some .ready }
  | .bound => some { r with state := .stale, before := some .bound }
  | .faulted => some { r with state := .stale, before := some .faulted }
  | _ => none

/-- return from stale -/
def Record.returnFromStale (r : Record) : Option Record :=
  match r.state, r.before with
  | .stale, some b => some { r with state := b.state, before := none }
  | _, _ => none

/-- confirmed output -/
def Record.confirmOutput (w : OutWord) (r : Record) : Option Record :=
  if r.state.usable then some { r with confirmed := some w } else none

/-! ### Retirement (R84) -/

/-- The fields of a retired record: what R84 makes absent is absent; its reading age stops (R172). -/
def Record.retired (now : Nat) (reason : RetireReason) (r : Record) : Record :=
  { r with
    state := .retired, reason := some reason, address := none, binding := none, intended := none,
    before := none, interval := none, guard := none, drive := none,
    reading := r.reading.map fun x => { x with age := x.age.hold now } }

/-- A proof on the retired record ends: DRAINING while its request stands, else EMPTY (R111). -/
def State.endProofOf (s : State) (h : Handle) : State :=
  match s.prv.proof with
  | some p =>
      if p.handle == h && p.stage != .draining then
        { s with prv := { s.prv with proof := if p.placed then some { p with stage := .draining } else none } }
      else s
  | none => s

/-- A guard is freed (R157). -/
def State.freeGuardOf (s : State) (r : Record) : State :=
  match r.guard with
  | some g => s.setGuard g Guard.reset
  | none => s

/-- The lists, pending entry, Proving List, proof, confirm deadline and guard are cleared of a record (R84). -/
def State.clearRecord (s : State) (h : Handle) (r : Record) : State :=
  let s := match r.tie with
    | some x => s.leaveList x h
    | none => s
  let s := s.removePend h
  let s := { s with prv := { s.prv with list := s.prv.list.filter fun y => !(y == h) } }
  ((s.endProofOf h).removeConfirm h).freeGuardOf r

/-- Retire a live record (R84). Joining the Attention Set is the cause's (R85). -/
def State.retireRecord (s : State) (h : Handle) (reason : RetireReason) : State :=
  match s.live h with
  | some r => (s.clearRecord h r).setRecord h (r.retired s.now reason)
  | none => s

/-- Retire every live record; for the teardowns the handles join in rising order (R49, R66, R85). -/
def State.retireAll (s : State) (reason : RetireReason) (join : Bool) : State :=
  allHandles.foldl (fun s h =>
    match s.live h with
    | some _ => let s := s.retireRecord h reason
                if join then s.joinNow h else s
    | none => s) s

/-- What a teardown and a link restart empty in the other blocks (R49, R50, R66, R134): every source list, the pending-drive
set, the Proving List with the proof slot, every guard and every confirm entry. -/
def State.emptyBlocks (s : State) : State :=
  let s := allHandles.foldl State.removeConfirm s
  let s := (List.finRange 6).foldl (fun s g => s.setGuard g Guard.reset) s
  let s := (List.finRange 18).foldl (fun s x => s.setList x []) s
  ({ s with prv := { list := [], proof := none } } : State).setPend []

/-! ### Admission (R77 to R81) -/

/-- The next generation of a slot: 255 is followed by 1 (R68). -/
def nextGen (g : Byte) : Byte := if g = 255 then 1 else g + 1

def State.freeSlot (s : State) : Option Handle := allHandles.find? fun h => (s.record h).isNone

/-- The intended source a new record is given: auto-bind on, a source in the role table, room on its list (R78, R119). -/
def State.admissionSource (s : State) (e : CatEntry) : Option Src :=
  match e with
  | .lamp role side _ _ _ _ =>
      if s.hcp.cfg.autoBind then
        match defaultSource role side with
        | some x => if s.listHasRoom x then some x else none
        | none => none
      else none
  | _ => none

/-- The guard given at admission (R79). -/
def State.admissionGuard (s : State) (e : CatEntry) : Option (Fin 6) :=
  if e.reversing then s.freeGuard else none

/-- The maximum run of an actuator, in s (R40). -/
def CatEntry.maxRun : CatEntry → Nat
  | .actuator _ m _ _ _ => m.toNat
  | _ => 0

/-- A new record (R77). -/
def State.newRecord (s : State) (n : NodeEntry) (position : Nat) (i : FnIndex) (e : CatEntry) : Record :=
  let guard := s.admissionGuard e
  let word : Option OutWord := match e.cls with
    | .lamp | .supply => some .off
    | .actuator => some .stop
    | .sensor => none
  { state := .provisional, address := some n.address, position := position, unit := n.unit, index := i, entry := e,
    binding := none, intended := s.admissionSource e,
    fault := if e.reversing && guard.isNone then .noGuard else .none,
    before := none, wanted := word, confirmed := none, reading := none,
    lowThreshold := 0x8000, highThreshold := 0x7FFF,
    interval := some (s.hcp.cfg.confirmDefault e.cls), guard := guard,
    motion := if e.cls == .actuator then some .stopped else none, reason := none,
    drive := word.map fun w => { lastPlaced := some w, failed := false } }

/-- Admission of an offered entry into the lowest FREE slot: the handle, or none when no slot is FREE (R77, R81). The
new lamp joins the Proving List, the record its list, and an active source drives it at once (R78, R79, R101). -/
def State.admitEntry (s : State) (position : Nat) (i : FnIndex) (e : CatEntry) : State × Option (Handle × Byte) :=
  match s.freeSlot, s.nodeAt position with
  | some h, some n =>
      let gen := nextGen (s.slot h).gen
      let r := s.newRecord n position i e
      let s := s.modifySlot h fun x => { x with gen := gen, record := some r }
      let s := s.join h
      let s := match r.intended with
        | some x => s.joinList x h
        | none => s
      let s := if r.isLamp then { s with prv := { s.prv with list := s.prv.list ++ [h] } } else s
      let s := match r.guard with
        | some g => s.setGuard g (Guard.assigned h gen e.maxRun)
        | none => s
      let s := s.modifyNode position fun n => { n with admitted := n.admitted + 1 }
      (s.rewant h, some (h, gen))
  | _, _ => (s, none)

/-! ### Retire Drives (R86, R87) -/

/-- The retire Drive is to be placed when the Drive in flight for its handle has its outcome (R87). -/
def RetireDrive.waits : RetireDrive → Bool
  | .awaiting .. => true
  | .none | .placed | .unplaced .. => false

/-- Place the retire Drive of a slot, if it is still to be placed (R87). -/
def State.placeRetireDrive (s : State) (h : Handle) : State :=
  match (s.slot h).retireDrive with
  | .unplaced a i w =>
      let (t, ans) := s.claimDrive
        { address := a, index := i, handle := h, gen := (s.slot h).gen, word := w, prior := none } false
      match ans with
      | .taken | .merged => t.modifySlot h fun x => { x with retireDrive := .placed }
      | .down => s.modifySlot h fun x => { x with retireDrive := .none }
      | .inFlight => s.modifySlot h fun x => { x with retireDrive := .awaiting a i w }
      | .full => s
  | _ => s

/-- The retire Drives still to be placed claim in rising handle order; R15 leaves the order open (log entry 36). -/
def State.placeRetireDrives (s : State) : State := allHandles.foldl State.placeRetireDrive s

/-- The handles whose retire Drive waited for the outcome of a Drive, which has been reported since (R87). -/
def State.retireDrivesFreed (s t : State) : List Handle :=
  allHandles.filter fun h => (s.slot h).retireDrive.waits && !(t.slot h).retireDrive.waits

/-- Node entries have become FREE, and their addresses are `gone`: a retire Drive to one that is not yet placed is not
placed, and its mark is cleared (R87). -/
def State.dropRetireDrivesTo (s : State) (gone : Addr → Bool) : State :=
  allHandles.foldl (fun s h =>
    match (s.slot h).retireDrive with
    | .unplaced b _ _ | .awaiting b _ _ =>
        if gone b then s.modifySlot h fun x => { x with retireDrive := .none } else s
    | _ => s) s

/-- Node entries have become FREE, or are about to at a link restart: a Sample to one that is still to be placed is not
placed, and its mark is cleared (log entry 37). -/
def State.dropSamplesTo (s : State) (gone : Addr → Bool) : State :=
  allHandles.foldl (fun s h =>
    match (s.slot h).sampleMark with
    | .unplaced b _ _ =>
        if gone b then s.modifySlot h fun x => { x with sampleMark := .clear, sampleVoid := false } else s
    | _ => s) s

/-- Node entries have become FREE: nothing is placed to their addresses any more. -/
def State.dropUnplacedTo (s : State) (gone : Addr → Bool) : State := (s.dropRetireDrivesTo gone).dropSamplesTo gone

/-- The word of a retire Drive: OFF or STOP, none for a SENSOR (R86). -/
def Record.retireWord (r : Record) : Option OutWord :=
  match r.cls with
  | .lamp | .supply => some .off
  | .actuator => some .stop
  | .sensor => none

end Sys2Proof.Machine
end

