-- ==== Sys2Proof/Machine/Proving.lean ====
section
/-! DEFINITION. Proving Unit: the Proving List and the proof slot (05). -/

namespace Sys2Proof.Machine

def State.setProof (s : State) (p : Option Proof) : State := { s with prv := { s.prv with proof := p } }

def State.setProvingList (s : State) (l : List Handle) : State := { s with prv := { s.prv with list := l } }

/-- The record under proof, while it is live. -/
def State.proofRecord (s : State) (p : Proof) : Option Record := s.livePair p.handle p.gen

/-- A last placed output. -/
def Record.lastPlaced (r : Record) : Option OutWord :=
  match r.drive with
  | some d => d.lastPlaced
  | none => none

/-- Claim the proof's Prove or Sample; refused FULL it stays unplaced in REQUEST (R102, R103). -/
def State.claimProof (s : State) (p : Proof) : State :=
  match s.proofRecord p with
  | some r =>
      match r.address with
      | some a =>
          let req := match p.form with
            | .pulse => Request.prove a r.index
            | .steady => Request.sample .proving a r.index p.handle p.gen
          let (t, ans) := s.claimRoutine req
          t.setProof (some { p with stage := .request, placed := ans == .taken })
      | none => s
  | none => s

/-- The next occasion of an unplaced request: an attempt on the line has ended (R15, R102). -/
def State.provingOccasion (s : State) : State :=
  match s.prv.proof with
  | some p => if p.stage == .request && !p.placed then s.claimProof p else s
  | none => s

/-- Return to list: the record becomes PROVISIONAL and goes to the head of the list, or to its tail. The slot drains
while its request stands (R104, R108, R109). -/
def State.returnProof (s : State) (p : Proof) (toHead : Bool) (standing : Bool) : State :=
  let s := s.claim p.handle p.gen Record.returnToList
  let l := s.prv.list
  let s := s.setProvingList (if toHead then p.handle :: l else l ++ [p.handle])
  s.setProof (if standing then some { p with stage := .draining } else none)

/-- The proof is judged: its claim is sent and the slot becomes EMPTY (R105, R106, R107). -/
def State.closeProof (s : State) (p : Proof) (f : Record → Option Record) : State :=
  (s.claim p.handle p.gen f).setProof none

/-- The judgement of a measured current, in whole numbers (R105): the fault, or none when passed. -/
def judgeCurrent (c n lo hi : Nat) : Option RecFault :=
  if 100 * c < n * lo then some .open
  else if n * hi < 100 * c then some .overload
  else none

/-- The judgement against a lamp's catalogue entry. -/
def CatEntry.judge (e : CatEntry) (c : Nat) : Option RecFault :=
  match e with
  | .lamp _ _ n lo hi _ => judgeCurrent c n.toNat lo.toNat hi.toNat
  | _ => none

def State.judgeProof (s : State) (p : Proof) (r : Record) (c : Nat) : State :=
  match r.entry.judge c with
  | some f => s.closeProof p (Record.proofFailed f)
  | none => s.closeProof p Record.proofPassed

/-- A missed phase (R104): the fourth ends the proof without a judgement, at the tail of the list. -/
def State.missPhase (s : State) (p : Proof) : State :=
  if p.missed + 1 < 4 then
    s.setProof (some { p with stage := .phaseWait, placed := false, missed := p.missed + 1 })
  else s.returnProof p false false

/-- An OK Sample reply of a steady proof (R103, R104, R109). One that finds the lamp not lit is judged by the source as it stands
now (R100), also when the Sample was claimed at an ON start and the source has become steady since (log entry 49). -/
def State.steadyReply (s : State) (p : Proof) (r : Record) (x : SampleReply) : State :=
  if x.lit then s.judgeProof p r x.value.toNat
  else if p.left then s.returnProof p true false
  else match r.intended with
    | none => s.returnProof p true false
    | some src =>
        if !s.demanded src then s.returnProof p true false
        else if s.phased src then s.missPhase p
        else if p.notOn then s.closeProof p (Record.proofFailed .refused)
        else
          (s.setProof (some { p with stage := .driveWait, placed := false, notOn := true })).placeAgain p.handle

/-- The outcome of the proof's Prove or Sample (R103 to R107, R112). -/
def State.proofOutcome (s : State) (o : ReqOutcome) : State :=
  match s.prv.proof with
  | none => s
  | some p =>
      if p.stage == .draining then s.setProof none
      else if !p.placed then s
      else match s.proofRecord p with
        | none => s.setProof none
        | some r =>
            match o with
            | .replied .ok pl _ =>
                match p.form with
                | .pulse => s.judgeProof p r (pl[0]?.getD 0).toNat
                | .steady => s.steadyReply p r (parseSample pl)
            | .replied .fault pl _ => s.closeProof p (Record.proofFailed (faultReading pl))
            | .replied .refused _ _ | .replied .noFunction _ _ => s.closeProof p (Record.proofFailed .refused)
            | .noReply | .checkError | .collision => s.closeProof p (Record.proofFailed .refused)
            | .sent => s
            | .abandoned => s.setProof none

/-- A pulse proof overtaken by its source (R108). -/
def State.overtakePulse (s : State) (p : Proof) : State := s.returnProof p true p.placed

/-- A steady proof whose source stops being demanded (R109): the left mark while its Sample is outstanding, else the
proof ends, left mark or not. -/
def State.leaveSteady (s : State) (p : Proof) : State :=
  if p.stage == .request && p.placed then s.setProof (some { p with left := true, stopped := true })
  else s.returnProof p true false

/-- A steady proof's source as it stands now (R109): one that is demanded may stop again, and one that stops being demanded
leaves the proof once. -/
def State.watchSteady (s : State) (p : Proof) (demanded : Bool) : State :=
  if demanded then s.setProof (some { p with stopped := false })
  else if p.stopped then s
  else s.leaveSteady p

/-- R108 and R109, read afresh: whether the source of the record under proof is demanded (R100). -/
def State.proofSourceCheck (s : State) : State :=
  match s.prv.proof with
  | none => s
  | some p =>
      if p.stage == .draining then s
      else match s.proofRecord p with
        | none => s
        | some r =>
            match p.form, r.intended with
            | .pulse, some src => if s.demanded src then s.overtakePulse p else s
            | .pulse, none => s
            | .steady, some src => s.watchSteady p (s.demanded src)
            | .steady, none => s.watchSteady p false

/-- A change of the intended source while the record is under proof (R110): a steady proof whose new source is
demanded ends, its Sample draining, and one whose new source is not demanded, or absent, is left; the other cases are those
of R108. -/
def State.proofTieChanged (s : State) (h : Handle) : State :=
  match s.prv.proof with
  | none => s
  | some p =>
      if p.handle == h && p.stage != .draining then
        match s.proofRecord p, p.form with
        | some r, .steady =>
            match r.intended with
            | some src =>
                if s.demanded src then s.returnProof p true (p.stage == .request && p.placed)
                else s.leaveSteady p
            | none => s.leaveSteady p
        | _, _ => s.proofSourceCheck
      else s

/-- An ON start of a record (R100): a steady proof in PHASE_WAIT claims its Sample (R104). -/
def State.proofOnStart (s : State) (h : Handle) : State :=
  match s.prv.proof with
  | some p => if p.handle == h && p.stage == .phaseWait then s.claimProof p else s
  | none => s

/-- PHASE_WAIT ends when the source is demanded and no longer phased and the record is drive-settled with ON last
placed (R104); DRIVE_WAIT ends when the record is drive-settled again (R103). -/
def State.proofWaits (s : State) : State :=
  match s.prv.proof with
  | none => s
  | some p =>
      match s.proofRecord p, p.stage with
      | some r, .phaseWait =>
          match r.intended with
          | some src =>
              if s.demanded src && !s.phased src && s.settled p.handle && r.lastPlaced == some .on then s.claimProof p
              else s
          | none => s
      | some _, .driveWait => if s.settled p.handle then s.claimProof p else s
      | _, _ => s

/-- Begin a proof when the slot is EMPTY, the line is READY or BUSY and the head record is drive-settled (R99). -/
def State.beginProof (s : State) : State :=
  match s.prv.proof, s.prv.list with
  | none, h :: rest =>
      if s.lineRuns && s.settled h then
        match s.live h with
        | some r =>
            let steady := match r.intended with
              | some src => s.demanded src
              | none => false
            let wait := match r.intended with
              | some src => steady && s.phased src
              | none => false
            let p : Proof :=
              { handle := h, gen := (s.slot h).gen, form := if steady then .steady else .pulse,
                stage := if wait then .phaseWait else .request, placed := false, notOn := false, missed := 0,
                left := false, stopped := false }
            let s := (s.setProvingList rest).setProof (some p)
            let s := s.claim h p.gen Record.beginProof
            if wait then s else s.claimProof p
        | none => s.setProvingList rest
      else s
  | _, _ => s

end Sys2Proof.Machine
end

