-- ==== Sys2Proof/Machine/Confirm.lean ====
section
/-! DEFINITION. Confirm Scheduler: deadlines, scheduling passes and the judging of Samples (08). -/

namespace Sys2Proof.Machine

def State.setOwn (s : State) (n : Nat) : State := { s with csch := { s.csch with own := n } }

def State.setMark (s : State) (h : Handle) (m : SampleMark) : State := s.modifySlot h fun x => { x with sampleMark := m }

/-- The Sample mark is cleared. -/
def State.clearMark (s : State) (h : Handle) : State :=
  s.modifySlot h fun x => { x with sampleMark := .clear, sampleVoid := false }

def State.modifyConfirm (s : State) (h : Handle) (f : ConfirmEntry → ConfirmEntry) : State :=
  s.modifySlot h fun x => { x with confirm := x.confirm.map f }

def State.callPass (s : State) : State := { s with agenda := { s.agenda with pass := true } }

/-! ### Scheduling (R162, R164) -/

/-- A record waits for a phase: a LAMP whose source is demanded and phased for it, and which the router drives by that
phase, so one that it does not withhold for overload (R164, R128). -/
def State.lampPhased (s : State) (r : Record) : Bool :=
  r.isLamp && !r.overloadHeld && (match r.tie with
    | some x => s.demanded x && s.phased x
    | none => false)

/-- Claim a Sample: taken, it counts as the scheduler's own; FULL leaves it unplaced. True while the pass goes on: not
after a FULL, nor once the own count has reached 4 (R162). -/
def State.claimSampleTo (s : State) (h : Handle) (a : Addr) (i : FnIndex) (gen : Byte) : State × Bool :=
  let (t, ans) := s.claimRoutine (.sample .confirm a i h gen)
  match ans with
  | .taken => ((t.setMark h .queued).setOwn (t.csch.own + 1), decide (t.csch.own + 1 < Config.ownLimit))
  | _ => (s.setMark h (.unplaced a i gen), false)

/-- Claim a Sample for a record (R162). -/
def State.claimSample (s : State) (h : Handle) : State × Bool :=
  match s.live h with
  | some r =>
      match r.address with
      | some a => s.claimSampleTo h a r.index (s.slot h).gen
      | none => (s, true)
  | none => (s, true)

/-- Claim a Sample again that has stayed unplaced, whatever has become of its record (R163). -/
def State.claimSampleAgain (s : State) (h : Handle) : State × Bool :=
  match (s.slot h).sampleMark with
  | .unplaced a i gen => s.claimSampleTo h a i gen
  | _ => (s, true)

/-- The deadline of a due record (R162). -/
def State.dueAt (s : State) (h : Handle) : Option Nat :=
  let x := s.slot h
  match x.confirm with
  | some c =>
      match c.deadline with
      | .running e => if e ≤ s.now ∧ x.sampleMark = .clear ∧ c.phaseWait = false then some e else none
      | _ => none
  | none => none

/-- Insert a handle into a list kept by rising key. -/
def insertByKey (x : Nat × Handle) : List (Nat × Handle) → List (Nat × Handle)
  | [] => [x]
  | y :: ys => if x.1 < y.1 then x :: y :: ys else y :: insertByKey x ys

/-- The due records, earliest deadline first, and among equal ones the lower handle (R162). -/
def State.dueRecords (s : State) : List Handle :=
  (allHandles.foldl (fun l h => match s.dueAt h with
    | some e => insertByKey (e, h) l
    | none => l) []).map (·.2)

/-- One record of a pass; the pass goes on while the flag is true. A pass that begins with the own count at 4 claims
nothing, and phased records still take their mark (log entry 38). -/
def State.passOne (acc : State × Bool) (h : Handle) : State × Bool :=
  if acc.2 then
    let s := acc.1
    match s.live h with
    | some r =>
        if s.lampPhased r then (s.modifyConfirm h fun c => { c with phaseWait := true }, true)
        else if s.csch.own < Config.ownLimit then s.claimSample h
        else acc
    | none => acc
  else acc

/-- The Sample of the mark is to be claimed again. -/
def SampleMark.isUnplaced : SampleMark → Bool
  | .unplaced .. => true
  | _ => false

/-- One unplaced Sample of a pass. -/
def State.passUnplaced (acc : State × Bool) (h : Handle) : State × Bool :=
  if acc.2 && decide (acc.1.csch.own < Config.ownLimit) then acc.1.claimSampleAgain h else acc

/-- A scheduling pass (R162): unplaced Samples first (R163), in rising handle order (log entry 24), then the due records. -/
def State.pass (s : State) : State :=
  let unplaced := allHandles.filter fun h => (s.slot h).sampleMark.isUnplaced
  let acc := unplaced.foldl State.passUnplaced (s, true)
  ((acc.1.dueRecords).foldl State.passOne acc).1

def State.passIfDue (s : State) : State :=
  if s.agenda.pass then ({ s with agenda := { s.agenda with pass := false } } : State).pass else s

/-- The phase-wait mark is cleared when the record stops being phased, and a pass is made (R162, R164). -/
def State.phaseWaitCheck (s : State) : State :=
  allHandles.foldl (fun s h =>
    match (s.slot h).confirm with
    | some c =>
        if c.phaseWait && !(match s.live h with
          | some r => s.lampPhased r
          | none => false)
        then (s.modifyConfirm h fun c => { c with phaseWait := false }).callPass
        else s
    | none => s) s

/-- An ON start of a record: its mark is cleared and its Sample claimed at once, or it waits for the next ON start
(R164). -/
def State.confirmOnStart (s : State) (h : Handle) : State :=
  match (s.slot h).confirm with
  | some c =>
      if c.phaseWait && s.csch.own < Config.ownLimit then
        ((s.modifyConfirm h fun c => { c with phaseWait := false }).claimSample h).1.callPass
      else s
  | none => s

/-- An ON start of a record, for both users (R100). -/
def State.onStart (s : State) (h : Handle) : State := (s.proofOnStart h).confirmOnStart h

/-- A Phase Mark ON has ended SENT: the ON start of every record driven FLASH on a channel it names (R100). The records
claim in rising handle order, where more wait than the own count has room for (log entry 46). -/
def State.markOnStart (s : State) (mask : BitVec 4) : State :=
  allHandles.foldl (fun s h =>
    match s.live h with
    | some r => match s.flashChannel r with
      | some c => if r.isLamp && mask.getLsbD c.number.val then s.onStart h else s
      | none => s
    | none => s) s

/-! ### Deadlines (R160, R161) -/

/-- The deadline is set again by an outcome. -/
def State.resetDeadline (s : State) (h : Handle) : State :=
  match s.live h with
  | some r => s.modifyConfirm h fun c =>
      let d := ms (r.interval.getD 0)
      { c with deadline := if s.lineRuns then .running (s.now + d) else .held d }
  | none => s

def State.mapConfirms (s : State) (f : Countdown → Countdown) : State :=
  allHandles.foldl (fun s h =>
    match (s.slot h).confirm with
    | some _ => s.modifyConfirm h fun c => { c with deadline := f c.deadline }
    | none => s) s

/-! ### Judging (R165 to R173) -/

/-- The threshold state of a reading (R173). -/
def thresholdOf (r lo hi : Half) : Threshold :=
  if r.slt lo then .below else if hi.slt r then .above else .normal

/-- A stored reading (R172); a change of threshold state joins, a first reading only when BELOW or ABOVE (R173). -/
def State.storeReading (s : State) (h : Handle) (v : Half) : State :=
  match s.live h with
  | some r =>
      let t := thresholdOf v r.lowThreshold r.highThreshold
      let joins : Bool := match r.reading with
        | none => t != .normal
        | some old => old.threshold != t
      let s := s.setRecord h { r with reading := some { value := v, age := .counting 0 s.now, threshold := t } }
      if joins then s.join h else s
  | none => s

/-- The motion an actuator without a guard is seen in (R171). -/
def OutWord.motion : OutWord → Option Motion
  | .runA => some .runningA
  | .runB => some .runningB
  | .stop => some .stopped
  | _ => none

/-- The fields an OK reply carries (R165 step 2): output confirmed, or the reading, and the motion of an actuator
without a guard. R166 and R167 call the reply's current recorded, for an ACTUATOR too, and R70 and R215 give it no field: it
stands in the reply until it has been judged, and is kept nowhere (log entry 53, the model's choice). -/
def State.sampleContents (s : State) (h : Handle) (gen : Byte) (r : Record) (x : SampleReply) : State :=
  if r.cls == .sensor then (if x.good then s.storeReading h x.value else s)
  else
    let s := s.claim h gen (Record.confirmOutput x.word)
    if r.cls == .actuator && r.guard.isNone then
      match x.word.motion with
      | some m => s.setMotion h m
      | none => s
    else s

/-- The reported output equals the last placed one; a STOP where a run was last placed counts as equal (R167, R171). -/
def outputEqual (r : Record) (w : OutWord) : Bool :=
  match r.lastPlaced with
  | some p => p == w || (r.cls == .actuator && w == .stop && (p == .runA || p == .runB))
  | none => false

/-- The function is active in a reply (R158). -/
def functionActive (r : Record) (x : SampleReply) : Bool :=
  match r.cls with
  | .lamp => x.lit
  | .supply => x.word == .on
  | .actuator => x.word == .runA || x.word == .runB
  | .sensor => false

/-- The fault a measured current shows, when the function is active and the quality GOOD (R167). -/
def currentFault (r : Record) (x : SampleReply) : Option RecFault :=
  match r.entry with
  | .lamp .. => r.entry.judge x.value.toNat
  | .supply _ rated _ _ _ => if rated.toNat < x.value.toNat then some .overload else none
  | _ => none

/-- A reply with equal outputs and no fault clears the record's fault (R168). -/
def clearsFault (r : Record) (x : SampleReply) : Bool :=
  match r.fault with
  | .open | .overload =>
      if r.cls == .sensor then x.good else functionActive r x && x.good
  | _ => true

def State.setMismatch (s : State) (h : Handle) (b : Bool) : State := s.modifyConfirm h fun c => { c with mismatch := b }

/-- The judgement of a drive-settled OK reply (R167, R168). -/
def State.judgeReply (s : State) (h : Handle) (gen : Byte) (r : Record) (x : SampleReply) : State :=
  if r.cls == .sensor then
    if clearsFault r x then s.claim h gen Record.healthy else s
  else if outputEqual r x.word then
    let s := s.setMismatch h false
    match (if functionActive r x && x.good then currentFault r x else none) with
    | some f => s.claim h gen (Record.takeFault f)
    | none => if clearsFault r x then s.claim h gen Record.healthy else s
  else
    let count := match (s.slot h).confirm with
      | some c => c.mismatch
      | none => false
    let s := s.setMismatch h !count
    let s :=
      if r.overloadHeld then s
      else if count then s.claim h gen (Record.takeFault .outputMismatch)
      else s.claim h gen Record.mismatchMark
    s.placeAgain h

/-- A Sample that reports STOP for a drive-settled record whose guard awaits STOP is reported to the guard (R153,
R171). -/
def State.sampleToGuard (s : State) (r : Record) (x : SampleReply) : State :=
  match r.guard with
  | some g => if x.word == .stop then s.guardStopEnded g else s
  | none => s

/-- What the outcome of a Sample for a standing confirm entry brings about (R165 to R170). -/
def State.judgeSample (s : State) (h : Handle) (gen : Byte) (r : Record) (o : ReqOutcome) : State :=
  match o with
  | .abandoned | .sent => s
  | .replied st pl _ =>
      let s := if r.state == .stale then s.claim h gen Record.returnFromStale else s
      match st with
      | .ok =>
          let x := parseSample pl
          let s := s.sampleContents h gen r x
          if s.settled h || r.cls == .sensor then
            match s.live h with
            | some r => (s.sampleToGuard r x).judgeReply h gen r x
            | none => s
          else s
      | .fault => (s.setMismatch h false).claim h gen (Record.takeFault (faultReading pl))
      | .refused | .noFunction => (s.setMismatch h false).claim h gen (Record.takeFault .refused)
  | .noReply | .checkError | .collision => s.claim h gen Record.makeStale

/-- The outcome of one of the scheduler's Samples (R163, R165): the mark is cleared, the own count falls, and the deadline
is set again unless the outcome is ABANDONED. It is discarded when its confirm entry has been removed, also when a new
proof has given the record a new one since (R166). -/
def State.confirmOutcome (s : State) (h : Handle) (gen : Byte) (o : ReqOutcome) : State :=
  let void := (s.slot h).sampleVoid
  let s := ((s.clearMark h).setOwn (s.csch.own - 1)).callPass
  match s.livePair h gen, (s.slot h).confirm with
  | some r, some _ =>
      let s := if o == .abandoned then s else s.resetDeadline h
      if void then s else s.judgeSample h gen r o
  | _, _ => s

end Sys2Proof.Machine
end

