-- ==== Sys2Proof/Machine/Flash.lean ====
section
/-! DEFINITION. Flash channels, phase generators, Phase Marks, the turn inputs and the combined sources (07, R114 to R118). -/

namespace Sys2Proof.Machine

def genNumber : Generator → Fin 3
  | .pair => 0
  | .beacon => 1
  | .virtual => 2

def Chan.generator : Chan → Generator
  | .flL | .flR => .pair
  | .flB => .beacon
  | .flV => .virtual

def generatorChans : Generator → List Chan
  | .pair => [.flL, .flR]
  | .beacon => [.flB]
  | .virtual => [.flV]

/-- The other channel of the pair. -/
def Chan.partner : Chan → Option Chan
  | .flL => some .flR
  | .flR => some .flL
  | _ => none

def State.chan (s : State) (c : Chan) : ChanState := s.frt.chans[c.number]

def State.setChan (s : State) (c : Chan) (x : ChanState) : State :=
  { s with frt := { s.frt with chans := s.frt.chans.set c.number x } }

def State.gen (s : State) (g : Generator) : Gen := s.frt.gens[genNumber g]

def State.setGen (s : State) (g : Generator) (x : Gen) : State :=
  { s with frt := { s.frt with gens := s.frt.gens.set (genNumber g) x } }

def State.capture (s : State) (side : TurnSide) : Capture := s.frt.captures[side.number]

def State.setCapture (s : State) (side : TurnSide) (c : Capture) : State :=
  { s with frt := { s.frt with captures := s.frt.captures.set side.number c } }

/-- The mode in force: true for FOLLOW (R115). -/
def State.followMode (s : State) (side : TurnSide) : Bool := s.frt.modes[side.number]

def State.setFollowMode (s : State) (side : TurnSide) (b : Bool) : State :=
  { s with frt := { s.frt with modes := s.frt.modes.set side.number b } }

/-- A channel's phase (R135). -/
def State.chanPhase (s : State) (c : Chan) : Bool :=
  match s.chan c with
  | .running => match (s.gen c.generator).run with
    | some r => r.on
    | none => false
  | .following => match c with
    | .flL => s.turnInput .left
    | .flR => s.turnInput .right
    | _ => false
  | _ => false

/-! ### Phase Marks (R138, R139) -/

/-- The mask naming one channel (R212). -/
def Chan.mask (c : Chan) : BitVec 4 := 1#4 <<< c.number.val

/-- The RUNNING channels of a generator. -/
def State.genMask (s : State) (g : Generator) : BitVec 4 :=
  (generatorChans g).foldl (fun m c => if s.chan c == .running then m ||| c.mask else m) 0

def State.setOwed (s : State) (g : Generator) (o : Option OwedMark) : State :=
  s.setGen g { s.gen g with owed := o }

/-- What remains owed after an answer: the mark when refused FULL, nothing when taken or refused DOWN (R139). -/
def owedAfter (m : OwedMark) : ClaimAnswer → Option OwedMark
  | .full => some m
  | _ => none

/-- A running generator claims a mark naming its RUNNING channels with its phase; an owed mark is discarded (R138,
R139). -/
def State.claimGenMark (s : State) (g : Generator) : State :=
  match (s.gen g).run with
  | some r =>
      let m : OwedMark := { mask := s.genMask g, on := r.on }
      let (t, ans) := s.claimMark m.mask m.on
      t.setOwed g (owedAfter m ans)
  | none => s

def State.setFollowOwed (s : State) (side : TurnSide) (o : Option OwedMark) : State :=
  { s with frt := { s.frt with followOwed := s.frt.followOwed.set side.number o } }

/-- A FOLLOWING channel claims a mark naming itself with its input's level (R142). -/
def State.claimFollowMark (s : State) (side : TurnSide) : State :=
  if s.chan side.chan == .following then
    let m : OwedMark := { mask := side.chan.mask, on := s.turnInput side }
    let (t, ans) := s.claimMark m.mask m.on
    t.setFollowOwed side (owedAfter m ans)
  else s

/-- The first marks of generators started in this event and the marks of FOLLOWING channels, claimed after the
Drives (R138; log entries 4 and 36). -/
def State.claimDueMarks (s : State) : State :=
  let gs := s.agenda.marks
  let fs := s.agenda.follows
  let s := { s with agenda := { s.agenda with marks := [], follows := [] } }
  fs.foldl State.claimFollowMark (gs.foldl State.claimGenMark s)

def State.claimOwedGen (s : State) (g : Generator) : State :=
  match (s.gen g).owed with
  | some m => let (t, ans) := s.claimMark m.mask m.on
              t.setOwed g (owedAfter m ans)
  | none => s

def State.claimOwedFollow (s : State) (side : TurnSide) : State :=
  match s.frt.followOwed[side.number] with
  | some m => let (t, ans) := s.claimMark m.mask m.on
              t.setFollowOwed side (owedAfter m ans)
  | none => s

/-- Owed marks are claimed again each time an attempt on the line ends (R139), in the order of log entry 36. -/
def State.claimOwed (s : State) : State :=
  [TurnSide.left, .right].foldl State.claimOwedFollow ([Generator.pair, .beacon, .virtual].foldl State.claimOwedGen s)

/-- The resynchronising marks at the line's entry to READY from a state in which marks are refused (R139; log entry
6); each takes the place of a mark still owed (log entry 51). -/
def State.resync (s : State) : State :=
  [TurnSide.left, .right].foldl State.claimFollowMark ([Generator.pair, .beacon, .virtual].foldl State.claimGenMark s)

/-! ### Generators and channels (R136, R137, R140) -/

/-- The effective period of a cycle (R137): the pair generator halves it while the turn-fail condition holds. -/
def State.effectivePeriod (s : State) (g : Generator) (cycle : Nat) : Nat :=
  if g == .pair && s.turnFailCondition then cycle / 2 else cycle

/-- An ON start at a moment: the buffered period is taken and the effective period fixed (R137). -/
def State.onPhase (s : State) (g : Generator) (start : Nat) : State :=
  let p := s.effectivePeriod g s.hcp.cfg.flashPeriod
  s.setGen g { s.gen g with
    run := some { on := true, ends := start + ms (p / 2), period := p }, cycle := s.hcp.cfg.flashPeriod }

/-- A generator starts afresh; its mark is claimed after the Drives of the event (R136, R138). -/
def State.startGen (s : State) (g : Generator) : State :=
  let s := s.onPhase g s.now
  { s with agenda := { s.agenda with marks := s.agenda.marks ++ [g] } }

/-- A generator stops; it keeps its last cycle period (R136), and an owed mark is dropped (log entry 42). -/
def State.stopGen (s : State) (g : Generator) : State := s.setGen g { s.gen g with run := none, owed := none }

/-- A channel starts (R136, R140): it joins a RUNNING partner, or starts its generator afresh. -/
def State.startChan (s : State) (c : Chan) : State :=
  match c.partner with
  | some p =>
      if s.chan p == .running then s.setChan c .joining
      else (s.setChan c .running).startGen c.generator
  | none => (s.setChan c .running).startGen c.generator

/-- A channel leaves for STOPPED or FOLLOWING (R136, R140, R142): a JOINING partner takes over, and a generator with
no RUNNING channel stops. -/
def State.leaveChan (s : State) (c : Chan) (x : ChanState) : State :=
  let was := s.chan c
  let s := s.setChan c x
  if was == .running then
    match c.partner with
    | some p =>
        match s.chan p with
        | .joining => (s.setChan p .running).startGen c.generator
        | .running => s
        | _ => s.stopGen c.generator
    | none => s.stopGen c.generator
  else s

/-- The channel a source is served by (R135). -/
def State.chanOf (s : State) (x : Src) : Option Chan :=
  if x = 3 then some .flL
  else if x = 4 then some .flR
  else if x = 9 then some .flB
  else if virtualOf s.hcp.cfg.flvSource = some x then some .flV
  else none

/-- A FOLLOWING channel's mark is due in this event. -/
def State.dueFollow (s : State) (side : TurnSide) : State :=
  { s with agenda := { s.agenda with follows := s.agenda.follows ++ [side] } }

/-- A channel's state follows its source (R136). A mark that a FOLLOWING channel owes is dropped when the channel leaves
FOLLOWING (log entry 50). -/
def State.updateChan (s : State) (x : Src) : State :=
  match s.chanOf x with
  | none => s
  | some c =>
      let v := s.source x
      if !v.active then
        let s := if s.chan c == .stopped then s else s.leaveChan c .stopped
        match turnSideOf x with
        | some side => s.setFollowOwed side none
        | none => s
      else match v.form, turnSideOf x with
        | .followed, some side =>
            if s.chan c == .following then s else (s.leaveChan c .following).dueFollow side
        | .flashing _, side =>
            if s.chan c == .stopped || s.chan c == .following then
              let s := match side with
                | some sd => s.setFollowOwed sd none
                | none => s
              s.startChan c
            else s
        | _, _ => s

/-! ### Sources (R114 to R118) -/

/-- A source takes an activity and form; a change is routed (R118, R125). -/
def State.putSource (s : State) (x : Src) (v : Source) : State :=
  if s.source x = v then s else (s.setSourceEntry x v).route x

/-- A source changes, and its channel follows (R125, R136). -/
def State.changeSource (s : State) (x : Src) (v : Source) : State := (s.putSource x v).updateChan x

/-- The turn phase of a side (R116). -/
def State.turnPhase (s : State) (side : TurnSide) : Bool :=
  let v := s.source side.src
  v.active && (match v.form with
    | .flashing _ => s.chanPhase side.chan
    | .followed => s.turnInput side
    | .steady => false)

/-- The activity of a combined source (R116). -/
def State.combinedActive (s : State) (side : TurnSide) : Bool :=
  ((s.source side.src).active && s.turnPhase side) || ((s.source 2).active && !(s.source side.src).active)

/-- The combined sources are computed again, and a change is routed (R116): CMB_L before CMB_R, both after the change that
brought it about; R118 leaves the order open (log entry 45). -/
def State.recombine (s : State) : State :=
  let s := s.putSource 10 { active := s.combinedActive .left, form := .steady }
  s.putSource 11 { active := s.combinedActive .right, form := .steady }

/-- An edge of a followed source: routed, and marked by its FOLLOWING channel (R118, R142). -/
def State.followedEdge (s : State) (side : TurnSide) : State := (s.route side.src).dueFollow side

/-- An edge of a turn input in FOLLOW mode (R115, R143, R144). -/
def State.followEdge (s : State) (side : TurnSide) (rising : Bool) : State :=
  let src := s.source side.src
  let c := s.capture side
  if !rising then
    let s := s.setCapture side { c with lastFall := some s.now }
    if src.active && src.form == .followed then s.followedEdge side else s
  else if !src.active then
    (s.setCapture side { c with lastRise := some s.now, bad := 0, steady := false }).changeSource side.src
      { active := true, form := .followed }
  else
    let period := match c.lastRise with
      | some t => s.now - t
      | none => Config.goodPeriod
    let c := { c with lastRise := some s.now }
    if period < Config.goodPeriod then
      let bad := min 2 (c.bad + 1)
      if c.steady then s.setCapture side { c with bad := bad }
      else if bad = 2 then
        (s.setCapture side { c with bad := bad, steady := true }).changeSource side.src
          { active := true, form := .flashing side.chan }
      else (s.setCapture side { c with bad := bad }).followedEdge side
    else if period ≤ Config.stretchTime then
      if c.steady then
        (s.setCapture side { c with bad := 0, steady := false }).changeSource side.src
          { active := true, form := .followed }
      else (s.setCapture side { c with bad := 0 }).followedEdge side
    else if c.steady then s.setCapture side c
    else (s.setCapture side c).followedEdge side

/-- A pending change of a turn input's mode takes effect at an edge, judged under the new mode (R115, R145). -/
def State.switchMode (s : State) (side : TurnSide) (rising : Bool) : State :=
  let follow := s.hcp.cfg.follow side
  let s := s.setFollowMode side follow
  if follow then
    let c := if rising then { Capture.cleared with lastRise := some s.now }
             else { Capture.cleared with lastFall := some s.now }
    (s.setCapture side c).changeSource side.src { active := rising, form := .followed }
  else
    (s.setCapture side Capture.cleared).changeSource side.src { active := rising, form := .flashing side.chan }

/-- An edge of a turn input (R115). -/
def State.turnEdge (s : State) (side : TurnSide) (rising : Bool) : State :=
  if s.hcp.cfg.follow side != s.followMode side then s.switchMode side rising
  else if s.followMode side then s.followEdge side rising
  else s.changeSource side.src { active := rising, form := .flashing side.chan }

/-- The source of a demand input: inputs and wired sources share their numbers (R114). -/
def inputSrc (i : Fin 10) : Src := ⟨i.val, by omega⟩

/-- A filtered demand input changes (R115). -/
def State.inputChange (s : State) (i : Fin 10) (level : Bool) : State :=
  if s.drt.inputs[i] = level then s
  else
    let s := { s with drt := { s.drt with inputs := s.drt.inputs.set i level } }
    let s := match turnSideOf (inputSrc i) with
      | some side => s.turnEdge side level
      | none => s.changeSource (inputSrc i) { s.source (inputSrc i) with active := level }
    s.recombine

/-- The end of a FOLLOW stretch (R115, R143, R144): the source becomes inactive, the bad-period count 0 and the mark clear;
the edge times stand. -/
def State.endStretch (s : State) (side : TurnSide) : State :=
  let s := s.setCapture side { s.capture side with bad := 0, steady := false }
  (s.changeSource side.src { active := false, form := .followed }).recombine

/-- A phase of a running generator ends (R137). At an ON start a JOINING channel enters RUNNING (R140). The mark is
claimed, and then the combined sources follow the turn phase (R116). -/
def State.endPhase (s : State) (g : Generator) : State :=
  match (s.gen g).run with
  | none => s
  | some r =>
      let s :=
        if r.on then
          s.setGen g { s.gen g with
            run := some { on := false, ends := r.ends + ms (r.period - r.period / 2), period := r.period } }
        else
          let s := (generatorChans g).foldl
            (fun s c => if s.chan c == .joining then s.setChan c .running else s) s
          s.onPhase g r.ends
      (s.claimGenMark g).recombine

/-- The FL_V source setting changes (R117, R141): the old source becomes STEADY and the new one FLASHING, FL_V stops,
and starts afresh when the new source is active. The old source is routed first (R118; log entry 45). -/
def State.changeFlv (s : State) (old new : Nat) : State :=
  match virtualOf old, virtualOf new with
  | some o, some n =>
      if o = n then s
      else
        let s := s.putSource o { s.source o with form := .steady }
        let s := s.putSource n { s.source n with form := .flashing .flV }
        let s := if s.chan .flV == .running then s.leaveChan .flV .stopped else s
        if (s.source n).active then s.startChan .flV else s
  | _, _ => s

end Sys2Proof.Machine
end

