-- ==== Sys2Proof/Machine/Ktl.lean ====
section
/-! DEFINITION. Known Trailer List: the scan, matches and hints, the write-enable latch and the writes (09). -/

namespace Sys2Proof.Machine

def State.setKtl (s : State) (k : Ktl) : State := { s with ktl := k }

/-- The sixteen indices in rising order. -/
def entryIndices : List (Fin 16) := List.finRange 16

/-- The index a byte names, 0 to 15. -/
def entryOf (b : Byte) : Option (Fin 16) := if h : b.toNat < 16 then some ⟨b.toNat, h⟩ else none

def State.ktlEntry (s : State) (i : Fin 16) : KtlEntry := s.ktl.entries[i]

/-- An entry in VALID or PINNED that holds the identity (R179). -/
def KtlEntry.holds (e : KtlEntry) (id : Identity) : Bool := e.state != .empty && e.identity == id

def State.findEntry (s : State) (id : Identity) : Option (Fin 16) :=
  entryIndices.find? fun i => (s.ktlEntry i).holds id

/-! ### The scan (R177, R178) -/

/-- An entry as the scan takes it: a torn one, and a sound EMPTY one, are EMPTY. -/
def KtlCell.taken (c : KtlCell) : KtlEntry :=
  if c.sound && c.entry.state != .empty then c.entry else KtlEntry.blank

/-- The largest stamp among the entries found VALID or PINNED. -/
def largestStamp (es : List KtlEntry) : Nat :=
  es.foldl (fun m e => if e.state == .empty then m else max m e.stamp) 0

/-- The list's part in the end of the scan. -/
def State.endScan (s : State) : State :=
  let entries := s.ktl.cells.map KtlCell.taken
  s.setKtl { s.ktl with
    entries := entries, scanning := false, useCounter := largestStamp entries.toList,
    torn := (s.ktl.cells.toList.filter fun c => !c.sound).length }

/-! ### Matching (R179 to R181) -/

/-- The use counter after a rise (R177). -/
def risen (n : Nat) : Nat := min Config.counterMax (n + 1)

/-- States in which a hint is applied (R180). -/
def RecState.takesHint : RecState → Bool
  | .provisional | .proving | .ready | .bound => true
  | _ => false

/-- One hint (R180): the record of its position and index, if it stands in the unit matched, takes the source unless it
is so tied already or the source's list is full. -/
def State.applyHint (first unit : Nat) (s : State) (x : Hint) : State :=
  let position := first + x.position - 1
  match s.nodeAt position, s.recordOf position x.index with
  | some n, some h =>
      match s.live h with
      | some r =>
          if n.unit = unit && r.state.takesHint && (r.cls == .lamp || r.cls == .supply)
              && !(r.tie == some x.source) && s.listHasRoom x.source then
            ((s.changeTie h (some x.source)).proofTieChanged h).join h
          else s
      | none => s
  | _, _ => s

/-- The stamp renewal of a HIT, withheld while NVLOCK is high (R181, R184). -/
def State.renewStamp (s : State) (i : Fin 16) : State :=
  if s.hcp.nvlock then s
  else
    let n := risen s.ktl.useCounter
    s.setKtl { s.ktl with
      useCounter := n
      write := some { kind := .renew, target := i, content := { s.ktlEntry i with stamp := n },
                      limit := s.now + ms 3 } }

/-- The answer to a match, from the entries as they stand (R179). -/
def State.answerMatch (s : State) (m : MatchReq) : State × MatchOutcome :=
  match s.findEntry m.identity with
  | none => (s, .miss)
  | some i =>
      let e := s.ktlEntry i
      if e.digest = m.digest ∧ e.nodeCount = m.nodeCount then
        ((e.hints.foldl (State.applyHint m.first m.unit) s).renewStamp i, .hit)
      else (s.raise .ktlMismatch, .mismatch)

/-! ### Writes (R182 to R191) -/

def State.setWel (s : State) (b : Bool) : State := s.setKtl { s.ktl with wel := b }

def State.setLast (s : State) (o : NvOutcome) : State := s.setKtl { s.ktl with last := o }

/-- The time limit of a write (R190). -/
def WriteKind.limit : WriteKind → Nat
  | .remember _ => ms 6
  | .erase => ms 20
  | .pin | .unpin => ms 6
  | .eraseList => ms 40
  | .renew => ms 3

def State.placeWrite (s : State) (kind : WriteKind) (target : Fin 16) (content : KtlEntry) : State :=
  s.setKtl { s.ktl with
    write := some { kind := kind, target := target, content := content, limit := s.now + kind.limit } }

/-- The checks every write command makes, in order, with the clearing of WEL (R183): `range` for its parameters,
`own` for its own conditions. -/
def State.writeCommand (s : State) (range : Bool) (own : Option HostResult) (place : State) : State × HostResult :=
  if s.nvBusy then (s, .busy)
  else if s.hcp.nvlock then (s.setWel false, .nvProtected)
  else if !s.ktl.wel then (s, .notEnabled)
  else if !range then (s.setWel false, .badValue)
  else match own with
    | some r => (s.setWel false, r)
    | none => (place, .accepted)

/-! #### REMEMBER UNIT (R185, R186) -/

/-- The identity of a unit: that of the node at its first position (R44). -/
def State.unitIdentity (s : State) (u : UnitRec) : Identity := ((s.nodeAt u.first).map (·.identity)).getD 0

/-- The hints of a unit's records, in rising handle order (R185). -/
def State.unitHints (s : State) (number first : Nat) : List Hint :=
  allHandles.filterMap fun h =>
    match s.live h with
    | some r =>
        if r.unit = number then
          r.tie.map fun src => { position := r.position + 1 - first, index := r.index, source := src }
        else none
    | none => none

/-- The VALID entry with the smallest stamp, and among equal stamps the lowest index (R186). -/
def State.oldestValid (s : State) : Option (Fin 16) :=
  entryIndices.foldl (fun best i =>
    if (s.ktlEntry i).state == .valid then
      match best with
      | some b => if (s.ktlEntry i).stamp < (s.ktlEntry b).stamp then some i else best
      | none => some i
    else best) none

/-- The entry REMEMBER UNIT writes (R186). -/
def State.chooseEntry (s : State) (id : Identity) : Option (Fin 16) :=
  match entryIndices.find? fun i => (s.ktlEntry i).holds id && (s.ktlEntry i).state == .valid with
  | some i => some i
  | none =>
      match entryIndices.find? fun i => (s.ktlEntry i).state == .empty with
      | some i => some i
      | none => s.oldestValid

/-- The command's own conditions (R185). -/
def State.rememberCheck (s : State) (number : Nat) : Option HostResult :=
  match s.bue.units[number - 1]? with
  | none => some .notFound
  | some u =>
      let id := s.unitIdentity u
      if u.outcome == .none then some .badState
      else if entryIndices.any fun i => (s.ktlEntry i).holds id && (s.ktlEntry i).state == .pinned then
        some .nvProtected
      else if (s.chooseEntry id).isNone then some .listFull
      else none

/-- The snapshot and its write (R185, R186). -/
def State.remember (s : State) (number : Nat) : State :=
  match s.bue.units[number - 1]? with
  | none => s
  | some u =>
      let id := s.unitIdentity u
      match s.chooseEntry id with
      | none => s
      | some i =>
          let n := risen s.ktl.useCounter
          let hints := s.unitHints number u.first
          let s := s.setKtl { s.ktl with useCounter := n }
          s.placeWrite (.remember (Config.hintLimit < hints.length)) i
            { state := .valid, identity := id, digest := u.digest, nodeCount := u.nodeCount,
              hints := hints.take Config.hintLimit, stamp := n }

/-! #### ERASE LIST (R189) -/

/-- The entries an ERASE LIST erases, in rising index. -/
def State.erasable (s : State) : List (Fin 16) := entryIndices.filter fun i => (s.ktlEntry i).state != .pinned

/-- ERASE LIST accepted: with every entry PINNED it ends at once. -/
def State.eraseAll (s : State) : State :=
  if s.erasable.isEmpty then (((s.setWel false).raise .nvDone).setLast .ok)
  else s.placeWrite .eraseList 0 KtlEntry.blank

/-! #### The end of a write (R190), and its loss at a device reset (R191) -/

/-- The entries a write writes. -/
def State.written (s : State) (w : KtlWrite) : List (Fin 16) :=
  match w.kind with
  | .eraseList => s.erasable
  | _ => [w.target]

/-- One entry is read back: it takes its new contents, or is taken as EMPTY and fails its check from then on. -/
def State.readBack (content : KtlEntry) (bad : BitVec 16) (s : State) (i : Fin 16) : State :=
  if bad.getLsbD i.val then
    s.setKtl { s.ktl with
      cells := s.ktl.cells.set i content.tornCell, entries := s.ktl.entries.set i KtlEntry.blank }
  else
    s.setKtl { s.ktl with cells := s.ktl.cells.set i content.cell, entries := s.ktl.entries.set i content }

/-- The last outcome of a write whose read-back agrees, and whether the host ordered it. -/
def WriteKind.agreed : WriteKind → NvOutcome
  | .remember true => .hintsTruncated
  | _ => .ok

/-- The list's part in the end of a write, up to the emptying of the slot (R190, R181). -/
def State.endWrite (s : State) (w : KtlWrite) (bad : BitVec 16) : State :=
  let is := s.written w
  let failed := is.any fun i => bad.getLsbD i.val
  let s := is.foldl (State.readBack w.content bad) s
  let s := s.setWel false
  let s :=
    if failed then (s.raise .nvDone).setLast .writeFailed
    else if w.kind == .renew then s
    else (s.raise .nvDone).setLast w.kind.agreed
  s.setKtl { s.ktl with write := none }

/-- The cells after a device reset: the entry a write was writing is torn, and of an ERASE LIST the entries already
done are erased (R191). How many were done is the free value of log entry 15. -/
def State.cutCells (s : State) : Vector KtlCell 16 :=
  match s.ktl.write with
  | none => s.ktl.cells
  | some w =>
      match w.kind with
      | .eraseList =>
          let is := s.erasable
          let done := Config.erasesDone s.free % is.length
          let cells := (is.take done).foldl (fun c i => c.set i KtlCell.blank) s.ktl.cells
          match is[done]? with
          | some i => cells.set i KtlEntry.blank.tornCell
          | none => cells
      | _ => s.ktl.cells.set w.target w.content.tornCell

end Sys2Proof.Machine
end

