-- ==== Sys2Proof/Machine/BringUp.lean ====
section
/-! DEFINITION. Bring-Up Engine: its requests, the states of the walk, matches, recatalogues, teardown and its part in a
chain cut (02, R82, R83). What the outcome of a request brings about is in Walk. -/

namespace Sys2Proof.Machine

def State.setBue (s : State) (b : Bue) : State := { s with bue := b }

def State.setRecat (s : State) (c : Option Recatalogue) : State := { s with fdir := { s.fdir with recat := c } }

/-! ### The engine's own request (R31) -/

/-- The node of a walk's first Describe leaves ASSIGNED when it is placed (R53), that is, when its claim is taken (log entry
56, the model's choice). -/
def NodeEntry.describing (n : NodeEntry) : NodeEntry :=
  if n.state == .assigned then { n with state := .describing } else n

def State.describePlaced (s : State) (r : WalkReq) : State :=
  match r with
  | .describe a _ false =>
      match s.positionOf a with
      | some p => s.modifyNode p NodeEntry.describing
      | none => s
  | _ => s

/-- Place a request of the engine's; refused FULL it is placed again when the next attempt ends (R31), and the node of a first
Describe so refused stays ASSIGNED until then (log entry 56, the model's choice). -/
def State.placeBue (s : State) (r : WalkReq) : State :=
  let (t, ans) := s.claimRoutine r.request
  match ans with
  | .taken => (t.setBue { t.bue with request := .queued }).describePlaced r
  | .full => s.setBue { s.bue with request := .unplaced r }
  | _ => s.setBue { s.bue with request := .none }

/-- The engine's occasion: an attempt on the line has ended (R15). -/
def State.bueOccasion (s : State) : State :=
  match s.bue.request with
  | .unplaced r => s.placeBue r
  | _ => s

/-! ### Units -/

/-- The highest unit record, with its number. -/
def State.highestUnit (s : State) : Option (Nat × UnitRec) :=
  s.bue.units.getLast?.map fun u => (s.bue.units.length, u)

def State.modifyUnit (s : State) (number : Nat) (f : UnitRec → UnitRec) : State :=
  s.setBue { s.bue with units := s.bue.units.modify (number - 1) f }

/-- The highest unit's match outcome is NONE. -/
def State.highestUnmatched (s : State) : Bool :=
  match s.highestUnit with
  | some (_, u) => u.outcome == .none
  | none => false

/-- The link address of the node at the highest position. -/
def State.highestAddress (s : State) : Option Addr := s.ntab.nodes.getLast?.map (·.address)

/-! ### SETTLED and HALTED (R45, R47) -/

def State.newFrontier (s : State) : Countdown :=
  if s.lineRuns then .running (s.now + Config.frontierTime) else .held Config.frontierTime

/-- Entry to SETTLED (R45). -/
def State.settle (s : State) (reason : ChainEnd) : State :=
  (s.setBue { s.bue with
    state := .settled, chainEnd := reason, settledOnce := true, errand := .none, lastProbe := none,
    frontier := if reason == .ended then s.newFrontier else .stopped, frontierHeld := false }).raise .settled

/-- Entry to HALTED (R33, R37, R43). -/
def State.haltWith (s : State) (cause : HaltCause) : State :=
  (s.setBue { s.bue with
    state := .halted, halt := cause, haltPosition := s.ntab.nodes.length, errand := .none, lastProbe := none,
    chainEnd := .none, frontier := .stopped, frontierHeld := false }).raise .chainFault

/-! ### ASSIGN (R37) -/

/-- The lowest link address that no node entry holds and that is not held. -/
def State.freeAddress (s : State) : Option Addr :=
  (List.finRange 12).find? fun a =>
    !(s.ntab.nodes.any fun n => n.address == a) && !(s.bue.held.any fun x => x.1 == a)

/-- Place the Assign, or wait for the first hold to end. -/
def State.placeAssign (s : State) : State :=
  match s.freeAddress, s.bue.lastProbe with
  | some a, some p => (s.setBue { s.bue with errand := .none }).placeBue (.assign a p.identity)
  | _, _ => s.setBue { s.bue with errand := .waitAddress }

def State.enterAssign (s : State) : State := (s.setBue { s.bue with state := .assign, errand := .none }).placeAssign

/-- An address is held for 1000 ms (R48). -/
def State.holdAddress (s : State) (a : Addr) : State :=
  s.setBue { s.bue with
    held := (s.bue.held.filter fun x => !(x.1 == a)) ++ [(a, s.now + Config.addressHold)] }

/-! ### MATCH (R44) -/

/-- The answer of a match is stored, and the engine goes on to the step that called for it. -/
def State.matched (s : State) (unit : Nat) (o : MatchOutcome) : State :=
  let s := s.modifyUnit unit fun u => { u with outcome := o }
  match s.bue.errand with
  | .thenSettle reason => s.settle reason
  | _ => s.enterAssign

/-- Ask for a match: answered at once, or waiting for the scan or the write in flight (R179). -/
def State.askMatch (s : State) (m : MatchReq) : State :=
  if s.nvBusy then s.setKtl { s.ktl with waiting := some m }
  else
    let (t, o) := s.answerMatch m
    t.matched m.unit o

/-- A waiting match is answered at the end of the scan or of the write (R178, R190). -/
def State.answerWaiting (s : State) : State :=
  match s.ktl.waiting with
  | some m =>
      let (t, o) := (s.setKtl { s.ktl with waiting := none }).answerMatch m
      t.matched m.unit o
  | none => s

/-- Entry to MATCH for the highest unit. -/
def State.goMatch (s : State) (errand : Errand) : State :=
  match s.highestUnit with
  | some (number, u) =>
      (s.setBue { s.bue with state := .matching, errand := errand }).askMatch
        { unit := number, first := u.first, identity := s.unitIdentity u, digest := u.digest,
          nodeCount := u.nodeCount }
  | none => s

def State.withdrawMatch (s : State) : State := s.setKtl { s.ktl with waiting := none }

/-- The chain ends: the highest unit is matched if it has not been, and the engine settles (R45). -/
def State.endChain (s : State) (reason : ChainEnd) : State :=
  if s.highestUnmatched then s.goMatch (.thenSettle reason) else s.settle reason

/-! ### PROBE, EXTEND, DESCRIBE (R33, R36, R39, R42, R43) -/

/-- Entry to PROBE: a Probe is placed, unless twelve node entries stand. -/
def State.enterProbe (s : State) : State :=
  let s := s.setBue { s.bue with
    state := .probe, errand := .none, chainEnd := .none, frontier := .stopped, frontierHeld := false,
    dropping := false, deferred := .none }
  if Config.nodeLimit ≤ s.ntab.nodes.length then s.endChain .nodeLimit else s.placeBue .probe

def State.placeExtend (s : State) (opening : Bool) : State :=
  match s.highestAddress with
  | some a => s.placeBue (.extend a opening)
  | none => s

def State.enterExtend (s : State) : State :=
  (s.setBue { s.bue with state := .extend, errand := .none }).placeExtend true

/-- The unit of the node at a position. -/
def State.unitOf (s : State) (position : Nat) : Nat := ((s.nodeAt position).map (·.unit)).getD 0

/-- A node's catalogue has been read (R42); then EXTEND, or the end of the chain at the twelfth node. -/
def State.catalogueDone (s : State) : State :=
  let p := s.ntab.nodes.length
  let digest := (s.bue.units[s.unitOf p - 1]?.map (·.digest)).getD digestStart
  let s := s.modifyNode p fun n => { n with endDigest := some digest, state := .live }
  let s := (s.recordsAt p).foldl (fun s h => s.claim h (s.slot h).gen Record.catalogueRead) s
  let s := if s.bue.settledOnce then s.raise .chainChange else s
  if Config.nodeLimit ≤ p then s.endChain .nodeLimit else s.enterExtend

/-- Place the Describe of the next index, or end the reading (R39, R42). -/
def State.describeNext (s : State) : State :=
  match s.ntab.nodes.getLast? with
  | some n =>
      if h : s.bue.nextIndex < n.count ∧ s.bue.nextIndex < 16 then
        s.placeBue (.describe n.address ⟨s.bue.nextIndex, h.2⟩ false)
      else s.catalogueDone
  | none => s

def State.enterDescribe (s : State) : State :=
  (s.setBue { s.bue with state := .describe, nextIndex := 0 }).describeNext

/-! ### Leaving IDLE and returning to it (R31, R32) -/

def State.leaveIdle (s : State) : State :=
  if s.hcp.cfg.autoBringUp then s.enterProbe else s.setBue { s.bue with state := .waitStart }

/-- The node without a node-end digest (R31). -/
def NodeEntry.noDigest (n : NodeEntry) : NodeEntry := { n with endDigest := none }

/-- No node-end digest is held (R31). -/
def State.dropDigests (s : State) : State := s.setNtab { s.ntab with nodes := s.ntab.nodes.map NodeEntry.noDigest }

/-- IDLE with the values of R31; a waiting match is withdrawn and no recatalogue is in progress (R49, R50, R66, R82). -/
def State.engineIdle (s : State) : State := (((s.setBue Bue.reset).dropDigests).withdrawMatch).setRecat none

/-! ### Recatalogue (R82, R83) -/

/-- A recatalogue ends: the records it admitted take the catalogue read claim. -/
def State.endRecat (s : State) : State :=
  match s.fdir.recat with
  | some c => c.taken.foldl (fun s x => s.claim x.1 x.2 Record.catalogueRead) (s.setRecat none)
  | none => s

/-- The Describe of the next index is handed to the engine, or the recatalogue ends. -/
def State.recatNext (s : State) : State :=
  match s.fdir.recat with
  | some c =>
      match c.indices with
      | i :: _ => s.placeBue (.describe c.address i true)
      | [] => s.endRecat
  | none => s

/-- The index at the head of the list has had an outcome of REPLIED. -/
def State.recatDrop (s : State) (taken : List (Handle × Byte)) : State :=
  match s.fdir.recat with
  | some c => s.setRecat (some { c with indices := c.indices.tail, taken := c.taken ++ taken })
  | none => s

/-- The engine leaves SETTLED or HALTED; a recatalogue ends early (R83). -/
def State.depart (s : State) (d : Departure) : State :=
  let s := s.endRecat
  let s := s.setBue { s.bue with deferred := .none, request := .none }
  match d with
  | .none => s
  | .toProbe => s.enterProbe
  | .toExtend => if s.bue.haltPosition ≤ s.ntab.nodes.length then s.enterExtend else s.enterProbe

/-- A recatalogue's Describe is waiting or in flight. -/
def State.recatOutstanding (s : State) : Bool :=
  s.queued fun r => match r with
    | .describe _ _ recat => recat
    | _ => false

/-- The engine leaves SETTLED or HALTED at once, or when the outcome of the recatalogue's Describe waiting or in
flight has been reported (R48, R83). -/
def State.departOrDefer (s : State) (d : Departure) : State :=
  if s.recatOutstanding then s.setBue { s.bue with deferred := d } else s.depart d

/-! ### The engine's part in a chain cut (R48) -/

/-- The unit records after a cut at a position; `digest` is the node-end digest of the position before it. -/
def trimUnits (p : Nat) (digest : Option Half) (us : List UnitRec) : List UnitRec :=
  (us.filter fun u => u.first < p).map fun u =>
    if p < u.first + u.nodeCount then
      { u with nodeCount := p - u.first, digest := digest.getD digestStart, outcome := .none }
    else u

/-- In HALTED a recatalogue of a cut node ends, with its Describe that is still unplaced (R83); one that was waiting or in
flight has ended it already, ABANDONED. -/
def State.cutRecat (s : State) (p : Nat) : State :=
  match s.fdir.recat with
  | some c => if p ≤ c.position then (s.setBue { s.bue with request := .none }).endRecat else s
  | none => s

/-- The engine is told of a cut at a position, whose entries have been freed. A request of its own that is still unplaced after
FULL is given up with the walk (log entry 57, the model's choice). -/
def State.cutResponse (s : State) (p : Nat) : State :=
  let s := s.setBue { s.bue with units := trimUnits p ((s.nodeAt (p - 1)).bind (·.endDigest)) s.bue.units, chainEnd := .none }
  match s.bue.state with
  | .idle | .waitStart => s
  | .halted => s.cutRecat p
  | .settled =>
      let s := s.setBue { s.bue with frontier := .stopped, frontierHeld := false }
      if s.recatOutstanding then s.setBue { s.bue with deferred := .toProbe }
      else if s.bue.request == .queued then
        let s := s.endRecat
        s.setBue { s.bue with state := .probe, dropping := true }
      else s.depart .toProbe
  | _ =>
      let s := (s.setBue { s.bue with lastProbe := none, tries := 0, errand := .none }).withdrawMatch
      if s.bue.request == .queued then s.setBue { s.bue with dropping := true }
      else (s.setBue { s.bue with request := .none }).enterProbe

/-- The request whose outcome was to be dropped is gone, and the engine enters PROBE (R48); or the Describe that a
departure waited for is gone, and the engine departs (R83), also where a sweep has taken that Describe out of the queue, and
it is not placed again (log entry 58, the model's choice). -/
def State.bueCheck (s : State) : State :=
  if s.bue.dropping && s.bue.request == .none then s.enterProbe
  else if s.bue.deferred != .none && !s.recatOutstanding then s.depart s.bue.deferred
  else s

end Sys2Proof.Machine
end

