-- ==== Sys2Proof/Machine/Nodes.lean ====
section
/-! DEFINITION. Node Table: presence, failures, the loss of a node and the chain cut, and the requests that a cut or a
sweep takes out of the Line Queue (03, R17, R20). -/

namespace Sys2Proof.Machine

/-! ### Requests taken out of the queue -/

/-- The request of the engine's own that stood in the queue is gone. -/
def State.bueRequestGone (s : State) : State := s.setBue { s.bue with request := .none }

/-- What the outcome of a Drive for its handle makes of the mark: a retire Drive's own outcome clears it, and one that has
waited for the outcome is to be placed now (R87). -/
def RetireDrive.afterOutcome : RetireDrive → RetireDrive
  | .placed => .none
  | .awaiting a i w => .unplaced a i w
  | x => x

/-- The outcome of a Drive for a handle, for its slot's retire Drive (R87). -/
def State.clearRetireMark (s : State) (h : Handle) : State :=
  s.modifySlot h fun x => { x with retireDrive := x.retireDrive.afterOutcome }

/-- The outcome ABANDONED reaches the owner of a request (R20); that of a Drive calls for a drain like any other (R127,
R130). -/
def State.abandoned (s : State) (r : Request) : State :=
  match r with
  | .describe _ _ true => s.bueRequestGone.endRecat
  | .probe | .assign .. | .describe .. | .extend .. | .release _ true => s.bueRequestGone
  | .drive d => (s.clearRetireMark d.handle).callDrain
  | .prove .. | .sample .proving .. => s.proofOutcome .abandoned
  | .sample .confirm _ _ h g => s.confirmOutcome h g .abandoned
  | .hail .. | .release _ false | .releaseAll | .phaseMark .. => s

/-- The request in flight is abandoned: a frame being sent is sent to its end, and a reply window is not waited for
(R20; log entry 9). -/
def State.dropInFlight (s : State) (f : InFlight) : State :=
  let s := s.setInFlight none
  match f.stage with
  | .sending e => { s with tdl := { s.tdl with orphan := some e } }
  | .due => s
  | .window .. | .replying _ => s.restartGap

/-- Abandon every request of a kind, waiting and in flight (R20). -/
def State.abandonWhere (s : State) (p : Request → Bool) : State :=
  let gone := s.tdl.urgent.filter p ++ s.tdl.routine.filter p
  let s := s.setUrgent (s.tdl.urgent.filter fun r => !p r)
  let s := s.setRoutine (s.tdl.routine.filter fun r => !p r)
  let (s, gone) : State × List Request := match s.tdl.inFlight with
    | some f => if p f.req then (s.dropInFlight f, f.req :: gone) else (s, gone)
    | none => (s, gone)
  gone.foldl State.abandoned s

/-- A Drive taken out of the queue returns to the pending-drive set (R127), or is a retire Drive still to be placed
(R87). -/
def State.refuseDrive (s : State) (d : DriveReq) : State :=
  match s.livePair d.handle d.gen with
  | some _ =>
      let s := s.setDrive d.handle fun x => { x with lastPlaced := d.prior }
      let s := s.callDrain
      if s.pendHolds d.handle then s
      else s.setPend (s.drt.pend ++
        [{ handle := d.handle, gen := d.gen, word := d.word, time := s.now, urgent := false }])
  | none =>
      if (s.slot d.handle).retireDrive == .placed then
        s.modifySlot d.handle fun x => { x with retireDrive := .unplaced d.address d.index d.word }
      else s

/-- A Sample taken out stays counted by its mark as unplaced and leaves the own count (R163). -/
def State.refuseSample (s : State) (h : Handle) (a : Addr) (i : FnIndex) (gen : Byte) : State :=
  (s.setMark h (.unplaced a i gen)).setOwn (s.csch.own - 1)

/-- The proof's request is unplaced again; a DRAINING slot has nothing left to wait for (log entry 30). -/
def State.refuseProof (s : State) : State :=
  match s.prv.proof with
  | some p => s.setProof (if p.stage == .draining then none else some { p with placed := false })
  | none => s

/-- The engine's request is unplaced again, unless its outcome was to be dropped (log entry 30); the Describe that a departure
waits for is given up at the event's end (log entry 58). -/
def State.refuseBue (s : State) (r : WalkReq) : State :=
  s.setBue { s.bue with request := if s.bue.dropping then .none else .unplaced r }

/-- A request taken out of the routine class is refused back to its origin as FULL (R17). -/
def State.refuseBack (s : State) (r : Request) : State :=
  match r with
  | .drive d => s.refuseDrive d
  | .sample .confirm a i h g => s.refuseSample h a i g
  | .sample .proving .. | .prove .. => s.refuseProof
  | .probe => s.refuseBue .probe
  | .assign a i => s.refuseBue (.assign a i)
  | .describe a i b => s.refuseBue (.describe a i b)
  | .extend a b => s.refuseBue (.extend a b)
  | .release a true => s.refuseBue (.release a)
  | .hail .. | .release _ false | .releaseAll | .phaseMark .. => s

/-- Make room for `n` entries in the routine class: the newest waiting requests are taken out and refused back, the newest
first, so that Drives return to the pending-drive set in that order at one entry time (log entry 41). Cut Releases taken
out are answered, in their order in the queue. -/
def State.makeRoom (s : State) (keep : Request → Bool) (n : Nat) : State × List Request :=
  let (q, out) := takeOutNewest keep (s.routineEntries + n - Config.routineSize) s.tdl.routine
  let s := out.foldl State.refuseBack (s.setRoutine q)
  (s, (out.filter Request.isCutRelease).reverse)

/-! ### The Releases of a chain cut (R64) -/

/-- Requests that stand ahead of a cut's Releases. -/
def Request.aheadOfCut (r : Request) : Bool := r.isSweepHail || r.isCutRelease

/-- Put requests behind the last one of a queue that stands ahead of a cut's Releases. Where an interrupted request has
gone back to the class's head before an earlier cut's Release (R19), they stand behind both (log entry 39). -/
def placeBehind (new : List Request) (q : List Request) : List Request :=
  let tail := (q.reverse.takeWhile fun r => !r.aheadOfCut).reverse
  q.take (q.length - tail.length) ++ new ++ tail

/-- Place Releases at the head of the routine class, behind sweep Hails and earlier cut Releases. -/
def State.placeReleases (s : State) (rs : List Request) : State :=
  let s := (s.makeRoom (fun r => r.aheadOfCut || r.isRestartRelease) rs.length).1
  s.setRoutine (placeBehind rs s.tdl.routine)

/-! ### The chain cut (R63) -/

/-- The records of the node at a position are retired and join in the order of their functions. -/
def State.retireNode (reason : RetireReason) (s : State) (position : Nat) : State :=
  (s.recordsAt position).foldl (fun s h => (s.retireRecord h reason).joinNow h) s

/-- The chain cut at a position. -/
def State.chainCut (s : State) (p : Nat) : State :=
  let addresses := (s.ntab.nodes.drop (p - 1)).map (·.address)
  let behind := (List.range (s.ntab.nodes.length - p)).map fun i => p + 1 + i
  let s := s.retireNode .nodeLost p
  let s := behind.foldl (State.retireNode .chainCut) s
  let s := s.abandonWhere fun r => match r.address with
    | some a => decide (a ∈ addresses) && !r.isCutRelease
    | none => false
  let s := s.placeReleases (addresses.map fun a => .release a false)
  let s := s.setNtab { s.ntab with nodes := s.ntab.nodes.take (p - 1) }
  let s := s.dropUnplacedTo fun a => decide (a ∈ addresses)
  (s.cutResponse p).raise .chainChange

/-- A node is declared LOST (R62): the cut follows in the same event. Nothing is declared of an entry that a link
restart holds. -/
def State.declareLost (s : State) (position : Nat) : State :=
  match s.nodeAt position with
  | some _ =>
      if s.ntab.hold then s
      else (s.modifyNode position fun n => { n with state := .lost }).chainCut position
  | none => s

/-! ### Replies and failures (R55, R56, R61) -/

/-- A valid reply from a link address (R55). -/
def State.heard (s : State) (a : Addr) : State :=
  match s.positionOf a with
  | some p =>
      if s.ntab.hold then s
      else s.modifyNode p fun n => { n with
        failures := 0, heard := if s.lineRuns then .counting 0 s.now else .still 0
        state := if n.state == .suspect then .live else n.state }
  | none => s

/-- A failed request to a link address (R56). -/
def State.failed (s : State) (a : Addr) : State :=
  match s.positionOf a, s.ntab.hold with
  | some p, false =>
      let s := s.modifyNode p fun n => { n with
        failures := n.failures + 1, state := if n.state == .live then .suspect else n.state }
      if ((s.nodeAt p).map (·.failures)).getD 0 < 3 then s else s.declareLost p
  | _, _ => s

/-- A failed Hail of a fault sweep (R61). -/
def State.sweepFailed (s : State) (a : Addr) : State :=
  match s.positionOf a with
  | some p => s.declareLost p
  | none => s

/-- The status of an OK Hail reply (R59). -/
def State.setSummary (s : State) (a : Addr) (b : Byte) : State :=
  match s.positionOf a with
  | some p => s.modifyNode p fun n => { n with summary := b }
  | none => s

/-! ### Presence (R57, R58, R60, R61) -/

/-- LIVE or SUSPECT. -/
def NodeEntry.present (n : NodeEntry) : Bool := n.state == .live || n.state == .suspect

/-- The Hails of a presence tick. -/
def State.hailNode (s : State) (n : NodeEntry) : State :=
  if n.present && decide (Config.hailDue ≤ n.heard.value s.now) && !s.queued (Request.isHailTo n.address) then
    (s.claimRoutine (.hail n.address .none)).1
  else s

def State.tick (s : State) : State :=
  let s := s.setNtab { s.ntab with tick := .running (s.now + Config.tickTime) }
  if s.ntab.hold then s else s.ntab.nodes.foldl State.hailNode s

/-- A presence sweep (R61), placed at the head of the routine class (R17). -/
def State.sweep (s : State) (cause : Sweep) : State :=
  let addresses := if s.ntab.hold then [] else (s.ntab.nodes.filter NodeEntry.present).map (·.address)
  let s := s.setRoutine (s.tdl.routine.filter fun r => !(addresses.any fun a => r.isHailTo a))
  let (s, cut) := s.makeRoom Request.isRestartRelease addresses.length
  let s := s.setRoutine (addresses.map (fun a => .hail a cause) ++ s.tdl.routine)
  if cut.isEmpty then s else s.placeReleases cut

/-- The line leaves READY and BUSY: clocks, tick, confirm deadlines and frontier timer stand still (R46, R57, R58,
R161). -/
def State.freeze (s : State) : State :=
  let s := s.setNtab { s.ntab with
    nodes := s.ntab.nodes.map fun n => { n with heard := n.heard.hold s.now }, tick := s.ntab.tick.hold s.now }
  let s := s.setBue { s.bue with frontier := s.bue.frontier.hold s.now }
  s.mapConfirms (Countdown.hold s.now)

/-- The line returns to READY: they run again; a stopped tick starts, and the clocks of entries held by a link restart
stand still. -/
def State.unfreeze (s : State) : State :=
  let tick := match s.ntab.tick with
    | .stopped => .running (s.now + Config.tickTime)
    | c => c.release s.now
  let nodes := if s.ntab.hold then s.ntab.nodes
    else s.ntab.nodes.map fun n => { n with heard := n.heard.release s.now }
  let s := s.setNtab { s.ntab with nodes := nodes, tick := tick }
  let s := s.setBue { s.bue with frontier := s.bue.frontier.release s.now }
  s.mapConfirms (Countdown.release s.now)

end Sys2Proof.Machine
end

