-- ==== Sys2Proof/Machine/Walk.lean ====
section
/-! DEFINITION. Bring-Up Engine: what the outcome of each of its requests brings about (R33 to R46, R82). -/

namespace Sys2Proof.Machine

/-! ### Probe (R33 to R35, R46) -/

/-- The unit check (R35). -/
def State.unitCheck (s : State) (p : ProbeReply) : State :=
  if p.head && decide (Config.unitLimit ≤ s.bue.units.length) then
    (s.setBue { s.bue with errand := .closeForUnits }).placeExtend false
  else if p.head && s.highestUnmatched then s.goMatch .thenAssign
  else if p.head then s.enterAssign
  else (s.modifyUnit s.bue.units.length fun u => { u with outcome := .none }).enterAssign

/-- The position of a node entry that holds an identity. -/
def State.positionOfIdentity (s : State) (i : Identity) : Option Nat :=
  (s.ntab.nodes.findIdx? fun n => n.identity == i).map (· + 1)

/-- A Probe reply with a function count of 0 to 16: a known identity shows that its node has lost its address (R34). -/
def State.probeFound (s : State) (p : ProbeReply) : State :=
  let s := s.setBue { s.bue with state := .probe, chainEnd := .none, frontier := .stopped, frontierHeld := false }
  match s.positionOfIdentity p.identity, s.ntab.hold with
  | some q, false => s.declareLost q
  | _, _ => (s.setBue { s.bue with lastProbe := some p }).unitCheck p

/-- A frontier Probe has had no reply: the timer starts again, and a recatalogue goes on (R46, R83). -/
def State.frontierSilent (s : State) : State :=
  (s.setBue { s.bue with
    frontier := if s.bue.chainEnd == .ended then s.newFrontier else .stopped }).recatNext

/-- The outcome of a Probe, in the walk or at the frontier (R33, R46). One that moves the engine out of SETTLED ends a
recatalogue (R83). -/
def State.probeOutcome (s : State) (o : ReqOutcome) : State :=
  match o with
  | .replied .ok pl _ =>
      let p := parseProbe pl
      if p.count ≤ 16 then s.endRecat.probeFound p else s.endRecat.haltWith .badProbe
  | .replied _ _ _ => s.endRecat.haltWith .badProbe
  | .collision | .checkError => s.endRecat.haltWith .collision
  | .noReply => if s.bue.state == .settled then s.frontierSilent else s.endChain .ended
  | .abandoned | .sent => s

/-! ### Assign (R37, R38) -/

/-- The node entry of an Assign REPLIED OK (R37, R53). -/
def newNode (a : Addr) (unit : Nat) (p : ProbeReply) (echo : Nat) (heard : Stopwatch) : NodeEntry :=
  { state := .assigned, address := a, unit := unit, head := p.head, identity := p.identity, count := p.count,
    admitted := 0, unadmitted := 0, echo := echo, gateOpen := false, failures := 0, heard := heard, summary := 0,
    endDigest := none }

/-- The unit record that a node begins (R37). -/
def newUnit (first : Nat) (head : Bool) : UnitRec :=
  { first := first, headless := !head, nodeCount := 0, digest := digestStart, outcome := .none }

/-- The window limit (R38): the entry and its share in the units are taken back, and the Release is placed. -/
def State.windowLimit (s : State) (a : Addr) (before : List UnitRec) : State :=
  let s := s.setNtab { s.ntab with nodes := s.ntab.nodes.dropLast }
  (s.setBue { s.bue with units := before, errand := .windowRelease }).placeBue (.release a)

/-- Assign REPLIED OK. -/
def State.assigned (s : State) (a : Addr) (p : ProbeReply) (echo : Nat) : State :=
  let before := s.bue.units
  let begins := p.head || before.isEmpty
  let units := if begins then before ++ [newUnit (s.ntab.nodes.length + 1) p.head] else before
  let heard : Stopwatch := if s.lineRuns then .counting 0 s.now else .still 0
  let s := s.setNtab { s.ntab with nodes := s.ntab.nodes ++ [newNode a units.length p echo heard] }
  let s := s.setBue { s.bue with
    units := units.modify (units.length - 1) fun u => { u with nodeCount := u.nodeCount + 1 },
    tries := 0, lastProbe := none }
  if Config.echoLimit < echo then s.windowLimit a before else s.enterDescribe

/-- An Assign that found no taker (R37). -/
def State.assignFailed (s : State) : State :=
  let s := s.setBue { s.bue with tries := s.bue.tries + 1, lastProbe := none }
  if s.bue.tries < 3 then s.enterProbe else s.haltWith .assignFailed

/-- There is room for an entry at the address: entries hold distinct addresses, and there are at most twelve (R52). The
Assign was placed with such an address, and no entry has been made since (R37; log entry 43). -/
def State.addressOpen (s : State) (a : Addr) : Bool :=
  !(s.ntab.nodes.any fun n => n.address == a) && decide (s.ntab.nodes.length < Config.nodeLimit)

def State.assignOutcome (s : State) (a : Addr) (o : ReqOutcome) : State :=
  match o, s.bue.lastProbe with
  | .replied .ok _ echo, some p => if s.addressOpen a then s.assigned a p echo else s
  | .replied .ok _ _, none => s
  | .replied _ _ _, _ | .noReply, _ | .checkError, _ | .collision, _ => s.assignFailed
  | .abandoned, _ | .sent, _ => s

/-- The window limit ends the chain (R38 step 4). -/
def State.endForWindow (s : State) : State := (s.raise .chainFault).endChain .windowLimit

/-- The Release of the window limit is SENT (R38 step 3). -/
def State.windowReleased (s : State) : State :=
  if s.ntab.nodes.isEmpty then s.endForWindow
  else (s.setBue { s.bue with errand := .closeForWindow }).placeExtend false

/-! ### Describe (R39, R82) -/

/-- One more of the node's functions is unadmitted. -/
def NodeEntry.moreUnadmitted (n : NodeEntry) : NodeEntry := { n with unadmitted := n.unadmitted + 1 }

def NodeEntry.lessUnadmitted (n : NodeEntry) : NodeEntry := { n with unadmitted := n.unadmitted - 1 }

/-- A catalogue entry answered in the walk: folded, and offered when valid (R39, R41, R81). -/
def State.readEntry (s : State) (i : FnIndex) (bytes : List Byte) : State :=
  let p := s.ntab.nodes.length
  let s := s.modifyUnit (s.unitOf p) fun u => { u with digest := digestFold u.digest bytes }
  match parseEntry bytes with
  | some e =>
      match s.admitEntry p i e with
      | (t, some _) => t
      | (t, none) => (t.modifyNode p NodeEntry.moreUnadmitted).raise .dirFull
  | none => s.modifyNode p NodeEntry.moreUnadmitted

def State.nextDescribe (s : State) : State :=
  (s.setBue { s.bue with nextIndex := s.bue.nextIndex + 1 }).describeNext

def State.describeOutcome (s : State) (i : FnIndex) (o : ReqOutcome) : State :=
  match o with
  | .replied .ok pl _ => (s.readEntry i pl).nextDescribe
  | .replied _ _ _ => (s.modifyNode s.ntab.nodes.length NodeEntry.moreUnadmitted).nextDescribe
  | .noReply | .checkError | .collision => s.describeNext
  | .abandoned | .sent => s

/-- A catalogue entry answered in a recatalogue (R82). -/
def State.recatEntry (s : State) (position : Nat) (i : FnIndex) (bytes : List Byte) : State :=
  match parseEntry bytes with
  | some e =>
      match s.admitEntry position i e with
      | (t, some pair) => (t.modifyNode position NodeEntry.lessUnadmitted).recatDrop [pair]
      | (t, none) => (t.raise .dirFull).recatDrop []
  | none => s.recatDrop []

/-- What follows the outcome of a recatalogue's Describe: a held frontier Probe goes before the next Describe (R83). A
departure that waited is taken by `bueCheck`. -/
def State.afterRecat (s : State) : State :=
  let s := match s.fdir.recat with
    | some c => if c.indices.isEmpty then s.endRecat else s
    | none => s
  if s.bue.deferred != .none then s
  else if s.bue.frontierHeld then (s.setBue { s.bue with frontierHeld := false }).placeBue .probe
  else s.recatNext

def State.recatOutcome (s : State) (i : FnIndex) (o : ReqOutcome) : State :=
  match s.fdir.recat with
  | some c =>
      match o with
      | .replied .ok pl _ => (s.recatEntry c.position i pl).afterRecat
      | .replied _ _ _ => (s.recatDrop []).afterRecat
      | .noReply | .checkError | .collision => s.afterRecat
      | .abandoned | .sent => s.endRecat
  | none => s

/-! ### Extend (R43) -/

/-- What follows an Extend CLOSE, whatever its status. -/
def State.afterClose (s : State) : State :=
  match s.bue.errand with
  | .closeForUnits => (s.raise .unitLimit).endChain .unitLimit
  | .closeForWindow => s.endForWindow
  | _ => s

def State.setGate (s : State) (a : Addr) (b : Bool) : State :=
  match s.positionOf a with
  | some p => s.modifyNode p fun n => { n with gateOpen := b }
  | none => s

def State.extendOutcome (s : State) (a : Addr) (opening : Bool) (o : ReqOutcome) : State :=
  match o with
  | .replied .ok _ _ => if opening then (s.setGate a true).enterProbe else (s.setGate a false).afterClose
  | .replied _ _ _ => if opening then s.haltWith .gateRefused else s.afterClose
  | .noReply | .checkError | .collision => s.placeExtend opening
  | .abandoned | .sent => s

/-! ### Every outcome of the engine's (R31, R48) -/

/-- An outcome that the engine drops: an address given in a dropped Assign REPLIED OK is held (R48). -/
def State.dropped (s : State) (r : Request) (o : ReqOutcome) : State :=
  match r, o with
  | .assign a _, .replied .ok _ _ => s.holdAddress a
  | _, _ => s

/-- The outcome of a request of the engine's. -/
def State.bueOutcome (s : State) (r : Request) (o : ReqOutcome) : State :=
  let s := s.bueRequestGone
  if s.bue.dropping then s.dropped r o
  else match r with
    | .probe => s.probeOutcome o
    | .assign a _ => s.assignOutcome a o
    | .describe _ i false => s.describeOutcome i o
    | .describe _ i true => s.recatOutcome i o
    | .extend a opening => s.extendOutcome a opening o
    | .release _ true => if o == .sent then s.windowReleased else s
    | _ => s

end Sys2Proof.Machine
end

