-- ==== Sys2Proof/Machine/Outcomes.lean ====
section
/-! DEFINITION. TDL Controller: the end of an attempt, the report of its outcome, the line states and the teardowns
(R7, R10 to R13, R21 to R25, R49, R50, R66, R130, R131). -/

namespace Sys2Proof.Machine

def State.setTdl (s : State) (t : Tdl) : State := { s with tdl := t }

/-! ### Drives (R130, R131) -/

/-- A Drive that failed: placed once more at failure count 0 (R131). An overload-withheld record has its OFF or STOP
entered once more; a record under a pulse proof has nothing entered. -/
def State.driveFailed (s : State) (h : Handle) : State :=
  match s.live h with
  | some r =>
      match r.drive with
      | some d =>
          if d.failed then s
          else
            let s := s.setDrive h fun _ => { lastPlaced := none, failed := true }
            if r.overloadHeld then s.enter h r r.safeWord
            else if s.withheld h r then s
            else match s.placeWord r with
              | some w => s.enter h r w
              | none => s
      | none => s
  | none => s

/-- The fault claim of a Drive reply (R130). -/
def driveFault (st : ReplyStatus) (pl : List Byte) : Option RecFault :=
  match st with
  | .ok => none
  | .refused | .noFunction => some .refused
  | .fault => some (faultReading pl)

/-- A Drive ON answered OK is the ON start of a lamp driven ON and OFF by phase (R100). -/
def State.driveOnStart (s : State) (d : DriveReq) (st : ReplyStatus) : State :=
  match s.livePair d.handle d.gen with
  | some r =>
      match r.tie with
      | some x =>
          if st == .ok && d.word == .on && r.isLamp && s.demanded x && s.phased x && (s.flashChannel r).isNone then
            s.onStart d.handle
          else s
      | none => s
  | none => s

/-- A Drive REPLIED (R130): fault claim, failure count, the guard's report (R153), the ON start (R100). -/
def State.driveReplied (s : State) (d : DriveReq) (st : ReplyStatus) (pl : List Byte) : State :=
  match s.livePair d.handle d.gen with
  | some _ =>
      let s := s.setDrive d.handle fun x => { x with failed := false }
      let s := match driveFault st pl with
        | some f => s.claim d.handle d.gen (Record.takeFault f)
        | none => s
      (s.guardDriveReplied d.handle d.word).driveOnStart d st
  | none => s

/-- The outcome of a Drive: a retire Drive's mark is cleared by any outcome (R87). -/
def State.driveOutcome (s : State) (d : DriveReq) (o : ReqOutcome) : State :=
  let s := (s.clearRetireMark d.handle).callDrain
  match o with
  | .replied st pl _ => s.driveReplied d st pl
  | .noReply | .checkError | .collision =>
      match s.livePair d.handle d.gen with
      | some _ => s.driveFailed d.handle
      | none => s
  | .sent | .abandoned => s

/-! ### Reports (R7, R13) -/

/-- A reply with status OK or another. -/
def ReqOutcome.isReply : ReqOutcome → Bool
  | .replied .. => true
  | _ => false

/-- The next bits after an outcome (R7). -/
def State.updateNextBit (s : State) (r : Request) (o : ReqOutcome) : State :=
  if o.isReply then
    match r, r.address with
    | .assign a _, _ => s.setNextBit a false
    | _, some a => s.setNextBit a (!s.tdl.nextBit[a])
    | _, none => s
  else s

/-- The engine after a link restart: it leaves IDLE in COUPLED, or at the return to COUPLED (R50). -/
def State.engineAfterRestart (s : State) : State :=
  match s.bue.restart, s.cmon.state with
  | .releasing, .coupled => (s.setBue { s.bue with restart := .none }).leaveIdle
  | .releasing, .parting => s.setBue { s.bue with restart := .onReturn }
  | _, _ => s.setBue { s.bue with restart := .none }

/-- Every node entry is freed, with no retire Drive and no Sample left to be placed to any (R87; log entry 37). -/
def State.freeNodes (s : State) (n : Ntab) : State :=
  (s.setNtab n).dropUnplacedTo fun _ => true

/-- The broadcast Release of a link restart is SENT (R50): the entries it held are freed. -/
def State.restartComplete (s : State) : State :=
  (s.freeNodes { s.ntab with nodes := [], hold := false }).engineAfterRestart

/-- The outcome reaches the block that placed the request (R13). -/
def State.ownerOutcome (s : State) (r : Request) (o : ReqOutcome) : State :=
  match r with
  | .probe | .assign .. | .describe .. | .extend .. | .release _ true => s.bueOutcome r o
  | .drive d => s.driveOutcome d o
  | .prove .. | .sample .proving .. => s.proofOutcome o
  | .sample .confirm _ _ h g => s.confirmOutcome h g o
  | .hail a _ =>
      match o with
      | .replied .ok pl _ => s.setSummary a (pl[0]?.getD 0)
      | _ => s
  | .releaseAll => if o == .sent then s.restartComplete else s
  | .phaseMark m on => if o == .sent && on then s.markOnStart m else s
  | .release _ false => s

/-- A valid reply or a failure of an addressed request is told to the Node Table (R13, R61). -/
def State.reportNode (s : State) (r : Request) (o : ReqOutcome) : State :=
  match r.address, o with
  | some a, .replied _ _ _ => s.heard a
  | some a, .noReply | some a, .checkError | some a, .collision =>
      match r with
      | .hail _ .fault => s.sweepFailed a
      | _ => s.failed a
  | _, _ => s

/-- An outcome is decided: the request leaves its entry, its owner is told, then the Node Table (log entry 5). -/
def State.reportOutcome (s : State) (r : Request) (o : ReqOutcome) : State :=
  (((s.setInFlight none).updateNextBit r o).ownerOutcome r o).reportNode r o

/-- What every origin does when an attempt on the line ends (R15, R87, R127, R139, R162). R15 leaves the order of their
claims open; the model's is that of log entry 36. -/
def State.onAttemptEnd (s : State) : State :=
  (((s.placeRetireDrives.claimOwed).provingOccasion).bueOccasion).callPass.callDrain

/-! ### Line states (R21 to R25) -/

/-- Entry to YIELDED (R22): an undecided request is interrupted. -/
def State.enterYielded (s : State) : State :=
  let s := s.interrupt
  let s := s.setTdl { s.tdl with
    line := .yielded, yieldDue := false, yieldEnds := some (s.now + ms s.hcp.cfg.yieldLimit) }
  (s.raise .lineYield).freeze

/-- The line in FAULT: nothing is driven, a yield or a reclaim is over, and the fault timer runs (R24). -/
def State.lineFaulted (s : State) : State :=
  s.setTdl { s.tdl with
    line := .fault, orphan := none, yieldDue := false, yieldEnds := none, reclaim := .idle,
    faultEnds := some (s.now + Config.faultTime) }

/-- Entry to FAULT (R24, R60). -/
def State.enterFault (s : State) : State :=
  let s := (s.interrupt.lineFaulted.raise .lineFault).freeze
  s.setNtab { s.ntab with
    nodes := s.ntab.nodes.map fun n => if n.state == .live then { n with state := .suspect } else n }

/-- Entry to READY from BUSY: the gap has passed (R127, R162). -/
def State.readyAgain (s : State) : State := (s.setLine .ready).callDrain.callPass

/-- Entry to READY from any other state: clocks run, the sweep is placed, resynchronising marks are claimed (R23, R25,
R60, R127, R139, R162). -/
def State.enterReady (s : State) (cause : Sweep) : State :=
  let s := s.setTdl { s.tdl with line := .ready, yieldEnds := none, reclaim := .idle, faultEnds := none }
  let s := s.unfreeze
  let s := if cause == .none then s else s.sweep cause
  (s.resync).callDrain.callPass

/-- The line has been idle for 1 ms: a due attempt begins, or the line is READY again (R10, R18). -/
def State.gapPassed (s : State) : State :=
  if s.tdl.line == .busy && s.tdl.orphan.isNone && decide (s.tdl.gapEnds ≤ s.now) then
    match s.tdl.inFlight with
    | none => s.readyAgain
    | some _ => s.startIfIdle
  else s

/-- The yield of a line request recognised earlier, once the attempt has ended (R22). -/
def State.yieldIfDue (s : State) : State :=
  if s.tdl.yieldDue && s.tdl.line == .busy then s.enterYielded else s

/-! ### The end of an attempt (R10, R11) -/

/-- The outcome a failed second attempt is reported with: CHECK_ERROR of a Probe is COLLISION (R11). -/
def Request.failedOutcome (r : Request) (o : ReqOutcome) : ReqOutcome :=
  match r, o with
  | .probe, .checkError => .collision
  | _, _ => o

/-- An attempt has ended: a first attempt that ended NO_REPLY or CHECK_ERROR is followed by a second, any other end
decides the outcome. Where a yield is due (R22), the origins claim before the line enters YIELDED, so that an owed Phase Mark
(R139) is answered as in BUSY (log entry 55, the model's choice). -/
def State.endAttempt (s : State) (f : InFlight) (o : ReqOutcome) : State :=
  let s := match o, f.second with
    | .noReply, false | .checkError, false => s.setInFlight (some { f with second := true, stage := .due })
    | _, _ => s.reportOutcome f.req (f.req.failedOutcome o)
  s.onAttemptEnd.yieldIfDue

/-! ### Teardowns (R49, R50, R66) -/

/-- The TDL Controller's part: the part stops driving the line at once, and the line is DOWN with the queue empty. -/
def State.lineDown (s : State) : State :=
  let s := s.abandonWhere fun _ => true
  s.setTdl { s.tdl with
    line := .down, urgent := [], routine := [], inFlight := none, orphan := none, urgentRun := 0, stray := false,
    yieldDue := false, yieldEnds := none, reclaim := .idle, faultEnds := none }

/-- The parting and line loss teardowns, up to the Coupling Monitor's part: every record is retired and every node
entry freed without sending. -/
def State.teardown (s : State) (reason : RetireReason) : State :=
  ((s.engineIdle.lineDown.retireAll reason true).emptyBlocks).freeNodes Ntab.reset

/-- A link restart abandons every request but a broadcast Release. -/
def State.abandonForRestart (s : State) : State := s.engineIdle.abandonWhere fun r => !r.isRestartRelease

/-- A link restart after its records are retired: the broadcast Release is placed, and the entries are held until it
ends. `ended`: an attempt on the line has ended, though its frame may still be being sent (log entry 48). Where none has, the
retire Drives that waited for the outcome of a Drive now abandoned are placed all the same, behind the Release (R87; log entry
34): their handles are `freed`. -/
def State.releaseForRestart (s : State) (freed : List Handle) (ended : Bool) : State :=
  if s.tdl.line == .down then s
  else
    let s := if s.queued Request.isRestartRelease then s else (s.claimRoutine .releaseAll).1
    let s := s.setNtab { s.ntab with
      hold := true, nodes := s.ntab.nodes.map fun n => { n with heard := n.heard.hold s.now } }
    let s := s.setBue { s.bue with restart := .releasing }
    if ended then s.onAttemptEnd.yieldIfDue else freed.foldl State.placeRetireDrive s

/-- The link restart (R50). -/
def State.linkRestart (s : State) : State :=
  let t := s.abandonForRestart
  (((t.retireAll .restart false).emptyBlocks).dropSamplesTo fun _ => true).releaseForRestart (s.retireDrivesFreed t)
    (s.tdl.inFlight.isSome && t.tdl.inFlight.isNone)

/-! ### The end of an event (R76, R89, R99, R127, R162; log entry 4) -/

/-- What an event brings about after its own effect and the engine's part: the Proving Unit, then Drives (R130), marks,
confirms. -/
def State.settleClaims (s : State) : State :=
  s.proofSourceCheck.proofWaits.beginProof.drainIfDue.claimDueMarks.phaseWaitCheck.passIfDue.drainIfDue

/-- What an event brings about after its own effect, in every block, up to the arbiter's grant. -/
def State.settleEvent (s : State) : State := s.bueCheck.settleClaims.arbitrate

/-- The end of an event: the joins of an event other than a host command's are made, the agenda is empty again, and
the output pins follow. -/
def State.finish (s : State) (host : Bool) : State :=
  let s := s.settleEvent
  let s := if host then s else s.flushJoins
  ({ s with agenda := Agenda.none } : State).drivePins

end Sys2Proof.Machine
end

