-- ==== Sys2Proof/Machine/Coupling.lean ====
section
/-! DEFINITION. How a command is run, and the events of the Coupling Monitor and of its two inputs (R26 to R30, R24,
R25). -/

namespace Sys2Proof.Machine

/-- What an event answers: nothing happens during a device reset (R210), nor when its cause does not stand (log
entry 3). -/
def runEvent (s : State) (effect : Option State) : Host.Outcome State Fault Refusal :=
  if s.hcp.inReset then .next s
  else match effect with
    | some t => .next (t.finish false)
    | none => .next s

def State.setCmon (s : State) (c : Cmon) : State := { s with cmon := c }

/-- In UNCOUPLED with both inputs asserted the monitor enters SETTLING (R27). -/
def State.monitorCheck (s : State) : State :=
  if s.cmon.state == .uncoupled && s.cmon.sense && s.tdl.linePresent then
    s.setCmon { s.cmon with state := .settling, settle := some (s.now + Config.settleTime) }
  else s

/-- Entry to UNCOUPLED (R27, R30). -/
def State.enterUncoupled (s : State) : State :=
  (s.setCmon { s.cmon with state := .uncoupled, settle := none, part := none, lineLost := false }).monitorCheck

/-- The line states in which a withdrawn LINE_PRESENT makes a FAULT (R24). -/
def LineState.canFault : LineState → Bool
  | .ready | .busy | .yielded | .reclaiming => true
  | _ => false

def State.faultIfAbsent (s : State) : State :=
  if !s.tdl.linePresent && s.tdl.line.canFault then s.enterFault else s

/-- The return to COUPLED from PARTING (R24, R28, R50). -/
def State.returnCoupled (s : State) : State :=
  let s := s.setCmon { s.cmon with state := .coupled, part := none }
  let s := s.faultIfAbsent
  if s.bue.restart == .onReturn then (s.setBue { s.bue with restart := .none }).leaveIdle else s

/-- The filtered COUPLE_SENSE is asserted (R27, R29, R30). -/
def State.senseAsserted (s : State) : State :=
  let s := s.setCmon { s.cmon with sense := true }
  match s.cmon.state with
  | .uncoupled => s.monitorCheck
  | .parting => if s.cmon.lineLost then s.enterUncoupled else s.returnCoupled
  | _ => s

/-- The filtered COUPLE_SENSE is withdrawn (R27, R29). -/
def State.senseWithdrawn (s : State) : State :=
  let s := s.setCmon { s.cmon with sense := false }
  match s.cmon.state with
  | .settling => s.enterUncoupled
  | .coupled => s.setCmon { s.cmon with state := .parting, part := some (s.now + Config.partTime) }
  | _ => s

def State.setLinePresent (s : State) (b : Bool) : State := s.setTdl { s.tdl with linePresent := b }

/-- LINE_PRESENT is withdrawn (R24, R27, R29). -/
def State.lineAbsent (s : State) : State :=
  let s := s.setLinePresent false
  match s.cmon.state with
  | .settling => s.enterUncoupled
  | .coupled => s.faultIfAbsent
  | _ => s

/-- The settle timer runs out (R27, R28). -/
def State.enterCoupled (s : State) : State :=
  let s := s.setCmon { s.cmon with state := .coupled, settle := none }
  ((s.raise .coupled).enterReady .none).leaveIdle

/-- The parting teardown (R29, R49). -/
def State.partingTeardown (s : State) : State := ((s.teardown .uncoupled).enterUncoupled).raise .parted

/-- The monitor's part in a line loss teardown (R30). -/
def State.monitorLineLoss (s : State) : State :=
  match s.cmon.state with
  | .coupled => s.enterUncoupled
  | .parting => s.setCmon { s.cmon with lineLost := true }
  | _ => s

/-- The line loss teardown (R25, R30, R66). -/
def State.lineLossTeardown (s : State) : State := (s.teardown .line).monitorLineLoss

/-! ### The events -/

/-- COUPLE_SENSE_ASSERTED: the filter asserts (R26). -/
def execCoupleSenseAsserted (s : State) : Host.Outcome State Fault Refusal :=
  runEvent s (if s.cmon.sense then none else some s.senseAsserted)

/-- COUPLE_SENSE_WITHDRAWN (R26). -/
def execCoupleSenseWithdrawn (s : State) : Host.Outcome State Fault Refusal :=
  runEvent s (if s.cmon.sense then some s.senseWithdrawn else none)

/-- LINE_PRESENT_ASSERTED (R1, R27). -/
def execLinePresentAsserted (s : State) : Host.Outcome State Fault Refusal :=
  runEvent s (if s.tdl.linePresent then none else some (s.setLinePresent true).monitorCheck)

/-- LINE_PRESENT_WITHDRAWN (R1, R24). -/
def execLinePresentWithdrawn (s : State) : Host.Outcome State Fault Refusal :=
  runEvent s (if s.tdl.linePresent then some s.lineAbsent else none)

/-- SETTLE_TIMER_EXPIRY (R28). -/
def execSettleTimerExpiry (s : State) : Host.Outcome State Fault Refusal :=
  runEvent s (s.cmon.settle.map fun t => (s.advanceTo t).enterCoupled)

/-- PART_TIMER_EXPIRY (R29). -/
def execPartTimerExpiry (s : State) : Host.Outcome State Fault Refusal :=
  runEvent s (s.cmon.part.map fun t => (s.advanceTo t).partingTeardown)

/-- FAULT_TIMER_EXPIRY (R25). -/
def execFaultTimerExpiry (s : State) : Host.Outcome State Fault Refusal :=
  runEvent s (s.tdl.faultEnds.map fun t => (s.advanceTo t).lineLossTeardown)

end Sys2Proof.Machine
end

