-- ==== Sys2Proof/Machine/LineEvents.lean ====
section
/-! DEFINITION. Events of the Trailer Data Line: frames, windows, replies, the gap, yields, reclaims and recovery (01). -/

namespace Sys2Proof.Machine

/-! ### Frames and gaps -/

/-- BUSY with an attempt due, or with no request in flight: the end of the gap is waited for. -/
def State.gapAwaited (s : State) : Bool :=
  s.tdl.line == .busy && s.tdl.orphan.isNone && (match s.tdl.inFlight with
    | some f => f.stage == .due
    | none => true)

/-- GAP_END: the line has been idle for 1 ms since its last activity (R10, R11, R18, R21). -/
def execGapEnd (s : State) : Host.Outcome State Fault Refusal :=
  runEvent s (if s.gapAwaited then some (s.advanceTo s.tdl.gapEnds).gapPassed else none)

/-- A request frame ends: SENT for a broadcast or a Release, and for any other kind the reply window runs, for a Prove
after the pulse length (R8, R10). -/
def State.frameDone (s : State) (f : InFlight) : State :=
  let s := s.restartGap
  if f.req.answered then
    let opens := s.now + (match f.req with
      | .prove .. => Config.pulseTime
      | _ => 0)
    s.setInFlight (some { f with stage := .window s.now opens (opens + ms f.window) })
  else s.endAttempt f .sent

/-- The frame of an abandoned request is sent to its end (R20). An attempt on the line has ended then, as it had for the origins
when the request was abandoned (log entry 48). -/
def State.orphanDone (s : State) : State :=
  ((s.setTdl { s.tdl with orphan := none }).restartGap).onAttemptEnd

/-- FRAME_END (R10). -/
def execFrameEnd (s : State) : Host.Outcome State Fault Refusal :=
  runEvent s
    (match s.tdl.orphan, s.tdl.inFlight with
      | some e, _ => some (s.advanceTo e).orphanDone
      | none, some f =>
          match f.stage with
          | .sending e => some ((s.advanceTo e).frameDone f)
          | _ => none
      | none, none => none)

/-- REPLY_WINDOW_END: no reply has begun, and the attempt ends NO_REPLY (R10). -/
def execReplyWindowEnd (s : State) : Host.Outcome State Fault Refusal :=
  runEvent s
    (match s.tdl.inFlight with
      | some f =>
          match f.stage with
          | .window _ _ ends => some (((s.advanceTo ends).restartGap).endAttempt f .noReply)
          | _ => none
      | none => none)

/-! ### Replies -/

/-- The echo delay in steps of 0.1 ms, 0.1 to 12.0 ms (R9). -/
def echoDelay (frameEnd now : Nat) : Nat := max 1 (min Config.echoMax (now - frameEnd))

/-- The attempt that a reply beginning now belongs to, with the echo delay to its first edge: one whose reply has begun, or
whose window is open now. What begins before its window opens, as in a Prove's pulse, or after it has ended is line
activity only (R8, R10). -/
def State.replyBegun (s : State) : Option (InFlight × Nat) :=
  match s.tdl.inFlight with
  | some f =>
      match f.stage with
      | .replying echo => some (f, echo)
      | .window fe opens ends => if opens ≤ s.now ∧ s.now ≤ ends then some (f, echoDelay fe s.now) else none
      | _ => none
  | none => none

/-- The attempt that a reply ending now belongs to. One whose first edge fell outside every window is none of it, though a
window has opened since (R8). -/
def State.replyEnding (s : State) : Option (InFlight × Nat) := if s.tdl.stray then none else s.replyBegun

/-- Whether a stray reply is under way. -/
def State.setStray (s : State) (b : Bool) : State := s.setTdl { s.tdl with stray := b }

/-- REPLY_FIRST_EDGE (R8, R9). -/
def execReplyFirstEdge (s : State) : Host.Outcome State Fault Refusal :=
  runEvent s
    (match s.replyBegun with
      | some (f, echo) => some ((s.setInFlight (some { f with stage := .replying echo })).restartGap.setStray false)
      | none => some (s.restartGap.setStray true))

/-- The characters of a reply are complete: valid, REPLIED; not valid, CHECK_ERROR (R4, R10). -/
def State.takeReply (s : State) (f : InFlight) (echo : Nat) (bytes : List Byte) : State :=
  match f.req.parseReply bytes with
  | some (st, pl) => s.restartGap.endAttempt f (.replied st pl echo)
  | none => s.restartGap.endAttempt f .checkError

/-- REPLY_COMPLETE (R10). -/
def execReplyComplete (frame : List (BitVec 8)) (s : State) : Host.Outcome State Fault Refusal :=
  runEvent s
    (match s.replyEnding with
      | some (f, echo) => some (s.takeReply f echo frame)
      | none => some (s.restartGap.setStray false))

/-- A broken reply: with a malformed character the line has been idle for 1 ms already (R10; log entry 18). -/
def State.breakReply (s : State) (f : InFlight) (malformed : Bool) : State :=
  let s := if malformed then s.setTdl { s.tdl with gapEnds := s.now } else s.restartGap
  (s.endAttempt f .checkError).gapPassed

/-- REPLY_BROKEN (R10). -/
def execReplyBroken (malformed : Bool) (s : State) : Host.Outcome State Fault Refusal :=
  runEvent s
    (match s.replyEnding with
      | some (f, _) => some (s.breakReply f malformed)
      | none => some (s.restartGap.setStray false))

/-- LINE_ACTIVITY: any other character or mark on the line (R10). -/
def execLineActivity (s : State) : Host.Outcome State Fault Refusal := runEvent s (some s.restartGap)

/-! ### Yields (R22, R23) -/

/-- A line request in READY or BUSY while the part is not driving the line (R22). -/
def State.lineRequested (s : State) : State :=
  match s.tdl.inFlight with
  | none => s.enterYielded
  | some f =>
      match f.stage with
      | .replying _ => (s.setTdl { s.tdl with yieldDue := true }).restartGap.endAttempt f .checkError
      | .window .. => s.setTdl { s.tdl with yieldDue := true }
      | _ => s.enterYielded

/-- LINE_REQUEST (R22). -/
def execLineRequest (s : State) : Host.Outcome State Fault Refusal :=
  runEvent s (if s.lineRuns && !s.driving then some s.lineRequested else none)

/-- TOOL_LINE_RETURN: the tool gives the line back (R23, R60). -/
def execToolLineReturn (s : State) : Host.Outcome State Fault Refusal :=
  runEvent s (if s.tdl.line == .yielded then some (s.restartGap.enterReady .none) else none)

/-- The yield limit runs out: the reclaim mark is driven (R23). -/
def State.startReclaim (s : State) : State :=
  s.setTdl { s.tdl with line := .reclaiming, yieldEnds := none, reclaim := .mark (s.now + Config.reclaimMark) }

/-- YIELD_LIMIT_EXPIRY (R23). -/
def execYieldLimitExpiry (s : State) : Host.Outcome State Fault Refusal :=
  runEvent s (s.tdl.yieldEnds.map fun t => (s.advanceTo t).startReclaim)

/-- RECLAIM_MARK_END: the line is watched (R23). -/
def execReclaimMarkEnd (s : State) : Host.Outcome State Fault Refusal :=
  runEvent s
    (match s.tdl.reclaim with
      | .mark e =>
          let t := (s.advanceTo e).restartGap
          some (t.setTdl { t.tdl with reclaim := .watch t.now })
      | _ => none)

/-- RECLAIM_SUCCESS: the line has stayed high for 1 ms; the sweep is placed (R23, R61). -/
def execReclaimSuccess (s : State) : Host.Outcome State Fault Refusal :=
  runEvent s
    (match s.tdl.reclaim with
      | .watch m => some (((s.advanceTo (m + Config.reclaimHigh)).advanceTo s.tdl.gapEnds).enterReady .reclaim)
      | _ => none)

/-- RECLAIM_TIMEOUT: 20 ms after the mark the line has not stayed high (R23, R24). -/
def execReclaimTimeout (s : State) : Host.Outcome State Fault Refusal :=
  runEvent s
    (match s.tdl.reclaim with
      | .watch m => some (s.advanceTo (m + Config.reclaimLimit)).enterFault
      | _ => none)

/-- LINE_RECOVERY: LINE_PRESENT is asserted and the line has stayed high for 1 ms while the fault timer runs (R25). -/
def execLineRecovery (s : State) : Host.Outcome State Fault Refusal :=
  runEvent s
    (if s.tdl.line == .fault && s.tdl.linePresent && s.tdl.faultEnds.isSome then
      some ((s.advanceTo s.tdl.gapEnds).enterReady .fault)
    else none)

end Sys2Proof.Machine
end

