-- ==== Sys2Proof/Machine/BlockEvents.lean ====
section
/-! DEFINITION. Events of the other blocks: presence, held addresses, the frontier, the demand inputs, the flash
generators, the guards, confirm deadlines, and the ends of the stored list's scan and writes. -/

namespace Sys2Proof.Machine

/-! ### Node Table and Bring-Up Engine -/

/-- PRESENCE_TICK (R58). -/
def execPresenceTick (s : State) : Host.Outcome State Fault Refusal :=
  runEvent s (s.ntab.tick.ends.map fun t => (s.advanceTo t).tick)

/-- The moment an entry's last-heard clock reaches 1000 ms, while it counts (R57). -/
def State.silentAt (s : State) (position : Nat) : Option Nat :=
  match s.nodeAt position with
  | some n => if s.ntab.hold then none else n.heard.reaches Config.silenceLimit
  | none => none

/-- A node is declared LOST for silence; an attempt that the cut abandons has ended, though its frame may still be being sent
(log entry 48). -/
def State.silenced (s : State) (position : Nat) : State :=
  let was := s.tdl.inFlight.isSome
  let s := s.declareLost position
  if was && s.tdl.inFlight.isNone then s.onAttemptEnd.yieldIfDue else s

/-- LAST_HEARD_TIMEOUT (R57, R62). -/
def execLastHeardTimeout (position : Fin 12) (s : State) : Host.Outcome State Fault Refusal :=
  runEvent s ((s.silentAt (position.val + 1)).map fun t => (s.advanceTo t).silenced (position.val + 1))

/-- A held address is free again; an Assign that waits for one is placed (R37, R48). -/
def State.releaseHold (s : State) (a : Addr) : State :=
  let s := s.setBue { s.bue with held := s.bue.held.filter fun x => !(x.1 == a) }
  if s.bue.errand == .waitAddress then s.placeAssign else s

/-- ADDRESS_HOLD_EXPIRY (R48). -/
def execAddressHoldExpiry (address : Fin 12) (s : State) : Host.Outcome State Fault Refusal :=
  runEvent s ((s.bue.held.find? fun x => x.1 == address).map fun x => (s.advanceTo x.2).releaseHold address)

/-- The frontier timer runs out: a frontier Probe is placed, or held back by a recatalogue (R46, R83). -/
def State.frontierOut (s : State) : State :=
  let s := s.setBue { s.bue with frontier := .stopped }
  if s.bue.request == .none then s.placeBue .probe else s.setBue { s.bue with frontierHeld := true }

/-- FRONTIER_TIMER_EXPIRY (R46). -/
def execFrontierTimerExpiry (s : State) : Host.Outcome State Fault Refusal :=
  runEvent s (s.bue.frontier.ends.map fun t => (s.advanceTo t).frontierOut)

/-! ### Demand inputs (R115, R116, R142 to R145) -/

/-- DEMAND_INPUT_CHANGE (R115). -/
def execDemandInputChange (input : Fin 10) (asserted : Bool) (s : State) : Host.Outcome State Fault Refusal :=
  runEvent s (if s.drt.inputs[input] = asserted then none else some (s.inputChange input asserted))

/-- FOLLOW_STRETCH_END: 1500 ms have passed without a rising edge (R115, R143). -/
def execFollowStretchEnd (side : TurnSide) (s : State) : Host.Outcome State Fault Refusal :=
  runEvent s
    (if s.followMode side && (s.source side.src).active then
      (s.capture side).lastRise.map fun t => (s.advanceTo (t + Config.stretchTime)).endStretch side
    else none)

/-! ### Flash and Reversal Timer -/

/-- PHASE_END (R137). -/
def execPhaseEnd (generator : Generator) (s : State) : Host.Outcome State Fault Refusal :=
  runEvent s ((s.gen generator).run.map fun r => (s.advanceTo r.ends).endPhase generator)

/-- DEAD_TIMER_EXPIRY (R153). -/
def execDeadTimerExpiry (guard : Fin 6) (s : State) : Host.Outcome State Fault Refusal :=
  runEvent s ((s.guard guard).deadTimer.map fun t => (s.advanceTo t).guardDeadOut guard)

/-- RUN_LIMIT_EXPIRY (R155). -/
def execRunLimitExpiry (guard : Fin 6) (s : State) : Host.Outcome State Fault Refusal :=
  runEvent s ((s.guard guard).runTimer.map fun t => (s.advanceTo t).guardLimitOut guard)

/-! ### Confirm Scheduler -/

/-- The moment a record's confirm deadline passes, while deadlines run (R161). -/
def State.deadlineOf (s : State) (h : Handle) : Option Nat :=
  match (s.slot h).confirm with
  | some c => c.deadline.ends
  | none => none

/-- CONFIRM_DEADLINE: a scheduling pass (R162). -/
def execConfirmDeadline (handle : Fin 96) (s : State) : Host.Outcome State Fault Refusal :=
  runEvent s ((s.deadlineOf handle).map fun t => (s.advanceTo t).callPass)

/-! ### Known Trailer List -/

/-- KTL_SCAN_END (R177, R178). -/
def execKtlScanEnd (s : State) : Host.Outcome State Fault Refusal :=
  runEvent s (if s.ktl.scanning then some s.endScan.answerWaiting else none)

/-- KTL_WRITE_END (R190). -/
def execKtlWriteEnd (bad : BitVec 16) (s : State) : Host.Outcome State Fault Refusal :=
  runEvent s (s.ktl.write.map fun w => (s.endWrite w bad).answerWaiting)

end Sys2Proof.Machine
end

