-- ==== Sys2Proof/Machine/Framing.lean ====
section
/-! DEFINITION. Host Command Port: its four SPI pins. The levels and edges of CS_N, SCLK and SDI bring the bytes of a
transaction to the part and its command into the queue, and SDO shows the response (R194, R196 to R199, R210; log entry
52). -/

namespace Sys2Proof.Machine

/-- The port answers nothing while RESET is low and during a device reset (R210). -/
def State.portSilent (s : State) : Bool := s.hcp.resetLow.isSome || s.hcp.inReset

def State.setResponse (s : State) (bytes : List Byte) (stream : Stream) : State :=
  { s with hcp := { s.hcp with response := bytes, stream := stream } }

def State.setSpi (s : State) (p : Spi) : State := { s with hcp := { s.hcp with spi := p } }

/-- A command of the host's waits behind those that came before (log entry 35). -/
def State.bring (s : State) (c : Instr) : State := { s with pending := s.pending ++ [c] }

/-! ### Bits and bytes -/

/-- The bits of a byte in the order of the wire, most significant first (R194). -/
def bitsOf (b : Byte) : List Bool := (List.range 8).map fun i => b.getLsbD (7 - i)

/-- The byte that eight bits spell, most significant first (R194). -/
def byteOfBits (l : List Bool) : Byte := byte (l.foldl (fun n b => 2 * n + b.toNat) 0)

/-- One bit of a row of bytes, which zeros follow (R196). -/
def bitAt (bytes : List Byte) (n : Nat) : Bool := (bytes[n / 8]?.getD 0).getLsbD (7 - n % 8)

/-! ### The transaction on the pins -/

/-- A transaction at the fall of CS_N. -/
def SpiFrame.start : SpiFrame := { bytes := [], bits := [], clocks := 0, shown := 0, clocked := false }

/-- The command byte and its parameter bytes are complete, or the command byte is unknown: what follows are response bytes
(R194, R199). -/
def SpiFrame.answering (f : SpiFrame) : Bool :=
  match f.bytes with
  | [] => false
  | code :: rest =>
      match parameterCount code with
      | none => true
      | some n => decide (n ≤ rest.length)

/-- What the port has read of a transaction. A clock edge that has brought no bit, the first falling edge of mode 3, counts
as a part of the byte that it begins (log entry 52). -/
def SpiFrame.transaction (f : SpiFrame) : Transaction :=
  { bytes := f.bytes, partClocks := max f.bits.length f.clocked.toNat }

/-- A rising edge of SCLK: SDI is sampled, eight bits make a byte, and SDI is ignored during response bytes (R194). -/
def SpiFrame.sample (f : SpiFrame) (sdi : Bool) : SpiFrame :=
  let g := { f with clocks := f.clocks + 1, clocked := true }
  if f.answering then g
  else if f.bits.length < 7 then { g with bits := f.bits ++ [sdi] }
  else { g with bits := [], bytes := f.bytes ++ [byteOfBits (f.bits ++ [sdi])] }

/-- The transaction that the port is framing: none while it is silent, with CS_N high, or where the transaction is not framed
(R194, R210). -/
def State.framing (s : State) : Option SpiFrame :=
  match s.hcp.spi with
  | .framed f => if s.portSilent then none else some f
  | .high | .unframed => none

/-- CS_N falls: a transaction begins, with a response of its own; one that begins while the port is silent is not framed
(R194, R210). -/
def State.selectFall (s : State) : State :=
  match s.hcp.spi with
  | .high => if s.portSilent then s.setSpi .unframed else (s.setResponse [] .none).setSpi (.framed SpiFrame.start)
  | .unframed | .framed _ => s

/-- A rising edge of SCLK, with the level of SDI: the command comes to the part with the byte that completes it (R194,
R196). -/
def State.clockRise (s : State) (sdi : Bool) : State :=
  match s.framing with
  | none => s
  | some f =>
      let g := f.sample sdi
      let t := s.setSpi (.framed g)
      if g.answering && !f.answering then t.bring g.transaction.command else t

/-- A falling edge of SCLK: SDO moves to the next bit, and a stream's image is taken as its first byte begins to go out
(R194, R198). -/
def State.clockFall (s : State) : State :=
  match s.framing with
  | none => s
  | some f =>
      let t := s.setSpi (.framed { f with shown := f.clocks, clocked := true })
      if f.answering && s.hcp.stream != .none && f.clocks == 8 * (f.bytes.length + s.hcp.response.length) then
        t.bring .streamImage
      else t

/-- CS_N rises: the transaction ends, and a stream with it; one whose command has not been taken is incomplete (R194, R197,
R198). One that is not framed ends without effect (R210). -/
def State.selectRise (s : State) : State :=
  match s.framing with
  | none => match s.hcp.spi with
    | .high => s
    | .unframed | .framed _ => s.setSpi .high
  | some f =>
      let t := s.setSpi .high
      if f.answering then t.setResponse s.hcp.response .none else t.bring f.transaction.command

/-- The level of SDO, none where it is high-impedance (R194, R210): zeros during the command byte and the parameter bytes,
then the response, most significant bit first, and zeros after it (R196). -/
def State.sdo (s : State) : Option Bool :=
  s.framing.map fun f =>
    f.answering && decide (8 * f.bytes.length ≤ f.shown) && bitAt s.hcp.response (f.shown - 8 * f.bytes.length)

/-- RESET falls, or a device reset begins: a transaction in progress is ended, and the level of CS_N stays its own (R210). -/
def Spi.ended : Spi → Spi
  | .high => .high
  | .unframed | .framed _ => .unframed

/-! ### Whole bytes and transactions -/

/-- One clock of SCLK, and the level of SDO that the host samples at its rising edge. In mode 0 the falling edge follows the
rising edge, in mode 3 it goes before (R194). -/
def State.clockBit (mode3 : Bool) (s : State) (sdi : Bool) : State × Option Bool :=
  if mode3 then (s.clockFall.clockRise sdi, s.clockFall.sdo) else ((s.clockRise sdi).clockFall, s.sdo)

/-- A row of clocks, with what the host samples. -/
def State.clockBits (mode3 : Bool) (s : State) : List Bool → State × List (Option Bool)
  | [] => (s, [])
  | b :: bs =>
      let x := s.clockBit mode3 b
      let y := x.1.clockBits mode3 bs
      (y.1, x.2 :: y.2)

/-- The eight clocks of a byte on SDI. -/
def State.clockByte (mode3 : Bool) (s : State) (b : Byte) : State × List (Option Bool) := s.clockBits mode3 (bitsOf b)

/-- A whole transaction of the host's, in mode 0, with nothing between its edges: its command comes into the queue (R194,
R196). -/
def State.receive (s : State) (x : Transaction) : State :=
  ((x.bytes.foldl (fun s b => (s.clockByte false b).1) s.selectFall).clockBits false
    (List.replicate x.partClocks false)).1.selectRise

end Sys2Proof.Machine
end

