-- ==== Sys2Proof/Machine/Port.lean ====
section
/-! DEFINITION. Host Command Port: responses, the port's own commands, streams, incomplete transactions and device
resets (10), with the commands of the Bring-Up Engine (R32, R50). -/

namespace Sys2Proof.Machine

/-! ### Taking a command (R196, R200) -/

/-- The bytes of a fixed response: the result code, and the data filled up with zeros (R195, R196). -/
def responseBytes (r : HostResult) (data : List Byte) (len : Nat) : List Byte :=
  byte r.code :: (data ++ List.replicate len 0).take len

/-- A command is taken: `t` is the part after its effect. -/
def reply (s t : State) (r : HostResult) (data : List Byte) (len : Nat) : Host.Outcome State Fault Refusal :=
  if s.portSilent then .next s else .next (t.setResponse (responseBytes r data len) .none)

/-- A command without data: refused with a result, or taken with OK and its effect made. A refused one changes nothing
(R200). -/
def runCommand (s : State) (refusal : Option HostResult) (effect : State) : Host.Outcome State Fault Refusal :=
  match refusal with
  | some r => reply s s r [] 0
  | none => reply s (effect.finish true) .ok [] 0

/-! ### Status, flags, mask and configuration -/

/-- READ_STATUS (R202). -/
def execReadStatus (s : State) : Host.Outcome State Fault Refusal := reply s s .ok s.statusWord 14

def State.setFlags (s : State) (f : Half) : State := { s with hcp := { s.hcp with flags := f } }

/-- ACK_EVENTS (R204). -/
def execAckEvents (mask : BitVec 16) (s : State) : Host.Outcome State Fault Refusal :=
  if ackMaskOk mask then
    reply s (s.setFlags (s.hcp.flags &&& ~~~mask)).drivePins .ok (halfBytes s.hcp.flags) 2
  else reply s s .badValue [] 2

def State.setEventMask (s : State) (m : Half) : State := { s with hcp := { s.hcp with mask := m } }

/-- SET_EVENT_MASK (R205). -/
def execSetEventMask (mask : BitVec 16) (s : State) : Host.Outcome State Fault Refusal :=
  if eventMaskOk mask then reply s (s.setEventMask mask).drivePins .ok [] 0
  else reply s s .badValue [] 0

def State.setConfig (s : State) (c : Settings) : State := { s with hcp := { s.hcp with cfg := c } }

/-- A setting takes a value; a change of the FL_V source is routed at once (R207, R208). -/
def State.configure (s : State) (number value : Nat) : State :=
  let old := s.hcp.cfg.flvSource
  let s := s.setConfig (s.hcp.cfg.set number value)
  if number = 5 then s.changeFlv old value else s

/-- CONFIGURE (R207). -/
def execConfigure (setting : BitVec 8) (value : BitVec 16) (s : State) : Host.Outcome State Fault Refusal :=
  runCommand s (if settingOk setting.toNat value.toNat then none else some .badValue)
    (s.configure setting.toNat value.toNat)

/-- READ_CONFIG (R209). -/
def execReadConfig (s : State) : Host.Outcome State Fault Refusal := reply s s .ok s.configData 33

/-! ### The Bring-Up Engine's commands -/

/-- START BRING-UP in HALTED (R32): after a refused gate whose node still stands the Extend is placed again, otherwise
the walk goes on at PROBE. -/
def State.restartWalk (s : State) : State :=
  let again := s.bue.halt == .gateRefused && decide (s.bue.haltPosition ≤ s.ntab.nodes.length)
  let s := s.setBue { s.bue with halt := .none, tries := if again then s.bue.tries else 0 }
  s.departOrDefer (if again then .toExtend else .toProbe)

/-- START_BRING_UP (R32). A departure that waits for a recatalogue's Describe stands as it is (log entry 21). -/
def execStartBringUp (s : State) : Host.Outcome State Fault Refusal :=
  match s.bue.state with
  | .waitStart => runCommand s none s.enterProbe
  | .halted => runCommand s none (if s.bue.deferred == .none then s.restartWalk else s)
  | _ => runCommand s (some .badState) s

/-- RESTART_LINK (R50). -/
def execRestartLink (s : State) : Host.Outcome State Fault Refusal := runCommand s none s.linkRestart

/-! ### Streams (R94, R96, R198) -/

/-- A stream begins: result OK, and images follow; a refused one sends its result and no image. -/
def startStream (s : State) (stream : Option Stream) : Host.Outcome State Fault Refusal :=
  if s.portSilent then .next s
  else match stream with
    | some x => .next (s.setResponse [byte HostResult.ok.code] x)
    | none => .next (s.setResponse [byte HostResult.badValue.code] .none)

/-- FETCH_RECORD (R94). -/
def execFetchRecord (start : BitVec 8) (s : State) : Host.Outcome State Fault Refusal :=
  startStream s ((handleOf start).map fun h => .records h.val)

/-- FETCH_NODE (R96). -/
def execFetchNode (start : BitVec 8) (s : State) : Host.Outcome State Fault Refusal :=
  startStream s (if 1 ≤ start.toNat ∧ start.toNat ≤ 12 then some (.nodes start.toNat) else none)

/-- The next image of a stream, taken as its first byte goes out, and what the stream sends after it; none after the
last image (R198). -/
def State.nextImage (s : State) : Option (List Byte × Stream) :=
  match s.hcp.stream with
  | .none => none
  | .records n => if h : n < 96 then some (s.recordImage ⟨n, h⟩, .records (n + 1)) else none
  | .nodes p => if p ≤ 12 then some (s.nodeImage p, .nodes (p + 1)) else none

/-- STREAM_IMAGE (R198). -/
def execStreamImage (s : State) : Host.Outcome State Fault Refusal :=
  if s.portSilent then .next s
  else match s.nextImage with
    | some (image, x) => .next (s.setResponse (s.hcp.response ++ image) x)
    | none => .next s

/-! ### Transactions that take nothing (R197, R199) -/

/-- UNKNOWN_COMMAND (R199). -/
def execUnknownCommand (_code : BitVec 8) (s : State) : Host.Outcome State Fault Refusal :=
  reply s s .unknownCommand [] 0

/-- What FRAME_ERROR is set for (R197). -/
def Incomplete.isError : Incomplete → Bool
  | .noClock => false
  | .partCommand => true
  | .missingParameters _ _ => true
  | .unknown _ => false

/-- The bytes the host has read: an unknown command byte alone is answered (R199). -/
def incompleteResponse : Incomplete → List Byte
  | .unknown _ => [byte HostResult.unknownCommand.code]
  | _ => []

/-- INCOMPLETE_TRANSACTION (R197). -/
def execIncompleteTransaction (how : Incomplete) (s : State) : Host.Outcome State Fault Refusal :=
  if s.portSilent then .next s
  else
    let s := if Incomplete.isError how then (s.raise .frameError).drivePins else s
    .next (s.setResponse (incompleteResponse how) .none)

/-! ### Device reset (R191, R210, R211) -/

/-- Every volatile state takes its device reset value, and a write of the stored list in flight is cut. The pins' levels
and VDD's are their own, and a transaction in progress is ended. -/
def State.deviceReset (s : State) : State :=
  { State.reset with
    now := s.now, pending := s.pending, free := s.free + 1, ktl := Ktl.reset s.cutCells,
    hcp := { Hcp.reset with
      nvlock := s.hcp.nvlock, vddLow := s.hcp.vddLow, resetLow := s.hcp.resetLow, inReset := true,
      resetEnds := s.now + Config.resetTime, spi := s.hcp.spi.ended } }

/-- RESET falls: the transaction in progress is ended and ATTN is released (R210). -/
def execResetFall (s : State) : Host.Outcome State Fault Refusal :=
  if s.hcp.resetLow.isSome then .next s
  else
    let s := (s.setResponse [] .none).setSpi s.hcp.spi.ended
    .next { s with hcp := { s.hcp with resetLow := some s.now } }.drivePins

/-- RESET rises: a short low is forgotten, and a device reset ends 1 ms later (R210). -/
def execResetRise (s : State) : Host.Outcome State Fault Refusal :=
  if s.hcp.resetLow.isSome then
    .next { s with hcp := { s.hcp with resetLow := none, resetEnds := s.now + Config.resetTime } }.drivePins
  else .next s

/-- DEVICE_RESET: RESET has been low for 1 ms (R210). -/
def execDeviceReset (s : State) : Host.Outcome State Fault Refusal :=
  match s.hcp.resetLow, s.hcp.inReset with
  | some t, false => .next (s.advanceTo (t + Config.resetTime)).deviceReset
  | _, _ => .next s

/-- SUPPLY_RESET: VDD falls below 3.0 V, and the device reset lasts until VDD has stood in range again (R211). -/
def execSupplyReset (s : State) : Host.Outcome State Fault Refusal :=
  let s := s.deviceReset
  .next { s with hcp := { s.hcp with vddLow := true } }

/-- DEVICE_RESET_END: RESET has been high, and VDD in range, for 1 ms; the scan begins (R178, R210, R211). After a fall of
VDD the command itself tells that VDD has stood in range (log entry 29). -/
def execDeviceResetEnd (s : State) : Host.Outcome State Fault Refusal :=
  if s.hcp.inReset && s.hcp.resetLow.isNone then
    let s := s.advanceTo s.hcp.resetEnds
    .next { s with hcp := { s.hcp with inReset := false, vddLow := false } }.drivePins
  else .next s

end Sys2Proof.Machine
end

