-- ==== Sys2Proof/Machine/Finding.lean ====
section
/-! DEFINITION. Host commands that find records and take changes (R90 to R93). -/

namespace Sys2Proof.Machine

/-! ### TAKE CHANGES (R90) -/

/-- A pair of a handle and its slot's generation (R214). -/
def State.pairBytes (s : State) (h : Handle) : List Byte := [h.code, (s.slot h).gen]

def State.setAttention (s : State) (l : List Handle) : State := { s with fdir := { s.fdir with attention := l } }

/-- The data of TAKE CHANGES: count, eight pair places and the number remaining (R214). -/
def State.changesData (s : State) : List Byte :=
  let taken := s.fdir.attention.take 8
  byte taken.length :: ((taken.flatMap s.pairBytes) ++ List.replicate 16 0).take 16
    ++ [byte (s.fdir.attention.length - 8)]

/-- TAKE_CHANGES (R90). -/
def execTakeChanges (s : State) : Host.Outcome State Fault Refusal :=
  reply s (s.setAttention (s.fdir.attention.drop 8)).drivePins .ok s.changesData 18

/-! ### LOOKUP (R92, R93) -/

/-- The criteria of a LOOKUP; none stands for any. -/
structure Criteria where
  cls : Option Class
  role : Option LampRole
  side : Option LampSide
  unit : Option Nat
  mask : Byte
deriving DecidableEq, Repr

/-- A criterion byte: FFh for any, otherwise a code that must exist (R214). -/
def criterion {α : Type} (decode : Nat → Option α) (b : Byte) : Option (Option α) :=
  if b = 0xFF#8 then some none else (decode b.toNat).map some

def unitOfCode (n : Nat) : Option Nat := if 1 ≤ n ∧ n ≤ 3 then some n else none

/-- The criteria and start handle of a LOOKUP, none when a parameter is outside its range (R92). -/
def parseLookup (cls role side unit mask start : Byte) : Option (Criteria × Handle) :=
  match criterion Class.ofCode cls, criterion LampRole.ofCode role, criterion LampSide.ofCode side,
      criterion unitOfCode unit, handleOf start with
  | some c, some r, some d, some u, some h =>
      if mask.msb then none else some ({ cls := c, role := r, side := d, unit := u, mask := mask }, h)
  | _, _, _, _, _ => none

/-- The bit of a state in the mask (R214). -/
def RecState.maskBit (st : RecState) : Nat := st.code - 1

/-- An optional criterion is any, or equal. -/
def meets {α : Type} [DecidableEq α] (want : Option α) (have_ : Option α) : Bool :=
  match want with
  | none => true
  | some x => have_ == some x

def CatEntry.role : CatEntry → Option LampRole
  | .lamp r _ _ _ _ _ => some r
  | _ => none

def CatEntry.side : CatEntry → Option LampSide
  | .lamp _ d _ _ _ _ => some d
  | _ => none

/-- A record matches (R92). -/
def Criteria.matches (c : Criteria) (r : Record) : Bool :=
  meets c.cls (some r.cls) && meets c.role r.entry.role && meets c.side r.entry.side && meets c.unit (some r.unit)
    && c.mask.getLsbD r.state.maskBit

/-- The matching handles from a start on, in rising order. -/
def State.matching (s : State) (c : Criteria) (start : Handle) : List Handle :=
  allHandles.filter fun h => decide (start ≤ h) && (match s.record h with
    | some r => c.matches r
    | none => false)

/-- The data of LOOKUP: count, sixteen pair places, more, next start (R93, R214). -/
def State.lookupData (s : State) (c : Criteria) (start : Handle) : List Byte :=
  let all := s.matching c start
  let found := all.take 16
  let next := all[16]?
  byte found.length :: ((found.flatMap s.pairBytes) ++ List.replicate 32 0).take 32
    ++ [byte (bit next.isSome), (next.map Handle.code).getD 0]

/-- LOOKUP (R92, R93). -/
def execLookup (cls role side unit mask start : BitVec 8) (s : State) : Host.Outcome State Fault Refusal :=
  match parseLookup cls role side unit mask start with
  | some (c, h) => reply s s .ok (s.lookupData c h) 35
  | none => reply s s .badValue [] 35

end Sys2Proof.Machine
end

