-- ==== Sys2Proof/Machine/RecordCommands.lean ====
section
/-! DEFINITION. Host commands that change records and demands (R82, R86, R88, R113, R117, R121, R122, R132, R150, R174). -/

namespace Sys2Proof.Machine

/-- A command that names a record (R69): refused with BAD_HANDLE before any other check. -/
def runNamed (s : State) (handle gen : Byte) (check : Handle → Record → Option HostResult)
    (effect : Handle → Record → State) : Host.Outcome State Fault Refusal :=
  match s.named handle gen with
  | none => runCommand s (some .badHandle) s
  | some (h, r) => runCommand s (check h r) (effect h r)

def Record.isRetired (r : Record) : Bool := r.state == .retired

/-- A LAMP or SUPPLY, the classes that hold ties (R73). -/
def Record.canTie (r : Record) : Bool := r.cls == .lamp || r.cls == .supply

/-! ### Ties (R121, R122) -/

/-- The checks of BIND after the pair and the source number. -/
def State.bindCheck (s : State) (x : Src) (r : Record) : Option HostResult :=
  if !r.canTie || r.isRetired then some .badState
  else if !(r.tie == some x) && !s.listHasRoom x then some .listFull
  else none

/-- A tie set by the host, which the Proving Unit is told of (R110, R121, R122). -/
def State.hostTie (s : State) (h : Handle) (t : Option Src) : State := (s.changeTie h t).proofTieChanged h

/-- BIND (R121). A BIND naming the source the record is already tied to changes nothing. -/
def execBind (handle gen source : BitVec 8) (s : State) : Host.Outcome State Fault Refusal :=
  runNamed s handle gen
    (fun _ r => match srcOf source with
      | none => some .badValue
      | some x => s.bindCheck x r)
    (fun h r => match srcOf source with
      | none => s
      | some x => if r.tie = some x then s else s.hostTie h (some x))

/-- UNBIND (R122). -/
def execUnbind (handle gen : BitVec 8) (s : State) : Host.Outcome State Fault Refusal :=
  runNamed s handle gen
    (fun _ r => if !r.canTie || r.isRetired || r.tie.isNone then some .badState else none)
    (fun h _ => s.hostTie h none)

/-! ### SET PARAMETER (R150, R174, R175) -/

/-- The checks of DEAD_TIME and RUN_LIMIT (R150). -/
def guardParameterCheck (dead : Bool) (v : Int) (r : Record) : Option HostResult :=
  if r.isRetired || !r.entry.reversing then some .badState
  else if r.guard.isNone then some .noGuard
  else if dead then (if 20 ≤ v ∧ v ≤ 2000 then none else some .badValue)
  else if 1 ≤ v ∧ v ≤ 600 ∧ (r.entry.maxRun = 0 ∨ v ≤ r.entry.maxRun) then none
  else some .badValue

/-- The checks of SET PARAMETER, parameters in the order of R214. -/
def parameterCheck (parameter : Nat) (v : Half) (r : Record) : Option HostResult :=
  match parameter with
  | 0 =>
      if r.isRetired then some .badState
      else if 100 ≤ v.toInt ∧ v.toInt ≤ 5000 then none
      else some .badValue
  | 1 =>
      if r.isRetired || r.cls != .sensor then some .badState
      else if r.highThreshold.slt v then some .badValue
      else none
  | 2 =>
      if r.isRetired || r.cls != .sensor then some .badState
      else if v.slt r.lowThreshold then some .badValue
      else none
  | 3 => guardParameterCheck true v.toInt r
  | 4 => guardParameterCheck false v.toInt r
  | _ => some .badValue

/-- A deadline more than the new interval ahead is brought forward (R175). -/
def Countdown.shorten (now d : Nat) : Countdown → Countdown
  | .running e => .running (min e (now + d))
  | .held l => .held (min l d)
  | .stopped => .stopped

def State.setInterval (s : State) (h : Handle) (r : Record) (v : Nat) : State :=
  (s.setRecord h { r with interval := some v }).modifyConfirm h fun c =>
    { c with deadline := c.deadline.shorten s.now (ms v) }

/-- A sensor's thresholds, with the threshold state computed again from the reading held (R175). -/
def Record.withThresholds (r : Record) (lo hi : Half) : Record :=
  { r with
    lowThreshold := lo, highThreshold := hi,
    reading := r.reading.map fun x => { x with threshold := thresholdOf x.value lo hi } }

/-- The effect of SET PARAMETER (R150, R175). -/
def State.setParameter (s : State) (h : Handle) (r : Record) (parameter : Nat) (v : Half) : State :=
  match parameter, r.guard with
  | 0, _ => s.setInterval h r v.toNat
  | 1, _ => s.setRecord h (r.withThresholds v r.highThreshold)
  | 2, _ => s.setRecord h (r.withThresholds r.lowThreshold v)
  | 3, some g => s.setGuard g { s.guard g with dead := v.toNat }
  | 4, some g => s.setGuard g { s.guard g with limit := v.toNat }
  | _, _ => s

/-- SET_PARAMETER (R150, R174). -/
def execSetParameter (handle gen parameter : BitVec 8) (value : BitVec 16) (s : State) :
    Host.Outcome State Fault Refusal :=
  runNamed s handle gen (fun _ r => parameterCheck parameter.toNat value r)
    (fun h r => s.setParameter h r parameter.toNat value)

/-! ### DRIVE (R132, R133) -/

/-- The words a class takes. -/
def Class.takes (c : Class) (w : OutWord) : Bool :=
  match c with
  | .actuator => w == .runA || w == .runB || w == .stop
  | .supply => w == .off || w == .on
  | _ => false

/-- The checks of DRIVE after the pair. -/
def driveCheck (word : Option OutWord) (r : Record) : Option HostResult :=
  match word with
  | none => some .badValue
  | some w =>
      if r.cls == .lamp || r.cls == .sensor then some .badState
      else if !r.state.usable then some .badState
      else if r.cls == .supply && r.binding.isSome then some .badState
      else if !r.cls.takes w then some .badValue
      else if r.overloadHeld && !(w == .off || w == .stop) then some .badState
      else if r.entry.reversing && r.guard.isNone then some .noGuard
      else none

/-- The effect of DRIVE (R133): a guarded actuator's word goes to its guard. -/
def State.hostDrive (s : State) (h : Handle) (r : Record) (w : OutWord) : State :=
  let s := s.setRecord h { r with wanted := some w }
  match r.guard, w with
  | some g, .runA => s.guardRun g .a
  | some g, .runB => s.guardRun g .b
  | some g, _ => s.guardStop g false
  | none, _ => s.askOutput h w

/-- DRIVE (R132, R133). -/
def execDrive (handle gen word : BitVec 8) (s : State) : Host.Outcome State Fault Refusal :=
  runNamed s handle gen (fun _ r => driveCheck (OutWord.ofCode word.toNat) r)
    (fun h r => match OutWord.ofCode word.toNat with
      | some w => s.hostDrive h r w
      | none => s)

/-! ### SET DEMAND (R117) -/

/-- SET_DEMAND (R117). -/
def execSetDemand (source demand : BitVec 8) (s : State) : Host.Outcome State Fault Refusal :=
  match virtualOf source.toNat with
  | some x =>
      runCommand s (if demand.toNat ≤ 1 then none else some .badValue)
        (s.changeSource x { s.source x with active := demand.toNat == 1 })
  | none => runCommand s (some .badValue) s

/-! ### PROVE, RETIRE, FORGET (R86, R88, R113) -/

/-- PROVE (R113). -/
def execProve (handle gen : BitVec 8) (s : State) : Host.Outcome State Fault Refusal :=
  runNamed s handle gen (fun _ r => if r.putBack.isSome then none else some .badState)
    (fun h _ =>
      let s := s.claim h gen Record.putBack
      s.setProvingList (s.prv.list ++ [h]))

/-- The retire Drive of a record, still to be placed (R86, R87). -/
def Record.retireDrive (r : Record) : RetireDrive :=
  match r.retireWord, r.address with
  | some w, some a => .unplaced a r.index w
  | _, _ => .none

/-- The node counts a record let go by the host as unadmitted (R86). -/
def NodeEntry.letGo (n : NodeEntry) : NodeEntry :=
  { n with admitted := n.admitted - 1, unadmitted := n.unadmitted + 1 }

/-- The effect of RETIRE. -/
def State.hostRetire (s : State) (h : Handle) (r : Record) : State :=
  let s := s.retireRecord h .host
  let s := s.modifyNode r.position NodeEntry.letGo
  (s.modifySlot h fun x => { x with retireDrive := r.retireDrive }).placeRetireDrive h

/-- RETIRE (R86). -/
def execRetire (handle gen : BitVec 8) (s : State) : Host.Outcome State Fault Refusal :=
  runNamed s handle gen (fun _ r => if r.isRetired then some .badState else none) s.hostRetire

/-- The checks of FORGET (R88). -/
def State.forgetCheck (s : State) (h : Handle) (r : Record) : Option HostResult :=
  if !r.isRetired then some .badState
  else if (s.slot h).retireDrive != .none then some .busy
  else none

/-- The slot becomes FREE, and its handle leaves the Attention Set. -/
def State.forget (s : State) (h : Handle) : State :=
  (s.modifySlot h fun x => { x with record := none }).setAttention (s.fdir.attention.filter fun y => !(y == h))

/-- FORGET (R88). -/
def execForget (handle gen : BitVec 8) (s : State) : Host.Outcome State Fault Refusal :=
  runNamed s handle gen s.forgetCheck (fun h _ => s.forget h)

/-! ### RECATALOGUE (R82) -/

/-- The checks of RECATALOGUE. -/
def State.recatCheck (s : State) (position : Nat) : Option HostResult :=
  if position < 1 ∨ 12 < position then some .badValue
  else match s.nodeAt position with
    | none => some .notFound
    | some n =>
        if n.state == .assigned || n.state == .describing then some .badState
        else if !(s.bue.state == .settled || s.bue.state == .halted) then some .busy
        else if s.fdir.recat.isSome then some .busy
        else none

/-- The index list: each index of the node with no live record (R82). -/
def State.missingIndices (s : State) (position count : Nat) : List FnIndex :=
  (List.finRange 16).filter fun i => decide (i.val < count) && (s.recordOf position i).isNone

/-- A recatalogue begins; its first Describe waits while a frontier Probe is out. -/
def State.startRecat (s : State) (position : Nat) : State :=
  match s.nodeAt position with
  | some n =>
      let s := s.setRecat (some { position := position, address := n.address,
                                  indices := s.missingIndices position n.count, taken := [] })
      if (s.missingIndices position n.count).isEmpty then s.endRecat
      else if s.bue.request == .none then s.recatNext
      else s
  | none => s

/-- RECATALOGUE (R82). -/
def execRecatalogue (position : BitVec 8) (s : State) : Host.Outcome State Fault Refusal :=
  runCommand s (s.recatCheck position.toNat) (s.startRecat position.toNat)

end Sys2Proof.Machine
end

