-- ==== Sys2Proof/Machine/KtlCommands.lean ====
section
/-! DEFINITION. Host commands of the Known Trailer List (R182 to R189, R192). -/

namespace Sys2Proof.Machine

/-- A write command answers its result; its state is the one after its checks, or after the write is placed. -/
def runWrite (s : State) (a : State × HostResult) : Host.Outcome State Fault Refusal :=
  reply s (if a.2 == .accepted then a.1.finish true else a.1) a.2 [] 0

/-- WRITE_ENABLE (R182, R184). -/
def execWriteEnable (s : State) : Host.Outcome State Fault Refusal :=
  if s.nvBusy then reply s s .busy [] 0
  else if s.hcp.nvlock then reply s s .nvProtected [] 0
  else reply s (s.setWel true) .ok [] 0

/-- WRITE_DISABLE (R182). -/
def execWriteDisable (s : State) : Host.Outcome State Fault Refusal :=
  if s.ktl.scanning then reply s s .busy [] 0 else reply s (s.setWel false) .ok [] 0

/-- REMEMBER_UNIT (R183, R185, R186). -/
def execRememberUnit (unit : BitVec 8) (s : State) : Host.Outcome State Fault Refusal :=
  let n := unit.toNat
  runWrite s (s.writeCommand (decide (1 ≤ n) && decide (n ≤ 3)) (s.rememberCheck n) (s.remember n))

/-- A write command on one entry named by its index: its range, and its own condition on the entry. -/
def State.entryCommand (s : State) (index : Byte) (own : KtlEntry → Option HostResult)
    (place : Fin 16 → KtlEntry → State) : State × HostResult :=
  match entryOf index with
  | some i => s.writeCommand true (own (s.ktlEntry i)) (place i (s.ktlEntry i))
  | none => s.writeCommand false none s

/-- ERASE_ENTRY (R187). -/
def execEraseEntry (index : BitVec 8) (s : State) : Host.Outcome State Fault Refusal :=
  runWrite s (s.entryCommand index (fun e => if e.state == .pinned then some .nvProtected else none)
    (fun i _ => s.placeWrite .erase i KtlEntry.blank))

/-- PIN_ENTRY (R188). -/
def execPinEntry (index : BitVec 8) (s : State) : Host.Outcome State Fault Refusal :=
  runWrite s (s.entryCommand index (fun e => if e.state == .valid then none else some .badState)
    (fun i e => s.placeWrite .pin i { e with state := .pinned }))

/-- UNPIN_ENTRY (R188). -/
def execUnpinEntry (index : BitVec 8) (s : State) : Host.Outcome State Fault Refusal :=
  runWrite s (s.entryCommand index (fun e => if e.state == .pinned then none else some .badState)
    (fun i e => s.placeWrite .unpin i { e with state := .valid }))

/-- ERASE_LIST (R189). -/
def execEraseList (s : State) : Host.Outcome State Fault Refusal :=
  runWrite s (s.writeCommand true none s.eraseAll)

/-- KTL_READ (R192). -/
def execKtlRead (index : BitVec 8) (s : State) : Host.Outcome State Fault Refusal :=
  if s.nvBusy then reply s s .busy [] 66
  else match entryOf index with
    | some i => reply s s .ok (entryImage i.val (s.ktlEntry i)) 66
    | none => reply s s .badValue [] 66

end Sys2Proof.Machine
end

