-- ==== Sys2Proof/Machine/Dispatch.lean ====
section
/-! DEFINITION. The effect of each command on everything but the queue: one arm for each row of the table. -/

namespace Sys2Proof.Machine

/-- The command's effect. -/
def exec (i : Instr) (s : State) : Host.Outcome State Fault Refusal :=
  match i with
  | .readStatus => Sys2Proof.Machine.execReadStatus s
  | .ackEvents mask => Sys2Proof.Machine.execAckEvents mask s
  | .setEventMask mask => Sys2Proof.Machine.execSetEventMask mask s
  | .configure setting value => Sys2Proof.Machine.execConfigure setting value s
  | .readConfig => Sys2Proof.Machine.execReadConfig s
  | .startBringUp => Sys2Proof.Machine.execStartBringUp s
  | .restartLink => Sys2Proof.Machine.execRestartLink s
  | .lookup cls role side unit mask start => Sys2Proof.Machine.execLookup cls role side unit mask start s
  | .fetchRecord start => Sys2Proof.Machine.execFetchRecord start s
  | .fetchNode start => Sys2Proof.Machine.execFetchNode start s
  | .takeChanges => Sys2Proof.Machine.execTakeChanges s
  | .bind handle gen source => Sys2Proof.Machine.execBind handle gen source s
  | .unbind handle gen => Sys2Proof.Machine.execUnbind handle gen s
  | .setParameter handle gen parameter value => Sys2Proof.Machine.execSetParameter handle gen parameter value s
  | .drive handle gen word => Sys2Proof.Machine.execDrive handle gen word s
  | .setDemand source demand => Sys2Proof.Machine.execSetDemand source demand s
  | .prove handle gen => Sys2Proof.Machine.execProve handle gen s
  | .retire handle gen => Sys2Proof.Machine.execRetire handle gen s
  | .forget handle gen => Sys2Proof.Machine.execForget handle gen s
  | .recatalogue position => Sys2Proof.Machine.execRecatalogue position s
  | .writeEnable => Sys2Proof.Machine.execWriteEnable s
  | .writeDisable => Sys2Proof.Machine.execWriteDisable s
  | .rememberUnit unit => Sys2Proof.Machine.execRememberUnit unit s
  | .eraseEntry index => Sys2Proof.Machine.execEraseEntry index s
  | .pinEntry index => Sys2Proof.Machine.execPinEntry index s
  | .unpinEntry index => Sys2Proof.Machine.execUnpinEntry index s
  | .eraseList => Sys2Proof.Machine.execEraseList s
  | .ktlRead index => Sys2Proof.Machine.execKtlRead index s
  | .unknownCommand code => Sys2Proof.Machine.execUnknownCommand code s
  | .incompleteTransaction how => Sys2Proof.Machine.execIncompleteTransaction how s
  | .streamImage => Sys2Proof.Machine.execStreamImage s
  | .resetFall => Sys2Proof.Machine.execResetFall s
  | .resetRise => Sys2Proof.Machine.execResetRise s
  | .deviceReset => Sys2Proof.Machine.execDeviceReset s
  | .supplyReset => Sys2Proof.Machine.execSupplyReset s
  | .deviceResetEnd => Sys2Proof.Machine.execDeviceResetEnd s
  | .ktlScanEnd => Sys2Proof.Machine.execKtlScanEnd s
  | .ktlWriteEnd bad => Sys2Proof.Machine.execKtlWriteEnd bad s
  | .demandInputChange input asserted => Sys2Proof.Machine.execDemandInputChange input asserted s
  | .followStretchEnd side => Sys2Proof.Machine.execFollowStretchEnd side s
  | .coupleSenseAsserted => Sys2Proof.Machine.execCoupleSenseAsserted s
  | .coupleSenseWithdrawn => Sys2Proof.Machine.execCoupleSenseWithdrawn s
  | .linePresentAsserted => Sys2Proof.Machine.execLinePresentAsserted s
  | .linePresentWithdrawn => Sys2Proof.Machine.execLinePresentWithdrawn s
  | .settleTimerExpiry => Sys2Proof.Machine.execSettleTimerExpiry s
  | .partTimerExpiry => Sys2Proof.Machine.execPartTimerExpiry s
  | .faultTimerExpiry => Sys2Proof.Machine.execFaultTimerExpiry s
  | .lineRequest => Sys2Proof.Machine.execLineRequest s
  | .toolLineReturn => Sys2Proof.Machine.execToolLineReturn s
  | .yieldLimitExpiry => Sys2Proof.Machine.execYieldLimitExpiry s
  | .reclaimSuccess => Sys2Proof.Machine.execReclaimSuccess s
  | .reclaimTimeout => Sys2Proof.Machine.execReclaimTimeout s
  | .lineRecovery => Sys2Proof.Machine.execLineRecovery s
  | .gapEnd => Sys2Proof.Machine.execGapEnd s
  | .frameEnd => Sys2Proof.Machine.execFrameEnd s
  | .replyWindowEnd => Sys2Proof.Machine.execReplyWindowEnd s
  | .replyComplete frame => Sys2Proof.Machine.execReplyComplete frame s
  | .replyBroken malformed => Sys2Proof.Machine.execReplyBroken malformed s
  | .presenceTick => Sys2Proof.Machine.execPresenceTick s
  | .lastHeardTimeout position => Sys2Proof.Machine.execLastHeardTimeout position s
  | .addressHoldExpiry address => Sys2Proof.Machine.execAddressHoldExpiry address s
  | .frontierTimerExpiry => Sys2Proof.Machine.execFrontierTimerExpiry s
  | .phaseEnd generator => Sys2Proof.Machine.execPhaseEnd generator s
  | .deadTimerExpiry guard => Sys2Proof.Machine.execDeadTimerExpiry guard s
  | .runLimitExpiry guard => Sys2Proof.Machine.execRunLimitExpiry guard s
  | .confirmDeadline handle => Sys2Proof.Machine.execConfirmDeadline handle s
  | .replyFirstEdge => Sys2Proof.Machine.execReplyFirstEdge s
  | .lineActivity => Sys2Proof.Machine.execLineActivity s
  | .reclaimMarkEnd => Sys2Proof.Machine.execReclaimMarkEnd s

end Sys2Proof.Machine
end

