-- ==== Sys2Proof/Machine/Clock.lean ====
section
/-! DEFINITION. The passing of time while no command waits: which events fall due (log entry 1). -/

namespace Sys2Proof.Machine

/-- A command that is due when its moment has come. -/
def dueIf (now : Nat) (moment : Option Nat) (c : Instr) : List Instr :=
  match moment with
  | some t => if t ≤ now then [c] else []
  | none => []

/-- The end of the frame being sent. -/
def State.frameEnds (s : State) : Option Nat :=
  match s.tdl.orphan, s.tdl.inFlight with
  | some e, _ => some e
  | none, some f => match f.stage with
    | .sending e => some e
    | _ => none
  | none, none => none

/-- The end of the reply window that is running. -/
def State.windowEnds (s : State) : Option Nat :=
  match s.tdl.inFlight with
  | some f => match f.stage with
    | .window _ _ e => some e
    | _ => none
  | none => none

/-- The end of a gap that an attempt, or the line's return to READY, waits for. -/
def State.gapDue (s : State) : Option Nat := if s.gapAwaited then some s.tdl.gapEnds else none

/-- The events of the line that are due. -/
def State.dueOnLine (s : State) : List Instr :=
  dueIf s.now s.tdl.faultEnds .faultTimerExpiry ++ dueIf s.now s.tdl.yieldEnds .yieldLimitExpiry
  ++ (match s.tdl.reclaim with
    | .mark e => dueIf s.now (some e) .reclaimMarkEnd
    | .watch m => dueIf s.now (some (m + Config.reclaimLimit)) .reclaimTimeout
    | .idle => [])
  ++ dueIf s.now s.frameEnds .frameEnd ++ dueIf s.now s.windowEnds .replyWindowEnd
  ++ dueIf s.now s.gapDue .gapEnd

/-- The moment a FOLLOW stretch ends. -/
def State.stretchEnds (s : State) (side : TurnSide) : Option Nat :=
  if s.followMode side && (s.source side.src).active then
    (s.capture side).lastRise.map fun t => t + Config.stretchTime
  else none

/-- A record's deadline passes now (R162). -/
def State.deadlinePasses (s : State) (h : Handle) : Bool := s.deadlineOf h == some s.now

/-- The events of the other blocks that are due. -/
def State.dueInBlocks (s : State) : List Instr :=
  dueIf s.now s.ntab.tick.ends .presenceTick
  ++ (List.finRange 12).flatMap (fun i => dueIf s.now (s.silentAt (i.val + 1)) (.lastHeardTimeout i))
  ++ s.bue.held.flatMap (fun x => dueIf s.now (some x.2) (.addressHoldExpiry x.1))
  ++ dueIf s.now s.bue.frontier.ends .frontierTimerExpiry
  ++ [TurnSide.left, .right].flatMap (fun x => dueIf s.now (s.stretchEnds x) (.followStretchEnd x))
  ++ [Generator.pair, .beacon, .virtual].flatMap
      (fun g => dueIf s.now ((s.gen g).run.map (·.ends)) (.phaseEnd g))
  ++ (List.finRange 6).flatMap (fun g => dueIf s.now (s.guard g).deadTimer (.deadTimerExpiry g))
  ++ (List.finRange 6).flatMap (fun g => dueIf s.now (s.guard g).runTimer (.runLimitExpiry g))
  ++ (allHandles.filter s.deadlinePasses).map Instr.confirmDeadline

/-- The ends of a low RESET's first 1 ms, and of a device reset with RESET high and VDD in range. After a fall of VDD the
clock does not end the reset: VDD's return is told from outside (log entry 29). -/
def State.dueAtReset (s : State) : List Instr :=
  match s.hcp.resetLow, s.hcp.inReset with
  | some t, false => dueIf s.now (some (t + Config.resetTime)) .deviceReset
  | none, true => if s.hcp.vddLow then [] else dueIf s.now (some s.hcp.resetEnds) .deviceResetEnd
  | _, _ => []

/-- Every event that is due. -/
def State.dueEvents (s : State) : List Instr :=
  s.dueAtReset ++ dueIf s.now s.cmon.settle .settleTimerExpiry ++ dueIf s.now s.cmon.part .partTimerExpiry
  ++ s.dueOnLine ++ s.dueInBlocks

/-- The clock moves on by 0.1 ms, and the events that are due wait in the queue. -/
def State.tickClock (s : State) : State :=
  let t := { s with now := s.now + 1 }
  { t with pending := t.dueEvents }

end Sys2Proof.Machine
end

