-- ==== Sys2Proof/Safety.lean ====
section
/-! DEFINITION. What the statements speak of: views of the state that most operations leave alone, and the invariants of
a step. -/

namespace Sys2Proof.Machine

/-- What nothing on the trailer's side changes: the clock, the monitor, the inputs and their modes, the host's settings,
the contents of the stored list, the sequence bits and the port. -/
structure Fixed where
  now : Nat
  pending : List Instr
  free : Nat
  cmon : Cmon
  nextBit : Vector Bool 12
  linePresent : Bool
  inputs : Vector Bool 10
  modes : Vector Bool 2
  cfg : Settings
  mask : Half
  response : List Byte
  stream : Stream
  resetLow : Option Nat
  inReset : Bool
  resetEnds : Nat
  nvlock : Bool
  spi : Spi
  cells : Vector KtlCell 16
  entries : Vector KtlEntry 16
  scanning : Bool
  wel : Bool
  torn : Nat
  last : NvOutcome
deriving DecidableEq, Repr

def State.fixed (s : State) : Fixed :=
  { now := s.now, pending := s.pending, free := s.free, cmon := s.cmon, nextBit := s.tdl.nextBit,
    linePresent := s.tdl.linePresent, inputs := s.drt.inputs, modes := s.frt.modes, cfg := s.hcp.cfg,
    mask := s.hcp.mask, response := s.hcp.response, stream := s.hcp.stream, resetLow := s.hcp.resetLow,
    inReset := s.hcp.inReset, resetEnds := s.hcp.resetEnds, nvlock := s.hcp.nvlock,
    spi := s.hcp.spi, cells := s.ktl.cells,
    entries := s.ktl.entries, scanning := s.ktl.scanning, wel := s.ktl.wel, torn := s.ktl.torn,
    last := s.ktl.last }

/-- What claims, ties, proofs, confirms and the walk leave alone besides: the attempt on the line and the line's
timers, the sources, the channels and the Attention Set. -/
structure Still where
  fixed : Fixed
  line : LineState
  inFlight : Option InFlight
  orphan : Option Nat
  gapEnds : Nat
  stray : Bool
  frame : List Byte
  urgentRun : Nat
  yieldDue : Bool
  yieldEnds : Option Nat
  reclaim : Reclaim
  faultEnds : Option Nat
  sources : Vector Source 18
  chans : Vector ChanState 4
  captures : Vector Capture 2
  attention : List Handle
  hold : Bool
deriving DecidableEq, Repr

def State.still (s : State) : Still :=
  { fixed := s.fixed, line := s.tdl.line, inFlight := s.tdl.inFlight, orphan := s.tdl.orphan, gapEnds := s.tdl.gapEnds,
    stray := s.tdl.stray, frame := s.tdl.frame, urgentRun := s.tdl.urgentRun, yieldDue := s.tdl.yieldDue,
    yieldEnds := s.tdl.yieldEnds, reclaim := s.tdl.reclaim, faultEnds := s.tdl.faultEnds, sources := s.drt.sources,
    chans := s.frt.chans, captures := s.frt.captures, attention := s.fdir.attention, hold := s.ntab.hold }

/-- The host is answered with a result code and no data (R195, R214). -/
def State.answer (s : State) (code : Byte) : State := s.setResponse [code] .none

/-- A command taken with OK and no data: `s` is the part after the command's own effect. -/
def State.taken (s : State) : State := (s.finish true).answer 0

/-- A write command taken with ACCEPTED (R183): `s` is the part with the write placed. -/
def State.accepted (s : State) : State := (s.finish true).answer 1

/-- A flag that is set stays set. -/
def State.flagsKept (s t : State) : Prop := s.hcp.flags &&& t.hcp.flags = s.hcp.flags

/-- ATTN and TURN_FAIL stand at the levels R206 and R148 give. -/
def State.pinsFollow (s : State) : Bool :=
  s.hcp.attnLow == s.attnWanted && s.frt.turnFail == (s.turnFailWanted && !s.hcp.inReset)

/-- What holds before and after every step: the pins follow their causes, and nothing is left over inside an event. -/
def State.wellKept (s : State) : Bool := s.pinsFollow && s.agenda == Agenda.none

/-- The engine has no entry to PROBE and no departure left over from an event (R48, R83): it is so whenever no request
of its own waits to be dropped and no departure waits for a recatalogue's Describe. -/
def State.engineQuiet (s : State) : Prop := s.bue.dropping = false ∧ s.bue.deferred = .none

/-- The registers of the port hold what their rules allow: no reserved bit of the flags (R203) or of the mask (R205), and
every setting within its range (R207). -/
def State.portOk (s : State) : Bool :=
  s.hcp.flags &&& 0xF000 == 0 && s.hcp.mask &&& 0xE000 == 0
    && (List.range 15).all fun n => settingOk n (s.hcp.cfg.values[n]?.getD 0)

/-- A routine request that is not placed at the head of its class (R17, R50, R64). -/
def Request.ordinary (r : Request) : Bool := !(r.isSweepHail || r.isCutRelease || r.isRestartRelease)

/-- The Line Queue holds at most eight urgent requests, at most six of them Drives (R14, R15), at most one Drive for a handle
(R16), and at most twenty-four routine requests, unless all of these but one are sweep Hails and Releases, which are placed
at the head of the class whatever waits there (R17, R64). -/
def Tdl.queueKept (t : Tdl) : Prop :=
  t.urgentOf (fun _ => true) ≤ Config.urgentSize ∧ t.urgentOf Request.isDrive ≤ Config.urgentDrives
  ∧ (∀ h : Handle, t.urgentOf (Request.isDriveFor h) + t.routineOf (Request.isDriveFor h) ≤ 1)
  ∧ (t.routineOf (fun _ => true) ≤ Config.routineSize ∨ t.routineOf Request.ordinary ≤ 1)

/-- The pending-drive set holds one entry a handle (R126). -/
def State.pendKept (s : State) : Prop := (s.drt.pend.map (·.handle)).Nodup

/-- Node entries hold distinct addresses, and there are at most twelve (R52). -/
def Ntab.nodesKept (n : Ntab) : Prop := (n.nodes.map (·.address)).Nodup ∧ n.nodes.length ≤ Config.nodeLimit

/-- The Attention Set holds no handle twice, and none of a FREE slot (R89). -/
def State.attentionKept (s : State) : Prop :=
  s.fdir.attention.Nodup ∧ ∀ h ∈ s.fdir.attention, (s.record h).isSome = true

/-- The stored list: no two entries hold the same identity, nor will they when the write in flight ends (R176, R186); the
entries are what the memory holds, and during the scan none is taken and no write is in flight (R178, R179). -/
def Ktl.kept (k : Ktl) : Prop :=
  (∀ i j : Fin 16, i ≠ j → k.cells[i].taken.state ≠ .empty → k.cells[j].taken.state ≠ .empty →
    k.cells[i].taken.identity ≠ k.cells[j].taken.identity)
  ∧ (k.scanning = false → k.entries = k.cells.map KtlCell.taken)
  ∧ (k.scanning = true → k.write = none ∧ ∀ i : Fin 16, k.entries[i].state = .empty)
  ∧ ∀ w, k.write = some w → w.content = KtlEntry.blank ∨ w.content.state ≠ .empty ∧ w.kind ≠ .eraseList
      ∧ ∀ j : Fin 16, j ≠ w.target → k.entries[j].state ≠ .empty → k.entries[j].identity ≠ w.content.identity

/-- The limits that every step keeps: no source list holds more than sixteen handles (R120), no more than four of the
scheduler's own Samples are counted (R162), and the Line Queue, the pending-drive set, the Node Table, the Attention Set and
the stored list are as their rules have them. -/
def State.withinLimits (s : State) : Prop :=
  s.csch.own ≤ Config.ownLimit ∧ (∀ x : Src, (s.list x).length ≤ Config.listSize)
  ∧ s.tdl.queueKept ∧ s.pendKept ∧ s.ntab.nodesKept ∧ s.attentionKept ∧ s.ktl.kept

/-- `u` is `s` at a moment `n` at which the line has yielded while the attempt `f` was undecided: the request is interrupted
and back at the head of its class, LINE_YIELD is set, and the yield limit runs (R19, R22). -/
def State.yieldedFrom (s u : State) (f : InFlight) (n : Nat) : Prop :=
  u.tdl.line = .yielded ∧ u.tdl.inFlight = none ∧ u.tdl.yieldDue = false
  ∧ u.tdl.yieldEnds = some (n + ms s.hcp.cfg.yieldLimit) ∧ u.hcp.flags.getLsbD 7 = true
  ∧ u.fixed = { s.fixed with now := n }
  ∧ (f.urgent = true → u.tdl.urgent.head? = some f.req) ∧ (f.urgent = false → u.tdl.routine.head? = some f.req)

/-- `t` is `s` after a grant of `r` by the arbiter: the line is BUSY with the first attempt of `r`, and the classes hold what
is left (R18). -/
def State.granted (s t : State) (r : Request) (urgent : Bool) (us rs : List Request) (count : Nat) : Prop :=
  t.tdl.line = .busy ∧ t.tdl.urgent = us ∧ t.tdl.routine = rs ∧ t.tdl.urgentRun = count ∧ t.still.fixed = s.still.fixed
  ∧ ∃ f, t.tdl.inFlight = some f ∧ f.req = r ∧ f.urgent = urgent ∧ f.second = false

/-- `l` is the pending-drive set of `s` once the output `w` has been asked for, for the record `r` of the handle `h`. Nothing
is entered for a withheld record (R128); that nothing is removed for it either is the model's inference (log entry 8). For any
other, an output equal to the last placed one has the record's entry removed (R125), and another output is entered, urgent when
the record stands on a list; an entry that it holds keeps its time and place (R126). -/
def State.pendAsked (s : State) (h : Handle) (r : Record) (w : OutWord) (l : List Pend) : Prop :=
  (s.withheld h r = true ∨ r.drive = none → l = s.drt.pend)
  ∧ ∀ d, s.withheld h r = false → r.drive = some d →
    (d.lastPlaced = some w → l = s.drt.pend.filter fun p => !(p.handle == h))
    ∧ (d.lastPlaced ≠ some w → s.pendHolds h = true →
        l = s.drt.pend.map fun p => if p.handle = h then { p with word := w, urgent := r.tie.isSome } else p)
    ∧ (d.lastPlaced ≠ some w → s.pendHolds h = false →
        l = s.drt.pend ++ [{ handle := h, gen := (s.slot h).gen, word := w, time := s.now, urgent := r.tie.isSome }])

/-- `u` is `s` once the live record `r` of the handle `h` has been retired, whatever the cause (R84): the handle is off the list of
its source, out of the pending-drive set and off the Proving List, the others keeping their order; a proof on the record is
DRAINING while its request stands, and EMPTY otherwise (R111); the confirm entry is gone; and a guard that the record held is
free, in IDLE, with its slot empty, its timers stopped and its first times (R157). -/
def State.recordEnded (s u : State) (h : Handle) (r : Record) : Prop :=
  (∀ x : Src, u.list x = if r.tie = some x then (s.list x).filter (fun k => !(k == h)) else s.list x)
  ∧ u.drt.pend = s.drt.pend.filter (fun p => !(p.handle == h))
  ∧ u.prv.list = s.prv.list.filter (fun k => !(k == h))
  ∧ (∀ p, s.prv.proof = some p → p.handle = h → p.stage ≠ .draining →
      u.prv.proof = if p.placed then some { p with stage := .draining } else none)
  ∧ ((∀ p, s.prv.proof = some p → p.handle ≠ h ∨ p.stage = .draining) → u.prv.proof = s.prv.proof)
  ∧ (u.slot h).confirm = none
  ∧ ∀ g : Fin 6, u.guard g = if r.guard = some g
      then { owner := none, state := .idle, dead := 300, limit := 30, runTimer := none, deadTimer := none,
             awaiting := false, slot := none }
      else s.guard g

/-- `t` is `s` once the record of the handle `h`, with the contents `r`, has entered the usable states (R160): its confirm
entry's deadline is one interval ahead, or stands still with the whole of it while the line does not run (R161), its marks are
clear, and the mark of a Sample of an older entry is kept, with what it is to be discarded by (R163, R166). -/
def State.confirmCreated (s t : State) (h : Handle) (r : Record) : Prop :=
  (t.slot h).confirm = some {
    deadline := if s.lineRuns then .running (s.now + ms (r.interval.getD 0)) else .held (ms (r.interval.getD 0)),
    phaseWait := false, mismatch := false }
  ∧ (t.slot h).sampleMark = (s.slot h).sampleMark ∧ (t.slot h).sampleVoid = (s.slot h).sampleVoid

/-- `t` is `s` once the catalogue of the node at the position `p` has been read (R42): CHAIN_CHANGE is set when the settled-once
mark stands; every PROVISIONAL record of the node that is no LAMP has taken the catalogue read claim (R75), with its confirm
entry created (R160) and its handle among the joins (R89); and the slot of any other live record is left as it was. -/
def State.catalogueRead (s t : State) (p : Nat) : Prop :=
  t.hcp.flags.getLsbD 3 = (s.hcp.flags.getLsbD 3 || s.bue.settledOnce)
  ∧ ∀ (h : Handle) (r : Record), s.live h = some r →
    (r.position = p → r.state = .provisional → r.cls ≠ .lamp →
      t.record h = some { r with state := if r.tie.isSome then .bound else .ready, binding := r.tie, intended := none }
      ∧ s.confirmCreated t h r ∧ h ∈ t.agenda.joins)
    ∧ (r.position ≠ p ∨ r.state ≠ .provisional ∨ r.cls = .lamp → t.slot h = s.slot h)

/-- `t` is `s` with its clocks standing still, each with what it had reached or what was left of it: the last-heard clocks, the
presence tick, the frontier timer and the confirm deadlines (R46, R57, R58, R161). -/
def State.stoodStill (s t : State) : Prop :=
  let still : Countdown → Countdown := fun c => match c with
    | .running e => .held (e - s.now)
    | .held l => .held l
    | .stopped => .stopped
  t.now = s.now
  ∧ t.ntab = { s.ntab with
      tick := still s.ntab.tick,
      nodes := s.ntab.nodes.map fun n => { n with heard := match n.heard with
        | .still v => .still v
        | .counting v a => .still (v + (s.now - a)) } }
  ∧ t.bue = { s.bue with frontier := still s.bue.frontier }
  ∧ ∀ h : Handle, t.slot h = { s.slot h with
      confirm := (s.slot h).confirm.map fun c => { c with deadline := still c.deadline } }

/-- `t` is `s` with its clocks running on from where they stood (R46, R57, R58, R161); a presence tick that was stopped begins,
and the last-heard clocks of entries that a link restart holds stand still (R50). -/
def State.runsOn (s t : State) : Prop :=
  let on : Countdown → Countdown := fun c => match c with
    | .running e => .running e
    | .held l => .running (s.now + l)
    | .stopped => .stopped
  t.now = s.now
  ∧ t.ntab = { s.ntab with
      tick := if s.ntab.tick = .stopped then .running (s.now + ms 10) else on s.ntab.tick,
      nodes := if s.ntab.hold then s.ntab.nodes else s.ntab.nodes.map fun n => { n with heard := match n.heard with
        | .still v => .counting v s.now
        | .counting v a => .counting v a } }
  ∧ t.bue = { s.bue with frontier := on s.bue.frontier }
  ∧ ∀ h : Handle, t.slot h = { s.slot h with
      confirm := (s.slot h).confirm.map fun c => { c with deadline := on c.deadline } }

/-- `t` is `s` at the end of its chain for the reason `x` (R44, R45). The highest unit is matched unless it has been, at once or
when the stored list is free to answer, and the engine settles; nothing is placed in the Line Queue. -/
def State.chainEnded (s t : State) (x : ChainEnd) : Prop :=
  let settled : Prop := t.bue.state = .settled ∧ t.bue.chainEnd = x ∧ t.bue.settledOnce = true
    ∧ t.hcp.flags.getLsbD 2 = true ∧ t.bue.frontier = if x ≠ .ended then .stopped
      else if s.lineRuns then .running (s.now + ms 500) else .held (ms 500)
  t.tdl = s.tdl
  ∧ ((∀ u, s.bue.units.getLast? = some u → u.outcome ≠ .none) → settled ∧ t.bue.units = s.bue.units)
  ∧ ∀ u, s.bue.units.getLast? = some u → u.outcome = .none →
    let m : MatchReq := { unit := s.bue.units.length, first := u.first, identity := s.unitIdentity u, digest := u.digest,
                          nodeCount := u.nodeCount }
    (s.nvBusy = true → t.bue.state = .matching ∧ t.bue.errand = .thenSettle x ∧ t.ktl.waiting = some m)
    ∧ (s.nvBusy = false → settled ∧ t.bue.units = s.bue.units.modify (s.bue.units.length - 1) fun v =>
        { v with outcome := (s.answerMatch m).2 })

/-- `t` is what a teardown or a link restart of `s` leaves of the blocks behind the line (R49, R50, R66, R134): the Proving
List, the proof slot, the source lists, the pending-drive set and the confirm entries are empty, every guard is free and IDLE,
no record is live, no recatalogue stands and no match waits, and the engine is IDLE with the values of R31, its held addresses
among them. The demand inputs, the sources with their activities, the channels and the running generators are kept. -/
def State.trailerCleared (s t : State) : Prop :=
  t.prv.list = [] ∧ t.prv.proof = none ∧ t.drt.pend = [] ∧ (∀ x : Src, t.list x = [])
  ∧ (∀ g : Fin 6, t.guard g = {
      owner := none, state := .idle, dead := 300, limit := 30, runTimer := none, deadTimer := none, awaiting := false,
      slot := none })
  ∧ (∀ h : Handle, t.live h = none ∧ (t.slot h).confirm = none)
  ∧ t.fdir.recat = none ∧ t.ktl.waiting = none
  ∧ t.bue.state = .idle ∧ t.bue.units = [] ∧ t.bue.chainEnd = .none ∧ t.bue.halt = .none ∧ t.bue.tries = 0
  ∧ t.bue.lastProbe = none ∧ t.bue.held = [] ∧ t.bue.frontier = .stopped ∧ t.bue.settledOnce = false
  ∧ t.bue.request = .none
  ∧ t.drt.inputs = s.drt.inputs ∧ t.drt.sources = s.drt.sources ∧ t.frt.chans = s.frt.chans
  ∧ ∀ g : Generator, (t.gen g).run = (s.gen g).run

/-- `t` is what a teardown of `s` leaves of the trailer's side (R49, R66, R67): the line DOWN with its queue empty, no node
entry, the presence tick stopped, the other blocks cleared, and every record that was live RETIRED with the teardown's reason
and in the Attention Set. -/
def State.tornDown (s t : State) (x : RetireReason) : Prop :=
  t.tdl.line = .down ∧ t.tdl.urgent = [] ∧ t.tdl.routine = [] ∧ t.tdl.inFlight = none ∧ t.ntab.nodes = []
  ∧ t.ntab.tick = .stopped ∧ s.trailerCleared t
  ∧ ∀ h : Handle, (s.live h).isSome = true → h ∈ t.fdir.attention ∧ ∃ r, t.record h = some r ∧ r.reason = some x

/-- `t` is `s` in a device reset that has just begun (R210, R211): every volatile state has its device reset value, the
pins' levels stay, a transaction in progress is ended, and a write in flight has torn the one entry it was
writing (R191). -/
def State.cleared (s t : State) : Prop :=
  t = { State.reset with now := t.now, pending := s.pending, free := t.free, ktl := t.ktl, hcp := t.hcp }
  ∧ t.ktl = Ktl.reset t.ktl.cells ∧ t.hcp.inReset = true
  ∧ { t.hcp with nvlock := false, vddLow := false, resetLow := none, inReset := false, resetEnds := 0, spi := .high }
    = Hcp.reset
  ∧ t.hcp.nvlock = s.hcp.nvlock ∧ t.hcp.resetLow = s.hcp.resetLow ∧ t.hcp.resetEnds = t.now + ms 1
  ∧ t.hcp.spi = (if s.hcp.spi = .high then .high else .unframed)
  ∧ (s.ktl.write = none → t.ktl.cells = s.ktl.cells)
  ∧ ∀ w, s.ktl.write = some w → w.kind ≠ .eraseList → t.ktl.cells = s.ktl.cells.set w.target w.content.tornCell

end Sys2Proof.Machine

namespace Sys2Proof

/-- A transaction of the host, or an image of its stream. -/
def Instr.ofHost : Instr → Bool
  | .readStatus | .ackEvents _ | .setEventMask _ | .configure _ _ | .readConfig | .startBringUp | .restartLink
  | .lookup .. | .fetchRecord _ | .fetchNode _ | .takeChanges | .bind .. | .unbind .. | .setParameter .. | .drive ..
  | .setDemand .. | .prove .. | .retire .. | .forget .. | .recatalogue _ | .writeEnable | .writeDisable
  | .rememberUnit _ | .eraseEntry _ | .pinEntry _ | .unpinEntry _ | .eraseList | .ktlRead _ | .unknownCommand _
  | .incompleteTransaction _ | .streamImage => true
  | _ => false

/-- An event of the RESET input or of a device reset. -/
def Instr.ofReset : Instr → Bool
  | .resetFall | .resetRise | .deviceReset | .supplyReset | .deviceResetEnd => true
  | _ => false

/-- A command that brings about a device reset. -/
def Instr.resets : Instr → Bool
  | .deviceReset | .supplyReset => true
  | _ => false

/-- A command that sets or clears the write-enable latch (R182, R183, R190). -/
def Instr.touchesLatch : Instr → Bool
  | .writeEnable | .writeDisable | .rememberUnit _ | .eraseEntry _ | .pinEntry _ | .unpinEntry _ | .eraseList
  | .ktlWriteEnd _ => true
  | _ => false

end Sys2Proof
end

