-- ==== Sys2Proof/Certificates/Slice0/Obligations.lean ====
section
/-! DEFINITION. The statements for the provers. R<n> are the rules of spec/; a statement about a host command holds while
the port answers (R210), one about an event while no device reset lasts (R210). -/

open Sys2Proof Sys2Proof.Machine Host

/-! ### Steps -/

/-- A step takes the command at the front of the queue and runs it on the state with the queue's rest. -/
def Obligations.StepRunsFrontCommand : Prop :=
  ∀ (c : Instr) (rest : List Instr) (s : State),
    step { s with pending := c :: rest } = exec c { s with pending := rest }

/-- On an empty queue the clock moves on by 0.1 ms and nothing else changes; the timer events whose moment has then come
wait in the queue, and they alone. All of it is the model's choice (log entry 1); that a device reset after a fall of VDD
is not ended by the clock is log entry 29. -/
def Obligations.EmptyQueueMovesTheClock : Prop :=
  ∀ s : State, s.pending = [] → ∃ t : State, step s = .next t ∧ t = { s with now := s.now + 1, pending := t.pending }
    ∧ ∀ c : Instr, c ∈ t.pending ↔
      let n := s.now + 1
      match c with
      | .settleTimerExpiry => ∃ e ≤ n, s.cmon.settle = some e
      | .partTimerExpiry => ∃ e ≤ n, s.cmon.part = some e
      | .faultTimerExpiry => ∃ e ≤ n, s.tdl.faultEnds = some e
      | .yieldLimitExpiry => ∃ e ≤ n, s.tdl.yieldEnds = some e
      | .reclaimMarkEnd => ∃ e ≤ n, s.tdl.reclaim = .mark e
      | .reclaimTimeout => ∃ m, s.tdl.reclaim = .watch m ∧ m + ms 20 ≤ n
      | .frameEnd => ∃ e ≤ n, s.tdl.orphan = some e
          ∨ s.tdl.orphan = none ∧ ∃ f, s.tdl.inFlight = some f ∧ f.stage = .sending e
      | .replyWindowEnd => ∃ e ≤ n, ∃ f a b, s.tdl.inFlight = some f ∧ f.stage = .window a b e
      | .gapEnd => s.tdl.line = .busy ∧ s.tdl.orphan = none ∧ (∀ f, s.tdl.inFlight = some f → f.stage = .due)
          ∧ s.tdl.gapEnds ≤ n
      | .presenceTick => ∃ e ≤ n, s.ntab.tick = .running e
      | .lastHeardTimeout p => s.ntab.hold = false
          ∧ ∃ x b a, s.nodeAt (p.val + 1) = some x ∧ x.heard = .counting b a ∧ a + (ms 1000 - b) ≤ n
      | .addressHoldExpiry a => ∃ e ≤ n, (a, e) ∈ s.bue.held
      | .frontierTimerExpiry => ∃ e ≤ n, s.bue.frontier = .running e
      | .followStretchEnd x => s.followMode x = true ∧ (s.source x.src).active = true
          ∧ ∃ r, (s.capture x).lastRise = some r ∧ r + ms 1500 ≤ n
      | .phaseEnd g => ∃ r, (s.gen g).run = some r ∧ r.ends ≤ n
      | .deadTimerExpiry g => ∃ e ≤ n, (s.guard g).deadTimer = some e
      | .runLimitExpiry g => ∃ e ≤ n, (s.guard g).runTimer = some e
      | .confirmDeadline h => ∃ x, (s.slot h).confirm = some x ∧ x.deadline = .running n
      | .deviceReset => s.hcp.inReset = false ∧ ∃ a, s.hcp.resetLow = some a ∧ a + ms 1 ≤ n
      | .deviceResetEnd => s.hcp.inReset = true ∧ s.hcp.resetLow = none ∧ s.hcp.vddLow = false ∧ s.hcp.resetEnds ≤ n
      | _ => False

/-! ### Device reset -/

/-- The device reset values that the rules of 01 to 10 give (R1, R7, R9, R14, R18, R21, R26, R31, R58, R67, R68, R82, R89,
R97, R98, R114, R115, R120, R134, R135, R143, R148, R149, R159, R176, R203, R205 to R207). That no retire Drive is
outstanding and no Sample mark set in a FREE slot (R87, R159), that the line-lost mark is clear (R30), and that no mark is
owed (R139) are read from these by inference. -/
def Obligations.ResetValues : Prop :=
  let s := State.reset
  (s.cmon.state = .uncoupled ∧ s.cmon.sense = false ∧ s.cmon.settle = none ∧ s.cmon.part = none ∧ s.cmon.lineLost = false)
  ∧ (s.tdl.line = .down ∧ s.tdl.linePresent = false ∧ s.tdl.urgent = [] ∧ s.tdl.routine = [] ∧ s.tdl.inFlight = none
    ∧ s.tdl.urgentRun = 0 ∧ (∀ a : Addr, s.tdl.nextBit[a] = false) ∧ ∀ unit, s.autoWindow unit = 4)
  ∧ (s.bue.state = .idle ∧ s.bue.units = [] ∧ s.bue.chainEnd = .none ∧ s.bue.held = [] ∧ s.bue.settledOnce = false
    ∧ s.bue.halt = .none ∧ s.bue.tries = 0 ∧ s.bue.lastProbe = none ∧ s.bue.frontier = .stopped)
  ∧ (s.ntab.nodes = [] ∧ s.ntab.tick = .stopped)
  ∧ ((∀ h : Handle, s.slot h = {
      gen := 0, record := none, retireDrive := .none, confirm := none, sampleMark := .clear, sampleVoid := false })
    ∧ s.fdir.attention = [] ∧ s.fdir.recat = none)
  ∧ (s.prv.list = [] ∧ s.prv.proof = none)
  ∧ ((∀ x : Src, (s.source x).active = false ∧ s.list x = []
      ∧ (s.source x).form = if x = 3 then .flashing .flL else if x = 4 then .flashing .flR
          else if x = 9 then .flashing .flB else if x = 17 then .flashing .flV else .steady) ∧ s.drt.pend = [])
  ∧ ((∀ c : Chan, s.chan c = .stopped) ∧ (∀ g : Generator, s.gen g = { run := none, cycle := 666, owed := none })
    ∧ ∀ x : TurnSide, s.frt.followOwed[x.number] = none)
  ∧ (∀ g : Fin 6, s.guard g = {
      owner := none, state := .idle, dead := 300, limit := 30, runTimer := none, deadTimer := none, awaiting := false,
      slot := none })
  ∧ ((∀ x : TurnSide, s.followMode x = false ∧ s.turnInput x = false
      ∧ s.capture x = { lastRise := none, lastFall := none, bad := 0, steady := false }) ∧ s.frt.turnFail = false)
  ∧ s.csch.own = 0
  ∧ (s.ktl.scanning = true ∧ s.ktl.write = none ∧ s.ktl.wel = false ∧ s.ktl.last = .none ∧ s.ktl.waiting = none)
  ∧ (s.hcp.flags = 0 ∧ s.hcp.mask = 0x1FFF ∧ s.hcp.attnLow = false)
  ∧ s.hcp.cfg.values = [1, 1, 0, 0, 666, 6, 300, 1000, 2000, 500, 1000, 0, 4, 4, 4]

/-- The three invariants hold of the state after a device reset: the pins follow their causes and nothing is left over
inside an event; the port's registers are legal; and the limits of R14, R15, R16, R52, R89, R120, R126, R162 and R176 are
kept. -/
def Obligations.InvariantsAtReset : Prop :=
  State.reset.wellKept = true ∧ State.reset.portOk = true ∧ State.reset.withinLimits

/-! ### Invariants of a step -/

/-- ATTN and TURN_FAIL follow their causes in every event, and no event leaves anything undone (R148, R206). -/
def Obligations.PinsFollowEveryStep : Prop :=
  ∀ s t : State, s.wellKept = true → step s = .next t → t.wellKept = true

/-- No step sets a reserved bit of the flags or of the event mask, or a setting outside its range (R203, R205, R207). -/
def Obligations.PortRegistersStayLegal : Prop :=
  ∀ s t : State, s.portOk = true → step s = .next t → t.portOk = true

/-- Every step keeps the limits. No source list holds more than sixteen handles (R120), and no more than four of the Confirm
Scheduler's own Samples are counted (R162). The urgent class holds at most eight requests, six of them Drives, and at most
twenty-four routine requests wait or are in flight, unless all of these but one are sweep Hails and Releases placed at the
head (R14, R15, R17, R64); no handle has two Drives (R16). The pending-drive set holds one entry a handle (R126), node
entries distinct addresses, twelve at most (R52), the Attention Set no handle twice and none of a FREE slot (R89), and the
stored list no identity twice (R176). -/
def Obligations.LimitsStayKept : Prop :=
  ∀ s t : State, s.withinLimits → step s = .next t → t.withinLimits

/-! ### What a command leaves alone -/

/-- Only CONFIGURE changes a setting (R207) and only SET EVENT MASK the mask (R205), a device reset apart. That nothing
changes NVLOCK, a pin of the outside, is the model's choice (log entry 12). -/
def Obligations.SettingsChangeByTheirCommands : Prop :=
  ∀ (c : Instr) (s t : State), exec c s = .next t →
    t.hcp.nvlock = s.hcp.nvlock
    ∧ (c.resets = false → (∀ n v, c ≠ .configure n v) → t.hcp.cfg = s.hcp.cfg)
    ∧ (c.resets = false → (∀ m, c ≠ .setEventMask m) → t.hcp.mask = s.hcp.mask)

/-- A flag that is set stays set until ACK EVENTS clears it, a device reset apart (R203). -/
def Obligations.FlagsClearedByAckAlone : Prop :=
  ∀ (c : Instr) (s t : State), exec c s = .next t → c.resets = false → (∀ m, c ≠ .ackEvents m) → s.flagsKept t

/-- The Coupling Monitor changes by the events of its inputs and timers and by a line loss alone, and a link restart
leaves it as it is (R26); LINE_PRESENT changes by its own events; the demand inputs and the turn input modes in force
change at the inputs' edges alone (R115). A device reset apart. -/
def Obligations.MonitorAndInputsChangeByTheirEvents : Prop :=
  ∀ (c : Instr) (s t : State), exec c s = .next t → c.resets = false →
    (c ∉ [.coupleSenseAsserted, .coupleSenseWithdrawn, .linePresentAsserted, .linePresentWithdrawn, .settleTimerExpiry,
      .partTimerExpiry, .faultTimerExpiry] → t.cmon = s.cmon)
    ∧ (c ∉ [.linePresentAsserted, .linePresentWithdrawn] → t.tdl.linePresent = s.tdl.linePresent)
    ∧ ((∀ i b, c ≠ .demandInputChange i b) → t.drt.inputs = s.drt.inputs ∧ t.frt.modes = s.frt.modes)

/-- No next bit changes but by a complete reply (R7), a device reset apart. -/
def Obligations.SequenceBitsChangeByReplies : Prop :=
  ∀ (c : Instr) (s t : State), exec c s = .next t → c.resets = false → (∀ f, c ≠ .replyComplete f) →
    t.tdl.nextBit = s.tdl.nextBit

/-- The stored list's entries change at the end of a write and at the end of the scan alone (R176, R178), a device reset
apart. That the memory's cells, too, change no sooner than a write's end is the model's choice (log entries 15 and 33). -/
def Obligations.StoredListChangesByWrites : Prop :=
  ∀ (c : Instr) (s t : State), exec c s = .next t → c.resets = false → (∀ b, c ≠ .ktlWriteEnd b) →
    t.ktl.cells = s.ktl.cells ∧ (c ≠ .ktlScanEnd → t.ktl.entries = s.ktl.entries ∧ t.ktl.torn = s.ktl.torn)

/-- Only FORGET frees a slot (R68, R88), only a reply gives a slot a new generation (R77), and a RETIRED record keeps its
contents until FORGET (R84), a device reset apart. -/
def Obligations.RecordsLeaveByForget : Prop :=
  ∀ (c : Instr) (s t : State), exec c s = .next t → c.resets = false → ∀ h : Handle,
    ((∀ a b, c ≠ .forget a b) → (s.record h).isSome = true → (t.record h).isSome = true)
    ∧ ((∀ f, c ≠ .replyComplete f) → (t.slot h).gen = (s.slot h).gen)
    ∧ ((∀ a b, c ≠ .forget a b) → ∀ r, s.record h = some r → r.state = .retired → t.record h = some r)

/-- While RESET is low and during a device reset the port answers nothing (R210). During a device reset no event of the
trailer, the inputs or the timers changes anything: R210 names the port, the line, the demand inputs and TURN_FAIL, and
the rest is the model's inference (log entry 11). Only the RESET input and the end of the reset are left. -/
def Obligations.ResetSilencesThePart : Prop :=
  ∀ (c : Instr) (s : State), c.ofReset = false →
    (c.ofHost = true → s.portSilent = true → exec c s = .next s)
    ∧ (c.ofHost = false → s.hcp.inReset = true → exec c s = .next s)

/-! ### The port's own commands -/

/-- Every command is answered with a next state, whatever the state of the part. -/
def Obligations.EveryCommandCompletes : Prop := ∀ (c : Instr) (s : State), ∃ t : State, exec c s = .next t

/-- READ STATUS answers OK and the status word of R202 in the layout of R214, and changes nothing. -/
def Obligations.ReadStatusAnswersStatusWord : Prop :=
  ∀ s : State, s.portSilent = false →
    exec .readStatus s = .next (s.setResponse
      ([0, byte s.cmon.state.code, byte s.bue.state.code,
        byte (16 * s.bue.chainEnd.code + if s.bue.state = .halted then s.bue.halt.code else 0),
        byte s.tdl.line.code, byte (16 * s.bue.units.length + s.ntab.nodes.length),
        byte (s.countRecords fun r => r.isNone), byte (s.countRecords fun r => r.any fun x => x.state.usable),
        byte (s.countRecords fun r => r.any fun x => x.state == .retired), byte s.fdir.attention.length]
      ++ halfBytes s.hcp.flags
      ++ [byte (bit s.ktl.wel + 2 * bit (s.ktl.scanning || s.ktl.write.isSome) + 4 * s.ktl.last.code),
        byte s.ktl.torn,
        byte (bit ((s.capture .left).steady || (s.capture .right).steady) + 2 * bit s.frt.turnFail)]) .none)

/-- ACK EVENTS clears the flags its mask names and answers the flags as they stood; a mask with a reserved bit is refused
(R204). ATTN follows (R206), and nothing else changes. -/
def Obligations.AckEventsClearsNamedFlags : Prop :=
  ∀ (m : BitVec 16) (s : State), s.portSilent = false → s.pinsFollow = true →
    (m &&& 0xF000 = 0 → exec (.ackEvents m) s = .next { s with hcp := { s.hcp with
        flags := s.hcp.flags &&& ~~~m
        attnLow := decide (s.hcp.flags &&& ~~~m &&& s.hcp.mask &&& 0x0FFF ≠ 0
          ∨ s.fdir.attention ≠ [] ∧ s.hcp.mask.getLsbD 12 = true)
        response := 0 :: halfBytes s.hcp.flags
        stream := .none } })
    ∧ (m &&& 0xF000 ≠ 0 → exec (.ackEvents m) s = .next (s.setResponse [5, 0, 0] .none))

/-- SET EVENT MASK replaces the mask whole and ATTN follows; a mask with a reserved bit is refused. After device reset
every enable is on, READ CONFIG shows the mask, and nothing but the command and a device reset changes it (R205). -/
def Obligations.EventMaskIsReplacedWhole : Prop :=
  (∀ (m : BitVec 16) (s : State), s.portSilent = false → s.pinsFollow = true →
    (m &&& 0xE000 = 0 → exec (.setEventMask m) s = .next { s with hcp := { s.hcp with
        mask := m
        attnLow := decide (s.hcp.flags &&& m &&& 0x0FFF ≠ 0 ∨ s.fdir.attention ≠ [] ∧ m.getLsbD 12 = true)
        response := [0]
        stream := .none } })
    ∧ (m &&& 0xE000 ≠ 0 → exec (.setEventMask m) s = .next (s.answer 5)))
  ∧ State.reset.hcp.mask = 0x1FFF
  ∧ (∀ s : State, s.portSilent = false → ∃ l : List Byte,
      exec .readConfig s = .next (s.setResponse (l ++ halfBytes s.hcp.mask) .none))
  ∧ (∀ (c : Instr) (s t : State), exec c s = .next t → c.resets = false → (∀ m, c ≠ .setEventMask m) →
      t.hcp.mask = s.hcp.mask)

/-- CONFIGURE refuses a number or a value outside the table of R207 with BAD_VALUE. Otherwise it is taken with OK, and
of what nothing on the trailer's side changes only that setting changes. A change of the FL_V source makes the old source
STEADY and the new one FLASHING on FL_V, with their activities kept; the channel starts afresh when the new source is
active, and otherwise stops (R117, R141, R208). -/
def Obligations.ConfigureSetsOneSetting : Prop :=
  (∀ (n : BitVec 8) (v : BitVec 16) (s : State), s.portSilent = false →
    (settingOk n.toNat v.toNat = false → exec (.configure n v) s = .next (s.answer 5))
    ∧ (settingOk n.toNat v.toNat = true → ∃ t : State, exec (.configure n v) s = .next t
        ∧ t.fixed = { s.fixed with cfg := s.hcp.cfg.set n.toNat v.toNat, response := [0], stream := .none }))
  ∧ (∀ n v : Nat, settingOk n v = true ↔
      (n ≤ 3 ∧ v ≤ 1) ∨ (n = 4 ∧ 500 ≤ v ∧ v ≤ 1000) ∨ (n = 5 ∧ 1 ≤ v ∧ v ≤ 6) ∨ (n = 6 ∧ 100 ≤ v ∧ v ≤ 500)
      ∨ (7 ≤ n ∧ n ≤ 10 ∧ 100 ≤ v ∧ v ≤ 5000) ∨ (n = 11 ∧ v ≤ 1) ∨ (12 ≤ n ∧ n ≤ 14 ∧ 2 ≤ v ∧ v ≤ 12))
  ∧ (∀ (c : Settings) (n v m : Nat), settingOk n v = true → m < 15 →
      (c.set n v).values[m]? = if m = n then some v else c.values[m]?)
  ∧ ∀ (v : BitVec 16) (s : State) (o n : Src), s.portSilent = false → 12 ≤ o.val → o.val = s.hcp.cfg.flvSource + 11 →
      12 ≤ n.val → n.val = v.toNat + 11 → o ≠ n → ∃ t : State, exec (.configure 5 v) s = .next t
        ∧ t.source o = { s.source o with form := .steady } ∧ t.source n = { s.source n with form := .flashing .flV }
        ∧ (∀ x, x ≠ o → x ≠ n → t.source x = s.source x) ∧ (∀ c, c ≠ .flV → t.chan c = s.chan c)
        ∧ ((s.source n).active = true → t.chan .flV = .running ∧ (t.gen .virtual).run = some
            { on := true, ends := s.now + ms (s.hcp.cfg.flashPeriod / 2), period := s.hcp.cfg.flashPeriod })
        ∧ ((s.source n).active = false → s.chan .flV = .running →
            t.chan .flV = .stopped ∧ (t.gen .virtual).run = none)

/-- READ CONFIG answers the fifteen settings, the turn input modes in force and the event mask, and changes nothing. A mode
in force takes its setting at the input's next edge, and until then no command but that edge changes it, a device reset
apart (R209). -/
def Obligations.ReadConfigShowsModesInForce : Prop :=
  (∀ s : State, s.portSilent = false →
    exec .readConfig s = .next (s.setResponse
      (0 :: (s.hcp.cfg.values.flatMap natBytes2
        ++ [byte (bit (s.followMode .left) + 2 * bit (s.followMode .right))] ++ halfBytes s.hcp.mask)) .none))
  ∧ (∀ (x : TurnSide) (c : Instr) (s t : State), exec c s = .next t → c.resets = false →
      (∀ b, c ≠ .demandInputChange (match x with
        | .left => 3
        | .right => 4) b) → t.followMode x = s.followMode x)
  ∧ (∀ (x : TurnSide) (b : Bool) (s : State), s.hcp.inReset = false → s.turnInput x = !b →
      ∃ t : State, exec (.demandInputChange (match x with
        | .left => 3
        | .right => 4) b) s = .next t ∧ t.followMode x = s.hcp.cfg.follow x)

/-- An unknown command byte is answered UNKNOWN_COMMAND, alone or with anything after it, and changes nothing; there are
twenty-eight known bytes (R199). An incomplete transaction takes nothing; FRAME_ERROR is set when part of the command byte
or fewer than all the parameters came, and not otherwise (R197). A transaction's first byte is its command byte and the
bytes after it, up to the number that it fixes, the parameters; what follows is ignored (R194, R195, R214). On the pins
(R194): with CS_N high, while the port is silent, and in a transaction that it does not frame, SDO is high-impedance and the
clock is ignored; a transaction begins at a fall of CS_N while the port is not silent, and one that begins while it is
silent is not framed (R210). In mode 0 and in mode 3 SDI is read at the rising edges, most significant bit first, into the
command byte and the parameter bytes, during which SDO shows zeros; the byte that completes the command brings it to the
part (R196). SDO then shows the bytes of the response, most significant bit first, and zeros after them, and SDI is ignored.
A falling edge that begins a stream's next image calls for it (R198). The rise of CS_N ends a stream, and gives an
INCOMPLETE_TRANSACTION where the command has not come (R197). A whole transaction so brings one command. The model's choices
or inferences: that an answer takes the whole response, which a transaction without one clears (log entry 10); that a
command waits behind those that came before (log entry 35); and that a transaction not framed leaves SDO high-impedance, and
a clock edge without a bit counts as part of a byte (log entry 52). -/
def Obligations.UnknownAndIncompleteTakeNothing : Prop :=
  let complete (bytes : List Byte) : Bool := match bytes with
    | [] => false
    | c :: rest => match parameterCount c with
      | none => true
      | some n => decide (n ≤ rest.length)
  (∀ s : State, s.portSilent = false →
    (∀ b, exec (.unknownCommand b) s = .next (s.answer 11)
      ∧ exec (.incompleteTransaction (.unknown b)) s = .next (s.answer 11))
    ∧ exec (.incompleteTransaction .noClock) s = .next (s.setResponse [] .none)
    ∧ ∀ how, how = .partCommand ∨ (∃ b n, how = .missingParameters b n) →
        exec (.incompleteTransaction how) s = .next ((s.raise .frameError).drivePins.setResponse [] .none)
        ∧ (s.raise .frameError).hcp.flags = s.hcp.flags ||| 0x0800)
  ∧ ((List.range 256).filter fun n => (parameterCount (BitVec.ofNat 8 n)).isSome).length = 28
  ∧ (∀ (c : Instr) (bytes extra : List Byte) (k : Nat), c.hostBytes = some bytes →
      Transaction.command { bytes := bytes ++ extra, partClocks := k } = c)
  ∧ (∀ (b : Byte) (rest : List Byte) (k n : Nat), parameterCount b = some n →
      (rest.length = n → ∃ c : Instr, c.hostBytes = some (b :: rest))
      ∧ (rest.length < n → Transaction.command { bytes := b :: rest, partClocks := k }
          = .incompleteTransaction (.missingParameters b rest.length)))
  ∧ (∀ (b : Byte) (rest : List Byte) (k : Nat), parameterCount b = none →
      Transaction.command { bytes := b :: rest, partClocks := k } = .unknownCommand b)
  ∧ (∀ k : Nat, Transaction.command { bytes := [], partClocks := k }
      = .incompleteTransaction (if k = 0 then .noClock else .partCommand))
  ∧ (∀ s : State, s.portSilent = true ∨ s.hcp.spi = .high ∨ s.hcp.spi = .unframed →
      s.sdo = none ∧ s.clockFall = s ∧ ∀ d, s.clockRise d = s)
  ∧ (∀ s : State,
      (s.hcp.spi = .high → s.portSilent = true → s.selectFall = s.setSpi .unframed)
      ∧ (s.hcp.spi = .high → s.portSilent = false → s.selectFall = (s.setResponse [] .none).setSpi
          (.framed { bytes := [], bits := [], clocks := 0, shown := 0, clocked := false }))
      ∧ (s.hcp.spi = .unframed → s.selectRise = s.setSpi .high))
  ∧ (∀ (b : Byte) (k : Nat), k < 8 → (bitsOf b)[k]? = some (b.getLsbD (7 - k)))
  ∧ (∀ (s : State) (f : SpiFrame) (mode3 : Bool) (b : Byte), s.hcp.spi = .framed f → s.portSilent = false →
      (mode3 = false → f.shown = f.clocks) →
      let known : Bool := complete f.bytes
      let clocked : SpiFrame := { f with
        clocks := f.clocks + 8, shown := if mode3 then f.clocks + 7 else f.clocks + 8, clocked := true }
      let t := (s.clockByte mode3 b).1
      let out := (s.clockByte mode3 b).2
      (known = false → f.bits = [] → f.clocks = 8 * f.bytes.length → s.hcp.stream = .none →
        out = List.replicate 8 (some false) ∧ t = ({ s with
          pending := s.pending ++ if complete (f.bytes ++ [b]) then
            [Transaction.command { bytes := f.bytes ++ [b], partClocks := 0 }] else [] } : State).setSpi
              (.framed { clocked with bytes := f.bytes ++ [b] }))
      ∧ (known = true → ∀ j, f.clocks = 8 * (f.bytes.length + j) →
        s.hcp.stream = .none ∨ j + 1 < s.hcp.response.length →
        out = (bitsOf (s.hcp.response[j]?.getD 0)).map some ∧ t = s.setSpi (.framed clocked))
      ∧ (known = true → s.clockFall.pending = s.pending ++
          if s.hcp.stream ≠ .none ∧ f.clocks = 8 * (f.bytes.length + s.hcp.response.length) then [.streamImage] else [])
      ∧ (known = true → s.selectRise = { s with hcp := { s.hcp with spi := .high, stream := .none } })
      ∧ (known = false → s.selectRise = { s with
          pending := s.pending ++ [.incompleteTransaction (match f.bytes with
            | [] => if f.bits = [] ∧ f.clocked = false then .noClock else .partCommand
            | c :: rest => .missingParameters c rest.length)]
          hcp := { s.hcp with spi := .high } }))
  ∧ ∀ (s : State) (x : Transaction), s.hcp.spi = .high → x.partClocks < 8 →
      (s.portSilent = false → s.receive x = { s.setResponse [] .none with pending := s.pending ++ [x.command] })
      ∧ (s.portSilent = true → s.receive x = s)

/-! ### Streams, changes and lookups -/

/-- FETCH RECORD and FETCH NODE answer OK and begin a stream at the start given, or BAD_VALUE; each image of a stream
follows the last, in rising order (R94, R96, R198). After the last one nothing more is kept, the model's choice (log entry
10): SDO shows past the response the bytes of value 0 that R198 sends (UnknownAndIncompleteTakeNothing). The images are laid
out as R95, R96, R213 and R215 give; that the last-heard clock and the reading age, counted in tenths of a millisecond, are
given in whole milliseconds rounded down is the model's choice (log entry 54). -/
def Obligations.StreamsSendRisingImages : Prop :=
  ∀ s : State, s.portSilent = false →
    (∀ b : BitVec 8,
      (1 ≤ b.toNat ∧ b.toNat ≤ 96 → exec (.fetchRecord b) s = .next (s.setResponse [0] (.records (b.toNat - 1))))
      ∧ (¬ (1 ≤ b.toNat ∧ b.toNat ≤ 96) → exec (.fetchRecord b) s = .next (s.answer 5))
      ∧ (1 ≤ b.toNat ∧ b.toNat ≤ 12 → exec (.fetchNode b) s = .next (s.setResponse [0] (.nodes b.toNat)))
      ∧ (¬ (1 ≤ b.toNat ∧ b.toNat ≤ 12) → exec (.fetchNode b) s = .next (s.answer 5)))
    ∧ (∀ h : Handle, s.hcp.stream = .records h.val →
        exec .streamImage s = .next (s.setResponse (s.hcp.response ++ s.recordImage h) (.records (h.val + 1))))
    ∧ (∀ p : Nat, p ≤ 12 → s.hcp.stream = .nodes p →
        exec .streamImage s = .next (s.setResponse (s.hcp.response ++ s.nodeImage p) (.nodes (p + 1))))
    ∧ (s.hcp.stream = .none ∨ (∃ n, 96 ≤ n ∧ s.hcp.stream = .records n) ∨ (∃ p, 12 < p ∧ s.hcp.stream = .nodes p) →
        exec .streamImage s = .next s)
    ∧ (∀ h : Handle, s.record h = none → s.recordImage h =
        [h.code, (s.slot h).gen, if h ∈ s.fdir.attention then 0x80 else 0] ++ List.replicate 10 0
        ++ [0xFF, 0xFF, 0, 0xFF, 0xFF, 0xFF, 0xFF] ++ List.replicate 13 0)
    ∧ (∀ (h : Handle) (r : Record), s.record h = some r → s.recordImage h =
        [h.code, (s.slot h).gen,
          byte ((if h ∈ s.fdir.attention then 128 else 0) + 16 * (match r.before with
            | none => 0
            | some .ready => 3
            | some .bound => 4
            | some .faulted => 5) + r.state.code),
          (r.address.map Addr.code).getD 0, byte r.position, byte r.unit, byte r.index.val] ++ r.entry.bytes
        ++ [byte ((r.binding.map (·.val)).getD 255), byte ((r.intended.map (·.val)).getD 255), byte r.fault.code,
          byte ((r.wanted.map OutWord.code).getD 255), byte ((r.confirmed.map OutWord.code).getD 255),
          byte ((r.motion.map Motion.code).getD 255), byte ((r.guard.map (·.val)).getD 255),
          byte ((r.reason.map RetireReason.code).getD 0)]
        ++ (match r.reading with
          | none => 0 :: natBytes2 (r.interval.getD 0) ++ [0, 0, 0, 0]
          | some x => byte x.threshold.code :: natBytes2 (r.interval.getD 0) ++ halfBytes x.value
              ++ natBytes2 (min 65535 (x.age.value s.now / 10)))
        ++ (if r.cls = .sensor then halfBytes r.lowThreshold ++ halfBytes r.highThreshold else [0, 0, 0, 0])
        ++ [((r.address.bind fun a => s.ntab.nodes.find? fun n => n.address == a).map (·.summary)).getD 0])
    ∧ (∀ p : Nat, s.nodeAt p = none → s.nodeImage p = List.replicate 21 0)
    ∧ ∀ (p : Nat) (n : NodeEntry), s.nodeAt p = some n → s.nodeImage p =
        [byte p, byte n.state.code, n.address.code, byte n.unit, byte (bit n.head + 2 * bit n.gateOpen)]
        ++ identityBytes n.identity ++ [byte n.count, byte n.admitted, byte n.unadmitted, byte n.echo, byte n.failures]
        ++ natBytes2 (min 1000 (n.heard.value s.now / 10)) ++ [n.summary]

/-- TAKE CHANGES takes up to eight handles from the head of the Attention Set and answers their number, their pairs and
the number left (R90). ATTN follows (R206). Handles join the tail at an event's end, in rising order, each of a slot that is
not FREE and none twice, but for an event of a host command (R89). -/
def Obligations.TakeChangesTakesEight : Prop :=
  (∀ s : State,
    let new := (List.finRange 96).filter fun h =>
      decide (h ∈ s.agenda.joins) && !decide (h ∈ s.fdir.attention) && (s.record h).isSome
    s.flushJoins = { s with fdir := { s.fdir with attention := s.fdir.attention ++ new } }
    ∧ s.finish true = ({ s.settleEvent with agenda := Agenda.none } : State).drivePins
    ∧ s.finish false = ({ s.settleEvent.flushJoins with agenda := Agenda.none } : State).drivePins)
  ∧ ∀ s : State, s.portSilent = false → s.pinsFollow = true →
    exec .takeChanges s = .next { s with
      fdir := { s.fdir with attention := s.fdir.attention.drop 8 }
      hcp := { s.hcp with
        attnLow := decide (s.hcp.flags &&& s.hcp.mask &&& 0x0FFF ≠ 0
          ∨ 8 < s.fdir.attention.length ∧ s.hcp.mask.getLsbD 12 = true)
        response := 0 :: byte (min 8 s.fdir.attention.length)
          :: (((s.fdir.attention.take 8).flatMap fun h => [h.code, (s.slot h).gen])
            ++ List.replicate (16 - 2 * min 8 s.fdir.attention.length) 0)
          ++ [byte (s.fdir.attention.length - 8)]
        stream := .none } }

/-- LOOKUP refuses a parameter outside its range (R92). Otherwise the criteria are what the parameters name in the codes of
R213 and R214, FFh standing for any, and it answers the first sixteen matching pairs in rising
order, whether more match, and the next start (R93), and changes nothing. -/
def Obligations.LookupAnswersMatches : Prop :=
  ∀ (cls role side unit mask start : BitVec 8) (s : State), s.portSilent = false →
    (parseLookup cls role side unit mask start = none →
      exec (.lookup cls role side unit mask start) s = .next (s.setResponse (5 :: List.replicate 35 0) .none))
    ∧ (parseLookup cls role side unit mask start = none ↔
        ¬ ((cls = 0xFF ∨ cls.toNat ≤ 3) ∧ (role = 0xFF ∨ role.toNat ≤ 9) ∧ (side = 0xFF ∨ side.toNat ≤ 2)
          ∧ (unit = 0xFF ∨ 1 ≤ unit.toNat ∧ unit.toNat ≤ 3) ∧ mask.toNat < 128
          ∧ 1 ≤ start.toNat ∧ start.toNat ≤ 96))
    ∧ ∀ (c : Criteria) (h : Handle), parseLookup cls role side unit mask start = some (c, h) →
        (h.val + 1 = start.toNat ∧ c.mask = mask
          ∧ (if cls = 0xFF then c.cls = none else ∃ x, c.cls = some x ∧ cls.toNat = match x with
            | .lamp => 0
            | .sensor => 1
            | .actuator => 2
            | .supply => 3)
          ∧ (if role = 0xFF then c.role = none else ∃ x, c.role = some x ∧ role.toNat = match x with
            | .tail => 0
            | .stop => 1
            | .turn => 2
            | .stopTurn => 3
            | .reverse => 4
            | .fog => 5
            | .marker => 6
            | .plate => 7
            | .work => 8
            | .beacon => 9)
          ∧ (if side = 0xFF then c.side = none else ∃ x, c.side = some x ∧ side.toNat = match x with
            | .left => 0
            | .right => 1
            | .centre => 2)
          ∧ c.unit = if unit = 0xFF then none else some unit.toNat)
        ∧ (∀ k, k ∈ s.matching c h ↔ h ≤ k ∧ ∃ r, s.record k = some r ∧ (c.cls = none ∨ c.cls = some r.cls)
          ∧ (c.role = none ∨ c.role = r.entry.role) ∧ (c.side = none ∨ c.side = r.entry.side)
          ∧ (c.unit = none ∨ c.unit = some r.unit) ∧ c.mask.getLsbD (r.state.code - 1) = true)
        ∧ (s.matching c h).Pairwise (fun a b => a < b)
        ∧ exec (.lookup cls role side unit mask start) s = .next (s.setResponse
            (0 :: byte (min 16 (s.matching c h).length)
              :: (((s.matching c h).take 16).flatMap fun k => [k.code, (s.slot k).gen])
              ++ List.replicate (32 - 2 * min 16 (s.matching c h).length) 0
              ++ (match (s.matching c h)[16]? with
                | some k => [1, k.code]
                | none => [0, 0])) .none)

/-! ### Commands that name a record -/

/-- A pair names the record of a handle from 1 to 96 whose slot is not FREE and has that generation. Any other pair is
refused with BAD_HANDLE before any other check, by every command that names a record (R69). -/
def Obligations.PairsThatNameNothingAreRefused : Prop :=
  ∀ (h g : BitVec 8) (s : State),
    (s.named h g = none ↔ ¬ ∃ k : Handle, k.val + 1 = h.toNat ∧ (s.record k).isSome = true ∧ (s.slot k).gen = g)
    ∧ (s.portSilent = false → s.named h g = none → ∀ c : Instr,
        ((∃ x, c = .bind h g x) ∨ c = .unbind h g ∨ (∃ p v, c = .setParameter h g p v) ∨ (∃ w, c = .drive h g w)
          ∨ c = .prove h g ∨ c = .retire h g ∨ c = .forget h g) → exec c s = .next (s.answer 3))

/-- BIND and UNBIND of a named record, with the checks of R121 and R122 in their order. A BIND to the source the record
is tied to changes nothing. -/
def Obligations.BindAndUnbindCheckInOrder : Prop :=
  ∀ (a g : BitVec 8) (s : State) (h : Handle) (r : Record), s.portSilent = false → s.named a g = some (h, r) →
    (∀ x : BitVec 8, exec (.bind a g x) s = .next (match srcOf x with
      | none => s.answer 5
      | some y =>
          if r.state = .retired ∨ (r.cls ≠ .lamp ∧ r.cls ≠ .supply) then s.answer 4
          else if r.tie ≠ some y ∧ 16 ≤ (s.list y).length then s.answer 8
          else if r.tie = some y then s.taken
          else (s.hostTie h (some y)).taken))
    ∧ (∀ x : BitVec 8, srcOf x = none ↔ 18 ≤ x.toNat)
    ∧ exec (.unbind a g) s = .next (
        if r.state = .retired ∨ (r.cls ≠ .lamp ∧ r.cls ≠ .supply) ∨ r.tie = none then s.answer 4
        else (s.hostTie h none).taken)

/-- What a change of tie does (R73, R75, R121 to R124): the record has the new tie, as binding when it is usable and as
intended source before; READY and BOUND follow the binding, in the state and in the state before stale, where BOUND stands
for a record that is tied, and FAULTED stays; the handle leaves the old list and joins the new one. The wanted output is what
the new source asks for, OFF for a LAMP or SUPPLY without a tie, and it is asked for as the pending-drive set takes it (R123,
R125, R126, R128). That the entry of a record withheld for overload is neither entered nor removed there, even where the new
wanted output is the last placed one, is the model's inference (State.pendAsked, log entry 8). -/
def Obligations.TieChangeMovesLists : Prop :=
  ∀ (s : State) (h : Handle) (r : Record) (x : Option Src), s.live h = some r → r.tie ≠ x →
    (∃ r', (s.changeTie h x).record h = some r' ∧ r'.tie = x
      ∧ r'.binding = (if r.state.usable then x else none) ∧ r'.intended = (if r.state.usable then none else x)
      ∧ r'.state = (if r.state = .ready ∨ r.state = .bound then (if x.isSome then .bound else .ready) else r.state)
      ∧ r'.before = (if r.state = .stale ∧ (r.before = some .ready ∨ r.before = some .bound)
          then (if x.isSome then some .bound else some .ready) else r.before)
      ∧ r'.fault = r.fault ∧ r'.entry = r.entry ∧ r'.confirmed = r.confirmed ∧ r'.reading = r.reading
      ∧ r'.drive = r.drive
      ∧ r'.wanted = (match x with
        | some y => some (s.asks y (r.cls == .supply))
        | none => if r.cls = .lamp ∨ r.cls = .supply then some .off else r.wanted)
      ∧ ∀ w, r'.wanted = some w → s.pendAsked h r' w (s.changeTie h x).drt.pend)
    ∧ ∀ y : Src, h ∈ (s.changeTie h x).list y ↔ x = some y ∨ (h ∈ s.list y ∧ r.tie ≠ some y)

/-- SET PARAMETER of a named record: the checks of R174 and R150 in their order, and the effects of R150 and R175. What the
outcome of a Sample of the Confirm Scheduler does (R163, R165 to R173): its mark is cleared, the own count falls and a pass
follows; the deadline is set again unless it is ABANDONED; without its entry, or for an entry made since, nothing else is
done. A failure makes the record STALE and any reply returns it; a status other than OK is a fault. An OK reply is judged of
the record as the return from STALE leaves it (R165). It gives a SENSOR its reading and threshold state, and any other
record its confirmed output, which is judged while the record is drive-settled: outputs that differ are marked, then
faulted, and placed again, and with equal outputs the current of an active function is judged or the fault cleared. The
current is not kept: R166 and R167 call it recorded, no field of a record or an image holds it (R70, R215), and that it
stands only in its judgement is the model's choice (log entry 53). An actuator with a guard keeps the motion the guard gives
it, what is placed again is what the guard last asked for, and a STOP reported for one that is drive-settled ends the STOP
that the guard awaits (R153, R171). -/
def Obligations.SetParameterSetsOneValue : Prop :=
  (∀ (s : State) (h : Handle) (g : Byte) (o : ReqOutcome), let t := s.confirmOutcome h g o
    (t.slot h).sampleMark = .clear ∧ (t.slot h).sampleVoid = false ∧ t.csch.own = s.csch.own - 1
    ∧ t.agenda.pass = true
    ∧ (s.livePair h g = none ∨ (s.slot h).confirm = none ∨ (s.slot h).sampleVoid = true ∨ o = .abandoned →
        (∀ k, t.record k = s.record k) ∧ t.drt = s.drt)
    ∧ ∀ r c, s.livePair h g = some r → (s.slot h).confirm = some c → o ≠ .abandoned → r.state.usable = true →
        ∃ x, (t.slot h).confirm = some x ∧ x.phaseWait = c.phaseWait
          ∧ x.deadline = if s.lineRuns then .running (s.now + ms (r.interval.getD 0)) else .held (ms (r.interval.getD 0)))
  ∧ (∀ (s : State) (h : Handle) (g : Byte) (r : Record) (c : ConfirmEntry), s.livePair h g = some r →
      (s.slot h).confirm = some c → (s.slot h).sampleVoid = false → r.state.usable = true →
      (∀ o, o = .noReply ∨ o = .checkError ∨ o = .collision → (s.confirmOutcome h g o).record h = some (match r.state with
        | .ready => { r with state := .stale, before := some .ready }
        | .bound => { r with state := .stale, before := some .bound }
        | .faulted => { r with state := .stale, before := some .faulted }
        | _ => r))
      ∧ (∀ st pl n b, r.state = .stale → r.before = some b →
          ∃ r', (s.confirmOutcome h g (.replied st pl n)).record h = some r' ∧ r'.before = none
            ∧ (r'.state = .ready ∨ r'.state = .bound ∨ r'.state = .faulted))
      ∧ (∀ st pl n, st ≠ .ok → r.state ≠ .stale ∨ r.before ≠ none →
          let t := s.confirmOutcome h g (.replied st pl n)
          ∃ r', t.record h = some r' ∧ r'.state = .faulted
            ∧ r'.fault = (if st = .fault then (if pl.head? = some 2 then .overload else .open) else .refused)
            ∧ r'.confirmed = r.confirmed ∧ r'.reading = r.reading ∧ ∃ x, (t.slot h).confirm = some x ∧ x.mismatch = false))
  ∧ (∀ (s : State) (h : Handle) (g : Byte) (r0 r : Record) (c : ConfirmEntry) (w q a b : Byte) (n : Nat),
      s.livePair h g = some r0 → (s.slot h).confirm = some c → (s.slot h).sampleVoid = false →
      ((r0.state = .ready ∨ r0.state = .bound ∨ r0.state = .faulted) ∧ r = r0
        ∨ ∃ x : Before, r0.state = .stale ∧ r0.before = some x ∧ r = { r0 with
            before := none
            state := match x with
              | .ready => .ready
              | .bound => .bound
              | .faulted => .faulted }) →
      r.guard = none ∨ r.cls = .actuator →
      let t := s.confirmOutcome h g (.replied .ok [w, q, a, b] n)
      let value : BitVec 16 := a ++ b
      let shown (r' : Record) : Prop := t.record h = some r' ∧ r'.binding = r.binding ∧ r'.wanted = r.wanted
        ∧ r'.before = r.before ∧ (r0.state = .stale → h ∈ t.agenda.joins)
      let cleared (r' : Record) : Prop := r'.state = (if r.state = .faulted then
          (if r.binding.isSome then .bound else .ready) else r.state)
        ∧ r'.fault = if r.entry.reversing = true ∧ r.guard = none then .noGuard else .none
      (r.cls = .sensor → ∃ r', shown r'
        ∧ (q ≠ 0 → r'.reading = r.reading)
        ∧ (q = 0 → ∃ x, r'.reading = some x ∧ x.value = value ∧ x.age = .counting 0 s.now
          ∧ x.threshold = (if value.toInt < r.lowThreshold.toInt then .below
              else if r.highThreshold.toInt < value.toInt then .above else .normal)
          ∧ (x.threshold ≠ ((r.reading.map (·.threshold)).getD .normal) → h ∈ t.agenda.joins))
        ∧ ((r.fault = .open ∨ r.fault = .overload) ∧ q ≠ 0 → r'.state = r.state ∧ r'.fault = r.fault)
        ∧ (¬ ((r.fault = .open ∨ r.fault = .overload) ∧ q ≠ 0) → cleared r'))
      ∧ ∀ word, r.cls ≠ .sensor → OutWord.ofCode (w.toNat % 128) = some word →
        let last := r.drive.bind (·.lastPlaced)
        let equal : Prop := last = some word
          ∨ (r.cls = .actuator ∧ word = .stop ∧ (last = some .runA ∨ last = some .runB))
        let active : Prop := match r.cls with
          | .lamp => word = .on ∨ ∃ x, word = .flash x ∧ 128 ≤ w.toNat
          | .supply => word = .on
          | .actuator => word = .runA ∨ word = .runB
          | .sensor => False
        let measured : Option RecFault := match r.entry with
          | .lamp _ _ nominal low high _ =>
              if 100 * value.toNat < nominal.toNat * low.toNat then some .open
              else if nominal.toNat * high.toNat < 100 * value.toNat then some .overload else none
          | .supply _ rated _ _ _ => if rated.toNat < value.toNat then some .overload else none
          | _ => none
        let mismatch (m : Bool) : Prop := ∃ x, (t.slot h).confirm = some x ∧ x.mismatch = m
        ∃ r', shown r' ∧ r'.confirmed = some word ∧ r'.reading = r.reading
          ∧ (r.cls = .actuator → r.guard = none → r'.motion = match word with
            | .runA => some .runningA
            | .runB => some .runningB
            | .stop => some .stopped
            | _ => r.motion)
          ∧ (∀ p, r.guard = some p → r'.motion = r.motion
            ∧ t.guard p = if s.settled h = true ∧ word = .stop ∧ (s.guard p).state = .dwell ∧ (s.guard p).awaiting = true
              then { s.guard p with awaiting := false, deadTimer := some (s.now + ms (s.guard p).dead) } else s.guard p)
          ∧ (s.settled h = false → r'.state = r.state ∧ r'.fault = r.fault ∧ mismatch c.mismatch)
          ∧ (s.settled h = true → equal → mismatch false
            ∧ (∀ f, active → q = 0 → measured = some f → r'.state = .faulted ∧ r'.fault = f)
            ∧ (¬ (active ∧ q = 0) → r.fault = .open ∨ r.fault = .overload → r'.state = r.state ∧ r'.fault = r.fault)
            ∧ (¬ (active ∧ q = 0) → r.fault ≠ .open → r.fault ≠ .overload → cleared r')
            ∧ (active → q = 0 → measured = none → cleared r')
            ∧ (r.overloadHeld = true → active → q = 0 → measured = none → r.guard = none → ∀ x, r.wanted = some x →
                last ≠ some x → r.drive ≠ none → ∃ p ∈ t.drt.pend, p.handle = h ∧ p.word = x))
          ∧ (s.settled h = true → ¬ equal → mismatch (!c.mismatch)
            ∧ (r.overloadHeld = true → r'.state = r.state ∧ r'.fault = r.fault ∧ t.drt.pend = s.drt.pend)
            ∧ (r.overloadHeld = false →
              (c.mismatch = true → r'.state = .faulted ∧ r'.fault = .outputMismatch)
              ∧ (c.mismatch = false → r'.state = r.state
                ∧ r'.fault = if r.state = .faulted then r.fault else .outputMismatch)
              ∧ ∀ x, (match r.guard with
                | none => r.wanted
                | some p => some (match (s.guard p).state with
                  | .runA => .runA
                  | .runB => .runB
                  | .idle | .dwell => .stop)) = some x → ∃ p ∈ t.drt.pend, p.handle = h ∧ p.word = x)))
  ∧ ∀ (a g p : BitVec 8) (v : BitVec 16) (s : State) (h : Handle) (r : Record), s.portSilent = false →
    s.named a g = some (h, r) →
    exec (.setParameter a g p v) s = .next (
      if 5 ≤ p.toNat then s.answer 5
      else if r.state = .retired then s.answer 4
      else if p = 0 then
        if v.toInt < 100 ∨ 5000 < v.toInt then s.answer 5
        else ((s.setRecord h { r with interval := some v.toNat }).modifyConfirm h fun c =>
          { c with deadline := match c.deadline with
            | .running e => .running (min e (s.now + ms v.toNat))
            | .held l => .held (min l (ms v.toNat))
            | .stopped => .stopped }).taken
      else if p = 1 ∨ p = 2 then
        if r.cls ≠ .sensor then s.answer 4
        else if (p = 1 ∧ r.highThreshold.toInt < v.toInt) ∨ (p = 2 ∧ v.toInt < r.lowThreshold.toInt) then s.answer 5
        else
          let lo := if p = 1 then v else r.lowThreshold
          let hi := if p = 1 then r.highThreshold else v
          (s.setRecord h { r with
            lowThreshold := lo, highThreshold := hi,
            reading := r.reading.map fun x => { x with threshold :=
              if x.value.toInt < lo.toInt then .below else if hi.toInt < x.value.toInt then .above else .normal }
            }).taken
      else if r.entry.reversing = false then s.answer 4
      else match r.guard with
        | none => s.answer 10
        | some q =>
            if p = 3 then
              if v.toInt < 20 ∨ 2000 < v.toInt then s.answer 5
              else (s.setGuard q { s.guard q with dead := v.toNat }).taken
            else if v.toInt < 1 ∨ 600 < v.toInt ∨ (r.entry.maxRun ≠ 0 ∧ (r.entry.maxRun : Int) < v.toInt) then
              s.answer 5
            else (s.setGuard q { s.guard q with limit := v.toNat }).taken)

/-- DRIVE of a named record: the checks of R132 in their order. -/
def Obligations.DriveChecksInOrder : Prop :=
  ∀ (a g w : BitVec 8) (s : State) (h : Handle) (r : Record), s.portSilent = false → s.named a g = some (h, r) →
    exec (.drive a g w) s = .next (match OutWord.ofCode w.toNat with
      | none => s.answer 5
      | some x =>
          if r.cls = .lamp ∨ r.cls = .sensor then s.answer 4
          else if r.state = .provisional ∨ r.state = .proving ∨ r.state = .retired then s.answer 4
          else if r.cls = .supply ∧ r.binding ≠ none then s.answer 4
          else if (r.cls = .actuator ∧ x ∉ [.runA, .runB, .stop]) ∨ (r.cls = .supply ∧ x ∉ [.off, .on]) then s.answer 5
          else if r.overloadHeld = true ∧ x ≠ .off ∧ x ≠ .stop then s.answer 4
          else if r.entry.reversing = true ∧ r.guard = none then s.answer 10
          else (s.hostDrive h r x).taken)
    ∧ (OutWord.ofCode w.toNat = none ↔ 9 ≤ w.toNat)

/-- The effect of a DRIVE taken (R133): the wanted output is the word. Without a guard, and not withheld, the word is entered
in the pending-drive set unless it was last placed, and then any entry is removed; with a guard it is handed to the guard.
What a Drive's outcome does (R130, R131, R153): a reply returns the failure count to 0, is a fault claim when its status is
not OK, and whatever its status ends a STOP that the guard awaits, whose pending slot a record that becomes withheld for
overload has emptied (R128, R152); a failure at count 0 has the output placed once more, OFF or STOP for a record withheld
for overload and nothing for one under a pulse proof; at count 1 it brings about nothing. A record that becomes withheld for
overload has OFF or STOP entered (R128), and a Drive ON answered OK is the ON start of a lamp driven ON and OFF by phase
(R100). The outcome for a record that is gone is dropped, and a retire Drive's mark follows it (R87). That a DRIVE for a
withheld record leaves its entry as it is, even where the word is the last placed one, is the model's inference (log entry
8). -/
def Obligations.DriveEffect : Prop :=
  (∀ (s : State) (h : Handle) (r : Record) (w : OutWord), s.record h = some r → r.state.usable = true →
    (r.guard = none → r.overloadHeld = false → ∀ d, r.drive = some d →
      (d.lastPlaced = some w → s.hostDrive h r w
        = (s.setRecord h { r with wanted := some w }).setPend (s.drt.pend.filter fun p => !(p.handle == h)))
      ∧ (d.lastPlaced ≠ some w → s.pendHolds h = false →
          (s.hostDrive h r w).record h = some { r with wanted := some w }
          ∧ (s.hostDrive h r w).drt.pend = s.drt.pend ++
              [{ handle := h, gen := (s.slot h).gen, word := w, time := s.now, urgent := r.tie.isSome }])
      ∧ (d.lastPlaced ≠ some w → s.pendHolds h = true →
          (s.hostDrive h r w).drt.pend = s.drt.pend.map fun p =>
            if p.handle = h then { p with word := w, urgent := r.tie.isSome } else p))
    ∧ (r.guard = none → r.overloadHeld = true → s.hostDrive h r w = s.setRecord h { r with wanted := some w })
    ∧ ∀ q, r.guard = some q →
        s.hostDrive h r .runA = (s.setRecord h { r with wanted := some .runA }).guardRun q .a
        ∧ s.hostDrive h r .runB = (s.setRecord h { r with wanted := some .runB }).guardRun q .b
        ∧ s.hostDrive h r .stop = (s.setRecord h { r with wanted := some .stop }).guardStop q false)
  ∧ (∀ (s : State) (d : DriveReq) (o : ReqOutcome), s.livePair d.handle d.gen = none →
      (s.driveOutcome d o).drt.pend = s.drt.pend ∧ (∀ h, (s.driveOutcome d o).record h = s.record h)
      ∧ ((s.driveOutcome d o).slot d.handle).retireDrive = match (s.slot d.handle).retireDrive with
        | .placed => .none
        | .awaiting a i w => .unplaced a i w
        | x => x)
  ∧ ∀ (s : State) (d : DriveReq) (r : Record), s.livePair d.handle d.gen = some r →
      (∀ (st : ReplyStatus) (pl : List Byte) (n : Nat),
        let t := s.driveOutcome d (.replied st pl n)
        let f : RecFault := if st = .fault then (if pl.head? = some 2 then .overload else .open) else .refused
        (∃ r', t.record d.handle = some r' ∧ r'.drive = r.drive.map (fun x => { x with failed := false })
          ∧ r'.binding = r.binding ∧ r'.intended = r.intended ∧ r'.wanted = r.wanted
          ∧ (st = .ok → r'.state = r.state ∧ r'.before = r.before ∧ r'.fault = r.fault)
          ∧ (st ≠ .ok → r.state = .ready ∨ r.state = .bound ∨ r.state = .faulted →
              r'.state = .faulted ∧ r'.before = r.before ∧ r'.fault = f)
          ∧ (st ≠ .ok → r.state = .stale → r'.state = .stale ∧ r'.before = some .faulted ∧ r'.fault = f)
          ∧ (r.state = .provisional ∨ r.state = .proving → r'.state = r.state ∧ r'.fault = r.fault))
        ∧ (st = .fault → f = .overload → r.state.usable = true → r.overloadHeld = false →
          ∃ p ∈ t.drt.pend, p.handle = d.handle ∧ p.word = if r.cls = .actuator then .stop else .off)
        ∧ (∃ u : State, u.prv = s.prv ∧ u.tdl = s.tdl ∧ u.drt.sources = s.drt.sources
          ∧ ((st ≠ .ok ∨ d.word ≠ .on ∨ r.cls ≠ .lamp) → t = u)
          ∧ (st = .ok → d.word = .on → r.cls = .lamp → (r.tie = none → t = u)
            ∧ ∀ x, r.tie = some x → t = match s.asks x false with
              | .flash _ => u
              | _ => if s.demanded x = true ∧ s.phased x = true then u.onStart d.handle else u))
        ∧ ∀ g, r.guard = some g → (s.guard g).state = .dwell → (s.guard g).awaiting = true →
          let x : Guard := if st ≠ .ok ∧ f = .overload ∧ r.state.usable = true ∧ r.overloadHeld = false
            then { s.guard g with slot := none } else s.guard g
          t.guard g = if d.word = .stop
            then { x with awaiting := false, deadTimer := some (s.now + ms x.dead) } else x)
      ∧ ∀ o x, o = .noReply ∨ o = .checkError ∨ o = .collision → r.drive = some x →
        let t := s.driveOutcome d o
        (x.failed = true → t.record d.handle = some r ∧ t.drt.pend = s.drt.pend)
        ∧ (x.failed = false → t.record d.handle = some { r with drive := some { lastPlaced := none, failed := true } }
          ∧ (r.overloadHeld = true → ∃ p ∈ t.drt.pend, p.handle = d.handle
              ∧ p.word = if r.cls = .actuator then .stop else .off)
          ∧ (r.overloadHeld = false → s.withheld d.handle r = true → t.drt.pend = s.drt.pend)
          ∧ (s.withheld d.handle r = false → ∀ w, s.placeWord r = some w →
              ∃ p ∈ t.drt.pend, p.handle = d.handle ∧ p.word = w))

/-- PROVE of a named record (R113): refused unless the record is a LAMP in READY, BOUND or FAULTED. Taken, the record is
PROVISIONAL with its tie as intended source and no fault, its handle is the last on the Proving List, and its confirm entry
is gone. What the outcome of a proof's Prove or Sample does (R98, R103 to R107, R109, R111): a measured current is judged by
the lamp's band, a FAULT gives its reading, any other refusal or failure REFUSED, the slot is EMPTY, and the record, usable
now, has its confirm entry created (R160, R163) and, withheld no more, its output entered, or OFF for an OVERLOAD (R101,
R128); a Sample that finds the lamp not lit is a missed phase, the fourth of which ends the proof, or has the output placed
again, once: its last placed output is one that no output equals, and it is entered in the pending-drive set, which is
drained (R103, R129); a source that is not demanded any more, or has been left, returns the lamp to the head of the list; an
outcome in DRAINING is discarded. That a Sample claimed at an ON start is judged by the source as it stands at the reply is
the model's choice (log entry 49). How a proof begins (R99): the head of the list is taken off and PROVING, by PULSE or,
where its source is demanded, STEADY; it waits for a phase, or its request is claimed (R102, R103), again after FULL when an
attempt ends, at the ON start that it waits for, or when what it waits for has come (R103, R104). What a source does
meanwhile: one that becomes demanded ends a pulse proof, whose lamp is driven as asked (R108); one that stops being demanded
ends a steady proof, or leaves its Sample to decide (R109); and a new source is judged so, except that a demanded one ends a
steady proof (R110). When a source is demanded and phased is R100's; that a FOLLOWED source is phased is the model's
inference (log entry 25). -/
def Obligations.ProvePutsLampBack : Prop :=
  (∀ (s : State) (x : Src),
    (s.demanded x = true ↔ if x = 10 then (s.source 2).active = true ∨ (s.source 3).active = true
      else if x = 11 then (s.source 2).active = true ∨ (s.source 4).active = true else (s.source x).active = true)
    ∧ (s.phased x = true ↔ if x = 10 then (s.source 3).active = true else if x = 11 then (s.source 4).active = true
      else (s.source x).active = true ∧ (s.source x).form ≠ .steady))
  ∧   (∀ (a g : BitVec 8) (s : State) (h : Handle) (r : Record), s.portSilent = false → s.named a g = some (h, r) →
    (¬ (r.cls = .lamp ∧ (r.state = .ready ∨ r.state = .bound ∨ r.state = .faulted)) →
      exec (.prove a g) s = .next (s.answer 4))
    ∧ (r.cls = .lamp → r.state = .ready ∨ r.state = .bound ∨ r.state = .faulted →
        ∃ u : State, exec (.prove a g) s = .next u.taken
          ∧ u.record h = some { r with state := .provisional, intended := r.tie, binding := none, fault := .none }
          ∧ u.prv.list = s.prv.list ++ [h] ∧ (u.slot h).confirm = none ∧ u.still = s.still))
  ∧ (∀ (s : State) (p : Proof) (r : Record) (a : Addr), s.livePair p.handle p.gen = some r → r.address = some a →
      s.tdl.line ≠ .down →
      let request : Request := match p.form with
        | .pulse => .prove a r.index
        | .steady => .sample .proving a r.index p.handle p.gen
      (s.routineEntries < 24 → s.claimProof p = { s with
        tdl := { s.tdl with routine := s.tdl.routine ++ [request] }
        prv := { s.prv with proof := some { p with stage := .request, placed := true } } })
      ∧ (24 ≤ s.routineEntries → s.claimProof p = s.setProof (some { p with stage := .request, placed := false })))
  ∧ (∀ (s : State) (p : Proof), s.prv.proof = some p →
      s.provingOccasion = (if p.stage = .request ∧ p.placed = false then s.claimProof p else s)
      ∧ (∀ h, s.proofOnStart h = if p.handle = h ∧ p.stage = .phaseWait then s.claimProof p else s)
      ∧ ∀ r, s.livePair p.handle p.gen = some r →
        (p.stage = .driveWait → s.proofWaits = if s.settled p.handle = true then s.claimProof p else s)
        ∧ (∀ x, p.stage = .phaseWait → r.intended = some x → s.proofWaits =
            if s.demanded x = true ∧ s.phased x = false ∧ s.settled p.handle = true
                ∧ r.drive.bind (·.lastPlaced) = some .on
            then s.claimProof p else s)
        ∧ (p.stage = .request ∨ p.stage = .draining → s.proofWaits = s))
  ∧ (∀ s : State, (s.prv.proof ≠ none ∨ s.prv.list = [] ∨ s.lineRuns = false
      ∨ ∀ h l, s.prv.list = h :: l → s.settled h = false) → s.beginProof = s)
  ∧ (∀ (s : State) (h : Handle) (l : List Handle) (r : Record), s.prv.proof = none → s.prv.list = h :: l →
      s.lineRuns = true → s.settled h = true → s.live h = some r → r.state = .provisional → r.cls = .lamp →
      r.guard = none →
      let waits : Bool := r.intended.any fun x => s.demanded x && s.phased x
      let t := s.beginProof
      t.record h = some { r with state := .proving } ∧ h ∈ t.agenda.joins ∧ t.prv.list = l
      ∧ ∃ p : Proof, t.prv.proof = some p ∧ p.handle = h ∧ p.gen = (s.slot h).gen
        ∧ p.form = (if r.intended.any s.demanded then .steady else .pulse)
        ∧ p.notOn = false ∧ p.missed = 0 ∧ p.left = false
        ∧ (waits = true → p.stage = .phaseWait ∧ t.tdl = s.tdl)
        ∧ (waits = false → p.stage = .request ∧ ∃ u : State, t = u.claimProof { p with placed := false }
          ∧ u.tdl = s.tdl ∧ u.livePair h p.gen = some { r with state := .proving }))
  ∧ (∀ (s : State) (p : Proof) (r : Record), s.prv.proof = some p → p.stage ≠ .draining →
      s.livePair p.handle p.gen = some r → r.state = .proving → r.guard = none →
      let asked : Bool := r.intended.any s.demanded
      let standing : Bool := p.stage == .request && p.placed
      let returned (t : State) (b : Bool) : Prop := t.record p.handle = some { r with state := .provisional }
        ∧ p.handle ∈ t.agenda.joins ∧ t.prv.list = p.handle :: s.prv.list ∧ t.tdl = s.tdl
        ∧ t.prv.proof = if b then some { p with stage := .draining } else none
      let left (t : State) : Prop := (standing = true → t = s.setProof (some { p with left := true, stopped := true }))
        ∧ (standing = false → returned t false ∧ t.drt = s.drt)
      (p.form = .pulse → (asked = false → s.proofSourceCheck = s)
        ∧ (asked = true → returned s.proofSourceCheck p.placed ∧ ∀ w, r.wanted = some w →
            s.pendAsked p.handle { r with state := .provisional } w s.proofSourceCheck.drt.pend)
        ∧ s.proofTieChanged p.handle = s.proofSourceCheck)
      ∧ (p.form = .steady →
        (asked = true → s.proofSourceCheck = s.setProof (some { p with stopped := false }))
        ∧ (asked = false → p.stopped = true → s.proofSourceCheck = s)
        ∧ (asked = false → p.stopped = false → left s.proofSourceCheck)
        ∧ (asked = false → left (s.proofTieChanged p.handle))
        ∧ (asked = true → returned (s.proofTieChanged p.handle) standing
            ∧ (s.proofTieChanged p.handle).drt = s.drt)))
  ∧ (∀ (s : State) (h : Handle) (x : Option Src), s.hostTie h x = (s.changeTie h x).proofTieChanged h
      ∧ ((∀ p, s.prv.proof = some p → p.handle ≠ h ∨ p.stage = .draining) → s.proofTieChanged h = s))
  ∧ (∀ (s : State) (p : Proof) (o : ReqOutcome), s.prv.proof = some p → p.stage = .draining →
      s.proofOutcome o = { s with prv := { s.prv with proof := none } })
  ∧ ∀ (s : State) (p : Proof) (r : Record) (role : LampRole) (side : LampSide) (nominal low high unused : Byte),
      s.prv.proof = some p → p.stage ≠ .draining → p.placed = true → s.livePair p.handle p.gen = some r →
      r.state = .proving → r.entry = .lamp role side nominal low high unused → r.guard = none →
      let closed (t : State) (f : RecFault) : Prop := t.prv.proof = none ∧ t.prv.list = s.prv.list
        ∧ s.confirmCreated t p.handle r ∧ p.handle ∈ t.agenda.joins
        ∧ (f = .overload → ∃ q ∈ t.drt.pend, q.handle = p.handle ∧ q.word = .off)
        ∧ (f ≠ .overload → p.form = .steady → t.drt.pend = s.drt.pend)
        ∧ (f ≠ .overload → p.form = .pulse → ∀ w, r.wanted = some w →
            s.pendAsked p.handle { r with state := .ready } w t.drt.pend)
        ∧ t.record p.handle = some { r with
            state := if f ≠ .none then .faulted else if r.tie.isSome then .bound else .ready
            fault := f, binding := r.tie, intended := none }
      let judged (t : State) (c : Nat) : Prop := closed t
        (if 100 * c < nominal.toNat * low.toNat then .open
          else if nominal.toNat * high.toNat < 100 * c then .overload else .none)
      let returned (t : State) : Prop := t.prv.proof = none
        ∧ t.record p.handle = some { r with state := .provisional }
      (p.form = .pulse → ∀ (c : Byte) (n : Nat), judged (s.proofOutcome (.replied .ok [c] n)) c.toNat)
      ∧ (p.form = .steady → ∀ (w q a b : Byte) (n : Nat),
          let t := s.proofOutcome (.replied .ok [w, q, a, b] n)
          let lit : Prop := w.toNat % 128 = 1 ∨ 130 ≤ w.toNat ∧ w.toNat ≤ 133
          (lit → judged t (256 * a.toNat + b.toNat))
          ∧ (¬ lit → p.left = true ∨ r.intended = none → returned t ∧ t.prv.list = p.handle :: s.prv.list)
          ∧ (¬ lit → p.left = false → ∀ x, r.intended = some x →
              (s.demanded x = false → returned t ∧ t.prv.list = p.handle :: s.prv.list)
              ∧ (s.demanded x = true → s.phased x = true →
                  (p.missed < 3 → t.prv.proof = some { p with
                      stage := .phaseWait, placed := false, missed := p.missed + 1 } ∧ t.record p.handle = some r)
                  ∧ (3 ≤ p.missed → returned t ∧ t.prv.list = s.prv.list ++ [p.handle]))
              ∧ (s.demanded x = true → s.phased x = false →
                  (p.notOn = true → closed t .refused)
                  ∧ (p.notOn = false → t.prv.proof = some { p with
                        stage := .driveWait, placed := false, notOn := true }
                      ∧ ∀ out, s.placeWord r = some out → t.agenda.drain = true
                        ∧ t.record p.handle = some { r with drive := r.drive.map fun d => { d with lastPlaced := none } }
                        ∧ (s.pendHolds p.handle = true → t.drt.pend = s.drt.pend.map fun e =>
                            if e.handle = p.handle then { e with word := out, urgent := r.tie.isSome } else e)
                        ∧ (s.pendHolds p.handle = false → t.drt.pend = s.drt.pend ++ [{
                            handle := p.handle, gen := (s.slot p.handle).gen, word := out, time := s.now,
                            urgent := r.tie.isSome }])))))
      ∧ (∀ (b : Byte) (n : Nat),
          closed (s.proofOutcome (.replied .fault [b] n)) (if b = 2 then .overload else .open))
      ∧ (∀ o, o = .noReply ∨ o = .checkError ∨ o = .collision ∨ (∃ l n, o = .replied .refused l n)
          ∨ (∃ l n, o = .replied .noFunction l n) → closed (s.proofOutcome o) .refused)
      ∧ (s.proofOutcome .abandoned) = { s with prv := { s.prv with proof := none } }

/-- RETIRE of a named record (R86, with R84): refused when RETIRED. Taken, the record is RETIRED with reason HOST, what R84
makes absent is absent, its reading age stands still, the handle does not join the Attention Set, and the lists, the pending
entry, the proof, the confirm entry and the guard are as State.recordEnded has them, as after any other cause (R84, R111,
R157). In a quiet engine the node's admitted count falls and its unadmitted count rises by one. The retire Drive is claimed
with the word of its class, to the address and function that the record had: the slot's mark is outstanding when it is taken
or merged, to be placed again at FULL, waiting for the outcome at IN_FLIGHT, and clear at DOWN or for a SENSOR. One still to
be placed is claimed again in the same way when an attempt ends, and its mark is cleared when its node entry becomes FREE
(R86, R87). The order of several retire Drives is log entry 36. -/
def Obligations.RetireEndsRecord : Prop :=
  let marked (x : ClaimAnswer) (b : Addr) (i : FnIndex) (w : OutWord) : RetireDrive := match x with
    | .taken | .merged => .placed
    | .full => .unplaced b i w
    | .inFlight => .awaiting b i w
    | .down => .none
  (∀ (a g : BitVec 8) (s : State) (h : Handle) (r : Record), s.portSilent = false → s.named a g = some (h, r) →
    (r.state = .retired → exec (.retire a g) s = .next (s.answer 4))
    ∧ (r.state ≠ .retired → ∃ t : State, exec (.retire a g) s = .next t
        ∧ t.record h = some { r with
            state := .retired, reason := some .host, address := none, binding := none, intended := none,
            before := none, interval := none, guard := none, drive := none,
            reading := r.reading.map fun x => { x with age := .still (x.age.value s.now) } }
        ∧ (t.slot h).gen = (s.slot h).gen ∧ t.fdir.attention = s.fdir.attention
        ∧ t.fixed = { s.fixed with response := [0], stream := .none }
        ∧ (s.engineQuiet → 0 < r.position → t.ntab.nodes = s.ntab.nodes.modify (r.position - 1) fun n =>
            { n with admitted := n.admitted - 1, unadmitted := n.unadmitted + 1 })
        ∧ let word : Option OutWord := match r.cls with
            | .lamp | .supply => some .off
            | .actuator => some .stop
            | .sensor => none
          ∃ u : State, t = u.taken ∧ s.recordEnded u h r
            ∧ (word = none ∨ r.address = none → (u.slot h).retireDrive = .none ∧ u.tdl = s.tdl)
            ∧ ∀ w b, word = some w → r.address = some b →
              let c := s.claimDrive
                { address := b, index := r.index, handle := h, gen := (s.slot h).gen, word := w, prior := none } false
              u.tdl = c.1.tdl ∧ (u.slot h).retireDrive = marked c.2 b r.index w))
  ∧ (∀ (s : State) (h : Handle) (r : Record) (x : RetireReason), s.live h = some r →
      s.recordEnded (s.retireRecord h x) h r ∧ (s.retireRecord h x).tdl = s.tdl
      ∧ ∃ r', (s.retireRecord h x).record h = some r' ∧ r'.state = .retired ∧ r'.reason = some x)
  ∧ (∀ (s : State) (h : Handle),
    (∀ b i w, (s.slot h).retireDrive = .unplaced b i w →
      let c := s.claimDrive
        { address := b, index := i, handle := h, gen := (s.slot h).gen, word := w, prior := none } false
      s.placeRetireDrive h = c.1.modifySlot h fun x => { x with retireDrive := marked c.2 b i w })
    ∧ ((∀ b i w, (s.slot h).retireDrive ≠ .unplaced b i w) → s.placeRetireDrive h = s)
    ∧ s.placeRetireDrives = (List.finRange 96).foldl State.placeRetireDrive s)
  ∧ ∀ (s : State) (gone : Addr → Bool) (h : Handle), ((s.dropRetireDrivesTo gone).slot h).retireDrive =
      match (s.slot h).retireDrive with
      | .unplaced b i w => if gone b then .none else .unplaced b i w
      | .awaiting b i w => if gone b then .none else .awaiting b i w
      | x => x

/-- FORGET of a named record (R88): refused unless RETIRED, and with BUSY while a retire Drive is outstanding. Taken, the
slot is FREE with its generation kept, and the handle is out of the Attention Set. -/
def Obligations.ForgetFreesSlot : Prop :=
  ∀ (a g : BitVec 8) (s : State) (h : Handle) (r : Record), s.portSilent = false → s.named a g = some (h, r) →
    (r.state ≠ .retired → exec (.forget a g) s = .next (s.answer 4))
    ∧ (r.state = .retired → (s.slot h).retireDrive ≠ .none → exec (.forget a g) s = .next (s.answer 2))
    ∧ (r.state = .retired → (s.slot h).retireDrive = .none → ∃ t : State, exec (.forget a g) s = .next t
        ∧ t.record h = none ∧ (t.slot h).gen = (s.slot h).gen
        ∧ t.fdir.attention = s.fdir.attention.filter (fun k => !(k == h))
        ∧ t.fixed = { s.fixed with response := [0], stream := .none })

/-- A slot that holds a record has a generation other than 0, so a pair with generation 0 is always refused (R69). Every
step keeps it. An offered catalogue entry is admitted into the lowest FREE slot, with the slot's next generation, and only
when there is one (R77, R81): the record is PROVISIONAL with the contents of R77, its output wanted OFF or STOP among them,
and its handle joins the Attention Set (R89). A REVERSING actuator takes the lowest free guard with its first times (R149)
or the fault NO_GUARD (R79), and a lamp joins the Proving List and, with auto-bind, the list of its source while that has
room (R119); an active source drives it at once, so that it wants what the source asks for, and this is entered urgent
(R78). An entry is valid when its class is one of the four and each field that its class uses is within its range (R40); it
is then kept as it came, with the band defaults of R40 (R213). -/
def Obligations.RecordsHaveGenerations : Prop :=
  let table (role : LampRole) (side : LampSide) : Option Src := match role, side with
    | .tail, .left => some 0
    | .tail, .right => some 1
    | .tail, .centre => some 0
    | .stop, _ => some 2
    | .turn, .left => some 3
    | .turn, .right => some 4
    | .turn, .centre => none
    | .stopTurn, .left => some 10
    | .stopTurn, .right => some 11
    | .stopTurn, .centre => none
    | .reverse, _ => some 5
    | .fog, _ => some 6
    | .marker, _ => some 7
    | .plate, _ => some 0
    | .work, _ => some 8
    | .beacon, _ => some 9
  (∀ s t : State, (∀ h : Handle, (s.record h).isSome = true → (s.slot h).gen ≠ 0) → step s = .next t →
    ∀ h : Handle, (t.record h).isSome = true → (t.slot h).gen ≠ 0)
  ∧ (∀ h : Handle, (State.reset.record h).isSome = true → (State.reset.slot h).gen ≠ 0)
  ∧ (∀ (s : State) (p : Nat) (i : FnIndex) (e : CatEntry), (∀ h : Handle, (s.record h).isSome = true) →
      s.admitEntry p i e = (s, none))
  ∧ (∀ (s : State) (p : Nat) (i : FnIndex) (e : CatEntry) (h : Handle) (n : NodeEntry), s.record h = none →
      (∀ k, k < h → (s.record k).isSome = true) → s.nodeAt p = some n →
      let t := (s.admitEntry p i e).1
      let gen : Byte := if (s.slot h).gen = 255 then 1 else (s.slot h).gen + 1
      (s.admitEntry p i e).2 = some (h, gen) ∧ (t.slot h).gen = gen
      ∧ (∃ r, t.record h = some r ∧ r.state = .provisional ∧ r.address = some n.address ∧ r.position = p ∧ r.unit = n.unit
        ∧ r.index = i ∧ r.entry = e ∧ r.binding = none ∧ r.before = none ∧ r.confirmed = none ∧ r.reading = none
        ∧ r.lowThreshold.toInt = -32768 ∧ r.highThreshold.toInt = 32767 ∧ r.reason = none
        ∧ r.interval = some (s.hcp.cfg.confirmDefault e.cls)
        ∧ r.motion = (if e.cls = .actuator then some .stopped else none)
        ∧ (e.reversing = false → r.guard = none ∧ r.fault = .none)
        ∧ (e.reversing = true → (∀ q, ((s.guard q).owner).isSome = true) → r.guard = none ∧ r.fault = .noGuard)
        ∧ (e.reversing = true → ∀ q, (s.guard q).owner = none → (∀ k, k < q → ((s.guard k).owner).isSome = true) →
            r.guard = some q ∧ r.fault = .none ∧ t.guard q = {
              owner := some (h, gen), state := .idle, dead := 300,
              limit := (match e with
                | .actuator _ run _ _ _ => if run ≠ 0 ∧ run.toNat < 30 then run.toNat else 30
                | _ => 30),
              runTimer := none, deadTimer := none, awaiting := false, slot := none })
        ∧ r.wanted = (match e.cls, r.intended with
          | .sensor, _ => none
          | .actuator, _ => some .stop
          | .supply, _ | .lamp, none => some .off
          | .lamp, some x => some (s.asks x false))
        ∧ (∀ w, e.cls = .lamp → r.wanted = some w → w ≠ .off → t.agenda.drain = true
            ∧ ∃ p ∈ t.drt.pend, p.handle = h ∧ p.word = w ∧ p.urgent = true)
        ∧ (∀ role side a b c d, e = .lamp role side a b c d → ∀ x, s.hcp.cfg.autoBind = true →
            table role side = some x →
            ((s.list x).length < 16 → r.intended = some x ∧ h ∈ t.list x)
            ∧ (16 ≤ (s.list x).length → r.intended = none))
        ∧ (∀ role side a b c d, e = .lamp role side a b c d → table role side = none → r.intended = none)
        ∧ (s.hcp.cfg.autoBind = false ∨ e.cls ≠ .lamp → r.intended = none)
        ∧ r.drive = match e.cls with
          | .sensor => none
          | .actuator => some { lastPlaced := some .stop, failed := false }
          | _ => some { lastPlaced := some .off, failed := false })
      ∧ h ∈ t.agenda.joins
      ∧ t.prv.list = (if e.cls = .lamp then s.prv.list ++ [h] else s.prv.list)
      ∧ t.nodeAt p = some { n with admitted := n.admitted + 1 })
  ∧ (∀ l : List Byte, l.length ≠ 6 → parseEntry l = none)
  ∧ (∀ b0 b1 b2 b3 b4 b5 : Byte, (∃ e, parseEntry [b0, b1, b2, b3, b4, b5] = some e) ↔
      (b0 = 0 ∧ b1.toNat / 16 ≤ 9 ∧ b1.toNat % 16 ≤ 2 ∧ b2 ≠ 0 ∧ b3.toNat ≤ 95
        ∧ (b4 = 0 ∨ 105 ≤ b4.toNat ∧ b4.toNat ≤ 250))
      ∨ (b0 = 1 ∧ b1.toNat ≤ 5) ∨ (b0 = 2 ∧ b1.toNat ≤ 1) ∨ (b0 = 3 ∧ b2 ≠ 0))
  ∧ ∀ (b0 b1 b2 b3 b4 b5 : Byte) (e : CatEntry), parseEntry [b0, b1, b2, b3, b4, b5] = some e →
      e.cls.code = b0.toNat ∧ e.bytes = [b0, b1, b2, if b0 = 0 ∧ b3 = 0 then 25 else b3,
        if b0 = 0 ∧ b4 = 0 then 200 else b4, b5]

/-! ### Demands, the engine and recatalogues -/

/-- SET DEMAND makes a virtual source, VD1 to VD6, active or inactive and leaves every other source as it is; any other
source or demand is refused (R117). How a change of any source is routed (R125): over the source's list in list order, each
record has its wanted output computed by the table of R124, and asked for as the pending-drive set takes it (R126, R128), and
the set is drained whatever the change made of it. A record is withheld for an OVERLOAD that stands, or under a pulse proof
(R128), and drive-settled without an entry and without a Drive in the Line Queue (R129). That a record withheld for overload
has its entry neither entered nor removed, where R125 would remove one whose output returns to the last placed, is the
model's inference (State.pendAsked, log entry 8). The set is drained in the order of its entries (R127): each has a Drive
claimed in its class; taken or merged, the entry leaves and its word is the last placed one, and otherwise it stays. The
order in which the blocks act at an event's end, the Drives before the marks, is log entry 4. -/
def Obligations.SetDemandSwitchesVirtualSource : Prop :=
  (∀ (s : State) (x : Src), let y := s.source x
    (y.active = false → ∀ supply, s.asks x supply = .off)
    ∧ (y.active = true → y.form = .steady → ∀ supply, s.asks x supply = .on)
    ∧ (∀ c, y.active = true → y.form = .flashing c → s.asks x false = .flash c ∧ s.asks x true = .on)
    ∧ ∀ supply, y.active = true → y.form = .followed →
      (x = 3 → s.asks x supply = if s.drt.inputs[(3 : Fin 10)] then .on else .off)
      ∧ (x = 4 → s.asks x supply = if s.drt.inputs[(4 : Fin 10)] then .on else .off))
  ∧ (∀ (s : State) (h : Handle) (r : Record),
    (r.overloadHeld = true ↔
      r.fault = .overload ∧ (r.state = .faulted ∨ r.state = .stale ∧ r.before = some .faulted))
    ∧ (s.withheld h r = true ↔ r.overloadHeld = true ∨ r.state = .proving
      ∧ ∃ p, s.prv.proof = some p ∧ p.handle = h ∧ p.form = .pulse ∧ p.stage ≠ .draining)
    ∧ (s.pendHolds h = true ↔ ∃ p ∈ s.drt.pend, p.handle = h)
    ∧ (s.settled h = true ↔ (∀ p ∈ s.drt.pend, p.handle ≠ h) ∧ ∀ d : DriveReq, d.handle = h → .drive d ∉ s.tdl.urgent
      ∧ .drive d ∉ s.tdl.routine ∧ ∀ f, s.tdl.inFlight = some f → f.req ≠ .drive d)
    ∧ s.placeWord r = match r.guard with
      | none => r.wanted
      | some g => some (match (s.guard g).state with
        | .runA => .runA
        | .runB => .runB
        | .idle | .dwell => .stop))
  ∧ (∀ (s : State) (h : Handle) (r : Record), s.live h = some r →
    let wanted : Option OutWord := match r.tie with
      | some x => some (s.asks x (r.cls == .supply))
      | none => if r.cls = .lamp then some .off else r.wanted
    (wanted = none → s.rewant h = s)
    ∧ ∀ w, wanted = some w → let t := s.rewant h
      t.record h = some { r with wanted := some w } ∧ s.pendAsked h r w t.drt.pend
      ∧ (∀ k, k ≠ h → t.record k = s.record k)
      ∧ (t.drt.pend = s.drt.pend ∨ (∃ d, r.drive = some d ∧ d.lastPlaced = some w) ∨ t.agenda.drain = true))
  ∧ (∀ (s : State) (x : Src) (v : Source), s.route x = ((s.list x).foldl State.rewant s).callDrain
    ∧ s.putSource x v = if s.source x = v then s else (s.setSourceEntry x v).route x)
  ∧ (∀ (s : State) (p : Pend),
    (s.livePair p.handle p.gen = none → s.drainOne p = s.setPend (s.drt.pend.filter fun q => !(q.handle == p.handle)))
    ∧ ∀ r a d, s.livePair p.handle p.gen = some r → r.address = some a → r.drive = some d →
      let c := s.claimDrive
        { address := a, index := r.index, handle := p.handle, gen := p.gen, word := p.word, prior := d.lastPlaced } p.urgent
      (c.2 = .taken ∨ c.2 = .merged → (s.drainOne p).tdl = c.1.tdl
        ∧ (s.drainOne p).drt.pend = s.drt.pend.filter (fun q => !(q.handle == p.handle))
        ∧ (s.drainOne p).record p.handle = some { r with drive := some { d with lastPlaced := some p.word } })
      ∧ (c.2 ≠ .taken → c.2 ≠ .merged → s.drainOne p = s))
  ∧ (∀ s : State, s.drain = s.drt.pend.foldl State.drainOne s
    ∧ s.drainIfDue = (if s.agenda.drain = true then
        ({ s with agenda := { s.agenda with drain := false } } : State).drain else s)
    ∧ s.settleClaims = s.proofSourceCheck.proofWaits.beginProof.drainIfDue.claimDueMarks.phaseWaitCheck.passIfDue.drainIfDue)
  ∧ ∀ (x d : BitVec 8) (s : State), s.portSilent = false →
    (¬ (1 ≤ x.toNat ∧ x.toNat ≤ 6 ∧ d.toNat ≤ 1) → exec (.setDemand x d) s = .next (s.answer 5))
    ∧ ∀ y : Src, x.toNat + 11 = y.val → 12 ≤ y.val → d.toNat ≤ 1 → ∃ t : State, exec (.setDemand x d) s = .next t
        ∧ t = (s.changeSource y { s.source y with active := decide (d = 1) }).taken
        ∧ (∀ v : Source, s.changeSource y v = (s.putSource y v).updateChan y)
        ∧ t.source y = { s.source y with active := decide (d = 1) } ∧ (∀ z, z ≠ y → t.source z = s.source z)
        ∧ t.fixed = { s.fixed with response := [0], stream := .none }

/-- START BRING-UP, by the engine's state (R32), and what the outcomes of the walk's Probe and Assign bring about. The
outcome of a request of the engine's leaves it with none; one that a cut has it drop does nothing but hold the address of an
Assign answered OK (R31, R48). A request refused FULL is placed again when an attempt on the line ends (R31). A Probe without
a reply ends the chain: the highest unit is matched unless it has been, and the engine settles, or starts the frontier timer
again when it is SETTLED (R33, R44, R45, R46). On entry to PROBE a Probe is placed; with twelve node entries none is, and the
chain ends NODE_LIMIT (R36). A collision, a broken count or another status halts it (R33). That bits 6 and 5 of a reply's
last byte are not read is the model's inference (log entry 16). A reply with the identity of a node entry cuts the chain
there (R34), at the lowest where several hold it, an inference too (log entry 26); any other is followed by the unit check
(R35) and the Assign of the lowest free address (R37). An Assign answered OK makes the node's entry and counts it in its
unit, and its first Describe is placed; the catalogue of a node without functions is read at once, and its gate is to be
opened, or the chain ends NODE_LIMIT at the twelfth (R36, R42); an echo delay over 10.0 ms takes both back and releases the
node (R37, R38); once that Release is SENT, Extend CLOSE goes to the highest entry, or with none the chain ends WINDOW_LIMIT
at once (R38). The third Assign that fails halts the engine (R37). -/
def Obligations.StartBringUpByEngineState : Prop :=
  (∀ (s : State) (a : Addr), s.freeAddress = some a ↔
    ((∀ n ∈ s.ntab.nodes, n.address ≠ a) ∧ (∀ x ∈ s.bue.held, x.1 ≠ a))
    ∧ ∀ b, b < a → (∃ n ∈ s.ntab.nodes, n.address = b) ∨ ∃ x ∈ s.bue.held, x.1 = b)
  ∧ (∀ (s : State) (u : UnitRec), (∀ n, s.nodeAt u.first = some n → s.unitIdentity u = n.identity)
      ∧ (s.nvBusy = true ↔ s.ktl.scanning = true ∨ s.ktl.write ≠ none))
  ∧ (∀ (i : Identity) (b : Byte), parseProbe (identityBytes i ++ [b]) =
      { identity := i, head := decide (128 ≤ b.toNat), count := b.toNat % 32 })
  ∧ (∀ (s : State) (o : ReqOutcome),
      let u : State := { s with bue := { s.bue with request := .none } }
      (s.bue.dropping = false → s.bueOutcome .probe o = u.probeOutcome o
        ∧ (∀ a i, s.bueOutcome (.assign a i) o = u.assignOutcome a o)
        ∧ (∀ a i, s.bueOutcome (.describe a i false) o = u.describeOutcome i o)
        ∧ (∀ a b, s.bueOutcome (.extend a b) o = u.extendOutcome a b o)
        ∧ ∀ a, s.bueOutcome (.release a true) o = if o = .sent then u.windowReleased else u)
      ∧ (s.bue.dropping = true → (∀ r, (∀ a i, r ≠ .assign a i) → s.bueOutcome r o = u)
        ∧ ∀ a i st pl n, o = .replied st pl n →
          s.bueOutcome (.assign a i) o = if st = .ok then u.holdAddress a else u))
  ∧ (∀ s : State, let t := s.windowReleased
      (s.ntab.nodes = [] → s.chainEnded t .windowLimit ∧ t.hcp.flags.getLsbD 4 = true)
      ∧ ∀ n, s.ntab.nodes.getLast? = some n → t.bue.errand = .closeForWindow ∧ t.bue.state = s.bue.state
        ∧ t.ntab = s.ntab
        ∧ (s.tdl.line ≠ .down → s.routineEntries < 24 → t.bue.request = .queued
          ∧ t.tdl = { s.tdl with routine := s.tdl.routine ++ [.extend n.address false] })
        ∧ (s.tdl.line ≠ .down → 24 ≤ s.routineEntries → t.bue.request = .unplaced (.extend n.address false)
          ∧ t.tdl = s.tdl))
  ∧ (∀ s : State, ((∀ w, s.bue.request ≠ .unplaced w) → s.bueOccasion = s)
      ∧ ∀ w, s.bue.request = .unplaced w → let t := s.bueOccasion
        (s.tdl.line ≠ .down → 24 ≤ s.routineEntries → t = s)
        ∧ (s.tdl.line ≠ .down → s.routineEntries < 24 → t.bue = { s.bue with request := .queued }
          ∧ t.tdl = { s.tdl with routine := s.tdl.routine ++ [w.request] }
          ∧ ((∀ a i, w ≠ .describe a i false) → t.ntab = s.ntab)))
  ∧ (∀ s : State, let t := s.probeOutcome .noReply
      let frontier : Countdown := if s.lineRuns then .running (s.now + ms 500) else .held (ms 500)
      (s.bue.state = .settled → s.fdir.recat = none → t = { s with bue := { s.bue with
          frontier := if s.bue.chainEnd = .ended then frontier else .stopped } })
      ∧ (s.bue.state ≠ .settled → s.chainEnded t .ended))
  ∧ (∀ s : State, let t := s.enterProbe
      (12 ≤ s.ntab.nodes.length → s.chainEnded t .nodeLimit)
      ∧ (s.ntab.nodes.length < 12 → t.bue.state = .probe ∧ t.bue.chainEnd = .none ∧ t.bue.frontier = .stopped
        ∧ t.bue.dropping = false ∧ t.bue.deferred = .none ∧ t.bue.units = s.bue.units ∧ t.ntab = s.ntab
        ∧ (s.tdl.line ≠ .down → s.routineEntries < 24 → t.bue.request = .queued
          ∧ t.tdl = { s.tdl with routine := s.tdl.routine ++ [.probe] })
        ∧ (s.tdl.line ≠ .down → 24 ≤ s.routineEntries → t.bue.request = .unplaced .probe ∧ t.tdl = s.tdl)))
  ∧ (∀ (s : State) (pl : List Byte) (e : Nat),
      let halted (t : State) (x : HaltCause) : Prop := t.bue.state = .halted ∧ t.bue.halt = x
        ∧ t.bue.haltPosition = s.ntab.nodes.length ∧ t.hcp.flags.getLsbD 4 = true ∧ t.ntab = s.ntab ∧ t.tdl = s.tdl
      let p := parseProbe pl
      let t := s.probeOutcome (.replied .ok pl e)
      let assigning (x : State) : Prop := x.bue.state = .assign ∧ x.bue.lastProbe = some p
        ∧ (s.freeAddress = none → x.bue.errand = .waitAddress ∧ x.tdl = s.tdl)
        ∧ ∀ a, s.freeAddress = some a → s.tdl.line ≠ .down → s.routineEntries < 24 →
          x.tdl.routine = s.tdl.routine ++ [.assign a p.identity] ∧ x.bue.request = .queued
      halted (s.probeOutcome .collision) .collision ∧ halted (s.probeOutcome .checkError) .collision
      ∧ (∀ st, st ≠ .ok → halted (s.probeOutcome (.replied st pl e)) .badProbe)
      ∧ (16 < p.count → halted t .badProbe)
      ∧ (p.count ≤ 16 →
        (∀ q n, s.ntab.hold = false → s.ntab.nodesKept → s.nodeAt q = some n → n.identity = p.identity →
          (∀ k, k < q → ∀ m, s.nodeAt k = some m → m.identity ≠ p.identity) →
          t.bue.state = .probe ∧ t.ntab.nodes = s.ntab.nodes.take (q - 1) ∧ t.hcp.flags.getLsbD 3 = true)
        ∧ (s.fdir.recat = none → s.ntab.hold = true ∨ (∀ n ∈ s.ntab.nodes, n.identity ≠ p.identity) →
          (p.head = true → 3 ≤ s.bue.units.length → t.bue.state = .probe ∧ t.bue.errand = .closeForUnits
            ∧ ∀ n, s.ntab.nodes.getLast? = some n → s.tdl.line ≠ .down → s.routineEntries < 24 →
              t.tdl.routine = s.tdl.routine ++ [.extend n.address false] ∧ t.bue.request = .queued)
          ∧ (p.head = true → s.bue.units.length < 3 →
              (∀ u, s.bue.units.getLast? = some u → u.outcome ≠ .none) → assigning t ∧ t.bue.units = s.bue.units)
          ∧ (∀ u, p.head = true → s.bue.units.length < 3 → s.bue.units.getLast? = some u → u.outcome = .none →
              t.bue.state = (if s.nvBusy then .matching else .assign)
              ∧ (s.nvBusy = true → t.bue.errand = .thenAssign ∧ t.ktl.waiting = some
                { unit := s.bue.units.length, first := u.first, identity := s.unitIdentity u, digest := u.digest,
                  nodeCount := u.nodeCount }))
          ∧ (p.head = false → assigning t ∧ t.bue.units = s.bue.units.modify (s.bue.units.length - 1) fun u =>
              { u with outcome := .none }))))
  ∧ (∀ (s : State) (a : Addr) (p : ProbeReply) (pl : List Byte) (e : Nat), s.bue.lastProbe = some p →
      (∀ n ∈ s.ntab.nodes, n.address ≠ a) → s.ntab.nodes.length < 12 →
      let t := s.assignOutcome a (.replied .ok pl e)
      let room : Prop := s.tdl.line ≠ .down ∧ s.routineEntries < 24
      (e ≤ 100 → t.ntab.nodes.take s.ntab.nodes.length = s.ntab.nodes ∧ t.bue.tries = 0
        ∧ (∃ n, t.ntab.nodes[s.ntab.nodes.length]? = some n ∧ n.address = a ∧ n.identity = p.identity ∧ n.head = p.head
          ∧ n.count = p.count ∧ n.echo = e ∧ n.admitted = 0 ∧ n.unadmitted = 0 ∧ n.gateOpen = false ∧ n.failures = 0
          ∧ n.unit = (if p.head = true ∨ s.bue.units = [] then s.bue.units.length + 1 else s.bue.units.length)
          ∧ (p.count = 0 → n.state = .live ∧ ∃ v : State, s.catalogueRead v (s.ntab.nodes.length + 1)
            ∧ (s.ntab.nodes.length < 11 → t.bue.state = .extend ∧ t.fdir = v.fdir ∧ t.agenda = v.agenda ∧ t.hcp = v.hcp
              ∧ (room → t.tdl.routine = s.tdl.routine ++ [.extend a true]))
            ∧ (s.ntab.nodes.length = 11 → v.chainEnded t .nodeLimit ∧ t.tdl = s.tdl))
          ∧ (0 < p.count → t.bue.state = .describe ∧ t.bue.nextIndex = 0
            ∧ (room → t.tdl.routine = s.tdl.routine ++ [.describe a 0 false] ∧ n.state = .describing)))
        ∧ ((p.head = true ∨ s.bue.units = []) → t.bue.units.take s.bue.units.length = s.bue.units
          ∧ ∃ u, t.bue.units[s.bue.units.length]? = some u ∧ u.first = s.ntab.nodes.length + 1 ∧ u.headless = !p.head
            ∧ u.nodeCount = 1 ∧ u.digest = 0xFFFF)
        ∧ (∀ u, p.head = false → s.bue.units.getLast? = some u → ∃ v, t.bue.units.getLast? = some v
          ∧ t.bue.units.length = s.bue.units.length ∧ v.first = u.first ∧ v.nodeCount = u.nodeCount + 1))
      ∧ (100 < e → t.ntab = s.ntab ∧ t.bue.units = s.bue.units ∧ t.bue.errand = .windowRelease
        ∧ (room → t.tdl.routine = s.tdl.routine ++ [.release a true])))
  ∧ (∀ (s : State) (a : Addr) (o : ReqOutcome),
      (o = .noReply ∨ o = .checkError ∨ o = .collision ∨ ∃ st pl e, st ≠ .ok ∧ o = .replied st pl e) →
      let t := s.assignOutcome a o
      t.ntab = s.ntab ∧ t.bue.tries = s.bue.tries + 1
      ∧ (s.bue.tries < 2 → s.ntab.nodes.length < 12 → t.bue.state = .probe)
      ∧ (2 ≤ s.bue.tries → t.bue.state = .halted ∧ t.bue.halt = .assignFailed ∧ t.hcp.flags.getLsbD 4 = true))
  ∧ ∀ s : State, s.portSilent = false →
    (s.bue.state ≠ .waitStart → s.bue.state ≠ .halted → exec .startBringUp s = .next (s.answer 4))
    ∧ (s.bue.state = .waitStart → exec .startBringUp s = .next s.enterProbe.taken
        ∧ (s.ntab.nodes.length < 12 → ∃ t : State, exec .startBringUp s = .next t
          ∧ t.bue.state = .probe ∧ t.hcp.response = [0]))
    ∧ (s.bue.state = .halted → s.engineQuiet → s.recatOutstanding = false → ∃ t : State,
        exec .startBringUp s = .next t ∧ t.hcp.response = [0] ∧ t.bue.halt = .none ∧ t.fdir.recat = none
        ∧ (s.bue.halt ≠ .gateRefused ∨ s.ntab.nodes.length < s.bue.haltPosition → ∃ u : State,
            t = u.enterProbe.taken ∧ u.ntab = s.ntab ∧ u.tdl = s.tdl ∧ u.ktl = s.ktl ∧ u.bue.units = s.bue.units)
        ∧ (s.bue.halt = .gateRefused ∧ s.bue.haltPosition ≤ s.ntab.nodes.length → t.bue.state = .extend)
        ∧ (¬ (s.bue.halt = .gateRefused ∧ s.bue.haltPosition ≤ s.ntab.nodes.length) → s.ntab.nodes.length < 12 →
            t.bue.state = .probe ∧ t.bue.tries = 0))

/-- RESTART LINK is taken with OK in every state (R50): every record is retired and none joins the Attention Set, the engine
is IDLE without units, node-end digests or recatalogue (R31), the proofs, lists, pending Drives, guards and confirm entries
are gone (R49), and the monitor, the stored list's contents, the settings and the mask are kept. With the line DOWN the line
stays so; otherwise every node entry is held until the broadcast Release ends, which is placed in the routine class unless
that of an earlier restart waits or is in flight: there is one of them then, and every other request is gone, waiting or in
flight (R20). What the classes hold besides it are the claims that origins make again at once, as far as there is room. When
the restart has ended an attempt in flight they are the retire Drives still to be placed and those that waited for the
outcome of a Drive now abandoned (R87), and the Phase Marks owed (R139). When it has ended none, with no attempt in flight
or that of an earlier restart's Release, they are only the retire Drives that waited for the outcome of a Drive now
abandoned, such as one that a FAULT or a yield has interrupted: its outcome has been reported (R87). That they claim at the
moment the request is abandoned (log entry 48), in this order, the retire Drives in rising handle order (log entry 36), with
the line still BUSY where a yield is due (log entry 55), and that a retire Drive, one that waited until now too, stands
behind the Release and is sent all the same (log entry 34), are the model's choices or inferences. The Release's outcome
SENT frees the entries and completes the restart: in COUPLED the engine leaves IDLE, to PROBE with auto bring-up, otherwise
to WAIT_START; in PARTING it waits for the return to COUPLED (R32, R50). -/
def Obligations.RestartLinkRetiresEverything : Prop :=
  (∀ s : State, s.portSilent = false → ∃ t : State, exec .restartLink s = .next t ∧ t = s.linkRestart.taken
    ∧ s.trailerCleared t ∧ t.fdir.attention = s.fdir.attention
    ∧ (∀ (h : Handle), (s.live h).isSome = true → ∃ r, t.record h = some r ∧ r.reason = some .restart)
    ∧ (∀ n ∈ t.ntab.nodes, n.endDigest = none)
    ∧ t.fixed = { s.fixed with response := [0], stream := .none }
    ∧ (s.tdl.line = .down → t.tdl.line = .down)
    ∧ (s.tdl.line ≠ .down → t.ntab.hold = true ∧ t.bue.restart = .releasing
        ∧ t.ntab.nodes.map (·.address) = s.ntab.nodes.map (·.address)))
  ∧ (∀ s : State, s.tdl.line ≠ .down →
    let releases (l : List Request) : List Request := l.filter fun r => r == .releaseAll
    let u := s.linkRestart
    (s.queued (fun r => r == .releaseAll) = false → releases u.tdl.urgent = [] ∧ releases u.tdl.routine = [.releaseAll]
      ∧ u.tdl.routine.head? = some .releaseAll ∧ u.tdl.inFlight = none)
    ∧ (s.queued (fun r => r == .releaseAll) = true → releases u.tdl.urgent = releases s.tdl.urgent
      ∧ releases u.tdl.routine = releases s.tdl.routine
      ∧ u.tdl.inFlight = s.tdl.inFlight.filter fun f => f.req == .releaseAll))
  ∧ (∀ s : State,
    let kept (l : List Request) : List Request := l.filter fun r => r == .releaseAll
    let head : List Request :=
      if s.tdl.line = .down ∨ s.queued (fun r => r == .releaseAll) = true then kept s.tdl.routine else [.releaseAll]
    let ended : Prop := s.tdl.line ≠ .down ∧ ∃ f, s.tdl.inFlight = some f ∧ f.req ≠ .releaseAll
    let drives (full : Bool) : List Request := (List.finRange 96).filterMap fun h =>
      let drive (b : Addr) (i : FnIndex) (w : OutWord) : Request :=
        .drive { address := b, index := i, handle := h, gen := (s.slot h).gen, word := w, prior := none }
      match (s.slot h).retireDrive with
      | .unplaced b i w => if full then some (drive b i w) else none
      | .awaiting b i w => if s.driveQueued h then some (drive b i w) else none
      | .none | .placed => none
    let flying : Nat := match s.tdl.inFlight with
      | some f => if f.urgent then 0 else 1
      | none => 0
    let owed : List OwedMark := [Generator.pair, .beacon, .virtual].filterMap (fun g => (s.gen g).owed)
      ++ [TurnSide.left, .right].filterMap fun x => s.frt.followOwed[x.number]
    let marks : List Request := if s.lineRuns then owed.map fun m => .phaseMark m.mask m.on else []
    let u := s.linkRestart
    u.tdl.inFlight = s.tdl.inFlight.filter (fun f => f.req == .releaseAll)
    ∧ (¬ ended → u.tdl.urgent = kept s.tdl.urgent ∧ u.tdl.routine =
        if s.tdl.line = .down then head else head ++ (drives false).take (24 - head.length - flying))
    ∧ (ended → u.tdl.routine = head ++ (drives true).take (24 - head.length)
      ∧ u.tdl.urgent = kept s.tdl.urgent ++ marks.take (8 - (kept s.tdl.urgent).length)))
  ∧ ∀ s : State, s.ownerOutcome .releaseAll .sent = s.restartComplete ∧ (let t := s.restartComplete
    t.ntab = { s.ntab with nodes := [], hold := false }
    ∧ (s.bue.restart = .releasing → s.cmon.state = .coupled → t.bue.restart = .none
      ∧ (s.hcp.cfg.autoBringUp = false → t.bue.state = .waitStart ∧ t.tdl = s.tdl)
      ∧ (s.hcp.cfg.autoBringUp = true → t.bue.state = .probe
        ∧ (s.tdl.line ≠ .down → s.routineEntries < 24 → t.bue.request = .queued
          ∧ t.tdl = { s.tdl with routine := s.tdl.routine ++ [.probe] })
        ∧ (s.tdl.line ≠ .down → 24 ≤ s.routineEntries → t.bue.request = .unplaced .probe ∧ t.tdl = s.tdl)))
    ∧ (s.bue.restart = .releasing → s.cmon.state = .parting → t.bue = { s.bue with restart := .onReturn }
      ∧ t.tdl = s.tdl)
    ∧ (s.bue.restart ≠ .releasing ∨ s.cmon.state = .uncoupled ∨ s.cmon.state = .settling →
      t.bue = { s.bue with restart := .none } ∧ t.tdl = s.tdl))

/-- RECATALOGUE: the checks of R82 in their order. Taken by a quiet engine, a recatalogue of the functions of the node
without a live record stands, or none when the list is empty. In the walk a catalogue entry answered is folded into the
unit's digest and offered to the directory, one that is not valid or not admitted is counted unadmitted, and so is an index
without a function; the next index follows, or the node is LIVE with its catalogue read, which its records that are no lamps
leave PROVISIONAL by (R80), and its gate is to be opened (R39, R41, R42); at the twelfth node no Extend is placed, its gate
stays as it is, and the chain ends NODE_LIMIT (R36). In a recatalogue an index that is answered leaves the list: an entry
admitted moves the node's counts by one each, a full directory sets DIR_FULL, and otherwise the counts stay; one that fails
is asked for again (R82). The next Describe follows, after a frontier Probe that was held; a departure that waits, a list
that is empty or an ABANDONED outcome ends it, and each record it admitted that is still PROVISIONAL and no LAMP takes the
catalogue read claim (R83), its confirm entry created (R160). A Describe or an Extend that fails is placed again (R39, R43).
A gate answered OK is open, and the walk goes on at PROBE; one refused halts it; a CLOSE answered ends the chain for the unit
limit or the window limit (R35, R38, R43). -/
def Obligations.RecatalogueListsMissingFunctions : Prop :=
  (∀ d : Half, digestFold d [] = d ∧ ∀ (l : List Byte) (x : Byte), digestFold d (l ++ [x]) =
      (List.range 8).foldl (fun (c : Half) _ => (c <<< 1) ^^^ if c.msb then 0x1021 else 0)
        (digestFold d l ^^^ (x.setWidth 16 <<< 8)))
  ∧ (∀ s : State, s.recatOutstanding = true ↔ ∃ a i, .describe a i true ∈ s.tdl.urgent
      ∨ .describe a i true ∈ s.tdl.routine ∨ ∃ f, s.tdl.inFlight = some f ∧ f.req = .describe a i true)
  ∧   (∀ (s : State) (i : FnIndex) (n : NodeEntry) (u : UnitRec), s.ntab.nodes.getLast? = some n → 1 ≤ n.unit →
    s.bue.units[n.unit - 1]? = some u →
    let room : Prop := s.tdl.line ≠ .down ∧ s.routineEntries < 24
    let folded (t : State) (d : Half) : Prop := (t.bue.units[n.unit - 1]?).map (·.digest) = some d
    let entry (t : State) (d : Half) (admitted unadmitted : Nat) (new : State → Prop) : Prop :=
      ∃ x, t.ntab.nodes.getLast? = some x ∧ t.ntab.nodes.length = s.ntab.nodes.length ∧ x.address = n.address
        ∧ x.admitted = admitted ∧ x.unadmitted = unadmitted ∧ x.gateOpen = n.gateOpen
        ∧ (n.count ≤ s.bue.nextIndex + 1 → x.state = .live ∧ x.endDigest = some d ∧ ∃ v : State,
          s.catalogueRead v s.ntab.nodes.length ∧ new v
          ∧ (s.ntab.nodes.length < 12 → t.bue.state = .extend ∧ t.fdir = v.fdir ∧ t.agenda = v.agenda ∧ t.hcp = v.hcp
            ∧ (room → t.tdl.routine = s.tdl.routine ++ [.extend n.address true]))
          ∧ (12 ≤ s.ntab.nodes.length → v.chainEnded t .nodeLimit ∧ v.tdl = s.tdl ∧ v.ktl = s.ktl
            ∧ v.bue.units = (s.bue.units.modify (n.unit - 1) fun u => { u with digest := d })
            ∧ ∀ u, v.unitIdentity u = s.unitIdentity u))
        ∧ ∀ j : FnIndex, j.val = s.bue.nextIndex + 1 → j.val < n.count → t.bue.nextIndex = j.val
          ∧ (room → t.tdl.routine = s.tdl.routine ++ [.describe n.address j false])
    (∀ pl e, let t := s.describeOutcome i (.replied .ok pl e)
      let d := digestFold u.digest pl
      folded t d
      ∧ (parseEntry pl = none → entry t d n.admitted (n.unadmitted + 1) fun _ => True)
      ∧ (∀ x, parseEntry pl = some x → (∀ h : Handle, (s.record h).isSome = true) →
          entry t d n.admitted (n.unadmitted + 1) (fun _ => True) ∧ t.hcp.flags.getLsbD 6 = true)
      ∧ ∀ x (h : Handle), parseEntry pl = some x → s.record h = none → (∀ k, k < h → (s.record k).isSome = true) →
          entry t d (n.admitted + 1) n.unadmitted (fun v => ∃ r, v.record h = some r ∧ r.entry = x
            ∧ (x.cls = .lamp → r.state = .provisional) ∧ (x.cls ≠ .lamp → r.state = .ready ∧ s.confirmCreated v h r))
          ∧ ∃ r, t.record h = some r ∧ r.entry = x ∧ r.index = i ∧ r.position = s.ntab.nodes.length)
    ∧ (∀ st pl e, st ≠ .ok → let t := s.describeOutcome i (.replied st pl e)
        folded t u.digest ∧ entry t u.digest n.admitted (n.unadmitted + 1) fun _ => True)
    ∧ ∀ o (j : FnIndex), o = .noReply ∨ o = .checkError ∨ o = .collision → j.val = s.bue.nextIndex → j.val < n.count →
        let t := s.describeOutcome i o
        folded t u.digest ∧ t.bue.nextIndex = s.bue.nextIndex
        ∧ (room → t.tdl.routine = s.tdl.routine ++ [.describe n.address j false]))
  ∧ (∀ (s : State) (a : Addr) (opening : Bool) (n : NodeEntry), s.ntab.nodesKept → s.ntab.nodes.getLast? = some n →
      n.address = a →
      let room : Prop := s.tdl.line ≠ .down ∧ s.routineEntries < 24
      let gate (t : State) : Prop := t.ntab.nodes = s.ntab.nodes.map fun x =>
        if x.address = a then { x with gateOpen := opening } else x
      let ended (t : State) : Prop :=
        (s.bue.errand = .closeForUnits → s.chainEnded t .unitLimit ∧ t.hcp.flags.getLsbD 5 = true)
        ∧ (s.bue.errand = .closeForWindow → s.chainEnded t .windowLimit ∧ t.hcp.flags.getLsbD 4 = true)
      (∀ pl e, let t := s.extendOutcome a opening (.replied .ok pl e)
        gate t ∧ (opening = true → s.ntab.nodes.length < 12 → t.bue.state = .probe
            ∧ (room → t.tdl.routine = s.tdl.routine ++ [.probe]))
          ∧ (opening = false → ended t))
      ∧ (∀ st pl e, st ≠ .ok → let t := s.extendOutcome a opening (.replied st pl e)
        t.ntab = s.ntab ∧ (opening = true → t.bue.state = .halted ∧ t.bue.halt = .gateRefused
            ∧ t.bue.haltPosition = s.ntab.nodes.length ∧ t.hcp.flags.getLsbD 4 = true)
          ∧ (opening = false → ended t))
      ∧ ∀ o, o = .noReply ∨ o = .checkError ∨ o = .collision → room →
        (s.extendOutcome a opening o).tdl.routine = s.tdl.routine ++ [.extend a opening])
  ∧ (∀ (s : State) (c : Recatalogue) (a : Addr) (i : FnIndex), s.fdir.recat = some c →
    let answered (u : State) (x : List (Handle × Byte)) : State :=
      { u with fdir := { u.fdir with recat := some { c with indices := c.indices.tail, taken := c.taken ++ x } } }
    (s.bue.dropping = false → ∀ o, s.bueOutcome (.describe a i true) o =
      ({ s with bue := { s.bue with request := .none } } : State).recatOutcome i o)
    ∧ (∀ pl e, parseEntry pl = none → s.recatOutcome i (.replied .ok pl e) = (answered s []).afterRecat)
    ∧ (∀ st pl e, st ≠ .ok → s.recatOutcome i (.replied st pl e) = (answered s []).afterRecat)
    ∧ (∀ pl e x, parseEntry pl = some x → (∀ h : Handle, (s.record h).isSome = true) →
        s.recatOutcome i (.replied .ok pl e) = (answered (s.raise .dirFull) []).afterRecat)
    ∧ (∀ pl e x u pair, parseEntry pl = some x → s.admitEntry c.position i x = (u, some pair) →
        s.recatOutcome i (.replied .ok pl e) = (answered (u.modifyNode c.position fun n =>
          { n with unadmitted := n.unadmitted - 1 }) [pair]).afterRecat)
    ∧ (∀ o, o = .noReply ∨ o = .checkError ∨ o = .collision → s.recatOutcome i o = s.afterRecat)
    ∧ s.recatOutcome i .abandoned = s.endRecat)
  ∧ (∀ (s : State) (c : Recatalogue), s.fdir.recat = some c →
    let t := s.afterRecat
    let room : Prop := s.tdl.line ≠ .down ∧ s.routineEntries < 24
    (s.bue.deferred ≠ .none → t = if c.indices = [] then s.endRecat else s)
    ∧ (s.bue.deferred = .none → s.bue.frontierHeld = true → t.bue.frontierHeld = false
      ∧ t.fdir.recat = (if c.indices = [] then none else some c)
      ∧ (room → t.tdl.routine = s.tdl.routine ++ [.probe] ∧ t.bue.request = .queued))
    ∧ (s.bue.deferred = .none → s.bue.frontierHeld = false → (c.indices = [] → t = s.endRecat)
      ∧ ∀ j l, c.indices = j :: l → t.fdir.recat = some c
        ∧ (room → t.tdl.routine = s.tdl.routine ++ [.describe c.address j true] ∧ t.bue.request = .queued)))
  ∧ (∀ (s : State) (c : Recatalogue), s.fdir.recat = some c → s.endRecat.fdir.recat = none
    ∧ (∀ h g r, (h, g) ∈ c.taken → s.livePair h g = some r → r.state = .provisional → r.cls ≠ .lamp →
        s.endRecat.record h = some { r with
          state := if r.tie.isSome then .bound else .ready, binding := r.tie, intended := none }
        ∧ s.confirmCreated s.endRecat h r)
    ∧ ∀ h r, s.live h = some r → (∀ g, (h, g) ∉ c.taken) ∨ r.state ≠ .provisional ∨ r.cls = .lamp →
        s.endRecat.record h = some r)
  ∧ (∀ (s : State) (d : Departure),
    (s.recatOutstanding = true → s.departOrDefer d = { s with bue := { s.bue with deferred := d } })
    ∧ (s.recatOutstanding = false → (s.departOrDefer d).fdir.recat = none))
  ∧ ∀ (p : BitVec 8) (s : State), s.portSilent = false →
    (¬ (1 ≤ p.toNat ∧ p.toNat ≤ 12) → exec (.recatalogue p) s = .next (s.answer 5))
    ∧ (1 ≤ p.toNat → p.toNat ≤ 12 →
      (s.nodeAt p.toNat = none → exec (.recatalogue p) s = .next (s.answer 9))
      ∧ ∀ n, s.nodeAt p.toNat = some n →
        (n.state = .assigned ∨ n.state = .describing → exec (.recatalogue p) s = .next (s.answer 4))
        ∧ (n.state ≠ .assigned → n.state ≠ .describing →
          ((s.bue.state ≠ .settled ∧ s.bue.state ≠ .halted) ∨ s.fdir.recat ≠ none →
            exec (.recatalogue p) s = .next (s.answer 2))
          ∧ (s.bue.state = .settled ∨ s.bue.state = .halted → s.fdir.recat = none →
              exec (.recatalogue p) s = .next (s.startRecat p.toNat).taken
              ∧ (∀ i, i ∈ s.missingIndices p.toNat n.count ↔ i.val < n.count ∧ s.recordOf p.toNat i = none)
              ∧ (s.missingIndices p.toNat n.count).Pairwise (fun i j => i < j)
              ∧ (∀ i l, s.missingIndices p.toNat n.count = i :: l → s.bue.request = .none → s.tdl.line ≠ .down →
                  s.routineEntries < 24 →
                  (s.startRecat p.toNat).tdl.routine = s.tdl.routine ++ [.describe n.address i true])
              ∧ (s.engineQuiet → (s.startRecat p.toNat).taken.fdir.recat =
                  if s.missingIndices p.toNat n.count = [] then none
                  else some { position := p.toNat, address := n.address,
                              indices := s.missingIndices p.toNat n.count, taken := [] }))))

/-! ### The stored list -/

/-- WRITE ENABLE and WRITE DISABLE (R182). -/
def Obligations.WriteEnableLatch : Prop :=
  ∀ s : State, s.portSilent = false →
    exec .writeEnable s = .next (
      if s.ktl.scanning = true ∨ s.ktl.write ≠ none then s.answer 2
      else if s.hcp.nvlock = true then s.answer 7
      else (s.setKtl { s.ktl with wel := true }).answer 0)
    ∧ exec .writeDisable s = .next (
      if s.ktl.scanning = true then s.answer 2 else (s.setKtl { s.ktl with wel := false }).answer 0)

/-- The checks of R183 that every write command makes, in their order, and what each does to WEL. -/
def Obligations.WriteCommandsCheckInOrder : Prop :=
  ∀ (c : Instr) (b : BitVec 8) (s : State), s.portSilent = false →
    (c = .rememberUnit b ∨ c = .eraseEntry b ∨ c = .pinEntry b ∨ c = .unpinEntry b ∨ c = .eraseList) →
    (s.ktl.scanning = true ∨ s.ktl.write ≠ none → exec c s = .next (s.answer 2))
    ∧ (s.ktl.scanning = false → s.ktl.write = none →
      (s.hcp.nvlock = true → exec c s = .next ((s.setWel false).answer 7))
      ∧ (s.hcp.nvlock = false → s.ktl.wel = false → exec c s = .next (s.answer 6))
      ∧ (s.hcp.nvlock = false → s.ktl.wel = true →
        (c = .rememberUnit b → ¬ (1 ≤ b.toNat ∧ b.toNat ≤ 3) → exec c s = .next ((s.setWel false).answer 5))
        ∧ (c = .eraseEntry b ∨ c = .pinEntry b ∨ c = .unpinEntry b → 16 ≤ b.toNat →
            exec c s = .next ((s.setWel false).answer 5))))

/-- ERASE ENTRY, PIN ENTRY, UNPIN ENTRY and ERASE LIST after the common checks (R187, R188, R189): the entry's own
condition, or ACCEPTED with the write in the slot and WEL kept. ERASE LIST with every entry PINNED ends at once. -/
def Obligations.EntryWritesFillTheSlot : Prop :=
  ∀ (b : BitVec 8) (i : Fin 16) (s : State), s.portSilent = false → i.val = b.toNat →
    s.ktl.scanning = false → s.ktl.write = none → s.hcp.nvlock = false → s.ktl.wel = true →
    let e := s.ktlEntry i
    let erase : KtlWrite := { kind := .erase, target := i, content := KtlEntry.blank, limit := s.now + ms 20 }
    let pin : KtlWrite := { kind := .pin, target := i, content := { e with state := .pinned }, limit := s.now + ms 6 }
    let unpin : KtlWrite := { kind := .unpin, target := i, content := { e with state := .valid }, limit := s.now + ms 6 }
    let eraseAll : KtlWrite := { kind := .eraseList, target := 0, content := KtlEntry.blank, limit := s.now + ms 40 }
    exec (.eraseEntry b) s = .next (
      if e.state = .pinned then (s.setWel false).answer 7
      else (s.setKtl { s.ktl with write := some erase }).accepted)
    ∧ exec (.pinEntry b) s = .next (
      if e.state = .valid then (s.setKtl { s.ktl with write := some pin }).accepted
      else (s.setWel false).answer 4)
    ∧ exec (.unpinEntry b) s = .next (
      if e.state = .pinned then (s.setKtl { s.ktl with write := some unpin }).accepted
      else (s.setWel false).answer 4)
    ∧ exec .eraseList s = .next (
      if ∀ k, (s.ktlEntry k).state = .pinned then
        ((s.setKtl { s.ktl with wel := false, last := .ok }).raise .nvDone).accepted
      else (s.setKtl { s.ktl with write := some eraseAll }).accepted)

/-- REMEMBER UNIT after the common checks (R185, R186): its own conditions in their order, or ACCEPTED with the snapshot
of the unit in the write slot and the use counter one higher. The entry written is the VALID one that holds the identity,
else the lowest EMPTY one, else the VALID one with the smallest stamp, the lowest index among equals (R186). The hints are
those of the unit's live records with a tie, in rising handle order (R185). -/
def Obligations.RememberUnitSnapshots : Prop :=
  (∀ (s : State) (id : Identity),
    let mine (i : Fin 16) : Prop := (s.ktlEntry i).state = .valid ∧ (s.ktlEntry i).identity = id
    (∀ i, mine i → (∀ j, j < i → ¬ mine j) → s.chooseEntry id = some i)
    ∧ (∀ i, (∀ j, ¬ mine j) → (s.ktlEntry i).state = .empty → (∀ j, j < i → (s.ktlEntry j).state ≠ .empty) →
        s.chooseEntry id = some i)
    ∧ (∀ i, (∀ j, ¬ mine j) → (∀ j, (s.ktlEntry j).state ≠ .empty) → (s.ktlEntry i).state = .valid →
        (∀ j, j ≠ i → (s.ktlEntry j).state = .valid → (s.ktlEntry i).stamp < (s.ktlEntry j).stamp
          ∨ (s.ktlEntry i).stamp = (s.ktlEntry j).stamp ∧ i < j) → s.chooseEntry id = some i)
    ∧ ((∀ j, (s.ktlEntry j).state = .pinned) → s.chooseEntry id = none))
  ∧ (∀ (s : State) (number first : Nat), ∃ l : List Handle, l.Pairwise (fun a b => a < b)
    ∧ (∀ h, h ∈ l ↔ ∃ r x, s.live h = some r ∧ r.unit = number ∧ r.tie = some x)
    ∧ s.unitHints number first = l.filterMap fun h => (s.live h).bind fun r => r.tie.map fun x =>
        { position := r.position + 1 - first, index := r.index, source := x })
  ∧ ∀ (b : BitVec 8) (s : State), s.portSilent = false → 1 ≤ b.toNat → b.toNat ≤ 3 →
    s.ktl.scanning = false → s.ktl.write = none → s.hcp.nvlock = false → s.ktl.wel = true →
    exec (.rememberUnit b) s = .next (match s.bue.units[b.toNat - 1]? with
      | none => (s.setWel false).answer 9
      | some u =>
          if u.outcome = .none then (s.setWel false).answer 4
          else if ∃ k, (s.ktlEntry k).state = .pinned ∧ (s.ktlEntry k).identity = s.unitIdentity u then
            (s.setWel false).answer 7
          else match s.chooseEntry (s.unitIdentity u) with
            | none => (s.setWel false).answer 8
            | some i =>
                let n := min 4294967295 (s.ktl.useCounter + 1)
                let hints := s.unitHints b.toNat u.first
                let e : KtlEntry :=
                  { state := .valid, identity := s.unitIdentity u, digest := u.digest, nodeCount := u.nodeCount
                    hints := hints.take 24, stamp := n }
                let w : KtlWrite :=
                  { kind := .remember (24 < hints.length), target := i, content := e, limit := s.now + ms 6 }
                (s.setKtl { s.ktl with useCounter := n, write := some w }).accepted)

/-- KTL READ answers BUSY during the scan or a write, BAD_VALUE for an index outside 0 to 15, and otherwise the entry's
image, an EMPTY entry with every other field zero. It changes nothing (R192, with the layout of R215). -/
def Obligations.KtlReadShowsEntry : Prop :=
  ∀ (b : BitVec 8) (s : State), s.portSilent = false →
    (s.ktl.scanning = true ∨ s.ktl.write ≠ none →
      exec (.ktlRead b) s = .next (s.setResponse (2 :: List.replicate 66 0) .none))
    ∧ (s.ktl.scanning = false → s.ktl.write = none →
      (16 ≤ b.toNat → exec (.ktlRead b) s = .next (s.setResponse (5 :: List.replicate 66 0) .none))
      ∧ ∀ i : Fin 16, i.val = b.toNat →
        ((s.ktlEntry i).state = .empty →
          exec (.ktlRead b) s = .next (s.setResponse (0 :: b :: List.replicate 65 0) .none))
        ∧ ((s.ktlEntry i).state ≠ .empty → (s.ktlEntry i).hints.length ≤ 24 →
          let e := s.ktlEntry i
          exec (.ktlRead b) s = .next (s.setResponse
            (0 :: b :: byte e.state.code :: (identityBytes e.identity ++ halfBytes e.digest
              ++ [byte e.nodeCount, byte e.hints.length]
              ++ (e.hints.flatMap fun x => [byte (16 * x.position + x.index.val), byte x.source.val])
              ++ List.replicate (48 - 2 * e.hints.length) 0 ++ natBytes4 e.stamp)) .none)))

/-! ### The Coupling Monitor and the line's state -/

/-- What the edges of the filtered COUPLE_SENSE do to the monitor, in each of its states (R27, R29, R30), and that nothing
else of what the trailer's side leaves alone changes. At the return to COUPLED from PARTING the line enters FAULT while
LINE_PRESENT is withdrawn (R24), and goes on as it was otherwise; an engine waiting in IDLE after a link restart leaves IDLE
(R28, R32, R50). -/
def Obligations.CoupleSenseMovesMonitor : Prop :=
  ∀ s : State, s.hcp.inReset = false →
    (s.cmon.sense = false → ∃ t : State, exec .coupleSenseAsserted s = .next t
      ∧ t.fixed = { s.fixed with cmon := t.cmon }
      ∧ (s.cmon.state = .uncoupled → s.tdl.linePresent = true →
          t.cmon = { s.cmon with sense := true, state := .settling, settle := some (s.now + ms 300) })
      ∧ (s.cmon.state = .uncoupled → s.tdl.linePresent = false → t.cmon = { s.cmon with sense := true })
      ∧ (s.cmon.state = .parting → s.cmon.lineLost = false →
          t.cmon = { s.cmon with sense := true, state := .coupled, part := none }
          ∧ (s.tdl.linePresent = false → s.tdl.line ∈ [.ready, .busy, .yielded, .reclaiming] →
              t.tdl.line = .fault ∧ t.tdl.inFlight = none ∧ t.tdl.faultEnds = some (s.now + ms 1000)
              ∧ t.hcp.flags.getLsbD 8 = true ∧ (s.engineQuiet → ∀ n ∈ t.ntab.nodes, n.state ≠ .live))
          ∧ (s.tdl.linePresent = true ∨ s.tdl.line ∉ [.ready, .busy, .yielded, .reclaiming] →
              (s.tdl.line ≠ .ready → t.tdl.line = s.tdl.line)
              ∧ (s.tdl.line = .ready → t.tdl.line = .ready ∨ t.tdl.line = .busy))
          ∧ (s.bue.restart = .onReturn → (s.hcp.cfg.autoBringUp = false → s.engineQuiet → t.bue.state = .waitStart)
              ∧ (s.hcp.cfg.autoBringUp = true → s.ntab.nodes.length < 12 → t.bue.state = .probe))
          ∧ (s.bue.restart ≠ .onReturn → s.engineQuiet → t.bue.state = s.bue.state))
      ∧ (s.cmon.state = .parting → s.cmon.lineLost = true → t.cmon = { s.cmon with
          sense := true, part := none, lineLost := false
          state := if s.tdl.linePresent then .settling else .uncoupled
          settle := if s.tdl.linePresent then some (s.now + ms 300) else none }))
    ∧ (s.cmon.sense = true → ∃ t : State, exec .coupleSenseWithdrawn s = .next t
      ∧ t.fixed = { s.fixed with cmon := t.cmon }
      ∧ (s.cmon.state = .settling → t.cmon = { s.cmon with
          sense := false, state := .uncoupled, settle := none, part := none, lineLost := false })
      ∧ (s.cmon.state = .coupled →
          t.cmon = { s.cmon with sense := false, state := .parting, part := some (s.now + ms 100) })
      ∧ (s.cmon.state = .uncoupled ∨ s.cmon.state = .parting → t.cmon = { s.cmon with sense := false }))

/-- What LINE_PRESENT does: asserted, it may begin a settle (R27); withdrawn, it ends one (R27), makes a FAULT in COUPLED
(R24), and does neither in PARTING (R24, R29), where a READY line stays so or grants what waits (R18). -/
def Obligations.LinePresentSettlesOrFaults : Prop :=
  ∀ s : State, s.hcp.inReset = false →
    (s.tdl.linePresent = false → ∃ t : State, exec .linePresentAsserted s = .next t
      ∧ t.fixed = { s.fixed with cmon := t.cmon, linePresent := true }
      ∧ t.cmon = if s.cmon.state = .uncoupled ∧ s.cmon.sense = true
          then { s.cmon with state := .settling, settle := some (s.now + ms 300) } else s.cmon)
    ∧ (s.tdl.linePresent = true → ∃ t : State, exec .linePresentWithdrawn s = .next t
      ∧ t.fixed = { s.fixed with cmon := t.cmon, linePresent := false }
      ∧ (s.cmon.state = .settling →
          t.cmon = { s.cmon with state := .uncoupled, settle := none, part := none, lineLost := false })
      ∧ (s.cmon.state ≠ .settling → t.cmon = s.cmon)
      ∧ (s.cmon.state = .coupled → s.tdl.line ∈ [.ready, .busy, .yielded, .reclaiming] →
          t = ((s.setLinePresent false).enterFault).finish false
          ∧ t.tdl.line = .fault ∧ t.tdl.inFlight = none ∧ t.tdl.faultEnds = some (s.now + ms 1000)
          ∧ t.hcp.flags.getLsbD 8 = true ∧ (s.engineQuiet → ∀ n ∈ t.ntab.nodes, n.state ≠ .live))
      ∧ (s.cmon.state = .coupled → s.tdl.line ∉ [.ready, .busy, .yielded, .reclaiming] → t.tdl.line = s.tdl.line)
      ∧ (s.cmon.state = .parting → s.tdl.line ≠ .ready → t.tdl.line = s.tdl.line)
      ∧ (s.cmon.state = .parting → s.tdl.line = .ready → t.tdl.line = .ready ∨ t.tdl.line = .busy))

/-- The settle timer brings the monitor to COUPLED, sets the COUPLED flag, takes the line out of DOWN, and the engine out
of IDLE: to PROBE with auto bring-up, otherwise to WAIT_START (R28, R32). That the clock stands at the timer's moment at
the earliest is the model's choice (log entry 2). -/
def Obligations.SettleTimerCouples : Prop :=
  ∀ (s : State) (e : Nat), s.hcp.inReset = false → s.cmon.settle = some e →
    ∃ t : State, exec .settleTimerExpiry s = .next t
      ∧ t.fixed = { s.fixed with now := max s.now e, cmon := { s.cmon with state := .coupled, settle := none } }
      ∧ t.hcp.flags.getLsbD 0 = true ∧ (t.tdl.line = .ready ∨ t.tdl.line = .busy)
      ∧ (s.hcp.cfg.autoBringUp = false → s.engineQuiet → t.bue.state = .waitStart)
      ∧ (s.hcp.cfg.autoBringUp = true → s.ntab.nodes = [] → t.bue.state = .probe)

/-- The part timer ends a parting with the parting teardown (R29, R49), the fault timer a FAULT with the line loss teardown
(R25, R30, R66): the line is DOWN with its queue empty, no node entry stands and the presence tick is stopped (R67), the
engine is IDLE, and every record is retired with the teardown's reason and stands in the Attention Set. The proofs, the
source lists, the pending-drive set, the guards and the confirm entries are emptied, and the sources and channels kept (R49,
R66, R134), as State.trailerCleared has them. That the clock stands at the timer's moment at the earliest, and a new settle
is counted from there, is the model's choice (log entry 2). -/
def Obligations.TeardownsTakeTheTrailerDown : Prop :=
  ∀ (s : State) (e : Nat), s.hcp.inReset = false →
    (s.cmon.part = some e → ∃ t : State, exec .partTimerExpiry s = .next t ∧ s.tornDown t .uncoupled
      ∧ t.hcp.flags.getLsbD 1 = true ∧ t.fixed = { s.fixed with now := max s.now e, cmon := t.cmon }
      ∧ (s.cmon.sense = false → t.cmon = { s.cmon with
          state := .uncoupled, settle := none, part := none, lineLost := false }))
    ∧ (s.tdl.faultEnds = some e → ∃ t : State, exec .faultTimerExpiry s = .next t ∧ s.tornDown t .line
      ∧ t.fixed = { s.fixed with now := max s.now e, cmon := t.cmon }
      ∧ (s.cmon.state = .parting → t.cmon = { s.cmon with lineLost := true })
      ∧ (s.cmon.state = .coupled → ¬ (s.cmon.sense = true ∧ s.tdl.linePresent = true) → t.cmon = { s.cmon with
          state := .uncoupled, settle := none, part := none, lineLost := false })
      ∧ (s.cmon.state = .coupled → s.cmon.sense = true → s.tdl.linePresent = true → t.cmon = { s.cmon with
          state := .settling, settle := some (max s.now e + ms 300), part := none, lineLost := false }))

/-- A line request in READY or BUSY makes a yield at once when no attempt is in progress on the line, and after the reply
window otherwise. While a reply is being received it ends the attempt CHECK_ERROR: a request with its second attempt to come
is interrupted, a failed one has its outcome reported first (R19, R22). On entry to YIELDED the last-heard clocks, the
presence tick, the frontier timer and the confirm deadlines stand still with what is left, and on entry to READY they run on
from there (R46, R57, R58, R60, R161). The tool's return, or the yield limit with the reclaim mark, ends the yield (R23).
That the clock stands at the yield limit's moment at the earliest, and the mark is counted from there, is the model's choice
(log entry 2). That an owed Phase Mark is claimed again while the line is still BUSY, before a yield due at the attempt's
end begins, is the model's choice (log entry 55). -/
def Obligations.YieldsBeginAndEnd : Prop :=
  (∀ s : State, s.stoodStill s.enterYielded
    ∧ (s.driving = true ↔ s.tdl.orphan ≠ none ∨ ∃ f e, s.tdl.inFlight = some f ∧ f.stage = .sending e)
    ∧ s.yieldIfDue = (if s.tdl.yieldDue = true ∧ s.tdl.line = .busy then s.enterYielded else s)
    ∧ s.runsOn s.unfreeze
    ∧ s.enterReady .none = (({ s with tdl := { s.tdl with
        line := .ready, yieldEnds := none, reclaim := .idle, faultEnds := none } } : State).unfreeze
        ).resync.callDrain.callPass)
  ∧ ∀ s : State, s.hcp.inReset = false →
    (s.lineRuns = true → s.driving = false → (∀ f, s.tdl.inFlight = some f → f.stage = .due) →
      ∃ t : State, exec .lineRequest s = .next t ∧ t = s.enterYielded.finish false ∧ t.tdl.line = .yielded
        ∧ t.tdl.inFlight = none
        ∧ t.tdl.yieldEnds = some (s.now + ms s.hcp.cfg.yieldLimit) ∧ t.hcp.flags.getLsbD 7 = true
        ∧ t.fixed = s.fixed)
    ∧ (∀ f a b e, s.tdl.line = .busy → s.driving = false → s.tdl.inFlight = some f → f.stage = .window a b e →
      ∃ t : State, exec .lineRequest s = .next t ∧ t.tdl.line = .busy ∧ t.tdl.inFlight = s.tdl.inFlight
        ∧ t.tdl.yieldDue = true ∧ t.fixed = s.fixed)
    ∧ (∀ f n, s.tdl.line = .busy → s.driving = false → s.tdl.inFlight = some f → f.stage = .replying n →
      (f.second = false → ∃ u : State, exec .lineRequest s = .next (u.finish false) ∧ s.yieldedFrom u f s.now)
      ∧ (f.second = true → exec .lineRequest s = .next (((((s.setTdl { s.tdl with yieldDue := true }).restartGap
          ).reportOutcome f.req (f.req.failedOutcome .checkError)).onAttemptEnd.yieldIfDue).finish false)))
    ∧ (s.lineRuns = false → exec .lineRequest s = .next s)
    ∧ (s.tdl.line = .yielded → ∃ t : State, exec .toolLineReturn s = .next t
        ∧ t = (s.restartGap.enterReady .none).finish false ∧ (t.tdl.line = .ready ∨ t.tdl.line = .busy) ∧ t.fixed = s.fixed)
    ∧ (∀ e, s.tdl.yieldEnds = some e → ∃ t : State, exec .yieldLimitExpiry s = .next t
        ∧ t.tdl.line = .reclaiming ∧ t.tdl.yieldEnds = none ∧ t.tdl.reclaim = .mark (max s.now e + ms 2)
        ∧ t.fixed = { s.fixed with now := max s.now e })

/-- A reclaim: the watch after the mark, READY when the line stays high, FAULT after 20 ms (R23, R24); and the recovery of a
line in FAULT (R25). The sweep that follows either puts its Hails at the head of the routine class in chain order, in place
of those waiting for the same addresses (R17, R61). Where the class has no room, the newest waiting requests are taken out,
one for each entry needed, and each is refused back to its origin (R17), the newest first (log entry 41), the newest being
those nearest the tail of the class (log entry 59): a Drive returns to the pending-drive set with its word, its last placed
output set back (R127), a retire Drive is to be placed again (R87), and so is the request of a proof or of the engine,
unless nothing waits for its outcome any more (log entry 30); a Hail comes with a later tick. A cut's Release taken out is
placed again behind the sweep (R64). On entry to FAULT the clocks and timers stand still and LIVE entries become SUSPECT,
and on entry to READY they run on (R46, R57, R58, R60, R161). That a Release stands behind an earlier cut's where a request
interrupted stands ahead of that is log entry 39. That the clock stands at an event's moment at the earliest is the model's
choice (log entry 2). -/
def Obligations.ReclaimsAndRecoveries : Prop :=
  (∀ (s : State) (cause : Sweep), s.ntab.hold = false →
    let nodes := s.ntab.nodes.filter fun n => n.state == .live || n.state == .suspect
    let rest := s.tdl.routine.filter fun r => !nodes.any fun n => r.isHailTo n.address
    let room := (s.setRoutine rest).makeRoom Request.isRestartRelease nodes.length
    let t := room.1.setRoutine (nodes.map (fun n => .hail n.address cause) ++ room.1.tdl.routine)
    s.sweep cause = (if room.2 = [] then t else t.placeReleases room.2)
    ∧ ((s.setRoutine rest).routineEntries + nodes.length ≤ 24 →
      s.sweep cause = s.setRoutine (nodes.map (fun n => .hail n.address cause) ++ rest)))
  ∧ (∀ (keep : Request → Bool) (k : Nat) (q : List Request),
    let x := takeOutNewest keep k q
    let free := q.filter fun r => !keep r
    x.2 = free.reverse.take k ∧ x.1.Sublist q ∧ x.1.filter keep = q.filter keep
    ∧ x.1.filter (fun r => !keep r) = free.take (free.length - k))
  ∧ (∀ (s : State) (keep : Request → Bool) (n : Nat),
    let x := takeOutNewest keep (s.routineEntries + n - 24) s.tdl.routine
    s.makeRoom keep n = (x.2.foldl State.refuseBack (s.setRoutine x.1), (x.2.filter Request.isCutRelease).reverse))
  ∧ (∀ (s : State) (d : DriveReq),
    (∀ r, s.livePair d.handle d.gen = some r → let t := s.refuseBack (.drive d)
      t.record d.handle = some { r with drive := r.drive.map fun x => { x with lastPlaced := d.prior } }
      ∧ t.agenda.drain = true ∧ t.tdl = s.tdl
      ∧ t.drt.pend = if s.pendHolds d.handle then s.drt.pend else s.drt.pend ++
          [{ handle := d.handle, gen := d.gen, word := d.word, time := s.now, urgent := false }])
    ∧ (s.livePair d.handle d.gen = none → s.refuseBack (.drive d) =
        if (s.slot d.handle).retireDrive = .placed then
          s.modifySlot d.handle fun x => { x with retireDrive := .unplaced d.address d.index d.word }
        else s))
  ∧ (∀ (s : State) (r : Request),
    (∀ p, s.prv.proof = some p → (∃ a i, r = .prove a i) ∨ (∃ a i h g, r = .sample .proving a i h g) →
      s.refuseBack r = s.setProof (if p.stage = .draining then none else some { p with placed := false }))
    ∧ (∀ w : WalkReq, r = w.request →
      s.refuseBack r = s.setBue { s.bue with request := if s.bue.dropping then .none else .unplaced w })
    ∧ ((∃ a x, r = .hail a x) ∨ (∃ a, r = .release a false) → s.refuseBack r = s))
  ∧ (∀ (s : State) (l : List Request),
    let ahead (r : Request) : Bool := r.isSweepHail || r.isCutRelease
    let u := (s.makeRoom (fun r => ahead r || r.isRestartRelease) l.length).1
    ∃ a b : List Request, u.tdl.routine = a ++ b ∧ (∀ r, a.getLast? = some r → ahead r = true) ∧ (∀ r ∈ b, ahead r = false)
      ∧ s.placeReleases l = u.setRoutine (a ++ l ++ b))
  ∧ (∀ (s : State) (cause : Sweep),
    let u : State := ({ s with tdl := { s.tdl with
      line := .ready, yieldEnds := none, reclaim := .idle, faultEnds := none } } : State).unfreeze
    s.enterReady cause = (if cause = .none then u else u.sweep cause).resync.callDrain.callPass ∧ s.runsOn u)
  ∧ (∀ s : State, ∃ v : State, s.stoodStill v ∧ s.enterFault = v.setNtab { v.ntab with
      nodes := v.ntab.nodes.map fun n => if n.state = .live then { n with state := .suspect } else n })
  ∧ ∀ s : State, s.hcp.inReset = false →
    (∀ e, s.tdl.line = .reclaiming → s.tdl.reclaim = .mark e → ∃ t : State, exec .reclaimMarkEnd s = .next t
      ∧ t.tdl.line = .reclaiming ∧ t.tdl.reclaim = .watch (max s.now e) ∧ t.fixed = { s.fixed with now := max s.now e })
    ∧ (∀ m, s.tdl.reclaim = .watch m →
      (∃ t : State, exec .reclaimSuccess s = .next t ∧ (t.tdl.line = .ready ∨ t.tdl.line = .busy)
        ∧ t = (((s.advanceTo (m + ms 1)).advanceTo s.tdl.gapEnds).enterReady .reclaim).finish false
        ∧ t.fixed = { s.fixed with now := max (max s.now (m + ms 1)) s.tdl.gapEnds })
      ∧ ∃ t : State, exec .reclaimTimeout s = .next t ∧ t = ((s.advanceTo (m + ms 20)).enterFault).finish false
        ∧ t.tdl.line = .fault ∧ t.tdl.reclaim = .idle
        ∧ t.tdl.faultEnds = some (max s.now (m + ms 20) + ms 1000) ∧ t.hcp.flags.getLsbD 8 = true
        ∧ t.fixed = { s.fixed with now := max s.now (m + ms 20) })
    ∧ (s.tdl.line = .fault → s.tdl.linePresent = true → s.tdl.faultEnds.isSome = true →
      ∃ t : State, exec .lineRecovery s = .next t ∧ (t.tdl.line = .ready ∨ t.tdl.line = .busy)
        ∧ t = ((s.advanceTo s.tdl.gapEnds).enterReady .fault).finish false
        ∧ t.fixed = { s.fixed with now := max s.now s.tdl.gapEnds })

/-! ### Attempts -/

/-- How requests come to the line. The request in flight keeps its entry in its class (R14). A claim is taken, merged or
refused as R15 and R16 give. The arbiter grants the urgent head, or the routine head when no urgent request waits or eight
urgent grants in a row have been made while it waited (R18). Once the gap has passed a due attempt begins: the frame goes out
with the next bit of its address, a second attempt with the bit of the first, and with the word of the pending entry of a
Drive's handle, which leaves the set (R7, R8, R10, R11, R12); with no request in flight the line is READY again, or BUSY with
the next grant (R18, R21). That the clock stands at the gap's end at the earliest, and the frame's end is counted from there,
is the model's choice (log entry 2). -/
def Obligations.GapEndBeginsAttempts : Prop :=
  (∀ (s : State) (p : Request → Bool),
    let flying (urgent : Bool) (p : Request → Bool) : Nat := match s.tdl.inFlight with
      | some f => if f.urgent = urgent ∧ p f.req = true then 1 else 0
      | none => 0
    s.urgentEntries = s.tdl.urgent.length + flying true (fun _ => true)
    ∧ s.routineEntries = s.tdl.routine.length + flying false (fun _ => true)
    ∧ s.urgentDriveEntries = (s.tdl.urgent.filter Request.isDrive).length + flying true Request.isDrive
    ∧ (s.queued p = true ↔ ∃ r, p r = true ∧ (r ∈ s.tdl.urgent ∨ r ∈ s.tdl.routine
      ∨ ∃ f, s.tdl.inFlight = some f ∧ f.req = r)))
  ∧   (∀ (s : State) (r : Request), s.claimRoutine r =
    if s.tdl.line = .down then (s, .down)
    else if s.routineEntries < 24 then (s.setRoutine (s.tdl.routine ++ [r]), .taken) else (s, .full))
  ∧ (∀ (s : State) (m : BitVec 4) (on : Bool), s.claimMark m on =
    if s.tdl.line ≠ .ready ∧ s.tdl.line ≠ .busy then (s, .down)
    else if s.urgentEntries < 8 then (s.setUrgent (s.tdl.urgent ++ [.phaseMark m on]), .taken) else (s, .full))
  ∧ (∀ (s : State) (d : DriveReq) (urgent : Bool),
    let carry (l : List Request) : List Request := l.map fun r => match r with
      | .drive x => if x.handle = d.handle then .drive { x with word := d.word } else r
      | _ => r
    let inFlight : Prop := ∃ f x, s.tdl.inFlight = some f ∧ f.req = .drive x ∧ x.handle = d.handle
    let waits (l : List Request) : Prop := ∃ x, .drive x ∈ l ∧ x.handle = d.handle
    (s.tdl.line = .down → s.claimDrive d urgent = (s, .down))
    ∧ (s.tdl.line ≠ .down →
      (inFlight → s.claimDrive d urgent = (s, .inFlight))
      ∧ (¬ inFlight → waits s.tdl.urgent → s.claimDrive d urgent = (s.setUrgent (carry s.tdl.urgent), .merged))
      ∧ (¬ inFlight → ¬ waits s.tdl.urgent → waits s.tdl.routine →
          s.claimDrive d urgent = (s.setRoutine (carry s.tdl.routine), .merged))
      ∧ (¬ inFlight → ¬ waits s.tdl.urgent → ¬ waits s.tdl.routine →
          s.claimDrive d urgent =
            if urgent = true then
              if s.urgentDriveEntries < 6 ∧ s.urgentEntries < 8 then (s.setUrgent (s.tdl.urgent ++ [.drive d]), .taken)
              else (s, .full)
            else if s.routineEntries < 24 then (s.setRoutine (s.tdl.routine ++ [.drive d]), .taken) else (s, .full))))
  ∧ (∀ s : State, (s.tdl.line ≠ .ready ∨ s.tdl.inFlight ≠ none ∨ s.tdl.urgent = [] ∧ s.tdl.routine = []) → s.arbitrate = s)
  ∧ (∀ s : State, s.tdl.line = .ready → s.tdl.inFlight = none →
    (∀ u us, s.tdl.urgent = u :: us → s.tdl.routine = [] ∨ s.tdl.urgentRun < 8 →
      s.granted s.arbitrate u true us s.tdl.routine (if s.tdl.routine = [] then 0 else s.tdl.urgentRun + 1))
    ∧ (∀ r rs, s.tdl.routine = r :: rs → s.tdl.urgent = [] ∨ 8 ≤ s.tdl.urgentRun →
      s.granted s.arbitrate r false s.tdl.urgent rs 0))
  ∧ ∀ s : State, s.hcp.inReset = false → s.tdl.line = .busy → s.tdl.orphan = none →
    (s.tdl.inFlight = none → ∃ t : State, exec .gapEnd s = .next t ∧ (t.tdl.line = .ready ∨ t.tdl.line = .busy)
      ∧ t.fixed = { s.fixed with now := max s.now s.tdl.gapEnds })
    ∧ (∀ f d p, s.tdl.inFlight = some f → f.stage = .due → f.second = true → f.req = .drive d →
      s.drt.pend.find? (fun q => q.handle == d.handle) = some p →
      let r : Request := .drive { d with word := p.word }
      ∃ u : State, exec .gapEnd s = .next (u.finish false) ∧ u.tdl.frame = r.frame f.seq
        ∧ u.tdl.inFlight = some { f with
            req := r, window := s.windowOf f.req, stage := .sending (max s.now s.tdl.gapEnds + 25) }
        ∧ u.drt.pend = s.drt.pend.filter (fun q => !(q.handle == d.handle))
        ∧ (∀ x, s.live d.handle = some x → u.record d.handle = some { x with
            drive := x.drive.map fun y => { y with lastPlaced := some p.word } })
        ∧ u.fixed = { s.fixed with now := max s.now s.tdl.gapEnds })
    ∧ ∀ f, s.tdl.inFlight = some f → f.stage = .due →
      (f.second = true → ∀ d, f.req = .drive d → s.pendHolds d.handle = false) →
      let seq := if f.second then f.seq else match f.req.address with
        | some a => s.tdl.nextBit[a]
        | none => false
      let ends := max s.now s.tdl.gapEnds + 5 * (f.req.frame seq).length
      ∃ t : State, exec .gapEnd s = .next t ∧ t.tdl.line = .busy ∧ t.tdl.frame = f.req.frame seq
        ∧ t.tdl.inFlight = some { f with seq := seq, window := s.windowOf f.req, stage := .sending ends }
        ∧ t.fixed = { s.fixed with now := max s.now s.tdl.gapEnds }

/-- A request's frame is laid out by its kind and ends with a check, the remainder of all that follows the lead character
(R3, R5, R6, R212). The reply window is that of the destination's unit, or of a request to address 0; an AUTO window is the
least in whole milliseconds that holds the unit's largest echo delay and 2 ms, within 2 to 12 (R8, R9). The end of a frame
opens the reply window, for a Prove after its pulse, or ends a broadcast or a Release SENT; a window that ends with no reply
begun ends the attempt; after a first attempt the second is due, or with a yield due the request is interrupted (R8, R10,
R11, R19, R22). The end of an abandoned request's frame (R20) begins the gap and reports nothing, and no request is in
flight; that its outcome was reported before, and its frame has no owner, is log entry 9, and that the origins claim again
then is log entry 48. That the clock stands at the end's moment at the earliest, and what follows is counted from there, is
the model's choice (log entry 2). That an owed Phase Mark is claimed again while the line is still BUSY, before a yield due
at the attempt's end begins, is the model's choice (log entry 55). -/
def Obligations.FramesAndWindowsEnd : Prop :=
  (∀ (r : Request) (seq : Bool),
    let x : Nat × Nat × Nat × List Byte := match r with
      | .probe => (0, 1, 0, [])
      | .assign a i => (0, 2, a.val + 1, identityBytes i)
      | .describe a i _ => (a.val + 1, 3, i.val, [])
      | .extend a opening => (a.val + 1, 4, 0, [if opening then 1 else 0])
      | .drive d => (d.address.val + 1, 5, d.index.val, [match d.word with
          | .off => 0
          | .on => 1
          | .flash .flL => 2
          | .flash .flR => 3
          | .flash .flB => 4
          | .flash .flV => 5
          | .runA => 6
          | .runB => 7
          | .stop => 8])
      | .prove a i => (a.val + 1, 6, i.val, [40])
      | .sample _ a i _ _ => (a.val + 1, 7, i.val, [])
      | .hail a _ => (a.val + 1, 8, 0, [])
      | .release a _ => (a.val + 1, 9, 0, [])
      | .releaseAll => (15, 9, 0, [])
      | .phaseMark m on => (15, 10, 0, [byte (m.toNat + if on then 128 else 0)])
    let b : List Byte := byte (16 * x.1 + x.2.1) :: byte ((if seq then 128 else 0) + x.2.2.1) :: x.2.2.2
    r.frame seq = 0xA5 :: (b ++ [frameCheck b]))
  ∧ (frameCheck [] = 0xFF ∧ ∀ (b : List Byte) (x : Byte),
      frameCheck (b ++ [x]) = (List.range 8).foldl (fun (c : Byte) _ => (c <<< 1) ^^^ if c.msb then 0x07 else 0)
        (frameCheck b ^^^ x)
      ∧ frameCheck (b ++ [frameCheck b]) = 0)
  ∧ (∀ (s : State) (r : Request) (n : NodeEntry), s.ntab.nodesKept → n ∈ s.ntab.nodes → r.address = some n.address →
      s.windowOf r = if s.hcp.cfg.windowFixed then (match n.unit with
        | 1 => s.hcp.cfg.fixed1
        | 2 => s.hcp.cfg.fixed2
        | _ => s.hcp.cfg.fixed3) else s.autoWindow n.unit)
  ∧ (∀ (s : State) (r : Request), r.destination = 0 → s.windowOf r =
      if s.hcp.cfg.windowFixed then max s.hcp.cfg.fixed1 (max s.hcp.cfg.fixed2 s.hcp.cfg.fixed3) else 12)
  ∧ (∀ (s : State) (unit : Nat), (∀ n ∈ s.ntab.nodes, n.echo ≤ 100) →
      ((∀ n ∈ s.ntab.nodes, n.unit ≠ unit) → s.autoWindow unit = 4)
      ∧ ((∃ n ∈ s.ntab.nodes, n.unit = unit) → 2 ≤ s.autoWindow unit ∧ s.autoWindow unit ≤ 12
        ∧ (∀ n ∈ s.ntab.nodes, n.unit = unit → n.echo + ms 2 ≤ ms (s.autoWindow unit))
        ∧ (s.autoWindow unit = 2 ∨ ∃ n ∈ s.ntab.nodes, n.unit = unit ∧ ms (s.autoWindow unit - 1) < n.echo + ms 2)))
  ∧ (∀ (s : State) (e : Nat), s.hcp.inReset = false → s.tdl.orphan = some e →
    let u : State := { s with
      now := max s.now e, tdl := { s.tdl with orphan := none, gapEnds := max s.now e + ms 1 } }
    exec .frameEnd s = .next (u.onAttemptEnd.finish false)
    ∧ (s.tdl.line = .busy → s.tdl.inFlight = none → ∃ t : State, exec .frameEnd s = .next t ∧ t.tdl.line = .busy
      ∧ t.tdl.inFlight = none ∧ t.tdl.orphan = none ∧ t.tdl.gapEnds = max s.now e + ms 1
      ∧ t.fixed = { s.fixed with now := max s.now e }))
  ∧ ∀ (s : State) (f : InFlight), s.hcp.inReset = false → s.tdl.line = .busy → s.tdl.orphan = none →
    s.tdl.inFlight = some f →
    (∀ e, f.stage = .sending e →
      (f.req.answered = true → ∀ opens, opens = max s.now e + (match f.req with
          | .prove .. => ms 40
          | _ => 0) →
        ∃ t : State, exec .frameEnd s = .next t ∧ t.tdl.line = .busy ∧ t.tdl.gapEnds = max s.now e + ms 1
          ∧ t.tdl.inFlight = some { f with stage := .window (max s.now e) opens (opens + ms f.window) }
          ∧ t.fixed = { s.fixed with now := max s.now e })
      ∧ (f.req.answered = false →
        exec .frameEnd s = .next ((((s.advanceTo e).restartGap).endAttempt f .sent).finish false)))
    ∧ ∀ a b e, f.stage = .window a b e →
      (f.second = false → s.tdl.yieldDue = false → ∃ t : State, exec .replyWindowEnd s = .next t
        ∧ t.tdl.line = .busy ∧ t.tdl.gapEnds = max s.now e + ms 1
        ∧ t.tdl.inFlight = some { f with second := true, stage := .due } ∧ t.fixed = { s.fixed with now := max s.now e })
      ∧ (f.second = false → s.tdl.yieldDue = true → ∃ u : State, exec .replyWindowEnd s = .next (u.finish false)
        ∧ s.yieldedFrom u f (max s.now e))
      ∧ (f.second = true → exec .replyWindowEnd s = .next
          ((((s.advanceTo e).restartGap.reportOutcome f.req .noReply).onAttemptEnd.yieldIfDue).finish false))

/-- A reply is valid when its lead character, source address, status, length, codes and check are right, and what follows
the length it calls for is not used (R4, R212). A reply that begins in its window, its first edge told or not (log entry
17), gives the echo delay (R9), and is taken when it is complete. A valid one inverts the address's next bit, or clears it
for an Assign (R7), and its outcome reaches the block that placed the request and the Node Table (R13): the request leaves
its entry, then its owner is told, then the Node Table, an order that is the model's inference (log entry 5). One that is
not valid, or breaks, ends the attempt: after a first attempt the second is due, or with a yield due the request is
interrupted; after a second one the outcome is reported, COLLISION for a Probe (R10, R11, R22). No bit of a Probe reply's
last byte breaks it, an inference (log entry 16). After a malformed character the line has been idle for 1 ms already (log
entry 18), so the second attempt begins at once, with the word of the pending entry of a Drive's handle and the window of
the destination (R8, R12). What begins before the window opens or after it has ended is line activity, which only begins the
gap again, and so does its end, though a window has opened meanwhile (R8, R10). At the end of an attempt the origins claim
in the order of log entry 36. That an owed Phase Mark is claimed again while the line is still BUSY, before a yield due at
the attempt's end begins, is the model's choice (log entry 55). -/
def Obligations.RepliesEndAttempts : Prop :=
  (∀ (r : Request) (l : List Byte) (st : ReplyStatus) (pl : List Byte), r.parseReply l = some (st, pl) ↔
    ∃ (b : Byte) (tail : List Byte), l = 0xA5 :: b :: (pl ++ frameCheck (b :: pl) :: tail)
      ∧ b.toNat / 16 = (match r with
        | .assign a _ => a.val + 1
        | r => r.destination)
      ∧ b.toNat % 16 = (match st with
        | .ok => 0
        | .refused => 1
        | .fault => 2
        | .noFunction => 3)
      ∧ pl.length = (match st, r with
        | .fault, _ => 1
        | .ok, .probe => 9
        | .ok, .describe .. => 6
        | .ok, .prove .. | .ok, .hail .. => 1
        | .ok, .sample .. => 4
        | _, _ => 0)
      ∧ (st = .fault → pl.head? = some 1 ∨ pl.head? = some 2)
      ∧ (∀ o a i h g, st = .ok → r = .sample o a i h g →
          (∀ w, pl[0]? = some w → w.toNat % 128 ≤ 8) ∧ ∀ q, pl[1]? = some q → q.toNat ≤ 1))
  ∧ (∀ (s : State) (r : Request) (o : ReqOutcome),
      s.reportOutcome r o = (((s.setInFlight none).updateNextBit r o).ownerOutcome r o).reportNode r o
      ∧ s.ownerOutcome r o = (match r with
        | .probe | .assign .. | .describe .. | .extend .. | .release _ true => s.bueOutcome r o
        | .drive d => s.driveOutcome d o
        | .prove .. | .sample .proving .. => s.proofOutcome o
        | .sample .confirm _ _ h g => s.confirmOutcome h g o
        | .hail a _ => match o with
          | .replied .ok pl _ => s.setSummary a (pl[0]?.getD 0)
          | _ => s
        | .releaseAll => if o = .sent then s.restartComplete else s
        | .phaseMark m on => if o = .sent ∧ on = true then s.markOnStart m else s
        | .release _ false => s)
      ∧ (r.address = none ∨ o = .sent ∨ o = .abandoned → s.reportNode r o = s)
      ∧ (∀ a, r.address = some a →
        (∀ st pl n, o = .replied st pl n → s.reportNode r o = s.heard a)
        ∧ (o = .noReply ∨ o = .checkError ∨ o = .collision → s.reportNode r o =
            if r = .hail a .fault then s.sweepFailed a else s.failed a)))
  ∧ (∀ (s : State) (f : InFlight) (n : Nat), s.hcp.inReset = false → s.tdl.line = .busy → s.tdl.orphan = none →
    s.tdl.inFlight = some f → (f.stage = .replying n ∨ ∃ a b e, f.stage = .window a b e ∧ b ≤ s.now ∧ s.now ≤ e
      ∧ n = max 1 (min 120 (s.now - a))) →
    (∃ t : State, exec .replyFirstEdge s = .next t ∧ t.tdl.inFlight = some { f with stage := .replying n }
      ∧ t.tdl.stray = false ∧ t.tdl.gapEnds = s.now + ms 1 ∧ t.fixed = s.fixed)
    ∧ (∀ l st pl, s.tdl.stray = false → f.req.parseReply l = some (st, pl) → ∃ t : State, exec (.replyComplete l) s = .next t
      ∧ t = (((s.restartGap.reportOutcome f.req (.replied st pl n)).onAttemptEnd.yieldIfDue).finish false)
      ∧ t.fixed = { s.fixed with nextBit := match f.req, f.req.address with
        | .assign x _, _ => s.tdl.nextBit.set x false
        | _, some x => s.tdl.nextBit.set x (!s.tdl.nextBit[x])
        | _, none => s.tdl.nextBit })
    ∧ (∀ c : Instr, s.tdl.stray = false → (∃ l, c = .replyComplete l ∧ f.req.parseReply l = none) ∨ c = .replyBroken false →
      (f.second = false → s.tdl.yieldDue = false → ∃ t : State, exec c s = .next t
        ∧ t.tdl.inFlight = some { f with second := true, stage := .due } ∧ t.tdl.gapEnds = s.now + ms 1
        ∧ t.fixed = s.fixed)
      ∧ (f.second = false → s.tdl.yieldDue = true → ∃ u : State, exec c s = .next (u.finish false)
        ∧ s.yieldedFrom u f s.now)
      ∧ (f.second = true → exec c s = .next (((s.restartGap.reportOutcome f.req (f.req.failedOutcome .checkError)
          ).onAttemptEnd.yieldIfDue).finish false)))
    ∧ (s.tdl.stray = false → f.second = false → s.tdl.yieldDue = false →
      let entry : Option Pend := match f.req with
        | .drive d => s.drt.pend.find? fun q => q.handle == d.handle
        | _ => none
      let r : Request := match f.req, entry with
        | .drive d, some p => .drive { d with word := p.word }
        | x, _ => x
      ∃ u t : State, exec (.replyBroken true) s = .next t ∧ t = u.finish false ∧ t.fixed = s.fixed
        ∧ t.tdl.frame = r.frame f.seq ∧ t.tdl.inFlight = some { f with
            req := r, second := true, window := s.windowOf f.req, stage := .sending (s.now + 5 * (r.frame f.seq).length) }
        ∧ u.drt.pend = (match f.req, entry with
          | .drive d, some _ => s.drt.pend.filter fun q => !(q.handle == d.handle)
          | _, _ => s.drt.pend)
        ∧ ∀ d p x, f.req = .drive d → entry = some p → s.live d.handle = some x → u.record d.handle = some { x with
            drive := x.drive.map fun y => { y with lastPlaced := some p.word } })
    ∧ (s.tdl.stray = false → f.second = false → s.tdl.yieldDue = true →
      ∃ u : State, exec (.replyBroken true) s = .next (u.finish false) ∧ s.yieldedFrom u f s.now)
    ∧ (s.tdl.stray = false → f.second = true →
      let u : State := { s with tdl := { s.tdl with gapEnds := s.now } }
      exec (.replyBroken true) s = .next (((u.reportOutcome f.req (f.req.failedOutcome .checkError)
        ).onAttemptEnd.yieldIfDue.gapPassed).finish false))
    ∧ ∃ t : State, exec .lineActivity s = .next t ∧ t.tdl.inFlight = s.tdl.inFlight ∧ t.tdl.gapEnds = s.now + ms 1
      ∧ t.fixed = s.fixed)
  ∧ (∀ (s : State) (c : Instr), s.hcp.inReset = false → s.tdl.line = .busy →
    (∀ f, s.tdl.inFlight = some f → f.stage = .due ∨ (∃ e, f.stage = .sending e)
      ∨ ∃ a b e, f.stage = .window a b e ∧ (s.now < b ∨ e < s.now)) →
    c = .replyFirstEdge ∨ c = .lineActivity ∨ (∃ l, c = .replyComplete l) ∨ (∃ m, c = .replyBroken m) →
    ∃ t : State, exec c s = .next t ∧ t.tdl.inFlight = s.tdl.inFlight ∧ t.tdl.gapEnds = s.now + ms 1 ∧ t.fixed = s.fixed
      ∧ t.tdl.stray = if c = .replyFirstEdge then true else if c = .lineActivity then s.tdl.stray else false)
  ∧ (∀ (s : State) (c : Instr), s.hcp.inReset = false → s.tdl.line = .busy → s.tdl.stray = true →
    (∃ l, c = .replyComplete l) ∨ (∃ m, c = .replyBroken m) →
    ∃ t : State, exec c s = .next t ∧ t.tdl.inFlight = s.tdl.inFlight ∧ t.tdl.gapEnds = s.now + ms 1
      ∧ t.tdl.stray = false ∧ t.fixed = s.fixed)
  ∧ ∀ s : State, s.onAttemptEnd = s.placeRetireDrives.claimOwed.provingOccasion.bueOccasion.callPass.callDrain

/-! ### Nodes, deadlines and the frontier -/

/-- The presence tick starts again and changes no entry; it places a Hail to each node silent for 250 ms that has none in
the queue, in chain order while there is room, and none while a link restart holds the entries (R58). A held address becomes
free (R48); the frontier timer stops and its Probe is placed in the routine class (R46), or held while a request of the
engine's stands, which R83 leaves to inference (log entry 21). A passed confirm deadline calls for a scheduling pass. The
due records of a pass come by deadline and handle; a phased one takes its phase-wait mark and the others' Samples are
claimed, until the own count is 4 or the class is full, where one stays unplaced (R162, R164). A Sample taken out of the
queue leaves the own count and stays unplaced, and the next pass claims it again before the due records, whatever has become
of its record (R163); several claim in rising handle order (log entry 24), and a pass that begins with the own count at 4
claims none, while a phased record still takes its mark (log entry 38): both the model's inference. A phased record's Sample
is claimed at its ON start, and its mark is cleared when it stops being phased (R164). A Phase Mark ON that is SENT is the
ON start of each lamp driven FLASH on a channel that it names (R100), in rising handle order (log entry 46). The timers in a
quiet engine; that the clock stands at a timer's moment at the earliest is the model's choice (log entry 2). -/
def Obligations.NodeAndFrontierTimers : Prop :=
  (∀ s : State, s.ntab.nodesKept →
    let due := s.ntab.nodes.filter fun n => (n.state == .live || n.state == .suspect)
      && decide (ms 250 ≤ n.heard.value s.now) && !s.queued (Request.isHailTo n.address)
    (s.ntab.hold = true → s.tick.tdl = s.tdl)
    ∧ (s.ntab.hold = false → s.tdl.line ≠ .down → s.tick.tdl.routine = s.tdl.routine
        ++ (due.take (24 - s.routineEntries)).map fun n => .hail n.address .none))
  ∧ (∀ s : State,
    (∀ h : Handle, h ∈ s.dueRecords ↔ ∃ c e, (s.slot h).confirm = some c ∧ c.deadline = .running e ∧ e ≤ s.now
      ∧ (s.slot h).sampleMark = .clear ∧ c.phaseWait = false)
    ∧ s.dueRecords.Pairwise (fun a b => ∃ x y, s.deadlineOf a = some x ∧ s.deadlineOf b = some y
        ∧ (x < y ∨ x = y ∧ a < b)))
  ∧ (∀ (s : State) (h : Handle) (r : Record) (a : Addr), s.live h = some r → r.address = some a →
    s.claimSample h = s.claimSampleTo h a r.index (s.slot h).gen)
  ∧ (∀ (s : State) (h : Handle) (a : Addr) (i : FnIndex) (gen : Byte),
    let sample : Request := .sample .confirm a i h gen
    let t := s.claimSampleTo h a i gen
    (s.tdl.line ≠ .down → s.routineEntries < 24 → t.1.tdl = { s.tdl with routine := s.tdl.routine ++ [sample] }
      ∧ (t.1.slot h).sampleMark = .queued ∧ t.1.csch.own = s.csch.own + 1 ∧ (t.2 = true ↔ s.csch.own + 1 < 4))
    ∧ (s.tdl.line ≠ .down → 24 ≤ s.routineEntries → t = (s.setMark h (.unplaced a i gen), false))
    ∧ ((s.slot h).sampleMark = .unplaced a i gen → s.claimSampleAgain h = t)
    ∧ s.refuseBack sample = (s.setMark h (.unplaced a i gen)).setOwn (s.csch.own - 1))
  ∧ (∀ (s : State) (h : Handle) (r : Record), s.live h = some r →
    (s.lampPhased r = true ↔ r.cls = .lamp ∧ r.overloadHeld = false
      ∧ ∃ x, r.tie = some x ∧ s.demanded x = true ∧ s.phased x = true)
    ∧ (s.lampPhased r = true → State.passOne (s, true) h = (s.modifyConfirm h fun c => { c with phaseWait := true }, true))
    ∧ (s.lampPhased r = false → s.csch.own < 4 → State.passOne (s, true) h = s.claimSample h)
    ∧ (4 ≤ s.csch.own → State.passUnplaced (s, true) h = (s, true)
      ∧ (s.lampPhased r = false → State.passOne (s, true) h = (s, true)))
    ∧ (s.csch.own < 4 → State.passUnplaced (s, true) h = s.claimSampleAgain h)
    ∧ State.passOne (s, false) h = (s, false) ∧ State.passUnplaced (s, false) h = (s, false))
  ∧ (∀ s : State,
    let old := (List.finRange 96).filter fun h => match (s.slot h).sampleMark with
      | .unplaced .. => true
      | _ => false
    let x := old.foldl State.passUnplaced (s, true)
    s.pass = (x.1.dueRecords.foldl State.passOne x).1 ∧ (s.csch.own ≤ 4 → s.pass.csch.own ≤ 4)
    ∧ s.callPass.passIfDue = ({ s with agenda := { s.agenda with pass := false } } : State).pass)
  ∧ (∀ (s : State) (h : Handle) (e : Nat),
    (s.deadlineOf h = some e ↔ ∃ c, (s.slot h).confirm = some c ∧ c.deadline = .running e)
    ∧ s.onStart h = (s.proofOnStart h).confirmOnStart h)
  ∧ (∀ (s : State) (m : BitVec 4),
    let lights (u : State) (h : Handle) : Bool := match u.live h with
      | some r => r.cls == .lamp && (match r.tie with
        | some x => (match u.asks x false with
          | .flash .flL => m.getLsbD 0
          | .flash .flR => m.getLsbD 1
          | .flash .flB => m.getLsbD 2
          | .flash .flV => m.getLsbD 3
          | _ => false)
        | none => false)
      | none => false
    s.markOnStart m = (List.finRange 96).foldl (fun u h => if lights u h then u.onStart h else u) s)
  ∧ (∀ (s : State) (h : Handle) (c : ConfirmEntry), (s.slot h).confirm = some c →
    (c.phaseWait = false ∨ 4 ≤ s.csch.own → s.confirmOnStart h = s)
    ∧ (c.phaseWait = true → s.csch.own < 4 → s.confirmOnStart h
      = ((s.modifyConfirm h fun x => { x with phaseWait := false }).claimSample h).1.callPass)
    ∧ (s.phaseWaitCheck.slot h).confirm = some { c with phaseWait := c.phaseWait && (s.live h).any s.lampPhased })
  ∧ ∀ (s : State) (e : Nat), s.hcp.inReset = false → s.engineQuiet →
    (s.ntab.tick = .running e → ∃ t : State, exec .presenceTick s = .next t
      ∧ t = (s.advanceTo e).tick.finish false ∧ t.ntab = { s.ntab with tick := .running (max s.now e + ms 10) }
      ∧ t.bue = s.bue ∧ t.fixed = { s.fixed with now := max s.now e })
    ∧ (∀ a : Addr, s.bue.held.find? (fun x => x.1 == a) = some (a, e) → ∃ t : State,
      exec (.addressHoldExpiry a) s = .next t ∧ t.bue.held = s.bue.held.filter (fun x => !(x.1 == a))
      ∧ t.fixed = { s.fixed with now := max s.now e })
    ∧ (s.bue.frontier = .running e → ∃ t : State, exec .frontierTimerExpiry s = .next t
      ∧ t.bue.frontier = .stopped ∧ t.bue.state = s.bue.state
      ∧ (s.bue.request ≠ .none → t.bue = { s.bue with frontier := .stopped, frontierHeld := true })
      ∧ (s.bue.request = .none → s.tdl.line ≠ .down → s.routineEntries < 24 → t.bue.request = .queued
        ∧ ∃ u : State, t = u.finish false ∧ u.tdl = { s.tdl with routine := s.tdl.routine ++ [.probe] })
      ∧ t.fixed = { s.fixed with now := max s.now e })
    ∧ (∀ h : Handle, s.deadlineOf h = some e → ∃ t : State, exec (.confirmDeadline h) s = .next t
      ∧ t = (s.advanceTo e).callPass.finish false ∧ t.bue = s.bue ∧ t.ntab = s.ntab
      ∧ t.fixed = { s.fixed with now := max s.now e })

/-- A node silent for 1000 ms is LOST, and the chain is cut at its position (R57, R62, R63): CHAIN_CHANGE is set, the
entries before the position are left, and every live record of a node there or behind is RETIRED, as NODE_LOST at the
position and CHAIN_CUT behind it, and stands in the Attention Set. A valid reply makes a SUSPECT node LIVE again with no
failure (R55). A failure is counted and makes a LIVE node SUSPECT; the third cuts the chain there, and so does the first of
a fault sweep's Hail (R56, R61). A cut abandons what waits or is in flight to the entries that it frees, and tells the
owners, not the Node Table (R20); it places a Release to each address at the head of the routine class, behind sweep Hails
and earlier Releases, in rising order, with room made as for a sweep (R64). The engine's units are cut short, and by its
state it stays, enters PROBE at once, or does so when an outcome that it drops, or a recatalogue's, has come (R48). The
model's choices or inferences here: an attempt which the cut abandons ends for the origins at once (log entry 48), the line
still BUSY where a yield is due (log entry 55). A request abandoned while its frame is sent has its outcome told at once,
and its frame has no owner (log entry 9). The newest requests are those nearest the tail (log entry 59). The new Releases
stand behind an earlier cut's also where an interrupted request is ahead of that (log entry 39). In SETTLED with a frontier
Probe in the queue the engine enters PROBE with that Probe's outcome to be dropped, where R48 has it enter PROBE at once,
and its Probe is placed after the outcome (log entry 20). An engine's request still unplaced after FULL is given up (log
entry 57). At the event's end the engine's entry to PROBE comes first, or its departure, also where the Describe it waited
for was taken out of the queue (log entry 58), then the claims, and the arbiter's grant last (log entry 4). The clock stands
at the timeout's moment at the earliest (log entry 2). -/
def Obligations.SilenceCutsTheChain : Prop :=
  (∀ (s : State) (p : Nat) (n : NodeEntry), s.ntab.hold = false → s.ntab.nodesKept → s.nodeAt p = some n →
    let put (x : NodeEntry) : State := { s with ntab := { s.ntab with nodes := s.ntab.nodes.set (p - 1) x } }
    let cut (t : State) : Prop := t.ntab.nodes = s.ntab.nodes.take (p - 1) ∧ t.hcp.flags.getLsbD 3 = true
    s.heard n.address = put { n with
        failures := 0, heard := if s.lineRuns then .counting 0 s.now else .still 0
        state := if n.state = .suspect then .live else n.state }
    ∧ (n.failures < 2 → s.failed n.address = put { n with
        failures := n.failures + 1, state := if n.state = .live then .suspect else n.state })
    ∧ (2 ≤ n.failures → cut (s.failed n.address))
    ∧ cut (s.sweepFailed n.address))
  ∧ (∀ (s : State) (p : Request → Bool),
    let gone := (match s.tdl.inFlight with
      | some f => if p f.req then [f.req] else []
      | none => []) ++ (s.tdl.urgent.filter p ++ s.tdl.routine.filter p)
    ∃ u : State, s.abandonWhere p = gone.foldl State.abandoned u ∧ u = { s with tdl := u.tdl }
      ∧ u.tdl.urgent = s.tdl.urgent.filter (fun r => !p r) ∧ u.tdl.routine = s.tdl.routine.filter (fun r => !p r)
      ∧ ((∀ f, s.tdl.inFlight = some f → p f.req = false) → u.tdl.inFlight = s.tdl.inFlight ∧ u.tdl.orphan = s.tdl.orphan)
      ∧ ∀ f, s.tdl.inFlight = some f → p f.req = true → u.tdl.inFlight = none
        ∧ (∀ e, f.stage = .sending e → u.tdl.orphan = some e ∧ u.tdl.gapEnds = s.tdl.gapEnds)
        ∧ (∀ a b e, f.stage = .window a b e → u.tdl.orphan = s.tdl.orphan ∧ u.tdl.gapEnds = s.now + ms 1))
  ∧ (∀ (s : State) (r : Request), (s.abandoned r).tdl = s.tdl ∧ (s.abandoned r).ntab = s.ntab
    ∧ (s.bue.dropping = false → s.abandoned r = s.ownerOutcome r .abandoned))
  ∧ (∀ (s : State) (p : Nat),
    let gone := (s.ntab.nodes.drop (p - 1)).map (·.address)
    let cut (r : Request) : Bool := match r.address with
      | some a => decide (a ∈ gone) && !r.isCutRelease
      | none => false
    let ahead (r : Request) : Bool := r.isSweepHail || r.isCutRelease
    let engines (r : Request) : Bool := match r with
      | .describe .. | .extend .. | .release _ true => true
      | _ => false
    ∃ v x : State, s.chainCut p = (v.cutResponse p).raise .chainChange
      ∧ v.ntab = { s.ntab with nodes := s.ntab.nodes.take (p - 1) }
      ∧ x.tdl.urgent = s.tdl.urgent.filter (fun r => !cut r) ∧ x.tdl.routine = s.tdl.routine.filter (fun r => !cut r)
      ∧ ((∀ f, s.tdl.inFlight = some f → cut f.req = false) → x.tdl.inFlight = s.tdl.inFlight)
      ∧ ((∃ f, s.tdl.inFlight = some f ∧ cut f.req = true) → x.tdl.inFlight = none)
      ∧ v.tdl = (x.placeReleases (gone.map fun a => .release a false)).tdl
      ∧ (∃ a b : List Request, v.tdl.routine = a ++ gone.map (fun a => .release a false) ++ b
        ∧ (∀ r, a.getLast? = some r → ahead r = true) ∧ (∀ r ∈ b, ahead r = false)
        ∧ (x.routineEntries + gone.length ≤ 24 → a ++ b = x.tdl.routine))
      ∧ v.bue = { s.bue with request := v.bue.request }
      ∧ (s.queued (fun r => cut r && engines r) = true → v.bue.request ≠ .queued)
      ∧ (s.queued (fun r => cut r && engines r) = false → x.routineEntries + gone.length ≤ 24 →
          v.bue.request = s.bue.request))
  ∧ (∀ (s : State) (p : Nat),
    let units := (s.bue.units.filter fun u => decide (u.first < p)).map fun u =>
      if p < u.first + u.nodeCount then { u with
        nodeCount := p - u.first, digest := ((s.nodeAt (p - 1)).bind (·.endDigest)).getD 0xFFFF, outcome := .none }
      else u
    let b : Bue := { s.bue with units := units, chainEnd := .none }
    let settled : Bue := { b with frontier := .stopped, frontierHeld := false }
    let walked : Bue := { b with lastProbe := none, tries := 0, errand := .none }
    let t := s.cutResponse p
    (s.bue.state = .idle ∨ s.bue.state = .waitStart → t = s.setBue b)
    ∧ (s.bue.state = .halted → ((∀ c, s.fdir.recat = some c → c.position < p) → t = s.setBue b)
      ∧ ((∃ c, s.fdir.recat = some c ∧ p ≤ c.position) → t.bue = { b with request := .none } ∧ t.tdl = s.tdl
        ∧ t.fdir.recat = none))
    ∧ (s.bue.state = .settled →
      (s.recatOutstanding = true → t = s.setBue { settled with deferred := .toProbe })
      ∧ (s.recatOutstanding = false → s.bue.request = .queued → t.bue = { settled with state := .probe, dropping := true }
        ∧ t.tdl = s.tdl ∧ t.fdir.recat = none)
      ∧ (s.recatOutstanding = false → s.bue.request ≠ .queued → ∃ u : State, t = u.enterProbe ∧ u.tdl = s.tdl
        ∧ u.ntab = s.ntab ∧ u.fdir.recat = none ∧ u.bue = { settled with deferred := .none, request := .none }))
    ∧ (s.bue.state ∉ [.idle, .waitStart, .halted, .settled] →
      let w := s.setKtl { s.ktl with waiting := none }
      (s.bue.request = .queued → t = w.setBue { walked with dropping := true })
      ∧ (s.bue.request ≠ .queued → t = (w.setBue { walked with request := .none }).enterProbe)))
  ∧ (∀ s : State, s.settleEvent = s.bueCheck.settleClaims.arbitrate
    ∧ (s.bue.dropping = true → s.bue.request = .none → s.bueCheck = s.enterProbe)
    ∧ (s.bue.dropping = true → s.bue.request ≠ .none → s.bue.deferred = .none → s.bueCheck = s)
    ∧ (s.bue.dropping = false → s.bue.deferred ≠ .none → s.recatOutstanding = false →
        s.bueCheck = s.depart s.bue.deferred)
    ∧ (s.bue.deferred ≠ .none → s.recatOutstanding = true → s.bue.dropping = false → s.bueCheck = s)
    ∧ ∃ u : State, s.depart .toProbe = u.enterProbe ∧ u.tdl = s.tdl ∧ u.ntab = s.ntab ∧ u.fdir.recat = none
      ∧ u.bue = { s.bue with deferred := .none, request := .none })
  ∧ (∀ (s : State) (p e : Nat), s.silentAt p = some e ↔ s.ntab.hold = false ∧ ∃ n v a, s.nodeAt p = some n
      ∧ n.heard = .counting v a ∧ e = a + (ms 1000 - v))
  ∧ (∀ (s : State) (p : Fin 12) (e : Nat), s.hcp.inReset = false → s.silentAt (p.val + 1) = some e →
    let c := ((s.advanceTo e).modifyNode (p.val + 1) fun n => { n with state := .lost }).chainCut (p.val + 1)
    exec (.lastHeardTimeout p) s = .next ((if s.tdl.inFlight ≠ none ∧ c.tdl.inFlight = none
      then c.onAttemptEnd.yieldIfDue else c).finish false))
  ∧ ∀ (s : State) (p : Fin 12) (e : Nat), s.hcp.inReset = false → s.silentAt (p.val + 1) = some e →
    ∃ t : State, exec (.lastHeardTimeout p) s = .next t ∧ t.hcp.flags.getLsbD 3 = true
      ∧ t.ntab.nodes.map (·.address) = (s.ntab.nodes.take p.val).map (·.address)
      ∧ (∀ h r, s.live h = some r → p.val + 1 ≤ r.position → r.position ≤ s.ntab.nodes.length →
          t.live h = none ∧ h ∈ t.fdir.attention
          ∧ ∃ x, t.record h = some x ∧ x.reason = some (if r.position = p.val + 1 then .nodeLost else .chainCut))
      ∧ t.fixed = { s.fixed with now := max s.now e }

/-! ### Inputs, flash generators and guards -/

/-- The edges of the demand inputs (R115, R116): a wired source follows its input; a turn source in LEVEL mode flashes on its
channel, with both turn sources inactive the combined sources follow STOP, and after any change they are active by the turn
phase while their turn source is, and by STOP while it is not; the turn phase is the channel's of a FLASHING turn source, the
filtered input's level of a FOLLOWED one, and OFF without (R116). At the edge a changed mode takes effect, and the edge is
judged under it with the capture cleared (R115, R145). In FOLLOW mode the first rising edge starts the source, following; a
second short period in a row, under 250 ms, makes it flash steadily on its channel, and a good one, up to 1500 ms, makes it
follow again (R143, R144). A FOLLOW stretch ends its source, the bad-period count and the steady mark (R115, R143). An event
whose level stands already changes nothing (log entry 3), a mark owed by a generator that stops or by a channel that leaves
FOLLOWING is dropped (log entries 42, 50), sources that one event changes are routed in the order of log entry 45, and the
clock stands at the stretch's end at the earliest (log entry 2): all the model's choices. -/
def Obligations.InputsDriveTheirSources : Prop :=
  let side (x : Src) : Option TurnSide := if x = 3 then some .left else if x = 4 then some .right else none
  let partner (c : Chan) : Option Chan := match c with
    | .flL => some .flR
    | .flR => some .flL
    | _ => none
  let generator (c : Chan) : Generator := match c with
    | .flL | .flR => .pair
    | .flB => .beacon
    | .flV => .virtual
  (∀ (s : State) (x : TurnSide),
    let v : Source := match x with
      | .left => s.source 3
      | .right => s.source 4
    let c : Chan := match x with
      | .left => .flL
      | .right => .flR
    let input : Bool := match x with
      | .left => s.drt.inputs[(3 : Fin 10)]
      | .right => s.drt.inputs[(4 : Fin 10)]
    (v.active = false → s.turnPhase x = false)
    ∧ (v.active = true → v.form = .followed → s.turnPhase x = input)
    ∧ (∀ k, v.active = true → v.form = .flashing k → s.turnPhase x = match s.chan c with
      | .running => ((s.gen .pair).run.map (·.on)).getD false
      | .following => input
      | .stopped | .joining => false)
    ∧ s.combinedActive x = if v.active then s.turnPhase x else (s.source 2).active)
  ∧ (∀ (s : State) (x : Src), s.chanOf x = if x = 3 then some .flL else if x = 4 then some .flR else if x = 9 then some .flB
      else if 12 ≤ x.val ∧ x.val = s.hcp.cfg.flvSource + 11 then some .flV else none)
  ∧ (∀ (s : State) (c : Chan),
    ((∀ p, partner c = some p → s.chan p ≠ .running) → s.startChan c = (s.setChan c .running).startGen (generator c))
    ∧ (∀ p, partner c = some p → s.chan p = .running → s.startChan c = s.setChan c .joining)
    ∧ ∀ v, (s.chan c ≠ .running → s.leaveChan c v = s.setChan c v)
      ∧ (s.chan c = .running →
        (∀ p, partner c = some p → s.chan p = .joining →
          s.leaveChan c v = ((s.setChan c v).setChan p .running).startGen (generator c))
        ∧ (∀ p, partner c = some p → s.chan p = .running → s.leaveChan c v = s.setChan c v)
        ∧ ((∀ p, partner c = some p → s.chan p = .stopped ∨ s.chan p = .following) →
          s.leaveChan c v = (s.setChan c v).setGen (generator c) { s.gen (generator c) with run := none, owed := none })))
  ∧ (∀ (s : State) (g : Generator),
    let p := if g = .pair ∧ s.turnFailCondition = true then s.hcp.cfg.flashPeriod / 2 else s.hcp.cfg.flashPeriod
    let u := s.setGen g { s.gen g with
      run := some { on := true, ends := s.now + ms (p / 2), period := p }, cycle := s.hcp.cfg.flashPeriod }
    s.startGen g = { u with agenda := { u.agenda with marks := u.agenda.marks ++ [g] } })
  ∧ (∀ (s : State) (x : Src), (s.chanOf x = none → s.updateChan x = s)
    ∧ ∀ c, s.chanOf x = some c →
      let v := s.source x
      let owedGone (u : State) : State := match side x with
        | some y => u.setFollowOwed y none
        | none => u
      (v.active = false → s.updateChan x = owedGone (if s.chan c = .stopped then s else s.leaveChan c .stopped))
      ∧ (∀ k, v.active = true → v.form = .flashing k → s.updateChan x =
          if s.chan c = .stopped ∨ s.chan c = .following then (owedGone s).startChan c else s)
      ∧ (∀ y, v.active = true → v.form = .followed → side x = some y → s.updateChan x =
          if s.chan c = .following then s else
            let u := s.leaveChan c .following
            { u with agenda := { u.agenda with follows := u.agenda.follows ++ [y] } })
      ∧ (v.active = true → v.form = .steady → s.updateChan x = s))
  ∧ (∀ (s : State) (x : Src) (v : Source), s.changeSource x v = (s.putSource x v).updateChan x)
  ∧ (∀ s : State, let u := s.putSource 10 { active := s.combinedActive .left, form := .steady }
    s.recombine = u.putSource 11 { active := u.combinedActive .right, form := .steady })
  ∧ ∀ s : State, s.hcp.inReset = false →
    let input (i : Fin 10) (b : Bool) : State := { s with drt := { s.drt with inputs := s.drt.inputs.set i b } }
    (∀ (i : Fin 10) (b : Bool), i ≠ 3 → i ≠ 4 → s.drt.inputs[i] = !b → exec (.demandInputChange i b) s = .next
      ((((input i b).changeSource (inputSrc i) { s.source (inputSrc i) with active := b }).recombine).finish false))
    ∧ (∀ (x : TurnSide) (b : Bool), let i : Fin 10 := match x with
          | .left => 3
          | .right => 4
        s.drt.inputs[i] = !b → ∃ (c : Capture) (w : State),
          let u := ((input i b).setFollowMode x (s.hcp.cfg.follow x)).setCapture x c
          exec (.demandInputChange i b) s = .next (w.recombine.finish false)
          ∧ (w.source x.src ≠ s.source x.src → w = u.changeSource x.src (w.source x.src))
          ∧ (w.source x.src = s.source x.src → w = u ∨ w = u.changeSource x.src (s.source x.src)
            ∨ w = (u.route x.src).dueFollow x)
          ∧ (w.source x.src = s.source x.src → s.source x.src = { active := true, form := .followed } →
            s.hcp.cfg.follow x = true → s.followMode x = true → c.steady = false → (s.capture x).steady = false →
            w = (u.route x.src).dueFollow x))
    ∧ (∀ (x : TurnSide) (e : Nat), s.followMode x = true → (s.source x.src).active = true →
        (s.capture x).lastRise = some e → ∃ c, exec (.followStretchEnd x) s = .next
          (((((s.advanceTo (e + ms 1500)).setCapture x c).changeSource x.src { active := false, form := .followed }
            ).recombine).finish false))
    ∧ (∀ (i : Fin 10) (b : Bool), s.drt.inputs[i] = !b → ∃ t : State, exec (.demandInputChange i b) s = .next t
      ∧ t.fixed = { s.fixed with inputs := s.drt.inputs.set i b, modes := t.frt.modes }
      ∧ (i ≠ 3 → i ≠ 4 → t.source (inputSrc i) = { s.source (inputSrc i) with active := b }
          ∧ t.frt.modes = s.frt.modes)
      ∧ (i = 3 → s.followMode .left = false → s.hcp.cfg.turnFollowL = false →
          t.source 3 = { active := b, form := .flashing .flL } ∧ t.frt.modes = s.frt.modes)
      ∧ (i = 4 → s.followMode .right = false → s.hcp.cfg.turnFollowR = false →
          t.source 4 = { active := b, form := .flashing .flR } ∧ t.frt.modes = s.frt.modes)
      ∧ (i = 2 → (s.source 3).active = false → (s.source 4).active = false →
          t.source 10 = { active := b, form := .steady } ∧ t.source 11 = { active := b, form := .steady })
      ∧ (∀ x : TurnSide, let c : Src := match x with
            | .left => 10
            | .right => 11
          t.source c = { form := .steady, active :=
            if (t.source x.src).active then t.turnPhase x else (t.source 2).active }))
    ∧ (∀ (x : TurnSide) (b : Bool), let i : Fin 10 := match x with
          | .left => 3
          | .right => 4
        s.drt.inputs[i] = !b → ∃ t : State, exec (.demandInputChange i b) s = .next t
        ∧ t.fixed = { s.fixed with inputs := s.drt.inputs.set i b, modes := t.frt.modes }
        ∧ (s.hcp.cfg.follow x ≠ s.followMode x → t.followMode x = s.hcp.cfg.follow x
          ∧ t.source x.src = { active := b, form := if s.hcp.cfg.follow x then .followed else .flashing x.chan }
          ∧ t.capture x = { bad := 0, steady := false
                            lastRise := if s.hcp.cfg.follow x = true ∧ b = true then some s.now else none
                            lastFall := if s.hcp.cfg.follow x = true ∧ b = false then some s.now else none })
        ∧ (s.hcp.cfg.follow x = true → s.followMode x = true →
          let c := s.capture x
          let period : Option Nat := c.lastRise.map fun a => s.now - a
          (b = false → t.capture x = { c with lastFall := some s.now } ∧ t.source x.src = s.source x.src)
          ∧ (b = true → (t.capture x).lastRise = some s.now ∧ (t.capture x).lastFall = c.lastFall)
          ∧ (b = true → (s.source x.src).active = false → (t.capture x).bad = 0 ∧ (t.capture x).steady = false
            ∧ t.source x.src = { active := true, form := .followed })
          ∧ (∀ d, b = true → (s.source x.src).active = true → period = some d →
            (d < ms 250 → (t.capture x).bad = min 2 (c.bad + 1)
              ∧ (c.steady = true ∨ c.bad = 0 → (t.capture x).steady = c.steady ∧ t.source x.src = s.source x.src)
              ∧ (c.steady = false → 1 ≤ c.bad → (t.capture x).steady = true
                ∧ t.source x.src = { active := true, form := .flashing x.chan }))
            ∧ (ms 250 ≤ d → d ≤ ms 1500 → (t.capture x).bad = 0 ∧ (t.capture x).steady = false
              ∧ (c.steady = true → t.source x.src = { active := true, form := .followed })
              ∧ (c.steady = false → t.source x.src = s.source x.src))
            ∧ (ms 1500 < d → (t.capture x).bad = c.bad ∧ (t.capture x).steady = c.steady
              ∧ t.source x.src = s.source x.src))))
    ∧ (∀ (i : Fin 10) (b : Bool), s.drt.inputs[i] = b → exec (.demandInputChange i b) s = .next s)
    ∧ ∀ (x : TurnSide) (e : Nat), s.followMode x = true → (s.source x.src).active = true →
        (s.capture x).lastRise = some e → ∃ t : State, exec (.followStretchEnd x) s = .next t
          ∧ t.source x.src = { active := false, form := .followed }
          ∧ t.capture x = { s.capture x with bad := 0, steady := false }
          ∧ t.fixed = { s.fixed with now := max s.now (e + ms 1500) }

/-- A generator's phases (R137): the ON phase lasts half the period rounded down, the OFF phase the rest; an ON start takes
the flash period, halved for the pair generator while the turn-fail condition holds, which it does while a record on the list
of a turn or combined source is FAULTED or STALE (R146), and brings a JOINING channel to RUNNING (R140). At a phase's start
it claims a Phase Mark naming its RUNNING channels with the phase (R138). A FOLLOWING channel's mark names it alone with its
input's level (R142). Refused FULL a mark is owed, to be claimed again when an attempt on the line ends, and the next phase's
mark takes its place; taken, or refused with the line in another state than READY and BUSY, none is owed (R139). Each running
generator and FOLLOWING channel claims a resynchronising mark at the line's entry to READY; that it is at any entry but one
from BUSY is log entry 6, that it takes the place of a mark still owed log entry 51 (an inference), the order among owed
marks log entry 36, the marks of an event after its Drives log entry 4, and that the clock stands at the phase's end at the
earliest log entry 2. -/
def Obligations.GeneratorsTimePhases : Prop :=
  (∀ s : State, s.turnFailCondition = true ↔ ∃ (x : Src) (h : Handle) (r : Record), x ∈ [(3 : Src), 4, 10, 11]
    ∧ h ∈ s.list x ∧ s.record h = some r ∧ (r.state = .faulted ∨ r.state = .stale))
  ∧   (∀ (s : State) (g : Generator) (c : Chan), (s.genMask g).getLsbD (match c with
      | .flL => 0
      | .flR => 1
      | .flB => 2
      | .flV => 3) = decide (s.chan c = .running ∧ g = match c with
        | .flL | .flR => .pair
        | .flB => .beacon
        | .flV => .virtual))
  ∧ (∀ (s : State) (g : Generator), let x := s.gen g
    let claimed (m : OwedMark) (t : State) : Prop :=
      (s.lineRuns = false → t = s.setGen g { x with owed := none })
      ∧ (s.lineRuns = true → s.urgentEntries < 8 →
          t = (s.setUrgent (s.tdl.urgent ++ [.phaseMark m.mask m.on])).setGen g { x with owed := none })
      ∧ (s.lineRuns = true → 8 ≤ s.urgentEntries → t = s.setGen g { x with owed := some m })
    (x.run = none → s.claimGenMark g = s)
    ∧ (∀ r, x.run = some r → claimed { mask := s.genMask g, on := r.on } (s.claimGenMark g))
    ∧ (x.owed = none → s.claimOwedGen g = s)
    ∧ ∀ m, x.owed = some m → claimed m (s.claimOwedGen g))
  ∧ (∀ (s : State) (x : TurnSide),
    let owed := s.frt.followOwed[x.number]
    let c : Chan := match x with
      | .left => .flL
      | .right => .flR
    let mask : BitVec 4 := match x with
      | .left => 1
      | .right => 2
    let claimed (m : OwedMark) (t : State) : Prop :=
      (s.lineRuns = false → t = s.setFollowOwed x none)
      ∧ (s.lineRuns = true → s.urgentEntries < 8 →
          t = (s.setUrgent (s.tdl.urgent ++ [.phaseMark m.mask m.on])).setFollowOwed x none)
      ∧ (s.lineRuns = true → 8 ≤ s.urgentEntries → t = s.setFollowOwed x (some m))
    (s.chan c ≠ .following → s.claimFollowMark x = s)
    ∧ (s.chan c = .following → claimed { mask := mask, on := s.turnInput x } (s.claimFollowMark x))
    ∧ (owed = none → s.claimOwedFollow x = s)
    ∧ ∀ m, owed = some m → claimed m (s.claimOwedFollow x))
  ∧ (∀ s : State,
    s.claimOwed = [TurnSide.left, .right].foldl State.claimOwedFollow
      ([Generator.pair, .beacon, .virtual].foldl State.claimOwedGen s)
    ∧ s.resync = [TurnSide.left, .right].foldl State.claimFollowMark
      ([Generator.pair, .beacon, .virtual].foldl State.claimGenMark s)
    ∧ s.claimDueMarks = s.agenda.follows.foldl State.claimFollowMark (s.agenda.marks.foldl State.claimGenMark
      { s with agenda := { s.agenda with marks := [], follows := [] } }))
  ∧ (∀ (s : State) (g : Generator) (r : GenRun), s.hcp.inReset = false → (s.gen g).run = some r →
    ∃ v : State, exec (.phaseEnd g) s = .next (((v.claimGenMark g).recombine).finish false)
      ∧ v.tdl = s.tdl ∧ v.drt = s.drt ∧ v.fdir = s.fdir ∧ v.now = max s.now r.ends
      ∧ (∀ k, k ≠ g → v.gen k = s.gen k) ∧ (v.gen g).owed = (s.gen g).owed
      ∧ (v.gen g).run.map (·.on) = some (!r.on)
      ∧ ∀ c, v.chan c = if r.on = false ∧ s.chan c = .joining ∧ (g = match c with
          | .flL | .flR => .pair
          | .flB => .beacon
          | .flV => .virtual) then .running else s.chan c)
  ∧ ∀ (s : State) (g : Generator) (r : GenRun), s.hcp.inReset = false → s.engineQuiet → (s.gen g).run = some r →
    ∃ t : State, exec (.phaseEnd g) s = .next t ∧ t.fixed = { s.fixed with now := max s.now r.ends }
      ∧ (r.on = true → (t.gen g).run =
            some { on := false, ends := r.ends + ms (r.period - r.period / 2), period := r.period }
          ∧ (t.gen g).cycle = (s.gen g).cycle)
      ∧ (r.on = false →
          let p := if g = .pair ∧ s.turnFailCondition = true then s.hcp.cfg.flashPeriod / 2 else s.hcp.cfg.flashPeriod
          (t.gen g).run = some { on := true, ends := r.ends + ms (p / 2), period := p }
          ∧ (t.gen g).cycle = s.hcp.cfg.flashPeriod)

/-- The timers of a reversal guard: the dead timer's end brings IDLE, or the run of the pending slot with its run-limit
timer, and the run is asked for (R153); the run limit's end brings DWELL with the slot empty and the owner's change reported,
and STOP is asked for (R155). What a guard's asking and its wait for STOP do stands in GuardTakesRunAndStop. That the clock
stands at the timer's moment at the earliest, and a new run limit is counted from there, is the model's choice (log entry
2). -/
def Obligations.GuardTimersMoveTheGuard : Prop :=
  ∀ (s : State) (g : Fin 6) (e : Nat), s.hcp.inReset = false →
    let x := s.guard g
    (x.deadTimer = some e → ∃ u : State, exec (.deadTimerExpiry g) s = .next (u.finish false)
      ∧ u.fixed = { s.fixed with now := max s.now e }
      ∧ (x.slot = none → u.guard g = { x with state := .idle, deadTimer := none, awaiting := false })
      ∧ (∀ d, x.slot = some d → u.guard g = { x with
          state := (match d with
            | .a => .runA
            | .b => .runB)
          runTimer := some (max s.now e + ms (1000 * x.limit)), deadTimer := none, awaiting := false, slot := none }
        ∧ u = ((s.advanceTo e).putGuard g (u.guard g)).guardAsk g (match d with
          | .a => .runA
          | .b => .runB)))
    ∧ (x.runTimer = some e → ∃ u : State, exec (.runLimitExpiry g) s = .next (u.finish false)
      ∧ u.fixed = { s.fixed with now := max s.now e }
      ∧ (u.guard g).state = .dwell ∧ (u.guard g).slot = none ∧ (u.guard g).runTimer = none
      ∧ (∀ h q, x.owner = some (h, q) → h ∈ u.agenda.joins)
      ∧ ∃ v : State, u = (v.guardAsk g .stop).stopNeedsNoDrive g
        ∧ v.guard g = { x with state := .dwell, runTimer := none, deadTimer := none, awaiting := true, slot := none }
        ∧ v.drt = s.drt ∧ v.tdl = s.tdl ∧ v.prv = s.prv ∧ v.now = max s.now e)

/-- What a guard does with a run asked for (R151) and with a STOP (R152), in each of its states; the router may have entered
the STOP itself (R128). Entering a run, or in that run already, it asks for the run's word; leaving a run it asks for STOP
and awaits it, and the dead timer starts at once when the record is drive-settled with STOP last placed (R153). Its new state
is its owner's motion (R156). What it asks for reaches the pending-drive set as a routine entry of its owner's (R126, R128).
That the entry of an owner withheld for overload stays as it is, a host's STOP too, where R126 would remove one whose output
returns to the last placed, is the model's inference (State.pendAsked, log entry 8). -/
def Obligations.GuardTakesRunAndStop : Prop :=
  (∀ (s : State) (g : Fin 6) (y : Guard), (s.putGuard g y).guard g = y ∧ (s.putGuard g y).drt = s.drt
    ∧ ∀ h q r, y.owner = some (h, q) → s.livePair h q = some r → r.cls = .actuator →
      (s.putGuard g y).record h = some { r with motion := match y.state with
        | .idle => some .stopped
        | .runA => some .runningA
        | .runB => some .runningB
        | .dwell => some .dwell })
  ∧ (∀ (s : State) (g : Fin 6) (w : OutWord), (s.guardAsk g w).guard g = s.guard g
    ∧ (∀ k, (s.guardAsk g w).record k = s.record k)
    ∧ ((s.guard g).owner = none → s.guardAsk g w = s)
    ∧ ∀ h q r, (s.guard g).owner = some (h, q) → s.livePair h q = some r → s.pendAsked h r w (s.guardAsk g w).drt.pend)
  ∧ (∀ (s : State) (g : Fin 6), let x := s.guard g
    let done : Prop := ∃ h q r d, x.owner = some (h, q) ∧ s.live h = some r ∧ r.drive = some d ∧ s.settled h = true
      ∧ d.lastPlaced = some .stop
    x.state = .dwell → x.awaiting = true →
    (done → s.stopNeedsNoDrive g = s.setGuard g { x with awaiting := false, deadTimer := some (s.now + ms x.dead) })
    ∧ (¬ done → s.stopNeedsNoDrive g = s))
  ∧ ∀ (s : State) (g : Fin 6) (d : Dir),
    let x := s.guard g
    let run : GuardState := match d with
      | .a => .runA
      | .b => .runB
    let word : OutWord := match d with
      | .a => .runA
      | .b => .runB
    let leaving (slot : Option Dir) : State := s.putGuard g { x with
      state := .dwell, runTimer := none, deadTimer := none, awaiting := true, slot := slot }
    (x.state = .idle → (s.guardRun g d).guard g = { x with
        state := run, runTimer := some (s.now + ms (1000 * x.limit)), deadTimer := none, awaiting := false, slot := none }
      ∧ s.guardRun g d = (s.putGuard g ((s.guardRun g d).guard g)).guardAsk g word)
    ∧ (x.state = .dwell → s.guardRun g d = s.setGuard g { x with slot := some d })
    ∧ (x.state = run → (s.guardRun g d).guard g = { x with runTimer := some (s.now + ms (1000 * x.limit)) }
      ∧ s.guardRun g d = (s.setGuard g ((s.guardRun g d).guard g)).guardAsk g word)
    ∧ (x.state ≠ .idle → x.state ≠ .dwell → x.state ≠ run →
        ((s.guardRun g d).guard g).state = .dwell ∧ ((s.guardRun g d).guard g).slot = some d
        ∧ ((s.guardRun g d).guard g).runTimer = none
        ∧ s.guardRun g d = ((leaving (some d)).guardAsk g .stop).stopNeedsNoDrive g)
    ∧ (x.state = .idle → s.guardStop g false = s.guardAsk g .stop ∧ s.guardStop g true = s)
    ∧ (x.state = .dwell → ∀ entered, s.guardStop g entered = s.setGuard g { x with slot := none })
    ∧ (x.state ≠ .idle → x.state ≠ .dwell → ((s.guardStop g false).guard g).state = .dwell
        ∧ ((s.guardStop g false).guard g).slot = none ∧ ((s.guardStop g false).guard g).runTimer = none
        ∧ s.guardStop g false = ((leaving none).guardAsk g .stop).stopNeedsNoDrive g
        ∧ s.guardStop g true = (leaving none).stopNeedsNoDrive g)

/-! ### The stored list's events and the resets -/

/-- The end of the scan takes each sound entry that is not EMPTY and counts the torn ones, and with no match waiting sets the
use counter to the largest stamp taken (R177, R178). The end of a write writes each entry of it, or takes an entry whose
read-back disagrees as EMPTY, clears WEL, sets NV_DONE for a host-ordered or a failed write, and records the outcome, which
for an ERASE LIST is WRITE_FAILED as soon as one entry failed (R190, R181). Either end answers a waiting match (R178, R179,
R190): MISS without an entry of the identity, MISMATCH with a digest or node count that differs, and HIT, with the hints
applied in order and the stamp renewed unless NVLOCK is high (R179, R180, R181). Which entries' read-back disagrees comes
with the event (log entry 33), and what the memory then holds is the model's choice (log entry 14). -/
def Obligations.ScanAndWritesEnd : Prop :=
  (∀ (s : State) (m : MatchReq),
    let holds (i : Fin 16) : Prop := (s.ktlEntry i).state ≠ .empty ∧ (s.ktlEntry i).identity = m.identity
    ((∀ i, ¬ holds i) → s.answerMatch m = (s, .miss))
    ∧ ∀ i, holds i → (∀ j, j < i → ¬ holds j) →
      let e := s.ktlEntry i
      let n := min 4294967295 (s.ktl.useCounter + 1)
      (e.digest ≠ m.digest ∨ e.nodeCount ≠ m.nodeCount → s.answerMatch m = (s.raise .ktlMismatch, .mismatch))
      ∧ (e.digest = m.digest → e.nodeCount = m.nodeCount →
        let u := e.hints.foldl (State.applyHint m.first m.unit) s
        u.ktl = s.ktl ∧ s.answerMatch m = (if s.hcp.nvlock = true then u else u.setKtl { s.ktl with
          useCounter := n
          write := some { kind := .renew, target := i, content := { e with stamp := n }, limit := s.now + ms 3 } }, .hit)))
  ∧ (∀ (s : State) (first unit : Nat) (x : Hint) (h : Handle) (r : Record) (n : NodeEntry),
    let p := first + x.position - 1
    let t := State.applyHint first unit s x
    s.nodeAt p = some n → s.recordOf p x.index = some h → s.live h = some r →
    let applies : Prop := n.unit = unit ∧ (r.state = .provisional ∨ r.state = .proving ∨ r.state = .ready ∨ r.state = .bound)
      ∧ (r.cls = .lamp ∨ r.cls = .supply) ∧ r.tie ≠ some x.source ∧ (s.list x.source).length < 16
    (¬ applies → t = s)
    ∧ (applies → h ∈ t.list x.source ∧ h ∈ t.agenda.joins ∧ ∃ r', t.record h = some r' ∧ r'.tie = some x.source
      ∧ (r.state = .ready ∨ r.state = .bound → r'.state = .bound ∧ r'.binding = some x.source)
      ∧ (r.state = .provisional ∨ r.state = .proving → r'.intended = some x.source)))
  ∧ (∀ (s : State) (first unit : Nat) (x : Hint), s.nodeAt (first + x.position - 1) = none
      ∨ s.recordOf (first + x.position - 1) x.index = none → State.applyHint first unit s x = s)
  ∧ ∀ s : State, s.hcp.inReset = false →
    (s.ktl.scanning = true → ∃ t : State, exec .ktlScanEnd s = .next t ∧ t.ktl.scanning = false
      ∧ (∀ i : Fin 16, t.ktlEntry i =
          if s.ktl.cells[i].check = s.ktl.cells[i].entry.check ∧ s.ktl.cells[i].entry.state ≠ .empty
          then s.ktl.cells[i].entry else KtlEntry.blank)
      ∧ t.ktl.torn = (s.ktl.cells.toList.filter fun c => c.check != c.entry.check).length
      ∧ t.ktl.cells = s.ktl.cells ∧ t.ktl.wel = s.ktl.wel
      ∧ (s.ktl.waiting = none → s.engineQuiet →
          (∀ i : Fin 16, (t.ktlEntry i).state ≠ .empty → (t.ktlEntry i).stamp ≤ t.ktl.useCounter)
          ∧ (t.ktl.useCounter = 0 ∨ ∃ i : Fin 16, (t.ktlEntry i).state ≠ .empty
              ∧ (t.ktlEntry i).stamp = t.ktl.useCounter))
      ∧ ∀ m, s.ktl.waiting = some m → ∃ u : State, exec .ktlScanEnd s = .next (u.finish false)
        ∧ u.ktl.waiting = none ∧ (u.bue.units[m.unit - 1]?).map (·.outcome)
          = (s.bue.units[m.unit - 1]?).map fun _ => (s.endScan.answerMatch m).2)
    ∧ ∀ (w : KtlWrite) (bad : BitVec 16), s.ktl.write = some w → ∃ t : State, exec (.ktlWriteEnd bad) s = .next t
      ∧ (∀ i : Fin 16,
          if (w.kind = .eraseList ∧ (s.ktlEntry i).state ≠ .pinned) ∨ (w.kind ≠ .eraseList ∧ i = w.target) then
            (bad.getLsbD i.val = false → t.ktlEntry i = w.content ∧ t.ktl.cells[i] = w.content.cell)
            ∧ (bad.getLsbD i.val = true → t.ktlEntry i = KtlEntry.blank ∧ t.ktl.cells[i] = w.content.tornCell)
          else t.ktlEntry i = s.ktlEntry i ∧ t.ktl.cells[i] = s.ktl.cells[i])
      ∧ t.ktl.wel = false
      ∧ (w.kind ≠ .eraseList → bad.getLsbD w.target.val = true →
          t.ktl.last = .writeFailed ∧ t.hcp.flags.getLsbD 9 = true)
      ∧ (w.kind ≠ .eraseList → bad.getLsbD w.target.val = false → w.kind ≠ .renew →
          t.ktl.last = (if w.kind = .remember true then .hintsTruncated else .ok) ∧ t.hcp.flags.getLsbD 9 = true)
      ∧ (bad.getLsbD w.target.val = false → w.kind = .renew → t.ktl.last = s.ktl.last)
      ∧ (w.kind = .eraseList → t.hcp.flags.getLsbD 9 = true
        ∧ ((∃ i : Fin 16, (s.ktlEntry i).state ≠ .pinned ∧ bad.getLsbD i.val = true) → t.ktl.last = .writeFailed)
        ∧ ((∀ i : Fin 16, (s.ktlEntry i).state ≠ .pinned → bad.getLsbD i.val = false) → t.ktl.last = .ok))
      ∧ (s.ktl.waiting = none → s.engineQuiet → t.ktl.write = none ∧ t.ktl.useCounter = s.ktl.useCounter)
      ∧ ∀ m, s.ktl.waiting = some m → ∃ u : State, exec (.ktlWriteEnd bad) s = .next (u.finish false)
        ∧ u.ktl.waiting = none ∧ (u.bue.units[m.unit - 1]?).map (·.outcome)
          = (s.bue.units[m.unit - 1]?).map fun _ => ((s.endWrite w bad).answerMatch m).2

/-- The RESET input and the device resets (R210, R211, R191): a fall silences the port and releases ATTN; a rise lets the
port answer again; after 1 ms low, or at a fall of the supply, every volatile state has its device reset value and a write
in flight has torn its entry; the device reset ends 1 ms after the rise. A transaction in progress at the fall of RESET, or
when a device reset begins, is ended, one whose CS_N falls while the port is silent is not framed, and neither is until CS_N
rises, though the port answers again before: nothing of it is taken and FRAME_ERROR is not set (R210). That SDO is
high-impedance through such a transaction is log entry 52 (DEDUCED). That a fall of VDD is kept until the reset's end is
told from outside is log entry 29 (DEDUCED). The model's choice or inference are also the values of State.reset that no rule
gives (entries EMPTY with the use counter and the torn count 0 before the scan, log entry 13; the idle gap passed, log entry
1; an empty response, log entry 10; CS_N high, log entry 52; no last frame, log entry 28; the engine's next index, log entry
44), what a torn cell holds (log entry 14), that NVLOCK's level stands (log entry 12), and that the clock stands at the
moment of each event at the earliest (log entry 2). -/
def Obligations.ResetsGiveResetValues : Prop :=
  ∀ s : State,
    (s.hcp.resetLow = none → ∃ t : State, exec .resetFall s = .next t ∧ t.portSilent = true ∧ t.hcp.attnLow = false
      ∧ t.hcp.stream = .none ∧ t.hcp.spi = (if s.hcp.spi = .high then .high else .unframed)
      ∧ t.hcp.resetLow = some s.now ∧ t.hcp.flags = s.hcp.flags ∧ t.hcp.mask = s.hcp.mask
      ∧ t.hcp.cfg = s.hcp.cfg ∧ t.cmon = s.cmon ∧ t.tdl = s.tdl ∧ t.bue = s.bue ∧ t.ntab = s.ntab ∧ t.fdir = s.fdir
      ∧ t.drt = s.drt ∧ t.ktl = s.ktl)
    ∧ (∀ a, s.hcp.resetLow = some a → ∃ t : State, exec .resetRise s = .next t ∧ t.hcp.resetLow = none
      ∧ t.hcp.resetEnds = s.now + ms 1 ∧ t.hcp.spi = s.hcp.spi ∧ t.hcp.attnLow = t.attnWanted ∧ t.hcp.flags = s.hcp.flags
      ∧ t.cmon = s.cmon ∧ t.tdl = s.tdl ∧ t.bue = s.bue ∧ t.ntab = s.ntab ∧ t.fdir = s.fdir ∧ t.drt = s.drt
      ∧ t.ktl = s.ktl)
    ∧ (∀ a, s.hcp.resetLow = some a → s.hcp.inReset = false → ∃ t : State, exec .deviceReset s = .next t
      ∧ t.now = max s.now (a + ms 1) ∧ s.cleared t ∧ t.hcp.vddLow = s.hcp.vddLow)
    ∧ (∃ t : State, exec .supplyReset s = .next t ∧ t.now = s.now ∧ s.cleared t ∧ t.hcp.vddLow = true)
    ∧ (s.hcp.inReset = true → s.hcp.resetLow = none → ∃ t : State, exec .deviceResetEnd s = .next t
      ∧ t.now = max s.now s.hcp.resetEnds ∧ t.hcp.vddLow = false ∧ t.portSilent = false ∧ t.ktl = s.ktl
      ∧ t.hcp.spi = s.hcp.spi ∧ t.fdir = s.fdir ∧ t.tdl = s.tdl ∧ t.hcp.attnLow = t.attnWanted)
    ∧ (s.hcp.spi = .unframed → s.selectFall = s ∧ s.clockFall = s ∧ (∀ d, s.clockRise d = s) ∧ s.sdo = none
      ∧ s.selectRise = { s with hcp := { s.hcp with spi := .high } })
    ∧ (s.hcp.spi = .high → s.portSilent = true → s.selectFall = { s with hcp := { s.hcp with spi := .unframed } })
end

