-- ==== Sys2Proof/Laws/State.lean ====
section
/-! SUPPORT. Each setter changes one block of the state: one lemma for each block and setter, true by definition. -/

namespace Sys2Proof.Machine

@[simp] theorem advanceTo_pending (s : State) (t : Nat) : (s.advanceTo t).pending = s.pending := rfl
@[simp] theorem advanceTo_agenda (s : State) (t : Nat) : (s.advanceTo t).agenda = s.agenda := rfl
@[simp] theorem advanceTo_free (s : State) (t : Nat) : (s.advanceTo t).free = s.free := rfl
@[simp] theorem advanceTo_cmon (s : State) (t : Nat) : (s.advanceTo t).cmon = s.cmon := rfl
@[simp] theorem advanceTo_tdl (s : State) (t : Nat) : (s.advanceTo t).tdl = s.tdl := rfl
@[simp] theorem advanceTo_bue (s : State) (t : Nat) : (s.advanceTo t).bue = s.bue := rfl
@[simp] theorem advanceTo_ntab (s : State) (t : Nat) : (s.advanceTo t).ntab = s.ntab := rfl
@[simp] theorem advanceTo_fdir (s : State) (t : Nat) : (s.advanceTo t).fdir = s.fdir := rfl
@[simp] theorem advanceTo_prv (s : State) (t : Nat) : (s.advanceTo t).prv = s.prv := rfl
@[simp] theorem advanceTo_drt (s : State) (t : Nat) : (s.advanceTo t).drt = s.drt := rfl
@[simp] theorem advanceTo_frt (s : State) (t : Nat) : (s.advanceTo t).frt = s.frt := rfl
@[simp] theorem advanceTo_csch (s : State) (t : Nat) : (s.advanceTo t).csch = s.csch := rfl
@[simp] theorem advanceTo_ktl (s : State) (t : Nat) : (s.advanceTo t).ktl = s.ktl := rfl
@[simp] theorem advanceTo_hcp (s : State) (t : Nat) : (s.advanceTo t).hcp = s.hcp := rfl

@[simp] theorem setSlot_now (s : State) (h : Handle) (x : Slot) : (s.setSlot h x).now = s.now := rfl
@[simp] theorem setSlot_pending (s : State) (h : Handle) (x : Slot) : (s.setSlot h x).pending = s.pending := rfl
@[simp] theorem setSlot_agenda (s : State) (h : Handle) (x : Slot) : (s.setSlot h x).agenda = s.agenda := rfl
@[simp] theorem setSlot_free (s : State) (h : Handle) (x : Slot) : (s.setSlot h x).free = s.free := rfl
@[simp] theorem setSlot_cmon (s : State) (h : Handle) (x : Slot) : (s.setSlot h x).cmon = s.cmon := rfl
@[simp] theorem setSlot_tdl (s : State) (h : Handle) (x : Slot) : (s.setSlot h x).tdl = s.tdl := rfl
@[simp] theorem setSlot_bue (s : State) (h : Handle) (x : Slot) : (s.setSlot h x).bue = s.bue := rfl
@[simp] theorem setSlot_ntab (s : State) (h : Handle) (x : Slot) : (s.setSlot h x).ntab = s.ntab := rfl
@[simp] theorem setSlot_prv (s : State) (h : Handle) (x : Slot) : (s.setSlot h x).prv = s.prv := rfl
@[simp] theorem setSlot_drt (s : State) (h : Handle) (x : Slot) : (s.setSlot h x).drt = s.drt := rfl
@[simp] theorem setSlot_frt (s : State) (h : Handle) (x : Slot) : (s.setSlot h x).frt = s.frt := rfl
@[simp] theorem setSlot_csch (s : State) (h : Handle) (x : Slot) : (s.setSlot h x).csch = s.csch := rfl
@[simp] theorem setSlot_ktl (s : State) (h : Handle) (x : Slot) : (s.setSlot h x).ktl = s.ktl := rfl
@[simp] theorem setSlot_hcp (s : State) (h : Handle) (x : Slot) : (s.setSlot h x).hcp = s.hcp := rfl

@[simp] theorem setAttention_now (s : State) (l : List Handle) : (s.setAttention l).now = s.now := rfl
@[simp] theorem setAttention_pending (s : State) (l : List Handle) : (s.setAttention l).pending = s.pending := rfl
@[simp] theorem setAttention_agenda (s : State) (l : List Handle) : (s.setAttention l).agenda = s.agenda := rfl
@[simp] theorem setAttention_free (s : State) (l : List Handle) : (s.setAttention l).free = s.free := rfl
@[simp] theorem setAttention_cmon (s : State) (l : List Handle) : (s.setAttention l).cmon = s.cmon := rfl
@[simp] theorem setAttention_tdl (s : State) (l : List Handle) : (s.setAttention l).tdl = s.tdl := rfl
@[simp] theorem setAttention_bue (s : State) (l : List Handle) : (s.setAttention l).bue = s.bue := rfl
@[simp] theorem setAttention_ntab (s : State) (l : List Handle) : (s.setAttention l).ntab = s.ntab := rfl
@[simp] theorem setAttention_prv (s : State) (l : List Handle) : (s.setAttention l).prv = s.prv := rfl
@[simp] theorem setAttention_drt (s : State) (l : List Handle) : (s.setAttention l).drt = s.drt := rfl
@[simp] theorem setAttention_frt (s : State) (l : List Handle) : (s.setAttention l).frt = s.frt := rfl
@[simp] theorem setAttention_csch (s : State) (l : List Handle) : (s.setAttention l).csch = s.csch := rfl
@[simp] theorem setAttention_ktl (s : State) (l : List Handle) : (s.setAttention l).ktl = s.ktl := rfl
@[simp] theorem setAttention_hcp (s : State) (l : List Handle) : (s.setAttention l).hcp = s.hcp := rfl

@[simp] theorem setRecat_now (s : State) (c : Option Recatalogue) : (s.setRecat c).now = s.now := rfl
@[simp] theorem setRecat_pending (s : State) (c : Option Recatalogue) : (s.setRecat c).pending = s.pending := rfl
@[simp] theorem setRecat_agenda (s : State) (c : Option Recatalogue) : (s.setRecat c).agenda = s.agenda := rfl
@[simp] theorem setRecat_free (s : State) (c : Option Recatalogue) : (s.setRecat c).free = s.free := rfl
@[simp] theorem setRecat_cmon (s : State) (c : Option Recatalogue) : (s.setRecat c).cmon = s.cmon := rfl
@[simp] theorem setRecat_tdl (s : State) (c : Option Recatalogue) : (s.setRecat c).tdl = s.tdl := rfl
@[simp] theorem setRecat_bue (s : State) (c : Option Recatalogue) : (s.setRecat c).bue = s.bue := rfl
@[simp] theorem setRecat_ntab (s : State) (c : Option Recatalogue) : (s.setRecat c).ntab = s.ntab := rfl
@[simp] theorem setRecat_prv (s : State) (c : Option Recatalogue) : (s.setRecat c).prv = s.prv := rfl
@[simp] theorem setRecat_drt (s : State) (c : Option Recatalogue) : (s.setRecat c).drt = s.drt := rfl
@[simp] theorem setRecat_frt (s : State) (c : Option Recatalogue) : (s.setRecat c).frt = s.frt := rfl
@[simp] theorem setRecat_csch (s : State) (c : Option Recatalogue) : (s.setRecat c).csch = s.csch := rfl
@[simp] theorem setRecat_ktl (s : State) (c : Option Recatalogue) : (s.setRecat c).ktl = s.ktl := rfl
@[simp] theorem setRecat_hcp (s : State) (c : Option Recatalogue) : (s.setRecat c).hcp = s.hcp := rfl

@[simp] theorem setBue_now (s : State) (b : Bue) : (s.setBue b).now = s.now := rfl
@[simp] theorem setBue_pending (s : State) (b : Bue) : (s.setBue b).pending = s.pending := rfl
@[simp] theorem setBue_agenda (s : State) (b : Bue) : (s.setBue b).agenda = s.agenda := rfl
@[simp] theorem setBue_free (s : State) (b : Bue) : (s.setBue b).free = s.free := rfl
@[simp] theorem setBue_cmon (s : State) (b : Bue) : (s.setBue b).cmon = s.cmon := rfl
@[simp] theorem setBue_tdl (s : State) (b : Bue) : (s.setBue b).tdl = s.tdl := rfl
@[simp] theorem setBue_ntab (s : State) (b : Bue) : (s.setBue b).ntab = s.ntab := rfl
@[simp] theorem setBue_fdir (s : State) (b : Bue) : (s.setBue b).fdir = s.fdir := rfl
@[simp] theorem setBue_prv (s : State) (b : Bue) : (s.setBue b).prv = s.prv := rfl
@[simp] theorem setBue_drt (s : State) (b : Bue) : (s.setBue b).drt = s.drt := rfl
@[simp] theorem setBue_frt (s : State) (b : Bue) : (s.setBue b).frt = s.frt := rfl
@[simp] theorem setBue_csch (s : State) (b : Bue) : (s.setBue b).csch = s.csch := rfl
@[simp] theorem setBue_ktl (s : State) (b : Bue) : (s.setBue b).ktl = s.ktl := rfl
@[simp] theorem setBue_hcp (s : State) (b : Bue) : (s.setBue b).hcp = s.hcp := rfl

@[simp] theorem setNtab_now (s : State) (n : Ntab) : (s.setNtab n).now = s.now := rfl
@[simp] theorem setNtab_pending (s : State) (n : Ntab) : (s.setNtab n).pending = s.pending := rfl
@[simp] theorem setNtab_agenda (s : State) (n : Ntab) : (s.setNtab n).agenda = s.agenda := rfl
@[simp] theorem setNtab_free (s : State) (n : Ntab) : (s.setNtab n).free = s.free := rfl
@[simp] theorem setNtab_cmon (s : State) (n : Ntab) : (s.setNtab n).cmon = s.cmon := rfl
@[simp] theorem setNtab_tdl (s : State) (n : Ntab) : (s.setNtab n).tdl = s.tdl := rfl
@[simp] theorem setNtab_bue (s : State) (n : Ntab) : (s.setNtab n).bue = s.bue := rfl
@[simp] theorem setNtab_fdir (s : State) (n : Ntab) : (s.setNtab n).fdir = s.fdir := rfl
@[simp] theorem setNtab_prv (s : State) (n : Ntab) : (s.setNtab n).prv = s.prv := rfl
@[simp] theorem setNtab_drt (s : State) (n : Ntab) : (s.setNtab n).drt = s.drt := rfl
@[simp] theorem setNtab_frt (s : State) (n : Ntab) : (s.setNtab n).frt = s.frt := rfl
@[simp] theorem setNtab_csch (s : State) (n : Ntab) : (s.setNtab n).csch = s.csch := rfl
@[simp] theorem setNtab_ktl (s : State) (n : Ntab) : (s.setNtab n).ktl = s.ktl := rfl
@[simp] theorem setNtab_hcp (s : State) (n : Ntab) : (s.setNtab n).hcp = s.hcp := rfl

@[simp] theorem setTdl_now (s : State) (t : Tdl) : (s.setTdl t).now = s.now := rfl
@[simp] theorem setTdl_pending (s : State) (t : Tdl) : (s.setTdl t).pending = s.pending := rfl
@[simp] theorem setTdl_agenda (s : State) (t : Tdl) : (s.setTdl t).agenda = s.agenda := rfl
@[simp] theorem setTdl_free (s : State) (t : Tdl) : (s.setTdl t).free = s.free := rfl
@[simp] theorem setTdl_cmon (s : State) (t : Tdl) : (s.setTdl t).cmon = s.cmon := rfl
@[simp] theorem setTdl_bue (s : State) (t : Tdl) : (s.setTdl t).bue = s.bue := rfl
@[simp] theorem setTdl_ntab (s : State) (t : Tdl) : (s.setTdl t).ntab = s.ntab := rfl
@[simp] theorem setTdl_fdir (s : State) (t : Tdl) : (s.setTdl t).fdir = s.fdir := rfl
@[simp] theorem setTdl_prv (s : State) (t : Tdl) : (s.setTdl t).prv = s.prv := rfl
@[simp] theorem setTdl_drt (s : State) (t : Tdl) : (s.setTdl t).drt = s.drt := rfl
@[simp] theorem setTdl_frt (s : State) (t : Tdl) : (s.setTdl t).frt = s.frt := rfl
@[simp] theorem setTdl_csch (s : State) (t : Tdl) : (s.setTdl t).csch = s.csch := rfl
@[simp] theorem setTdl_ktl (s : State) (t : Tdl) : (s.setTdl t).ktl = s.ktl := rfl
@[simp] theorem setTdl_hcp (s : State) (t : Tdl) : (s.setTdl t).hcp = s.hcp := rfl

@[simp] theorem setCmon_now (s : State) (c : Cmon) : (s.setCmon c).now = s.now := rfl
@[simp] theorem setCmon_pending (s : State) (c : Cmon) : (s.setCmon c).pending = s.pending := rfl
@[simp] theorem setCmon_agenda (s : State) (c : Cmon) : (s.setCmon c).agenda = s.agenda := rfl
@[simp] theorem setCmon_free (s : State) (c : Cmon) : (s.setCmon c).free = s.free := rfl
@[simp] theorem setCmon_tdl (s : State) (c : Cmon) : (s.setCmon c).tdl = s.tdl := rfl
@[simp] theorem setCmon_bue (s : State) (c : Cmon) : (s.setCmon c).bue = s.bue := rfl
@[simp] theorem setCmon_ntab (s : State) (c : Cmon) : (s.setCmon c).ntab = s.ntab := rfl
@[simp] theorem setCmon_fdir (s : State) (c : Cmon) : (s.setCmon c).fdir = s.fdir := rfl
@[simp] theorem setCmon_prv (s : State) (c : Cmon) : (s.setCmon c).prv = s.prv := rfl
@[simp] theorem setCmon_drt (s : State) (c : Cmon) : (s.setCmon c).drt = s.drt := rfl
@[simp] theorem setCmon_frt (s : State) (c : Cmon) : (s.setCmon c).frt = s.frt := rfl
@[simp] theorem setCmon_csch (s : State) (c : Cmon) : (s.setCmon c).csch = s.csch := rfl
@[simp] theorem setCmon_ktl (s : State) (c : Cmon) : (s.setCmon c).ktl = s.ktl := rfl
@[simp] theorem setCmon_hcp (s : State) (c : Cmon) : (s.setCmon c).hcp = s.hcp := rfl

@[simp] theorem setKtl_now (s : State) (k : Ktl) : (s.setKtl k).now = s.now := rfl
@[simp] theorem setKtl_pending (s : State) (k : Ktl) : (s.setKtl k).pending = s.pending := rfl
@[simp] theorem setKtl_agenda (s : State) (k : Ktl) : (s.setKtl k).agenda = s.agenda := rfl
@[simp] theorem setKtl_free (s : State) (k : Ktl) : (s.setKtl k).free = s.free := rfl
@[simp] theorem setKtl_cmon (s : State) (k : Ktl) : (s.setKtl k).cmon = s.cmon := rfl
@[simp] theorem setKtl_tdl (s : State) (k : Ktl) : (s.setKtl k).tdl = s.tdl := rfl
@[simp] theorem setKtl_bue (s : State) (k : Ktl) : (s.setKtl k).bue = s.bue := rfl
@[simp] theorem setKtl_ntab (s : State) (k : Ktl) : (s.setKtl k).ntab = s.ntab := rfl
@[simp] theorem setKtl_fdir (s : State) (k : Ktl) : (s.setKtl k).fdir = s.fdir := rfl
@[simp] theorem setKtl_prv (s : State) (k : Ktl) : (s.setKtl k).prv = s.prv := rfl
@[simp] theorem setKtl_drt (s : State) (k : Ktl) : (s.setKtl k).drt = s.drt := rfl
@[simp] theorem setKtl_frt (s : State) (k : Ktl) : (s.setKtl k).frt = s.frt := rfl
@[simp] theorem setKtl_csch (s : State) (k : Ktl) : (s.setKtl k).csch = s.csch := rfl
@[simp] theorem setKtl_hcp (s : State) (k : Ktl) : (s.setKtl k).hcp = s.hcp := rfl

@[simp] theorem setUrgent_now (s : State) (q : List Request) : (s.setUrgent q).now = s.now := rfl
@[simp] theorem setUrgent_pending (s : State) (q : List Request) : (s.setUrgent q).pending = s.pending := rfl
@[simp] theorem setUrgent_agenda (s : State) (q : List Request) : (s.setUrgent q).agenda = s.agenda := rfl
@[simp] theorem setUrgent_free (s : State) (q : List Request) : (s.setUrgent q).free = s.free := rfl
@[simp] theorem setUrgent_cmon (s : State) (q : List Request) : (s.setUrgent q).cmon = s.cmon := rfl
@[simp] theorem setUrgent_bue (s : State) (q : List Request) : (s.setUrgent q).bue = s.bue := rfl
@[simp] theorem setUrgent_ntab (s : State) (q : List Request) : (s.setUrgent q).ntab = s.ntab := rfl
@[simp] theorem setUrgent_fdir (s : State) (q : List Request) : (s.setUrgent q).fdir = s.fdir := rfl
@[simp] theorem setUrgent_prv (s : State) (q : List Request) : (s.setUrgent q).prv = s.prv := rfl
@[simp] theorem setUrgent_drt (s : State) (q : List Request) : (s.setUrgent q).drt = s.drt := rfl
@[simp] theorem setUrgent_frt (s : State) (q : List Request) : (s.setUrgent q).frt = s.frt := rfl
@[simp] theorem setUrgent_csch (s : State) (q : List Request) : (s.setUrgent q).csch = s.csch := rfl
@[simp] theorem setUrgent_ktl (s : State) (q : List Request) : (s.setUrgent q).ktl = s.ktl := rfl
@[simp] theorem setUrgent_hcp (s : State) (q : List Request) : (s.setUrgent q).hcp = s.hcp := rfl

@[simp] theorem setRoutine_now (s : State) (q : List Request) : (s.setRoutine q).now = s.now := rfl
@[simp] theorem setRoutine_pending (s : State) (q : List Request) : (s.setRoutine q).pending = s.pending := rfl
@[simp] theorem setRoutine_agenda (s : State) (q : List Request) : (s.setRoutine q).agenda = s.agenda := rfl
@[simp] theorem setRoutine_free (s : State) (q : List Request) : (s.setRoutine q).free = s.free := rfl
@[simp] theorem setRoutine_cmon (s : State) (q : List Request) : (s.setRoutine q).cmon = s.cmon := rfl
@[simp] theorem setRoutine_bue (s : State) (q : List Request) : (s.setRoutine q).bue = s.bue := rfl
@[simp] theorem setRoutine_ntab (s : State) (q : List Request) : (s.setRoutine q).ntab = s.ntab := rfl
@[simp] theorem setRoutine_fdir (s : State) (q : List Request) : (s.setRoutine q).fdir = s.fdir := rfl
@[simp] theorem setRoutine_prv (s : State) (q : List Request) : (s.setRoutine q).prv = s.prv := rfl
@[simp] theorem setRoutine_drt (s : State) (q : List Request) : (s.setRoutine q).drt = s.drt := rfl
@[simp] theorem setRoutine_frt (s : State) (q : List Request) : (s.setRoutine q).frt = s.frt := rfl
@[simp] theorem setRoutine_csch (s : State) (q : List Request) : (s.setRoutine q).csch = s.csch := rfl
@[simp] theorem setRoutine_ktl (s : State) (q : List Request) : (s.setRoutine q).ktl = s.ktl := rfl
@[simp] theorem setRoutine_hcp (s : State) (q : List Request) : (s.setRoutine q).hcp = s.hcp := rfl

@[simp] theorem setInFlight_now (s : State) (f : Option InFlight) : (s.setInFlight f).now = s.now := rfl
@[simp] theorem setInFlight_pending (s : State) (f : Option InFlight) : (s.setInFlight f).pending = s.pending := rfl
@[simp] theorem setInFlight_agenda (s : State) (f : Option InFlight) : (s.setInFlight f).agenda = s.agenda := rfl
@[simp] theorem setInFlight_free (s : State) (f : Option InFlight) : (s.setInFlight f).free = s.free := rfl
@[simp] theorem setInFlight_cmon (s : State) (f : Option InFlight) : (s.setInFlight f).cmon = s.cmon := rfl
@[simp] theorem setInFlight_bue (s : State) (f : Option InFlight) : (s.setInFlight f).bue = s.bue := rfl
@[simp] theorem setInFlight_ntab (s : State) (f : Option InFlight) : (s.setInFlight f).ntab = s.ntab := rfl
@[simp] theorem setInFlight_fdir (s : State) (f : Option InFlight) : (s.setInFlight f).fdir = s.fdir := rfl
@[simp] theorem setInFlight_prv (s : State) (f : Option InFlight) : (s.setInFlight f).prv = s.prv := rfl
@[simp] theorem setInFlight_drt (s : State) (f : Option InFlight) : (s.setInFlight f).drt = s.drt := rfl
@[simp] theorem setInFlight_frt (s : State) (f : Option InFlight) : (s.setInFlight f).frt = s.frt := rfl
@[simp] theorem setInFlight_csch (s : State) (f : Option InFlight) : (s.setInFlight f).csch = s.csch := rfl
@[simp] theorem setInFlight_ktl (s : State) (f : Option InFlight) : (s.setInFlight f).ktl = s.ktl := rfl
@[simp] theorem setInFlight_hcp (s : State) (f : Option InFlight) : (s.setInFlight f).hcp = s.hcp := rfl

@[simp] theorem setLine_now (s : State) (l : LineState) : (s.setLine l).now = s.now := rfl
@[simp] theorem setLine_pending (s : State) (l : LineState) : (s.setLine l).pending = s.pending := rfl
@[simp] theorem setLine_agenda (s : State) (l : LineState) : (s.setLine l).agenda = s.agenda := rfl
@[simp] theorem setLine_free (s : State) (l : LineState) : (s.setLine l).free = s.free := rfl
@[simp] theorem setLine_cmon (s : State) (l : LineState) : (s.setLine l).cmon = s.cmon := rfl
@[simp] theorem setLine_bue (s : State) (l : LineState) : (s.setLine l).bue = s.bue := rfl
@[simp] theorem setLine_ntab (s : State) (l : LineState) : (s.setLine l).ntab = s.ntab := rfl
@[simp] theorem setLine_fdir (s : State) (l : LineState) : (s.setLine l).fdir = s.fdir := rfl
@[simp] theorem setLine_prv (s : State) (l : LineState) : (s.setLine l).prv = s.prv := rfl
@[simp] theorem setLine_drt (s : State) (l : LineState) : (s.setLine l).drt = s.drt := rfl
@[simp] theorem setLine_frt (s : State) (l : LineState) : (s.setLine l).frt = s.frt := rfl
@[simp] theorem setLine_csch (s : State) (l : LineState) : (s.setLine l).csch = s.csch := rfl
@[simp] theorem setLine_ktl (s : State) (l : LineState) : (s.setLine l).ktl = s.ktl := rfl
@[simp] theorem setLine_hcp (s : State) (l : LineState) : (s.setLine l).hcp = s.hcp := rfl

@[simp] theorem restartGap_now (s : State) : (s.restartGap).now = s.now := rfl
@[simp] theorem restartGap_pending (s : State) : (s.restartGap).pending = s.pending := rfl
@[simp] theorem restartGap_agenda (s : State) : (s.restartGap).agenda = s.agenda := rfl
@[simp] theorem restartGap_free (s : State) : (s.restartGap).free = s.free := rfl
@[simp] theorem restartGap_cmon (s : State) : (s.restartGap).cmon = s.cmon := rfl
@[simp] theorem restartGap_bue (s : State) : (s.restartGap).bue = s.bue := rfl
@[simp] theorem restartGap_ntab (s : State) : (s.restartGap).ntab = s.ntab := rfl
@[simp] theorem restartGap_fdir (s : State) : (s.restartGap).fdir = s.fdir := rfl
@[simp] theorem restartGap_prv (s : State) : (s.restartGap).prv = s.prv := rfl
@[simp] theorem restartGap_drt (s : State) : (s.restartGap).drt = s.drt := rfl
@[simp] theorem restartGap_frt (s : State) : (s.restartGap).frt = s.frt := rfl
@[simp] theorem restartGap_csch (s : State) : (s.restartGap).csch = s.csch := rfl
@[simp] theorem restartGap_ktl (s : State) : (s.restartGap).ktl = s.ktl := rfl
@[simp] theorem restartGap_hcp (s : State) : (s.restartGap).hcp = s.hcp := rfl

@[simp] theorem setNextBit_now (s : State) (a : Addr) (b : Bool) : (s.setNextBit a b).now = s.now := rfl
@[simp] theorem setNextBit_pending (s : State) (a : Addr) (b : Bool) : (s.setNextBit a b).pending = s.pending := rfl
@[simp] theorem setNextBit_agenda (s : State) (a : Addr) (b : Bool) : (s.setNextBit a b).agenda = s.agenda := rfl
@[simp] theorem setNextBit_free (s : State) (a : Addr) (b : Bool) : (s.setNextBit a b).free = s.free := rfl
@[simp] theorem setNextBit_cmon (s : State) (a : Addr) (b : Bool) : (s.setNextBit a b).cmon = s.cmon := rfl
@[simp] theorem setNextBit_bue (s : State) (a : Addr) (b : Bool) : (s.setNextBit a b).bue = s.bue := rfl
@[simp] theorem setNextBit_ntab (s : State) (a : Addr) (b : Bool) : (s.setNextBit a b).ntab = s.ntab := rfl
@[simp] theorem setNextBit_fdir (s : State) (a : Addr) (b : Bool) : (s.setNextBit a b).fdir = s.fdir := rfl
@[simp] theorem setNextBit_prv (s : State) (a : Addr) (b : Bool) : (s.setNextBit a b).prv = s.prv := rfl
@[simp] theorem setNextBit_drt (s : State) (a : Addr) (b : Bool) : (s.setNextBit a b).drt = s.drt := rfl
@[simp] theorem setNextBit_frt (s : State) (a : Addr) (b : Bool) : (s.setNextBit a b).frt = s.frt := rfl
@[simp] theorem setNextBit_csch (s : State) (a : Addr) (b : Bool) : (s.setNextBit a b).csch = s.csch := rfl
@[simp] theorem setNextBit_ktl (s : State) (a : Addr) (b : Bool) : (s.setNextBit a b).ktl = s.ktl := rfl
@[simp] theorem setNextBit_hcp (s : State) (a : Addr) (b : Bool) : (s.setNextBit a b).hcp = s.hcp := rfl

@[simp] theorem setPend_now (s : State) (l : List Pend) : (s.setPend l).now = s.now := rfl
@[simp] theorem setPend_pending (s : State) (l : List Pend) : (s.setPend l).pending = s.pending := rfl
@[simp] theorem setPend_agenda (s : State) (l : List Pend) : (s.setPend l).agenda = s.agenda := rfl
@[simp] theorem setPend_free (s : State) (l : List Pend) : (s.setPend l).free = s.free := rfl
@[simp] theorem setPend_cmon (s : State) (l : List Pend) : (s.setPend l).cmon = s.cmon := rfl
@[simp] theorem setPend_tdl (s : State) (l : List Pend) : (s.setPend l).tdl = s.tdl := rfl
@[simp] theorem setPend_bue (s : State) (l : List Pend) : (s.setPend l).bue = s.bue := rfl
@[simp] theorem setPend_ntab (s : State) (l : List Pend) : (s.setPend l).ntab = s.ntab := rfl
@[simp] theorem setPend_fdir (s : State) (l : List Pend) : (s.setPend l).fdir = s.fdir := rfl
@[simp] theorem setPend_prv (s : State) (l : List Pend) : (s.setPend l).prv = s.prv := rfl
@[simp] theorem setPend_frt (s : State) (l : List Pend) : (s.setPend l).frt = s.frt := rfl
@[simp] theorem setPend_csch (s : State) (l : List Pend) : (s.setPend l).csch = s.csch := rfl
@[simp] theorem setPend_ktl (s : State) (l : List Pend) : (s.setPend l).ktl = s.ktl := rfl
@[simp] theorem setPend_hcp (s : State) (l : List Pend) : (s.setPend l).hcp = s.hcp := rfl

@[simp] theorem setList_now (s : State) (x : Src) (l : List Handle) : (s.setList x l).now = s.now := rfl
@[simp] theorem setList_pending (s : State) (x : Src) (l : List Handle) : (s.setList x l).pending = s.pending := rfl
@[simp] theorem setList_agenda (s : State) (x : Src) (l : List Handle) : (s.setList x l).agenda = s.agenda := rfl
@[simp] theorem setList_free (s : State) (x : Src) (l : List Handle) : (s.setList x l).free = s.free := rfl
@[simp] theorem setList_cmon (s : State) (x : Src) (l : List Handle) : (s.setList x l).cmon = s.cmon := rfl
@[simp] theorem setList_tdl (s : State) (x : Src) (l : List Handle) : (s.setList x l).tdl = s.tdl := rfl
@[simp] theorem setList_bue (s : State) (x : Src) (l : List Handle) : (s.setList x l).bue = s.bue := rfl
@[simp] theorem setList_ntab (s : State) (x : Src) (l : List Handle) : (s.setList x l).ntab = s.ntab := rfl
@[simp] theorem setList_fdir (s : State) (x : Src) (l : List Handle) : (s.setList x l).fdir = s.fdir := rfl
@[simp] theorem setList_prv (s : State) (x : Src) (l : List Handle) : (s.setList x l).prv = s.prv := rfl
@[simp] theorem setList_frt (s : State) (x : Src) (l : List Handle) : (s.setList x l).frt = s.frt := rfl
@[simp] theorem setList_csch (s : State) (x : Src) (l : List Handle) : (s.setList x l).csch = s.csch := rfl
@[simp] theorem setList_ktl (s : State) (x : Src) (l : List Handle) : (s.setList x l).ktl = s.ktl := rfl
@[simp] theorem setList_hcp (s : State) (x : Src) (l : List Handle) : (s.setList x l).hcp = s.hcp := rfl

@[simp] theorem setSourceEntry_now (s : State) (x : Src) (v : Source) : (s.setSourceEntry x v).now = s.now := rfl
@[simp] theorem setSourceEntry_pending (s : State) (x : Src) (v : Source) : (s.setSourceEntry x v).pending = s.pending := rfl
@[simp] theorem setSourceEntry_agenda (s : State) (x : Src) (v : Source) : (s.setSourceEntry x v).agenda = s.agenda := rfl
@[simp] theorem setSourceEntry_free (s : State) (x : Src) (v : Source) : (s.setSourceEntry x v).free = s.free := rfl
@[simp] theorem setSourceEntry_cmon (s : State) (x : Src) (v : Source) : (s.setSourceEntry x v).cmon = s.cmon := rfl
@[simp] theorem setSourceEntry_tdl (s : State) (x : Src) (v : Source) : (s.setSourceEntry x v).tdl = s.tdl := rfl
@[simp] theorem setSourceEntry_bue (s : State) (x : Src) (v : Source) : (s.setSourceEntry x v).bue = s.bue := rfl
@[simp] theorem setSourceEntry_ntab (s : State) (x : Src) (v : Source) : (s.setSourceEntry x v).ntab = s.ntab := rfl
@[simp] theorem setSourceEntry_fdir (s : State) (x : Src) (v : Source) : (s.setSourceEntry x v).fdir = s.fdir := rfl
@[simp] theorem setSourceEntry_prv (s : State) (x : Src) (v : Source) : (s.setSourceEntry x v).prv = s.prv := rfl
@[simp] theorem setSourceEntry_frt (s : State) (x : Src) (v : Source) : (s.setSourceEntry x v).frt = s.frt := rfl
@[simp] theorem setSourceEntry_csch (s : State) (x : Src) (v : Source) : (s.setSourceEntry x v).csch = s.csch := rfl
@[simp] theorem setSourceEntry_ktl (s : State) (x : Src) (v : Source) : (s.setSourceEntry x v).ktl = s.ktl := rfl
@[simp] theorem setSourceEntry_hcp (s : State) (x : Src) (v : Source) : (s.setSourceEntry x v).hcp = s.hcp := rfl

@[simp] theorem setGuard_now (s : State) (g : Fin 6) (x : Guard) : (s.setGuard g x).now = s.now := rfl
@[simp] theorem setGuard_pending (s : State) (g : Fin 6) (x : Guard) : (s.setGuard g x).pending = s.pending := rfl
@[simp] theorem setGuard_agenda (s : State) (g : Fin 6) (x : Guard) : (s.setGuard g x).agenda = s.agenda := rfl
@[simp] theorem setGuard_free (s : State) (g : Fin 6) (x : Guard) : (s.setGuard g x).free = s.free := rfl
@[simp] theorem setGuard_cmon (s : State) (g : Fin 6) (x : Guard) : (s.setGuard g x).cmon = s.cmon := rfl
@[simp] theorem setGuard_tdl (s : State) (g : Fin 6) (x : Guard) : (s.setGuard g x).tdl = s.tdl := rfl
@[simp] theorem setGuard_bue (s : State) (g : Fin 6) (x : Guard) : (s.setGuard g x).bue = s.bue := rfl
@[simp] theorem setGuard_ntab (s : State) (g : Fin 6) (x : Guard) : (s.setGuard g x).ntab = s.ntab := rfl
@[simp] theorem setGuard_fdir (s : State) (g : Fin 6) (x : Guard) : (s.setGuard g x).fdir = s.fdir := rfl
@[simp] theorem setGuard_prv (s : State) (g : Fin 6) (x : Guard) : (s.setGuard g x).prv = s.prv := rfl
@[simp] theorem setGuard_drt (s : State) (g : Fin 6) (x : Guard) : (s.setGuard g x).drt = s.drt := rfl
@[simp] theorem setGuard_csch (s : State) (g : Fin 6) (x : Guard) : (s.setGuard g x).csch = s.csch := rfl
@[simp] theorem setGuard_ktl (s : State) (g : Fin 6) (x : Guard) : (s.setGuard g x).ktl = s.ktl := rfl
@[simp] theorem setGuard_hcp (s : State) (g : Fin 6) (x : Guard) : (s.setGuard g x).hcp = s.hcp := rfl

@[simp] theorem setChan_now (s : State) (c : Chan) (x : ChanState) : (s.setChan c x).now = s.now := rfl
@[simp] theorem setChan_pending (s : State) (c : Chan) (x : ChanState) : (s.setChan c x).pending = s.pending := rfl
@[simp] theorem setChan_agenda (s : State) (c : Chan) (x : ChanState) : (s.setChan c x).agenda = s.agenda := rfl
@[simp] theorem setChan_free (s : State) (c : Chan) (x : ChanState) : (s.setChan c x).free = s.free := rfl
@[simp] theorem setChan_cmon (s : State) (c : Chan) (x : ChanState) : (s.setChan c x).cmon = s.cmon := rfl
@[simp] theorem setChan_tdl (s : State) (c : Chan) (x : ChanState) : (s.setChan c x).tdl = s.tdl := rfl
@[simp] theorem setChan_bue (s : State) (c : Chan) (x : ChanState) : (s.setChan c x).bue = s.bue := rfl
@[simp] theorem setChan_ntab (s : State) (c : Chan) (x : ChanState) : (s.setChan c x).ntab = s.ntab := rfl
@[simp] theorem setChan_fdir (s : State) (c : Chan) (x : ChanState) : (s.setChan c x).fdir = s.fdir := rfl
@[simp] theorem setChan_prv (s : State) (c : Chan) (x : ChanState) : (s.setChan c x).prv = s.prv := rfl
@[simp] theorem setChan_drt (s : State) (c : Chan) (x : ChanState) : (s.setChan c x).drt = s.drt := rfl
@[simp] theorem setChan_csch (s : State) (c : Chan) (x : ChanState) : (s.setChan c x).csch = s.csch := rfl
@[simp] theorem setChan_ktl (s : State) (c : Chan) (x : ChanState) : (s.setChan c x).ktl = s.ktl := rfl
@[simp] theorem setChan_hcp (s : State) (c : Chan) (x : ChanState) : (s.setChan c x).hcp = s.hcp := rfl

@[simp] theorem setGen_now (s : State) (g : Generator) (x : Gen) : (s.setGen g x).now = s.now := rfl
@[simp] theorem setGen_pending (s : State) (g : Generator) (x : Gen) : (s.setGen g x).pending = s.pending := rfl
@[simp] theorem setGen_agenda (s : State) (g : Generator) (x : Gen) : (s.setGen g x).agenda = s.agenda := rfl
@[simp] theorem setGen_free (s : State) (g : Generator) (x : Gen) : (s.setGen g x).free = s.free := rfl
@[simp] theorem setGen_cmon (s : State) (g : Generator) (x : Gen) : (s.setGen g x).cmon = s.cmon := rfl
@[simp] theorem setGen_tdl (s : State) (g : Generator) (x : Gen) : (s.setGen g x).tdl = s.tdl := rfl
@[simp] theorem setGen_bue (s : State) (g : Generator) (x : Gen) : (s.setGen g x).bue = s.bue := rfl
@[simp] theorem setGen_ntab (s : State) (g : Generator) (x : Gen) : (s.setGen g x).ntab = s.ntab := rfl
@[simp] theorem setGen_fdir (s : State) (g : Generator) (x : Gen) : (s.setGen g x).fdir = s.fdir := rfl
@[simp] theorem setGen_prv (s : State) (g : Generator) (x : Gen) : (s.setGen g x).prv = s.prv := rfl
@[simp] theorem setGen_drt (s : State) (g : Generator) (x : Gen) : (s.setGen g x).drt = s.drt := rfl
@[simp] theorem setGen_csch (s : State) (g : Generator) (x : Gen) : (s.setGen g x).csch = s.csch := rfl
@[simp] theorem setGen_ktl (s : State) (g : Generator) (x : Gen) : (s.setGen g x).ktl = s.ktl := rfl
@[simp] theorem setGen_hcp (s : State) (g : Generator) (x : Gen) : (s.setGen g x).hcp = s.hcp := rfl

@[simp] theorem setCapture_now (s : State) (d : TurnSide) (c : Capture) : (s.setCapture d c).now = s.now := rfl
@[simp] theorem setCapture_pending (s : State) (d : TurnSide) (c : Capture) : (s.setCapture d c).pending = s.pending := rfl
@[simp] theorem setCapture_agenda (s : State) (d : TurnSide) (c : Capture) : (s.setCapture d c).agenda = s.agenda := rfl
@[simp] theorem setCapture_free (s : State) (d : TurnSide) (c : Capture) : (s.setCapture d c).free = s.free := rfl
@[simp] theorem setCapture_cmon (s : State) (d : TurnSide) (c : Capture) : (s.setCapture d c).cmon = s.cmon := rfl
@[simp] theorem setCapture_tdl (s : State) (d : TurnSide) (c : Capture) : (s.setCapture d c).tdl = s.tdl := rfl
@[simp] theorem setCapture_bue (s : State) (d : TurnSide) (c : Capture) : (s.setCapture d c).bue = s.bue := rfl
@[simp] theorem setCapture_ntab (s : State) (d : TurnSide) (c : Capture) : (s.setCapture d c).ntab = s.ntab := rfl
@[simp] theorem setCapture_fdir (s : State) (d : TurnSide) (c : Capture) : (s.setCapture d c).fdir = s.fdir := rfl
@[simp] theorem setCapture_prv (s : State) (d : TurnSide) (c : Capture) : (s.setCapture d c).prv = s.prv := rfl
@[simp] theorem setCapture_drt (s : State) (d : TurnSide) (c : Capture) : (s.setCapture d c).drt = s.drt := rfl
@[simp] theorem setCapture_csch (s : State) (d : TurnSide) (c : Capture) : (s.setCapture d c).csch = s.csch := rfl
@[simp] theorem setCapture_ktl (s : State) (d : TurnSide) (c : Capture) : (s.setCapture d c).ktl = s.ktl := rfl
@[simp] theorem setCapture_hcp (s : State) (d : TurnSide) (c : Capture) : (s.setCapture d c).hcp = s.hcp := rfl

@[simp] theorem setFollowMode_now (s : State) (d : TurnSide) (b : Bool) : (s.setFollowMode d b).now = s.now := rfl
@[simp] theorem setFollowMode_pending (s : State) (d : TurnSide) (b : Bool) : (s.setFollowMode d b).pending = s.pending := rfl
@[simp] theorem setFollowMode_agenda (s : State) (d : TurnSide) (b : Bool) : (s.setFollowMode d b).agenda = s.agenda := rfl
@[simp] theorem setFollowMode_free (s : State) (d : TurnSide) (b : Bool) : (s.setFollowMode d b).free = s.free := rfl
@[simp] theorem setFollowMode_cmon (s : State) (d : TurnSide) (b : Bool) : (s.setFollowMode d b).cmon = s.cmon := rfl
@[simp] theorem setFollowMode_tdl (s : State) (d : TurnSide) (b : Bool) : (s.setFollowMode d b).tdl = s.tdl := rfl
@[simp] theorem setFollowMode_bue (s : State) (d : TurnSide) (b : Bool) : (s.setFollowMode d b).bue = s.bue := rfl
@[simp] theorem setFollowMode_ntab (s : State) (d : TurnSide) (b : Bool) : (s.setFollowMode d b).ntab = s.ntab := rfl
@[simp] theorem setFollowMode_fdir (s : State) (d : TurnSide) (b : Bool) : (s.setFollowMode d b).fdir = s.fdir := rfl
@[simp] theorem setFollowMode_prv (s : State) (d : TurnSide) (b : Bool) : (s.setFollowMode d b).prv = s.prv := rfl
@[simp] theorem setFollowMode_drt (s : State) (d : TurnSide) (b : Bool) : (s.setFollowMode d b).drt = s.drt := rfl
@[simp] theorem setFollowMode_csch (s : State) (d : TurnSide) (b : Bool) : (s.setFollowMode d b).csch = s.csch := rfl
@[simp] theorem setFollowMode_ktl (s : State) (d : TurnSide) (b : Bool) : (s.setFollowMode d b).ktl = s.ktl := rfl
@[simp] theorem setFollowMode_hcp (s : State) (d : TurnSide) (b : Bool) : (s.setFollowMode d b).hcp = s.hcp := rfl

@[simp] theorem setProof_now (s : State) (p : Option Proof) : (s.setProof p).now = s.now := rfl
@[simp] theorem setProof_pending (s : State) (p : Option Proof) : (s.setProof p).pending = s.pending := rfl
@[simp] theorem setProof_agenda (s : State) (p : Option Proof) : (s.setProof p).agenda = s.agenda := rfl
@[simp] theorem setProof_free (s : State) (p : Option Proof) : (s.setProof p).free = s.free := rfl
@[simp] theorem setProof_cmon (s : State) (p : Option Proof) : (s.setProof p).cmon = s.cmon := rfl
@[simp] theorem setProof_tdl (s : State) (p : Option Proof) : (s.setProof p).tdl = s.tdl := rfl
@[simp] theorem setProof_bue (s : State) (p : Option Proof) : (s.setProof p).bue = s.bue := rfl
@[simp] theorem setProof_ntab (s : State) (p : Option Proof) : (s.setProof p).ntab = s.ntab := rfl
@[simp] theorem setProof_fdir (s : State) (p : Option Proof) : (s.setProof p).fdir = s.fdir := rfl
@[simp] theorem setProof_drt (s : State) (p : Option Proof) : (s.setProof p).drt = s.drt := rfl
@[simp] theorem setProof_frt (s : State) (p : Option Proof) : (s.setProof p).frt = s.frt := rfl
@[simp] theorem setProof_csch (s : State) (p : Option Proof) : (s.setProof p).csch = s.csch := rfl
@[simp] theorem setProof_ktl (s : State) (p : Option Proof) : (s.setProof p).ktl = s.ktl := rfl
@[simp] theorem setProof_hcp (s : State) (p : Option Proof) : (s.setProof p).hcp = s.hcp := rfl

@[simp] theorem setProvingList_now (s : State) (l : List Handle) : (s.setProvingList l).now = s.now := rfl
@[simp] theorem setProvingList_pending (s : State) (l : List Handle) : (s.setProvingList l).pending = s.pending := rfl
@[simp] theorem setProvingList_agenda (s : State) (l : List Handle) : (s.setProvingList l).agenda = s.agenda := rfl
@[simp] theorem setProvingList_free (s : State) (l : List Handle) : (s.setProvingList l).free = s.free := rfl
@[simp] theorem setProvingList_cmon (s : State) (l : List Handle) : (s.setProvingList l).cmon = s.cmon := rfl
@[simp] theorem setProvingList_tdl (s : State) (l : List Handle) : (s.setProvingList l).tdl = s.tdl := rfl
@[simp] theorem setProvingList_bue (s : State) (l : List Handle) : (s.setProvingList l).bue = s.bue := rfl
@[simp] theorem setProvingList_ntab (s : State) (l : List Handle) : (s.setProvingList l).ntab = s.ntab := rfl
@[simp] theorem setProvingList_fdir (s : State) (l : List Handle) : (s.setProvingList l).fdir = s.fdir := rfl
@[simp] theorem setProvingList_drt (s : State) (l : List Handle) : (s.setProvingList l).drt = s.drt := rfl
@[simp] theorem setProvingList_frt (s : State) (l : List Handle) : (s.setProvingList l).frt = s.frt := rfl
@[simp] theorem setProvingList_csch (s : State) (l : List Handle) : (s.setProvingList l).csch = s.csch := rfl
@[simp] theorem setProvingList_ktl (s : State) (l : List Handle) : (s.setProvingList l).ktl = s.ktl := rfl
@[simp] theorem setProvingList_hcp (s : State) (l : List Handle) : (s.setProvingList l).hcp = s.hcp := rfl

@[simp] theorem setOwn_now (s : State) (n : Nat) : (s.setOwn n).now = s.now := rfl
@[simp] theorem setOwn_pending (s : State) (n : Nat) : (s.setOwn n).pending = s.pending := rfl
@[simp] theorem setOwn_agenda (s : State) (n : Nat) : (s.setOwn n).agenda = s.agenda := rfl
@[simp] theorem setOwn_free (s : State) (n : Nat) : (s.setOwn n).free = s.free := rfl
@[simp] theorem setOwn_cmon (s : State) (n : Nat) : (s.setOwn n).cmon = s.cmon := rfl
@[simp] theorem setOwn_tdl (s : State) (n : Nat) : (s.setOwn n).tdl = s.tdl := rfl
@[simp] theorem setOwn_bue (s : State) (n : Nat) : (s.setOwn n).bue = s.bue := rfl
@[simp] theorem setOwn_ntab (s : State) (n : Nat) : (s.setOwn n).ntab = s.ntab := rfl
@[simp] theorem setOwn_fdir (s : State) (n : Nat) : (s.setOwn n).fdir = s.fdir := rfl
@[simp] theorem setOwn_prv (s : State) (n : Nat) : (s.setOwn n).prv = s.prv := rfl
@[simp] theorem setOwn_drt (s : State) (n : Nat) : (s.setOwn n).drt = s.drt := rfl
@[simp] theorem setOwn_frt (s : State) (n : Nat) : (s.setOwn n).frt = s.frt := rfl
@[simp] theorem setOwn_ktl (s : State) (n : Nat) : (s.setOwn n).ktl = s.ktl := rfl
@[simp] theorem setOwn_hcp (s : State) (n : Nat) : (s.setOwn n).hcp = s.hcp := rfl

@[simp] theorem raise_now (s : State) (f : Flag) : (s.raise f).now = s.now := rfl
@[simp] theorem raise_pending (s : State) (f : Flag) : (s.raise f).pending = s.pending := rfl
@[simp] theorem raise_agenda (s : State) (f : Flag) : (s.raise f).agenda = s.agenda := rfl
@[simp] theorem raise_free (s : State) (f : Flag) : (s.raise f).free = s.free := rfl
@[simp] theorem raise_cmon (s : State) (f : Flag) : (s.raise f).cmon = s.cmon := rfl
@[simp] theorem raise_tdl (s : State) (f : Flag) : (s.raise f).tdl = s.tdl := rfl
@[simp] theorem raise_bue (s : State) (f : Flag) : (s.raise f).bue = s.bue := rfl
@[simp] theorem raise_ntab (s : State) (f : Flag) : (s.raise f).ntab = s.ntab := rfl
@[simp] theorem raise_fdir (s : State) (f : Flag) : (s.raise f).fdir = s.fdir := rfl
@[simp] theorem raise_prv (s : State) (f : Flag) : (s.raise f).prv = s.prv := rfl
@[simp] theorem raise_drt (s : State) (f : Flag) : (s.raise f).drt = s.drt := rfl
@[simp] theorem raise_frt (s : State) (f : Flag) : (s.raise f).frt = s.frt := rfl
@[simp] theorem raise_csch (s : State) (f : Flag) : (s.raise f).csch = s.csch := rfl
@[simp] theorem raise_ktl (s : State) (f : Flag) : (s.raise f).ktl = s.ktl := rfl

@[simp] theorem setFlags_now (s : State) (f : Half) : (s.setFlags f).now = s.now := rfl
@[simp] theorem setFlags_pending (s : State) (f : Half) : (s.setFlags f).pending = s.pending := rfl
@[simp] theorem setFlags_agenda (s : State) (f : Half) : (s.setFlags f).agenda = s.agenda := rfl
@[simp] theorem setFlags_free (s : State) (f : Half) : (s.setFlags f).free = s.free := rfl
@[simp] theorem setFlags_cmon (s : State) (f : Half) : (s.setFlags f).cmon = s.cmon := rfl
@[simp] theorem setFlags_tdl (s : State) (f : Half) : (s.setFlags f).tdl = s.tdl := rfl
@[simp] theorem setFlags_bue (s : State) (f : Half) : (s.setFlags f).bue = s.bue := rfl
@[simp] theorem setFlags_ntab (s : State) (f : Half) : (s.setFlags f).ntab = s.ntab := rfl
@[simp] theorem setFlags_fdir (s : State) (f : Half) : (s.setFlags f).fdir = s.fdir := rfl
@[simp] theorem setFlags_prv (s : State) (f : Half) : (s.setFlags f).prv = s.prv := rfl
@[simp] theorem setFlags_drt (s : State) (f : Half) : (s.setFlags f).drt = s.drt := rfl
@[simp] theorem setFlags_frt (s : State) (f : Half) : (s.setFlags f).frt = s.frt := rfl
@[simp] theorem setFlags_csch (s : State) (f : Half) : (s.setFlags f).csch = s.csch := rfl
@[simp] theorem setFlags_ktl (s : State) (f : Half) : (s.setFlags f).ktl = s.ktl := rfl

@[simp] theorem setEventMask_now (s : State) (m : Half) : (s.setEventMask m).now = s.now := rfl
@[simp] theorem setEventMask_pending (s : State) (m : Half) : (s.setEventMask m).pending = s.pending := rfl
@[simp] theorem setEventMask_agenda (s : State) (m : Half) : (s.setEventMask m).agenda = s.agenda := rfl
@[simp] theorem setEventMask_free (s : State) (m : Half) : (s.setEventMask m).free = s.free := rfl
@[simp] theorem setEventMask_cmon (s : State) (m : Half) : (s.setEventMask m).cmon = s.cmon := rfl
@[simp] theorem setEventMask_tdl (s : State) (m : Half) : (s.setEventMask m).tdl = s.tdl := rfl
@[simp] theorem setEventMask_bue (s : State) (m : Half) : (s.setEventMask m).bue = s.bue := rfl
@[simp] theorem setEventMask_ntab (s : State) (m : Half) : (s.setEventMask m).ntab = s.ntab := rfl
@[simp] theorem setEventMask_fdir (s : State) (m : Half) : (s.setEventMask m).fdir = s.fdir := rfl
@[simp] theorem setEventMask_prv (s : State) (m : Half) : (s.setEventMask m).prv = s.prv := rfl
@[simp] theorem setEventMask_drt (s : State) (m : Half) : (s.setEventMask m).drt = s.drt := rfl
@[simp] theorem setEventMask_frt (s : State) (m : Half) : (s.setEventMask m).frt = s.frt := rfl
@[simp] theorem setEventMask_csch (s : State) (m : Half) : (s.setEventMask m).csch = s.csch := rfl
@[simp] theorem setEventMask_ktl (s : State) (m : Half) : (s.setEventMask m).ktl = s.ktl := rfl

@[simp] theorem setConfig_now (s : State) (c : Settings) : (s.setConfig c).now = s.now := rfl
@[simp] theorem setConfig_pending (s : State) (c : Settings) : (s.setConfig c).pending = s.pending := rfl
@[simp] theorem setConfig_agenda (s : State) (c : Settings) : (s.setConfig c).agenda = s.agenda := rfl
@[simp] theorem setConfig_free (s : State) (c : Settings) : (s.setConfig c).free = s.free := rfl
@[simp] theorem setConfig_cmon (s : State) (c : Settings) : (s.setConfig c).cmon = s.cmon := rfl
@[simp] theorem setConfig_tdl (s : State) (c : Settings) : (s.setConfig c).tdl = s.tdl := rfl
@[simp] theorem setConfig_bue (s : State) (c : Settings) : (s.setConfig c).bue = s.bue := rfl
@[simp] theorem setConfig_ntab (s : State) (c : Settings) : (s.setConfig c).ntab = s.ntab := rfl
@[simp] theorem setConfig_fdir (s : State) (c : Settings) : (s.setConfig c).fdir = s.fdir := rfl
@[simp] theorem setConfig_prv (s : State) (c : Settings) : (s.setConfig c).prv = s.prv := rfl
@[simp] theorem setConfig_drt (s : State) (c : Settings) : (s.setConfig c).drt = s.drt := rfl
@[simp] theorem setConfig_frt (s : State) (c : Settings) : (s.setConfig c).frt = s.frt := rfl
@[simp] theorem setConfig_csch (s : State) (c : Settings) : (s.setConfig c).csch = s.csch := rfl
@[simp] theorem setConfig_ktl (s : State) (c : Settings) : (s.setConfig c).ktl = s.ktl := rfl

@[simp] theorem setResponse_now (s : State) (b : List Byte) (x : Stream) : (s.setResponse b x).now = s.now := rfl
@[simp] theorem setResponse_pending (s : State) (b : List Byte) (x : Stream) : (s.setResponse b x).pending = s.pending := rfl
@[simp] theorem setResponse_agenda (s : State) (b : List Byte) (x : Stream) : (s.setResponse b x).agenda = s.agenda := rfl
@[simp] theorem setResponse_free (s : State) (b : List Byte) (x : Stream) : (s.setResponse b x).free = s.free := rfl
@[simp] theorem setResponse_cmon (s : State) (b : List Byte) (x : Stream) : (s.setResponse b x).cmon = s.cmon := rfl
@[simp] theorem setResponse_tdl (s : State) (b : List Byte) (x : Stream) : (s.setResponse b x).tdl = s.tdl := rfl
@[simp] theorem setResponse_bue (s : State) (b : List Byte) (x : Stream) : (s.setResponse b x).bue = s.bue := rfl
@[simp] theorem setResponse_ntab (s : State) (b : List Byte) (x : Stream) : (s.setResponse b x).ntab = s.ntab := rfl
@[simp] theorem setResponse_fdir (s : State) (b : List Byte) (x : Stream) : (s.setResponse b x).fdir = s.fdir := rfl
@[simp] theorem setResponse_prv (s : State) (b : List Byte) (x : Stream) : (s.setResponse b x).prv = s.prv := rfl
@[simp] theorem setResponse_drt (s : State) (b : List Byte) (x : Stream) : (s.setResponse b x).drt = s.drt := rfl
@[simp] theorem setResponse_frt (s : State) (b : List Byte) (x : Stream) : (s.setResponse b x).frt = s.frt := rfl
@[simp] theorem setResponse_csch (s : State) (b : List Byte) (x : Stream) : (s.setResponse b x).csch = s.csch := rfl
@[simp] theorem setResponse_ktl (s : State) (b : List Byte) (x : Stream) : (s.setResponse b x).ktl = s.ktl := rfl

@[simp] theorem setWel_now (s : State) (b : Bool) : (s.setWel b).now = s.now := rfl
@[simp] theorem setWel_pending (s : State) (b : Bool) : (s.setWel b).pending = s.pending := rfl
@[simp] theorem setWel_agenda (s : State) (b : Bool) : (s.setWel b).agenda = s.agenda := rfl
@[simp] theorem setWel_free (s : State) (b : Bool) : (s.setWel b).free = s.free := rfl
@[simp] theorem setWel_cmon (s : State) (b : Bool) : (s.setWel b).cmon = s.cmon := rfl
@[simp] theorem setWel_tdl (s : State) (b : Bool) : (s.setWel b).tdl = s.tdl := rfl
@[simp] theorem setWel_bue (s : State) (b : Bool) : (s.setWel b).bue = s.bue := rfl
@[simp] theorem setWel_ntab (s : State) (b : Bool) : (s.setWel b).ntab = s.ntab := rfl
@[simp] theorem setWel_fdir (s : State) (b : Bool) : (s.setWel b).fdir = s.fdir := rfl
@[simp] theorem setWel_prv (s : State) (b : Bool) : (s.setWel b).prv = s.prv := rfl
@[simp] theorem setWel_drt (s : State) (b : Bool) : (s.setWel b).drt = s.drt := rfl
@[simp] theorem setWel_frt (s : State) (b : Bool) : (s.setWel b).frt = s.frt := rfl
@[simp] theorem setWel_csch (s : State) (b : Bool) : (s.setWel b).csch = s.csch := rfl
@[simp] theorem setWel_hcp (s : State) (b : Bool) : (s.setWel b).hcp = s.hcp := rfl

@[simp] theorem join_now (s : State) (h : Handle) : (s.join h).now = s.now := rfl
@[simp] theorem join_pending (s : State) (h : Handle) : (s.join h).pending = s.pending := rfl
@[simp] theorem join_free (s : State) (h : Handle) : (s.join h).free = s.free := rfl
@[simp] theorem join_cmon (s : State) (h : Handle) : (s.join h).cmon = s.cmon := rfl
@[simp] theorem join_tdl (s : State) (h : Handle) : (s.join h).tdl = s.tdl := rfl
@[simp] theorem join_bue (s : State) (h : Handle) : (s.join h).bue = s.bue := rfl
@[simp] theorem join_ntab (s : State) (h : Handle) : (s.join h).ntab = s.ntab := rfl
@[simp] theorem join_fdir (s : State) (h : Handle) : (s.join h).fdir = s.fdir := rfl
@[simp] theorem join_prv (s : State) (h : Handle) : (s.join h).prv = s.prv := rfl
@[simp] theorem join_drt (s : State) (h : Handle) : (s.join h).drt = s.drt := rfl
@[simp] theorem join_frt (s : State) (h : Handle) : (s.join h).frt = s.frt := rfl
@[simp] theorem join_csch (s : State) (h : Handle) : (s.join h).csch = s.csch := rfl
@[simp] theorem join_ktl (s : State) (h : Handle) : (s.join h).ktl = s.ktl := rfl
@[simp] theorem join_hcp (s : State) (h : Handle) : (s.join h).hcp = s.hcp := rfl

@[simp] theorem callPass_now (s : State) : (s.callPass).now = s.now := rfl
@[simp] theorem callPass_pending (s : State) : (s.callPass).pending = s.pending := rfl
@[simp] theorem callPass_free (s : State) : (s.callPass).free = s.free := rfl
@[simp] theorem callPass_cmon (s : State) : (s.callPass).cmon = s.cmon := rfl
@[simp] theorem callPass_tdl (s : State) : (s.callPass).tdl = s.tdl := rfl
@[simp] theorem callPass_bue (s : State) : (s.callPass).bue = s.bue := rfl
@[simp] theorem callPass_ntab (s : State) : (s.callPass).ntab = s.ntab := rfl
@[simp] theorem callPass_fdir (s : State) : (s.callPass).fdir = s.fdir := rfl
@[simp] theorem callPass_prv (s : State) : (s.callPass).prv = s.prv := rfl
@[simp] theorem callPass_drt (s : State) : (s.callPass).drt = s.drt := rfl
@[simp] theorem callPass_frt (s : State) : (s.callPass).frt = s.frt := rfl
@[simp] theorem callPass_csch (s : State) : (s.callPass).csch = s.csch := rfl
@[simp] theorem callPass_ktl (s : State) : (s.callPass).ktl = s.ktl := rfl
@[simp] theorem callPass_hcp (s : State) : (s.callPass).hcp = s.hcp := rfl

@[simp] theorem callDrain_now (s : State) : (s.callDrain).now = s.now := rfl
@[simp] theorem callDrain_pending (s : State) : (s.callDrain).pending = s.pending := rfl
@[simp] theorem callDrain_free (s : State) : (s.callDrain).free = s.free := rfl
@[simp] theorem callDrain_cmon (s : State) : (s.callDrain).cmon = s.cmon := rfl
@[simp] theorem callDrain_tdl (s : State) : (s.callDrain).tdl = s.tdl := rfl
@[simp] theorem callDrain_bue (s : State) : (s.callDrain).bue = s.bue := rfl
@[simp] theorem callDrain_ntab (s : State) : (s.callDrain).ntab = s.ntab := rfl
@[simp] theorem callDrain_fdir (s : State) : (s.callDrain).fdir = s.fdir := rfl
@[simp] theorem callDrain_prv (s : State) : (s.callDrain).prv = s.prv := rfl
@[simp] theorem callDrain_drt (s : State) : (s.callDrain).drt = s.drt := rfl
@[simp] theorem callDrain_frt (s : State) : (s.callDrain).frt = s.frt := rfl
@[simp] theorem callDrain_csch (s : State) : (s.callDrain).csch = s.csch := rfl
@[simp] theorem callDrain_ktl (s : State) : (s.callDrain).ktl = s.ktl := rfl
@[simp] theorem callDrain_hcp (s : State) : (s.callDrain).hcp = s.hcp := rfl

/-! ### What each setter sets -/

@[simp] theorem setBue_bue (s : State) (b : Bue) : (s.setBue b).bue = b := rfl
@[simp] theorem setNtab_ntab (s : State) (n : Ntab) : (s.setNtab n).ntab = n := rfl
@[simp] theorem setTdl_tdl (s : State) (t : Tdl) : (s.setTdl t).tdl = t := rfl
@[simp] theorem setCmon_cmon (s : State) (c : Cmon) : (s.setCmon c).cmon = c := rfl
@[simp] theorem setKtl_ktl (s : State) (k : Ktl) : (s.setKtl k).ktl = k := rfl
@[simp] theorem setEventMask_mask (s : State) (m : Half) : (s.setEventMask m).hcp.mask = m := rfl
@[simp] theorem setConfig_cfg (s : State) (c : Settings) : (s.setConfig c).hcp.cfg = c := rfl
@[simp] theorem setResponse_response (s : State) (b : List Byte) (x : Stream) :
    (s.setResponse b x).hcp.response = b := rfl

@[simp] theorem slot_setSlot (s : State) (h : Handle) (x : Slot) : (s.setSlot h x).slot h = x := by
  simp [State.slot, State.setSlot]

theorem slot_setSlot_ne (s : State) {h k : Handle} (x : Slot) (ne : h ≠ k) : (s.setSlot h x).slot k = s.slot k := by
  have : (h : Nat) ≠ k := fun e => ne (Fin.ext e)
  simp [State.slot, State.setSlot, Vector.getElem_set, this]

@[simp] theorem setGuard_guard (s : State) (g : Fin 6) (x : Guard) : (s.setGuard g x).guard g = x := by
  simp [State.guard, State.setGuard]

theorem setGuard_guard_ne (s : State) {g k : Fin 6} (x : Guard) (ne : g ≠ k) :
    (s.setGuard g x).guard k = s.guard k := by
  have : (g : Nat) ≠ k := fun e => ne (Fin.ext e)
  simp [State.guard, State.setGuard, Vector.getElem_set, this]

@[simp] theorem setList_list (s : State) (x : Src) (l : List Handle) : (s.setList x l).list x = l := by
  simp [State.list, State.setList]

theorem setList_list_ne (s : State) {x y : Src} (l : List Handle) (ne : x ≠ y) :
    (s.setList x l).list y = s.list y := by
  have : (x : Nat) ≠ y := fun e => ne (Fin.ext e)
  simp [State.list, State.setList, Vector.getElem_set, this]

@[simp] theorem setRecord_record (s : State) (h : Handle) (r : Record) : (s.setRecord h r).record h = some r := by
  simp [State.record, State.setRecord, State.modifySlot]

theorem setRecord_record_ne (s : State) {h k : Handle} (r : Record) (ne : h ≠ k) :
    (s.setRecord h r).record k = s.record k := by
  simp [State.record, State.setRecord, State.modifySlot, slot_setSlot_ne s _ ne]

end Sys2Proof.Machine
end

