-- ==== Sys2Proof/Laws/Moves.lean ====
section
/-! SUPPORT. What an event may do, said once: every operation is a chain of the moves below. Their reach says which: the
moves of claims, ties, proofs and confirms; those of the walk besides; those of the line, the sources and the retirement of
records besides; and those that bring a record in. -/

namespace Sys2Proof.Machine

/-- The reach of an event beyond claims. -/
inductive Kind where
  | walk
  | event (admits : Bool)
deriving DecidableEq, Repr

/-- The reach of an operation. -/
inductive Reach where
  | claim
  | more (k : Kind)
deriving DecidableEq, Repr

/-- Whether a slot holds a record, and whether that is a retired one. -/
def Slot.standing (x : Slot) : Option Bool := x.record.map fun r => r.state == .retired

/-- One move. -/
inductive Move : Reach → State → State → Prop
  | agenda {v : Reach} {s : State} (a : Agenda) : Move v s { s with agenda := a }
  /-- a request is claimed, never in DOWN -/
  | queues {v : Reach} {s : State} (u r : List Request) (hd : s.tdl.line ≠ .down)
      (hq : s.tdl.queueKept → ({ s.tdl with urgent := u, routine := r } : Tdl).queueKept) :
      Move v s { s with tdl := { s.tdl with urgent := u, routine := r } }
  | slot {v : Reach} {s : State} (h : Handle) (x : Slot) (hg : x.gen = (s.slot h).gen)
      (hr : x.record = (s.slot h).record) : Move v s (s.setSlot h x)
  | record {v : Reach} {s : State} (h : Handle) {r : Record} (hl : s.live h = some r) (r' : Record)
      (hr : (r'.state == RecState.retired) = false) : Move v s (s.setRecord h r')
  | prv {v : Reach} {s : State} (p : Prv) : Move v s { s with prv := p }
  /-- a handle has one entry of the pending-drive set at most -/
  | pend {v : Reach} {s : State} (l : List Pend) (hp : s.pendKept → (s.setPend l).pendKept) : Move v s (s.setPend l)
  /-- a handle joins a list that has room, or leaves it -/
  | list {v : Reach} {s : State} (x : Src) (l : List Handle)
      (hl : l.length ≤ max (s.list x).length Config.listSize) : Move v s (s.setList x l)
  | guard {v : Reach} {s : State} (g : Fin 6) (x : Guard) : Move v s (s.setGuard g x)
  | owed {v : Reach} {s : State} (g : Generator) (o : Option OwedMark) : Move v s (s.setOwed g o)
  | followOwed {v : Reach} {s : State} (x : TurnSide) (o : Option OwedMark) : Move v s (s.setFollowOwed x o)
  | own {v : Reach} {s : State} (n : Nat) (hn : n ≤ max s.csch.own Config.ownLimit) : Move v s (s.setOwn n)
  | bue {k : Kind} {s : State} (b : Bue) : Move (.more k) s (s.setBue b)
  | nodes {k : Kind} {s : State} (n : Ntab) (hh : n.hold = s.ntab.hold)
      (hn : n.nodes.map (·.address) = s.ntab.nodes.map (·.address)) : Move (.more k) s (s.setNtab n)
  | recat {k : Kind} {s : State} (c : Option Recatalogue) : Move (.more k) s (s.setRecat c)
  | ktl {k : Kind} {s : State} (x : Ktl) (hc : x.cells = s.ktl.cells) (he : x.entries = s.ktl.entries)
      (hs : x.scanning = s.ktl.scanning) (hw : x.wel = s.ktl.wel) (ht : x.torn = s.ktl.torn)
      (hl : x.last = s.ktl.last) (hk : s.ktl.kept → x.kept) : Move (.more k) s (s.setKtl x)
  | flag {k : Kind} {s : State} (f : Flag) : Move (.more k) s (s.raise f)
  | line {b : Bool} {s : State} (t : Tdl) (hb : t.nextBit = s.tdl.nextBit) (hp : t.linePresent = s.tdl.linePresent)
      (hq : s.tdl.queueKept → t.queueKept) : Move (.more (.event b)) s { s with tdl := t }
  | hold {b : Bool} {s : State} (n : Ntab) (hn : s.ntab.nodesKept → n.nodesKept) : Move (.more (.event b)) s (s.setNtab n)
  | retire {b : Bool} {s : State} (h : Handle) (x : Slot) (hg : x.gen = (s.slot h).gen)
      (hs : (s.slot h).standing = some false) (hx : x.standing = some true) : Move (.more (.event b)) s (s.setSlot h x)
  | attention {b : Bool} {s : State} (l : List Handle) (hl : s.attentionKept → (s.setAttention l).attentionKept) :
      Move (.more (.event b)) s (s.setAttention l)
  | source {b : Bool} {s : State} (x : Src) (v : Source) : Move (.more (.event b)) s (s.setSourceEntry x v)
  | flash {b : Bool} {s : State} (f : Frt) (hm : f.modes = s.frt.modes) : Move (.more (.event b)) s { s with frt := f }
  | enrol {s : State} (h : Handle) (x : Slot) (hf : s.record h = none) (hx : x.record.isSome = true)
      (hg : x.gen ≠ 0) : Move (.more (.event true)) s (s.setSlot h x)

/-- A chain of moves. -/
inductive Moves (v : Reach) (s : State) : State → Prop
  | nil : Moves v s s
  | snoc {t u : State} (h : Moves v s t) (m : Move v t u) : Moves v s u

theorem Moves.trans {v : Reach} {s t u : State} (h : Moves v s t) (k : Moves v t u) : Moves v s u := by
  induction k with
  | nil => exact h
  | snoc _ m ih => exact ih.snoc m

/-! ### Live records and standings -/

/-- A live record is not RETIRED. -/
theorem live_not_retired {t : State} {h : Handle} {r : Record} (hl : t.live h = some r) :
    (r.state == RecState.retired) = false := by
  unfold State.live at hl
  split at hl
  · split at hl
    · cases hl
    · simp_all
  · cases hl

theorem live_record {t : State} {h : Handle} {r : Record} (hl : t.live h = some r) : t.record h = some r := by
  unfold State.live at hl
  split at hl
  · split at hl
    · cases hl
    · simp_all
  · cases hl

/-- A live record's standing. -/
theorem live_standing {t : State} {h : Handle} {r : Record} (hl : t.live h = some r) :
    (t.slot h).standing = some false := by
  have q : (t.slot h).record = some r := live_record hl
  simp [Slot.standing, q, live_not_retired hl]

theorem standing_live {t : State} {h : Handle} : (t.live h).isSome = ((t.slot h).standing == some false) := by
  unfold State.live State.record Slot.standing
  cases (t.slot h).record with
  | none => rfl
  | some r => cases q : r.state <;> simp [q]

theorem livePair_live {t : State} {h : Handle} {gen : Byte} {r : Record} (hl : t.livePair h gen = some r) :
    t.live h = some r := by
  unfold State.livePair at hl
  split at hl
  · exact hl
  · cases hl

/-! ### Flags -/

theorem flagsKept_refl (s : State) : s.flagsKept s := by simp [State.flagsKept]

theorem flagsKept_trans {s t u : State} (h : s.flagsKept t) (k : t.flagsKept u) : s.flagsKept u := by
  unfold State.flagsKept at *
  rw [← h, BitVec.and_assoc, k]

theorem raise_flagsKept (s : State) (f : Flag) : s.flagsKept (s.raise f) := by
  unfold State.flagsKept State.raise
  ext i
  simp only [BitVec.getElem_and, BitVec.getElem_or]
  cases s.hcp.flags[i] <;> simp

/-- A set flag stays set along kept flags. -/
theorem flagsKept_bit {s t : State} (h : s.flagsKept t) (i : Nat) (q : s.hcp.flags.getLsbD i = true) :
    t.hcp.flags.getLsbD i = true := by
  have := congrArg (fun x => x.getLsbD i) h
  simp only [BitVec.getLsbD_and, q, Bool.true_and] at this
  exact this

theorem raise_bit (s : State) (f : Flag) : (s.raise f).hcp.flags.getLsbD f.bit = true := by
  unfold State.raise
  cases f <;> simp [Flag.bit]

/-- A reserved bit of the flags stays clear. -/
theorem raise_reserved (s : State) (f : Flag) (h : s.hcp.flags &&& 0xF000 = 0) :
    (s.raise f).hcp.flags &&& 0xF000 = 0 := by
  have hf : (1#16 <<< f.bit) &&& 0xF000 = 0 := by cases f <;> decide
  have e : (s.raise f).hcp.flags &&& 0xF000 = (s.hcp.flags &&& 0xF000) ||| ((1#16 <<< f.bit) &&& 0xF000) := by
    simp only [State.raise]
    ext i
    simp only [BitVec.getElem_and, BitVec.getElem_or]
    exact Bool.and_or_distrib_right _ _ _
  rw [e, h, hf]; rfl

/-! ### What every move keeps -/

theorem Move.fixed {v : Reach} {s t : State} (m : Move v s t) : t.fixed = s.fixed := by
  cases m <;> first
    | rfl
    | simp_all [State.fixed, State.setKtl]

theorem Move.flags {v : Reach} {s t : State} (m : Move v s t) : s.flagsKept t := by
  cases m <;> first
    | exact raise_flagsKept _ _
    | exact flagsKept_refl s

theorem Move.reserved {v : Reach} {s t : State} (m : Move v s t) (h : s.hcp.flags &&& 0xF000 = 0) :
    t.hcp.flags &&& 0xF000 = 0 := by
  cases m <;> first
    | exact raise_reserved _ _ h
    | exact h

theorem Move.own_le {v : Reach} {s t : State} (m : Move v s t) (h : s.csch.own ≤ Config.ownLimit) :
    t.csch.own ≤ Config.ownLimit := by
  cases m <;> first
    | exact h
    | (simp only [State.setOwn]; omega)

theorem Move.list_le {v : Reach} {s t : State} (m : Move v s t) (h : ∀ x, (s.list x).length ≤ Config.listSize)
    (x : Src) : (t.list x).length ≤ Config.listSize := by
  cases m with
  | list y l hl =>
      by_cases k : y = x
      · subst k
        have := h y
        simp only [setList_list]
        omega
      · rw [setList_list_ne _ _ k]; exact h x
  | _ => exact h x

theorem nodesKept_of_addresses {m n : Ntab} (h : n.nodes.map (·.address) = m.nodes.map (·.address)) (k : m.nodesKept) :
    n.nodesKept := by
  unfold Ntab.nodesKept at *
  have := congrArg List.length h
  simp only [List.length_map] at this
  rw [h, this]
  exact k

theorem Move.queue {v : Reach} {s t : State} (m : Move v s t) (h : s.tdl.queueKept) : t.tdl.queueKept := by
  cases m with
  | queues u r hd hq => exact hq h
  | line t hb hp hq => exact hq h
  | _ => exact h

theorem Move.pendKept {v : Reach} {s t : State} (m : Move v s t) (h : s.pendKept) : t.pendKept := by
  cases m with
  | pend l hp => exact hp h
  | _ => exact h

theorem Move.nodesKept {v : Reach} {s t : State} (m : Move v s t) (h : s.ntab.nodesKept) : t.ntab.nodesKept := by
  cases m with
  | nodes n hh hn => exact nodesKept_of_addresses hn h
  | hold n hn => exact hn h
  | _ => exact h

theorem Move.ktlKept {v : Reach} {s t : State} (m : Move v s t) (h : s.ktl.kept) : t.ktl.kept := by
  cases m with
  | ktl x _ _ _ _ _ _ hk => exact hk h
  | _ => exact h

/-- How the slot of a handle comes out of a move: a record is retired at most, or admitted where one may be. -/
theorem Move.slotOf {v : Reach} {s t : State} (m : Move v s t) (k : Handle) :
    ((t.slot k).gen = (s.slot k).gen ∧ (t.slot k).standing = (s.slot k).standing
        ∧ ((s.slot k).standing = some true → (t.slot k).record = (s.slot k).record))
    ∨ (∃ b, v = .more (.event b)) ∧ (t.slot k).gen = (s.slot k).gen ∧ (s.slot k).standing = some false
        ∧ (t.slot k).standing = some true
    ∨ v = .more (.event true) ∧ (s.slot k).record = none ∧ (t.slot k).record.isSome = true
        ∧ (t.slot k).gen ≠ 0 := by
  cases m with
  | slot h x hg hr =>
      left
      by_cases q : h = k
      · subst q; simp [hg, hr, Slot.standing]
      · simp [slot_setSlot_ne _ _ q]
  | record h hl r' hr =>
      left
      by_cases q : h = k
      · subst q
        have a := live_standing hl
        refine ⟨by simp [State.setRecord, State.modifySlot], ?_, fun c => by rw [a] at c; cases c⟩
        rw [a]
        simp [State.setRecord, State.modifySlot, Slot.standing, hr]
      · simp [State.setRecord, State.modifySlot, slot_setSlot_ne _ _ q]
  | @retire b _ h x hg hs hx =>
      by_cases q : h = k
      · subst q
        right; left
        exact ⟨⟨b, rfl⟩, by simp [hg], hs, by simp [hx]⟩
      · left; simp [slot_setSlot_ne _ _ q]
  | enrol h x hf hx hg =>
      by_cases q : h = k
      · subst q
        right; right
        exact ⟨rfl, hf, by simp [hx], by rw [slot_setSlot]; exact hg⟩
      · left; simp [slot_setSlot_ne _ _ q]
  | _ => exact .inl ⟨rfl, rfl, fun _ => rfl⟩

/-- No move frees a slot. -/
theorem Move.kept {v : Reach} {s t : State} (m : Move v s t) (k : Handle) (r : (s.record k).isSome = true) :
    (t.record k).isSome = true := by
  have b : ∀ w : State, (w.record k).isSome = (w.slot k).standing.isSome := fun w => by simp [State.record, Slot.standing]
  rw [b] at r ⊢
  rcases m.slotOf k with q | q | q
  · rw [q.2.1]; exact r
  · rw [q.2.2.2]; rfl
  · simpa [Slot.standing] using q.2.2.1

theorem Move.attentionKept {v : Reach} {s t : State} (m : Move v s t) (h : s.attentionKept) : t.attentionKept := by
  have a : s.fdir.attention = t.fdir.attention → t.attentionKept := fun q =>
    ⟨q ▸ h.1, fun k hk => m.kept k (h.2 k (q ▸ hk))⟩
  cases m with
  | attention l hl => exact hl h
  | _ => exact a rfl

/-- What claims and the walk leave alone: the attempt on the line, the sources, the channels and the Attention Set. -/
theorem Move.still {v : Reach} {s t : State} (m : Move v s t) (hv : v = .claim ∨ v = .more .walk) :
    t.still = s.still := by
  rcases hv with rfl | rfl <;> cases m <;> first
    | rfl
    | simp_all [State.still, State.fixed, State.setKtl, State.setNtab]

/-- What claims leave alone besides. -/
theorem Move.claim {s t : State} (m : Move .claim s t) : t.bue = s.bue ∧ t.ntab = s.ntab ∧ t.ktl = s.ktl ∧ t.hcp = s.hcp
    ∧ t.fdir.recat = s.fdir.recat ∧ (∀ g, (t.gen g).run = (s.gen g).run ∧ (t.gen g).cycle = (s.gen g).cycle) := by
  cases m with
  | owed g o =>
      refine ⟨rfl, rfl, rfl, rfl, rfl, fun k => ?_⟩
      by_cases q : g = k
      · subst q; simp [State.setOwed, State.setGen, State.gen]
      · have : (genNumber g : Nat) ≠ genNumber k := by cases g <;> cases k <;> first | exact absurd rfl q | decide
        simp [State.setOwed, State.setGen, State.gen, this]
  | _ => exact ⟨rfl, rfl, rfl, rfl, rfl, fun _ => ⟨rfl, rfl⟩⟩

/-- In DOWN claims and the walk leave the line and its queue alone. -/
theorem Move.down {v : Reach} {s t : State} (m : Move v s t) (hv : v = .claim ∨ v = .more .walk)
    (hd : s.tdl.line = .down) : t.tdl = s.tdl := by
  cases m <;> first
    | rfl
    | exact absurd hd ‹_›
    | simp at hv

/-! ### The same along a chain -/

theorem Moves.fixed {v : Reach} {s t : State} (h : Moves v s t) : t.fixed = s.fixed := by
  induction h with
  | nil => rfl
  | snoc _ m ih => exact m.fixed.trans ih

theorem Moves.still {v : Reach} {s t : State} (h : Moves v s t) (hv : v = .claim ∨ v = .more .walk) :
    t.still = s.still := by
  induction h with
  | nil => rfl
  | snoc _ m ih => exact (m.still hv).trans ih

theorem Moves.claim {s t : State} (h : Moves .claim s t) : t.bue = s.bue ∧ t.ntab = s.ntab ∧ t.ktl = s.ktl
    ∧ t.hcp = s.hcp ∧ t.fdir.recat = s.fdir.recat
    ∧ (∀ g, (t.gen g).run = (s.gen g).run ∧ (t.gen g).cycle = (s.gen g).cycle) := by
  induction h with
  | nil => exact ⟨rfl, rfl, rfl, rfl, rfl, fun _ => ⟨rfl, rfl⟩⟩
  | snoc _ m ih =>
      obtain ⟨a, b, c, d, e, f⟩ := m.claim
      obtain ⟨a', b', c', d', e', f'⟩ := ih
      exact ⟨a.trans a', b.trans b', c.trans c', d.trans d', e.trans e',
        fun g => ⟨(f g).1.trans (f' g).1, (f g).2.trans (f' g).2⟩⟩

theorem Moves.down {v : Reach} {s t : State} (h : Moves v s t) (hv : v = .claim ∨ v = .more .walk)
    (hd : s.tdl.line = .down) : t.tdl = s.tdl := by
  induction h with
  | nil => rfl
  | snoc _ m ih => exact (m.down hv (by rw [ih]; exact hd)).trans ih

theorem Moves.flags {v : Reach} {s t : State} (h : Moves v s t) : s.flagsKept t := by
  induction h with
  | nil => exact flagsKept_refl s
  | snoc _ m ih => exact flagsKept_trans ih m.flags

theorem Moves.reserved {v : Reach} {s t : State} (h : Moves v s t) (k : s.hcp.flags &&& 0xF000 = 0) :
    t.hcp.flags &&& 0xF000 = 0 := by
  induction h with
  | nil => exact k
  | snoc _ m ih => exact m.reserved ih

theorem Moves.own_le {v : Reach} {s t : State} (h : Moves v s t) (k : s.csch.own ≤ Config.ownLimit) :
    t.csch.own ≤ Config.ownLimit := by
  induction h with
  | nil => exact k
  | snoc _ m ih => exact m.own_le ih

theorem Moves.list_le {v : Reach} {s t : State} (h : Moves v s t) (k : ∀ x, (s.list x).length ≤ Config.listSize) :
    ∀ x, (t.list x).length ≤ Config.listSize := by
  induction h with
  | nil => exact k
  | snoc _ m ih => exact fun x => m.list_le ih x

/-- No move frees a slot: FORGET alone does. -/
theorem Moves.kept {v : Reach} {s t : State} (h : Moves v s t) (k : Handle) (r : (s.record k).isSome = true) :
    (t.record k).isSome = true := by
  induction h with
  | nil => exact r
  | snoc _ m ih => exact m.kept k ih

/-- The limits of `State.withinLimits`. -/
theorem Move.withinLimits {v : Reach} {s t : State} (m : Move v s t) (h : s.withinLimits) : t.withinLimits :=
  ⟨m.own_le h.1, m.list_le h.2.1, m.queue h.2.2.1, m.pendKept h.2.2.2.1, m.nodesKept h.2.2.2.2.1,
    m.attentionKept h.2.2.2.2.2.1, m.ktlKept h.2.2.2.2.2.2⟩

theorem Moves.withinLimits {v : Reach} {s t : State} (h : Moves v s t) (k : s.withinLimits) : t.withinLimits := by
  induction h with
  | nil => exact k
  | snoc _ m ih => exact m.withinLimits ih

/-- A retired record keeps its contents, and no generation changes but by an admission. -/
theorem Moves.retired {v : Reach} {s t : State} (h : Moves v s t) (k : Handle) (r : (s.slot k).standing = some true) :
    (t.slot k).gen = (s.slot k).gen ∧ (t.slot k).record = (s.slot k).record := by
  induction h with
  | nil => exact ⟨rfl, rfl⟩
  | @snoc t u _ m ih =>
      have st : (t.slot k).standing = some true := by rw [← r]; unfold Slot.standing; rw [ih.2]
      rcases m.slotOf k with q | q | q
      · exact ⟨q.1.trans ih.1, (q.2.2 st).trans ih.2⟩
      · rw [q.2.2.1] at st; cases st
      · have := q.2.1
        simp [Slot.standing, this] at st

/-- Where no record is admitted, a handle without a live record stays so, and a FREE slot stays FREE. -/
theorem Moves.notLive {v : Reach} {s t : State} (h : Moves v s t) (hv : v ≠ .more (.event true)) (k : Handle)
    (r : s.live k = none) : t.live k = none := by
  induction h with
  | nil => exact r
  | @snoc t u _ m ih =>
      have b : ∀ w : State, w.live k = none ↔ (w.slot k).standing ≠ some false := fun w => by
        rw [← Option.not_isSome_iff_eq_none, standing_live]; simp
      rw [b] at ih ⊢
      rcases m.slotOf k with q | q | q
      · rw [q.2.1]; exact ih
      · rw [q.2.2.2]; simp
      · exact absurd q.1 hv

theorem Moves.free {v : Reach} {s t : State} (h : Moves v s t) (hv : v ≠ .more (.event true)) (k : Handle)
    (r : s.record k = none) : t.record k = none := by
  induction h with
  | nil => exact r
  | @snoc t u _ m ih =>
      have b : ∀ w : State, w.record k = none ↔ (w.slot k).standing = none := fun w => by simp [State.record, Slot.standing]
      rw [b] at ih ⊢
      rcases m.slotOf k with q | q | q
      · rw [q.2.1]; exact ih
      · rw [q.2.2.1] at ih; cases ih
      · exact absurd q.1 hv

theorem Moves.gen {v : Reach} {s t : State} (h : Moves v s t) (hv : v ≠ .more (.event true)) (k : Handle) :
    (t.slot k).gen = (s.slot k).gen := by
  induction h with
  | nil => rfl
  | @snoc t u _ m ih =>
      rcases m.slotOf k with q | q | q
      · exact q.1.trans ih
      · exact q.2.1.trans ih
      · exact absurd q.1 hv

/-- Claims and the walk leave every record in its standing. -/
theorem Moves.standing {v : Reach} {s t : State} (h : Moves v s t) (hv : v = .claim ∨ v = .more .walk) (k : Handle) :
    (t.slot k).standing = (s.slot k).standing := by
  induction h with
  | nil => rfl
  | @snoc t u _ m ih =>
      rcases m.slotOf k with q | q | q
      · exact q.2.1.trans ih
      · obtain ⟨b, hb⟩ := q.1
        rcases hv with hv | hv <;> rw [hv] at hb <;> cases hb
      · have hb := q.1
        rcases hv with hv | hv <;> rw [hv] at hb <;> cases hb

/-- Every slot that holds a record has a generation other than 0. -/
def State.generations (s : State) : Prop := ∀ h : Handle, (s.record h).isSome = true → (s.slot h).gen ≠ 0

theorem Moves.generations {v : Reach} {s t : State} (h : Moves v s t) (k : s.generations) : t.generations := by
  induction h with
  | nil => exact k
  | @snoc t u _ m ih =>
      intro x hx
      have b : ∀ w : State, (w.record x).isSome = (w.slot x).standing.isSome := fun w => by simp [State.record, Slot.standing]
      rw [b] at hx
      rcases m.slotOf x with q | q | q
      · rw [q.1]; exact ih x (by rw [b, ← q.2.1]; exact hx)
      · rw [q.2.1]; exact ih x (by rw [b, q.2.2.1]; rfl)
      · exact q.2.2.2

/-! ### Building chains -/

theorem ite_moves {v : Reach} {s t u : State} {c : Prop} [Decidable c] (h : Moves v s t) (k : Moves v s u) :
    Moves v s (if c then t else u) := by
  split
  · exact h
  · exact k

/-- A fold of operations each of which is a chain. -/
theorem foldl_moves {α : Type} {v : Reach} {s : State} {f : State → α → State}
    (hf : ∀ t x, Moves v s t → Moves v s (f t x)) :
    ∀ (l : List α) (t : State), Moves v s t → Moves v s (l.foldl f t)
  | [], _, h => h
  | x :: xs, t, h => foldl_moves hf xs (f t x) (hf t x h)

/-- What a claim may do, any event may do. -/
theorem Moves.lift {v : Reach} {s t : State} (h : Moves .claim s t) : Moves v s t := by
  induction h with
  | nil => exact .nil
  | snoc _ m ih =>
      refine ih.snoc ?_
      cases m with
      | agenda a => exact .agenda a
      | queues u r hd hq => exact .queues u r hd hq
      | slot h x hg hr => exact .slot h x hg hr
      | record h hl r' hr => exact .record h hl r' hr
      | prv p => exact .prv p
      | pend l hp => exact .pend l hp
      | list x l hl => exact .list x l hl
      | guard g x => exact .guard g x
      | owed g o => exact .owed g o
      | followOwed x o => exact .followOwed x o
      | own n hn => exact .own n hn

end Sys2Proof.Machine
end

