-- ==== Sys2Proof/Laws/Queue.lean ====
section
/-! SUPPORT. What each change of the Line Queue does to the numbers of its entries (R14 to R20). -/

namespace Sys2Proof.Machine

variable {t u : Tdl}

/-- A queue with no more entries of any kind keeps the limits. -/
theorem queueKept_mono (hu : ∀ p, u.urgentOf p ≤ t.urgentOf p) (hr : ∀ p, u.routineOf p ≤ t.routineOf p)
    (k : t.queueKept) : u.queueKept := by
  obtain ⟨a, b, c, d⟩ := k
  refine ⟨Nat.le_trans (hu _) a, Nat.le_trans (hu _) b, fun h => ?_, ?_⟩
  · have := c h
    have := hu (Request.isDriveFor h)
    have := hr (Request.isDriveFor h)
    omega
  · rcases d with d | d
    · exact .inl (Nat.le_trans (hr _) d)
    · exact .inr (Nat.le_trans (hr _) d)

/-- The attempt and the two classes as they were. -/
theorem queueKept_same (hu : u.urgent = t.urgent) (hr : u.routine = t.routine) (hf : u.inFlight = t.inFlight)
    (k : t.queueKept) : u.queueKept := by
  refine queueKept_mono (fun p => ?_) (fun p => ?_) k <;> simp [Tdl.urgentOf, Tdl.routineOf, hu, hr, hf]

/-- A Drive for a handle is a Drive. -/
theorem isDrive_of_for {h : Handle} {r : Request} (k : r.isDriveFor h = true) : r.isDrive = true := by
  unfold Request.isDriveFor at k
  split at k
  · rfl
  · cases k

theorem notDriveFor {r : Request} (k : r.isDrive = false) (h : Handle) : r.isDriveFor h = false := by
  cases q : r.isDriveFor h with
  | false => rfl
  | true => rw [isDrive_of_for q] at k; cases k

/-- One more routine request, no Drive, while the class has room (R15). -/
theorem queueKept_routine {r : Request} (hr : r.isDrive = false) (room : t.routineOf (fun _ => true) < Config.routineSize)
    (k : t.queueKept) : ({ t with routine := t.routine ++ [r] } : Tdl).queueKept := by
  obtain ⟨a, b, c, _⟩ := k
  refine ⟨a, b, fun h => ?_, .inl ?_⟩
  · have := c h
    simpa [Tdl.urgentOf, Tdl.routineOf, notDriveFor hr h] using this
  · simp only [Tdl.routineOf, List.countP_append, List.countP_singleton, if_true] at room ⊢
    omega

/-- One more Drive in the routine class, of a handle that has none (R15, R16). -/
theorem queueKept_routineDrive {d : DriveReq} (none_ : t.urgentOf (Request.isDriveFor d.handle)
      + t.routineOf (Request.isDriveFor d.handle) = 0) (room : t.routineOf (fun _ => true) < Config.routineSize)
    (k : t.queueKept) : ({ t with routine := t.routine ++ [.drive d] } : Tdl).queueKept := by
  obtain ⟨a, b, c, _⟩ := k
  refine ⟨a, b, fun h => ?_, .inl ?_⟩
  · have := c h
    have e : Request.isDriveFor h (.drive d) = (d.handle == h) := rfl
    simp only [Tdl.urgentOf, Tdl.routineOf, List.countP_append, List.countP_singleton, e] at this none_ ⊢
    by_cases q : d.handle = h
    · subst q
      simp only [beq_self_eq_true, if_true]
      omega
    · simp only [beq_iff_eq, q, if_false]
      omega
  · simp only [Tdl.routineOf, List.countP_append, List.countP_singleton, if_true] at room ⊢
    omega

/-- One more Phase Mark (R15). -/
theorem queueKept_mark {m : BitVec 4} {on : Bool} (room : t.urgentOf (fun _ => true) < Config.urgentSize)
    (k : t.queueKept) : ({ t with urgent := t.urgent ++ [.phaseMark m on] } : Tdl).queueKept := by
  obtain ⟨_, b, c, d⟩ := k
  have e : ∀ h, Request.isDriveFor h (.phaseMark m on) = false := fun _ => rfl
  refine ⟨?_, ?_, fun h => ?_, d⟩
  · simp only [Tdl.urgentOf, List.countP_append, List.countP_singleton, if_true] at room ⊢
    omega
  · simpa [Tdl.urgentOf, Request.isDrive] using b
  · have := c h
    simpa [Tdl.urgentOf, Tdl.routineOf, e h] using this

/-- One more Drive in the urgent class, of a handle that has none (R15, R16). -/
theorem queueKept_urgentDrive {d : DriveReq} (none_ : t.urgentOf (Request.isDriveFor d.handle)
      + t.routineOf (Request.isDriveFor d.handle) = 0) (drives : t.urgentOf Request.isDrive < Config.urgentDrives)
    (room : t.urgentOf (fun _ => true) < Config.urgentSize)
    (k : t.queueKept) : ({ t with urgent := t.urgent ++ [.drive d] } : Tdl).queueKept := by
  obtain ⟨_, _, c, f⟩ := k
  refine ⟨?_, ?_, fun h => ?_, f⟩
  · simp only [Tdl.urgentOf, List.countP_append, List.countP_singleton, if_true] at room ⊢
    omega
  · simp only [Tdl.urgentOf, List.countP_append, List.countP_singleton, Request.isDrive, if_true] at drives ⊢
    omega
  · have := c h
    have e : Request.isDriveFor h (.drive d) = (d.handle == h) := rfl
    simp only [Tdl.urgentOf, Tdl.routineOf, List.countP_append, List.countP_singleton, e] at this none_ ⊢
    by_cases q : d.handle = h
    · subst q
      simp only [beq_self_eq_true, if_true]
      omega
    · simp only [beq_iff_eq, q, if_false]
      omega

/-- A merge changes a word alone. -/
theorem countP_mergeWord (h : Handle) (w : OutWord) (p : Request → Bool)
    (hp : ∀ d : DriveReq, p (.drive { d with word := w }) = p (.drive d)) :
    ∀ q : List Request, (mergeWord h w q).countP p = q.countP p
  | [] => rfl
  | r :: q => by
      have ih := countP_mergeWord h w p hp q
      unfold mergeWord at ih ⊢
      rw [List.map_cons, List.countP_cons, List.countP_cons, ih]
      congr 1
      cases r with
      | drive d =>
          dsimp only
          split
          · rw [hp]
          · rfl
      | _ => rfl

theorem queueKept_merge (h : Handle) (w : OutWord) (k : t.queueKept) :
    ({ t with urgent := mergeWord h w t.urgent } : Tdl).queueKept
    ∧ ({ t with routine := mergeWord h w t.routine } : Tdl).queueKept := by
  have a := fun q => countP_mergeWord h w (fun _ => true) (fun _ => rfl) q
  have b := fun q => countP_mergeWord h w Request.isDrive (fun _ => rfl) q
  have c := fun g q => countP_mergeWord h w (Request.isDriveFor g) (fun _ => rfl) q
  have d := fun q => countP_mergeWord h w Request.ordinary (fun _ => rfl) q
  unfold Tdl.queueKept Tdl.urgentOf Tdl.routineOf at *
  simp only [a, b, c, d]
  exact ⟨k, k⟩

/-- No Drive of the handle waits or is in flight. -/
theorem noDriveFor {h : Handle} (hf : ∀ f, t.inFlight = some f → f.req.isDriveFor h = false)
    (hu : t.urgent.any (Request.isDriveFor h) = false) (hr : t.routine.any (Request.isDriveFor h) = false) :
    t.urgentOf (Request.isDriveFor h) + t.routineOf (Request.isDriveFor h) = 0 := by
  have none_ : ∀ q : List Request, q.any (Request.isDriveFor h) = false → q.countP (Request.isDriveFor h) = 0 := by
    intro q k
    rw [List.countP_eq_zero]
    intro r m
    simpa using List.any_eq_false.mp k r m
  unfold Tdl.urgentOf Tdl.routineOf
  rw [none_ _ hu, none_ _ hr]
  cases q : t.inFlight with
  | none => rfl
  | some f => simp [hf f q]

/-- A request granted keeps its entry, and one interrupted takes it again (R14, R19). -/
theorem queueKept_grant {r : Request} {q : List Request} {n : Nat} (hf : t.inFlight = none) (k : t.queueKept) (x : InFlight)
    (hx : x.req = r) : (t.urgent = r :: q → x.urgent = true →
        ({ t with urgent := q, urgentRun := n, line := .busy, inFlight := some x } : Tdl).queueKept)
      ∧ (t.routine = r :: q → x.urgent = false →
        ({ t with routine := q, urgentRun := n, line := .busy, inFlight := some x } : Tdl).queueKept) := by
  subst hx
  constructor
  all_goals
    intro e b
    refine queueKept_mono (fun p => ?_) (fun p => ?_) k <;>
      simp [Tdl.urgentOf, Tdl.routineOf, hf, e, b, List.countP_cons]

theorem queueKept_interrupt {f : InFlight} (hf : t.inFlight = some f) (k : t.queueKept) :
    (f.urgent = true → ({ t with inFlight := none, urgent := f.req :: t.urgent } : Tdl).queueKept)
    ∧ (f.urgent = false → ({ t with inFlight := none, routine := f.req :: t.routine } : Tdl).queueKept) := by
  constructor
  all_goals
    intro b
    refine queueKept_mono (fun p => ?_) (fun p => ?_) k <;>
      simp [Tdl.urgentOf, Tdl.routineOf, hf, b, List.countP_cons]

/-- An attempt that goes on in its own entry with a request of the same kind. -/
theorem queueKept_stage {f g : InFlight} (hf : t.inFlight = some f) (hu : g.urgent = f.urgent)
    (hd : g.req.isDrive = f.req.isDrive) (hh : ∀ h, g.req.isDriveFor h = f.req.isDriveFor h)
    (ho : g.req.ordinary = f.req.ordinary) (k : t.queueKept) : ({ t with inFlight := some g } : Tdl).queueKept := by
  unfold Tdl.queueKept Tdl.urgentOf Tdl.routineOf at *
  simp only [hf] at k
  simp only [hu, hd, hh, ho]
  exact k

/-- Requests leave the queue. -/
theorem queueKept_sublist (hu : u.urgent.Sublist t.urgent) (hr : u.routine.Sublist t.routine)
    (hf : u.inFlight = t.inFlight ∨ u.inFlight = none) (k : t.queueKept) : u.queueKept := by
  have f : ∀ (b : Bool) (p : Request → Bool), (match u.inFlight with
      | some f => if (f.urgent == b) && p f.req then 1 else 0
      | none => 0) ≤ (match t.inFlight with
      | some f => if (f.urgent == b) && p f.req then 1 else 0
      | none => 0) := by
    intro b p
    rcases hf with e | e
    · rw [e]
    · rw [e]
      exact Nat.zero_le _
  refine queueKept_mono (fun p => ?_) (fun p => ?_) k
  · have := f true p
    simp only [beq_true] at this
    exact Nat.add_le_add hu.countP_le this
  · have := f false p
    simp only [beq_false] at this
    exact Nat.add_le_add hr.countP_le this

/-- Requests placed at the head of the routine class when room has been made for them (R17, R64). -/
theorem queueKept_head {new : List Request} {q : List Request} (hq : ∀ p, q.countP p = new.countP p + t.routine.countP p)
    (hn : ∀ r ∈ new, r.isDrive = false ∧ r.ordinary = false)
    (room : t.routineOf (fun _ => true) + new.length ≤ Config.routineSize ∨ t.routineOf Request.ordinary ≤ 1)
    (k : t.queueKept) : ({ t with routine := q } : Tdl).queueKept := by
  obtain ⟨a, b, c, _⟩ := k
  have d : ∀ h, new.countP (Request.isDriveFor h) = 0 := fun h =>
    List.countP_eq_zero.mpr fun r m => by simp [notDriveFor (hn r m).1 h]
  have o : new.countP Request.ordinary = 0 := List.countP_eq_zero.mpr fun r m => by simp [(hn r m).2]
  refine ⟨a, b, fun h => ?_, ?_⟩
  · have := c h
    simpa [Tdl.urgentOf, Tdl.routineOf, hq, d h] using this
  · rcases room with r | r
    · left
      have : new.countP (fun _ => true) = new.length := List.countP_eq_length.mpr fun _ _ => rfl
      simp only [Tdl.routineOf, hq, this] at r ⊢
      omega
    · right
      simpa [Tdl.routineOf, hq, o] using r

/-- Taking out the newest requests (R17): of those that may be taken out the newest go, newest first, and the rest of the queue
keeps its order. -/
theorem takeOutNewest_parts (keep : Request → Bool) (k : Nat) (q : List Request) :
    let free := q.filter fun r => !keep r
    (takeOutNewest keep k q).2 = free.reverse.take k ∧ (takeOutNewest keep k q).1.Sublist q
    ∧ (takeOutNewest keep k q).1.filter keep = q.filter keep
    ∧ (takeOutNewest keep k q).1.filter (fun r => !keep r) = free.take (free.length - k) := by
  have step : ∀ (l : List Request) (n : Nat) (a b : List Request),
      ∃ (j : Nat) (m : List Request), l.foldl (fun (acc : Nat × List Request × List Request) r =>
          if 0 < acc.1 && !keep r then (acc.1 - 1, acc.2.1, acc.2.2 ++ [r]) else (acc.1, r :: acc.2.1, acc.2.2))
          (n, a, b) = (j, m.reverse ++ a, b ++ (l.filter fun r => !keep r).take n)
        ∧ m.Sublist l ∧ m.filter keep = l.filter keep
        ∧ m.filter (fun r => !keep r) = (l.filter fun r => !keep r).drop n := by
    intro l
    induction l with
    | nil => exact fun n a b => ⟨n, [], by simp⟩
    | cons r l ih =>
        intro n a b
        rw [List.foldl_cons]
        by_cases g : keep r = true
        · obtain ⟨j, m, e, h1, h2, h3⟩ := ih n (r :: a) b
          refine ⟨j, r :: m, ?_, h1.cons_cons _, by simp [g, h2], by simp [g, h3]⟩
          simp only [g, Bool.not_true, Bool.and_false, Bool.false_eq_true, if_false, e]
          simp [g]
        · have g : keep r = false := by simpa using g
          cases n with
          | zero =>
              obtain ⟨j, m, e, h1, h2, h3⟩ := ih 0 (r :: a) b
              refine ⟨j, r :: m, ?_, h1.cons_cons _, by simp [g, h2], by simpa [g] using h3⟩
              simp only [Nat.lt_irrefl, decide_false, Bool.false_and, Bool.false_eq_true, if_false, e]
              simp
          | succ n =>
              obtain ⟨j, m, e, h1, h2, h3⟩ := ih n a (b ++ [r])
              refine ⟨j, m, ?_, h1.cons _, by simp [g, h2], by simpa [g] using h3⟩
              simp only [g, Nat.zero_lt_succ, decide_true, Bool.not_false, Bool.and_self, if_true, Nat.add_sub_cancel, e]
              simp [g]
  obtain ⟨j, m, e, h1, h2, h3⟩ := step q.reverse k [] []
  have e : takeOutNewest keep k q = (m.reverse, (q.filter fun r => !keep r).reverse.take k) := by
    unfold takeOutNewest
    simp only [e, List.append_nil, List.nil_append, List.filter_reverse]
  rw [e]
  refine ⟨rfl, by simpa using h1.reverse, ?_, ?_⟩
  · simp [List.filter_reverse, h2]
  · simp only [List.filter_reverse, h3, List.drop_reverse, List.reverse_reverse]

/-- What is left is the queue with as many requests out of it as asked for, or with no request left that may be taken out. -/
theorem takeOutNewest_spec (keep : Request → Bool) (k : Nat) (q : List Request) :
    (takeOutNewest keep k q).1.Sublist q
    ∧ (takeOutNewest keep k q).1.length + (takeOutNewest keep k q).2.length = q.length
    ∧ ((takeOutNewest keep k q).2.length = k ∨ ∀ r ∈ (takeOutNewest keep k q).1, keep r = true) := by
  obtain ⟨out, sub, kept, left⟩ := takeOutNewest_parts keep k q
  have len := fun l : List Request => List.length_eq_length_filter_add (l := l) keep
  refine ⟨sub, ?_, ?_⟩
  · rw [len q, len (takeOutNewest keep k q).1, kept, left, out]
    simp only [List.length_take, List.length_reverse]
    omega
  · rw [out]
    by_cases h : k ≤ (q.filter fun r => !keep r).length
    · left
      simp only [List.length_take, List.length_reverse]
      omega
    · right
      rw [show (q.filter fun r => !keep r).length - k = 0 by omega, List.take_zero, List.filter_eq_nil_iff] at left
      exact fun r m => by simpa using left r m

/-- Room for requests at the head of the routine class: it is there once as many have been taken out as are needed, or
nothing is left that may be taken out. -/
theorem queueKept_room {keep : Request → Bool} (hk : ∀ r, r.ordinary = true → keep r = false) (n : Nat) :
    let q := (takeOutNewest keep (t.routineOf (fun _ => true) + n - Config.routineSize) t.routine).1
    ({ t with routine := q } : Tdl).routineOf (fun _ => true) + n ≤ Config.routineSize
    ∨ ({ t with routine := q } : Tdl).routineOf Request.ordinary ≤ 1 := by
  obtain ⟨_, b, c⟩ := takeOutNewest_spec keep (t.routineOf (fun _ => true) + n - Config.routineSize) t.routine
  dsimp only
  generalize takeOutNewest keep (t.routineOf (fun _ => true) + n - Config.routineSize) t.routine = z at b c
  have all_ : ∀ l : List Request, l.countP (fun _ => true) = l.length := fun l =>
    List.countP_eq_length.mpr fun _ _ => rfl
  rcases c with c | c
  · simp only [Tdl.routineOf, all_] at b c ⊢
    left
    omega
  · right
    have o : z.1.countP Request.ordinary = 0 := List.countP_eq_zero.mpr fun r hr ho => by
      have := c r hr
      rw [hk r ho] at this
      cases this
    simp only [Tdl.routineOf, o, Nat.zero_add]
    split
    · split <;> omega
    · omega

/-- The queue of a line that is DOWN (R20). -/
theorem queueKept_empty (hu : u.urgent = []) (hr : u.routine = []) (hf : u.inFlight = none) : u.queueKept := by
  refine ⟨?_, ?_, fun h => ?_, .inl ?_⟩ <;> simp [Tdl.urgentOf, Tdl.routineOf, hu, hr, hf]

end Sys2Proof.Machine
end

