-- ==== Sys2Proof/Laws/Claims.lean ====
section
/-! SUPPORT. The operations of claims, ties, proofs, confirms and the walk are chains of claim moves. -/

namespace Sys2Proof.Machine

variable {e : Reach} {s t : State}

/-! ### Setters and the operations of Ops, Flags and Line -/

@[simp] theorem refl_moves : Moves e s s := Moves.nil

@[simp] theorem agenda_moves (k : Moves e s t) (a : Agenda) : Moves e s { t with agenda := a } := k.snoc (.agenda a)

theorem setPend_moves (k : Moves e s t) (l : List Pend) (hp : t.pendKept → (t.setPend l).pendKept) :
    Moves e s (t.setPend l) := k.snoc (.pend l hp)

@[simp] theorem setProof_moves (k : Moves e s t) (p : Option Proof) : Moves e s (t.setProof p) := k.snoc (.prv _)

@[simp] theorem setProvingList_moves (k : Moves e s t) (l : List Handle) : Moves e s (t.setProvingList l) :=
  k.snoc (.prv _)

@[simp] theorem join_moves (k : Moves e s t) (h : Handle) : Moves e s (t.join h) := k.snoc (.agenda _)

@[simp] theorem callPass_moves (k : Moves e s t) : Moves e s t.callPass := k.snoc (.agenda _)

@[simp] theorem callDrain_moves (k : Moves e s t) : Moves e s t.callDrain := k.snoc (.agenda _)

@[simp] theorem dueFollow_moves (k : Moves e s t) (x : TurnSide) : Moves e s (t.dueFollow x) := k.snoc (.agenda _)

/-- A change of a slot that leaves its generation and its record as they are. -/
theorem modifySlot_moves (k : Moves e s t) (h : Handle) (f : Slot → Slot)
    (hf : ∀ x, (f x).gen = x.gen ∧ (f x).record = x.record) : Moves e s (t.modifySlot h f) :=
  k.snoc (.slot h _ (hf _).1 (hf _).2)

/-- A live record takes new contents that are not RETIRED. -/
theorem setRecord_moves (k : Moves e s t) {h : Handle} {r : Record} (hl : t.live h = some r) (r' : Record)
    (hr : (r'.state == RecState.retired) = false) : Moves e s (t.setRecord h r') :=
  k.snoc (.record h hl r' hr)

/-- New contents in the same state. -/
theorem setRecord_same (k : Moves e s t) {h : Handle} {r : Record} (hl : t.live h = some r) (r' : Record)
    (hr : r'.state = r.state) : Moves e s (t.setRecord h r') :=
  setRecord_moves k hl r' (hr ▸ live_not_retired hl)

/-- A claim places its request only while the line is not DOWN. -/
@[simp] theorem claimRoutine_moves (k : Moves e s t) (r : Request) (hr : r.isDrive = false) :
    Moves e s (t.claimRoutine r).1 := by
  unfold State.claimRoutine
  split
  · exact k
  · next hd =>
      split
      · next room =>
          exact k.snoc (.queues t.tdl.urgent (t.tdl.routine ++ [r]) (by simpa using hd) (queueKept_routine hr room))
      · exact k

@[simp] theorem claimMark_moves (k : Moves e s t) (m : BitVec 4) (on : Bool) : Moves e s (t.claimMark m on).1 := by
  unfold State.claimMark
  split
  · exact k
  · next hd =>
      split
      · next room =>
          refine k.snoc (.queues (t.tdl.urgent ++ [.phaseMark m on]) t.tdl.routine ?_ (queueKept_mark room))
          intro q
          simp [State.lineRuns, q] at hd
      · exact k

@[simp] theorem claimDrive_moves (k : Moves e s t) (d : DriveReq) (u : Bool) : Moves e s (t.claimDrive d u).1 := by
  unfold State.claimDrive
  split
  · exact k
  · next hd =>
      have hd : t.tdl.line ≠ .down := by simpa using hd
      split
      · exact k
      · next hf =>
          have hf : ∀ f, t.tdl.inFlight = some f → f.req.isDriveFor d.handle = false := by
            intro f q
            simpa [State.inFlightIs, q] using hf
          split
          · exact k.snoc (.queues _ t.tdl.routine hd fun q => (queueKept_merge _ _ q).1)
          · next hu =>
              split
              · exact k.snoc (.queues t.tdl.urgent _ hd fun q => (queueKept_merge _ _ q).2)
              · next hr =>
                  have none_ := noDriveFor hf (by simpa using hu) (by simpa using hr)
                  split
                  · split
                    · next room =>
                        exact k.snoc (.queues _ t.tdl.routine hd (queueKept_urgentDrive none_ room.1 room.2))
                    · exact k
                  · split
                    · next room => exact k.snoc (.queues t.tdl.urgent _ hd (queueKept_routineDrive none_ room))
                    · exact k

/-! ### Router -/

/-- Entries leave the pending-drive set. -/
theorem pendKept_filter (t : State) (p : Pend → Bool) (k : t.pendKept) : (t.setPend (t.drt.pend.filter p)).pendKept :=
  List.Nodup.sublist (List.Sublist.map _ List.filter_sublist) k

/-- An entry joins the set, of a handle that has none there. -/
theorem pendKept_append {t : State} {x : Pend} (h : t.pendHolds x.handle = false) (k : t.pendKept) :
    (t.setPend (t.drt.pend ++ [x])).pendKept := by
  unfold State.pendKept at *
  show ((t.drt.pend ++ [x]).map (·.handle)).Nodup
  rw [List.map_append, List.nodup_append]
  refine ⟨k, by simp, ?_⟩
  intro a ha b hb q
  simp only [List.map_cons, List.map_nil, List.mem_singleton] at hb
  obtain ⟨y, hy, rfl⟩ := List.mem_map.mp ha
  have := List.any_eq_false.mp h y hy
  simp [q, hb] at this

/-- Entries take new contents under their handles. -/
theorem pendKept_map {t : State} {f : Pend → Pend} (hf : ∀ x, (f x).handle = x.handle) (k : t.pendKept) :
    (t.setPend (t.drt.pend.map f)).pendKept := by
  unfold State.pendKept at *
  show ((t.drt.pend.map f).map (·.handle)).Nodup
  rw [List.map_map]
  have : (fun x : Pend => x.handle) ∘ f = fun x => x.handle := funext hf
  rw [this]
  exact k

@[simp] theorem removePend_moves (k : Moves e s t) (h : Handle) : Moves e s (t.removePend h) :=
  setPend_moves k _ (pendKept_filter t _)

@[simp] theorem enter_moves (k : Moves e s t) (h : Handle) (r : Record) (w : OutWord) : Moves e s (t.enter h r w) := by
  unfold State.enter
  dsimp only
  split
  · exact setPend_moves (callDrain_moves k) _ (pendKept_map fun x => by split <;> rfl)
  · next q => exact setPend_moves (callDrain_moves k) _ (pendKept_append (by simpa using q))

@[simp] theorem enterIfDiffers_moves (k : Moves e s t) (h : Handle) (r : Record) (w : OutWord) :
    Moves e s (t.enterIfDiffers h r w) := by
  unfold State.enterIfDiffers
  (repeat' split) <;> simp [k]

@[simp] theorem askOutput_moves (k : Moves e s t) (h : Handle) (w : OutWord) : Moves e s (t.askOutput h w) := by
  unfold State.askOutput
  (repeat' split) <;> simp [k]

@[simp] theorem setDrive_moves (k : Moves e s t) (h : Handle) (f : DriveState → DriveState) :
    Moves e s (t.setDrive h f) := by
  unfold State.setDrive
  split
  · next r hl => exact setRecord_same k hl _ rfl
  · exact k

@[simp] theorem drainOne_moves (k : Moves e s t) (p : Pend) : Moves e s (t.drainOne p) := by
  unfold State.drainOne
  split
  · next r hl =>
    split
    · next a d ha hd =>
        have c := claimDrive_moves k
          { address := a, index := r.index, handle := p.handle, gen := p.gen, word := p.word, prior := d.lastPlaced }
          p.urgent
        dsimp only
        split <;> first
          | exact k
          | exact setDrive_moves (removePend_moves c _) _ _
    · simp [k]
  · simp [k]

@[simp] theorem drain_moves (k : Moves e s t) : Moves e s t.drain :=
  foldl_moves (fun _ p h => drainOne_moves h p) _ t k

@[simp] theorem drainIfDue_moves (k : Moves e s t) : Moves e s t.drainIfDue := by
  unfold State.drainIfDue
  split
  · exact drain_moves (agenda_moves k _)
  · exact k

@[simp] theorem placeAgain_moves (k : Moves e s t) (h : Handle) : Moves e s (t.placeAgain h) := by
  unfold State.placeAgain
  (repeat' split) <;> simp [k]

@[simp] theorem rewant_moves (k : Moves e s t) (h : Handle) : Moves e s (t.rewant h) := by
  unfold State.rewant
  split
  · next r hl =>
      split
      · next w hw =>
          have c := setRecord_same k hl { r with wanted := some w } rfl
          dsimp only
          split
          · exact c
          · exact enterIfDiffers_moves c ..
      · exact k
  · exact k

@[simp] theorem route_moves (k : Moves e s t) (x : Src) : Moves e s (t.route x) :=
  callDrain_moves (foldl_moves (fun _ h j => rewant_moves j h) _ t k)

@[simp] theorem emptyList_moves (k : Moves e s t) (x : Src) : Moves e s (t.setList x []) :=
  k.snoc (.list x _ (Nat.zero_le _))

@[simp] theorem leaveList_moves (k : Moves e s t) (x : Src) (h : Handle) : Moves e s (t.leaveList x h) :=
  k.snoc (.list x _ (Nat.le_trans (List.length_filter_le ..) (Nat.le_max_left ..)))

/-- The caller of a join has checked the list's room (R120). -/
theorem joinList_moves (k : Moves e s t) (x : Src) (h : Handle) (room : (t.list x).length < Config.listSize) :
    Moves e s (t.joinList x h) := by
  unfold State.joinList
  split
  · exact k
  · refine k.snoc (.list x _ ?_)
    simp only [List.length_append, List.length_singleton]
    omega

theorem followBinding_not_retired (r : Record) (hr : (r.state == RecState.retired) = false) :
    (r.followBinding.state == RecState.retired) = false := by
  unfold Record.followBinding Record.soundState
  (repeat' split) <;> first | exact hr | rfl

theorem withTie_state (r : Record) (x : Option Src) : (r.withTie x).state = r.state := by
  unfold Record.withTie
  split <;> rfl

/-- Leaving a list makes no list longer. -/
theorem leaveList_length (t : State) (x y : Src) (h : Handle) : ((t.leaveList x h).list y).length ≤ (t.list y).length := by
  unfold State.leaveList
  by_cases q : x = y
  · subst q
    simp only [setList_list]
    exact List.length_filter_le ..
  · rw [setList_list_ne _ _ q]

/-- A change of a tie to a source whose list has room. -/
theorem changeTie_moves (k : Moves e s t) (h : Handle) (x : Option Src)
    (room : ∀ y, x = some y → (t.list y).length < Config.listSize) : Moves e s (t.changeTie h x) := by
  unfold State.changeTie
  split
  · next r hl =>
      split
      · exact k
      · have hr : ∀ r' : Record, r'.state = ((r.withTie x).followBinding).state → (r'.state == RecState.retired) = false := by
          intro r' q
          rw [q]
          exact followBinding_not_retired _ (by rw [withTie_state]; exact live_not_retired hl)
        refine rewant_moves ?_ h
        have rest : ∀ u, Moves e s u → u.live h = some r → (∀ y, x = some y → (u.list y).length < Config.listSize) →
            Moves e s ((match x with
              | some y => u.joinList y h
              | none => u).setRecord h
              (if x.isNone && r.cls == Class.supply then { (r.withTie x).followBinding with wanted := some OutWord.off }
                else (r.withTie x).followBinding)) := by
          intro u ku lu ru
          have lj : (match x with
              | some y => u.joinList y h
              | none => u).live h = some r := by
            cases x with
            | none => exact lu
            | some y => dsimp only; unfold State.joinList; split <;> exact lu
          refine setRecord_moves ?_ lj _ ?_
          · cases x with
            | none => exact ku
            | some y => exact joinList_moves ku y h (ru y rfl)
          · split <;> exact hr _ rfl
        cases q : r.tie with
        | none => exact rest t k hl room
        | some z =>
            exact rest _ (leaveList_moves k z h) hl fun y hy =>
              Nat.lt_of_le_of_lt (leaveList_length t z y h) (room y hy)
  · exact k

/-! ### Guards -/

@[simp] theorem setGuard_moves (k : Moves e s t) (g : Fin 6) (x : Guard) : Moves e s (t.setGuard g x) :=
  k.snoc (.guard g x)

@[simp] theorem setMotion_moves (k : Moves e s t) (h : Handle) (m : Motion) : Moves e s (t.setMotion h m) := by
  unfold State.setMotion
  split
  · next r hl =>
      split
      · exact setRecord_same k hl _ rfl
      · exact k
  · exact k

@[simp] theorem putGuard_moves (k : Moves e s t) (g : Fin 6) (x : Guard) : Moves e s (t.putGuard g x) := by
  unfold State.putGuard
  dsimp only
  (repeat' split) <;> simp [k]

@[simp] theorem guardAsk_moves (k : Moves e s t) (g : Fin 6) (w : OutWord) : Moves e s (t.guardAsk g w) := by
  unfold State.guardAsk
  (repeat' split) <;> simp [k]

@[simp] theorem guardEnterRun_moves (k : Moves e s t) (g : Fin 6) (d : Dir) : Moves e s (t.guardEnterRun g d) := by
  unfold State.guardEnterRun
  exact guardAsk_moves (putGuard_moves k _ _) _ _

@[simp] theorem guardStopEnded_moves (k : Moves e s t) (g : Fin 6) : Moves e s (t.guardStopEnded g) := by
  unfold State.guardStopEnded
  dsimp only
  split <;> simp [k]

@[simp] theorem stopNeedsNoDrive_moves (k : Moves e s t) (g : Fin 6) : Moves e s (t.stopNeedsNoDrive g) := by
  unfold State.stopNeedsNoDrive
  (repeat' split) <;> simp [k]

@[simp] theorem guardEnterDwell_moves (k : Moves e s t) (g : Fin 6) (x : Option Dir) (b : Bool) :
    Moves e s (t.guardEnterDwell g x b) := by
  unfold State.guardEnterDwell
  dsimp only
  refine stopNeedsNoDrive_moves ?_ g
  split
  · exact putGuard_moves k _ _
  · exact guardAsk_moves (putGuard_moves k _ _) _ _

@[simp] theorem guardRun_moves (k : Moves e s t) (g : Fin 6) (d : Dir) : Moves e s (t.guardRun g d) := by
  unfold State.guardRun
  dsimp only
  (repeat' split) <;> simp [k]

@[simp] theorem guardStop_moves (k : Moves e s t) (g : Fin 6) (b : Bool) : Moves e s (t.guardStop g b) := by
  unfold State.guardStop
  dsimp only
  (repeat' split) <;> simp [k]

@[simp] theorem guardDriveReplied_moves (k : Moves e s t) (h : Handle) (w : OutWord) :
    Moves e s (t.guardDriveReplied h w) := by
  unfold State.guardDriveReplied
  (repeat' split) <;> simp [k]

@[simp] theorem guardDeadOut_moves (k : Moves e s t) (g : Fin 6) : Moves e s (t.guardDeadOut g) := by
  unfold State.guardDeadOut
  dsimp only
  (repeat' split) <;> simp [k]

@[simp] theorem guardLimitOut_moves (k : Moves e s t) (g : Fin 6) : Moves e s (t.guardLimitOut g) := by
  unfold State.guardLimitOut
  (repeat' split) <;> simp [k]

/-! ### Directory -/

@[simp] theorem createConfirm_moves (k : Moves e s t) (h : Handle) (r : Record) : Moves e s (t.createConfirm h r) :=
  modifySlot_moves k h _ fun _ => ⟨rfl, rfl⟩

@[simp] theorem removeConfirm_moves (k : Moves e s t) (h : Handle) : Moves e s (t.removeConfirm h) :=
  modifySlot_moves k h _ fun _ => ⟨rfl, rfl⟩

@[simp] theorem reactWithheld_moves (k : Moves e s t) (h : Handle) (old new : Record) (was : Bool) :
    Moves e s (t.reactWithheld h old new was) := by
  unfold State.reactWithheld
  dsimp only
  (repeat' split) <;> simp [k]

/-- New contents of a live record, not RETIRED, with what follows them. -/
theorem commit_moves (k : Moves e s t) {h : Handle} {old : Record} (hl : t.live h = some old) (new : Record)
    (hr : (new.state == RecState.retired) = false) : Moves e s (t.commit h old new) := by
  have c := setRecord_moves k hl new hr
  unfold State.commit
  refine reactWithheld_moves ?_ ..
  have j : Moves e s (if old.state = new.state ∧ old.fault = new.fault then t.setRecord h new
      else (t.setRecord h new).join h) := ite_moves c (join_moves c h)
  exact ite_moves (createConfirm_moves j h new) (ite_moves (removeConfirm_moves j h) j)

/-- A claim of R75 leaves a record out of RETIRED. -/
def keepsStanding (f : Record → Option Record) : Prop :=
  ∀ r r', (r.state == RecState.retired) = false → f r = some r' → (r'.state == RecState.retired) = false

theorem claim_moves (k : Moves e s t) (h : Handle) (gen : Byte) (f : Record → Option Record) (hf : keepsStanding f) :
    Moves e s (t.claim h gen f) := by
  unfold State.claim
  split
  · next r hl =>
      split
      · next r' hr => exact commit_moves k (livePair_live hl) r' (hf r r' (live_not_retired (livePair_live hl)) hr)
      · exact k
  · exact k

theorem beginProof_keeps : keepsStanding Record.beginProof := by
  intro r r' _ q
  unfold Record.beginProof at q
  split at q
  · cases q; rfl
  · cases q

theorem returnToList_keeps : keepsStanding Record.returnToList := by
  intro r r' _ q
  unfold Record.returnToList at q
  split at q
  · cases q; rfl
  · cases q

theorem soundState_not_retired (r : Record) : (r.soundState == RecState.retired) = false := by
  unfold Record.soundState
  split <;> rfl

theorem proofPassed_keeps : keepsStanding Record.proofPassed := by
  intro r r' _ q
  unfold Record.proofPassed at q
  split at q
  · cases q; exact soundState_not_retired _
  · cases q

theorem proofFailed_keeps (f : RecFault) : keepsStanding (Record.proofFailed f) := by
  intro r r' _ q
  unfold Record.proofFailed at q
  split at q
  · cases q; rfl
  · cases q

theorem putBack_keeps : keepsStanding Record.putBack := by
  intro r r' _ q
  unfold Record.putBack at q
  split at q
  · cases q; rfl
  · cases q

theorem catalogueRead_keeps : keepsStanding Record.catalogueRead := by
  intro r r' _ q
  unfold Record.catalogueRead at q
  split at q
  · cases q; exact soundState_not_retired _
  · cases q

theorem takeFault_keeps (f : RecFault) : keepsStanding (Record.takeFault f) := by
  intro r r' hr q
  unfold Record.takeFault at q
  split at q <;> cases q <;> first
    | rfl
    | exact hr

theorem mismatchMark_keeps : keepsStanding Record.mismatchMark := by
  intro r r' hr q
  unfold Record.mismatchMark at q
  split at q <;> cases q <;> exact hr

theorem healthy_keeps : keepsStanding Record.healthy := by
  intro r r' hr q
  unfold Record.healthy at q
  split at q <;> cases q <;> first
    | exact hr
    | exact soundState_not_retired _

theorem makeStale_keeps : keepsStanding Record.makeStale := by
  intro r r' hr q
  unfold Record.makeStale at q
  split at q <;> cases q <;> rfl

theorem returnFromStale_keeps : keepsStanding Record.returnFromStale := by
  intro r r' hr q
  unfold Record.returnFromStale at q
  split at q
  · next b _ _ => cases q; cases b <;> rfl
  · cases q

theorem confirmOutput_keeps (w : OutWord) : keepsStanding (Record.confirmOutput w) := by
  intro r r' hr q
  unfold Record.confirmOutput at q
  split at q
  · cases q; exact hr
  · cases q

@[simp] theorem placeRetireDrive_moves (k : Moves e s t) (h : Handle) : Moves e s (t.placeRetireDrive h) := by
  unfold State.placeRetireDrive
  split
  · next a i w _ =>
      have c := claimDrive_moves k
        { address := a, index := i, handle := h, gen := (t.slot h).gen, word := w, prior := none } false
      dsimp only
      split <;> first
        | exact k
        | exact modifySlot_moves c h _ fun _ => ⟨rfl, rfl⟩
        | exact modifySlot_moves k h _ fun _ => ⟨rfl, rfl⟩
  · exact k

@[simp] theorem placeRetireDrives_moves (k : Moves e s t) : Moves e s t.placeRetireDrives :=
  foldl_moves (fun _ h j => placeRetireDrive_moves j h) _ t k

@[simp] theorem dropRetireDrivesTo_moves (k : Moves e s t) (p : Addr → Bool) : Moves e s (t.dropRetireDrivesTo p) := by
  refine foldl_moves (fun u h j => ?_) _ t k
  (repeat' split) <;> first
    | exact j
    | exact modifySlot_moves j h _ fun _ => ⟨rfl, rfl⟩

@[simp] theorem dropSamplesTo_moves (k : Moves e s t) (p : Addr → Bool) : Moves e s (t.dropSamplesTo p) := by
  refine foldl_moves (fun u h j => ?_) _ t k
  (repeat' split) <;> first
    | exact j
    | exact modifySlot_moves j h _ fun _ => ⟨rfl, rfl⟩

@[simp] theorem dropUnplacedTo_moves (k : Moves e s t) (p : Addr → Bool) : Moves e s (t.dropUnplacedTo p) :=
  dropSamplesTo_moves (dropRetireDrivesTo_moves k p) p

@[simp] theorem endProofOf_moves (k : Moves e s t) (h : Handle) : Moves e s (t.endProofOf h) := by
  unfold State.endProofOf
  (repeat' split) <;> first
    | exact k
    | exact k.snoc (.prv _)

@[simp] theorem freeGuardOf_moves (k : Moves e s t) (r : Record) : Moves e s (t.freeGuardOf r) := by
  unfold State.freeGuardOf
  (repeat' split) <;> simp [k]

/-! ### Proving Unit -/

@[simp] theorem claimProof_moves (k : Moves e s t) (p : Proof) : Moves e s (t.claimProof p) := by
  unfold State.claimProof
  (repeat' split) <;> first
    | exact k
    | exact setProof_moves (claimRoutine_moves k _ rfl) _

@[simp] theorem provingOccasion_moves (k : Moves e s t) : Moves e s t.provingOccasion := by
  unfold State.provingOccasion
  (repeat' split) <;> simp [k]

@[simp] theorem returnProof_moves (k : Moves e s t) (p : Proof) (a b : Bool) : Moves e s (t.returnProof p a b) := by
  unfold State.returnProof
  exact setProof_moves (setProvingList_moves (claim_moves k _ _ _ returnToList_keeps) _) _

theorem closeProof_moves (k : Moves e s t) (p : Proof) (f : Record → Option Record) (hf : keepsStanding f) :
    Moves e s (t.closeProof p f) :=
  setProof_moves (claim_moves k _ _ _ hf) _

@[simp] theorem judgeProof_moves (k : Moves e s t) (p : Proof) (r : Record) (c : Nat) :
    Moves e s (t.judgeProof p r c) := by
  unfold State.judgeProof
  split
  · exact closeProof_moves k p _ (proofFailed_keeps _)
  · exact closeProof_moves k p _ proofPassed_keeps

@[simp] theorem missPhase_moves (k : Moves e s t) (p : Proof) : Moves e s (t.missPhase p) := by
  unfold State.missPhase
  split <;> simp [k]

@[simp] theorem steadyReply_moves (k : Moves e s t) (p : Proof) (r : Record) (x : SampleReply) :
    Moves e s (t.steadyReply p r x) := by
  unfold State.steadyReply
  (repeat' split) <;> first
    | exact closeProof_moves k p _ (proofFailed_keeps _)
    | simp [k]

@[simp] theorem proofOutcome_moves (k : Moves e s t) (o : ReqOutcome) : Moves e s (t.proofOutcome o) := by
  unfold State.proofOutcome
  (repeat' split) <;> first
    | exact closeProof_moves k _ _ (proofFailed_keeps _)
    | simp [k]

@[simp] theorem overtakePulse_moves (k : Moves e s t) (p : Proof) : Moves e s (t.overtakePulse p) :=
  returnProof_moves k ..

@[simp] theorem leaveSteady_moves (k : Moves e s t) (p : Proof) : Moves e s (t.leaveSteady p) := by
  unfold State.leaveSteady
  split <;> simp [k]

@[simp] theorem watchSteady_moves (k : Moves e s t) (p : Proof) (b : Bool) : Moves e s (t.watchSteady p b) := by
  unfold State.watchSteady
  (repeat' split) <;> simp [k]

@[simp] theorem proofSourceCheck_moves (k : Moves e s t) : Moves e s t.proofSourceCheck := by
  unfold State.proofSourceCheck
  (repeat' split) <;> simp [k]

@[simp] theorem proofTieChanged_moves (k : Moves e s t) (h : Handle) : Moves e s (t.proofTieChanged h) := by
  unfold State.proofTieChanged
  (repeat' split) <;> simp [k]

@[simp] theorem proofOnStart_moves (k : Moves e s t) (h : Handle) : Moves e s (t.proofOnStart h) := by
  unfold State.proofOnStart
  (repeat' split) <;> simp [k]

@[simp] theorem proofWaits_moves (k : Moves e s t) : Moves e s t.proofWaits := by
  unfold State.proofWaits
  (repeat' split) <;> simp [k]

@[simp] theorem beginProof_moves (k : Moves e s t) : Moves e s t.beginProof := by
  unfold State.beginProof
  split
  · split
    · split
      · have c : ∀ (l : List Handle) (p : Proof), Moves e s
            (((t.setProvingList l).setProof (some p)).claim p.handle p.gen Record.beginProof) := fun l p =>
          claim_moves (setProof_moves (setProvingList_moves k l) _) _ _ _ beginProof_keeps
        exact ite_moves (c _ _) (claimProof_moves (c _ _) _)
      · exact setProvingList_moves k _
    · exact k
  · exact k

end Sys2Proof.Machine
end

