-- ==== Sys2Proof/Laws/Clock.lean ====
section
/-! SUPPORT. When each timer event is due: what stands in the list that the passing of time puts in the queue. -/

namespace Sys2Proof.Machine

variable {s : State} {c : Instr} {e : Nat}

theorem mem_dueIf {n : Nat} {m : Option Nat} {a : Instr} : a ∈ dueIf n m c ↔ a = c ∧ ∃ e ≤ n, m = some e := by
  unfold dueIf
  cases m with
  | none => simp
  | some t => by_cases h : t ≤ n <;> simp [h]

theorem ends_iff {x : Countdown} : x.ends = some e ↔ x = .running e := by
  cases x <;> simp [Countdown.ends]

theorem frameEnds_iff : s.frameEnds = some e ↔ s.tdl.orphan = some e
    ∨ s.tdl.orphan = none ∧ ∃ f, s.tdl.inFlight = some f ∧ f.stage = .sending e := by
  unfold State.frameEnds
  cases s.tdl.orphan with
  | some x => simp
  | none =>
      cases s.tdl.inFlight with
      | none => simp
      | some f => cases h : f.stage <;> simp [h]

theorem windowEnds_iff : s.windowEnds = some e ↔ ∃ f a b, s.tdl.inFlight = some f ∧ f.stage = .window a b e := by
  unfold State.windowEnds
  cases s.tdl.inFlight with
  | none => simp
  | some f => cases h : f.stage <;> simp [h]

theorem gapDue_iff : s.gapDue = some e ↔ s.tdl.line = .busy ∧ s.tdl.orphan = none
    ∧ (∀ f, s.tdl.inFlight = some f → f.stage = .due) ∧ s.tdl.gapEnds = e := by
  unfold State.gapDue State.gapAwaited
  cases s.tdl.inFlight with
  | none => cases s.tdl.orphan <;> simp
  | some f => cases s.tdl.orphan <;> simp [and_assoc]

theorem silentAt_iff {p : Nat} : s.silentAt p = some e ↔ s.ntab.hold = false
    ∧ ∃ x b a, s.nodeAt p = some x ∧ x.heard = .counting b a ∧ a + (ms 1000 - b) = e := by
  have h : Config.silenceLimit = ms 1000 := rfl
  unfold State.silentAt
  cases s.nodeAt p with
  | none => simp
  | some x => cases s.ntab.hold <;> cases q : x.heard <;> simp [Stopwatch.reaches, h, q]

theorem stretchEnds_iff {x : TurnSide} : s.stretchEnds x = some e ↔ s.followMode x = true
    ∧ (s.source x.src).active = true ∧ ∃ r, (s.capture x).lastRise = some r ∧ r + ms 1500 = e := by
  have h : Config.stretchTime = ms 1500 := rfl
  unfold State.stretchEnds
  rw [h]
  cases s.followMode x <;> cases (s.source x.src).active <;> simp

theorem deadlinePasses_iff {h : Handle} : s.deadlinePasses h = true
    ↔ ∃ x, (s.slot h).confirm = some x ∧ x.deadline = .running s.now := by
  unfold State.deadlinePasses State.deadlineOf
  cases (s.slot h).confirm <;> simp [ends_iff]

theorem mem_dueAtReset : c ∈ s.dueAtReset ↔
    (c = .deviceReset ∧ s.hcp.inReset = false ∧ ∃ a, s.hcp.resetLow = some a ∧ a + ms 1 ≤ s.now)
    ∨ (c = .deviceResetEnd ∧ s.hcp.inReset = true ∧ s.hcp.resetLow = none ∧ s.hcp.vddLow = false
      ∧ s.hcp.resetEnds ≤ s.now) := by
  unfold State.dueAtReset
  have q : Config.resetTime = ms 1 := rfl
  cases s.hcp.resetLow <;> cases s.hcp.inReset <;> cases s.hcp.vddLow <;> simp [mem_dueIf, q]

theorem mem_dueOnLine : c ∈ s.dueOnLine ↔
    (c = .faultTimerExpiry ∧ ∃ e ≤ s.now, s.tdl.faultEnds = some e)
    ∨ (c = .yieldLimitExpiry ∧ ∃ e ≤ s.now, s.tdl.yieldEnds = some e)
    ∨ (c = .reclaimMarkEnd ∧ ∃ e ≤ s.now, s.tdl.reclaim = .mark e)
    ∨ (c = .reclaimTimeout ∧ ∃ m, s.tdl.reclaim = .watch m ∧ m + ms 20 ≤ s.now)
    ∨ (c = .frameEnd ∧ ∃ e ≤ s.now, s.frameEnds = some e)
    ∨ (c = .replyWindowEnd ∧ ∃ e ≤ s.now, s.windowEnds = some e)
    ∨ (c = .gapEnd ∧ ∃ e ≤ s.now, s.gapDue = some e) := by
  have q : Config.reclaimLimit = ms 20 := rfl
  unfold State.dueOnLine
  cases s.tdl.reclaim <;> simp [mem_dueIf, q]

end Sys2Proof.Machine
end

