-- ==== Sys2Proof/Laws/Settling.lean ====
section
/-! SUPPORT. Confirms, marks, matches and the walk's requests are chains of claim moves, and so is all that follows an
event's own effect, up to the arbiter's grant. -/

namespace Sys2Proof.Machine

variable {e : Reach} {w : Kind} {s t : State}

/-! ### Confirm Scheduler -/

@[simp] theorem setMark_moves (k : Moves e s t) (h : Handle) (m : SampleMark) : Moves e s (t.setMark h m) :=
  modifySlot_moves k h _ fun _ => ⟨rfl, rfl⟩

@[simp] theorem modifyConfirm_moves (k : Moves e s t) (h : Handle) (f : ConfirmEntry → ConfirmEntry) :
    Moves e s (t.modifyConfirm h f) :=
  modifySlot_moves k h _ fun _ => ⟨rfl, rfl⟩

@[simp] theorem setMismatch_moves (k : Moves e s t) (h : Handle) (b : Bool) : Moves e s (t.setMismatch h b) :=
  modifyConfirm_moves k h _

/-- The own count falls. -/
theorem setOwn_sub_moves (k : Moves e s t) (n : Nat) : Moves e s (t.setOwn (t.csch.own - n)) :=
  k.snoc (.own _ (by omega))

theorem claimRoutine_csch (t : State) (r : Request) : (t.claimRoutine r).1.csch = t.csch := by
  unfold State.claimRoutine
  (repeat' split) <;> rfl

/-- The claim of a Sample, made only while the own count is below its limit (R162). -/
theorem claimSampleTo_moves (k : Moves e s t) (h : Handle) (a : Addr) (i : FnIndex) (g : Byte)
    (room : t.csch.own < Config.ownLimit) : Moves e s (t.claimSampleTo h a i g).1 := by
  unfold State.claimSampleTo
  have c := claimRoutine_moves k (.sample .confirm a i h g) rfl
  have q := claimRoutine_csch t (.sample .confirm a i h g)
  dsimp only
  split
  · refine (setMark_moves c h _).snoc (.own _ ?_)
    have : ((t.claimRoutine (.sample .confirm a i h g)).1.setMark h .queued).csch =
        (t.claimRoutine (.sample .confirm a i h g)).1.csch := rfl
    rw [this, q]
    omega
  · exact setMark_moves k h _

theorem claimSample_moves (k : Moves e s t) (h : Handle) (room : t.csch.own < Config.ownLimit) :
    Moves e s (t.claimSample h).1 := by
  unfold State.claimSample
  (repeat' split) <;> first
    | exact claimSampleTo_moves k h _ _ _ room
    | exact k

theorem claimSampleAgain_moves (k : Moves e s t) (h : Handle) (room : t.csch.own < Config.ownLimit) :
    Moves e s (t.claimSampleAgain h).1 := by
  unfold State.claimSampleAgain
  split
  · exact claimSampleTo_moves k h _ _ _ room
  · exact k

@[simp] theorem passOne_moves {acc : State × Bool} (k : Moves e s acc.1) (h : Handle) :
    Moves e s (State.passOne acc h).1 := by
  unfold State.passOne
  split
  · dsimp only
    split
    · split
      · exact modifyConfirm_moves k h _
      · split
        · next room => exact claimSample_moves k h room
        · exact k
    · exact k
  · exact k

@[simp] theorem passUnplaced_moves {acc : State × Bool} (k : Moves e s acc.1) (h : Handle) :
    Moves e s (State.passUnplaced acc h).1 := by
  unfold State.passUnplaced
  split
  · next room =>
      simp only [Bool.and_eq_true, decide_eq_true_eq] at room
      exact claimSampleAgain_moves k h room.2
  · exact k

/-- A fold over a state and a flag. -/
theorem foldl_pair_moves {α : Type} {f : State × Bool → α → State × Bool}
    (hf : ∀ acc x, Moves e s acc.1 → Moves e s (f acc x).1) :
    ∀ (l : List α) (acc : State × Bool), Moves e s acc.1 → Moves e s (l.foldl f acc).1
  | [], _, h => h
  | x :: xs, acc, h => foldl_pair_moves hf xs (f acc x) (hf acc x h)

@[simp] theorem pass_moves (k : Moves e s t) : Moves e s t.pass := by
  unfold State.pass
  exact foldl_pair_moves (fun _ h j => passOne_moves j h) _ _
    (foldl_pair_moves (fun _ h j => passUnplaced_moves j h) _ _ k)

@[simp] theorem passIfDue_moves (k : Moves e s t) : Moves e s t.passIfDue := by
  unfold State.passIfDue
  exact ite_moves (pass_moves (agenda_moves k _)) k

@[simp] theorem phaseWaitCheck_moves (k : Moves e s t) : Moves e s t.phaseWaitCheck := by
  refine foldl_moves (fun u h j => ?_) _ t k
  split
  · exact ite_moves (callPass_moves (modifyConfirm_moves j h _)) j
  · exact j

@[simp] theorem confirmOnStart_moves (k : Moves e s t) (h : Handle) : Moves e s (t.confirmOnStart h) := by
  unfold State.confirmOnStart
  split
  · split
    · next room =>
        refine callPass_moves (claimSample_moves (modifyConfirm_moves k h _) h ?_)
        simp only [Bool.and_eq_true, decide_eq_true_eq] at room
        exact room.2
    · exact k
  · exact k

@[simp] theorem onStart_moves (k : Moves e s t) (h : Handle) : Moves e s (t.onStart h) :=
  confirmOnStart_moves (proofOnStart_moves k h) h

@[simp] theorem markOnStart_moves (k : Moves e s t) (m : BitVec 4) : Moves e s (t.markOnStart m) := by
  refine foldl_moves (fun u h j => ?_) _ t k
  (repeat' split) <;> simp [j]

@[simp] theorem resetDeadline_moves (k : Moves e s t) (h : Handle) : Moves e s (t.resetDeadline h) := by
  unfold State.resetDeadline
  split <;> simp [k]

@[simp] theorem mapConfirms_moves (k : Moves e s t) (f : Countdown → Countdown) : Moves e s (t.mapConfirms f) := by
  refine foldl_moves (fun u h j => ?_) _ t k
  split <;> simp [j]

@[simp] theorem storeReading_moves (k : Moves e s t) (h : Handle) (v : Half) : Moves e s (t.storeReading h v) := by
  unfold State.storeReading
  split
  · next r hl =>
      have c : ∀ x, Moves e s (t.setRecord h { r with reading := x }) := fun _ => setRecord_same k hl _ rfl
      exact ite_moves (join_moves (c _) h) (c _)
  · exact k

@[simp] theorem sampleContents_moves (k : Moves e s t) (h : Handle) (gen : Byte) (r : Record) (x : SampleReply) :
    Moves e s (t.sampleContents h gen r x) := by
  have c := claim_moves k h gen _ (confirmOutput_keeps x.word)
  unfold State.sampleContents
  refine ite_moves (ite_moves (storeReading_moves k h _) k) (ite_moves ?_ c)
  split <;> simp [c]

@[simp] theorem judgeReply_moves (k : Moves e s t) (h : Handle) (gen : Byte) (r : Record) (x : SampleReply) :
    Moves e s (t.judgeReply h gen r x) := by
  have m := fun b => setMismatch_moves k h b
  unfold State.judgeReply
  refine ite_moves (ite_moves (claim_moves k _ _ _ healthy_keeps) k) (ite_moves ?_ ?_)
  · split
    · exact claim_moves (m _) _ _ _ (takeFault_keeps _)
    · exact ite_moves (claim_moves (m _) _ _ _ healthy_keeps) (m _)
  · exact placeAgain_moves (ite_moves (m _) (ite_moves (claim_moves (m _) _ _ _ (takeFault_keeps _))
      (claim_moves (m _) _ _ _ mismatchMark_keeps))) h

@[simp] theorem sampleToGuard_moves (k : Moves e s t) (r : Record) (x : SampleReply) :
    Moves e s (t.sampleToGuard r x) := by
  unfold State.sampleToGuard
  (repeat' split) <;> simp [k]

@[simp] theorem clearMark_moves (k : Moves e s t) (h : Handle) : Moves e s (t.clearMark h) :=
  modifySlot_moves k h _ fun _ => ⟨rfl, rfl⟩

@[simp] theorem judgeSample_moves (k : Moves e s t) (h : Handle) (gen : Byte) (r : Record) (o : ReqOutcome) :
    Moves e s (t.judgeSample h gen r o) := by
  unfold State.judgeSample
  split
  · exact k
  · exact k
  · next st pl _ =>
      have d : Moves e s (if r.state == RecState.stale then t.claim h gen Record.returnFromStale else t) :=
        ite_moves (claim_moves k _ _ _ returnFromStale_keeps) k
      generalize (if r.state == RecState.stale then t.claim h gen Record.returnFromStale else t) = v at d
      split
      · refine ite_moves ?_ (sampleContents_moves d ..)
        split
        · exact judgeReply_moves (sampleToGuard_moves (sampleContents_moves d ..) ..) ..
        · exact sampleContents_moves d ..
      · exact claim_moves (setMismatch_moves d ..) _ _ _ (takeFault_keeps _)
      · exact claim_moves (setMismatch_moves d ..) _ _ _ (takeFault_keeps _)
      · exact claim_moves (setMismatch_moves d ..) _ _ _ (takeFault_keeps _)
  · exact claim_moves k _ _ _ makeStale_keeps
  · exact claim_moves k _ _ _ makeStale_keeps
  · exact claim_moves k _ _ _ makeStale_keeps

@[simp] theorem confirmOutcome_moves (k : Moves e s t) (h : Handle) (gen : Byte) (o : ReqOutcome) :
    Moves e s (t.confirmOutcome h gen o) := by
  have c : Moves e s (((t.clearMark h).setOwn (t.csch.own - 1)).callPass) :=
    callPass_moves (setOwn_sub_moves (clearMark_moves k h) 1)
  unfold State.confirmOutcome
  dsimp only
  split
  · exact ite_moves (ite_moves c (resetDeadline_moves c h))
      (judgeSample_moves (ite_moves c (resetDeadline_moves c h)) ..)
  · exact c

/-! ### Phase Marks -/

@[simp] theorem setOwed_moves (k : Moves e s t) (g : Generator) (o : Option OwedMark) : Moves e s (t.setOwed g o) :=
  k.snoc (.owed g o)

@[simp] theorem setFollowOwed_moves (k : Moves e s t) (x : TurnSide) (o : Option OwedMark) :
    Moves e s (t.setFollowOwed x o) :=
  k.snoc (.followOwed x o)

@[simp] theorem claimGenMark_moves (k : Moves e s t) (g : Generator) : Moves e s (t.claimGenMark g) := by
  unfold State.claimGenMark
  split
  · exact setOwed_moves (claimMark_moves k _ _) _ _
  · exact k

@[simp] theorem claimFollowMark_moves (k : Moves e s t) (x : TurnSide) : Moves e s (t.claimFollowMark x) := by
  unfold State.claimFollowMark
  split
  · exact setFollowOwed_moves (claimMark_moves k _ _) _ _
  · exact k

@[simp] theorem claimDueMarks_moves (k : Moves e s t) : Moves e s t.claimDueMarks := by
  unfold State.claimDueMarks
  exact foldl_moves (fun _ x j => claimFollowMark_moves j x) _ _
    (foldl_moves (fun _ x j => claimGenMark_moves j x) _ _ (agenda_moves k _))

@[simp] theorem claimOwedGen_moves (k : Moves e s t) (g : Generator) : Moves e s (t.claimOwedGen g) := by
  unfold State.claimOwedGen
  split
  · exact setOwed_moves (claimMark_moves k _ _) _ _
  · exact k

@[simp] theorem claimOwedFollow_moves (k : Moves e s t) (x : TurnSide) : Moves e s (t.claimOwedFollow x) := by
  unfold State.claimOwedFollow
  split
  · exact setFollowOwed_moves (claimMark_moves k _ _) _ _
  · exact k

@[simp] theorem claimOwed_moves (k : Moves e s t) : Moves e s t.claimOwed :=
  foldl_moves (fun _ x j => claimOwedFollow_moves j x) _ _ (foldl_moves (fun _ x j => claimOwedGen_moves j x) _ _ k)

@[simp] theorem resync_moves (k : Moves e s t) : Moves e s t.resync :=
  foldl_moves (fun _ x j => claimFollowMark_moves j x) _ _ (foldl_moves (fun _ x j => claimGenMark_moves j x) _ _ k)

/-! ### Setters of the walk -/

@[simp] theorem setBue_moves (k : Moves (.more w) s t) (b : Bue) : Moves (.more w) s (t.setBue b) := k.snoc (.bue b)

@[simp] theorem setRecat_moves (k : Moves (.more w) s t) (c : Option Recatalogue) : Moves (.more w) s (t.setRecat c) :=
  k.snoc (.recat c)

@[simp] theorem raise_moves (k : Moves (.more w) s t) (f : Flag) : Moves (.more w) s (t.raise f) := k.snoc (.flag f)

/-- A change of a node entry leaves the addresses as they are. -/
theorem addresses_modify (l : List NodeEntry) (n : Nat) (f : NodeEntry → NodeEntry)
    (hf : ∀ x, (f x).address = x.address) : (l.modify n f).map (·.address) = l.map (·.address) := by
  induction l generalizing n with
  | nil => simp
  | cons x xs ih =>
      cases n with
      | zero => simp [List.modify_zero_cons, hf]
      | succ n => simp [List.modify_succ_cons, ih]

theorem addresses_map (l : List NodeEntry) (f : NodeEntry → NodeEntry) (hf : ∀ x, (f x).address = x.address) :
    (l.map f).map (·.address) = l.map (·.address) := by
  rw [List.map_map]
  exact congrArg (fun g => l.map g) (funext hf)

@[simp] theorem modifyNode_moves (k : Moves (.more w) s t) (p : Nat) (f : NodeEntry → NodeEntry)
    (hf : ∀ x, (f x).address = x.address := by exact fun _ => rfl) : Moves (.more w) s (t.modifyNode p f) := by
  unfold State.modifyNode
  split
  · exact k
  · exact k.snoc (.nodes _ rfl (addresses_modify _ _ _ hf))

/-! ### Matches of the stored list -/

@[simp] theorem withdrawMatch_moves (k : Moves (.more w) s t) : Moves (.more w) s t.withdrawMatch :=
  k.snoc (.ktl _ rfl rfl rfl rfl rfl rfl id)

@[simp] theorem applyHint_moves (k : Moves e s t) (first unit : Nat) (x : Hint) :
    Moves e s (State.applyHint first unit t x) := by
  unfold State.applyHint
  dsimp only
  split
  · split
    · split
      · next c =>
          simp only [Bool.and_eq_true, State.listHasRoom, decide_eq_true_eq] at c
          refine join_moves (proofTieChanged_moves (changeTie_moves k _ _ ?_) _) _
          intro y hy
          cases hy
          exact c.2
      · exact k
    · exact k
  · exact k

/-- Entries that the list holds are distinct (R176). -/
theorem Ktl.kept.entries {x : Ktl} (k : x.kept) {i j : Fin 16} (h : i ≠ j) (hi : x.entries[i].state ≠ .empty)
    (hj : x.entries[j].state ≠ .empty) : x.entries[i].identity ≠ x.entries[j].identity := by
  obtain ⟨a, b, c, _⟩ := k
  cases q : x.scanning with
  | true => exact absurd ((c q).2 i) hi
  | false =>
      have e := b q
      rw [e] at hi hj ⊢
      simp only [Fin.getElem_fin, Vector.getElem_map] at hi hj ⊢
      exact a i j h hi hj

/-- A write of an entry of the list that keeps its identity, or of an EMPTY one, leaves identities distinct. -/
theorem Ktl.kept.write {x : Ktl} (k : x.kept) {w : KtlWrite} {n : Nat} (hs : x.scanning = false)
    (hw : w.content = KtlEntry.blank ∨ w.content.state ≠ .empty ∧ w.kind ≠ .eraseList
      ∧ ∀ j : Fin 16, j ≠ w.target → x.entries[j].state ≠ .empty → x.entries[j].identity ≠ w.content.identity) :
    ({ x with useCounter := n, write := some w } : Ktl).kept := by
  obtain ⟨a, b, c, _⟩ := k
  refine ⟨a, b, fun q => ?_, fun v hv => ?_⟩
  · rw [show x.scanning = true from q] at hs
    cases hs
  · cases hv
    exact hw

@[simp] theorem renewStamp_moves (k : Moves (.more w) s t) (i : Fin 16) (hi : (t.ktlEntry i).state ≠ .empty) :
    Moves (.more w) s (t.renewStamp i) := by
  unfold State.renewStamp
  refine ite_moves k (k.snoc (.ktl _ rfl rfl rfl rfl rfl rfl fun q => q.write ?_ (.inr ⟨hi, by simp, fun j hj he => ?_⟩)))
  · cases hs : t.ktl.scanning with
    | false => rfl
    | true => exact absurd ((q.2.2.1 hs).2 i) hi
  · exact q.entries hj he hi

@[simp] theorem answerMatch_moves (k : Moves (.more w) s t) (m : MatchReq) : Moves (.more w) s (t.answerMatch m).1 := by
  unfold State.answerMatch
  split
  · exact k
  · next i hi =>
      have hi : (t.ktlEntry i).state ≠ .empty := by
        have := List.find?_some hi
        simp only [KtlEntry.holds, Bool.and_eq_true, bne_iff_ne] at this
        exact this.1
      dsimp only
      split
      · have same : ((t.ktlEntry i).hints.foldl (State.applyHint m.first m.unit) t).ktl = t.ktl :=
          (Moves.claim (foldl_moves (fun _ x j => applyHint_moves j _ _ x) _ _ .nil)).2.2.1
        refine renewStamp_moves (foldl_moves (fun _ x j => applyHint_moves j _ _ x) _ _ k) _ ?_
        exact (congrArg (fun x : Ktl => x.entries[i].state) same).trans_ne hi
      · exact raise_moves k _

/-! ### Bring-Up Engine -/

theorem NodeEntry.describing_address (n : NodeEntry) : n.describing.address = n.address := by
  unfold NodeEntry.describing
  split <;> rfl

@[simp] theorem describePlaced_moves (k : Moves (.more w) s t) (r : WalkReq) : Moves (.more w) s (t.describePlaced r) := by
  unfold State.describePlaced
  (repeat' split) <;> first
    | exact k
    | exact modifyNode_moves k _ _ NodeEntry.describing_address

theorem WalkReq.request_isDrive (r : WalkReq) : r.request.isDrive = false := by cases r <;> rfl

@[simp] theorem placeBue_moves (k : Moves (.more w) s t) (r : WalkReq) : Moves (.more w) s (t.placeBue r) := by
  unfold State.placeBue
  dsimp only
  split
  · exact describePlaced_moves (setBue_moves (claimRoutine_moves k _ r.request_isDrive) _) r
  · exact setBue_moves k _
  · exact setBue_moves k _

@[simp] theorem bueOccasion_moves (k : Moves (.more w) s t) : Moves (.more w) s t.bueOccasion := by
  unfold State.bueOccasion
  split <;> simp [k]

@[simp] theorem modifyUnit_moves (k : Moves (.more w) s t) (n : Nat) (f : UnitRec → UnitRec) : Moves (.more w) s (t.modifyUnit n f) :=
  setBue_moves k _

@[simp] theorem settle_moves (k : Moves (.more w) s t) (x : ChainEnd) : Moves (.more w) s (t.settle x) :=
  raise_moves (setBue_moves k _) _

@[simp] theorem haltWith_moves (k : Moves (.more w) s t) (x : HaltCause) : Moves (.more w) s (t.haltWith x) :=
  raise_moves (setBue_moves k _) _

@[simp] theorem placeAssign_moves (k : Moves (.more w) s t) : Moves (.more w) s t.placeAssign := by
  unfold State.placeAssign
  split
  · exact placeBue_moves (setBue_moves k _) _
  · exact setBue_moves k _

@[simp] theorem enterAssign_moves (k : Moves (.more w) s t) : Moves (.more w) s t.enterAssign := placeAssign_moves (setBue_moves k _)

@[simp] theorem holdAddress_moves (k : Moves (.more w) s t) (a : Addr) : Moves (.more w) s (t.holdAddress a) := setBue_moves k _

@[simp] theorem matched_moves (k : Moves (.more w) s t) (n : Nat) (o : MatchOutcome) : Moves (.more w) s (t.matched n o) := by
  unfold State.matched
  dsimp only
  split
  · exact settle_moves (modifyUnit_moves k ..) _
  · exact enterAssign_moves (modifyUnit_moves k ..)

@[simp] theorem askMatch_moves (k : Moves (.more w) s t) (m : MatchReq) : Moves (.more w) s (t.askMatch m) := by
  unfold State.askMatch
  split
  · exact k.snoc (.ktl _ rfl rfl rfl rfl rfl rfl id)
  · exact matched_moves (answerMatch_moves k m) _ _

@[simp] theorem answerWaiting_moves (k : Moves (.more w) s t) : Moves (.more w) s t.answerWaiting := by
  unfold State.answerWaiting
  split
  · exact matched_moves (answerMatch_moves (withdrawMatch_moves k) _) _ _
  · exact k

@[simp] theorem goMatch_moves (k : Moves (.more w) s t) (x : Errand) : Moves (.more w) s (t.goMatch x) := by
  unfold State.goMatch
  split
  · exact askMatch_moves (setBue_moves k _) _
  · exact k

@[simp] theorem endChain_moves (k : Moves (.more w) s t) (x : ChainEnd) : Moves (.more w) s (t.endChain x) :=
  ite_moves (goMatch_moves k _) (settle_moves k _)

@[simp] theorem enterProbe_moves (k : Moves (.more w) s t) : Moves (.more w) s t.enterProbe :=
  ite_moves (endChain_moves (setBue_moves k _) _) (placeBue_moves (setBue_moves k _) _)

@[simp] theorem placeExtend_moves (k : Moves (.more w) s t) (b : Bool) : Moves (.more w) s (t.placeExtend b) := by
  unfold State.placeExtend
  split <;> simp [k]

@[simp] theorem enterExtend_moves (k : Moves (.more w) s t) : Moves (.more w) s t.enterExtend := placeExtend_moves (setBue_moves k _) _

@[simp] theorem catalogueDone_moves (k : Moves (.more w) s t) : Moves (.more w) s t.catalogueDone := by
  have c := fun p x (l : List Handle) =>
    foldl_moves (fun u (h : Handle) j => claim_moves j h (u.slot h).gen _ catalogueRead_keeps) l _
      (modifyNode_moves k p fun n => { n with endDigest := x, state := .live })
  unfold State.catalogueDone
  exact ite_moves (endChain_moves (ite_moves (raise_moves (c _ _ _) _) (c _ _ _)) _)
    (enterExtend_moves (ite_moves (raise_moves (c _ _ _) _) (c _ _ _)))

@[simp] theorem describeNext_moves (k : Moves (.more w) s t) : Moves (.more w) s t.describeNext := by
  unfold State.describeNext
  (repeat' split) <;> simp [k]

@[simp] theorem enterDescribe_moves (k : Moves (.more w) s t) : Moves (.more w) s t.enterDescribe := describeNext_moves (setBue_moves k _)

@[simp] theorem leaveIdle_moves (k : Moves (.more w) s t) : Moves (.more w) s t.leaveIdle :=
  ite_moves (enterProbe_moves k) (setBue_moves k _)

theorem dropDigests_moves (k : Moves (.more w) s t) : Moves (.more w) s t.dropDigests :=
  k.snoc (.nodes _ rfl (addresses_map _ _ fun _ => rfl))

@[simp] theorem engineIdle_moves (k : Moves (.more w) s t) : Moves (.more w) s t.engineIdle :=
  setRecat_moves (withdrawMatch_moves (dropDigests_moves (setBue_moves k _))) _

@[simp] theorem endRecat_moves (k : Moves (.more w) s t) : Moves (.more w) s t.endRecat := by
  unfold State.endRecat
  split
  · exact foldl_moves (fun _ x j => claim_moves j _ _ _ catalogueRead_keeps) _ _ (setRecat_moves k _)
  · exact k

@[simp] theorem recatNext_moves (k : Moves (.more w) s t) : Moves (.more w) s t.recatNext := by
  unfold State.recatNext
  (repeat' split) <;> simp [k]

@[simp] theorem recatDrop_moves (k : Moves (.more w) s t) (l : List (Handle × Byte)) : Moves (.more w) s (t.recatDrop l) := by
  unfold State.recatDrop
  split <;> simp [k]

@[simp] theorem depart_moves (k : Moves (.more w) s t) (d : Departure) : Moves (.more w) s (t.depart d) := by
  have c := setBue_moves (endRecat_moves k) { t.endRecat.bue with deferred := .none, request := .none }
  unfold State.depart
  dsimp only
  (repeat' split) <;> simp [c]

@[simp] theorem departOrDefer_moves (k : Moves (.more w) s t) (d : Departure) : Moves (.more w) s (t.departOrDefer d) :=
  ite_moves (setBue_moves k _) (depart_moves k d)

@[simp] theorem cutRecat_moves (k : Moves (.more w) s t) (p : Nat) : Moves (.more w) s (t.cutRecat p) := by
  unfold State.cutRecat
  split
  · exact ite_moves (endRecat_moves (setBue_moves k _)) k
  · exact k

@[simp] theorem cutResponse_moves (k : Moves (.more w) s t) (p : Nat) : Moves (.more w) s (t.cutResponse p) := by
  unfold State.cutResponse
  dsimp only
  generalize (⟨_, _, _, _, _, _, _, _, _, _, _, _, _, _, _, _, _⟩ : Bue) = b
  have c := setBue_moves k b
  generalize t.setBue b = u at c
  split
  · exact c
  · exact c
  · exact cutRecat_moves c p
  · exact ite_moves (setBue_moves (setBue_moves c _) _)
      (ite_moves (setBue_moves (endRecat_moves (setBue_moves c _)) _) (depart_moves (setBue_moves c _) _))
  · exact ite_moves (setBue_moves (withdrawMatch_moves (setBue_moves c _)) _)
      (enterProbe_moves (setBue_moves (withdrawMatch_moves (setBue_moves c _)) _))

@[simp] theorem bueCheck_moves (k : Moves (.more w) s t) : Moves (.more w) s t.bueCheck :=
  ite_moves (enterProbe_moves k) (ite_moves (depart_moves k _) k)

end Sys2Proof.Machine
end

