-- ==== Sys2Proof/Laws/Events.lean ====
section
/-! SUPPORT. What happens on the line, to a source, to a node or to a record is a chain of event moves. -/

namespace Sys2Proof.Machine

variable {ad : Bool} {w : Kind} {s t : State}

/-! ### The line -/

/-- A change of the line that leaves the sequence bits and LINE_PRESENT alone; the attempt and the queue are left alone
too, or the limits of the queue are kept. -/
theorem line_moves (k : Moves (.more (.event ad)) s t) (x : Tdl) (hb : x.nextBit = t.tdl.nextBit := by rfl)
    (hp : x.linePresent = t.tdl.linePresent := by rfl)
    (hq : t.tdl.queueKept → x.queueKept := by exact queueKept_same rfl rfl rfl) :
    Moves (.more (.event ad)) s { t with tdl := x } :=
  k.snoc (.line x hb hp hq)

/-- Requests leave the queue. -/
theorem sublist_moves (k : Moves (.more (.event ad)) s t) (x : Tdl) (hu : x.urgent.Sublist t.tdl.urgent)
    (hr : x.routine.Sublist t.tdl.routine) (hf : x.inFlight = t.tdl.inFlight ∨ x.inFlight = none)
    (hb : x.nextBit = t.tdl.nextBit := by rfl) (hp : x.linePresent = t.tdl.linePresent := by rfl) :
    Moves (.more (.event ad)) s { t with tdl := x } :=
  line_moves k x hb hp (queueKept_sublist hu hr hf)

theorem setUrgent_moves (k : Moves (.more (.event ad)) s t) {q : List Request} (h : q.Sublist t.tdl.urgent) :
    Moves (.more (.event ad)) s (t.setUrgent q) :=
  sublist_moves k _ h (.refl _) (.inl rfl)

theorem setRoutine_moves (k : Moves (.more (.event ad)) s t) {q : List Request} (h : q.Sublist t.tdl.routine) :
    Moves (.more (.event ad)) s (t.setRoutine q) :=
  sublist_moves k _ (.refl _) h (.inl rfl)

/-- The request in flight leaves its entry. -/
theorem endFlight_moves (k : Moves (.more (.event ad)) s t) : Moves (.more (.event ad)) s (t.setInFlight none) :=
  sublist_moves k _ (.refl _) (.refl _) (.inr rfl)

/-- The attempt in flight goes on with its request. -/
theorem setStage_moves (k : Moves (.more (.event ad)) s t) {f : InFlight} (hf : t.tdl.inFlight = some f) (g : InFlight)
    (hu : g.urgent = f.urgent := by rfl) (hr : g.req = f.req := by rfl) :
    Moves (.more (.event ad)) s (t.setInFlight (some g)) :=
  line_moves k _ rfl rfl (queueKept_stage hf hu (by rw [hr]) (fun _ => by rw [hr]) (by rw [hr]))

theorem setLine_moves (k : Moves (.more (.event ad)) s t) (l : LineState) : Moves (.more (.event ad)) s (t.setLine l) :=
  line_moves k _

theorem restartGap_moves (k : Moves (.more (.event ad)) s t) : Moves (.more (.event ad)) s t.restartGap := line_moves k _

theorem setStray_moves (k : Moves (.more (.event ad)) s t) (b : Bool) : Moves (.more (.event ad)) s (t.setStray b) :=
  line_moves k _

theorem secondWord_moves (k : Moves (.more (.event ad)) s t) (r : Request) : Moves (.more (.event ad)) s (t.secondWord r).1 := by
  unfold State.secondWord
  split
  · next d =>
      split
      · next p _ =>
          dsimp only
          have c : Moves (.more (.event ad)) s { t with drt := { t.drt with pend := t.drt.pend.filter fun q => !(q.handle == d.handle) } } :=
            setPend_moves k _ (pendKept_filter t _)
          split
          · next r hl => exact setRecord_same c hl _ rfl
          · exact c
      · exact k
  · exact k

/-- The second attempt's request is the first's, a Drive with another word at most. -/
theorem secondWord_request (t : State) (r : Request) : (t.secondWord r).1.tdl = t.tdl
    ∧ (t.secondWord r).2.isDrive = r.isDrive ∧ (∀ h, (t.secondWord r).2.isDriveFor h = r.isDriveFor h)
    ∧ (t.secondWord r).2.ordinary = r.ordinary := by
  unfold State.secondWord
  split
  · split
    · dsimp only
      split <;> exact ⟨rfl, rfl, fun _ => rfl, rfl⟩
    · exact ⟨rfl, rfl, fun _ => rfl, rfl⟩
  · exact ⟨rfl, rfl, fun _ => rfl, rfl⟩

theorem startAttempt_moves (k : Moves (.more (.event ad)) s t) {f : InFlight} (hf : t.tdl.inFlight = some f) :
    Moves (.more (.event ad)) s (t.startAttempt f) := by
  unfold State.startAttempt
  have c : ∃ u r, (if f.second = true then t.secondWord f.req else (t, f.req)) = (u, r)
      ∧ Moves (.more (.event ad)) s u ∧ u.tdl = t.tdl ∧ r.isDrive = f.req.isDrive
      ∧ (∀ h, r.isDriveFor h = f.req.isDriveFor h) ∧ r.ordinary = f.req.ordinary := by
    split
    · exact ⟨_, _, rfl, secondWord_moves k _, secondWord_request t _⟩
    · exact ⟨_, _, rfl, k, rfl, rfl, fun _ => rfl, rfl⟩
  obtain ⟨u, r, e, c, ht, h1, h2, h3⟩ := c
  rw [e]
  exact line_moves c _ rfl rfl (queueKept_stage (f := f) (by rw [ht]; exact hf) rfl h1 h2 h3)

theorem startIfIdle_moves (k : Moves (.more (.event ad)) s t) : Moves (.more (.event ad)) s t.startIfIdle := by
  unfold State.startIfIdle
  split
  · next hf => exact ite_moves (startAttempt_moves k hf) k
  · exact k

theorem arbitrate_moves (k : Moves (.more (.event ad)) s t) : Moves (.more (.event ad)) s t.arbitrate := by
  unfold State.arbitrate
  split
  · next c =>
      have hf : t.tdl.inFlight = none := by
        simp only [Bool.and_eq_true, Option.isNone_iff_eq_none] at c
        exact c.2
      split
      · exact k
      · next hu _ =>
          exact startIfIdle_moves (line_moves k _ rfl rfl fun q => (queueKept_grant hf q _ rfl).1 hu rfl)
      · next _ hr => exact startIfIdle_moves (line_moves k _ rfl rfl fun q => (queueKept_grant hf q _ rfl).2 hr rfl)
      · next hu hr =>
          exact ite_moves (startIfIdle_moves (line_moves k _ rfl rfl fun q => (queueKept_grant hf q _ rfl).2 hr rfl))
            (startIfIdle_moves (line_moves k _ rfl rfl fun q => (queueKept_grant hf q _ rfl).1 hu rfl))
  · exact k

theorem interrupt_moves (k : Moves (.more (.event ad)) s t) : Moves (.more (.event ad)) s t.interrupt := by
  unfold State.interrupt
  split
  · next hf =>
      split
      · next b => exact line_moves k _ rfl rfl fun q => (queueKept_interrupt hf q).1 b
      · next b => exact line_moves k _ rfl rfl fun q => (queueKept_interrupt hf q).2 (by simpa using b)
  · exact k

/-! ### The end of an event -/

theorem settleClaims_moves {v : Reach} (k : Moves v s t) : Moves v s t.settleClaims :=
  drainIfDue_moves (passIfDue_moves (phaseWaitCheck_moves (claimDueMarks_moves (drainIfDue_moves (beginProof_moves
    (proofWaits_moves (proofSourceCheck_moves k)))))))

/-- All that follows an event's own effect. -/
theorem settleEvent_moves (k : Moves (.more (.event ad)) s t) : Moves (.more (.event ad)) s t.settleEvent :=
  arbitrate_moves (settleClaims_moves (bueCheck_moves k))

/-- Handles leave the Attention Set. -/
theorem setAttention_moves (k : Moves (.more (.event ad)) s t) {l : List Handle} (h : l.Sublist t.fdir.attention) :
    Moves (.more (.event ad)) s (t.setAttention l) :=
  k.snoc (.attention l fun q => ⟨q.1.sublist h, fun x hx => q.2 x (h.subset hx)⟩)

/-- The handle of a record joins. -/
theorem joinNow_moves (k : Moves (.more (.event ad)) s t) {h : Handle} (hr : (t.record h).isSome = true) :
    Moves (.more (.event ad)) s (t.joinNow h) := by
  unfold State.joinNow
  split
  · exact k
  · next n =>
      refine k.snoc (.attention _ fun q => ⟨?_, fun x hx => ?_⟩)
      · show (t.fdir.attention ++ [h]).Nodup
        rw [List.nodup_append]
        refine ⟨q.1, by simp, fun a ha b hb e => ?_⟩
        rw [List.mem_singleton.mp hb] at e
        exact n (e ▸ ha)
      · have hx : x ∈ t.fdir.attention ++ [h] := hx
        rcases List.mem_append.mp hx with m | m
        · exact q.2 x m
        · rw [List.mem_singleton.mp m]; exact hr

theorem allHandles_nodup : allHandles.Nodup := List.nodup_finRange 96

theorem flushJoins_moves (k : Moves (.more (.event ad)) s t) : Moves (.more (.event ad)) s t.flushJoins := by
  refine k.snoc (.attention _ fun q => ⟨?_, fun x hx => ?_⟩)
  · show (t.fdir.attention ++ List.filter _ allHandles).Nodup
    rw [List.nodup_append]
    refine ⟨q.1, allHandles_nodup.filter _, fun a ha b hb e => ?_⟩
    have := (List.mem_filter.mp hb).2
    simp only [Bool.and_eq_true, Bool.not_eq_true', decide_eq_false_iff_not] at this
    exact this.1.2 (e ▸ ha)
  · have hx : x ∈ t.fdir.attention ++ List.filter _ allHandles := hx
    rcases List.mem_append.mp hx with m | m
    · exact q.2 x m
    · have := (List.mem_filter.mp m).2
      simp only [Bool.and_eq_true] at this
      exact this.2

/-- What the end of an event keeps. -/
theorem finish_moves (s : State) (host : Bool) : ∃ t, Moves (.more (.event false)) s t ∧ s.finish host = t.drivePins ∧
    t.agenda = Agenda.none := by
  cases host
  · refine ⟨{ s.settleEvent.flushJoins with agenda := Agenda.none },
      agenda_moves (flushJoins_moves (settleEvent_moves .nil)) _, ?_, by rfl⟩
    simp only [State.finish, Bool.false_eq_true, if_false]
  · refine ⟨{ s.settleEvent with agenda := Agenda.none }, agenda_moves (settleEvent_moves .nil) _, ?_, by rfl⟩
    simp only [State.finish, if_true]

@[simp] theorem finish_fixed (s : State) (host : Bool) : (s.finish host).fixed = s.fixed := by
  obtain ⟨t, m, q, _⟩ := finish_moves s host
  rw [q]
  exact m.fixed

theorem finish_flags (s : State) (host : Bool) : s.flagsKept (s.finish host) := by
  obtain ⟨t, m, q, _⟩ := finish_moves s host
  rw [q]
  exact m.flags

theorem drivePins_pinsFollow (s : State) : s.drivePins.pinsFollow = true := by
  have a : s.drivePins.attnWanted = s.attnWanted := rfl
  have b : s.drivePins.turnFailWanted = s.turnFailWanted := rfl
  have c : s.drivePins.hcp.inReset = s.hcp.inReset := rfl
  unfold State.pinsFollow
  rw [a, b, c]
  simp [State.drivePins]

/-- After every event the pins follow and nothing is left over. -/
theorem finish_wellKept (s : State) (host : Bool) : (s.finish host).wellKept = true := by
  obtain ⟨t, _, q, ha⟩ := finish_moves s host
  have : t.drivePins.agenda = t.agenda := rfl
  rw [q, State.wellKept, drivePins_pinsFollow, this, ha]
  rfl

theorem bueCheck_quiet {s : State} (h : s.engineQuiet) : s.bueCheck = s := by
  unfold State.bueCheck
  simp [h.1, h.2]

/-- The line and the attempt on it at the end of an event: only the arbiter's grant in READY changes them. -/
theorem arbitrate_other {s : State} (hl : s.tdl.line ≠ .ready) : s.arbitrate = s := by
  unfold State.arbitrate
  simp [hl]

/-- While the line is not READY the end of an event leaves the attempt on the line as it is. -/
theorem settleEvent_still (s : State) (hl : s.tdl.line ≠ .ready) : s.settleEvent.still = s.still := by
  have m : Moves (.more .walk) s s.bueCheck.settleClaims := settleClaims_moves (bueCheck_moves .nil)
  unfold State.settleEvent
  generalize s.bueCheck.settleClaims = u at m
  have q := m.still (.inr rfl)
  have ql : u.tdl.line = s.tdl.line := congrArg Still.line q
  rw [arbitrate_other (by rw [ql]; exact hl), q]

/-- A first attempt begins: its frame is sent with the address's next bit and the window in force. -/
theorem startAttempt_first (s : State) {f : InFlight} (h : f.second = false) : s.startAttempt f =
    { s with tdl := { s.tdl with
        inFlight := some { f with
          seq := s.seqOf f.req, window := s.windowOf f.req,
          stage := .sending (s.now + Config.charTime * (f.req.frame (s.seqOf f.req)).length) }
        frame := f.req.frame (s.seqOf f.req)
        stray := false } } := by
  unfold State.startAttempt
  simp only [h, Bool.false_eq_true, if_false]

/-- What the arbiter leaves alone. -/
structure Kept (s t : State) : Prop where
  bue : t.bue = s.bue
  ntab : t.ntab = s.ntab
  prv : t.prv = s.prv
  sources : t.drt.sources = s.drt.sources
  lists : t.drt.lists = s.drt.lists
  frt : t.frt = s.frt
  csch : t.csch = s.csch
  ktl : t.ktl = s.ktl
  hcp : t.hcp = s.hcp
  attention : t.fdir.attention = s.fdir.attention
  recat : t.fdir.recat = s.fdir.recat
  gap : t.tdl.gapEnds = s.tdl.gapEnds
  bits : t.tdl.nextBit = s.tdl.nextBit

theorem Kept.refl (s : State) : Kept s s := ⟨rfl, rfl, rfl, rfl, rfl, rfl, rfl, rfl, rfl, rfl, rfl, rfl, rfl⟩

theorem secondWord_kept (s : State) (r : Request) : Kept s (s.secondWord r).1 := by
  unfold State.secondWord
  split
  · split
    · dsimp only
      split <;> exact ⟨rfl, rfl, rfl, rfl, rfl, rfl, rfl, rfl, rfl, rfl, rfl, rfl, rfl⟩
    · exact .refl s
  · exact .refl s

theorem startAttempt_kept (s : State) (f : InFlight) : Kept s (s.startAttempt f) := by
  unfold State.startAttempt
  split
  next u r q =>
  have c : Kept s u := by
    have := congrArg Prod.fst q
    dsimp only at this
    rw [← this]
    split
    · exact secondWord_kept s _
    · exact .refl s
  exact ⟨c.bue, c.ntab, c.prv, c.sources, c.lists, c.frt, c.csch, c.ktl, c.hcp, c.attention, c.recat, c.gap, c.bits⟩

theorem startIfIdle_kept (s : State) : Kept s s.startIfIdle := by
  unfold State.startIfIdle
  split
  · split
    · exact startAttempt_kept s _
    · exact .refl s
  · exact .refl s

theorem grant_kept (s : State) (r : Request) (u : Bool) : Kept s (s.grant r u) := by
  have c := startIfIdle_kept { s with tdl := { s.tdl with
      line := .busy
      inFlight := some { req := r, urgent := u, second := false, seq := false, window := 0, stage := .due } } }
  exact ⟨c.bue, c.ntab, c.prv, c.sources, c.lists, c.frt, c.csch, c.ktl, c.hcp, c.attention, c.recat, c.gap, c.bits⟩

theorem arbitrate_kept (s : State) : Kept s s.arbitrate := by
  have g : ∀ (t : Tdl) (r : Request) (u : Bool), t.gapEnds = s.tdl.gapEnds → t.nextBit = s.tdl.nextBit →
      Kept s (State.grant { s with tdl := t } r u) := fun t r u h k => by
    have c := grant_kept { s with tdl := t } r u
    exact ⟨c.bue, c.ntab, c.prv, c.sources, c.lists, c.frt, c.csch, c.ktl, c.hcp, c.attention, c.recat,
      c.gap.trans h, c.bits.trans k⟩
  unfold State.arbitrate
  split
  · split
    · exact .refl s
    · exact g _ _ _ rfl rfl
    · exact g _ _ _ rfl rfl
    · split <;> exact g _ _ _ rfl rfl
  · exact .refl s

/-- The line after the arbiter is READY or BUSY where it was READY. -/
theorem arbitrate_line (s : State) (h : s.tdl.line = .ready) :
    s.arbitrate.tdl.line = .ready ∨ s.arbitrate.tdl.line = .busy := by
  have a : ∀ u : State, u.tdl.line = .busy → u.startIfIdle.tdl.line = .busy := by
    intro u hu
    have b : ∀ (v : State) (r : Request), (v.secondWord r).1.tdl.line = v.tdl.line := by
      intro v r
      unfold State.secondWord
      split
      · split
        · dsimp only
          split <;> rfl
        · rfl
      · rfl
    unfold State.startIfIdle State.startAttempt
    split
    · next f _ =>
        split
        · dsimp only
          split
          · rw [b]; exact hu
          · exact hu
        · exact hu
    · exact hu
  unfold State.arbitrate
  split
  · split
    · exact .inl h
    · exact .inr (a _ rfl)
    · exact .inr (a _ rfl)
    · split <;> exact .inr (a _ rfl)
  · exact .inl h

/-- What the end of an event leaves alone besides, where the engine is quiet: the engine, the nodes, the stored list's
part, the flags and the recatalogue. -/
theorem settleEvent_quiet (s : State) (h : s.engineQuiet) : s.settleEvent.bue = s.bue ∧ s.settleEvent.ntab = s.ntab
    ∧ s.settleEvent.ktl = s.ktl ∧ s.settleEvent.hcp = s.hcp ∧ s.settleEvent.fdir.recat = s.fdir.recat := by
  have m : Moves .claim s s.settleClaims := settleClaims_moves .nil
  unfold State.settleEvent
  rw [bueCheck_quiet h]
  generalize s.settleClaims = u at m
  obtain ⟨a, b, c, d, e, _⟩ := m.claim
  have k := arbitrate_kept u
  exact ⟨k.bue.trans a, k.ntab.trans b, k.ktl.trans c, k.hcp.trans d, k.recat.trans e⟩

theorem finish_quiet (s : State) (host : Bool) (h : s.engineQuiet) : (s.finish host).bue = s.bue
    ∧ (s.finish host).ntab = s.ntab ∧ (s.finish host).ktl = s.ktl ∧ (s.finish host).hcp.flags = s.hcp.flags
    ∧ (s.finish host).fdir.recat = s.fdir.recat := by
  obtain ⟨a, b, c, d, e⟩ := settleEvent_quiet s h
  unfold State.finish
  generalize s.settleEvent = u at a b c d e
  have f : u.hcp.flags = s.hcp.flags := by rw [d]
  cases host
  · exact ⟨a, b, c, f, e⟩
  · exact ⟨a, b, c, f, e⟩

/-- Sources, channels and captures come out of the end of an event as they were, and so does the end of the gap; the
Attention Set does after a host command. -/
theorem finish_sources (s : State) (host : Bool) : (s.finish host).drt.sources = s.drt.sources
    ∧ (s.finish host).frt.chans = s.frt.chans ∧ (s.finish host).frt.captures = s.frt.captures
    ∧ (s.finish host).tdl.gapEnds = s.tdl.gapEnds
    ∧ (host = true → (s.finish host).fdir.attention = s.fdir.attention) := by
  have m : Moves (.more .walk) s s.bueCheck.settleClaims := settleClaims_moves (bueCheck_moves .nil)
  unfold State.finish State.settleEvent
  generalize s.bueCheck.settleClaims = u at m
  have q := m.still (.inr rfl)
  have k := arbitrate_kept u
  generalize u.arbitrate = v at k
  have a : v.drt.sources = s.drt.sources := k.sources.trans (congrArg Still.sources q)
  have b : v.frt.chans = s.frt.chans := (congrArg Frt.chans k.frt).trans (congrArg Still.chans q)
  have c : v.frt.captures = s.frt.captures := (congrArg Frt.captures k.frt).trans (congrArg Still.captures q)
  have d : v.fdir.attention = s.fdir.attention := k.attention.trans (congrArg Still.attention q)
  have e : v.tdl.gapEnds = s.tdl.gapEnds := k.gap.trans (congrArg Still.gapEnds q)
  cases host
  · exact ⟨a, b, c, e, fun x => by cases x⟩
  · exact ⟨a, b, c, e, fun _ => d⟩

/-- While the line is not READY the end of an event leaves a stray reply as it is, and the gap. -/
theorem finish_stray (s : State) (host : Bool) (h : s.tdl.line ≠ .ready) : (s.finish host).tdl.stray = s.tdl.stray
    ∧ (s.finish host).tdl.gapEnds = s.tdl.gapEnds := by
  have q := settleEvent_still s h
  unfold State.finish
  generalize s.settleEvent = u at q
  cases host
  all_goals exact ⟨congrArg Still.stray q, congrArg Still.gapEnds q⟩

/-- While the line is not READY the end of an event leaves the attempt on the line as it is. -/
theorem finish_line (s : State) (host : Bool) (h : s.tdl.line ≠ .ready) : (s.finish host).tdl.line = s.tdl.line
    ∧ (s.finish host).tdl.inFlight = s.tdl.inFlight ∧ (s.finish host).tdl.orphan = s.tdl.orphan
    ∧ (s.finish host).tdl.frame = s.tdl.frame ∧ (s.finish host).tdl.yieldDue = s.tdl.yieldDue
    ∧ (s.finish host).tdl.yieldEnds = s.tdl.yieldEnds ∧ (s.finish host).tdl.reclaim = s.tdl.reclaim
    ∧ (s.finish host).tdl.faultEnds = s.tdl.faultEnds := by
  have q := settleEvent_still s h
  unfold State.finish
  generalize s.settleEvent = u at q
  cases host
  all_goals exact ⟨congrArg Still.line q, congrArg Still.inFlight q, congrArg Still.orphan q, congrArg Still.frame q,
    congrArg Still.yieldDue q, congrArg Still.yieldEnds q, congrArg Still.reclaim q, congrArg Still.faultEnds q⟩

/-- In DOWN the end of an event leaves the line and its queue as they are. -/
theorem finish_down (s : State) (host : Bool) (h : s.tdl.line = .down) : (s.finish host).tdl = s.tdl := by
  have m : Moves (.more .walk) s s.bueCheck.settleClaims := settleClaims_moves (bueCheck_moves .nil)
  unfold State.finish State.settleEvent
  generalize s.bueCheck.settleClaims = u at m
  have q := m.down (.inr rfl) h
  rw [arbitrate_other (by rw [q, h]; decide)]
  cases host <;> exact q

/-- In READY the end of an event leaves the line READY, or BUSY with a request granted. -/
theorem finish_ready (s : State) (host : Bool) (h : s.tdl.line = .ready) :
    (s.finish host).tdl.line = .ready ∨ (s.finish host).tdl.line = .busy := by
  have m : Moves (.more .walk) s s.bueCheck.settleClaims := settleClaims_moves (bueCheck_moves .nil)
  unfold State.finish State.settleEvent
  generalize s.bueCheck.settleClaims = u at m
  have q : u.tdl.line = .ready := (congrArg Still.line (m.still (.inr rfl))).trans h
  have c := arbitrate_line u q
  generalize u.arbitrate = v at c
  cases host <;> exact c

/-! ### Records -/

theorem clearRecord_moves {v : Reach} (k : Moves v s t) (h : Handle) (r : Record) : Moves v s (t.clearRecord h r) := by
  have c : Moves v s (match r.tie with
      | some y => t.leaveList y h
      | none => t) := by
    split
    · exact leaveList_moves k _ _
    · exact k
  exact freeGuardOf_moves (removeConfirm_moves (endProofOf_moves (setProvingList_moves (removePend_moves c h) _) h) h) r

theorem retireRecord_moves (k : Moves (.more (.event ad)) s t) (h : Handle) (x : RetireReason) :
    Moves (.more (.event ad)) s (t.retireRecord h x) := by
  unfold State.retireRecord
  split
  · next r hl =>
      have d : Moves .claim t (t.clearRecord h r) := clearRecord_moves .nil h r
      exact (k.trans d.lift).snoc
        (.retire h _ rfl ((d.standing (.inl rfl) h).trans (live_standing hl)) (by simp [Slot.standing, Record.retired]))
  · exact k

/-- A retirement leaves a record in the slot. -/
theorem retireRecord_record (x : RetireReason) {h : Handle} (hr : (t.record h).isSome = true) :
    ((t.retireRecord h x).record h).isSome = true :=
  (retireRecord_moves (ad := false) .nil h x).kept h hr

theorem retireAll_moves (k : Moves (.more (.event ad)) s t) (x : RetireReason) (c : Bool) :
    Moves (.more (.event ad)) s (t.retireAll x c) := by
  refine foldl_moves (fun u h j => ?_) _ t k
  split
  · next hl =>
      exact ite_moves (joinNow_moves (retireRecord_moves j h x) (retireRecord_record x (by rw [live_record hl]; rfl)))
        (retireRecord_moves j h x)
  · exact j

theorem emptyBlocks_moves {v : Reach} (k : Moves v s t) : Moves v s t.emptyBlocks := by
  have c := foldl_moves (fun _ h j => removeConfirm_moves j h) allHandles t k
  have g := foldl_moves (fun _ g j => setGuard_moves j g Guard.reset) (List.finRange 6) _ c
  have l := foldl_moves (fun _ x j => emptyList_moves j x) (List.finRange 18) _ g
  exact setPend_moves (l.snoc (.prv _)) _ fun _ => List.nodup_nil

theorem retireRecord_live (t : State) (h : Handle) (x : RetireReason) : (t.retireRecord h x).live h = none := by
  unfold State.retireRecord
  split
  · unfold State.live
    rw [setRecord_record]
    rfl
  · next q => exact q

theorem joinNow_live (t : State) (h k : Handle) : (t.joinNow h).live k = t.live k := by
  unfold State.joinNow
  split <;> rfl

/-- No record is left live. -/
theorem retireAll_live (t : State) (x : RetireReason) (c : Bool) (k : Handle) : (t.retireAll x c).live k = none := by
  have step : ∀ (u : State) (h : Handle), Moves (.more (.event false)) u (match u.live h with
      | some _ => if c then (u.retireRecord h x).joinNow h else u.retireRecord h x
      | none => u) := by
    intro u h
    split
    · next hl =>
        exact ite_moves (joinNow_moves (retireRecord_moves .nil h x) (retireRecord_record x (by rw [live_record hl]; rfl)))
          (retireRecord_moves .nil h x)
    · exact .nil
  have done : ∀ (l : List Handle) (u : State), (k ∈ l ∨ u.live k = none) →
      (l.foldl (fun u h => match u.live h with
        | some _ => if c then (u.retireRecord h x).joinNow h else u.retireRecord h x
        | none => u) u).live k = none := by
    intro l
    induction l with
    | nil => intro u h; simpa using h
    | cons h hs ih =>
        intro u hu
        rw [List.foldl_cons]
        refine ih _ ?_
        by_cases q : u.live k = none
        · exact .inr ((step u h).notLive (by simp) k q)
        · rcases hu with hu | hu
          · rcases List.mem_cons.mp hu with e | e
            · right
              subst e
              split
              · split
                · rw [joinNow_live, retireRecord_live]
                · exact retireRecord_live u k x
              · next n => exact n
            · exact .inl e
          · exact absurd hu q
  unfold State.retireAll
  exact done allHandles t (.inl (by simp [allHandles]))

/-- A generation given at admission is never 0 (R68). -/
theorem nextGen_ne (g : Byte) : nextGen g ≠ 0 := by
  unfold nextGen
  split
  · decide
  · next h => bv_omega

theorem admitEntry_moves (k : Moves (.more (.event true)) s t) (p : Nat) (i : FnIndex) (e : CatEntry) :
    Moves (.more (.event true)) s (t.admitEntry p i e).1 := by
  unfold State.admitEntry
  split
  · next h n hfree _ =>
      have hf : t.record h = none := by
        have := List.find?_some hfree
        simpa using this
      have room : ∀ y, t.admissionSource e = some y → (t.list y).length < Config.listSize := by
        intro y hy
        unfold State.admissionSource at hy
        split at hy
        · split at hy
          · split at hy
            · split at hy
              · next c => cases hy; simpa [State.listHasRoom] using c
              · cases hy
            · cases hy
          · cases hy
        · cases hy
      have a : Moves (.more (.event true)) s ((t.modifySlot h fun x =>
          { x with gen := nextGen (t.slot h).gen, record := some (t.newRecord n p i e) }).join h) :=
        join_moves (k.snoc (.enrol h _ hf rfl (nextGen_ne _))) h
      have b : Moves (.more (.event true)) s (match (t.newRecord n p i e).intended with
          | some y => ((t.modifySlot h fun x =>
              { x with gen := nextGen (t.slot h).gen, record := some (t.newRecord n p i e) }).join h).joinList y h
          | none => (t.modifySlot h fun x =>
              { x with gen := nextGen (t.slot h).gen, record := some (t.newRecord n p i e) }).join h) := by
        split
        · next y hy => exact joinList_moves a y h (room y hy)
        · exact a
      dsimp only
      refine rewant_moves (modifyNode_moves ?_ _ _) h
      split
      · refine setGuard_moves ?_ _ _
        exact ite_moves (b.snoc (.prv _)) b
      · exact ite_moves (b.snoc (.prv _)) b
  · exact k

/-! ### Sources and channels -/

theorem setSourceEntry_moves (k : Moves (.more (.event ad)) s t) (x : Src) (v : Source) : Moves (.more (.event ad)) s (t.setSourceEntry x v) :=
  k.snoc (.source x v)

theorem putSource_moves (k : Moves (.more (.event ad)) s t) (x : Src) (v : Source) : Moves (.more (.event ad)) s (t.putSource x v) :=
  ite_moves k (route_moves (setSourceEntry_moves k x v) x)

theorem setChan_moves (k : Moves (.more (.event ad)) s t) (c : Chan) (x : ChanState) : Moves (.more (.event ad)) s (t.setChan c x) :=
  k.snoc (.flash _ rfl)

theorem setCapture_moves (k : Moves (.more (.event ad)) s t) (x : TurnSide) (c : Capture) : Moves (.more (.event ad)) s (t.setCapture x c) :=
  k.snoc (.flash _ rfl)

theorem setGen_moves (k : Moves (.more (.event ad)) s t) (g : Generator) (x : Gen) :
    Moves (.more (.event ad)) s (t.setGen g x) :=
  k.snoc (.flash _ rfl)

theorem onPhase_moves (k : Moves (.more (.event ad)) s t) (g : Generator) (n : Nat) :
    Moves (.more (.event ad)) s (t.onPhase g n) := setGen_moves k g _

theorem startGen_moves (k : Moves (.more (.event ad)) s t) (g : Generator) : Moves (.more (.event ad)) s (t.startGen g) :=
  agenda_moves (onPhase_moves k g _) _

theorem stopGen_moves (k : Moves (.more (.event ad)) s t) (g : Generator) : Moves (.more (.event ad)) s (t.stopGen g) :=
  setGen_moves k g _

theorem startChan_moves (k : Moves (.more (.event ad)) s t) (c : Chan) : Moves (.more (.event ad)) s (t.startChan c) := by
  unfold State.startChan
  split
  · exact ite_moves (setChan_moves k c _) (startGen_moves (setChan_moves k c _) _)
  · exact startGen_moves (setChan_moves k c _) _

theorem leaveChan_moves (k : Moves (.more (.event ad)) s t) (c : Chan) (x : ChanState) : Moves (.more (.event ad)) s (t.leaveChan c x) := by
  have d := setChan_moves k c x
  unfold State.leaveChan
  refine ite_moves ?_ d
  split
  · split
    · exact startGen_moves (setChan_moves d _ _) _
    · exact d
    · exact stopGen_moves d _
  · exact stopGen_moves d _

theorem updateChan_moves (k : Moves (.more (.event ad)) s t) (x : Src) : Moves (.more (.event ad)) s (t.updateChan x) := by
  unfold State.updateChan
  split
  · exact k
  · next c _ =>
      refine ite_moves ?_ ?_
      · have d : Moves (.more (.event ad)) s (if t.chan c == ChanState.stopped then t else t.leaveChan c .stopped) :=
          ite_moves k (leaveChan_moves k c _)
        cases turnSideOf x with
        | none => exact d
        | some side => exact setFollowOwed_moves d _ _
      · split
        · exact ite_moves k (dueFollow_moves (leaveChan_moves k c _) _)
        · refine ite_moves (startChan_moves ?_ c) k
          split
          · exact setFollowOwed_moves k _ _
          · exact k
        · exact k

theorem changeSource_moves (k : Moves (.more (.event ad)) s t) (x : Src) (v : Source) : Moves (.more (.event ad)) s (t.changeSource x v) :=
  updateChan_moves (putSource_moves k x v) x

theorem recombine_moves (k : Moves (.more (.event ad)) s t) : Moves (.more (.event ad)) s t.recombine :=
  putSource_moves (putSource_moves k _ _) _ _

theorem followedEdge_moves (k : Moves (.more w) s t) (x : TurnSide) : Moves (.more w) s (t.followedEdge x) :=
  dueFollow_moves (route_moves k _) x

theorem followEdge_moves (k : Moves (.more (.event ad)) s t) (x : TurnSide) (b : Bool) : Moves (.more (.event ad)) s (t.followEdge x b) := by
  have c := fun v => setCapture_moves k x v
  unfold State.followEdge
  refine ite_moves (ite_moves (followedEdge_moves (c _) x) (c _)) (ite_moves (changeSource_moves (c _) _ _) ?_)
  refine ite_moves (ite_moves (c _) (ite_moves (changeSource_moves (c _) _ _) (followedEdge_moves (c _) x))) ?_
  exact ite_moves (ite_moves (changeSource_moves (c _) _ _) (followedEdge_moves (c _) x))
    (ite_moves (c _) (followedEdge_moves (c _) x))

/-- A change of mode taken at an edge: the mode alone, then event moves. -/
theorem switchMode_moves (t : State) (x : TurnSide) (c : Bool) :
    Moves (.more (.event ad)) (t.setFollowMode x (t.hcp.cfg.follow x)) (t.switchMode x c) := by
  unfold State.switchMode
  refine ite_moves ?_ ?_ <;> exact changeSource_moves (setCapture_moves .nil x _) _ _

theorem endStretch_moves (k : Moves (.more (.event ad)) s t) (x : TurnSide) : Moves (.more (.event ad)) s (t.endStretch x) :=
  recombine_moves (changeSource_moves (setCapture_moves k x _) _ _)

theorem endPhase_moves (k : Moves (.more (.event ad)) s t) (g : Generator) : Moves (.more (.event ad)) s (t.endPhase g) := by
  unfold State.endPhase
  split
  · exact k
  · refine recombine_moves (claimGenMark_moves (ite_moves (setGen_moves k g _) (onPhase_moves ?_ g _)) g)
    exact foldl_moves (fun _ c j => ite_moves (setChan_moves j c _) j) _ _ k

theorem changeFlv_moves (k : Moves (.more (.event ad)) s t) (a b : Nat) : Moves (.more (.event ad)) s (t.changeFlv a b) := by
  unfold State.changeFlv
  split
  · refine ite_moves k ?_
    have c : ∀ x v y w, Moves (.more (.event ad)) s ((t.putSource x v).putSource y w) := fun _ _ _ _ =>
      putSource_moves (putSource_moves k _ _) _ _
    have d : ∀ x v y w, Moves (.more (.event ad)) s (if ((t.putSource x v).putSource y w).chan .flV == ChanState.running then
        ((t.putSource x v).putSource y w).leaveChan .flV .stopped else (t.putSource x v).putSource y w) :=
      fun _ _ _ _ => ite_moves (leaveChan_moves (c _ _ _ _) _ _) (c _ _ _ _)
    exact ite_moves (startChan_moves (d _ _ _ _) _) (d _ _ _ _)
  · exact k

/-! ### Nodes -/

theorem setNtab_moves (k : Moves (.more (.event ad)) s t) {n : Ntab} (hn : t.ntab.nodesKept → n.nodesKept) :
    Moves (.more (.event ad)) s (t.setNtab n) := k.snoc (.hold n hn)

/-- Entries are freed. -/
theorem nodesKept_sublist {m n : Ntab} (h : n.nodes.Sublist m.nodes) (k : m.nodesKept) : n.nodesKept :=
  ⟨k.1.sublist (h.map _), Nat.le_trans h.length_le k.2⟩

/-- An entry is made at an address that is open. -/
theorem nodesKept_append {n : NodeEntry} (h : t.addressOpen n.address = true) (k : t.ntab.nodesKept) :
    ({ t.ntab with nodes := t.ntab.nodes ++ [n] } : Ntab).nodesKept := by
  unfold State.addressOpen at h
  simp only [Bool.and_eq_true, Bool.not_eq_true', decide_eq_true_eq] at h
  refine ⟨?_, ?_⟩
  · show ((t.ntab.nodes ++ [n]).map (·.address)).Nodup
    rw [List.map_append, List.nodup_append]
    refine ⟨k.1, by simp, fun a ha b hb e => ?_⟩
    simp only [List.map_cons, List.map_nil, List.mem_singleton] at hb
    obtain ⟨y, hy, rfl⟩ := List.mem_map.mp ha
    have := List.any_eq_false.mp h.1 y hy
    simp [e, hb] at this
  · show (t.ntab.nodes ++ [n]).length ≤ _
    simp only [List.length_append, List.length_singleton]
    omega

theorem clearRetireMark_moves (k : Moves (.more w) s t) (h : Handle) :
    Moves (.more w) s (t.clearRetireMark h) :=
  modifySlot_moves k h _ fun _ => ⟨rfl, rfl⟩

theorem bueRequestGone_moves (k : Moves (.more w) s t) : Moves (.more w) s t.bueRequestGone := setBue_moves k _

/-- A Drive abandoned outside its attempt's end has the outcome that it has at that end (R20, R127, R130). -/
theorem abandoned_drive (s : State) (d : DriveReq) : s.abandoned (.drive d) = s.driveOutcome d .abandoned := rfl

theorem abandoned_moves (k : Moves (.more w) s t) (r : Request) : Moves (.more w) s (t.abandoned r) := by
  unfold State.abandoned
  split <;> first
    | exact k
    | exact endRecat_moves (bueRequestGone_moves k)
    | exact bueRequestGone_moves k
    | exact callDrain_moves (clearRetireMark_moves k _)
    | exact proofOutcome_moves k _
    | exact confirmOutcome_moves k _ _ _

theorem dropInFlight_moves (k : Moves (.more (.event ad)) s t) (f : InFlight) : Moves (.more (.event ad)) s (t.dropInFlight f) := by
  have c := endFlight_moves k
  unfold State.dropInFlight
  dsimp only
  split
  · exact line_moves c _
  · exact c
  · exact restartGap_moves c
  · exact restartGap_moves c

theorem abandonWhere_moves (k : Moves (.more (.event ad)) s t) (p : Request → Bool) : Moves (.more (.event ad)) s (t.abandonWhere p) := by
  unfold State.abandonWhere
  dsimp only
  refine foldl_moves (fun _ r j => abandoned_moves j r) _ _ ?_
  have c := setRoutine_moves (setUrgent_moves k (t.tdl.urgent.filter_sublist (p := fun r => !p r)))
    (t.tdl.routine.filter_sublist (p := fun r => !p r))
  split
  · split
    · exact dropInFlight_moves c _
    · exact c
  · exact c

theorem refuseDrive_moves (k : Moves (.more w) s t) (d : DriveReq) : Moves (.more w) s (t.refuseDrive d) := by
  unfold State.refuseDrive
  split
  · dsimp only
    split
    · exact callDrain_moves (setDrive_moves k _ _)
    · next q => exact setPend_moves (callDrain_moves (setDrive_moves k _ _)) _ (pendKept_append (by simpa using q))
  · exact ite_moves (modifySlot_moves k _ _ fun _ => ⟨rfl, rfl⟩) k

theorem refuseSample_moves (k : Moves (.more w) s t) (h : Handle) (a : Addr) (i : FnIndex) (g : Byte) :
    Moves (.more w) s (t.refuseSample h a i g) :=
  setOwn_sub_moves (setMark_moves k h (.unplaced a i g)) 1

theorem refuseBack_moves (k : Moves (.more w) s t) (r : Request) : Moves (.more w) s (t.refuseBack r) := by
  unfold State.refuseBack
  split <;> first
    | exact k
    | exact refuseDrive_moves k _
    | exact refuseSample_moves k _ _ _ _
    | exact setBue_moves k _
    | (unfold State.refuseProof; split <;> simp [k])

theorem makeRoom_moves (k : Moves (.more (.event ad)) s t) (p : Request → Bool) (n : Nat) :
    Moves (.more (.event ad)) s (t.makeRoom p n).1 :=
  foldl_moves (fun _ r j => refuseBack_moves j r) _ _ (setRoutine_moves k (takeOutNewest_spec ..).1)

/-- Refusing a request back leaves the line and its queue alone. -/
theorem refuseBack_tdl (t : State) (r : Request) : (t.refuseBack r).tdl = t.tdl := by
  have d : ∀ x, (t.refuseDrive x).tdl = t.tdl := by
    intro x
    have e : ∀ h f, (t.setDrive h f).tdl = t.tdl := fun h f => by unfold State.setDrive; split <;> rfl
    unfold State.refuseDrive
    split
    · dsimp only
      split <;> exact e _ _
    · split <;> rfl
  unfold State.refuseBack State.refuseSample State.refuseProof
  (repeat' split) <;> first
    | rfl
    | exact d _

/-- The queue once room has been made. -/
theorem makeRoom_tdl (t : State) (p : Request → Bool) (n : Nat) : (t.makeRoom p n).1.tdl =
    { t.tdl with routine := (takeOutNewest p (t.routineEntries + n - Config.routineSize) t.tdl.routine).1 } := by
  have fold : ∀ (l : List Request) (u : State), (l.foldl State.refuseBack u).tdl = u.tdl := by
    intro l
    induction l with
    | nil => exact fun _ => rfl
    | cons r l ih => exact fun u => (ih _).trans (refuseBack_tdl u r)
  exact fold _ _

/-- Requests are placed at the head of the routine class, once room has been made for them. -/
theorem placeHead_moves (k : Moves (.more (.event ad)) s t) {p : Request → Bool}
    (hp : ∀ r, r.ordinary = true → p r = false) {new q : List Request}
    (hq : ∀ f, q.countP f = new.countP f + (t.makeRoom p new.length).1.tdl.routine.countP f)
    (hn : ∀ r ∈ new, r.isDrive = false ∧ r.ordinary = false) :
    Moves (.more (.event ad)) s ((t.makeRoom p new.length).1.setRoutine q) := by
  refine line_moves (makeRoom_moves k p new.length) _ rfl rfl (queueKept_head hq hn ?_)
  have := queueKept_room (t := t.tdl) hp new.length
  rw [makeRoom_tdl]
  exact this

theorem countP_placeBehind (new q : List Request) (f : Request → Bool) :
    (placeBehind new q).countP f = new.countP f + q.countP f := by
  unfold placeBehind
  dsimp only
  generalize hx : (q.reverse.takeWhile fun r => !r.aheadOfCut).reverse = x
  have e : q = q.take (q.length - x.length) ++ x := by
    have p : x <:+ q := by
      rw [← hx, ← List.reverse_prefix, List.reverse_reverse]
      exact List.takeWhile_prefix _
    obtain ⟨y, rfl⟩ := p
    simp
  have : q.countP f = (q.take (q.length - x.length)).countP f + x.countP f := by
    conv_lhs => rw [e]
    rw [List.countP_append]
  rw [List.countP_append, List.countP_append, this]
  omega

theorem ordinary_ahead {r : Request} (h : r.ordinary = true) : (r.aheadOfCut || r.isRestartRelease) = false := by
  simpa [Request.ordinary, Request.aheadOfCut] using h

theorem ordinary_restart {r : Request} (h : r.ordinary = true) : r.isRestartRelease = false := by
  simp only [Request.ordinary, Bool.not_eq_true', Bool.or_eq_false_iff] at h
  exact h.2

theorem cutRelease_head {r : Request} (h : r.isCutRelease = true) : r.isDrive = false ∧ r.ordinary = false := by
  refine ⟨?_, by simp [Request.ordinary, h]⟩
  cases r <;> first
    | rfl
    | cases h

theorem placeReleases_moves (k : Moves (.more (.event ad)) s t) {rs : List Request}
    (h : ∀ r ∈ rs, r.isCutRelease = true) : Moves (.more (.event ad)) s (t.placeReleases rs) :=
  placeHead_moves k (fun _ h => ordinary_ahead h) (countP_placeBehind rs _) fun r hr => cutRelease_head (h r hr)

/-- The handles of a node's live records. -/
theorem recordsAt_live {h : Handle} {p : Nat} (m : h ∈ t.recordsAt p) : (t.record h).isSome = true := by
  unfold State.recordsAt at m
  obtain ⟨i, _, m⟩ := List.mem_flatMap.mp m
  have := (List.mem_filter.mp m).2
  split at this
  · next hl => rw [live_record hl]; rfl
  · cases this

theorem retireNode_moves (k : Moves (.more (.event ad)) s t) (x : RetireReason) (p : Nat) :
    Moves (.more (.event ad)) s (State.retireNode x t p) := by
  have step : ∀ (l : List Handle) (u : State), (∀ h ∈ l, (u.record h).isSome = true) → Moves (.more (.event ad)) s u →
      Moves (.more (.event ad)) s (l.foldl (fun u h => (u.retireRecord h x).joinNow h) u) := by
    intro l
    induction l with
    | nil => exact fun _ _ k => k
    | cons h l ih =>
        intro u hl k
        have hr := retireRecord_record x (hl h (by simp))
        refine ih _ (fun j hj => ?_) (joinNow_moves (retireRecord_moves k h x) hr)
        exact (joinNow_moves (ad := ad) (retireRecord_moves .nil h x) hr).kept j (hl j (by simp [hj]))
  exact step _ t (fun h m => recordsAt_live m) k

theorem chainCut_moves (k : Moves (.more (.event ad)) s t) (p : Nat) : Moves (.more (.event ad)) s (t.chainCut p) := by
  unfold State.chainCut
  refine raise_moves (cutResponse_moves (dropUnplacedTo_moves
    (setNtab_moves ?_ (nodesKept_sublist (List.take_sublist ..))) _) p) _
  refine placeReleases_moves (abandonWhere_moves
    (foldl_moves (fun _ q j => retireNode_moves j _ q) _ _ (retireNode_moves k _ p)) _) fun r hr => ?_
  obtain ⟨a, _, rfl⟩ := List.mem_map.mp hr
  rfl

theorem declareLost_moves (k : Moves (.more (.event ad)) s t) (p : Nat) : Moves (.more (.event ad)) s (t.declareLost p) := by
  unfold State.declareLost
  split
  · exact ite_moves k (chainCut_moves (modifyNode_moves k _ _) p)
  · exact k

theorem heard_moves (k : Moves (.more (.event ad)) s t) (a : Addr) : Moves (.more (.event ad)) s (t.heard a) := by
  unfold State.heard
  split
  · exact ite_moves k (modifyNode_moves k _ _)
  · exact k

theorem failed_moves (k : Moves (.more (.event ad)) s t) (a : Addr) : Moves (.more (.event ad)) s (t.failed a) := by
  unfold State.failed
  split
  · exact ite_moves (modifyNode_moves k _ _) (declareLost_moves (modifyNode_moves k _ _) _)
  · exact k

theorem sweepFailed_moves (k : Moves (.more (.event ad)) s t) (a : Addr) : Moves (.more (.event ad)) s (t.sweepFailed a) := by
  unfold State.sweepFailed
  split
  · exact declareLost_moves k _
  · exact k

theorem setSummary_moves (k : Moves (.more w) s t) (a : Addr) (b : Byte) :
    Moves (.more w) s (t.setSummary a b) := by
  unfold State.setSummary
  split
  · exact modifyNode_moves k _ _
  · exact k

theorem tick_moves (k : Moves (.more w) s t) : Moves (.more w) s t.tick := by
  have c := k.snoc (.nodes { t.ntab with tick := .running (t.now + Config.tickTime) } rfl rfl)
  exact ite_moves c (foldl_moves (fun _ _ j => ite_moves (claimRoutine_moves j _ rfl) j) _ _ c)

theorem sweep_moves (k : Moves (.more (.event ad)) s t) {x : Sweep} (hx : x ≠ .none) :
    Moves (.more (.event ad)) s (t.sweep x) := by
  unfold State.sweep
  dsimp only
  generalize (if t.ntab.hold = true then [] else (t.ntab.nodes.filter NodeEntry.present).map (·.address)) = l
  have c := setRoutine_moves k (t.tdl.routine.filter_sublist (p := fun r => !(l.any fun a => r.isHailTo a)))
  generalize t.setRoutine (t.tdl.routine.filter fun r => !(l.any fun a => r.isHailTo a)) = u at c
  have hn : ∀ r ∈ l.map (fun a => Request.hail a x), r.isDrive = false ∧ r.ordinary = false := by
    intro r hr
    obtain ⟨a, _, rfl⟩ := List.mem_map.mp hr
    refine ⟨rfl, ?_⟩
    cases x <;> first
      | exact absurd rfl hx
      | rfl
  have d := placeHead_moves c (p := Request.isRestartRelease) (fun _ h => ordinary_restart h)
    (new := l.map fun a => Request.hail a x) (q := l.map (fun a => Request.hail a x)
      ++ (u.makeRoom Request.isRestartRelease (l.map fun a => Request.hail a x).length).1.tdl.routine)
    (fun f => by rw [List.countP_append]) hn
  rw [List.length_map] at d
  refine ite_moves d (placeReleases_moves d fun r hr => ?_)
  have : r ∈ (List.filter Request.isCutRelease _).reverse := hr
  exact (List.mem_filter.mp (List.mem_reverse.mp this)).2

/-- A change of every entry that leaves the addresses as they are. -/
theorem mapNodes_moves (k : Moves (.more (.event ad)) s t) (f : NodeEntry → NodeEntry) (hf : ∀ x, (f x).address = x.address) :
    Moves (.more (.event ad)) s (t.setNtab { t.ntab with nodes := t.ntab.nodes.map f }) :=
  setNtab_moves k (nodesKept_of_addresses (addresses_map _ f hf))

theorem freeze_moves (k : Moves (.more w) s t) : Moves (.more w) s t.freeze :=
  mapConfirms_moves (setBue_moves (k.snoc (.nodes _ (by rfl) (by exact addresses_map _ _ fun _ => rfl))) _) _

theorem unfreeze_moves (k : Moves (.more w) s t) : Moves (.more w) s t.unfreeze := by
  refine mapConfirms_moves (setBue_moves (k.snoc (.nodes _ (by rfl) ?_)) _) _
  dsimp only
  split
  · rfl
  · exact addresses_map _ _ fun _ => rfl

/-! ### Outcomes in the walk -/

theorem unitCheck_moves (k : Moves (.more w) s t) (p : ProbeReply) : Moves (.more w) s (t.unitCheck p) :=
  ite_moves (placeExtend_moves (setBue_moves k _) _) (ite_moves (goMatch_moves k _)
    (ite_moves (enterAssign_moves k) (enterAssign_moves (modifyUnit_moves k _ _))))

theorem probeFound_moves (k : Moves (.more (.event ad)) s t) (p : ProbeReply) : Moves (.more (.event ad)) s (t.probeFound p) := by
  unfold State.probeFound
  dsimp only
  split
  · exact declareLost_moves (setBue_moves k _) _
  · exact unitCheck_moves (setBue_moves (setBue_moves k _) _) p

theorem probeOutcome_moves (k : Moves (.more (.event ad)) s t) (o : ReqOutcome) : Moves (.more (.event ad)) s (t.probeOutcome o) := by
  unfold State.probeOutcome
  split
  · exact ite_moves (probeFound_moves (endRecat_moves k) _) (haltWith_moves (endRecat_moves k) _)
  · exact haltWith_moves (endRecat_moves k) _
  · exact haltWith_moves (endRecat_moves k) _
  · exact haltWith_moves (endRecat_moves k) _
  · exact ite_moves (recatNext_moves (setBue_moves k _)) (endChain_moves k _)
  · exact k
  · exact k

theorem assigned_moves (k : Moves (.more (.event ad)) s t) {a : Addr} (ha : t.addressOpen a = true) (p : ProbeReply)
    (n : Nat) : Moves (.more (.event ad)) s (t.assigned a p n) := by
  have c := fun unit (heard : Stopwatch) => setNtab_moves k (n := { t.ntab with
    nodes := t.ntab.nodes ++ [newNode a unit p n heard] }) (nodesKept_append ha)
  exact ite_moves (placeBue_moves (setBue_moves (setNtab_moves (setBue_moves (c _ _) _)
      (nodesKept_sublist (List.dropLast_sublist _))) _) _)
    (enterDescribe_moves (setBue_moves (c _ _) _))

theorem assignFailed_moves (k : Moves (.more w) s t) : Moves (.more w) s t.assignFailed :=
  ite_moves (enterProbe_moves (setBue_moves k _)) (haltWith_moves (setBue_moves k _) _)

theorem assignOutcome_moves (k : Moves (.more (.event ad)) s t) (a : Addr) (o : ReqOutcome) : Moves (.more (.event ad)) s (t.assignOutcome a o) := by
  unfold State.assignOutcome
  split <;> first
    | exact k
    | exact assignFailed_moves k
    | (split
       · next ha => exact assigned_moves k ha _ _
       · exact k)

theorem endForWindow_moves (k : Moves (.more w) s t) : Moves (.more w) s t.endForWindow :=
  endChain_moves (raise_moves k _) _

theorem windowReleased_moves (k : Moves (.more w) s t) : Moves (.more w) s t.windowReleased :=
  ite_moves (endForWindow_moves k) (placeExtend_moves (setBue_moves k _) _)

theorem readEntry_moves (k : Moves (.more (.event true)) s t) (i : FnIndex) (b : List Byte) : Moves (.more (.event true)) s (t.readEntry i b) := by
  have c := fun n f => modifyUnit_moves k n f
  unfold State.readEntry
  dsimp only
  split
  · next e _ =>
      have a := admitEntry_moves (c (t.unitOf t.ntab.nodes.length) fun u => { u with digest := digestFold u.digest b })
        t.ntab.nodes.length i e
      split
      · next q => rw [q] at a; exact a
      · next q => rw [q] at a; exact raise_moves (modifyNode_moves a _ _) _
  · exact modifyNode_moves (c _ _) _ _

theorem nextDescribe_moves (k : Moves (.more w) s t) : Moves (.more w) s t.nextDescribe :=
  describeNext_moves (setBue_moves k _)

theorem describeOutcome_moves (k : Moves (.more (.event true)) s t) (i : FnIndex) (o : ReqOutcome) :
    Moves (.more (.event true)) s (t.describeOutcome i o) := by
  unfold State.describeOutcome
  split <;> first
    | exact k
    | exact describeNext_moves k
    | exact nextDescribe_moves (readEntry_moves k _ _)
    | exact nextDescribe_moves (modifyNode_moves k _ _)

theorem recatEntry_moves (k : Moves (.more (.event true)) s t) (p : Nat) (i : FnIndex) (b : List Byte) :
    Moves (.more (.event true)) s (t.recatEntry p i b) := by
  unfold State.recatEntry
  split
  · next e _ =>
      have a := admitEntry_moves k p i e
      split
      · next q => rw [q] at a; exact recatDrop_moves (modifyNode_moves a _ _) _
      · next q => rw [q] at a; exact recatDrop_moves (raise_moves a _) _
  · exact recatDrop_moves k _

theorem afterRecat_moves (k : Moves (.more w) s t) : Moves (.more w) s t.afterRecat := by
  have c : Moves (.more w) s (match t.fdir.recat with
      | some c => if c.indices.isEmpty then t.endRecat else t
      | none => t) := by
    split
    · exact ite_moves (endRecat_moves k) k
    · exact k
  exact ite_moves c (ite_moves (placeBue_moves (setBue_moves c _) _) (recatNext_moves c))

theorem recatOutcome_moves (k : Moves (.more (.event true)) s t) (i : FnIndex) (o : ReqOutcome) : Moves (.more (.event true)) s (t.recatOutcome i o) := by
  unfold State.recatOutcome
  split
  · split <;> first
      | exact afterRecat_moves (recatEntry_moves k _ _ _)
      | exact afterRecat_moves (recatDrop_moves k _)
      | exact afterRecat_moves k
      | exact endRecat_moves k
  · exact k

theorem afterClose_moves (k : Moves (.more w) s t) : Moves (.more w) s t.afterClose := by
  unfold State.afterClose
  split
  · exact endChain_moves (raise_moves k _) _
  · exact endForWindow_moves k
  · exact k

theorem setGate_moves (k : Moves (.more w) s t) (a : Addr) (b : Bool) : Moves (.more w) s (t.setGate a b) := by
  unfold State.setGate
  split
  · exact modifyNode_moves k _ _
  · exact k

theorem extendOutcome_moves (k : Moves (.more w) s t) (a : Addr) (b : Bool) (o : ReqOutcome) :
    Moves (.more w) s (t.extendOutcome a b o) := by
  unfold State.extendOutcome
  split <;> first
    | exact k
    | exact placeExtend_moves k _
    | exact ite_moves (enterProbe_moves (setGate_moves k _ _)) (afterClose_moves (setGate_moves k _ _))
    | exact ite_moves (haltWith_moves k _) (afterClose_moves k)

theorem bueOutcome_moves (k : Moves (.more (.event true)) s t) (r : Request) (o : ReqOutcome) : Moves (.more (.event true)) s (t.bueOutcome r o) := by
  have c := bueRequestGone_moves k
  unfold State.bueOutcome
  refine ite_moves ?_ ?_
  · unfold State.dropped
    split
    · exact holdAddress_moves c _
    · exact c
  · split <;> first
      | exact c
      | exact probeOutcome_moves c o
      | exact assignOutcome_moves c _ o
      | exact describeOutcome_moves c _ o
      | exact recatOutcome_moves c _ o
      | exact extendOutcome_moves c _ _ o
      | exact ite_moves (windowReleased_moves c) c

/-! ### Outcomes -/

theorem driveFailed_moves (k : Moves (.more w) s t) (h : Handle) : Moves (.more w) s (t.driveFailed h) := by
  unfold State.driveFailed
  split
  · split
    · refine ite_moves k ?_
      refine ite_moves (enter_moves (setDrive_moves k _ _) _ _ _) (ite_moves (setDrive_moves k _ _) ?_)
      split
      · exact enter_moves (setDrive_moves k _ _) _ _ _
      · exact setDrive_moves k _ _
    · exact k
  · exact k

theorem driveOnStart_moves (k : Moves (.more w) s t) (d : DriveReq) (st : ReplyStatus) :
    Moves (.more w) s (t.driveOnStart d st) := by
  unfold State.driveOnStart
  (repeat' split) <;> simp [k]

theorem driveReplied_moves (k : Moves (.more w) s t) (d : DriveReq) (st : ReplyStatus) (l : List Byte) :
    Moves (.more w) s (t.driveReplied d st l) := by
  unfold State.driveReplied
  split
  · refine driveOnStart_moves (guardDriveReplied_moves ?_ _ _) d st
    split
    · exact claim_moves (setDrive_moves k _ _) _ _ _ (takeFault_keeps _)
    · exact setDrive_moves k _ _
  · exact k

theorem driveOutcome_moves (k : Moves (.more w) s t) (d : DriveReq) (o : ReqOutcome) :
    Moves (.more w) s (t.driveOutcome d o) := by
  have c := callDrain_moves (clearRetireMark_moves k d.handle)
  unfold State.driveOutcome
  dsimp only
  split <;> first
    | exact c
    | exact driveReplied_moves c _ _ _
    | (split <;> first
        | exact c
        | exact driveFailed_moves c _)

theorem freeNodes_moves (k : Moves (.more (.event ad)) s t) {n : Ntab} (hn : t.ntab.nodesKept → n.nodesKept) : Moves (.more (.event ad)) s (t.freeNodes n) :=
  dropUnplacedTo_moves (setNtab_moves k hn) _

theorem engineAfterRestart_moves (k : Moves (.more w) s t) : Moves (.more w) s t.engineAfterRestart := by
  unfold State.engineAfterRestart
  split
  · exact leaveIdle_moves (setBue_moves k _)
  · exact setBue_moves k _
  · exact setBue_moves k _

theorem restartComplete_moves (k : Moves (.more (.event ad)) s t) : Moves (.more (.event ad)) s t.restartComplete :=
  engineAfterRestart_moves (freeNodes_moves k (nodesKept_sublist (List.nil_sublist _)))

theorem ownerOutcome_moves (k : Moves (.more (.event true)) s t) (r : Request) (o : ReqOutcome) : Moves (.more (.event true)) s (t.ownerOutcome r o) := by
  have b := bueOutcome_moves k r o
  cases r with
  | probe => exact b
  | assign a i => exact b
  | describe a i x => exact b
  | extend a x => exact b
  | drive d => exact driveOutcome_moves k d o
  | prove a i => exact proofOutcome_moves k o
  | sample w a i h g =>
      cases w with
      | proving => exact proofOutcome_moves k o
      | confirm => exact confirmOutcome_moves k h g o
  | hail a x =>
      unfold State.ownerOutcome
      dsimp only
      split
      · exact setSummary_moves k _ _
      · exact k
  | release a x =>
      cases x with
      | true => exact b
      | false => exact k
  | releaseAll => exact ite_moves (restartComplete_moves k) k
  | phaseMark m on => exact ite_moves (markOnStart_moves k _) k

theorem reportNode_moves (k : Moves (.more (.event ad)) s t) (r : Request) (o : ReqOutcome) : Moves (.more (.event ad)) s (t.reportNode r o) := by
  unfold State.reportNode
  (repeat' split) <;> first
    | exact k
    | exact heard_moves k _
    | exact sweepFailed_moves k _
    | exact failed_moves k _

/-- The report of an outcome: the request leaves its entry, the next bits follow, and then event moves. -/
theorem reportOutcome_moves (t : State) (r : Request) (o : ReqOutcome) :
    Moves (.more (.event true)) ((t.setInFlight none).updateNextBit r o) (t.reportOutcome r o) :=
  reportNode_moves (ownerOutcome_moves .nil r o) r o

theorem onAttemptEnd_moves (k : Moves (.more w) s t) : Moves (.more w) s t.onAttemptEnd :=
  callDrain_moves (callPass_moves (bueOccasion_moves (provingOccasion_moves (claimOwed_moves (placeRetireDrives_moves k)))))

theorem enterYielded_moves (k : Moves (.more (.event ad)) s t) : Moves (.more (.event ad)) s t.enterYielded := by
  have c := interrupt_moves k
  unfold State.enterYielded
  generalize t.interrupt = u at c
  exact freeze_moves (raise_moves (line_moves c _) _)

theorem lineFaulted_moves (k : Moves (.more (.event ad)) s t) : Moves (.more (.event ad)) s t.lineFaulted := line_moves k _

theorem enterFault_moves (k : Moves (.more (.event ad)) s t) : Moves (.more (.event ad)) s t.enterFault :=
  mapNodes_moves (freeze_moves (raise_moves (lineFaulted_moves (interrupt_moves k)) _)) _ fun _ => by split <;> rfl

theorem readyAgain_moves (k : Moves (.more (.event ad)) s t) : Moves (.more (.event ad)) s t.readyAgain :=
  callPass_moves (callDrain_moves (setLine_moves k _))

theorem enterReady_moves (k : Moves (.more (.event ad)) s t) (x : Sweep) : Moves (.more (.event ad)) s (t.enterReady x) := by
  have c := unfreeze_moves (line_moves k { t.tdl with
    line := .ready, yieldEnds := none, reclaim := .idle, faultEnds := none })
  refine callPass_moves (callDrain_moves (resync_moves ?_))
  split
  · exact c
  · next hx => exact sweep_moves c (by simpa using hx)

theorem gapPassed_moves (k : Moves (.more (.event ad)) s t) : Moves (.more (.event ad)) s t.gapPassed := by
  unfold State.gapPassed
  split
  · split
    · exact readyAgain_moves k
    · exact startIfIdle_moves k
  · exact k

theorem yieldIfDue_moves (k : Moves (.more (.event ad)) s t) : Moves (.more (.event ad)) s t.yieldIfDue := ite_moves (enterYielded_moves k) k

/-- The state from which the end of an attempt goes on by event moves: a decided outcome has left its entry and moved
the next bits. -/
def State.decided (t : State) (f : InFlight) (o : ReqOutcome) : State :=
  match o, f.second with
  | .noReply, false | .checkError, false => t
  | _, _ => (t.setInFlight none).updateNextBit f.req (f.req.failedOutcome o)

theorem endAttempt_moves (t : State) {f : InFlight} (hf : t.tdl.inFlight = some f) (o : ReqOutcome) :
    Moves (.more (.event true)) (t.decided f o) (t.endAttempt f o) := by
  have d := reportOutcome_moves t f.req (f.req.failedOutcome o)
  unfold State.endAttempt State.decided
  refine yieldIfDue_moves (onAttemptEnd_moves ?_)
  cases f.second with
  | true => cases o <;> exact d
  | false => cases o <;> first
    | exact setStage_moves .nil hf _
    | exact d

/-! ### Outcomes without a reply bring no record -/

theorem bueOutcome_silent (k : Moves (.more (.event ad)) s t) (r : Request) {o : ReqOutcome} (h : o.isReply = false) :
    Moves (.more (.event ad)) s (t.bueOutcome r o) := by
  have c := bueRequestGone_moves k
  have d : ∀ i, Moves (.more (.event ad)) s (t.bueRequestGone.describeOutcome i o) := by
    intro i
    cases o with
    | replied st pl e => cases h
    | noReply => exact describeNext_moves c
    | checkError => exact describeNext_moves c
    | collision => exact describeNext_moves c
    | sent => exact c
    | abandoned => exact c
  have e : ∀ i, Moves (.more (.event ad)) s (t.bueRequestGone.recatOutcome i o) := by
    intro i
    unfold State.recatOutcome
    split
    · cases o with
      | replied st pl e => cases h
      | noReply => exact afterRecat_moves c
      | checkError => exact afterRecat_moves c
      | collision => exact afterRecat_moves c
      | sent => exact endRecat_moves c
      | abandoned => exact endRecat_moves c
    · exact c
  unfold State.bueOutcome
  refine ite_moves ?_ ?_
  · unfold State.dropped
    split
    · exact holdAddress_moves c _
    · exact c
  · split <;> first
      | exact c
      | exact probeOutcome_moves c o
      | exact assignOutcome_moves c _ o
      | exact d _
      | exact e _
      | exact extendOutcome_moves c _ _ o
      | exact ite_moves (windowReleased_moves c) c

theorem ownerOutcome_silent (k : Moves (.more (.event ad)) s t) (r : Request) {o : ReqOutcome} (h : o.isReply = false) :
    Moves (.more (.event ad)) s (t.ownerOutcome r o) := by
  have x := bueOutcome_silent k r h
  cases r with
  | probe => exact x
  | assign a i => exact x
  | describe a i y => exact x
  | extend a y => exact x
  | drive d => exact driveOutcome_moves k d o
  | prove a i => exact proofOutcome_moves k o
  | sample w a i h g =>
      cases w with
      | proving => exact proofOutcome_moves k o
      | confirm => exact confirmOutcome_moves k h g o
  | hail a y =>
      unfold State.ownerOutcome
      dsimp only
      split
      · exact setSummary_moves k _ _
      · exact k
  | release a y =>
      cases y with
      | true => exact x
      | false => exact k
  | releaseAll => exact ite_moves (restartComplete_moves k) k
  | phaseMark m on => exact ite_moves (markOnStart_moves k _) k

theorem updateNextBit_silent (t : State) (r : Request) {o : ReqOutcome} (h : o.isReply = false) :
    t.updateNextBit r o = t := by
  simp [State.updateNextBit, h]

theorem failedOutcome_silent (r : Request) {o : ReqOutcome} (h : o.isReply = false) :
    (r.failedOutcome o).isReply = false := by
  unfold Request.failedOutcome
  split
  · rfl
  · exact h

/-- An attempt that ends without a reply changes no sequence bit and admits no record. -/
theorem endAttempt_silent (k : Moves (.more (.event ad)) s t) {f : InFlight} (hf : t.tdl.inFlight = some f)
    {o : ReqOutcome} (h : o.isReply = false) :
    Moves (.more (.event ad)) s (t.endAttempt f o) := by
  have d : Moves (.more (.event ad)) s (t.reportOutcome f.req (f.req.failedOutcome o)) := by
    unfold State.reportOutcome
    rw [updateNextBit_silent _ _ (failedOutcome_silent _ h)]
    exact reportNode_moves (ownerOutcome_silent (endFlight_moves k) _ (failedOutcome_silent _ h)) _ _
  unfold State.endAttempt
  refine yieldIfDue_moves (onAttemptEnd_moves ?_)
  cases f.second with
  | true => cases o <;> exact d
  | false => cases o <;> first
    | exact setStage_moves k hf _
    | exact d

/-! ### Teardowns -/

theorem lineDown_moves (k : Moves (.more (.event ad)) s t) : Moves (.more (.event ad)) s t.lineDown :=
  line_moves (abandonWhere_moves k _) _ rfl rfl fun _ => queueKept_empty rfl rfl rfl

theorem teardown_moves (k : Moves (.more (.event ad)) s t) (x : RetireReason) : Moves (.more (.event ad)) s (t.teardown x) :=
  freeNodes_moves (emptyBlocks_moves (retireAll_moves (lineDown_moves (engineIdle_moves k)) x true))
    (nodesKept_sublist (List.nil_sublist _))

theorem releaseForRestart_moves (k : Moves (.more (.event ad)) s t) (freed : List Handle) (b : Bool) :
    Moves (.more (.event ad)) s (t.releaseForRestart freed b) := by
  unfold State.releaseForRestart
  refine ite_moves k ?_
  have d : Moves (.more (.event ad)) s (if t.queued Request.isRestartRelease = true then t else (t.claimRoutine .releaseAll).1) :=
    ite_moves k (claimRoutine_moves k _ rfl)
  generalize (if t.queued Request.isRestartRelease = true then t else (t.claimRoutine .releaseAll).1) = u at d
  have n := setBue_moves (setNtab_moves d (n := { u.ntab with
      hold := true, nodes := u.ntab.nodes.map fun n => { n with heard := n.heard.hold u.now } })
    (nodesKept_of_addresses (addresses_map _ _ fun _ => rfl)))
  exact ite_moves (yieldIfDue_moves (onAttemptEnd_moves (n _)))
    (foldl_moves (fun _ h j => placeRetireDrive_moves j h) freed _ (n _))

theorem linkRestart_moves (k : Moves (.more (.event ad)) s t) : Moves (.more (.event ad)) s t.linkRestart := by
  have a : Moves (.more (.event ad)) s t.abandonForRestart := abandonWhere_moves (engineIdle_moves k) _
  have d := dropSamplesTo_moves (emptyBlocks_moves (retireAll_moves a .restart false)) fun _ => true
  exact releaseForRestart_moves d (t.retireDrivesFreed t.abandonForRestart)
    (t.tdl.inFlight.isSome && t.abandonForRestart.tdl.inFlight.isNone)

end Sys2Proof.Machine
end

