-- ==== Sys2Proof/Laws/Commands.lean ====
section
/-! SUPPORT. How commands answer, and the effects of the commands that are chains of moves. -/

namespace Sys2Proof.Machine

variable {ad : Bool} {w : Kind} {s t : State}

/-! ### Answers -/

theorem runEvent_some (h : s.hcp.inReset = false) (t : State) : runEvent s (some t) = .next (t.finish false) := by
  simp [runEvent, h]

theorem runEvent_none (s : State) : runEvent s none = .next s := by
  unfold runEvent
  split <;> rfl

theorem runEvent_reset (h : s.hcp.inReset = true) (x : Option State) : runEvent s x = .next s := by
  simp [runEvent, h]

/-- An event answers the state itself, or the end of its effect. -/
theorem runEvent_cases {x : Option State} (h : runEvent s x = .next t) :
    t = s ∨ s.hcp.inReset = false ∧ ∃ u, x = some u ∧ t = u.finish false := by
  unfold runEvent at h
  split at h
  · exact .inl (Host.Outcome.next.inj h).symm
  · next hr =>
      split at h
      · exact .inr ⟨by simpa using hr, _, rfl, (Host.Outcome.next.inj h).symm⟩
      · exact .inl (Host.Outcome.next.inj h).symm

theorem reply_silent (h : s.portSilent = true) (t : State) (r : HostResult) (d : List Byte) (n : Nat) :
    reply s t r d n = .next s := by
  simp [reply, h]

theorem reply_awake (h : s.portSilent = false) (t : State) (r : HostResult) (d : List Byte) (n : Nat) :
    reply s t r d n = .next (t.setResponse (responseBytes r d n) .none) := by
  simp [reply, h]

/-- A command answers the state itself, or the response on the state after its effect. -/
theorem reply_cases {u : State} {r : HostResult} {d : List Byte} {n : Nat} (h : reply s u r d n = .next t) :
    t = s ∨ s.portSilent = false ∧ t = u.setResponse (responseBytes r d n) .none := by
  unfold reply at h
  split at h
  · exact .inl (Host.Outcome.next.inj h).symm
  · next hp => exact .inr ⟨by simpa using hp, (Host.Outcome.next.inj h).symm⟩

theorem runCommand_refused (s u : State) (r : HostResult) : runCommand s (some r) u = reply s s r [] 0 := rfl

theorem runCommand_ok (s u : State) : runCommand s none u = reply s (u.finish true) .ok [] 0 := rfl

/-- The response of a command without data is its result code alone. -/
theorem responseBytes_nil (r : HostResult) : responseBytes r [] 0 = [byte r.code] := by
  simp [responseBytes]

theorem runCommand_answer (h : s.portSilent = false) (r : HostResult) (u : State) :
    runCommand s (some r) u = .next (s.answer (byte r.code)) := by
  rw [runCommand_refused, reply_awake h, responseBytes_nil]
  rfl

theorem runCommand_taken (h : s.portSilent = false) (u : State) : runCommand s none u = .next u.taken := by
  rw [runCommand_ok, reply_awake h, responseBytes_nil]
  rfl

/-- What a command taken with OK leaves of its effect. -/
theorem taken_fixed (u : State) : u.taken.fixed = { u.fixed with response := [0], stream := .none } := by
  have f := finish_fixed u true
  unfold State.taken State.answer
  generalize u.finish true = t at f
  rw [← f]
  rfl

/-- A command that names a record answers BAD_HANDLE before any other check (R69). -/
theorem runNamed_none {handle gen : Byte} (h : s.named handle gen = none)
    (check : Handle → Record → Option HostResult) (effect : Handle → Record → State) :
    runNamed s handle gen check effect = reply s s .badHandle [] 0 := by
  simp [runNamed, h, runCommand]

theorem runNamed_some {handle gen : Byte} {h : Handle} {r : Record} (q : s.named handle gen = some (h, r))
    (check : Handle → Record → Option HostResult) (effect : Handle → Record → State) :
    runNamed s handle gen check effect = runCommand s (check h r) (effect h r) := by
  simp [runNamed, q]

/-- The record a pair names. -/
theorem named_eq {handle gen : Byte} {h : Handle} {r : Record} (q : s.named handle gen = some (h, r)) :
    handleOf handle = some h ∧ (s.slot h).gen = gen ∧ s.record h = some r := by
  unfold State.named at q
  split at q
  · next h' e =>
      split at q
      · next g =>
          cases hr : s.record h' with
          | none => rw [hr] at q; cases q
          | some r' =>
              rw [hr] at q
              cases q
              exact ⟨e, by simpa using g, hr⟩
      · cases q
  · cases q

/-! ### Effects on the line -/

theorem frameDone_moves (k : Moves (.more (.event ad)) s t) {f : InFlight} (hf : t.tdl.inFlight = some f) :
    Moves (.more (.event ad)) s (t.frameDone f) :=
  ite_moves (setStage_moves (restartGap_moves k) hf _) (endAttempt_silent (restartGap_moves k) hf rfl)

theorem breakReply_moves (k : Moves (.more (.event ad)) s t) {f : InFlight} (hf : t.tdl.inFlight = some f) (m : Bool) :
    Moves (.more (.event ad)) s (t.breakReply f m) := by
  unfold State.breakReply
  refine gapPassed_moves (endAttempt_silent ?_ ?_ rfl)
  · split
    · exact line_moves k _
    · exact restartGap_moves k
  · split <;> exact hf

theorem lineRequested_moves (k : Moves (.more (.event ad)) s t) : Moves (.more (.event ad)) s t.lineRequested := by
  unfold State.lineRequested
  split
  · exact enterYielded_moves k
  · next hf =>
      split
      · exact endAttempt_silent (restartGap_moves (line_moves k { t.tdl with yieldDue := true })) hf rfl
      · exact line_moves k _
      · exact enterYielded_moves k

theorem orphanDone_moves (k : Moves (.more (.event ad)) s t) : Moves (.more (.event ad)) s t.orphanDone :=
  onAttemptEnd_moves (restartGap_moves (line_moves k { t.tdl with orphan := none }))

theorem startReclaim_moves (k : Moves (.more (.event ad)) s t) : Moves (.more (.event ad)) s t.startReclaim :=
  line_moves k _

/-! ### Effects on nodes and the engine -/

theorem silenced_moves (k : Moves (.more (.event ad)) s t) (p : Nat) : Moves (.more (.event ad)) s (t.silenced p) :=
  ite_moves (yieldIfDue_moves (onAttemptEnd_moves (declareLost_moves k p))) (declareLost_moves k p)

theorem releaseHold_moves (k : Moves (.more w) s t) (a : Addr) : Moves (.more w) s (t.releaseHold a) :=
  ite_moves (placeAssign_moves (setBue_moves k _)) (setBue_moves k _)

theorem frontierOut_moves (k : Moves (.more w) s t) : Moves (.more w) s t.frontierOut :=
  ite_moves (placeBue_moves (setBue_moves k _) _) (setBue_moves (setBue_moves k _) _)

theorem restartWalk_moves (k : Moves (.more w) s t) : Moves (.more w) s t.restartWalk :=
  departOrDefer_moves (setBue_moves k _) _

theorem startRecat_moves (k : Moves (.more w) s t) (p : Nat) : Moves (.more w) s (t.startRecat p) := by
  unfold State.startRecat
  split
  · exact ite_moves (endRecat_moves (setRecat_moves k _)) (ite_moves (recatNext_moves (setRecat_moves k _))
      (setRecat_moves k _))
  · exact k

/-! ### Effects on records -/

theorem hostTie_moves {v : Reach} (k : Moves v s t) (h : Handle) (x : Option Src)
    (room : ∀ y, x = some y → (t.list y).length < Config.listSize) : Moves v s (t.hostTie h x) :=
  proofTieChanged_moves (changeTie_moves k h x room) h

theorem setParameter_moves {v : Reach} (k : Moves v s t) {h : Handle} {r : Record} (hl : t.live h = some r)
    (p : Nat) (x : Half) : Moves v s (t.setParameter h r p x) := by
  unfold State.setParameter
  split
  · exact modifyConfirm_moves (setRecord_same k hl { r with interval := some x.toNat } rfl) h _
  · exact setRecord_same k hl _ rfl
  · exact setRecord_same k hl _ rfl
  · exact setGuard_moves k _ _
  · exact setGuard_moves k _ _
  · exact k

theorem hostDrive_moves {v : Reach} (k : Moves v s t) {h : Handle} {r : Record} (hl : t.live h = some r)
    (x : OutWord) : Moves v s (t.hostDrive h r x) := by
  have c := setRecord_same k hl { r with wanted := some x } rfl
  unfold State.hostDrive
  dsimp only
  split
  · exact guardRun_moves c _ _
  · exact guardRun_moves c _ _
  · exact guardStop_moves c _ _
  · exact askOutput_moves c h _

theorem hostRetire_moves (k : Moves (.more (.event ad)) s t) (h : Handle) (r : Record) :
    Moves (.more (.event ad)) s (t.hostRetire h r) :=
  placeRetireDrive_moves (modifySlot_moves (modifyNode_moves (retireRecord_moves k h .host) r.position NodeEntry.letGo) h
    (fun x => { x with retireDrive := r.retireDrive }) fun _ => ⟨rfl, rfl⟩) h

/-! ### The stored list -/

/-- The list can take a write: it is not being scanned, and no write is in flight. -/
theorem notScanning (h : t.nvBusy = false) : t.ktl.scanning = false := by
  unfold State.nvBusy at h
  simp only [Bool.or_eq_false_iff] at h
  exact h.1

/-- A write whose contents hold an identity that no other entry holds. -/
theorem placeWrite_moves (k : Moves (.more w) s t) (hs : t.nvBusy = false) (x : WriteKind) (i : Fin 16) (e : KtlEntry)
    (hw : t.ktl.kept → e = KtlEntry.blank ∨ e.state ≠ .empty ∧ x ≠ .eraseList
      ∧ ∀ j : Fin 16, j ≠ i → t.ktl.entries[j].state ≠ .empty → t.ktl.entries[j].identity ≠ e.identity) : Moves (.more w) s (t.placeWrite x i e) :=
  k.snoc (.ktl _ rfl rfl rfl rfl rfl rfl fun q => q.write (notScanning hs) (hw q))

/-- A write of an EMPTY entry. -/
theorem placeErase_moves (k : Moves (.more w) s t) (hs : t.nvBusy = false) (x : WriteKind) (i : Fin 16) :
    Moves (.more w) s (t.placeWrite x i KtlEntry.blank) :=
  placeWrite_moves k hs x i _ fun _ => .inl rfl

/-- A write of an entry with its identity kept. -/
theorem placeRewrite_moves (k : Moves (.more w) s t) (hs : t.nvBusy = false) {x : WriteKind} (hx : x ≠ .eraseList)
    (i : Fin 16) {e : KtlEntry} (he : (t.ktlEntry i).state ≠ .empty) (hn : e.state ≠ .empty) (hi : e.identity = (t.ktlEntry i).identity) :
    Moves (.more w) s (t.placeWrite x i e) :=
  placeWrite_moves k hs x i e fun q => .inr ⟨hn, hx, fun _ hj hs => hi ▸ q.entries hj hs he⟩

/-- The entry chosen for an identity that no PINNED entry holds is the only one that may hold it (R186). -/
theorem chooseEntry_only {id : Identity} {i : Fin 16} (h : t.chooseEntry id = some i)
    (hp : (entryIndices.any fun j => (t.ktlEntry j).holds id && (t.ktlEntry j).state == .pinned) = false)
    (k : t.ktl.kept) (j : Fin 16) (hj : j ≠ i) (he : t.ktl.entries[j].state ≠ .empty) :
    t.ktl.entries[j].identity ≠ id := by
  intro q
  have holds : (t.ktlEntry j).holds id = true := by
    unfold KtlEntry.holds State.ktlEntry
    simp only [Bool.and_eq_true, bne_iff_ne, beq_iff_eq]
    exact ⟨he, q⟩
  have valid : ((t.ktlEntry j).holds id && (t.ktlEntry j).state == .valid) = true := by
    have := List.any_eq_false.mp hp j (List.mem_finRange j)
    cases e : (t.ktlEntry j).state with
    | empty => exact absurd e he
    | valid => simp [holds]
    | pinned => simp [holds, e] at this
  unfold State.chooseEntry at h
  split at h
  · next l hl =>
      cases h
      have := List.find?_some hl
      simp only [Bool.and_eq_true, KtlEntry.holds, bne_iff_ne, beq_iff_eq] at this
      exact k.entries hj he this.1.1 (q.trans this.1.2.symm)
  · next hn => exact absurd valid (by simpa using List.find?_eq_none.mp hn j (List.mem_finRange j))

theorem remember_moves (k : Moves (.more w) s t) (hs : t.nvBusy = false) {n : Nat} (hn : t.rememberCheck n = none) :
    Moves (.more w) s (t.remember n) := by
  unfold State.remember
  unfold State.rememberCheck at hn
  split
  · exact k
  · next u hu =>
      rw [hu] at hn
      dsimp only at hn ⊢
      split
      · exact k
      · next i hi =>
          split at hn
          · cases hn
          · split at hn
            · cases hn
            · next hp =>
                exact k.snoc (.ktl _ rfl rfl rfl rfl rfl rfl fun q => q.write (notScanning hs)
                  (.inr ⟨by simp, by simp, chooseEntry_only hi (by simpa using hp) q⟩))

/-- A blank entry's check is the one ERASE ENTRY stores. -/
theorem blank_check : KtlCell.erasedCheck = KtlEntry.blank.check := by decide +kernel

end Sys2Proof.Machine
end

