-- ==== Sys2Proof/Laws/Exec.lean ====
section
/-! SUPPORT. What each command may do, said once: its next state is a chain of the changes below, each tied to the commands
that may make it. A device reset apart. -/

namespace Sys2Proof.Machine

/-- One change a command may make. -/
inductive Change (c : Instr) : State → State → Prop
  | move {s t : State} {b : Bool} (hb : b = true → ∃ f, c = .replyComplete f) (m : Move (.more (.event b)) s t) :
      Change c s t
  | clock {s : State} (n : Nat) (hn : s.now ≤ n) (h : c.ofHost = false) : Change c s { s with now := n }
  | pins {s : State} : Change c s s.drivePins
  | response {s : State} (l : List Byte) (x : Stream) (h : c.ofHost = true) : Change c s (s.setResponse l x)
  | monitor {s : State} (x : Cmon) (h : c ∈ [.coupleSenseAsserted, .coupleSenseWithdrawn, .linePresentAsserted,
      .linePresentWithdrawn, .settleTimerExpiry, .partTimerExpiry, .faultTimerExpiry]) : Change c s (s.setCmon x)
  | present {s : State} (b : Bool) (h : c ∈ [.linePresentAsserted, .linePresentWithdrawn]) :
      Change c s (s.setLinePresent b)
  | inputs {s : State} (v : Vector Bool 10) (h : ∃ i b, c = .demandInputChange i b) :
      Change c s { s with drt := { s.drt with inputs := v } }
  | mode {s : State} (x : TurnSide) (b : Bool)
      (h : ∃ i b, c = .demandInputChange i b ∧ turnSideOf (inputSrc i) = some x) :
      Change c s (s.setFollowMode x b)
  | bit {s : State} (a : Addr) (b : Bool) (h : ∃ f, c = .replyComplete f) : Change c s (s.setNextBit a b)
  | acknowledge {s : State} (m : Half) (h : c = .ackEvents m) : Change c s (s.setFlags (s.hcp.flags &&& ~~~m))
  | mask {s : State} (m : Half) (h : c = .setEventMask m) (ok : m &&& 0xE000 = 0) : Change c s (s.setEventMask m)
  | setting {s : State} (n v : Nat) (h : ∃ n v, c = .configure n v) (ok : settingOk n v = true) :
      Change c s (s.setConfig (s.hcp.cfg.set n v))
  | free {s : State} (h : Handle) (x : Slot) (hc : ∃ a b, c = .forget a b) (hg : x.gen = (s.slot h).gen)
      (ha : h ∉ s.fdir.attention) : Change c s (s.setSlot h x)
  | scanned {s : State} (k : Ktl) (h : c = .ktlScanEnd) (hk : k.cells = s.ktl.cells) (hw : k.wel = s.ktl.wel)
      (hi : s.ktl.kept → k.kept) : Change c s (s.setKtl k)
  | written {s : State} (k : Ktl) (h : ∃ b, c = .ktlWriteEnd b) (hi : s.ktl.kept → k.kept) : Change c s (s.setKtl k)
  | latch {s : State} (b : Bool) (h : c.touchesLatch = true) : Change c s (s.setWel b)
  | last {s : State} (o : NvOutcome) (h : c.touchesLatch = true) : Change c s (s.setLast o)

/-- A chain of changes. -/
inductive Changes (c : Instr) (s : State) : State → Prop
  | nil : Changes c s s
  | snoc {t u : State} (h : Changes c s t) (m : Change c t u) : Changes c s u

variable {c : Instr} {s t u : State}

theorem Changes.trans (h : Changes c s t) (k : Changes c t u) : Changes c s u := by
  induction k with
  | nil => exact h
  | snoc _ m ih => exact ih.snoc m

/-- A chain of moves is a chain of changes. -/
theorem Moves.changes (k : Moves (.more (.event false)) s t) : Changes c s t := by
  induction k with
  | nil => exact .nil
  | snoc _ m ih => exact ih.snoc (.move (fun h => by cases h) m)

theorem Moves.replyChanges (hc : ∃ f, c = .replyComplete f) (k : Moves (.more (.event true)) s t) : Changes c s t := by
  induction k with
  | nil => exact .nil
  | snoc _ m ih => exact ih.snoc (.move (fun _ => hc) m)

theorem Changes.moves (h : Changes c s t) (k : Moves (.more (.event false)) t u) : Changes c s u := h.trans k.changes

theorem Changes.finish (h : Changes c s t) (host : Bool) : Changes c s (t.finish host) := by
  obtain ⟨u, m, q, _⟩ := finish_moves t host
  rw [q]
  exact (h.moves m).snoc .pins

theorem Changes.advance (h : Changes c s t) (n : Nat) (hc : c.ofHost = false) : Changes c s (t.advanceTo n) :=
  h.snoc (.clock _ (Nat.le_max_left ..) hc)

/-- What every change keeps of the limits. -/
theorem Change.withinLimits (m : Change c s t) (h : s.withinLimits) : t.withinLimits := by
  obtain ⟨a, b, q, p, n, l, k⟩ := h
  cases m with
  | move _ m => exact m.withinLimits ⟨a, b, q, p, n, l, k⟩
  | free x y _ _ hx =>
      refine ⟨a, b, q, p, n, ⟨l.1, fun z hz => ?_⟩, k⟩
      have hz : z ∈ s.fdir.attention := hz
      have : x ≠ z := fun e => hx (e ▸ hz)
      have e : (s.setSlot x y).record z = s.record z := by
        unfold State.record
        rw [slot_setSlot_ne _ _ this]
      rw [e]
      exact l.2 z hz
  | scanned y _ _ _ hi => exact ⟨a, b, q, p, n, l, hi k⟩
  | written y _ hi => exact ⟨a, b, q, p, n, l, hi k⟩
  | present x _ => exact ⟨a, b, queueKept_same rfl rfl rfl q, p, n, l, k⟩
  | bit x y _ => exact ⟨a, b, queueKept_same rfl rfl rfl q, p, n, l, k⟩
  | _ => exact ⟨a, b, q, p, n, l, k⟩

theorem Changes.withinLimits (m : Changes c s t) (h : s.withinLimits) : t.withinLimits := by
  induction m with
  | nil => exact h
  | snoc _ m ih => exact m.withinLimits ih

/-- A turn input's mode in force changes at the edges of that input alone (R115). -/
theorem Changes.followMode (m : Changes c s t) (x : TurnSide)
    (hc : ∀ i b, c = .demandInputChange i b → turnSideOf (inputSrc i) ≠ some x) : t.followMode x = s.followMode x := by
  induction m with
  | nil => rfl
  | snoc _ m ih =>
      rw [← ih]
      cases m with
      | move _ m =>
          have : ∀ {u v : State}, u.frt.modes = v.frt.modes → u.followMode x = v.followMode x :=
            fun h => by unfold State.followMode; rw [h]
          exact this (congrArg Fixed.modes m.fixed)
      | mode y b h =>
          obtain ⟨i, a, h, hy⟩ := h
          have : y ≠ x := fun e => hc i a h (e ▸ hy)
          cases x <;> cases y <;> first | exact absurd rfl this | simp [State.followMode, State.setFollowMode, TurnSide.number]
      | _ => rfl

/-- An event whose effect is a chain of changes. -/
theorem runEvent_changes {x : Option State} (h : ∀ u, x = some u → Changes c s u) (q : runEvent s x = .next t) :
    Changes c s t := by
  rcases runEvent_cases q with e | ⟨_, u, hu, e⟩
  · rw [e]; exact .nil
  · rw [e]; exact (h u hu).finish false

theorem reply_changes {r : HostResult} {d : List Byte} {n : Nat} (hc : c.ofHost = true) (h : Changes c s u)
    (q : reply s u r d n = .next t) : Changes c s t := by
  rcases reply_cases q with e | ⟨_, e⟩
  · rw [e]; exact .nil
  · rw [e]; exact h.snoc (.response _ _ hc)

theorem runCommand_changes {x : Option HostResult} (hc : c.ofHost = true) (h : x = none → Changes c s u)
    (q : runCommand s x u = .next t) : Changes c s t := by
  cases x with
  | none => exact reply_changes hc ((h rfl).finish true) q
  | some r => exact reply_changes hc .nil q

theorem runNamed_changes {a g : Byte} {f : Handle → Record → Option HostResult} {e : Handle → Record → State}
    (hc : c.ofHost = true)
    (h : ∀ k r, s.named a g = some (k, r) → f k r = none → Changes c s (e k r))
    (q : runNamed s a g f e = .next t) : Changes c s t := by
  cases n : s.named a g with
  | none => rw [runNamed_none n] at q; exact reply_changes hc .nil q
  | some p =>
      rw [runNamed_some (h := p.1) (r := p.2) n] at q
      exact runCommand_changes hc (h p.1 p.2 n) q

/-- A record that is named and not RETIRED is live. -/
theorem named_live {a g : Byte} {k : Handle} {r : Record} (q : s.named a g = some (k, r))
    (hr : r.isRetired = false) : s.live k = some r := by
  have := (named_eq q).2.2
  unfold State.live
  rw [this]
  unfold Record.isRetired at hr
  simp [hr]

/-! ### Host commands -/

theorem answer_changes {r : HostResult} {d : List Byte} {n : Nat} (hc : c.ofHost = true)
    (q : reply s s r d n = .next t) : Changes c s t := reply_changes hc .nil q

theorem ackEvents_changes {m : Half} (q : execAckEvents m s = .next t) : Changes (.ackEvents m) s t := by
  unfold execAckEvents at q
  split at q
  · exact reply_changes rfl ((Changes.nil.snoc (.acknowledge m rfl)).snoc .pins) q
  · exact answer_changes rfl q

theorem setEventMask_changes {m : Half} (q : execSetEventMask m s = .next t) : Changes (.setEventMask m) s t := by
  unfold execSetEventMask at q
  split at q
  · next ok => exact reply_changes rfl ((Changes.nil.snoc (.mask m rfl (by simpa [eventMaskOk] using ok))).snoc .pins) q
  · exact answer_changes rfl q

theorem configure_changes {n : Byte} {v : Half} (q : execConfigure n v s = .next t) :
    Changes (.configure n v) s t := by
  refine runCommand_changes rfl (fun ok => ?_) q
  have ok : settingOk n.toNat v.toNat = true := by
    cases h : settingOk n.toNat v.toNat with
    | true => rfl
    | false => rw [h] at ok; cases ok
  have a : Changes (.configure n v) s (s.setConfig (s.hcp.cfg.set n.toNat v.toNat)) :=
    Changes.nil.snoc (.setting _ _ ⟨n, v, rfl⟩ ok)
  unfold State.configure
  dsimp only
  split
  · exact a.moves (changeFlv_moves .nil _ _)
  · exact a

theorem startBringUp_changes (q : execStartBringUp s = .next t) : Changes .startBringUp s t := by
  unfold execStartBringUp at q
  split at q
  · exact runCommand_changes rfl (fun _ => Changes.nil.moves (enterProbe_moves .nil)) q
  · refine runCommand_changes rfl (fun _ => ?_) q
    split
    · exact Changes.nil.moves (restartWalk_moves .nil)
    · exact .nil
  · exact runCommand_changes rfl (fun h => by cases h) q

theorem restartLink_changes (q : execRestartLink s = .next t) : Changes .restartLink s t :=
  runCommand_changes rfl (fun _ => Changes.nil.moves (linkRestart_moves .nil)) q

theorem lookup_changes {a b d e f g : Byte} (q : execLookup a b d e f g s = .next t) :
    Changes (.lookup a b d e f g) s t := by
  unfold execLookup at q
  split at q <;> exact answer_changes rfl q

theorem startStream_changes {x : Option Stream} (hc : c.ofHost = true) (q : startStream s x = .next t) :
    Changes c s t := by
  unfold startStream at q
  split at q
  · cases q; exact .nil
  · split at q <;> cases q <;> exact Changes.nil.snoc (.response _ _ hc)

theorem streamImage_changes (q : execStreamImage s = .next t) : Changes .streamImage s t := by
  unfold execStreamImage at q
  split at q
  · cases q; exact .nil
  · split at q
    · cases q; exact Changes.nil.snoc (.response _ _ rfl)
    · cases q; exact .nil

theorem takeChanges_changes (q : execTakeChanges s = .next t) : Changes .takeChanges s t :=
  reply_changes rfl ((Changes.nil.moves (setAttention_moves .nil (List.drop_sublist ..))).snoc .pins) q

theorem incomplete_changes {x : Incomplete} (q : execIncompleteTransaction x s = .next t) :
    Changes (.incompleteTransaction x) s t := by
  unfold execIncompleteTransaction at q
  split at q
  · cases q; exact .nil
  · dsimp only at q
    cases q
    refine Changes.snoc ?_ (.response _ _ rfl)
    split
    · exact (Changes.nil.moves (raise_moves .nil .frameError)).snoc .pins
    · exact .nil

theorem bind_changes {a g x : Byte} (q : execBind a g x s = .next t) : Changes (.bind a g x) s t := by
  refine runNamed_changes rfl (fun k r n ok => ?_) q
  cases hx : srcOf x with
  | none => rw [hx] at ok; cases ok
  | some y =>
      rw [hx] at ok
      dsimp only at ok ⊢
      split
      · exact .nil
      · next nt =>
          refine Changes.nil.moves (hostTie_moves .nil k (some y) fun z hz => ?_)
          cases hz
          unfold State.bindCheck at ok
          split at ok
          · cases ok
          · split at ok
            · cases ok
            · next room =>
                have : (r.tie == some y) = false := by simpa using nt
                simp only [this, Bool.not_false, Bool.true_and, Bool.not_eq_true', Bool.not_eq_false] at room
                simpa [State.listHasRoom] using room

theorem unbind_changes {a g : Byte} (q : execUnbind a g s = .next t) : Changes (.unbind a g) s t :=
  runNamed_changes rfl (fun k _ _ _ => Changes.nil.moves (hostTie_moves .nil k none fun _ h => by cases h)) q

theorem parameterCheck_live {p : Nat} {v : Half} {r : Record} (ok : parameterCheck p v r = none) :
    r.isRetired = false := by
  cases h : r.isRetired with
  | false => rfl
  | true =>
      unfold parameterCheck guardParameterCheck at ok
      simp only [h, Bool.true_or, if_true] at ok
      split at ok <;> cases ok

theorem setParameter_changes {a g p : Byte} {v : Half} (q : execSetParameter a g p v s = .next t) :
    Changes (.setParameter a g p v) s t :=
  runNamed_changes rfl (fun _ _ n ok => Changes.nil.moves
    (setParameter_moves .nil (named_live n (parameterCheck_live ok)) _ _)) q

theorem driveCheck_live {x : Option OutWord} {r : Record} (ok : driveCheck x r = none) : r.isRetired = false := by
  unfold driveCheck at ok
  split at ok
  · cases ok
  · split at ok
    · cases ok
    · split at ok
      · cases ok
      · next u =>
          cases h : r.state <;> simp_all [RecState.usable, Record.isRetired]

theorem drive_changes {a g x : Byte} (q : execDrive a g x s = .next t) : Changes (.drive a g x) s t := by
  refine runNamed_changes rfl (fun k r n ok => ?_) q
  cases hx : OutWord.ofCode x.toNat with
  | none => exact .nil
  | some w => exact Changes.nil.moves (hostDrive_moves .nil (named_live n (driveCheck_live ok)) w)

theorem setDemand_changes {x d : Byte} (q : execSetDemand x d s = .next t) : Changes (.setDemand x d) s t := by
  unfold execSetDemand at q
  split at q
  · exact runCommand_changes rfl (fun _ => Changes.nil.moves (changeSource_moves .nil _ _)) q
  · exact runCommand_changes rfl (fun h => by cases h) q

theorem prove_changes {a g : Byte} (q : execProve a g s = .next t) : Changes (.prove a g) s t :=
  runNamed_changes rfl (fun k _ _ _ => Changes.nil.moves
    (setProvingList_moves (claim_moves .nil k g _ putBack_keeps) _)) q

theorem retire_changes {a g : Byte} (q : execRetire a g s = .next t) : Changes (.retire a g) s t :=
  runNamed_changes rfl (fun k r _ _ => Changes.nil.moves (hostRetire_moves .nil k r)) q

theorem forget_changes {a g : Byte} (q : execForget a g s = .next t) : Changes (.forget a g) s t :=
  runNamed_changes rfl (fun k _ _ _ => (Changes.nil.moves (setAttention_moves .nil List.filter_sublist)).snoc
    (.free k { s.slot k with record := none } ⟨a, g, rfl⟩ rfl (by simp [State.setAttention]))) q

theorem recatalogue_changes {p : Byte} (q : execRecatalogue p s = .next t) : Changes (.recatalogue p) s t :=
  runCommand_changes rfl (fun _ => Changes.nil.moves (startRecat_moves .nil _)) q

/-! ### Commands of the stored list -/

theorem writeEnable_changes (q : execWriteEnable s = .next t) : Changes .writeEnable s t := by
  unfold execWriteEnable at q
  split at q
  · exact answer_changes rfl q
  · split at q
    · exact answer_changes rfl q
    · exact reply_changes rfl (Changes.nil.snoc (.latch true rfl)) q

theorem writeDisable_changes (q : execWriteDisable s = .next t) : Changes .writeDisable s t := by
  unfold execWriteDisable at q
  split at q
  · exact answer_changes rfl q
  · exact reply_changes rfl (Changes.nil.snoc (.latch false rfl)) q

theorem writeCommand_changes {b : Bool} {o : Option HostResult} (hl : c.touchesLatch = true)
    (h : s.nvBusy = false → o = none → Changes c s u) : Changes c s (s.writeCommand b o u).1 := by
  have k : Changes c s (s.setWel false) := Changes.nil.snoc (.latch false hl)
  unfold State.writeCommand
  split
  · exact .nil
  · next free =>
      split
      · exact k
      · split
        · exact .nil
        · split
          · exact k
          · split
            · exact k
            · exact h (by simpa using free) rfl

theorem runWrite_changes {a : State × HostResult} (hc : c.ofHost = true) (h : Changes c s a.1)
    (q : runWrite s a = .next t) : Changes c s t := by
  refine reply_changes hc ?_ q
  split
  · exact h.finish true
  · exact h

theorem entryCommand_changes {x : Byte} {o : KtlEntry → Option HostResult} {p : Fin 16 → KtlEntry → State}
    (hl : c.touchesLatch = true)
    (h : ∀ i, s.nvBusy = false → o (s.ktlEntry i) = none → Changes c s (p i (s.ktlEntry i))) :
    Changes c s (s.entryCommand x o p).1 := by
  unfold State.entryCommand
  split
  · exact writeCommand_changes hl (h _)
  · exact writeCommand_changes hl fun _ _ => .nil

theorem rememberUnit_changes {n : Byte} (q : execRememberUnit n s = .next t) : Changes (.rememberUnit n) s t :=
  runWrite_changes rfl (writeCommand_changes rfl fun b n => Changes.nil.moves (remember_moves .nil b n)) q

theorem eraseEntry_changes {n : Byte} (q : execEraseEntry n s = .next t) : Changes (.eraseEntry n) s t :=
  runWrite_changes rfl (entryCommand_changes rfl fun _ b _ => Changes.nil.moves (placeErase_moves .nil b _ _)) q

theorem pinEntry_changes {n : Byte} (q : execPinEntry n s = .next t) : Changes (.pinEntry n) s t := by
  refine runWrite_changes rfl (entryCommand_changes rfl fun i b o => ?_) q
  refine Changes.nil.moves (placeRewrite_moves .nil b (x := .pin) (by simp) i (fun n => ?_) (e := _) (by simp) rfl)
  simp [n] at o

theorem unpinEntry_changes {n : Byte} (q : execUnpinEntry n s = .next t) : Changes (.unpinEntry n) s t := by
  refine runWrite_changes rfl (entryCommand_changes rfl fun i b o => ?_) q
  refine Changes.nil.moves (placeRewrite_moves .nil b (x := .unpin) (by simp) i (fun n => ?_) (e := _) (by simp) rfl)
  simp [n] at o

theorem eraseList_changes (q : execEraseList s = .next t) : Changes .eraseList s t := by
  refine runWrite_changes rfl (writeCommand_changes rfl fun b _ => ?_) q
  unfold State.eraseAll
  split
  · exact ((Changes.nil.snoc (.latch false rfl)).moves (raise_moves .nil _)).snoc (.last _ rfl)
  · exact Changes.nil.moves (placeErase_moves .nil b _ _)

theorem ktlRead_changes {n : Byte} (q : execKtlRead n s = .next t) : Changes (.ktlRead n) s t := by
  unfold execKtlRead at q
  split at q
  · exact answer_changes rfl q
  · split at q <;> exact answer_changes rfl q

/-- The end of the scan takes what the memory holds. -/
theorem endScan_kept (hs : s.ktl.scanning = true) (k : s.ktl.kept) : s.endScan.ktl.kept :=
  ⟨k.1, fun _ => rfl, fun q => (by cases q), fun w (hw : s.ktl.write = some w) => by rw [(k.2.2.1 hs).1] at hw; cases hw⟩

theorem cell_taken {e : KtlEntry} (h : e.state ≠ .empty) : e.cell.taken = e := by
  simp [KtlCell.taken, KtlCell.sound, KtlEntry.cell, h]

/-- An EMPTY or a torn cell is taken as EMPTY. -/
theorem torn_taken (e : KtlEntry) : e.tornCell.taken = KtlEntry.blank := by
  have : e.tornCell.sound = false := by
    have : ~~~ e.check ≠ e.check := by
      generalize e.check = x
      intro q
      have := congrArg (fun y : Half => y.getLsbD 0) q
      simp at this
    simp [KtlCell.sound, KtlEntry.tornCell, this]
  simp [KtlCell.taken, this]

/-- The list after some entries of a write have been read back. -/
def readBackKtl (content : KtlEntry) (bad : BitVec 16) (k : Ktl) (i : Fin 16) : Ktl :=
  if bad.getLsbD i.val then
    { k with cells := k.cells.set i content.tornCell, entries := k.entries.set i KtlEntry.blank }
  else { k with cells := k.cells.set i content.cell, entries := k.entries.set i content }

theorem readBacks_ktl (content : KtlEntry) (bad : BitVec 16) (l : List (Fin 16)) (s : State) :
    l.foldl (State.readBack content bad) s = s.setKtl (l.foldl (readBackKtl content bad) s.ktl) := by
  induction l generalizing s with
  | nil => rfl
  | cons i l ih =>
      have e : State.readBack content bad s i = s.setKtl (readBackKtl content bad s.ktl i) := by
        unfold State.readBack readBackKtl
        split <;> rfl
      rw [List.foldl_cons, ih, e]
      rfl

/-- The entries a write writes: its target, or for ERASE LIST those it erases. -/
theorem written_target {w : KtlWrite} {i : Fin 16} (h : i ∈ s.written w) : w.kind = .eraseList ∨ i = w.target := by
  unfold State.written at h
  split at h
  · next e => exact .inl e
  · exact .inr (by simpa using h)

/-- Reading back keeps the identities distinct. -/
theorem readBacks_kept {k : Ktl} (h : k.kept) {w : KtlWrite} (hw : k.write = some w) (bad : BitVec 16) (l : List (Fin 16))
    (hl : ∀ i ∈ l, w.kind = .eraseList ∨ i = w.target) : (l.foldl (readBackKtl w.content bad) k).kept := by
  induction l generalizing k with
  | nil => exact h
  | cons i l ih =>
      have hw' : (readBackKtl w.content bad k i).write = some w := by
        unfold readBackKtl
        split <;> exact hw
      refine ih ?_ hw' fun j hj => hl j (by simp [hj])
      have hs : k.scanning = false := by
        cases q : k.scanning with
        | false => rfl
        | true => rw [(h.2.2.1 q).1] at hw; cases hw
      obtain ⟨a, b, c, d⟩ := h
      have hb := b hs
      have hd := d w hw
      have hi := hl i (by simp)
      -- the cell's contents, and the entry that takes them
      have key : ∀ (x : KtlCell) (e : KtlEntry), x.taken = e →
          (e.state ≠ .empty → e.identity = w.content.identity ∧ w.content.state ≠ .empty) →
          ({ k with cells := k.cells.set i x, entries := k.entries.set i e } : Ktl).kept := by
        intro x e hx he
        have other : e.state ≠ .empty → ∀ j : Fin 16, j ≠ i → k.cells[j].taken.state ≠ .empty →
            k.cells[j].taken.identity ≠ e.identity := by
          intro q j hj hn
          have q := he q
          have f := (hd.resolve_left fun r => q.2 (by rw [r]; rfl)).2
          have : i = w.target := hi.resolve_left f.1
          have g := f.2 j (this ▸ hj)
          rw [hb] at g
          simp only [Fin.getElem_fin, Vector.getElem_map] at g hn ⊢
          rw [q.1]
          exact g hn
        have cell : ∀ j : Fin 16, (k.cells.set i x)[j].taken = if j = i then e else k.cells[j].taken := by
          intro j
          by_cases q : j = i
          · subst q; simp [hx]
          · have : (i : Nat) ≠ j := fun r => q (Fin.ext r.symm)
            simp [q, this]
        refine ⟨?_, ?_, ?_, ?_⟩
        · intro p q hpq hp hq
          show (k.cells.set i x)[p].taken.identity ≠ (k.cells.set i x)[q].taken.identity
          have hp : (k.cells.set i x)[p].taken.state ≠ .empty := hp
          have hq : (k.cells.set i x)[q].taken.state ≠ .empty := hq
          rw [cell] at hp hq ⊢
          rw [cell]
          by_cases z : p = i
          · rw [if_pos z] at hp ⊢
            have zq : q ≠ i := fun r => hpq (z.trans r.symm)
            rw [if_neg zq] at hq ⊢
            exact (other hp q zq hq).symm
          · rw [if_neg z] at hp ⊢
            by_cases y : q = i
            · rw [if_pos y] at hq ⊢
              exact other hq p z hp
            · rw [if_neg y] at hq ⊢
              exact a p q hpq hp hq
        · intro _
          show k.entries.set i e = (k.cells.set i x).map KtlCell.taken
          rw [hb]
          ext1 j hj
          have := cell ⟨j, hj⟩
          simp only [Fin.getElem_fin] at this
          rw [Vector.getElem_map, this, Vector.getElem_set]
          by_cases q : (i : Nat) = j
          · simp [q, Fin.ext_iff]
          · have : ¬ (⟨j, hj⟩ : Fin 16) = i := fun r => q (by rw [← r])
            simp [q, this]
        · intro q
          have q : k.scanning = true := q
          rw [hs] at q; cases q
        · intro v hv
          have hv : k.write = some v := hv
          rw [hw] at hv
          cases hv
          refine hd.imp_right fun f => ⟨f.1, f.2.1, fun j hj hn => ?_⟩
          have hit : i = w.target := hi.resolve_left f.2.1
          have : (i : Nat) ≠ j := fun r => hj (by rw [← hit]; exact Fin.ext r.symm)
          have hn : (k.entries.set i e)[j].state ≠ .empty := hn
          show (k.entries.set i e)[j].identity ≠ _
          simp only [Fin.getElem_fin, Vector.getElem_set, this, if_false] at hn ⊢
          exact f.2.2 j hj hn
      unfold readBackKtl
      split
      · exact key _ _ (torn_taken _) fun q => absurd rfl q
      · rcases hd with q | q
        · rw [q]
          exact key _ _ (by simp [KtlCell.taken, KtlEntry.cell, KtlEntry.blank]) fun r => absurd rfl r
        · exact key _ _ (cell_taken q.1) fun _ => ⟨rfl, q.1⟩

theorem ktlScanEnd_changes (q : execKtlScanEnd s = .next t) : Changes .ktlScanEnd s t := by
  refine runEvent_changes (fun u hu => ?_) q
  split at hu
  · cases hu
    next hs =>
    have a : Changes .ktlScanEnd s s.endScan := Changes.nil.snoc (.scanned _ rfl rfl rfl (endScan_kept hs))
    exact a.moves (answerWaiting_moves .nil)
  · cases hu

theorem endWrite_changes {b : BitVec 16} {w : KtlWrite} (hw : s.ktl.write = some w) :
    Changes (.ktlWriteEnd b) s (s.endWrite w b) := by
  have a : Changes (.ktlWriteEnd b) s (((s.written w).foldl (State.readBack w.content b) s).setWel false) := by
    rw [readBacks_ktl]
    exact (Changes.nil.snoc (.written _ ⟨b, rfl⟩ fun k => readBacks_kept k hw b _ fun i hi => written_target hi)).snoc
      (.latch false rfl)
  have e : ∀ u : State, Changes (.ktlWriteEnd b) s u → Changes (.ktlWriteEnd b) s (u.setKtl { u.ktl with write := none }) :=
    fun u h => h.snoc (.written _ ⟨b, rfl⟩ fun k =>
      ⟨k.1, k.2.1, fun q => ⟨rfl, (k.2.2.1 q).2⟩, fun w hw => by cases hw⟩)
  unfold State.endWrite
  dsimp only
  refine e _ ?_
  split
  · exact (a.moves (raise_moves .nil _)).snoc (.last _ rfl)
  · split
    · exact a
    · exact (a.moves (raise_moves .nil _)).snoc (.last _ rfl)

theorem ktlWriteEnd_changes {b : BitVec 16} (q : execKtlWriteEnd b s = .next t) : Changes (.ktlWriteEnd b) s t := by
  refine runEvent_changes (fun u hu => ?_) q
  cases hw : s.ktl.write with
  | none => rw [hw] at hu; cases hu
  | some w =>
      rw [hw] at hu
      cases hu
      exact (endWrite_changes hw).moves (answerWaiting_moves .nil)

/-! ### Coupling -/

theorem monitorCheck_changes (h : Changes c s t) (hc : c ∈ [.coupleSenseAsserted, .coupleSenseWithdrawn,
    .linePresentAsserted, .linePresentWithdrawn, .settleTimerExpiry, .partTimerExpiry, .faultTimerExpiry]) :
    Changes c s t.monitorCheck := by
  unfold State.monitorCheck
  split
  · exact h.snoc (.monitor _ hc)
  · exact h

theorem enterUncoupled_changes (h : Changes c s t) (hc : c ∈ [.coupleSenseAsserted, .coupleSenseWithdrawn,
    .linePresentAsserted, .linePresentWithdrawn, .settleTimerExpiry, .partTimerExpiry, .faultTimerExpiry]) :
    Changes c s t.enterUncoupled :=
  monitorCheck_changes (h.snoc (.monitor _ hc)) hc

theorem faultIfAbsent_moves {ad : Bool} (k : Moves (.more (.event ad)) s t) :
    Moves (.more (.event ad)) s t.faultIfAbsent := ite_moves (enterFault_moves k) k

theorem coupleSenseAsserted_changes (q : execCoupleSenseAsserted s = .next t) : Changes .coupleSenseAsserted s t := by
  refine runEvent_changes (fun u hu => ?_) q
  split at hu
  · cases hu
  · cases hu
    have hc : Instr.coupleSenseAsserted ∈ [.coupleSenseAsserted, .coupleSenseWithdrawn, .linePresentAsserted,
        .linePresentWithdrawn, .settleTimerExpiry, .partTimerExpiry, .faultTimerExpiry] := by simp
    have a : Changes .coupleSenseAsserted s (s.setCmon { s.cmon with sense := true }) := Changes.nil.snoc (.monitor _ hc)
    unfold State.senseAsserted
    dsimp only
    split
    · exact monitorCheck_changes a hc
    · split
      · exact enterUncoupled_changes a hc
      · have b := (a.snoc (.monitor { (s.setCmon { s.cmon with sense := true }).cmon with
            state := .coupled, part := none } hc)).moves (faultIfAbsent_moves .nil)
        unfold State.returnCoupled
        dsimp only
        split
        · exact b.moves (leaveIdle_moves (setBue_moves .nil _))
        · exact b
    · exact a

theorem coupleSenseWithdrawn_changes (q : execCoupleSenseWithdrawn s = .next t) :
    Changes .coupleSenseWithdrawn s t := by
  refine runEvent_changes (fun u hu => ?_) q
  split at hu
  · cases hu
    have hc : Instr.coupleSenseWithdrawn ∈ [.coupleSenseAsserted, .coupleSenseWithdrawn, .linePresentAsserted,
        .linePresentWithdrawn, .settleTimerExpiry, .partTimerExpiry, .faultTimerExpiry] := by simp
    have a : Changes .coupleSenseWithdrawn s (s.setCmon { s.cmon with sense := false }) := Changes.nil.snoc (.monitor _ hc)
    unfold State.senseWithdrawn
    dsimp only
    split
    · exact enterUncoupled_changes a hc
    · exact a.snoc (.monitor _ hc)
    · exact a
  · cases hu

theorem linePresentAsserted_changes (q : execLinePresentAsserted s = .next t) : Changes .linePresentAsserted s t := by
  refine runEvent_changes (fun u hu => ?_) q
  split at hu
  · cases hu
  · cases hu
    exact monitorCheck_changes (Changes.nil.snoc (.present true (by simp))) (by simp)

theorem linePresentWithdrawn_changes (q : execLinePresentWithdrawn s = .next t) :
    Changes .linePresentWithdrawn s t := by
  refine runEvent_changes (fun u hu => ?_) q
  split at hu
  · cases hu
    have a : Changes .linePresentWithdrawn s (s.setLinePresent false) := Changes.nil.snoc (.present false (by simp))
    unfold State.lineAbsent
    dsimp only
    split
    · exact enterUncoupled_changes a (by simp)
    · exact a.moves (faultIfAbsent_moves .nil)
    · exact a
  · cases hu

/-- An event at the moment of a timer. -/
theorem timed_changes {x : Option Nat} {f : State → State} (hc : c.ofHost = false)
    (h : ∀ n, Changes c s (s.advanceTo n) → Changes c s (f (s.advanceTo n)))
    (q : runEvent s (x.map fun n => f (s.advanceTo n)) = .next t) : Changes c s t := by
  refine runEvent_changes (fun u hu => ?_) q
  cases x with
  | none => cases hu
  | some n => cases hu; exact h n (Changes.nil.advance n hc)

theorem settleTimerExpiry_changes (q : execSettleTimerExpiry s = .next t) : Changes .settleTimerExpiry s t :=
  timed_changes (f := State.enterCoupled) rfl (fun _ h => (h.snoc (.monitor _ (by simp))).moves
    (leaveIdle_moves (enterReady_moves (raise_moves .nil _) _))) q

theorem partTimerExpiry_changes (q : execPartTimerExpiry s = .next t) : Changes .partTimerExpiry s t :=
  timed_changes (f := State.partingTeardown) rfl (fun _ h =>
    (enterUncoupled_changes (h.moves (teardown_moves .nil .uncoupled)) (by simp)).moves (raise_moves .nil _)) q

theorem monitorLineLoss_changes (h : Changes .faultTimerExpiry s t) : Changes .faultTimerExpiry s t.monitorLineLoss := by
  unfold State.monitorLineLoss
  split
  · exact enterUncoupled_changes h (by simp)
  · exact h.snoc (.monitor _ (by simp))
  · exact h

theorem faultTimerExpiry_changes (q : execFaultTimerExpiry s = .next t) : Changes .faultTimerExpiry s t :=
  timed_changes (f := State.lineLossTeardown) rfl (fun _ h =>
    monitorLineLoss_changes (h.moves (teardown_moves .nil .line))) q

/-! ### The line -/

theorem gapEnd_changes (q : execGapEnd s = .next t) : Changes .gapEnd s t := by
  refine runEvent_changes (fun u hu => ?_) q
  split at hu
  · exact (Option.some.inj hu) ▸ (Changes.nil.advance _ rfl).moves (gapPassed_moves .nil)
  · cases hu

theorem frameEnd_changes (q : execFrameEnd s = .next t) : Changes .frameEnd s t := by
  refine runEvent_changes (fun u hu => ?_) q
  split at hu
  · exact (Option.some.inj hu) ▸ (Changes.nil.advance _ rfl).moves (orphanDone_moves .nil)
  · split at hu
    · exact (Option.some.inj hu) ▸ (Changes.nil.advance _ rfl).moves (frameDone_moves .nil ‹_›)
    · cases hu
  · cases hu

theorem replyWindowEnd_changes (q : execReplyWindowEnd s = .next t) : Changes .replyWindowEnd s t := by
  refine runEvent_changes (fun u hu => ?_) q
  split at hu
  · split at hu
    · exact (Option.some.inj hu) ▸ (Changes.nil.advance _ rfl).moves (endAttempt_silent (restartGap_moves .nil) ‹_› rfl)
    · cases hu
  · cases hu

/-- A reply seen belongs to the attempt in flight. -/
theorem replyBegun_flight {f : InFlight} {n : Nat} (h : s.replyBegun = some (f, n)) : s.tdl.inFlight = some f := by
  unfold State.replyBegun at h
  split at h
  · next hf =>
      split at h
      · cases h; exact hf
      · split at h
        · cases h; exact hf
        · cases h
      · cases h
  · cases h

theorem replyEnding_flight {f : InFlight} {n : Nat} (h : s.replyEnding = some (f, n)) : s.tdl.inFlight = some f := by
  unfold State.replyEnding at h
  split at h
  · cases h
  · exact replyBegun_flight h

theorem replyFirstEdge_changes (q : execReplyFirstEdge s = .next t) : Changes .replyFirstEdge s t := by
  refine runEvent_changes (fun u hu => ?_) q
  split at hu
  · next h =>
      exact (Option.some.inj hu) ▸ Changes.nil.moves
        (setStray_moves (restartGap_moves (setStage_moves .nil (replyBegun_flight h) _)) _)
  · exact (Option.some.inj hu) ▸ Changes.nil.moves (setStray_moves (restartGap_moves .nil) _)

theorem updateNextBit_changes {l : List Byte} (h : Changes (.replyComplete l) s t) (r : Request) (o : ReqOutcome) :
    Changes (.replyComplete l) s (t.updateNextBit r o) := by
  unfold State.updateNextBit
  split
  · split
    · exact h.snoc (.bit _ _ ⟨l, rfl⟩)
    · exact h.snoc (.bit _ _ ⟨l, rfl⟩)
    · exact h
  · exact h

theorem endAttempt_changes {l : List Byte} (h : Changes (.replyComplete l) s t) {f : InFlight}
    (hf : t.tdl.inFlight = some f) (o : ReqOutcome) : Changes (.replyComplete l) s (t.endAttempt f o) := by
  refine Changes.trans ?_ (Moves.replyChanges ⟨l, rfl⟩ (endAttempt_moves t hf o))
  unfold State.decided
  split
  · exact h
  · exact h
  · exact updateNextBit_changes (h.moves (endFlight_moves .nil)) _ _

theorem replyComplete_changes {l : List Byte} (q : execReplyComplete l s = .next t) :
    Changes (.replyComplete l) s t := by
  refine runEvent_changes (fun u hu => ?_) q
  split at hu
  · next h =>
      have a : Changes (.replyComplete l) s s.restartGap := Changes.nil.moves (restartGap_moves .nil)
      refine (Option.some.inj hu) ▸ ?_
      unfold State.takeReply
      split <;> exact endAttempt_changes a (replyEnding_flight h) _
  · exact (Option.some.inj hu) ▸ Changes.nil.moves (setStray_moves (restartGap_moves .nil) _)

theorem replyBroken_changes {m : Bool} (q : execReplyBroken m s = .next t) : Changes (.replyBroken m) s t := by
  refine runEvent_changes (fun u hu => ?_) q
  split at hu
  · next h => exact (Option.some.inj hu) ▸ Changes.nil.moves (breakReply_moves .nil (replyEnding_flight h) m)
  · exact (Option.some.inj hu) ▸ Changes.nil.moves (setStray_moves (restartGap_moves .nil) _)

theorem lineActivity_changes (q : execLineActivity s = .next t) : Changes .lineActivity s t :=
  runEvent_changes (fun _ hu => (Option.some.inj hu) ▸ Changes.nil.moves (restartGap_moves .nil)) q

theorem lineRequest_changes (q : execLineRequest s = .next t) : Changes .lineRequest s t := by
  refine runEvent_changes (fun u hu => ?_) q
  split at hu
  · exact (Option.some.inj hu) ▸ Changes.nil.moves (lineRequested_moves .nil)
  · cases hu

theorem toolLineReturn_changes (q : execToolLineReturn s = .next t) : Changes .toolLineReturn s t := by
  refine runEvent_changes (fun u hu => ?_) q
  split at hu
  · exact (Option.some.inj hu) ▸ Changes.nil.moves (enterReady_moves (restartGap_moves .nil) _)
  · cases hu

theorem yieldLimitExpiry_changes (q : execYieldLimitExpiry s = .next t) : Changes .yieldLimitExpiry s t :=
  timed_changes (f := State.startReclaim) rfl (fun _ h => h.moves (startReclaim_moves .nil)) q

theorem reclaimMarkEnd_changes (q : execReclaimMarkEnd s = .next t) : Changes .reclaimMarkEnd s t := by
  refine runEvent_changes (fun u hu => ?_) q
  split at hu
  · exact (Option.some.inj hu) ▸ (Changes.nil.advance _ rfl).moves
      (line_moves (restartGap_moves .nil) _)
  · cases hu

theorem reclaimSuccess_changes (q : execReclaimSuccess s = .next t) : Changes .reclaimSuccess s t := by
  refine runEvent_changes (fun u hu => ?_) q
  split at hu
  · exact (Option.some.inj hu) ▸ ((Changes.nil.advance _ rfl).advance _ rfl).moves (enterReady_moves .nil _)
  · cases hu

theorem reclaimTimeout_changes (q : execReclaimTimeout s = .next t) : Changes .reclaimTimeout s t := by
  refine runEvent_changes (fun u hu => ?_) q
  split at hu
  · exact (Option.some.inj hu) ▸ (Changes.nil.advance _ rfl).moves (enterFault_moves .nil)
  · cases hu

theorem lineRecovery_changes (q : execLineRecovery s = .next t) : Changes .lineRecovery s t := by
  refine runEvent_changes (fun u hu => ?_) q
  split at hu
  · exact (Option.some.inj hu) ▸ (Changes.nil.advance _ rfl).moves (enterReady_moves .nil _)
  · cases hu

/-! ### The other blocks -/

theorem presenceTick_changes (q : execPresenceTick s = .next t) : Changes .presenceTick s t :=
  timed_changes (f := State.tick) rfl (fun _ h => h.moves (tick_moves .nil)) q

theorem lastHeardTimeout_changes {p : Fin 12} (q : execLastHeardTimeout p s = .next t) :
    Changes (.lastHeardTimeout p) s t :=
  timed_changes (f := fun u => u.silenced (p.val + 1)) rfl (fun _ h => h.moves (silenced_moves .nil _)) q

theorem addressHoldExpiry_changes {a : Addr} (q : execAddressHoldExpiry a s = .next t) :
    Changes (.addressHoldExpiry a) s t := by
  refine runEvent_changes (fun u hu => ?_) q
  cases h : s.bue.held.find? fun x => x.1 == a with
  | none => rw [h] at hu; cases hu
  | some x =>
      rw [h] at hu
      exact (Option.some.inj hu) ▸ (Changes.nil.advance _ rfl).moves (releaseHold_moves .nil a)

theorem frontierTimerExpiry_changes (q : execFrontierTimerExpiry s = .next t) : Changes .frontierTimerExpiry s t :=
  timed_changes (f := State.frontierOut) rfl (fun _ h => h.moves (frontierOut_moves .nil)) q

theorem turnEdge_changes {i : Fin 10} {b : Bool} (h : Changes (.demandInputChange i b) s t) {x : TurnSide}
    (hx : turnSideOf (inputSrc i) = some x) (r : Bool) :
    Changes (.demandInputChange i b) s (t.turnEdge x r) := by
  unfold State.turnEdge
  split
  · exact (h.snoc (.mode x (t.hcp.cfg.follow x) ⟨i, b, rfl, hx⟩)).moves (switchMode_moves t x r)
  · split
    · exact h.moves (followEdge_moves .nil x r)
    · exact h.moves (changeSource_moves .nil _ _)

theorem demandInputChange_changes {i : Fin 10} {b : Bool} (q : execDemandInputChange i b s = .next t) :
    Changes (.demandInputChange i b) s t := by
  refine runEvent_changes (fun u hu => ?_) q
  split at hu
  · cases hu
  · refine (Option.some.inj hu) ▸ ?_
    have a : Changes (.demandInputChange i b) s
        { s with drt := { s.drt with inputs := s.drt.inputs.set i b } } := Changes.nil.snoc (.inputs _ ⟨i, b, rfl⟩)
    unfold State.inputChange
    split
    · exact .nil
    · refine Changes.moves ?_ (recombine_moves .nil)
      split
      · next hx => exact turnEdge_changes a hx _
      · exact a.moves (changeSource_moves .nil _ _)

theorem followStretchEnd_changes {x : TurnSide} (q : execFollowStretchEnd x s = .next t) :
    Changes (.followStretchEnd x) s t := by
  refine runEvent_changes (fun u hu => ?_) q
  split at hu
  · cases h : (s.capture x).lastRise with
    | none => rw [h] at hu; cases hu
    | some n =>
        rw [h] at hu
        exact (Option.some.inj hu) ▸ (Changes.nil.advance _ rfl).moves (endStretch_moves .nil x)
  · cases hu

theorem phaseEnd_changes {g : Generator} (q : execPhaseEnd g s = .next t) : Changes (.phaseEnd g) s t := by
  refine runEvent_changes (fun u hu => ?_) q
  cases h : (s.gen g).run with
  | none => rw [h] at hu; cases hu
  | some r =>
      rw [h] at hu
      exact (Option.some.inj hu) ▸ (Changes.nil.advance _ rfl).moves (endPhase_moves .nil g)

theorem deadTimerExpiry_changes {g : Fin 6} (q : execDeadTimerExpiry g s = .next t) :
    Changes (.deadTimerExpiry g) s t :=
  timed_changes (f := fun u => u.guardDeadOut g) rfl (fun _ h => h.moves (guardDeadOut_moves .nil g)) q

theorem runLimitExpiry_changes {g : Fin 6} (q : execRunLimitExpiry g s = .next t) :
    Changes (.runLimitExpiry g) s t :=
  timed_changes (f := fun u => u.guardLimitOut g) rfl (fun _ h => h.moves (guardLimitOut_moves .nil g)) q

theorem confirmDeadline_changes {h : Handle} (q : execConfirmDeadline h s = .next t) :
    Changes (.confirmDeadline h) s t :=
  timed_changes (f := State.callPass) rfl (fun _ k => k.moves (callPass_moves .nil)) q

/-! ### Every command -/

/-- What a command may do, device resets and the RESET input apart. -/
theorem exec_changes (h : c.ofReset = false) (q : exec c s = .next t) : Changes c s t := by
  cases c with
  | readStatus => exact answer_changes rfl q
  | ackEvents m => exact ackEvents_changes q
  | setEventMask m => exact setEventMask_changes q
  | configure n v => exact configure_changes q
  | readConfig => exact answer_changes rfl q
  | startBringUp => exact startBringUp_changes q
  | restartLink => exact restartLink_changes q
  | lookup => exact lookup_changes q
  | fetchRecord a => exact startStream_changes rfl q
  | fetchNode a => exact startStream_changes rfl q
  | takeChanges => exact takeChanges_changes q
  | bind => exact bind_changes q
  | unbind => exact unbind_changes q
  | setParameter => exact setParameter_changes q
  | drive => exact drive_changes q
  | setDemand => exact setDemand_changes q
  | prove => exact prove_changes q
  | retire => exact retire_changes q
  | forget => exact forget_changes q
  | recatalogue => exact recatalogue_changes q
  | writeEnable => exact writeEnable_changes q
  | writeDisable => exact writeDisable_changes q
  | rememberUnit => exact rememberUnit_changes q
  | eraseEntry => exact eraseEntry_changes q
  | pinEntry => exact pinEntry_changes q
  | unpinEntry => exact unpinEntry_changes q
  | eraseList => exact eraseList_changes q
  | ktlRead => exact ktlRead_changes q
  | unknownCommand => exact answer_changes rfl q
  | incompleteTransaction => exact incomplete_changes q
  | streamImage => exact streamImage_changes q
  | resetFall => cases h
  | resetRise => cases h
  | deviceReset => cases h
  | supplyReset => cases h
  | deviceResetEnd => cases h
  | ktlScanEnd => exact ktlScanEnd_changes q
  | ktlWriteEnd => exact ktlWriteEnd_changes q
  | demandInputChange => exact demandInputChange_changes q
  | followStretchEnd => exact followStretchEnd_changes q
  | coupleSenseAsserted => exact coupleSenseAsserted_changes q
  | coupleSenseWithdrawn => exact coupleSenseWithdrawn_changes q
  | linePresentAsserted => exact linePresentAsserted_changes q
  | linePresentWithdrawn => exact linePresentWithdrawn_changes q
  | settleTimerExpiry => exact settleTimerExpiry_changes q
  | partTimerExpiry => exact partTimerExpiry_changes q
  | faultTimerExpiry => exact faultTimerExpiry_changes q
  | lineRequest => exact lineRequest_changes q
  | toolLineReturn => exact toolLineReturn_changes q
  | yieldLimitExpiry => exact yieldLimitExpiry_changes q
  | reclaimSuccess => exact reclaimSuccess_changes q
  | reclaimTimeout => exact reclaimTimeout_changes q
  | lineRecovery => exact lineRecovery_changes q
  | gapEnd => exact gapEnd_changes q
  | frameEnd => exact frameEnd_changes q
  | replyWindowEnd => exact replyWindowEnd_changes q
  | replyComplete => exact replyComplete_changes q
  | replyBroken => exact replyBroken_changes q
  | presenceTick => exact presenceTick_changes q
  | lastHeardTimeout => exact lastHeardTimeout_changes q
  | addressHoldExpiry => exact addressHoldExpiry_changes q
  | frontierTimerExpiry => exact frontierTimerExpiry_changes q
  | phaseEnd => exact phaseEnd_changes q
  | deadTimerExpiry => exact deadTimerExpiry_changes q
  | runLimitExpiry => exact runLimitExpiry_changes q
  | confirmDeadline => exact confirmDeadline_changes q
  | replyFirstEdge => exact replyFirstEdge_changes q
  | lineActivity => exact lineActivity_changes q
  | reclaimMarkEnd => exact reclaimMarkEnd_changes q

end Sys2Proof.Machine
end

