-- ==== Sys2Proof/Laws/Transactions.lean ====
section
/-! SUPPORT. The bytes of the host's transactions: what each known command byte takes, and that command bytes and parameter
bytes name one command and are named by it (R194, R195, R214). -/

namespace Sys2Proof

set_option maxRecDepth 10000

/-- A 16-bit parameter is its two bytes. -/
theorem halfOf_halfBytes (m : BitVec 16) : halfOf (m.extractLsb' 8 8) (m.extractLsb' 0 8) = m := by
  unfold halfOf
  ext i hi
  rw [BitVec.getElem_append]
  split
  · simp [BitVec.getLsbD_eq_getElem hi]
  · have : 8 + (i - 8) = i := by omega
    simp [this, BitVec.getLsbD_eq_getElem hi]

theorem halfBytes_halfOf (a b : BitVec 8) : halfBytes (halfOf a b) = [a, b] := by
  have x : (halfOf a b).extractLsb' 8 8 = a := by
    unfold halfOf
    ext i hi
    have := BitVec.getLsbD_append (x := a) (y := b) (i := 8 + i)
    simpa [BitVec.getLsbD_eq_getElem hi] using this
  have y : (halfOf a b).extractLsb' 0 8 = b := by
    unfold halfOf
    ext i hi
    have := BitVec.getLsbD_append (x := a) (y := b) (i := i)
    simpa [BitVec.getLsbD_eq_getElem hi, hi] using this
  rw [halfBytes, x, y]

/-- The command bytes of R214. -/
theorem known_byte {b : BitVec 8} {n : Nat} (h : parameterCount b = some n) :
    b ∈ [0x01#8, 0x02, 0x03, 0x04, 0x05, 0x10, 0x11, 0x20, 0x21, 0x22, 0x23, 0x30, 0x31, 0x32, 0x33, 0x34, 0x35, 0x36, 0x37,
      0x38, 0x40, 0x41, 0x42, 0x43, 0x44, 0x45, 0x46, 0x47] := by
  revert n b
  decide +kernel

/-- A known command byte names a command with the number of parameter bytes that it fixes, and with no other. -/
theorem commandOf_length {b : BitVec 8} {n : Nat} (h : parameterCount b = some n) (l : List (BitVec 8)) :
    (commandOf b l).isSome = decide (l.length = n) := by
  have k := known_byte h
  simp only [List.mem_cons, List.not_mem_nil, or_false] at k
  rcases k with rfl | rfl | rfl | rfl | rfl | rfl | rfl | rfl | rfl | rfl | rfl | rfl | rfl | rfl | rfl | rfl | rfl | rfl | rfl
    | rfl | rfl | rfl | rfl | rfl | rfl | rfl | rfl | rfl
  all_goals
    cases h
    rcases l with _ | ⟨a, _ | ⟨b, _ | ⟨c, _ | ⟨d, _ | ⟨e, _ | ⟨f, _ | ⟨g, l⟩⟩⟩⟩⟩⟩⟩ <;> simp <;> rfl

/-- Every known byte with its number of parameter bytes is the bytes of some command. -/
theorem hostBytes_known {b : BitVec 8} {n : Nat} (h : parameterCount b = some n) {l : List (BitVec 8)} (hl : l.length = n) :
    ∃ c : Instr, c.hostBytes = some (b :: l) := by
  have k := known_byte h
  simp only [List.mem_cons, List.not_mem_nil, or_false] at k
  rcases k with rfl | rfl | rfl | rfl | rfl | rfl | rfl | rfl | rfl | rfl | rfl | rfl | rfl | rfl | rfl | rfl | rfl | rfl | rfl
    | rfl | rfl | rfl | rfl | rfl | rfl | rfl | rfl | rfl
  all_goals
    cases h
    rcases l with _ | ⟨a, _ | ⟨b, _ | ⟨c, _ | ⟨d, _ | ⟨e, _ | ⟨f, _ | ⟨g, l⟩⟩⟩⟩⟩⟩⟩ <;> simp at hl
  · exact ⟨.readStatus, rfl⟩
  · exact ⟨.ackEvents (halfOf a b), congrArg (fun x => some (0x02 :: x)) (halfBytes_halfOf a b)⟩
  · exact ⟨.setEventMask (halfOf a b), congrArg (fun x => some (0x03 :: x)) (halfBytes_halfOf a b)⟩
  · exact ⟨.configure a (halfOf b c), congrArg (fun x => some (0x04 :: a :: x)) (halfBytes_halfOf b c)⟩
  · exact ⟨.readConfig, rfl⟩
  · exact ⟨.startBringUp, rfl⟩
  · exact ⟨.restartLink, rfl⟩
  · exact ⟨.lookup a b c d e f, rfl⟩
  · exact ⟨.fetchRecord a, rfl⟩
  · exact ⟨.fetchNode a, rfl⟩
  · exact ⟨.takeChanges, rfl⟩
  · exact ⟨.bind a b c, rfl⟩
  · exact ⟨.unbind a b, rfl⟩
  · exact ⟨.setParameter a b c (halfOf d e), congrArg (fun x => some (0x32 :: a :: b :: c :: x)) (halfBytes_halfOf d e)⟩
  · exact ⟨.drive a b c, rfl⟩
  · exact ⟨.setDemand a b, rfl⟩
  · exact ⟨.prove a b, rfl⟩
  · exact ⟨.retire a b, rfl⟩
  · exact ⟨.forget a b, rfl⟩
  · exact ⟨.recatalogue a, rfl⟩
  · exact ⟨.writeEnable, rfl⟩
  · exact ⟨.writeDisable, rfl⟩
  · exact ⟨.rememberUnit a, rfl⟩
  · exact ⟨.eraseEntry a, rfl⟩
  · exact ⟨.pinEntry a, rfl⟩
  · exact ⟨.unpinEntry a, rfl⟩
  · exact ⟨.eraseList, rfl⟩
  · exact ⟨.ktlRead a, rfl⟩

/-- A transaction of a command's own bytes, with anything after them, gives that command (R194). -/
theorem command_hostBytes {c : Instr} {bytes : List (BitVec 8)} (h : c.hostBytes = some bytes) (extra : List (BitVec 8))
    (k : Nat) : Transaction.command { bytes := bytes ++ extra, partClocks := k } = c := by
  cases c
  case ackEvents m => obtain rfl := Option.some.inj h; exact congrArg Instr.ackEvents (halfOf_halfBytes m)
  case setEventMask m => obtain rfl := Option.some.inj h; exact congrArg Instr.setEventMask (halfOf_halfBytes m)
  case configure n v => obtain rfl := Option.some.inj h; exact congrArg (Instr.configure n) (halfOf_halfBytes v)
  case setParameter a b n v => obtain rfl := Option.some.inj h; exact congrArg (Instr.setParameter a b n) (halfOf_halfBytes v)
  all_goals first | (cases h; done) | (obtain rfl := Option.some.inj h; rfl)

/-- A transaction that ends before its command has all its parameters is incomplete (R197). -/
theorem command_missing {b : BitVec 8} {n : Nat} (h : parameterCount b = some n) {rest : List (BitVec 8)}
    (q : rest.length < n) (k : Nat) : Transaction.command { bytes := b :: rest, partClocks := k }
      = .incompleteTransaction (.missingParameters b rest.length) := by
  have t : rest.take n = rest := List.take_of_length_le (by omega)
  have x := commandOf_length h rest
  have y : commandOf b rest = none := by
    rw [← Option.isNone_iff_eq_none, ← Option.not_isSome, x]
    simp
    omega
  simp only [Transaction.command, h, t, y]

end Sys2Proof
end

