-- ==== Sys2Proof/Laws/Framing.lean ====
section
/-! SUPPORT. What the edges on the port's pins do, clock by clock, and what a byte and a whole transaction bring (R194, R196 to
R198, R210). -/

namespace Sys2Proof.Machine

variable {s : State} {f : SpiFrame}

/-! ### Small lemmas -/

@[simp] theorem setSpi_spi (s : State) (p : Spi) : (s.setSpi p).hcp.spi = p := rfl
@[simp] theorem setSpi_stream (s : State) (p : Spi) : (s.setSpi p).hcp.stream = s.hcp.stream := rfl
@[simp] theorem setSpi_response (s : State) (p : Spi) : (s.setSpi p).hcp.response = s.hcp.response := rfl
@[simp] theorem setSpi_pending (s : State) (p : Spi) : (s.setSpi p).pending = s.pending := rfl
@[simp] theorem setSpi_portSilent (s : State) (p : Spi) : (s.setSpi p).portSilent = s.portSilent := rfl
@[simp] theorem setSpi_setSpi (s : State) (p q : Spi) : (s.setSpi p).setSpi q = s.setSpi q := rfl
@[simp] theorem bring_spi (s : State) (c : Instr) : (s.bring c).hcp = s.hcp := rfl
@[simp] theorem bring_pending (s : State) (c : Instr) : (s.bring c).pending = s.pending ++ [c] := rfl
@[simp] theorem bring_portSilent (s : State) (c : Instr) : (s.bring c).portSilent = s.portSilent := rfl

theorem setSpi_self {p : Spi} (h : s.hcp.spi = p) : s.setSpi p = s := by subst h; rfl

theorem framing_eq (h : s.hcp.spi = .framed f) (a : s.portSilent = false) : s.framing = some f := by
  simp [State.framing, h, a]

theorem framing_spi (h : s.framing = some f) : s.hcp.spi = .framed f ∧ s.portSilent = false := by
  unfold State.framing at h
  split at h
  · next g e =>
      split at h
      · cases h
      · next a => cases h; exact ⟨e, by simpa using a⟩
  · cases h
  · cases h

/-- While the port is silent, with CS_N high and in a transaction that is not framed, nothing is framed (R194, R210). -/
theorem framing_none (h : s.portSilent = true ∨ s.hcp.spi = .high ∨ s.hcp.spi = .unframed) : s.framing = none := by
  unfold State.framing
  rcases h with h | h | h
  · rw [h]; split <;> rfl
  · rw [h]
  · rw [h]

theorem framing_setSpi (a : s.portSilent = false) (g : SpiFrame) : (s.setSpi (.framed g)).framing = some g :=
  framing_eq rfl a

/-! ### One edge -/

/-- A falling edge, for the transaction. -/
def SpiFrame.fall (f : SpiFrame) : SpiFrame := { f with shown := f.clocks, clocked := true }

@[simp] theorem fall_answering (f : SpiFrame) : f.fall.answering = f.answering := rfl
@[simp] theorem fall_clocks (f : SpiFrame) : f.fall.clocks = f.clocks := rfl
@[simp] theorem fall_bytes (f : SpiFrame) : f.fall.bytes = f.bytes := rfl
@[simp] theorem fall_shown (f : SpiFrame) : f.fall.shown = f.clocks := rfl

@[simp] theorem sample_clocks (f : SpiFrame) (d : Bool) : (f.sample d).clocks = f.clocks + 1 := by
  unfold SpiFrame.sample
  dsimp only
  split <;> [skip; split] <;> rfl

@[simp] theorem sample_clocked (f : SpiFrame) (d : Bool) : (f.sample d).clocked = true := by
  unfold SpiFrame.sample
  dsimp only
  split <;> [skip; split] <;> rfl

theorem sample_reading (n : f.answering = false) (l : f.bits.length < 7) (d : Bool) :
    f.sample d = { f with bits := f.bits ++ [d], clocks := f.clocks + 1, clocked := true } := by
  simp [SpiFrame.sample, n, l]

theorem sample_completing (n : f.answering = false) (l : f.bits.length = 7) (d : Bool) :
    f.sample d = { f with
      bits := [], bytes := f.bytes ++ [byteOfBits (f.bits ++ [d])], clocks := f.clocks + 1, clocked := true } := by
  simp [SpiFrame.sample, n, l]

theorem sample_answering (n : f.answering = true) (d : Bool) :
    f.sample d = { f with clocks := f.clocks + 1, clocked := true } := by simp [SpiFrame.sample, n]

theorem clockRise_framing (h : s.framing = some f) (d : Bool) :
    s.clockRise d = if (f.sample d).answering && !f.answering then
      (s.setSpi (.framed (f.sample d))).bring (f.sample d).transaction.command else s.setSpi (.framed (f.sample d)) := by
  simp [State.clockRise, h]

/-- A falling edge at which no image begins (R198). -/
theorem clockFall_plain (h : s.framing = some f) (q : f.answering = false ∨ s.hcp.stream = .none
    ∨ f.clocks ≠ 8 * (f.bytes.length + s.hcp.response.length)) : s.clockFall = s.setSpi (.framed f.fall) := by
  unfold State.clockFall
  rw [h]
  rcases q with q | q | q <;> simp [q, SpiFrame.fall]

theorem sdo_reading (h : s.framing = some f) (n : f.answering = false) : s.sdo = some false := by simp [State.sdo, h, n]

theorem sdo_answering (h : s.framing = some f) (n : f.answering = true) {k : Nat} (q : f.shown = 8 * f.bytes.length + k) :
    s.sdo = some (bitAt s.hcp.response k) := by simp [State.sdo, h, n, q]

/-! ### One clock -/

/-- What one clock makes of a transaction. -/
def SpiFrame.clock (mode3 : Bool) (f : SpiFrame) (sdi : Bool) : SpiFrame :=
  if mode3 then f.fall.sample sdi else (f.sample sdi).fall

/-- A clock of the command byte or of a parameter byte: SDO shows a zero, and the bit that completes the command brings it. -/
theorem clockBit_reading (h : s.framing = some f) (n : f.answering = false) (a : s.hcp.stream = .none) (m d : Bool) :
    s.clockBit m d = (let g := f.clock m d
      if g.answering then (s.setSpi (.framed g)).bring g.transaction.command else s.setSpi (.framed g), some false) := by
  have q := (framing_spi h).2
  cases m
  · have r := clockRise_framing h d
    have u : (s.clockRise d).framing = some (f.sample d) := by
      rw [r]
      split <;> exact framing_eq rfl q
    have v : (s.clockRise d).hcp.stream = .none := by
      rw [r]
      split <;> exact a
    have w := clockFall_plain u (.inr (.inl v))
    have c : (f.sample d).fall.transaction = (f.sample d).transaction := by simp [SpiFrame.transaction, SpiFrame.fall]
    refine Prod.ext ?_ (sdo_reading h n)
    show (s.clockRise d).clockFall = _
    rw [w, r]
    simp only [SpiFrame.clock, n, Bool.not_false, Bool.and_true, Bool.false_eq_true, if_false, fall_answering, c]
    split <;> rfl
  · have w := clockFall_plain h (.inl n)
    have u : (s.setSpi (.framed f.fall)).framing = some f.fall := framing_eq rfl q
    refine Prod.ext ?_ ?_
    · show s.clockFall.clockRise d = _
      rw [w, clockRise_framing u]
      simp [SpiFrame.clock, n]
    · show s.clockFall.sdo = _
      rw [w]
      exact sdo_reading u n

/-- A clock of a response byte, with no image about to begin: SDO shows the bit of the response that is due, and SDI is
ignored. -/
theorem clockBit_answering (h : s.framing = some f) (n : f.answering = true) {k : Nat} (c : f.clocks = 8 * f.bytes.length + k)
    (m d : Bool) (sh : m = false → f.shown = f.clocks)
    (q : s.hcp.stream = .none ∨ k + 1 < 8 * s.hcp.response.length) :
    s.clockBit m d = (s.setSpi (.framed (f.clock m d)), some (bitAt s.hcp.response k)) := by
  have p := (framing_spi h).2
  have b : ∀ e, (f.sample e).bytes = f.bytes := fun e => by rw [sample_answering n]
  have a : ∀ e, (f.sample e).answering = true := fun e => by rw [sample_answering n]; exact n
  cases m
  · have r : s.clockRise d = s.setSpi (.framed (f.sample d)) := by simp [clockRise_framing h, n]
    have u : (s.setSpi (.framed (f.sample d))).framing = some (f.sample d) := framing_eq rfl p
    refine Prod.ext ?_ (sdo_answering h n (by rw [sh rfl, c]))
    show (s.clockRise d).clockFall = _
    rw [r, clockFall_plain u]
    · simp [SpiFrame.clock]
    · rcases q with q | q
      · exact .inr (.inl q)
      · refine .inr (.inr ?_)
        rw [b, sample_clocks, c, setSpi_response]
        omega
  · have w : s.clockFall = s.setSpi (.framed f.fall) := by
      refine clockFall_plain h ?_
      rcases q with q | q
      · exact .inr (.inl q)
      · refine .inr (.inr ?_)
        rw [c]
        omega
    have u : (s.setSpi (.framed f.fall)).framing = some f.fall := framing_eq rfl p
    refine Prod.ext ?_ ?_
    · show s.clockFall.clockRise d = _
      rw [w, clockRise_framing u]
      simp [SpiFrame.clock, n]
    · show s.clockFall.sdo = _
      rw [w]
      exact sdo_answering u n (by simpa using c)

/-! ### Rows of clocks -/

theorem clockBits_append (m : Bool) (s : State) (k l : List Bool) : s.clockBits m (k ++ l)
    = (((s.clockBits m k).1.clockBits m l).1, (s.clockBits m k).2 ++ ((s.clockBits m k).1.clockBits m l).2) := by
  induction k generalizing s with
  | nil => rfl
  | cons b k ih => simp [State.clockBits, ih]

/-- Fewer than eight bits bring nothing. -/
theorem clockBits_reading (h : s.framing = some f) (n : f.answering = false) (a : s.hcp.stream = .none) (m : Bool)
    (l : List Bool) (q : f.bits.length + l.length < 8) :
    s.clockBits m l = (s.setSpi (.framed (l.foldl (SpiFrame.clock m) f)), List.replicate l.length (some false))
    ∧ (l.foldl (SpiFrame.clock m) f).answering = false ∧ (l.foldl (SpiFrame.clock m) f).bytes = f.bytes
    ∧ (l.foldl (SpiFrame.clock m) f).bits = f.bits ++ l := by
  induction l generalizing s f with
  | nil => exact ⟨Prod.ext (setSpi_self (framing_spi h).1).symm rfl, n, rfl, (List.append_nil _).symm⟩
  | cons b l ih =>
      simp only [List.length_cons] at q
      have g : (f.clock m b).answering = false ∧ (f.clock m b).bytes = f.bytes ∧ (f.clock m b).bits = f.bits ++ [b] := by
        cases m
        · simp only [SpiFrame.clock, Bool.false_eq_true, if_false, fall_answering, fall_bytes]
          rw [sample_reading n (by omega)]
          exact ⟨n, rfl, rfl⟩
        · simp only [SpiFrame.clock, if_true]
          rw [sample_reading (f := f.fall) n (by show f.bits.length < 7; omega)]
          exact ⟨n, rfl, rfl⟩
      obtain ⟨x, y, z⟩ := g
      have e := clockBit_reading h n a m b
      simp only [x, Bool.false_eq_true, if_false] at e
      have r := ih (s := s.setSpi (.framed (f.clock m b))) (f := f.clock m b) (framing_eq rfl (framing_spi h).2) x a
        (by rw [z]; simp; omega)
      obtain ⟨r, u, v, w⟩ := r
      refine ⟨?_, u, v.trans y, w.trans (by rw [z]; simp)⟩
      simp only [State.clockBits, e, r]
      rfl

/-- Eight bits of a byte, most significant first, spell it. -/
theorem byteOfBits_bitsOf (b : Byte) : byteOfBits (bitsOf b) = b := by
  revert b
  decide +kernel

/-- What the eight clocks of a byte make of a transaction that is being read. -/
theorem clocks_reading (n : f.answering = false) (z : f.bits = []) (m : Bool) (b : Byte) :
    (bitsOf b).foldl (SpiFrame.clock m) f = { f with
      bytes := f.bytes ++ [b], clocks := f.clocks + 8, shown := if m then f.clocks + 7 else f.clocks + 8, clocked := true } := by
  obtain ⟨bytes, bits, clocks, shown, clocked⟩ := f
  subst z
  have e : byteOfBits [b.getLsbD 7, b.getLsbD 6, b.getLsbD 5, b.getLsbD 4, b.getLsbD 3, b.getLsbD 2, b.getLsbD 1,
      b.getLsbD 0] = b := byteOfBits_bitsOf b
  have n' : ∀ x y w v, SpiFrame.answering ⟨bytes, x, y, w, v⟩ = false := fun _ _ _ _ => n
  show [b.getLsbD 7, b.getLsbD 6, b.getLsbD 5, b.getLsbD 4, b.getLsbD 3, b.getLsbD 2, b.getLsbD 1, b.getLsbD 0].foldl _ _ = _
  cases m <;> simp [SpiFrame.clock, SpiFrame.sample, SpiFrame.fall, n'] <;> exact e

/-- A byte of the command or of its parameters: SDO shows zeros, and the byte that completes the command brings it (R194,
R196). -/
theorem clockByte_reading (h : s.framing = some f) (n : f.answering = false) (z : f.bits = []) (a : s.hcp.stream = .none)
    (m : Bool) (b : Byte) : s.clockByte m b = (let g : SpiFrame := { f with
        bytes := f.bytes ++ [b], clocks := f.clocks + 8, shown := if m then f.clocks + 7 else f.clocks + 8, clocked := true }
      if g.answering then (s.setSpi (.framed g)).bring g.transaction.command else s.setSpi (.framed g),
      List.replicate 8 (some false)) := by
  have w := clocks_reading n z m b
  obtain ⟨i, d, hi, hl⟩ : ∃ i d, bitsOf b = i ++ [d] ∧ i.length = 7 :=
    ⟨[b.getLsbD 7, b.getLsbD 6, b.getLsbD 5, b.getLsbD 4, b.getLsbD 3, b.getLsbD 2, b.getLsbD 1], b.getLsbD 0, rfl, rfl⟩
  rw [hi, List.foldl_append] at w
  obtain ⟨r, x, -, -⟩ := clockBits_reading h n a m i (by rw [z, hl]; decide)
  have u := clockBit_reading (s := s.setSpi (.framed (i.foldl (SpiFrame.clock m) f)))
    (framing_eq rfl (framing_spi h).2) x a m d
  simp only [List.foldl_cons, List.foldl_nil] at w
  simp only [w] at u
  unfold State.clockByte
  rw [hi, clockBits_append, r]
  simp only [State.clockBits, u, hl]
  refine Prod.ext ?_ rfl
  dsimp only
  split <;> rfl

/-- A response byte, most significant bit first (R194, R196). -/
theorem clockByte_answering (h : s.framing = some f) (n : f.answering = true) {j : Nat}
    (c : f.clocks = 8 * (f.bytes.length + j)) (m : Bool) (sh : m = false → f.shown = f.clocks) (b : Byte)
    (q : s.hcp.stream = .none ∨ j + 1 < s.hcp.response.length) :
    s.clockByte m b = (s.setSpi (.framed { f with
        clocks := f.clocks + 8, shown := if m then f.clocks + 7 else f.clocks + 8, clocked := true }),
      (bitsOf (s.hcp.response[j]?.getD 0)).map some) := by
  have step : ∀ (l : List Bool) (i : Nat) (f : SpiFrame) (s : State), s.framing = some f → f.answering = true →
      f.clocks = 8 * f.bytes.length + (8 * j + i) → i + l.length ≤ 8 → (m = false → f.shown = f.clocks) →
      (s.hcp.stream = .none ∨ j + 1 < s.hcp.response.length) →
      s.clockBits m l = (s.setSpi (.framed (l.foldl (SpiFrame.clock m) f)),
        (List.range l.length).map fun k => some (bitAt s.hcp.response (8 * j + i + k))) := by
    intro l
    induction l with
    | nil => intro i f s h _ _ _ _ _; exact Prod.ext (setSpi_self (framing_spi h).1).symm rfl
    | cons d l ih =>
        intro i f s h n c hi sh q
        simp only [List.length_cons] at hi
        have e := clockBit_answering h n c m d sh (q.imp_right fun q => by omega)
        have a : ∀ g : SpiFrame, g.answering = true → (g.sample d).answering = true ∧ (g.sample d).bytes = g.bytes := by
          intro g k
          rw [sample_answering k]
          exact ⟨k, rfl⟩
        have r := ih (i + 1) (f.clock m d) (s.setSpi (.framed (f.clock m d))) (framing_eq rfl (framing_spi h).2)
          (by cases m; · exact (a f n).1
              · exact (a f.fall n).1)
          (by cases m
              · show (f.sample d).clocks = 8 * (f.sample d).bytes.length + _
                rw [sample_clocks, (a f n).2]; omega
              · show (f.fall.sample d).clocks = 8 * (f.fall.sample d).bytes.length + _
                rw [sample_clocks, (a f.fall n).2, fall_clocks, fall_bytes]; omega)
          (by omega) (fun k => by subst k; rfl) q
        simp only [State.clockBits, e, r]
        refine Prod.ext rfl ?_
        simp only [List.length_cons, List.range_succ_eq_map, List.map_cons, List.map_map, Nat.add_zero]
        refine congrArg _ (List.map_congr_left fun k _ => ?_)
        simp only [Function.comp, setSpi_response, Nat.succ_eq_add_one]
        congr 2
        omega
  have r := step (bitsOf b) 0 f s h n (by omega) (by simp [bitsOf]) sh q
  unfold State.clockByte
  rw [r]
  refine Prod.ext (congrArg (fun g => s.setSpi (.framed g)) ?_) ?_
  · obtain ⟨bytes, bits, clocks, shown, clocked⟩ := f
    have n' : ∀ x y w v, SpiFrame.answering ⟨bytes, x, y, w, v⟩ = true := fun _ _ _ _ => n
    show [b.getLsbD 7, b.getLsbD 6, b.getLsbD 5, b.getLsbD 4, b.getLsbD 3, b.getLsbD 2, b.getLsbD 1, b.getLsbD 0].foldl _ _ = _
    cases m <;> simp [SpiFrame.clock, SpiFrame.sample, SpiFrame.fall, n']
  · simp only [bitsOf, List.length_map, List.length_range, List.map_map]
    refine List.map_congr_left fun k hk => ?_
    have hk := List.mem_range.mp hk
    simp only [Function.comp, bitAt]
    rw [show (8 * j + 0 + k) / 8 = j by omega, show (8 * j + 0 + k) % 8 = k by omega]

/-! ### The end of a transaction, and a whole one -/

/-- A transaction that is complete is the command that its bytes name (R194). -/
theorem selectRise_framing (h : s.framing = some f) : s.selectRise = if f.answering then
    (s.setSpi .high).setResponse s.hcp.response .none else (s.setSpi .high).bring f.transaction.command := by
  simp [State.selectRise, h]

theorem selectRise_unframed (h : s.hcp.spi = .unframed) : s.selectRise = s.setSpi .high := by
  simp [State.selectRise, framing_none (.inr (.inr h)), h]

/-- What has been read of a transaction, with nothing to take. -/
theorem transaction_incomplete (n : f.answering = false) : f.transaction.command = .incompleteTransaction (match f.bytes with
    | [] => if f.bits = [] ∧ f.clocked = false then .noClock else .partCommand
    | c :: rest => .missingParameters c rest.length) := by
  obtain ⟨bytes, bits, clocks, shown, clocked⟩ := f
  rcases bytes with _ | ⟨c, rest⟩
  · simp only [SpiFrame.transaction, Transaction.command]
    have : max bits.length clocked.toNat = 0 ↔ bits = [] ∧ clocked = false := by
      rw [Nat.max_eq_zero_iff, List.length_eq_zero_iff]
      cases clocked <;> simp
    by_cases q : bits = [] ∧ clocked = false <;> simp [q, this]
  · simp only [SpiFrame.answering] at n
    split at n
    · cases n
    · next k hk => exact command_missing hk (by simpa using n) _

/-- Bytes after the command byte and its parameters are ignored (R194). -/
theorem command_append (n : f.answering = true) (more : List (BitVec 8)) (i j : Nat) :
    Transaction.command { bytes := f.bytes ++ more, partClocks := i }
      = Transaction.command { bytes := f.bytes, partClocks := j } := by
  obtain ⟨bytes, bits, clocks, shown, clocked⟩ := f
  rcases bytes with _ | ⟨c, rest⟩
  · cases n
  · simp only [SpiFrame.answering] at n
    split at n
    · next h => simp [Transaction.command, h]
    · next k h =>
        have q : k ≤ rest.length := by simpa using n
        obtain ⟨x, hx⟩ : ∃ x, commandOf c (rest.take k) = some x :=
          Option.isSome_iff_exists.mp (by rw [commandOf_length h]; simpa using q)
        simp [Transaction.command, h, List.take_append_of_le_length q, hx]

theorem clockBits_answered (h : s.framing = some f) (n : f.answering = true) (a : s.hcp.stream = .none) (m : Bool)
    (l : List Bool) : ∃ g : SpiFrame, (s.clockBits m l).1 = s.setSpi (.framed g) ∧ g.answering = true := by
  induction l generalizing s f with
  | nil => exact ⟨f, (setSpi_self (framing_spi h).1).symm, n⟩
  | cons d l ih =>
      have p := (framing_spi h).2
      have z : ∀ g : SpiFrame, g.answering = true → (g.sample d).answering = true := by
        intro g k
        rw [sample_answering k]
        exact k
      obtain ⟨g, e, y⟩ : ∃ g : SpiFrame, (s.clockBit m d).1 = s.setSpi (.framed g) ∧ g.answering = true := by
        cases m
        · have r : s.clockRise d = s.setSpi (.framed (f.sample d)) := by simp [clockRise_framing h, n]
          refine ⟨(f.sample d).fall, ?_, z f n⟩
          show (s.clockRise d).clockFall = _
          rw [r, clockFall_plain (framing_setSpi p _) (.inr (.inl a))]
          rfl
        · refine ⟨f.fall.sample d, ?_, z f.fall n⟩
          show s.clockFall.clockRise d = _
          rw [clockFall_plain h (.inr (.inl a)), clockRise_framing (framing_setSpi p _)]
          simp [n]
      obtain ⟨g', e', y'⟩ := ih (s := s.setSpi (.framed g)) (framing_setSpi p g) y a
      refine ⟨g', ?_, y'⟩
      simp only [State.clockBits, e, e']
      rfl

/-- Once its command has come, the rest of a transaction without a stream brings nothing. -/
theorem rest_answered (h : s.framing = some f) (n : f.answering = true) (a : s.hcp.stream = .none) (l : List Byte)
    (k : List Bool) : ((l.foldl (fun s b => (s.clockByte false b).1) s).clockBits false k).1.selectRise = s.setSpi .high := by
  induction l generalizing s f with
  | nil =>
      obtain ⟨g, e, y⟩ := clockBits_answered h n a false k
      rw [List.foldl_nil, e, selectRise_framing (framing_setSpi (framing_spi h).2 g), if_pos y]
      show (s.setSpi .high).setResponse s.hcp.response .none = _
      rw [← a]
      rfl
  | cons b l ih =>
      obtain ⟨g, e, y⟩ := clockBits_answered h n a false (bitsOf b)
      rw [List.foldl_cons]
      show ((l.foldl _ (s.clockBits false (bitsOf b)).1).clockBits false k).1.selectRise = _
      rw [e, ih (framing_setSpi (framing_spi h).2 g) y a]
      rfl

/-- The rest of a transaction of which nothing has been taken yet brings its command. -/
theorem rest_reading (h : s.framing = some f) (n : f.answering = false) (z : f.bits = []) (e : f.bytes = [] → f.clocked = false)
    (a : s.hcp.stream = .none) (l : List Byte) (k : Nat) (q : k < 8) :
    ((l.foldl (fun s b => (s.clockByte false b).1) s).clockBits false (List.replicate k false)).1.selectRise
      = (s.setSpi .high).bring (Transaction.command { bytes := f.bytes ++ l, partClocks := k }) := by
  induction l generalizing s f with
  | nil =>
      obtain ⟨r, x, y, w⟩ := clockBits_reading h n a false (List.replicate k false) (by simp [z, q])
      rw [List.foldl_nil, r]
      dsimp only
      rw [selectRise_framing (framing_setSpi (framing_spi h).2 _), x, transaction_incomplete x, y, w, z, List.append_nil]
      refine congrArg (s.setSpi .high).bring ?_
      rcases f with ⟨_ | ⟨c, rest⟩, bits, clocks, shown, clocked⟩
      · cases k with
        | zero => simp [Transaction.command, e rfl]
        | succ k => simp [Transaction.command, List.replicate_succ]
      · simp only [SpiFrame.answering] at n
        split at n
        · cases n
        · next m hm => exact (command_missing hm (by simpa using n) _).symm
  | cons b l ih =>
      obtain ⟨g, hg⟩ : ∃ g : SpiFrame, g = { f with
        bytes := f.bytes ++ [b], clocks := f.clocks + 8, shown := f.clocks + 8, clocked := true } := ⟨_, rfl⟩
      have r : (s.clockByte false b).1
          = if g.answering then (s.setSpi (.framed g)).bring g.transaction.command else s.setSpi (.framed g) := by
        rw [clockByte_reading h n z a false b, hg]
        rfl
      have gb : f.bytes ++ b :: l = g.bytes ++ l := by simp [hg]
      rw [List.foldl_cons, r, gb]
      by_cases y : g.answering = true
      · rw [if_pos y, rest_answered (s := (s.setSpi (.framed g)).bring g.transaction.command) (f := g)
          (framing_eq rfl (framing_spi h).2) y a, command_append y l k _]
        rfl
      · rw [if_neg y, ih (framing_setSpi (framing_spi h).2 g) (by simpa using y) (by rw [hg]; exact z) (by simp [hg]) a]
        rfl

/-- A whole transaction brings its command (R194, R196, R197), with a response of its own. -/
theorem receive_command (h : s.hcp.spi = .high) (a : s.portSilent = false) (x : Transaction) (q : x.partClocks < 8) :
    s.receive x = (s.setResponse [] .none).bring x.command := by
  have e : s.selectFall = (s.setResponse [] .none).setSpi (.framed SpiFrame.start) := by simp [State.selectFall, h, a]
  have r := rest_reading (s := (s.setResponse [] .none).setSpi (.framed SpiFrame.start)) (f := SpiFrame.start)
    (framing_eq rfl a) rfl rfl (fun _ => rfl) rfl x.bytes x.partClocks q
  unfold State.receive
  rw [e, r]
  show (((s.setResponse [] .none).setSpi .high).bring _) = _
  rw [← h]
  rfl

/-- A transaction that begins and ends while the port is silent brings nothing (R210). -/
theorem receive_silent (h : s.hcp.spi = .high) (a : s.portSilent = true) (x : Transaction) : s.receive x = s := by
  have e : s.selectFall = s.setSpi .unframed := by simp [State.selectFall, h, a]
  have bit : ∀ (l : List Bool), ((s.setSpi .unframed).clockBits false l).1 = s.setSpi .unframed := by
    intro l
    induction l with
    | nil => rfl
    | cons d l ih =>
        have f : (s.setSpi .unframed).framing = none := framing_none (.inr (.inr rfl))
        have r : (s.setSpi .unframed).clockRise d = s.setSpi .unframed := by simp [State.clockRise, f]
        have w : (s.setSpi .unframed).clockFall = s.setSpi .unframed := by simp [State.clockFall, f]
        simp only [State.clockBits, State.clockBit, Bool.false_eq_true, if_false, r, w, ih]
  have byte : ∀ l : List Byte, l.foldl (fun s b => (s.clockByte false b).1) (s.setSpi .unframed) = s.setSpi .unframed := by
    intro l
    induction l with
    | nil => rfl
    | cons b l ih => rw [List.foldl_cons, State.clockByte, bit, ih]
  unfold State.receive
  rw [e, byte, bit, selectRise_unframed rfl]
  show s.setSpi .high = s
  rw [← h]
  rfl

end Sys2Proof.Machine
end

