-- ==== Sys2Proof/Laws/PerInstr.lean ====
section
/-! SUPPORT. What holds of every command as syntax. -/

namespace Sys2Proof.Laws.Shape

/-- The kinds of commands: one of the host is no event of RESET, what brings about a device reset is an event of RESET,
only commands of the host and the end of a write touch the write-enable latch; and every command of the host but an unknown
byte and an incomplete transaction is well-formed whatever its parameters. -/
def Statement (i : Instr) : Prop :=
  (i.ofHost = true → i.ofReset = false) ∧ (i.resets = true → i.ofReset = true)
  ∧ (i.touchesLatch = true → i.ofHost = true ∨ ∃ b, i = .ktlWriteEnd b)
  ∧ (i.ofHost = true → (∀ b, i ≠ .unknownCommand b) → (∀ h, i ≠ .incompleteTransaction h) → i.wf = true)

/-- The statement, for the lemmas below. -/
theorem holds (i : Instr) : Statement i := by
  refine ⟨?_, ?_, ?_, ?_⟩
  · intro h; cases i <;> first | rfl | cases h
  · intro h; cases i <;> first | rfl | cases h
  · intro h; cases i <;> first | exact .inl rfl | exact .inr ⟨_, rfl⟩ | cases h
  · intro h u v; cases i <;> first | rfl | exact absurd rfl (u _) | exact absurd rfl (v _) | cases h

theorem readStatus : Statement .readStatus := holds _
theorem ackEvents (mask : BitVec 16) : Statement (.ackEvents mask) := holds _
theorem setEventMask (mask : BitVec 16) : Statement (.setEventMask mask) := holds _
theorem configure (setting : BitVec 8) (value : BitVec 16) : Statement (.configure setting value) := holds _
theorem readConfig : Statement .readConfig := holds _
theorem startBringUp : Statement .startBringUp := holds _
theorem restartLink : Statement .restartLink := holds _
theorem lookup (cls role side unit mask start : BitVec 8) : Statement (.lookup cls role side unit mask start) := holds _
theorem fetchRecord (start : BitVec 8) : Statement (.fetchRecord start) := holds _
theorem fetchNode (start : BitVec 8) : Statement (.fetchNode start) := holds _
theorem takeChanges : Statement .takeChanges := holds _
theorem bind (handle gen source : BitVec 8) : Statement (.bind handle gen source) := holds _
theorem unbind (handle gen : BitVec 8) : Statement (.unbind handle gen) := holds _
theorem setParameter (handle gen parameter : BitVec 8) (value : BitVec 16) :
    Statement (.setParameter handle gen parameter value) := holds _
theorem drive (handle gen word : BitVec 8) : Statement (.drive handle gen word) := holds _
theorem setDemand (source demand : BitVec 8) : Statement (.setDemand source demand) := holds _
theorem prove (handle gen : BitVec 8) : Statement (.prove handle gen) := holds _
theorem retire (handle gen : BitVec 8) : Statement (.retire handle gen) := holds _
theorem forget (handle gen : BitVec 8) : Statement (.forget handle gen) := holds _
theorem recatalogue (position : BitVec 8) : Statement (.recatalogue position) := holds _
theorem writeEnable : Statement .writeEnable := holds _
theorem writeDisable : Statement .writeDisable := holds _
theorem rememberUnit (unit : BitVec 8) : Statement (.rememberUnit unit) := holds _
theorem eraseEntry (index : BitVec 8) : Statement (.eraseEntry index) := holds _
theorem pinEntry (index : BitVec 8) : Statement (.pinEntry index) := holds _
theorem unpinEntry (index : BitVec 8) : Statement (.unpinEntry index) := holds _
theorem eraseList : Statement .eraseList := holds _
theorem ktlRead (index : BitVec 8) : Statement (.ktlRead index) := holds _
theorem unknownCommand (code : BitVec 8) : Statement (.unknownCommand code) := holds _
theorem incompleteTransaction (how : Incomplete) : Statement (.incompleteTransaction how) := holds _
theorem streamImage : Statement .streamImage := holds _
theorem resetFall : Statement .resetFall := holds _
theorem resetRise : Statement .resetRise := holds _
theorem deviceReset : Statement .deviceReset := holds _
theorem supplyReset : Statement .supplyReset := holds _
theorem deviceResetEnd : Statement .deviceResetEnd := holds _
theorem ktlScanEnd : Statement .ktlScanEnd := holds _
theorem ktlWriteEnd (bad : BitVec 16) : Statement (.ktlWriteEnd bad) := holds _
theorem demandInputChange (input : Fin 10) (asserted : Bool) : Statement (.demandInputChange input asserted) := holds _
theorem followStretchEnd (side : TurnSide) : Statement (.followStretchEnd side) := holds _
theorem coupleSenseAsserted : Statement .coupleSenseAsserted := holds _
theorem coupleSenseWithdrawn : Statement .coupleSenseWithdrawn := holds _
theorem linePresentAsserted : Statement .linePresentAsserted := holds _
theorem linePresentWithdrawn : Statement .linePresentWithdrawn := holds _
theorem settleTimerExpiry : Statement .settleTimerExpiry := holds _
theorem partTimerExpiry : Statement .partTimerExpiry := holds _
theorem faultTimerExpiry : Statement .faultTimerExpiry := holds _
theorem lineRequest : Statement .lineRequest := holds _
theorem toolLineReturn : Statement .toolLineReturn := holds _
theorem yieldLimitExpiry : Statement .yieldLimitExpiry := holds _
theorem reclaimSuccess : Statement .reclaimSuccess := holds _
theorem reclaimTimeout : Statement .reclaimTimeout := holds _
theorem lineRecovery : Statement .lineRecovery := holds _
theorem gapEnd : Statement .gapEnd := holds _
theorem frameEnd : Statement .frameEnd := holds _
theorem replyWindowEnd : Statement .replyWindowEnd := holds _
theorem replyComplete (frame : List (BitVec 8)) : Statement (.replyComplete frame) := holds _
theorem replyBroken (malformed : Bool) : Statement (.replyBroken malformed) := holds _
theorem presenceTick : Statement .presenceTick := holds _
theorem lastHeardTimeout (position : Fin 12) : Statement (.lastHeardTimeout position) := holds _
theorem addressHoldExpiry (address : Fin 12) : Statement (.addressHoldExpiry address) := holds _
theorem frontierTimerExpiry : Statement .frontierTimerExpiry := holds _
theorem phaseEnd (generator : Generator) : Statement (.phaseEnd generator) := holds _
theorem deadTimerExpiry (guard : Fin 6) : Statement (.deadTimerExpiry guard) := holds _
theorem runLimitExpiry (guard : Fin 6) : Statement (.runLimitExpiry guard) := holds _
theorem confirmDeadline (handle : Fin 96) : Statement (.confirmDeadline handle) := holds _
theorem replyFirstEdge : Statement .replyFirstEdge := holds _
theorem lineActivity : Statement .lineActivity := holds _
theorem reclaimMarkEnd : Statement .reclaimMarkEnd := holds _

end Sys2Proof.Laws.Shape
end

