-- ==== Sys2Proof/Laws/Records.lean ====
section
/-! SUPPORT. What the operations of the router, the guards and the directory leave of a record: entering and removing outputs
leaves the directory as it is, a guard's answer gives its owner a motion and nothing else, and a claim gives a record the
contents its change names. -/

namespace Sys2Proof.Machine

variable {s : State} {h k : Handle}

/-! ### The pending-drive set -/

@[simp] theorem enter_fdir (s : State) (h : Handle) (r : Record) (w : OutWord) : (s.enter h r w).fdir = s.fdir := by
  unfold State.enter
  dsimp only
  split <;> rfl

@[simp] theorem enterIfDiffers_fdir (s : State) (h : Handle) (r : Record) (w : OutWord) :
    (s.enterIfDiffers h r w).fdir = s.fdir := by
  unfold State.enterIfDiffers
  split
  · split
    · rfl
    · exact enter_fdir ..
  · rfl

@[simp] theorem askOutput_fdir (s : State) (h : Handle) (w : OutWord) : (s.askOutput h w).fdir = s.fdir := by
  unfold State.askOutput
  split
  · split
    · rfl
    · exact enterIfDiffers_fdir ..
  · rfl

theorem record_of_fdir {s t : State} (e : t.fdir = s.fdir) (k : Handle) : t.record k = s.record k := by
  unfold State.record State.slot
  rw [e]

theorem live_of_record {s t : State} (e : t.record h = s.record h) : t.live h = s.live h := by
  unfold State.live
  rw [e]

theorem live_of {r : Record} (e : s.record h = some r) (hr : (r.state == .retired) = false) : s.live h = some r := by
  unfold State.live
  simp [e, hr]

theorem livePair_eq {gen : Byte} {r : Record} : s.livePair h gen = some r ↔ (s.slot h).gen = gen ∧ s.live h = some r := by
  unfold State.livePair
  split
  · next q => simp [beq_iff_eq.mp q]
  · next q => simp only [beq_iff_eq] at q; simp [q]

theorem setRecord_ne (s : State) {h k : Handle} (e : h ≠ k) (r : Record) : (s.setRecord h r).slot k = s.slot k :=
  slot_setSlot_ne _ _ e

/-! ### Wanted outputs -/

/-- The wanted output is computed again, and nothing else of the record changes. -/
theorem rewant_record {r : Record} (hl : s.live h = some r) :
    ∃ w, (s.rewant h).record h = some { r with wanted := w } := by
  unfold State.rewant
  rw [hl]
  dsimp only
  cases s.wantedNow r with
  | none => exact ⟨r.wanted, live_record hl⟩
  | some w =>
      refine ⟨some w, ?_⟩
      dsimp only
      split
      · exact setRecord_record ..
      · rw [record_of_fdir (enterIfDiffers_fdir ..)]
        exact setRecord_record ..

/-! ### Guards -/

/-- A record with another motion. -/
theorem setMotion_record (s : State) (h k : Handle) (m : Motion) {r : Record} (hr : s.record k = some r) :
    ∃ x, (s.setMotion h m).record k = some { r with motion := x } := by
  unfold State.setMotion
  split
  · next q hl =>
      split
      · by_cases e : h = k
        · subst e
          rw [live_record hl] at hr
          obtain rfl := Option.some.inj hr
          exact ⟨some m, setRecord_record ..⟩
        · refine ⟨r.motion, ?_⟩
          unfold State.record
          rw [setRecord_ne _ e]
          exact hr
      · exact ⟨r.motion, hr⟩
  · exact ⟨r.motion, hr⟩

theorem putGuard_record (s : State) (g : Fin 6) (x : Guard) (k : Handle) {r : Record} (hr : s.record k = some r) :
    ∃ m, ((s.putGuard g x).record k) = some { r with motion := m } := by
  have hr : (s.setGuard g x).record k = some r := hr
  unfold State.putGuard
  dsimp only
  split
  · split
    · exact setMotion_record _ _ _ _ hr
    · exact ⟨r.motion, hr⟩
  · exact ⟨r.motion, hr⟩

theorem guardAsk_fdir (s : State) (g : Fin 6) (w : OutWord) : (s.guardAsk g w).fdir = s.fdir := by
  unfold State.guardAsk
  split
  · split
    · exact askOutput_fdir ..
    · rfl
  · rfl

theorem guardStopEnded_fdir (s : State) (g : Fin 6) : (s.guardStopEnded g).fdir = s.fdir := by
  unfold State.guardStopEnded
  dsimp only
  split <;> rfl

theorem stopNeedsNoDrive_fdir (s : State) (g : Fin 6) : (s.stopNeedsNoDrive g).fdir = s.fdir := by
  unfold State.stopNeedsNoDrive
  split
  · split
    · split
      · split
        · exact guardStopEnded_fdir ..
        · rfl
      · rfl
    · rfl
  · rfl

/-- A STOP request gives the owner of the guard a motion at most. -/
theorem guardStop_record (s : State) (g : Fin 6) (entered : Bool) (k : Handle) {r : Record} (hr : s.record k = some r) :
    ∃ m, (s.guardStop g entered).record k = some { r with motion := m } := by
  unfold State.guardStop
  dsimp only
  split
  · split
    · exact ⟨r.motion, hr⟩
    · exact ⟨r.motion, (record_of_fdir (guardAsk_fdir ..) k).trans hr⟩
  · exact ⟨r.motion, hr⟩
  · unfold State.guardEnterDwell
    obtain ⟨m, q⟩ := putGuard_record s g
      { s.guard g with state := .dwell, runTimer := none, deadTimer := none, awaiting := true, slot := none } k hr
    refine ⟨m, ?_⟩
    rw [record_of_fdir (stopNeedsNoDrive_fdir ..)]
    split
    · exact q
    · rw [record_of_fdir (guardAsk_fdir ..)]
      exact q

theorem guardDriveReplied_fdir (s : State) (h : Handle) (w : OutWord) : (s.guardDriveReplied h w).fdir = s.fdir := by
  unfold State.guardDriveReplied
  split
  · split
    · split
      · exact guardStopEnded_fdir ..
      · rfl
    · rfl
  · rfl

/-! ### Claims -/

/-- What withholding brings about leaves a record as it is, a guard's motion apart. -/
theorem reactWithheld_record (s : State) (h : Handle) (old new : Record) (was : Bool) (k : Handle) {r : Record}
    (hr : s.record k = some r) : ∃ m, (s.reactWithheld h old new was).record k = some { r with motion := m } := by
  unfold State.reactWithheld
  split
  · have q : (s.enter h new new.safeWord).record k = some r := (record_of_fdir (enter_fdir ..) k).trans hr
    dsimp only
    split
    · exact guardStop_record _ _ _ _ q
    · exact ⟨r.motion, q⟩
  · split
    · split <;> exact ⟨r.motion, hr⟩
    · split
      · split
        · exact ⟨r.motion, (record_of_fdir (enterIfDiffers_fdir ..) k).trans hr⟩
        · exact ⟨r.motion, hr⟩
      · exact ⟨r.motion, hr⟩

/-- Without a guard the directory is left whole. -/
theorem reactWithheld_fdir (s : State) (h : Handle) (old new : Record) (was : Bool) (hg : new.guard = none) :
    (s.reactWithheld h old new was).fdir = s.fdir := by
  unfold State.reactWithheld
  rw [hg]
  split
  · exact enter_fdir ..
  · split
    · split <;> rfl
    · split
      · split
        · exact enterIfDiffers_fdir ..
        · rfl
      · rfl

/-- A record takes its new contents; a guard may give it a motion besides (R156). -/
theorem commit_record (s : State) (h : Handle) (old new : Record) :
    ∃ m, (s.commit h old new).record h = some { new with motion := m } := by
  unfold State.commit
  refine reactWithheld_record _ _ _ _ _ _ ?_
  have q : (s.setRecord h new).record h = some new := setRecord_record ..
  have j : (if old.state = new.state ∧ old.fault = new.fault then s.setRecord h new else (s.setRecord h new).join h).record h
      = some new := by split <;> exact q
  have mod : ∀ (u : State) (f : Slot → Slot), u.record h = some new → (f (u.slot h)).record = (u.slot h).record →
      (u.modifySlot h f).record h = some new := by
    intro u f a b
    unfold State.record State.modifySlot
    rw [slot_setSlot, b]
    exact a
  split
  · exact mod _ _ j rfl
  · split
    · exact mod _ _ j rfl
    · exact j

/-- A claim that is defined for the record a pair names gives it the contents its change names (R74, R75). -/
theorem claim_record {gen : Byte} {f : Record → Option Record} {r r' : Record} (hl : s.livePair h gen = some r)
    (hf : f r = some r') : ∃ m, (s.claim h gen f).record h = some { r' with motion := m } := by
  unfold State.claim
  rw [hl]
  simp only [hf]
  exact commit_record ..

/-! ### Records without a guard -/

@[simp] theorem enter_prv (s : State) (h : Handle) (r : Record) (w : OutWord) : (s.enter h r w).prv = s.prv := by
  unfold State.enter
  dsimp only
  split <;> rfl

@[simp] theorem enterIfDiffers_prv (s : State) (h : Handle) (r : Record) (w : OutWord) :
    (s.enterIfDiffers h r w).prv = s.prv := by
  unfold State.enterIfDiffers
  split
  · split
    · rfl
    · exact enter_prv ..
  · rfl

/-- Without a guard the Proving Unit is left whole. -/
theorem reactWithheld_prv (s : State) (h : Handle) (old new : Record) (was : Bool) (hg : new.guard = none) :
    (s.reactWithheld h old new was).prv = s.prv := by
  unfold State.reactWithheld
  rw [hg]
  split
  · exact enter_prv ..
  · split
    · split <;> rfl
    · split
      · split
        · exact enterIfDiffers_prv ..
        · rfl
      · rfl

/-- A record without a guard takes exactly its new contents, and the Proving Unit is left whole. -/
theorem commit_exact (s : State) (h : Handle) (old new : Record) (hg : new.guard = none) :
    (s.commit h old new).record h = some new ∧ (s.commit h old new).prv = s.prv := by
  unfold State.commit
  dsimp only
  rw [reactWithheld_prv _ _ _ _ _ hg, record_of_fdir (reactWithheld_fdir _ _ _ _ _ hg)]
  have q : (s.setRecord h new).record h = some new := setRecord_record ..
  have mod : ∀ (u : State) (f : Slot → Slot), u.record h = some new → (f (u.slot h)).record = (u.slot h).record →
      (u.modifySlot h f).record h = some new := by
    intro u f a b
    unfold State.record State.modifySlot
    rw [slot_setSlot, b]
    exact a
  have j : (if old.state = new.state ∧ old.fault = new.fault then s.setRecord h new
      else (s.setRecord h new).join h).record h = some new := by split <;> exact q
  refine ⟨?_, ?_⟩
  · split
    · exact mod _ _ j rfl
    · split
      · exact mod _ _ j rfl
      · exact j
  · split
    · split <;> rfl
    · split
      · split <;> rfl
      · split <;> rfl

/-- A claim that is defined for the record a pair names gives a record without a guard exactly the contents its change
names (R74, R75). -/
theorem claim_exact {gen : Byte} {f : Record → Option Record} {r r' : Record} (hl : s.livePair h gen = some r)
    (hf : f r = some r') (hg : r'.guard = none) :
    (s.claim h gen f).record h = some r' ∧ (s.claim h gen f).prv = s.prv := by
  unfold State.claim
  rw [hl]
  simp only [hf]
  exact commit_exact _ _ _ _ hg

end Sys2Proof.Machine
end

