-- ==== Sys2Proof/Laws/Slots.lean ====
section
/-! SUPPORT. What the operations that go over every slot, source list or guard leave of each, what a record that takes new
contents makes of its slot, and what becomes of a request that the engine places. -/

namespace Sys2Proof.Machine

/-- A pass over handles that gives each slot a new content by itself gives every slot of the list that content. -/
theorem foldl_slot {f : State → Handle → State} {g : Slot → Slot} (hf : ∀ u h, f u h = u.setSlot h (g (u.slot h)))
    (l : List Handle) (hl : l.Nodup) (s : State) (k : Handle) :
    (l.foldl f s).slot k = if k ∈ l then g (s.slot k) else s.slot k := by
  induction l generalizing s with
  | nil => simp
  | cons h l ih =>
      obtain ⟨hn, hl⟩ := List.nodup_cons.mp hl
      rw [List.foldl_cons, ih hl, hf]
      by_cases e : k = h
      · subst e
        simp [hn]
      · rw [slot_setSlot_ne _ _ (Ne.symm e)]
        simp [e]

theorem mem_allHandles (k : Handle) : k ∈ allHandles := List.mem_finRange k

/-- A pass over all handles. -/
theorem foldl_allHandles_slot {f : State → Handle → State} {g : Slot → Slot}
    (hf : ∀ u h, f u h = u.setSlot h (g (u.slot h))) (s : State) (k : Handle) :
    (allHandles.foldl f s).slot k = g (s.slot k) := by
  rw [foldl_slot hf _ allHandles_nodup, if_pos (mem_allHandles k)]

/-- What a pass over handles leaves as it is. -/
theorem foldl_same {α β : Type} {f : State → α → State} {p : State → β} (hf : ∀ u a, p (f u a) = p u)
    (l : List α) (s : State) : p (l.foldl f s) = p s := by
  induction l generalizing s with
  | nil => rfl
  | cons a l ih => rw [List.foldl_cons, ih, hf]

theorem setSlot_slot (s : State) (h : Handle) : s.setSlot h (s.slot h) = s := by
  have : s.fdir.slots.set h (s.slot h) = s.fdir.slots := by
    apply Vector.ext
    intro i hi
    simp only [Vector.getElem_set]
    split
    · next e => subst e; rfl
    · rfl
  unfold State.setSlot
  show ({ s with fdir := { s.fdir with slots := s.fdir.slots.set h (s.slot h) } } : State) = s
  rw [this]

/-! ### Deadlines that stand still and run on (R161) -/

theorem mapConfirms_step (f : Countdown → Countdown) (u : State) (h : Handle) :
    (match (u.slot h).confirm with
      | some _ => u.modifyConfirm h fun c => { c with deadline := f c.deadline }
      | none => u) = u.setSlot h ((fun x : Slot => { x with
        confirm := x.confirm.map fun c => { c with deadline := f c.deadline } }) (u.slot h)) := by
  split
  · rfl
  · next e =>
      conv => lhs; rw [← setSlot_slot u h]
      congr 1
      cases q : u.slot h
      simp_all

/-- Every confirm deadline is changed, and nothing else. -/
theorem mapConfirms_slot (s : State) (f : Countdown → Countdown) (k : Handle) : (s.mapConfirms f).slot k =
    { s.slot k with confirm := (s.slot k).confirm.map fun c => { c with deadline := f c.deadline } } := by
  unfold State.mapConfirms
  exact foldl_allHandles_slot (g := fun x : Slot => { x with
    confirm := x.confirm.map fun c => { c with deadline := f c.deadline } }) (mapConfirms_step f) s k

theorem mapConfirms_same {β : Type} (p : State → β) (hp : ∀ (u : State) h x, p (u.setSlot h x) = p u) (s : State)
    (f : Countdown → Countdown) : p (s.mapConfirms f) = p s := by
  refine foldl_same (fun u h => ?_) _ _
  split
  · exact hp ..
  · rfl

@[simp] theorem mapConfirms_now (s : State) (f : Countdown → Countdown) : (s.mapConfirms f).now = s.now :=
  mapConfirms_same _ (fun _ _ _ => rfl) s f
@[simp] theorem mapConfirms_ntab (s : State) (f : Countdown → Countdown) : (s.mapConfirms f).ntab = s.ntab :=
  mapConfirms_same _ (fun _ _ _ => rfl) s f
@[simp] theorem mapConfirms_bue (s : State) (f : Countdown → Countdown) : (s.mapConfirms f).bue = s.bue :=
  mapConfirms_same _ (fun _ _ _ => rfl) s f

/-! ### What a teardown and a link restart empty (R49, R50, R66, R134) -/

theorem foldl_setGuard (l : List (Fin 6)) (x : Guard) (s : State) (g : Fin 6) :
    (l.foldl (fun u k => u.setGuard k x) s).guard g = if g ∈ l then x else s.guard g := by
  induction l generalizing s with
  | nil => simp
  | cons k l ih =>
      rw [List.foldl_cons, ih]
      by_cases m : g ∈ l
      · simp [m]
      · by_cases e : g = k
        · subst e
          simp [m, State.guard, State.setGuard]
        · have n : k.val ≠ g.val := fun q => e (Fin.ext q.symm)
          simp [m, e, State.guard, State.setGuard, n]

theorem foldl_setList (l : List Src) (s : State) (x : Src) :
    (l.foldl (fun u k => u.setList k []) s).list x = if x ∈ l then [] else s.list x := by
  induction l generalizing s with
  | nil => simp
  | cons k l ih =>
      rw [List.foldl_cons, ih]
      by_cases m : x ∈ l
      · simp [m]
      · by_cases e : x = k
        · subst e
          simp [m, State.list, State.setList]
        · have n : k.val ≠ x.val := fun q => e (Fin.ext q.symm)
          simp [m, e, State.list, State.setList, n]

/-- The emptied blocks, one by one. -/
theorem emptyBlocks_cleared (s : State) : s.emptyBlocks.prv = { list := [], proof := none }
    ∧ s.emptyBlocks.drt.pend = [] ∧ (∀ x : Src, s.emptyBlocks.list x = [])
    ∧ (∀ g : Fin 6, s.emptyBlocks.guard g = Guard.reset)
    ∧ ∀ k : Handle, s.emptyBlocks.slot k =
        { s.slot k with confirm := none, sampleVoid := (s.slot k).sampleMark != .clear } := by
  unfold State.emptyBlocks
  obtain ⟨a, ha⟩ : ∃ a, allHandles.foldl State.removeConfirm s = a := ⟨_, rfl⟩
  obtain ⟨b, hb⟩ : ∃ b, (List.finRange 6).foldl (fun u g => u.setGuard g Guard.reset) a = b := ⟨_, rfl⟩
  obtain ⟨c, hc⟩ : ∃ c, (List.finRange 18).foldl (fun u x => u.setList x []) b = c := ⟨_, rfl⟩
  dsimp only
  rw [ha, hb, hc]
  refine ⟨rfl, rfl, fun x => ?_, fun g => ?_, fun k => ?_⟩
  · show c.list x = []
    rw [← hc, foldl_setList, if_pos (List.mem_finRange x)]
  · show c.guard g = Guard.reset
    have keep := foldl_same (f := fun u x => u.setList x []) (p := fun u => u.guard g) (fun _ _ => rfl) (List.finRange 18) b
    rw [← hc, keep, ← hb, foldl_setGuard, if_pos (List.mem_finRange g)]
  · show c.slot k = _
    have lists := foldl_same (f := fun u x => u.setList x []) (p := fun u => u.slot k) (fun _ _ => rfl) (List.finRange 18) b
    have guards := foldl_same (f := fun u g => u.setGuard g Guard.reset) (p := fun u => u.slot k) (fun _ _ => rfl)
      (List.finRange 6) a
    rw [← hc, lists, ← hb, guards, ← ha]
    exact foldl_allHandles_slot (g := fun x : Slot => { x with confirm := none, sampleVoid := x.sampleMark != .clear })
      (fun _ _ => rfl) s k

/-! ### Claims and confirm entries (R76, R160) -/

/-- What becomes of the slot of a record that takes new contents: the record, and its confirm entry on entry to the usable
states and on leaving them (R76, R160). -/
def Slot.committed (s : State) (old new : Record) (x : Slot) : Slot :=
  if new.state.usable && !old.state.usable then { x with record := some new, confirm := some (s.newConfirm new) }
  else if old.state.usable && !new.state.usable then
    { x with record := some new, confirm := none, sampleVoid := x.sampleMark != .clear }
  else { x with record := some new }

/-- A record without a guard that takes new contents changes its own slot and no other. -/
theorem commit_slot (s : State) (h : Handle) (old new : Record) (hg : new.guard = none) :
    (s.commit h old new).slot h = Slot.committed s old new (s.slot h)
    ∧ ∀ k, h ≠ k → (s.commit h old new).slot k = s.slot k := by
  unfold State.commit Slot.committed
  dsimp only
  have hf : ∀ u : State, ∀ k, (u.reactWithheld h old new (s.withheld h old)).slot k = u.slot k := by
    intro u k; unfold State.slot; rw [reactWithheld_fdir _ _ _ _ _ hg]
  rw [hf]
  have e : ∀ (c : Prop) [Decidable c] (k : Handle),
      (if c then s.setRecord h new else (s.setRecord h new).join h).slot k = (s.setRecord h new).slot k := by
    intro c _ k; split <;> rfl
  refine ⟨?_, fun k hk => ?_⟩
  · split
    · unfold State.createConfirm State.modifySlot
      rw [slot_setSlot, e]
      unfold State.setRecord State.modifySlot
      rw [slot_setSlot]
      have : ∀ u : State, u.now = s.now → u.tdl = s.tdl → u.newConfirm new = s.newConfirm new := by
        intro u a b; unfold State.newConfirm State.lineRuns; rw [a, b]
      rw [this]
      · split <;> rfl
      · split <;> rfl
    · split
      · unfold State.removeConfirm State.modifySlot
        rw [slot_setSlot, e]
        unfold State.setRecord State.modifySlot
        rw [slot_setSlot]
      · rw [e]
        unfold State.setRecord State.modifySlot
        rw [slot_setSlot]
  · rw [hf]
    have base : (s.setRecord h new).slot k = s.slot k := setRecord_ne _ hk _
    split
    · unfold State.createConfirm State.modifySlot
      rw [slot_setSlot_ne _ _ hk, e, base]
    · split
      · unfold State.removeConfirm State.modifySlot
        rw [slot_setSlot_ne _ _ hk, e, base]
      · rw [e, base]
/-! ### The engine's own request (R31) -/

/-- A request of the engine's that the routine class takes. -/
theorem placeBue_taken (s : State) (r : WalkReq) (hd : s.tdl.line ≠ .down) (hr : s.routineEntries < Config.routineSize) :
    s.placeBue r = (({ s with
      tdl := { s.tdl with routine := s.tdl.routine ++ [r.request] }
      bue := { s.bue with request := .queued } } : State).describePlaced r) := by
  unfold State.placeBue State.claimRoutine
  simp [hd, hr]
  rfl

/-- One refused FULL is still to be placed. -/
theorem placeBue_full (s : State) (r : WalkReq) (hd : s.tdl.line ≠ .down) (hr : ¬ s.routineEntries < Config.routineSize) :
    s.placeBue r = s.setBue { s.bue with request := .unplaced r } := by
  unfold State.placeBue State.claimRoutine
  simp [hd, hr]

/-- One refused DOWN is given up. -/
theorem placeBue_down (s : State) (r : WalkReq) (hd : s.tdl.line = .down) :
    s.placeBue r = s.setBue { s.bue with request := .none } := by
  unfold State.placeBue State.claimRoutine
  simp [hd]

/-- Only the first Describe of a node moves its entry. -/
theorem describePlaced_other (s : State) (r : WalkReq) (h : ∀ a i, r ≠ .describe a i false) : s.describePlaced r = s := by
  unfold State.describePlaced
  split
  · exact absurd rfl (h _ _)
  · rfl

end Sys2Proof.Machine
end

