-- ==== Sys2Proof/Tests/Slice0.lean ====
section
/-! SUPPORT. Tests: well-formedness refuses what cannot arise, the hypotheses of every statement are met by a concrete
state and operands, and small steps of the model on small states. -/

namespace Sys2Proof.Tests

open Sys2Proof Sys2Proof.Machine

set_option Elab.async false

/-! ### Well-formedness -/

theorem test_wf_known_byte_is_not_unknown : (Instr.unknownCommand 0x01).wf = false := by decide
theorem test_wf_unknown_byte : (Instr.unknownCommand 0x00).wf = true := by decide
theorem test_wf_incomplete_of_known_is_not_unknown : (Instr.incompleteTransaction (.unknown 0x47)).wf = false := by decide
theorem test_wf_all_parameters_received : (Instr.incompleteTransaction (.missingParameters 0x20 6)).wf = false := by decide
theorem test_wf_one_parameter_missing : (Instr.incompleteTransaction (.missingParameters 0x20 5)).wf = true := by decide
theorem test_wf_parameters_of_no_command : (Instr.incompleteTransaction (.missingParameters 0x48 0)).wf = false := by decide
theorem test_wf_short_reply : (Instr.replyComplete [0xA5, 0x01]).wf = false := by decide
theorem test_wf_long_reply : (Instr.replyComplete (0xA5 :: List.replicate 12 0)).wf = false := by decide
theorem test_wf_reply_without_lead : (Instr.replyComplete [0xA4, 0x01, 0x00]).wf = false := by decide
theorem test_wf_shortest_reply : (Instr.replyComplete [0xA5, 0x01, 0x00]).wf = true := by decide

/-! ### Small states -/

/-- The state a command leads to. -/
def run (c : Instr) (s : State) : State := match exec c s with
  | .next t => t
  | _ => s

/-- A lamp in a state. -/
def lampIn (x : RecState) : Record :=
  { state := x, address := some 0, position := 1, unit := 1, index := 0,
    entry := .lamp .tail .left 10 25 200 0, binding := none, intended := none, fault := .none, before := none,
    wanted := some .off, confirmed := none, reading := none, lowThreshold := 0x8000, highThreshold := 0x7FFF,
    interval := some 1000, guard := none, motion := none, reason := none,
    drive := some { lastPlaced := some .off, failed := false } }

/-- A READY bistable actuator. -/
def valve : Record :=
  { lampIn .ready with
    entry := .actuator false 0 0 0 0, wanted := some .stop, motion := some .stopped,
    drive := some { lastPlaced := some .stop, failed := false } }

/-- A READY reversing actuator with guard 0. -/
def motor : Record := { valve with entry := .actuator true 10 0 0 0, guard := some 0 }

/-- A READY sensor. -/
def gauge : Record :=
  { lampIn .ready with
    entry := .sensor 0 0 0 0 0, wanted := none, drive := none,
    reading := some { value := 640, age := .counting 0 0, threshold := .normal } }

/-- A node entry at address 1 with a live node of two functions. -/
def node : NodeEntry :=
  { state := .live, address := 0, unit := 1, head := true, identity := 7, count := 2, admitted := 1, unadmitted := 1,
    echo := 21, gateOpen := true, failures := 0, heard := .counting 0 0, summary := 0, endDigest := some 0 }

/-- A slot of generation 1 with a record. -/
def slotOf (r : Record) : Slot := { Slot.reset with gen := 1, record := some r }

/-- Handle 1 holds a record. -/
def withRecord (r : Record) : State :=
  { State.reset with fdir := { Fdir.reset with slots := Fdir.reset.slots.set 0 (slotOf r) } }

/-- A lamp tied to TAIL_L, on its list. -/
def tied (x : RecState) : Record := { lampIn x with binding := some 0 }

/-- A sixteen times filled list. -/
def fullList : State := State.setList (withRecord (lampIn .ready)) 0 (List.replicate 16 5)

/-- The list's scan is over. -/
def scanned : State := { State.reset with ktl := { State.reset.ktl with scanning := false } }

/-- WEL is set besides. -/
def writable : State := { scanned with ktl := { scanned.ktl with wel := true } }

/-- One node, and the engine in a state, on a line in a state. -/
def working (l : LineState) (e : EngineState) : State :=
  { State.reset with
    cmon := { Cmon.reset with state := .coupled, sense := true }
    tdl := { Tdl.reset with line := l, linePresent := true }
    bue := { Bue.reset with
      state := e, units := [{ first := 1, headless := false, nodeCount := 1, digest := 0, outcome := .miss }],
      chainEnd := .ended, settledOnce := true }
    ntab := { Ntab.reset with nodes := [node], tick := .running 100 } }

/-- The handle's record under a proof: lit by TAIL_L, with its Sample or Prove in the queue. -/
def underProof (x : ProofForm) (st : ProofStage) : State :=
  let s := withRecord { lampIn .proving with intended := some 0 }
  let p : Proof :=
    { handle := 0, gen := 1, form := x, stage := st, placed := true, notOn := false, missed := 3, left := false, stopped := false }
  { s with prv := { list := [], proof := some p } }

/-- A record with a confirm entry on a line in a state. -/
def confirming (r : Record) (l : LineState) : State :=
  let s := working l .settled
  let c : ConfirmEntry := { deadline := .running 0, phaseWait := false, mismatch := true }
  let x : Slot := { slotOf r with sampleMark := .queued, confirm := some c }
  { s with fdir := { Fdir.reset with slots := Fdir.reset.slots.set 0 x } }

/-- The walk in a state, with one node and no unit matched. -/
def walking (e : EngineState) : State :=
  let s := working .ready e
  s.setBue { s.bue with
    units := [{ first := 1, headless := false, nodeCount := 1, digest := 0, outcome := .none }], chainEnd := .none,
    lastProbe := some { identity := 9, head := true, count := 2 }, nextIndex := 1 }

/-- A Hail to address 1 in a stage of its first or second attempt. -/
def hailing (second : Bool) (x : Stage) : InFlight :=
  { req := .hail 0 .none, urgent := false, second := second, seq := false, window := 5, stage := x }

/-- A Probe. -/
def probing (x : Stage) : InFlight := { hailing false x with req := .probe }

/-- BUSY with an attempt in flight. -/
def busy (f : Option InFlight) : State :=
  { working .busy .settled with tdl := { (working .busy .settled).tdl with inFlight := f } }

/-! ### The hypotheses of the statements are met -/

theorem test_reset_answers : State.reset.portSilent = false ∧ State.reset.hcp.inReset = false := by decide

theorem test_reset_is_kept : State.reset.pinsFollow = true ∧ State.reset.wellKept = true ∧ State.reset.portOk = true := by
  decide +kernel

theorem test_blank_cell_is_empty (i : Fin 16) : State.reset.ktl.cells[i].taken.state = .empty := by
  have : State.reset.ktl.cells[i] = KtlCell.blank := by
    show (Vector.replicate 16 KtlCell.blank)[i] = _
    simp
  rw [this]
  decide +kernel

theorem test_reset_is_within_limits : State.reset.withinLimits := by
  refine ⟨by decide, fun x => ?_, queueKept_empty rfl rfl rfl, List.nodup_nil, ⟨List.nodup_nil, by decide⟩,
    ⟨List.nodup_nil, fun h m => absurd m (List.not_mem_nil)⟩,
    fun i _ _ a => absurd (test_blank_cell_is_empty i) a, fun a => absurd a (by decide),
    fun _ => ⟨rfl, fun i => ?_⟩, fun w a => nomatch a⟩
  · have : State.reset.list x = [] := by
      show (Vector.replicate 18 ([] : List Handle))[x] = []
      simp
    simp [this]
  · show (Vector.replicate 16 KtlEntry.blank)[i].state = .empty
    simp [KtlEntry.blank]

theorem test_reset_engine_is_quiet : State.reset.engineQuiet := ⟨rfl, rfl⟩

theorem test_empty_queue : State.reset.pending = [] := rfl

/-- A step and a command that answer a next state, for the statements about every step and every command. -/
theorem test_a_step : step State.reset = .next State.reset.tickClock := rfl

theorem test_a_command : exec .lineRequest State.reset = .next State.reset ∧ Instr.lineRequest.resets = false
    ∧ Instr.lineRequest.ofReset = false := ⟨rfl, rfl, rfl⟩

/-- A port that is silent, and a device reset, with commands that are not of RESET. -/
theorem test_silent : (State.portSilent (run .resetFall State.reset)) = true ∧ Instr.readStatus.ofHost = true
    ∧ (run .supplyReset State.reset).hcp.inReset = true ∧ Instr.gapEnd.ofHost = false := by decide +kernel

/-- For the slots: a live record, a retired one. -/
theorem test_records : ((withRecord (lampIn .ready)).record 0).isSome = true
    ∧ (withRecord (lampIn .retired)).record 0 = some (lampIn .retired) ∧ (lampIn .retired).state = .retired := by
  decide +kernel

theorem test_generations : ∀ h : Handle, ((withRecord (lampIn .ready)).record h).isSome = true →
    ((withRecord (lampIn .ready)).slot h).gen ≠ 0 := by decide +kernel

theorem test_masks : (0x0FFF : Half) &&& 0xF000 = 0 ∧ (0x1000 : Half) &&& 0xF000 ≠ 0 ∧ (0x1FFF : Half) &&& 0xE000 = 0
    ∧ (0x2000 : Half) &&& 0xE000 ≠ 0 := by decide

theorem test_settings : settingOk 0 1 = true ∧ settingOk 3 2 = false ∧ settingOk 4 500 = true ∧ settingOk 4 499 = false
    ∧ settingOk 5 6 = true ∧ settingOk 6 500 = true ∧ settingOk 7 100 = true ∧ settingOk 10 5000 = true
    ∧ settingOk 11 0 = true ∧ settingOk 12 2 = true ∧ settingOk 14 12 = true ∧ settingOk 14 13 = false
    ∧ settingOk 15 0 = false := by decide

theorem test_turn_inputs : State.reset.turnInput .left = !true ∧ State.reset.turnInput .right = !true := by decide

theorem test_streams : (State.reset.setResponse [] (.records 95)).hcp.stream = .records (95 : Handle).val
    ∧ (State.reset.setResponse [] (.nodes 12)).hcp.stream = .nodes 12
    ∧ (State.reset.setResponse [] (.records 96)).hcp.stream = .records 96
    ∧ (State.reset.setResponse [] (.nodes 13)).hcp.stream = .nodes 13 ∧ State.reset.hcp.stream = .none := by decide

theorem test_lookups : parseLookup 0 9 2 3 0x7F 96 = some
      ({ cls := some .lamp, role := some .beacon, side := some .centre, unit := some 3, mask := 0x7F }, 95)
    ∧ parseLookup 0xFF 0xFF 0xFF 0xFF 0 1 =
        some ({ cls := none, role := none, side := none, unit := none, mask := 0 }, 0)
    ∧ parseLookup 4 0xFF 0xFF 0xFF 0 1 = none ∧ parseLookup 0 0xFF 0xFF 0 0 1 = none
    ∧ parseLookup 0 0xFF 0xFF 0xFF 0x80 1 = none ∧ parseLookup 0 0xFF 0xFF 0xFF 0 97 = none := by decide

theorem test_pairs : (withRecord (lampIn .ready)).named 1 1 = some (0, lampIn .ready)
    ∧ (withRecord (lampIn .ready)).named 1 2 = none ∧ (withRecord (lampIn .ready)).named 2 1 = none
    ∧ (withRecord (lampIn .ready)).named 0 1 = none ∧ (withRecord (lampIn .ready)).named 97 1 = none
    ∧ (withRecord (lampIn .ready)).portSilent = false := by decide +kernel

theorem test_tie_changes : (withRecord (lampIn .ready)).live 0 = some (lampIn .ready) ∧ (lampIn .ready).tie ≠ some 3
    ∧ (withRecord (tied .bound)).live 0 = some (tied .bound) ∧ (tied .bound).tie ≠ none
    ∧ (withRecord { tied .stale with before := some .bound }).live 0 = some { tied .stale with before := some .bound }
    ∧ (withRecord { lampIn .stale with before := some .ready }).live 0 = some { lampIn .stale with before := some .ready }
    := by decide +kernel

theorem test_named_kinds : (withRecord gauge).named 1 1 = some (0, gauge) ∧ (withRecord motor).named 1 1 = some (0, motor)
    ∧ (withRecord valve).named 1 1 = some (0, valve)
    ∧ (withRecord (lampIn .retired)).named 1 1 = some (0, lampIn .retired) := by decide +kernel

/-- DRIVE's effect: a word last placed, one that was not, with and without an entry, a withheld record, a guard. -/
theorem test_drive_effect : (withRecord valve).record 0 = some valve ∧ valve.state.usable = true ∧ valve.guard = none
    ∧ valve.overloadHeld = false ∧ valve.drive = some { lastPlaced := some .stop, failed := false }
    ∧ (withRecord valve).pendHolds 0 = false ∧ ((withRecord valve).enter 0 valve .runA).pendHolds 0 = true
    ∧ Record.overloadHeld { valve with state := .faulted, fault := .overload } = true ∧ motor.guard = some 0 := by
  decide +kernel

/-- A Drive's outcome: for a record that is gone, at failure counts 0 and 1, withheld, and with a guard that awaits
STOP. -/
theorem test_drive_outcomes : (withRecord valve).livePair 0 1 = some valve ∧ (withRecord valve).livePair 1 1 = none
    ∧ (withRecord (lampIn .retired)).livePair 0 1 = none
    ∧ (withRecord (lampIn .retired)).livePair 0 0 = none
    ∧ (withRecord valve).withheld 0 valve = false ∧ (withRecord valve).placeWord valve = some .stop
    ∧ Record.overloadHeld { valve with state := .faulted, fault := .overload } = true
    ∧ (underProof .pulse .request).withheld 0 { lampIn .proving with intended := some 0 } = true
    ∧ (({ lastPlaced := none, failed := true } : DriveState).failed = true)
    ∧ (((withRecord motor).setGuard 0 { Guard.reset with state := .dwell, awaiting := true }).guard 0).awaiting = true := by
  decide +kernel

/-- A proof whose outcome comes, in both forms, DRAINING, with its fourth missed phase and its first, and its source
demanded or not, phased or not. -/
theorem test_proof_outcomes : (underProof .pulse .request).prv.proof.map (·.placed) = some true
    ∧ (underProof .steady .request).prv.proof.map (·.form) = some .steady
    ∧ (underProof .pulse .draining).prv.proof.map (·.stage) = some .draining
    ∧ (underProof .steady .request).livePair 0 1 = some { lampIn .proving with intended := some 0 }
    ∧ (underProof .steady .request).prv.proof.map (·.missed) = some 3
    ∧ (underProof .steady .request).demanded 0 = false
    ∧ ((underProof .steady .request).setSourceEntry 0 { active := true, form := .steady }).demanded 0 = true
    ∧ ((underProof .steady .request).setSourceEntry 0 { active := true, form := .steady }).phased 0 = false
    ∧ ((underProof .steady .request).setSourceEntry 9 { active := true, form := .flashing .flB }).phased 9 = true := by
  decide +kernel

/-- Admission: the lowest slot, a slot with those below it in use, none; and the entries of each class. -/
theorem test_admissions : State.reset.record 0 = none ∧ (withRecord valve).record 1 = none
    ∧ ((withRecord valve).record 0).isSome = true ∧ (working .ready .settled).nodeAt 1 = some node
    ∧ ({ State.reset with fdir := { Fdir.reset with slots := Vector.replicate 96 (slotOf valve) } } : State).freeSlot = none
    ∧ parseEntry [0, 0x92, 255, 95, 250, 0] = some (.lamp .beacon .centre 255 95 250 0)
    ∧ parseEntry [0, 0, 1, 0, 0, 0] = some (.lamp .tail .left 1 25 200 0)
    ∧ parseEntry [1, 5, 0, 0, 0, 0] = some (.sensor 5 0 0 0 0) ∧ parseEntry [2, 1, 0, 0, 0, 0] = some (.actuator true 0 0 0 0)
    ∧ parseEntry [3, 0, 1, 0, 0, 0] = some (.supply 0 1 0 0 0) ∧ parseEntry [0, 0x93, 1, 0, 0, 0] = none
    ∧ parseEntry [0, 0, 1, 96, 0, 0] = none ∧ parseEntry [4, 0, 1, 0, 0, 0] = none
    ∧ defaultSource .turn .centre = none ∧ defaultSource .beacon .left = some 9 ∧ State.reset.freeGuard = some 0 := by
  decide +kernel

/-- Outcomes of the scheduler's Samples: of every class, settled or not, with each fault that a reply may clear or keep. -/
theorem test_confirms : (confirming (lampIn .ready) .ready).livePair 0 1 = some (lampIn .ready)
    ∧ ((confirming (lampIn .ready) .ready).slot 0).confirm.map (·.mismatch) = some true
    ∧ ((confirming (lampIn .ready) .ready).slot 0).sampleVoid = false
    ∧ (confirming (lampIn .ready) .ready).settled 0 = true
    ∧ ((confirming (lampIn .ready) .ready).enter 0 (lampIn .ready) .on).settled 0 = false
    ∧ (confirming gauge .ready).livePair 0 1 = some gauge ∧ gauge.cls = .sensor ∧ gauge.guard = none
    ∧ (confirming valve .yielded).livePair 0 1 = some valve ∧ valve.guard = none ∧ valve.cls = .actuator
    ∧ (confirming { lampIn .stale with before := some .faulted } .ready).livePair 0 1
      = some { lampIn .stale with before := some .faulted }
    ∧ OutWord.ofCode ((0x80 : Byte).toNat % 128) = some .off ∧ OutWord.ofCode ((8 : Byte).toNat % 128) = some .stop
    ∧ OutWord.ofCode ((0x85 : Byte).toNat % 128) = some (.flash .flV)
    ∧ Record.overloadHeld { lampIn .faulted with fault := .overload } = true
    ∧ (lampIn .ready).drive.bind (·.lastPlaced) = some .off := by decide +kernel

/-- The judgement at the edges of a lamp's band, 25 % to 200 % of ten counts (R105, R167). -/
theorem test_bands : (lampIn .ready).entry.judge 2 = some .open ∧ (lampIn .ready).entry.judge 3 = none
    ∧ (lampIn .ready).entry.judge 20 = none ∧ (lampIn .ready).entry.judge 21 = some .overload := by decide

theorem test_prove_states : (lampIn .ready).cls = .lamp ∧ (lampIn .stale).state ≠ .ready ∧ valve.cls ≠ .lamp := by decide

theorem test_retire : (lampIn .ready).state ≠ .retired ∧ 0 < (lampIn .ready).position
    ∧ ((withRecord (lampIn .retired)).slot 0).retireDrive = .none
    ∧ (((withRecord (lampIn .retired)).modifySlot 0 fun x => { x with retireDrive := .placed }).slot 0).retireDrive
        ≠ .none := by decide +kernel

theorem test_demands : (1 : BitVec 8).toNat + 11 = (12 : Src).val ∧ (6 : BitVec 8).toNat + 11 = (17 : Src).val
    ∧ ¬ (1 ≤ (7 : BitVec 8).toNat ∧ (7 : BitVec 8).toNat ≤ 6 ∧ (0 : BitVec 8).toNat ≤ 1) := by decide

theorem test_engine_states : State.reset.bue.state ≠ .waitStart ∧ State.reset.bue.state ≠ .halted
    ∧ (working .ready .waitStart).bue.state = .waitStart ∧ (working .ready .halted).bue.state = .halted
    ∧ (working .ready .halted).recatOutstanding = false ∧ (working .ready .halted).ntab.nodes.length < 12 := by
  decide +kernel

theorem test_refused_gate :
    let s := working .ready .halted
    let s := s.setBue { s.bue with halt := .gateRefused, haltPosition := 1 }
    s.bue.halt = .gateRefused ∧ s.bue.haltPosition ≤ s.ntab.nodes.length ∧ s.bue.dropping = false
    ∧ s.bue.deferred = .none := by decide +kernel

/-- The walk: a head and another node, a unit matched and not, three units, a known identity, and what is known of the
queue and the addresses. -/
theorem test_walk : (walking .probe).bue.units.getLast?.map (·.outcome) = some .none
    ∧ (working .ready .probe).bue.units.getLast?.map (·.outcome) = some .miss
    ∧ (walking .probe).nvBusy = true ∧ ({ walking .probe with ktl := scanned.ktl } : State).nvBusy = false
    ∧ (parseProbe (identityBytes 7 ++ [0x90])) = { identity := 7, head := true, count := 16 }
    ∧ (parseProbe (identityBytes 9 ++ [0x11])) = { identity := 9, head := false, count := 17 }
    ∧ (walking .probe).nodeAt 1 = some node ∧ node.identity = 7 ∧ (walking .probe).fdir.recat = none
    ∧ (List.replicate 3 (newUnit 1 true)).length = 3
    ∧ (walking .probe).freeAddress = some 1 ∧ ((walking .probe).holdAddress 1).freeAddress = some 2
    ∧ (walking .assign).bue.lastProbe = some { identity := 9, head := true, count := 2 }
    ∧ (∀ n ∈ (walking .assign).ntab.nodes, n.address ≠ 1) ∧ (walking .assign).routineEntries < 24
    ∧ (walking .assign).bue.tries < 2 := by decide +kernel

theorem test_walk_is_kept : (walking .probe).ntab.nodesKept := ⟨by decide +kernel, by decide +kernel⟩

/-- Describes: the last index of a node and one before it, with a valid entry, one that is not, and no slot left. -/
theorem test_describes : (walking .describe).ntab.nodes.getLast? = some node ∧ 1 ≤ node.unit
    ∧ ((walking .describe).bue.units[node.unit - 1]?).map (·.digest) = some 0
    ∧ node.count ≤ (walking .describe).bue.nextIndex + 1
    ∧ ((1 : FnIndex).val = (walking .describe).bue.nextIndex ∧ (1 : FnIndex).val < node.count)
    ∧ (walking .describe).record 0 = none ∧ node.address = 0
    ∧ (walking .extend).bue.errand = .none := by decide +kernel

theorem test_recatalogue : (working .ready .settled).nodeAt (1 : BitVec 8).toNat = some node
    ∧ (working .ready .settled).nodeAt (12 : BitVec 8).toNat = none ∧ node.state ≠ .assigned
    ∧ (working .ready .settled).fdir.recat = none
    ∧ ({ node with state := .assigned } : NodeEntry).state = .assigned := by decide +kernel

theorem test_list_states : State.reset.ktl.scanning = true ∧ scanned.ktl.scanning = false ∧ scanned.ktl.write = none
    ∧ scanned.hcp.nvlock = false ∧ scanned.ktl.wel = false ∧ writable.ktl.wel = true
    ∧ ({ scanned with hcp := { scanned.hcp with nvlock := true } } : State).hcp.nvlock = true
    ∧ (0 : Fin 16).val = (0 : BitVec 8).toNat ∧ (15 : Fin 16).val = (15 : BitVec 8).toNat := by decide +kernel

/-- An entry that matches and one that differs, a hint that applies and one that finds no record, and the entry that a
unit is remembered in. -/
theorem test_matches :
    let e : KtlEntry := { KtlEntry.blank with state := .valid, identity := 7, digest := 1, nodeCount := 1, stamp := 5 }
    let s := scanned.setKtl { scanned.ktl with entries := scanned.ktl.entries.set 15 e }
    (s.answerMatch { unit := 1, first := 1, identity := 7, digest := 1, nodeCount := 1 }).2 = .hit
    ∧ (s.answerMatch { unit := 1, first := 1, identity := 7, digest := 2, nodeCount := 1 }).2 = .mismatch
    ∧ (s.answerMatch { unit := 1, first := 1, identity := 8, digest := 1, nodeCount := 1 }).2 = .miss
    ∧ s.chooseEntry 7 = some 15 ∧ s.chooseEntry 8 = some 0 := by decide +kernel

theorem test_hints : (confirming (lampIn .ready) .ready).recordOf 1 0 = some 0
    ∧ (confirming (lampIn .ready) .ready).recordOf 1 1 = none ∧ (confirming (lampIn .ready) .ready).nodeAt 1 = some node
    ∧ (confirming (lampIn .ready) .ready).nodeAt 13 = none
    ∧ ((confirming (lampIn .ready) .ready).list 17).length < 16 := by decide +kernel

theorem test_full_entries :
    let s := scanned.setKtl { scanned.ktl with entries := Vector.replicate 16 { KtlEntry.blank with state := .pinned } }
    let t := scanned.setKtl { scanned.ktl with entries := Vector.replicate 16 { KtlEntry.blank with state := .valid } }
    s.chooseEntry 7 = none ∧ t.chooseEntry 7 = some 0 ∧ (∀ j : Fin 16, (s.ktlEntry j).state = .pinned)
    ∧ (∀ j : Fin 16, (t.ktlEntry j).state = .valid) := by decide +kernel

theorem test_list_entries : (scanned.ktlEntry 15).state = .empty
    ∧ ((scanned.setKtl { scanned.ktl with entries := scanned.ktl.entries.set 0 { KtlEntry.blank with state := .valid } }
        ).ktlEntry 0).state ≠ .empty := by decide +kernel

theorem test_monitor : State.reset.cmon.sense = false ∧ State.reset.cmon.state = .uncoupled
    ∧ (working .ready .settled).cmon.sense = true ∧ (working .ready .settled).cmon.state = .coupled
    ∧ (working .ready .settled).tdl.linePresent = true
    ∧ (working .ready .settled).tdl.line ∈ [.ready, .busy, .yielded, .reclaiming]
    ∧ (working .fault .settled).tdl.line ∉ [.ready, .busy, .yielded, .reclaiming]
    ∧ ((working .ready .settled).setCmon { Cmon.reset with state := .parting }).tdl.line = .ready := by decide +kernel

/-- The other states of the monitor, and the timers. -/
theorem test_monitor_timers :
    (State.reset.setCmon { Cmon.reset with state := .settling, sense := true, settle := some 3000 }).cmon.settle
      = some 3000
    ∧ (State.reset.setCmon { Cmon.reset with state := .parting, part := some 1000 }).cmon.part = some 1000
    ∧ (State.reset.setCmon { Cmon.reset with state := .parting, lineLost := true }).cmon.lineLost = true
    ∧ (run .reclaimTimeout State.reset).tdl.faultEnds = none
    ∧ ((working .ready .settled).enterFault).tdl.faultEnds = some 10000 := by decide +kernel

theorem test_yields : (working .ready .settled).lineRuns = true ∧ (working .ready .settled).driving = false
    ∧ (working .ready .settled).tdl.inFlight = none ∧ State.reset.lineRuns = false
    ∧ (busy (some (hailing false (.window 0 0 50)))).driving = false
    ∧ (busy (some (hailing true (.replying 21)))).driving = false
    ∧ (busy (some (hailing false (.replying 21)))).tdl.inFlight = some (hailing false (.replying 21))
    ∧ ((working .ready .settled).enterYielded).tdl.yieldEnds = some 3000
    ∧ ((working .ready .settled).enterYielded).tdl.line = .yielded := by decide +kernel

theorem test_reclaims : ((working .ready .settled).enterYielded.startReclaim).tdl.line = .reclaiming
    ∧ ((working .ready .settled).enterYielded.startReclaim).tdl.reclaim = .mark 20
    ∧ ((State.reset.setTdl { Tdl.reset with reclaim := .watch 20 }).tdl.reclaim = .watch 20)
    ∧ ((working .ready .settled).enterFault).tdl.line = .fault
    ∧ ((working .ready .settled).enterFault).tdl.linePresent = true := by decide +kernel

/-- Claims: a Drive in flight, one that waits in either class, a full class, a line that refuses marks; and the arbiter with
its count at 7 and at 8. -/
theorem test_claims :
    let d : DriveReq := { address := 0, index := 0, handle := 5, gen := 1, word := .on, prior := none }
    let s := working .ready .settled
    (s.claimDrive d true).2 = .taken ∧ ((s.setUrgent [.drive d]).claimDrive d false).2 = .merged
    ∧ ((s.setRoutine [.drive d]).claimDrive d true).2 = .merged
    ∧ ((busy (some { hailing false .due with req := .drive d })).claimDrive d true).2 = .inFlight
    ∧ ((s.setRoutine (List.replicate 24 .probe)).claimDrive d false).2 = .full
    ∧ ((s.setRoutine (List.replicate 24 .probe)).claimRoutine .probe).2 = .full
    ∧ ((s.setRoutine (List.replicate 23 .probe)).claimRoutine .probe).2 = .taken
    ∧ ((s.setUrgent (List.replicate 8 (.phaseMark 1 true))).claimMark 1 true).2 = .full
    ∧ ((working .yielded .settled).claimMark 1 true).2 = .down ∧ (State.reset.claimDrive d true).2 = .down := by
  decide +kernel

theorem test_fairness :
    let q (n : Nat) : State := { working .ready .settled with tdl := { (working .ready .settled).tdl with
      urgent := [.phaseMark 1 true], routine := [.probe], urgentRun := n } }
    (q 8).arbitrate.tdl.inFlight.map (·.req) = some .probe
    ∧ (q 7).arbitrate.tdl.inFlight.map (·.req) = some (.phaseMark 1 true) ∧ (q 7).arbitrate.tdl.urgentRun = 8 := by
  decide +kernel

/-- A Drive's second attempt with a pending entry for its handle. -/
theorem test_second_drive :
    let d : DriveReq := { address := 0, index := 0, handle := 0, gen := 1, word := .on, prior := none }
    let p : Pend := { handle := 0, gen := 1, word := .off, time := 0, urgent := true }
    let s := (busy (some { hailing true .due with req := .drive d })).setPend [p]
    s.drt.pend.find? (fun q => q.handle == d.handle) = some p
    ∧ (run .gapEnd s).tdl.inFlight.map (·.req) = some (.drive { d with word := .off }) := by decide +kernel

/-- The worked window of R9: echo delays of 1.3 ms and 3.4 ms give 6 ms; a unit without an entry has 4 ms. -/
theorem test_windows :
    let s := (working .ready .settled).setNtab { Ntab.reset with
      nodes := [{ node with echo := 13 }, { node with echo := 34, address := 1 }] }
    s.autoWindow 1 = 6 ∧ s.autoWindow 2 = 4 ∧ s.windowOf (.hail 1 .none) = 6 ∧ s.windowOf .probe = 12
    ∧ (s.setNtab { Ntab.reset with nodes := [{ node with echo := 100 }] }).autoWindow 1 = 12 := by decide +kernel

/-- A sweep with room, and a Hail that it stands in for. -/
theorem test_sweep : (((working .ready .settled).setRoutine [.probe, .hail 0 .none]).sweep .fault).tdl.routine
    = [.hail 0 .fault, .probe] := by decide +kernel

theorem test_attempts : (busy none).tdl.line = .busy ∧ (busy none).tdl.orphan = none ∧ (busy none).tdl.inFlight = none
    ∧ (busy (some (hailing false .due))).tdl.inFlight = some (hailing false .due)
    ∧ (hailing true .due).second = true ∧ (hailing false .due).second = false
    ∧ (hailing false (.sending 20)).req.answered = true ∧ Request.answered .releaseAll = false
    ∧ (busy none).tdl.yieldDue = false := by decide +kernel

/-- A valid reply to a Hail from address 1 (R212), and one that is not. -/
theorem test_replies : (hailing false .due).req.parseReply [0xA5, 0x10, 0x00, frameCheck [0x10, 0x00]]
      = some (.ok, [0x00])
    ∧ (hailing false .due).req.parseReply [0xA5, 0x10, 0x00, 0x00] = none := by decide +kernel

/-- A window at its first and last moments, before it opens and after it has ended, and a yield that is due. -/
theorem test_reply_windows : (busy (some (hailing false (.window 0 0 50)))).now = 0
    ∧ (busy (some (hailing false (.replying 1)))).tdl.inFlight = some (hailing false (.replying 1))
    ∧ (run .replyFirstEdge { busy (some (hailing true (.window 0 0 50))) with now := 50 }).tdl.inFlight
      = some (hailing true (.replying 50))
    ∧ (run .replyFirstEdge { busy (some (hailing true (.window 0 0 50))) with now := 51 }).tdl.inFlight
      = some (hailing true (.window 0 0 50))
    ∧ (run .replyFirstEdge (busy (some (hailing true (.window 0 1 50))))).tdl.inFlight
      = some (hailing true (.window 0 1 50))
    ∧ ((busy (some (hailing false (.replying 1)))).setTdl
        { (busy (some (hailing false (.replying 1)))).tdl with yieldDue := true }).tdl.yieldDue = true := by decide +kernel

/-- A malformed character's second attempt begins at once; a yield that is due interrupts the request. -/
theorem test_broken_replies :
    (run (.replyBroken true) (busy (some (hailing false (.replying 1))))).tdl.frame.take 3 = [0xA5, 0x18, 0x00]
    ∧ (run .lineRequest (busy (some (hailing false (.replying 1))))).tdl.line = .yielded
    ∧ (run .lineRequest (busy (some (hailing false (.replying 1))))).tdl.routine.head? = some (.hail 0 .none) := by
  decide +kernel

theorem test_presence : (working .ready .settled).ntab.tick = .running 100
    ∧ (working .ready .settled).silentAt ((0 : Fin 12).val + 1) = some 10000
    ∧ (working .ready .settled).bue.dropping = false ∧ (working .ready .settled).bue.deferred = .none
    ∧ ((working .ready .settled).holdAddress 4).bue.held.find? (fun x => x.1 == 4) = some (4, 10000)
    ∧ ((working .ready .settled).settle .ended).bue.frontier = .running 5000
    ∧ (working .ready .settled).routineEntries < 24 ∧ (working .ready .settled).bue.request = .none := by decide +kernel

theorem test_deadlines : ((withRecord (lampIn .ready)).createConfirm 0 (lampIn .ready)).deadlineOf 0 = none
    ∧ ((withRecord (lampIn .ready)).modifySlot 0 fun x =>
        { x with confirm := some { deadline := .running 9, phaseWait := false, mismatch := false } }).deadlineOf 0
      = some 9 := by decide +kernel

/-- A node heard of, one failure before its third, and at it. -/
theorem test_failures : (((working .ready .settled).failed 0).nodeAt 1).map (·.failures) = some 1
    ∧ (({ node with failures := 2 } : NodeEntry).failures = 2)
    ∧ (((working .ready .settled).setNtab { Ntab.reset with nodes := [{ node with failures := 2 }] }).failed 0).ntab.nodes
      = [] := by decide +kernel

/-- A Hail falls due at 250 ms, and waits for none of its own (R58). -/
theorem test_hails : ({ working .busy .settled with now := 2500 } : State).tick.tdl.routine = [.hail 0 .none]
    ∧ ({ working .busy .settled with now := 2499 } : State).tick.tdl.routine = []
    ∧ ({ busy (some (hailing false .due)) with now := 2500 } : State).tick.tdl.routine = [] := by decide +kernel

/-- A due record, one that is phased, and the own count at 3 and at 4. -/
theorem test_passes :
    let c : ConfirmEntry := { deadline := .running 0, phaseWait := false, mismatch := false }
    let s := (confirming (tied .bound) .ready).modifySlot 0 fun x => { x with confirm := some c, sampleMark := .clear }
    s.dueRecords = [0] ∧ s.live 0 = some (tied .bound) ∧ s.lampPhased (tied .bound) = false
    ∧ (s.claimSample 0).2 = true ∧ ((s.setOwn 3).claimSample 0).2 = false
    ∧ ((s.setRoutine (List.replicate 24 .probe)).claimSample 0).2 = false
    ∧ (s.setSourceEntry 0 { active := true, form := .flashing .flL }).lampPhased (tied .bound) = true := by
  decide +kernel

/-- FOLLOW mode: the settings and the mode in force agree, or not; a source that runs, and short, good and long periods. -/
theorem test_follow :
    let s := State.reset.setConfig { Settings.reset with turnFollowL := true }
    let t := ((s.setFollowMode .left true).setSourceEntry 3 { active := true, form := .followed }).setCapture .left
      { Capture.cleared with lastRise := some 0, bad := 1 }
    s.hcp.cfg.follow .left ≠ s.followMode .left ∧ (s.setFollowMode .left true).followMode .left = true
    ∧ (run (.demandInputChange 3 true) { t with now := 2499 }).capture .left
      = { lastRise := some 2499, lastFall := none, bad := 2, steady := true }
    ∧ (run (.demandInputChange 3 true) { t with now := 2500 }).capture .left
      = { lastRise := some 2500, lastFall := none, bad := 0, steady := false }
    ∧ (run (.demandInputChange 3 true) { t with now := 15001 }).capture .left
      = { lastRise := some 15001, lastFall := none, bad := 1, steady := false }
    ∧ (run (.followStretchEnd .left) t).capture .left = { Capture.cleared with lastRise := some 0 } := by decide +kernel

theorem test_inputs : State.reset.drt.inputs[(9 : Fin 10)] = !true ∧ State.reset.drt.inputs[(2 : Fin 10)] = false
    ∧ State.reset.followMode .left = false ∧ (State.reset.source 3).active = false
    ∧ ((State.reset.setFollowMode .left true).setCapture .left { Capture.cleared with lastRise := some 0 }).capture .left
      = { Capture.cleared with lastRise := some 0 } := by decide +kernel

theorem test_generators : ((State.reset.onPhase .beacon 0).gen .beacon).run
      = some { on := true, ends := 3330, period := 666 } ∧ (State.reset.onPhase .beacon 0).bue.dropping = false := by
  decide +kernel

/-- An OFF phase, and the pair generator halved by a FAULTED lamp on TURN_L's list. -/
theorem test_halved_pair :
    let s := ((withRecord (lampIn .faulted)).setList 3 [0]).setGen .pair
      { run := some { on := false, ends := 3330, period := 666 }, cycle := 666, owed := none }
    s.turnFailCondition = true ∧ (run (.phaseEnd .pair) s).gen .pair
      = { run := some { on := true, ends := 3330 + 1660, period := 333 }, cycle := 666, owed := none } := by decide +kernel

theorem test_guards : (State.reset.guard 5).state = .idle
    ∧ (((State.reset.guardRun 5 .a).guard 5).runTimer = some 300000)
    ∧ ((State.reset.setGuard 5 { Guard.reset with state := .dwell, deadTimer := some 3000 }).guard 5).deadTimer
      = some 3000 := by decide +kernel

/-- A guard with an owner, and with a pending slot. -/
theorem test_owned_guards :
    let g : Guard := { Guard.reset with owner := some (0, 1), state := .dwell, deadTimer := some 3000, slot := some .b }
    let r : Guard := { Guard.reset with owner := some (0, 1), state := .runA, runTimer := some 9 }
    ((withRecord motor).setGuard 0 g).guard 0 = g ∧ ((withRecord motor).setGuard 0 r).guard 0 = r
    ∧ ((run (.deadTimerExpiry 0) ((withRecord motor).setGuard 0 g)).guard 0).state = .runB
    ∧ (run (.runLimitExpiry 0) ((withRecord motor).setGuard 0 r)).fdir.attention = [0] := by decide +kernel

/-- An ERASE LIST with one entry that fails its read-back, and with none. -/
theorem test_erase_list : (run (.ktlWriteEnd 0x8000) (writable.placeWrite .eraseList 0 KtlEntry.blank)).ktl.last = .writeFailed
    ∧ (run (.ktlWriteEnd 0) (writable.placeWrite .eraseList 0 KtlEntry.blank)).ktl.last = .ok := by decide +kernel

/-- A match that waits for the end of a write. -/
theorem test_match_after_write :
    let m : MatchReq := { unit := 1, first := 1, identity := 0, digest := 0xFFFF, nodeCount := 1 }
    let s := writable.placeWrite .erase 3 KtlEntry.blank
    (s.setKtl { s.ktl with waiting := some m }).ktl.waiting = some m
    ∧ (s.setKtl { s.ktl with waiting := some m }).ktl.write = s.ktl.write ∧ s.ktl.write.isSome = true := ⟨rfl, rfl, rfl⟩

/-- An engine that drops the outcome of its request, and one that does not. -/
theorem test_dropping : State.reset.bue.dropping = false
    ∧ (State.reset.setBue { Bue.reset with dropping := true }).bue.dropping = true
    ∧ ((State.reset.setBue { Bue.reset with dropping := true }).bueOutcome (.assign 0 7) (.replied .ok [] 10)).bue.held
      = [(0, 10000)] := ⟨rfl, rfl, by decide +kernel⟩

/-- A match that waits for the scan. -/
theorem test_waiting_matches :
    let m : MatchReq := { unit := 1, first := 1, identity := 0, digest := 0xFFFF, nodeCount := 1 }
    let s := State.reset.setKtl { State.reset.ktl with waiting := some m }
    s.ktl.scanning = true ∧ s.ktl.waiting = some m ∧ s.hcp.inReset = false := ⟨rfl, rfl, rfl⟩

/-- The FL_V source moves from VD6 to VD1. -/
theorem test_flv_source : (17 : Src).val = State.reset.hcp.cfg.flvSource + 11 ∧ (12 : Src).val = (1 : BitVec 16).toNat + 11
    ∧ ((run (.configure 5 1) State.reset).source 17).form = .steady
    ∧ ((run (.configure 5 1) State.reset).source 12).form = .flashing .flV := by decide +kernel

/-- The Extend CLOSE of the unit limit and of the window limit. -/
theorem test_closing_errands :
    let u : UnitRec := { first := 1, headless := false, nodeCount := 1, digest := 0, outcome := .miss }
    let closing (e : Errand) : State :=
      let s := walking .extend
      s.setBue { s.bue with errand := e, units := [u] }
    (closing .closeForUnits).ntab.nodes.getLast? = some node
    ∧ ((closing .closeForUnits).extendOutcome node.address false (.replied .ok [] 10)).bue.chainEnd = .unitLimit
    ∧ ((closing .closeForWindow).extendOutcome node.address false (.replied .refused [] 10)).bue.chainEnd = .windowLimit := by
  decide +kernel

/-- Transactions: the shortest and the longest, a parameter missing, one too many, a byte that is not complete. -/
theorem test_transactions :
    Transaction.command { bytes := [0x20, 0, 0xFF, 0xFF, 1, 4, 96], partClocks := 0 } = .lookup 0 0xFF 0xFF 1 4 96
    ∧ Transaction.command { bytes := [0x02, 0x08, 0x01, 0x55], partClocks := 3 } = .ackEvents 0x0801
    ∧ Transaction.command { bytes := [0x32, 1, 1, 0, 0], partClocks := 7 }
      = .incompleteTransaction (.missingParameters 0x32 4)
    ∧ Transaction.command { bytes := [0x48], partClocks := 0 } = .unknownCommand 0x48
    ∧ Transaction.command { bytes := [], partClocks := 5 } = .incompleteTransaction .partCommand
    ∧ Instr.takeChanges.hostBytes = some [0x23] ∧ parameterCount 0x47 = some 1 ∧ parameterCount 0x48 = none := by decide

theorem test_writes : (writable.placeWrite .erase 3 KtlEntry.blank).ktl.write
      = some { kind := .erase, target := 3, content := KtlEntry.blank, limit := 200 } := by decide +kernel

theorem test_reset_pins : State.reset.hcp.resetLow = none ∧ (run .resetFall State.reset).hcp.resetLow = some 0
    ∧ (run .supplyReset State.reset).hcp.inReset = true ∧ (run .supplyReset State.reset).hcp.resetLow = none := by
  decide +kernel

/-- A reply whose first edge falls in a Prove's pulse: its end, in the window opened since, ends nothing (R8). -/
theorem test_stray_reply :
    let s := run .replyFirstEdge (busy (some (hailing false (.window 0 1 50))))
    s.tdl.stray = true
    ∧ (run (.replyComplete [0xA5, 0x10, 0x01, frameCheck [0x10, 0x01]]) { s with now := 20 }).tdl.inFlight
      = some (hailing false (.window 0 1 50))
    ∧ (run (.replyBroken false) { s with now := 20 }).tdl.stray = false ∧ s.tdl.line = .busy ∧ s.tdl.orphan = none := by
  decide +kernel

/-- A Drive's first attempt breaks with a malformed character while an entry for its handle waits. -/
theorem test_broken_drive :
    let d : DriveReq := { address := 0, index := 0, handle := 0, gen := 1, word := .on, prior := none }
    let p : Pend := { handle := 0, gen := 1, word := .off, time := 0, urgent := true }
    let s := (busy (some { hailing false (.replying 1) with req := .drive d })).setPend [p]
    s.drt.pend.find? (fun q => q.handle == d.handle) = some p ∧ s.tdl.stray = false
    ∧ (run (.replyBroken true) s).tdl.inFlight.map (·.req) = some (.drive { d with word := .off }) := by decide +kernel

/-- A left proof with its Sample taken out of the queue ends when the source stops once more (R109). -/
theorem test_left_proof_ends :
    let s := underProof .steady .request
    let p : Option Proof := s.prv.proof.map fun p => { p with placed := false, left := true }
    (s.setProof p).proofSourceCheck.prv.proof = none ∧ (s.setProof p).proofSourceCheck.prv.list = [0] := by decide +kernel

/-- The Sample of a retired record, taken out of the queue, is claimed by the next pass (R163). -/
theorem test_unplaced_sample :
    let s := (confirming (lampIn .retired) .ready).refuseSample 0 0 1 1
    (s.slot 0).sampleMark = .unplaced 0 1 1 ∧ s.pass.tdl.routine = [.sample .confirm 0 1 0 1] ∧ s.tdl.line ≠ .down
    ∧ s.routineEntries < 24 := by decide +kernel

/-- The return to COUPLED without LINE_PRESENT, and of an engine that waits for it after a link restart. -/
theorem test_return_to_coupled :
    let s := (working .busy .idle).setCmon { Cmon.reset with state := .parting }
    let t := s.setBue { s.bue with restart := .onReturn }
    s.cmon.lineLost = false ∧ s.cmon.sense = false ∧ s.bue.restart ≠ .onReturn ∧ s.bue.dropping = false
    ∧ (run .coupleSenseAsserted (s.setLinePresent false)).tdl.line = .fault
    ∧ (run .coupleSenseAsserted t).bue.state = .probe ∧ t.hcp.cfg.autoBringUp = true
    ∧ (run .coupleSenseAsserted (t.setConfig { Settings.reset with autoBringUp := false })).bue.state = .waitStart := by
  decide +kernel

/-- Recatalogues: the last index and one before it, with an entry, without one, with a held Probe, with a departure that
waits, and one that ends with a sensor admitted. -/
theorem test_recatalogue_outcomes :
    let s := confirming { gauge with state := .provisional } .ready
    let c : Recatalogue := { position := 1, address := 0, indices := [1], taken := [(0, 1)] }
    let t := s.setRecat (some c)
    t.fdir.recat = some c ∧ t.livePair 0 1 = some { gauge with state := .provisional } ∧ gauge.cls ≠ .lamp
    ∧ (t.recatOutcome 1 (.replied .noFunction [] 10)).fdir.recat = none
    ∧ ((t.recatOutcome 1 (.replied .noFunction [] 10)).record 0).map (·.state) = some .ready
    ∧ (t.recatOutcome 1 .noReply).tdl.routine = [.describe 0 1 true]
    ∧ (t.admitEntry 1 1 (.sensor 0 0 0 0 0)).2 = some (1, 1)
    ∧ (t.setBue { t.bue with frontierHeld := true }).afterRecat.tdl.routine = [.probe]
    ∧ (t.setBue { t.bue with deferred := .toProbe }).afterRecat.fdir.recat = some c
    ∧ (t.setRoutine [.describe 0 1 true]).recatOutstanding = true ∧ t.recatOutstanding = false := by decide +kernel

/-- Routing: a record whose source asks for ON; one that it asks for nothing new; an entry drained, one that stays, and one
for a record that is gone. -/
theorem test_routing :
    let s := (confirming (tied .bound) .ready).setSourceEntry 0 { active := true, form := .steady }
    let p : Pend := { handle := 0, gen := 1, word := .on, time := 0, urgent := true }
    s.live 0 = some (tied .bound) ∧ s.asks 0 false = .on ∧ (s.rewant 0).drt.pend = [p]
    ∧ s.withheld 0 (tied .bound) = false ∧ (confirming (tied .bound) .ready).asks 0 false = .off
    ∧ ((s.setPend [p]).drainOne p).drt.pend = [] ∧ ((s.setPend [p]).drainOne p).tdl.urgent.length = 1
    ∧ (((s.setPend [p]).setUrgent (List.replicate 8 (.phaseMark 1 true))).drainOne p).drt.pend = [p]
    ∧ (s.setPend [p]).livePair 0 2 = none
    ∧ (s.setSourceEntry 3 { active := true, form := .followed }).asks 3 true = .off := by decide +kernel

/-- Retire Drives: taken, merged, refused in each way, and dropped with the node. -/
theorem test_retire_drives :
    let s := confirming (lampIn .ready) .yielded
    let d : DriveReq := { address := 0, index := 0, handle := 0, gen := 1, word := .on, prior := none }
    let mark (t : State) : RetireDrive := ((run (.retire 1 1) t).slot 0).retireDrive
    mark s = .placed ∧ mark (s.setUrgent [.drive d]) = .placed
    ∧ mark (s.setRoutine (List.replicate 24 .probe)) = .unplaced 0 0 .off
    ∧ mark (s.setInFlight (some { hailing false .due with req := .drive d })) = .awaiting 0 0 .off
    ∧ mark (s.setLine .down) = .none ∧ mark (confirming gauge .yielded) = .none
    ∧ (((run (.retire 1 1) (s.setRoutine (List.replicate 24 .probe))).dropRetireDrivesTo fun a => a == 0).slot 0).retireDrive = .none := by
  decide +kernel

/-- A left channel alone, its partner joining, taking over and going on alone; a channel that follows; FL_V and FL_B. -/
theorem test_channels :
    let s := run (.demandInputChange 4 true) (run (.demandInputChange 3 true) State.reset)
    let t := run (.phaseEnd .pair) (run (.phaseEnd .pair) s)
    s.chan .flL = .running ∧ s.chan .flR = .joining ∧ t.chan .flR = .running ∧ t.now = 6660
    ∧ (run (.demandInputChange 3 false) s).chan .flR = .running
    ∧ (run (.demandInputChange 3 false) t).chan .flL = .stopped
    ∧ (run (.demandInputChange 3 false) t).gen .pair = t.gen .pair
    ∧ ((run (.demandInputChange 3 false) (run (.demandInputChange 4 false) t)).gen .pair).run = none
    ∧ ((State.reset.setSourceEntry 3 { active := true, form := .followed }).updateChan 3).chan .flL = .following
    ∧ State.reset.chanOf 17 = some .flV ∧ State.reset.chanOf 9 = some .flB ∧ State.reset.chanOf 12 = none := by
  decide +kernel

/-- Phase Marks: taken, owed at FULL, lost while the line is not worked, and an owed one claimed again. -/
theorem test_phase_marks :
    let s := (((working .ready .settled).setChan .flL .running).setChan .flR .joining).onPhase .pair 0
    let full := s.setUrgent (List.replicate 8 (.phaseMark 4 true))
    let follows := (s.setChan .flL .following).setUrgent full.tdl.urgent
    (s.claimGenMark .pair).tdl.urgent = [.phaseMark 1 true] ∧ ((full.claimGenMark .pair).gen .pair).owed
      = some { mask := 1, on := true }
    ∧ (((full.setLine .yielded).claimGenMark .pair).gen .pair).owed = none
    ∧ (((full.claimGenMark .pair).setUrgent []).claimOwedGen .pair).tdl.urgent = [.phaseMark 1 true]
    ∧ (follows.claimFollowMark .left).frt.followOwed[(0 : Fin 2)] = some { mask := 1, on := false }
    ∧ (((follows.claimFollowMark .left).setUrgent []).claimOwedFollow .left).tdl.urgent = [.phaseMark 1 false] := by
  decide +kernel

/-- A guard asks for a run; leaving one it awaits STOP, or finds STOP last placed with nothing in the way. -/
theorem test_guard_asks :
    let g : Guard := { Guard.reset with owner := some (0, 1), state := .runA, runTimer := some 9 }
    let s := (withRecord motor).setGuard 0 { g with state := .idle, runTimer := none }
    let ran := (withRecord { motor with drive := some { lastPlaced := some .runA, failed := false } }).setGuard 0 g
    (s.guardRun 0 .a).drt.pend.map (fun p => (p.word, p.urgent)) = [(.runA, false)]
    ∧ (ran.guardRun 0 .b).drt.pend.map (·.word) = [.stop] ∧ ((ran.guardRun 0 .b).guard 0).awaiting = true
    ∧ (((withRecord motor).setGuard 0 g).guardStop 0 false).guard 0
      = { g with state := .dwell, runTimer := none, deadTimer := some 3000 }
    ∧ ((ran.guardStop 0 true).drt.pend = []) ∧ s.livePair 0 1 = some motor := by decide +kernel

/-- A chain of `n` nodes, and the engine in a state whose unit has been matched. -/
def chainOf (n : Nat) (e : EngineState) : State :=
  let s := working .ready e
  { s with
    bue := { s.bue with units := [{ first := 1, headless := false, nodeCount := n, digest := 0, outcome := .miss }] }
    ntab := { s.ntab with nodes := (List.range n).map fun i =>
      { node with address := Fin.ofNat 12 i, identity := BitVec.ofNat _ i } } }

/-- PROBE with room for a node, without room in the queue, and at the twelfth; an Assign that makes the twelfth entry, of a node
without functions, and the last Describe of a twelfth node. -/
theorem test_twelfth_node :
    let empty (n : Nat) : State :=
      let s := chainOf n .assign
      s.setBue { s.bue with lastProbe := some { identity := 99, head := false, count := 0 }, nextIndex := 1 }
    (empty 11).enterProbe.tdl.routine = [.probe]
    ∧ ((empty 11).setRoutine (List.replicate 24 .probe)).enterProbe.bue.request = .unplaced .probe
    ∧ (empty 12).enterProbe.bue.chainEnd = .nodeLimit ∧ (empty 11).freeAddress = some 11
    ∧ ((empty 11).assignOutcome 11 (.replied .ok [] 21)).ntab.nodes.length = 12
    ∧ ((empty 11).assignOutcome 11 (.replied .ok [] 21)).bue.chainEnd = .nodeLimit
    ∧ ((empty 10).assignOutcome 10 (.replied .ok [] 21)).bue.state = .extend
    ∧ ((empty 12).describeOutcome 1 (.replied .noFunction [] 10)).bue.chainEnd = .nodeLimit
    ∧ (((empty 12).describeOutcome 1 (.replied .noFunction [] 10)).nodeAt 12).map (·.gateOpen) = some true := by
  decide +kernel

/-- The ranges of R40 at their edges, for every class. -/
theorem test_entry_ranges :
    let valid (l : List Byte) : Bool := (parseEntry l).isSome
    valid [0, 0x92, 1, 95, 105, 0] = true ∧ valid [0, 0xA2, 1, 95, 105, 0] = false ∧ valid [0, 0x92, 0, 95, 105, 0] = false
    ∧ valid [0, 0, 1, 0, 104, 0] = false ∧ valid [0, 0, 1, 0, 250, 0] = true ∧ valid [0, 0, 1, 0, 251, 0] = false
    ∧ valid [1, 6, 0, 0, 0, 0] = false ∧ valid [2, 2, 0, 0, 0, 0] = false ∧ valid [3, 0, 0, 0, 0, 0] = false
    ∧ valid [1, 5, 0, 0, 0] = false ∧ valid [] = false := by decide

/-- A PROVISIONAL lamp of TAIL_L at the head of the Proving List, on a line in a state, its source demanded or not. -/
def toProve (l : LineState) (asked : Bool) (f : Form) : State :=
  let s := confirming { lampIn .provisional with intended := some 0 } l
  ({ s with prv := { list := [0, 5], proof := none } } : State).setSourceEntry 0 { active := asked, form := f }

/-- A proof begins as a pulse proof, as a steady proof with its Sample claimed, and in PHASE_WAIT; not on a line that is not
worked, nor with a Drive pending. -/
theorem test_proof_begins :
    let begun (s : State) : Option (ProofForm × ProofStage × Bool) := s.beginProof.prv.proof.map fun p => (p.form, p.stage, p.placed)
    (toProve .ready false .steady).live 0 = some { lampIn .provisional with intended := some 0 }
    ∧ (toProve .ready false .steady).settled 0 = true ∧ (toProve .busy false .steady).lineRuns = true
    ∧ begun (toProve .ready false .steady) = some (.pulse, .request, true)
    ∧ (toProve .ready false .steady).beginProof.tdl.routine = [.prove 0 0]
    ∧ begun (toProve .ready true .steady) = some (.steady, .request, true)
    ∧ begun (toProve .ready true (.flashing .flL)) = some (.steady, .phaseWait, false)
    ∧ begun (toProve .yielded true .steady) = none ∧ (toProve .ready true .steady).beginProof.prv.list = [5]
    ∧ begun ((toProve .ready true .steady).enter 0 (lampIn .provisional) .on) = none
    ∧ begun ((toProve .ready true .steady).setRoutine (List.replicate 24 .probe)) = some (.steady, .request, false) := by
  decide +kernel

/-- A proof in a stage, its request standing or not, with its source demanded or not. -/
def proving (x : ProofForm) (st : ProofStage) (standing asked stopped : Bool) : State :=
  let s := confirming { lampIn .proving with intended := some 0, drive := some { lastPlaced := some .on, failed := false } } .ready
  let p : Proof :=
    { handle := 0, gen := 1, form := x, stage := st, placed := standing, notOn := false, missed := 0, left := false,
      stopped := stopped }
  ({ s with prv := { list := [5], proof := some p } } : State).setSourceEntry 0 { active := asked, form := .steady }

/-- Where a proof's request is claimed: with room and without, at an attempt's end, at an ON start, and when what it waits for
has come. -/
theorem test_proof_claims :
    let full (s : State) : State := s.setRoutine (List.replicate 24 .probe)
    let placed (s : State) : Option Bool := s.prv.proof.map (·.placed)
    (proving .steady .request false true false).provingOccasion.tdl.routine = [.sample .proving 0 0 0 1]
    ∧ placed (full (proving .pulse .request false false false)).provingOccasion = some false
    ∧ placed (proving .pulse .request false false false).provingOccasion = some true
    ∧ placed ((proving .steady .phaseWait false true false).proofOnStart 0) = some true
    ∧ placed ((proving .steady .phaseWait false true false).proofOnStart 5) = some false
    ∧ placed (proving .steady .phaseWait false true false).proofWaits = some true
    ∧ placed (proving .steady .driveWait false true false).proofWaits = some true
    ∧ placed ((proving .steady .driveWait false true false).enter 0 (lampIn .proving) .on).proofWaits = some false := by
  decide +kernel

/-- What a source does to a proof (R108 to R110): a pulse proof overtaken with its Prove standing and not, a steady one left
with its Sample standing, not standing, and left before; a new source that is demanded. -/
theorem test_proof_sources :
    let stage (s : State) : Option ProofStage := s.prv.proof.map (·.stage)
    let left (s : State) : Option (Bool × Bool) := s.prv.proof.map fun p => (p.left, p.stopped)
    (proving .pulse .request true true false).livePair 0 1
      = some { lampIn .proving with intended := some 0, drive := some { lastPlaced := some .on, failed := false } }
    ∧ stage (proving .pulse .request true true false).proofSourceCheck = some .draining
    ∧ (proving .pulse .request true true false).proofSourceCheck.prv.list = [0, 5]
    ∧ (proving .pulse .request true true false).proofSourceCheck.drt.pend.map (·.word) = [.off]
    ∧ stage (proving .pulse .request false true false).proofSourceCheck = none
    ∧ stage (proving .pulse .request true false false).proofSourceCheck = some .request
    ∧ left (proving .steady .request true false false).proofSourceCheck = some (true, true)
    ∧ left (proving .steady .request true false true).proofSourceCheck = some (false, true)
    ∧ left (proving .steady .request true true true).proofSourceCheck = some (false, false)
    ∧ stage (proving .steady .phaseWait false false false).proofSourceCheck = none
    ∧ stage ((proving .steady .request true true false).proofTieChanged 0) = some .draining
    ∧ left ((proving .steady .request true false true).proofTieChanged 0) = some (true, true)
    ∧ stage ((proving .steady .request true true false).hostTie 5 none) = some .request
    ∧ stage ((proving .steady .request true true false).hostTie 0 none) = some .request := by decide +kernel

/-- A record that ends takes its list's place, its entry, its proof, its confirm entry and its guard with it (R84, R111, R157). -/
theorem test_record_ends :
    let s := ((proving .pulse .request true true false).setList 0 [5, 0]).enter 0 (lampIn .proving) .on
    let g := (withRecord motor).setGuard 0 { Guard.reset with owner := some (0, 1), state := .runA, runTimer := some 9 }
    s.live 0 = some { lampIn .proving with intended := some 0, drive := some { lastPlaced := some .on, failed := false } }
    ∧ (s.retireRecord 0 .chainCut).list 0 = [5] ∧ (s.retireRecord 0 .chainCut).drt.pend = []
    ∧ (s.retireRecord 0 .chainCut).prv.proof.map (·.stage) = some .draining
    ∧ ((s.retireRecord 0 .chainCut).slot 0).confirm = none
    ∧ (({ s with prv := { s.prv with list := [5, 0] } } : State).retireRecord 0 .chainCut).prv.list = [5]
    ∧ ((run (.retire 1 1) g).guard 0) = Guard.reset ∧ (proving .pulse .draining true true false).prv.proof.isSome = true := by
  decide +kernel

/-- A sweep of a full routine class takes out the newest request; each kind is refused back to its origin (R17). -/
theorem test_sweep_without_room :
    let d : DriveReq := { address := 0, index := 0, handle := 0, gen := 1, word := .on, prior := some .off }
    let s := confirming (lampIn .ready) .ready
    let full := s.setRoutine (List.replicate 23 .probe ++ [.drive d])
    let retired := (confirming (lampIn .retired) .ready).modifySlot 0 fun x => { x with retireDrive := .placed }
    let dropping := s.setBue { s.bue with dropping := true }
    (full.sweep .fault).tdl.routine = .hail 0 .fault :: List.replicate 23 .probe
    ∧ (full.sweep .fault).drt.pend.map (fun p => (p.handle, p.word)) = [(0, .on)]
    ∧ ((full.setRoutine (List.replicate 23 .probe ++ [.release 5 false])).sweep .fault).tdl.routine
      = [.hail 0 .fault, .release 5 false] ++ List.replicate 22 .probe
    ∧ s.livePair 0 1 = some (lampIn .ready) ∧ (s.enter 0 (lampIn .ready) .on).pendHolds 0 = true
    ∧ retired.livePair 0 1 = none ∧ ((retired.refuseBack (.drive d)).slot 0).retireDrive = .unplaced 0 0 .on
    ∧ ((proving .pulse .request true false false).refuseBack (.prove 0 0)).prv.proof.map (·.placed) = some false
    ∧ ((proving .pulse .draining true false false).refuseBack (.prove 0 0)).prv.proof = none
    ∧ (s.refuseBack .probe).bue.request = .unplaced .probe ∧ (dropping.refuseBack .probe).bue.request = .none := by
  decide +kernel

/-- The newest two of four that may be taken out, and an entry that is kept. -/
theorem test_take_out_newest :
    takeOutNewest Request.isCutRelease 2 [.probe, .release 5 false, .hail 0 .none, .prove 0 0]
      = ([.probe, .release 5 false], [.prove 0 0, .hail 0 .none]) := by decide

/-- A cut of a chain of two at its first position: a frame being sent and a window that it abandons, the Releases behind a sweep
Hail, an engine's request that it cuts and one that it does not (R20, R64). -/
theorem test_cuts :
    let s := chainOf 2 .settled
    let sending := s.setInFlight (some (hailing false (.sending 20)))
    let window := s.setInFlight (some (hailing false (.window 0 0 50)))
    let all (_ : Request) : Bool := true
    let queued := (s.setRoutine [.extend 1 true]).setBue { s.bue with request := .queued }
    (sending.abandonWhere all).tdl.orphan = some 20 ∧ (sending.abandonWhere all).tdl.inFlight = none
    ∧ (window.abandonWhere all).tdl.gapEnds = 10
    ∧ (sending.chainCut 1).tdl.inFlight = none
    ∧ ((s.setInFlight (some (probing (.sending 20)))).chainCut 1).tdl.inFlight = some (probing (.sending 20))
    ∧ ((s.setRoutine [.hail 5 .fault, .hail 1 .none, .probe]).chainCut 1).tdl.routine
      = [.hail 5 .fault, .release 0 false, .release 1 false, .probe, .probe]
    ∧ (queued.chainCut 1).tdl.routine = [.release 0 false, .release 1 false, .probe]
    ∧ queued.queued (fun r => r.address == some 1) = true ∧ (queued.chainCut 1).bue.state = .probe
    ∧ (queued.chainCut 2).ntab.nodes.length = 1 ∧ (queued.chainCut 2).bue.units.map (·.nodeCount) = [1]
    ∧ s.silentAt 2 = some 10000 ∧ (s.setInFlight none).tdl.inFlight = none := by decide +kernel

/-- The engine's response to a cut in each of its states (R48), and what follows the outcome that it waits for. -/
theorem test_cut_responses :
    let queued (s : State) : State := s.setBue { s.bue with request := .queued }
    let recat (s : State) : State := s.setRecat (some { position := 1, address := 0, indices := [1], taken := [] })
    let out (s : State) : State := (recat s).setRoutine [.describe 0 1 true]
    let state (s : State) : EngineState × Bool × Departure := (s.bue.state, s.bue.dropping, s.bue.deferred)
    state ((chainOf 1 .idle).cutResponse 1) = (.idle, false, .none)
    ∧ state ((chainOf 1 .halted).cutResponse 1) = (.halted, false, .none)
    ∧ ((recat (chainOf 1 .halted)).cutResponse 1).fdir.recat = none
    ∧ ((recat (chainOf 2 .halted)).cutResponse 2).fdir.recat.isSome = true
    ∧ state ((out (chainOf 2 .settled)).cutResponse 2) = (.settled, false, .toProbe)
    ∧ (out (chainOf 2 .settled)).recatOutstanding = true ∧ (chainOf 2 .settled).recatOutstanding = false
    ∧ state ((queued (chainOf 2 .settled)).cutResponse 2) = (.probe, true, .none)
    ∧ ((chainOf 2 .settled).cutResponse 2).tdl.routine = [.probe]
    ∧ state ((queued (chainOf 2 .describe)).cutResponse 2) = (.describe, true, .none)
    ∧ ((chainOf 2 .matching).cutResponse 2).tdl.routine = [.probe]
    ∧ state (((queued (chainOf 2 .settled)).cutResponse 2).bueRequestGone.bueCheck) = (.probe, false, .none)
    ∧ state (((out (chainOf 2 .settled)).cutResponse 2).bueCheck) = (.settled, false, .toProbe)
    ∧ state ((((out (chainOf 2 .settled)).cutResponse 2).setRoutine []).bueCheck) = (.probe, false, .none) := by
  decide +kernel

/-- At a link restart no node entry keeps a digest (R31, R50). -/
theorem test_restart_drops_digests :
    (run .restartLink (working .ready .settled)).ntab.nodes.map (·.endDigest) = [none] := by decide +kernel

/-- A Drive that a cut abandons calls for a drain (R127, R130). -/
theorem test_abandoned_drive_drains :
    let d : DriveReq := { address := 0, index := 0, handle := 0, gen := 1, word := .on, prior := some .off }
    (State.reset.abandoned (.drive d)).agenda.drain = true := by decide +kernel

/-- A change of a source that only removes an entry has the set drained (R125): the entry behind it, for a pair that names no
record any more, leaves as well. -/
theorem test_removal_drains :
    let p (h : Handle) : Pend := { handle := h, gen := 1, word := .on, time := 0, urgent := true }
    let s := (withRecord (tied .bound)).setSourceEntry 0 { active := true, form := .steady }
    let s := (s.setList 0 [0]).setPend [p 0, p 1]
    (s.putSource 0 { active := false, form := .steady }).drt.pend = [p 1]
    ∧ (s.putSource 0 { active := false, form := .steady }).agenda.drain = true
    ∧ (run (.demandInputChange 0 false) { s with drt := { s.drt with inputs := s.drt.inputs.set 0 true } }).drt.pend = []
    := by
  decide +kernel

/-- A trailer with something in every block, and its teardown and restart (R49, R50, R66). -/
theorem test_blocks_are_emptied :
    let p : Pend := { handle := 0, gen := 1, word := .on, time := 0, urgent := true }
    let s := (((confirming { motor with binding := some 12 } .ready).setList 12 [0, 5]).setPend [p]).setGuard 0
      { Guard.reset with owner := some (0, 1), state := .runA, runTimer := some 900 }
    let s := s.setGuard 5 { Guard.reset with state := .dwell }
    let s := (s.setSourceEntry 12 { active := true, form := .steady }).holdAddress 3
    let s : State := { s with
      cmon := { s.cmon with state := .parting, part := some 7 }
      prv := { (underProof .pulse .request).prv with list := [7] } }
    let cleared (t : State) : Bool := t.prv == Prv.reset && t.drt.pend.isEmpty && (t.list 12).isEmpty
      && t.frt.guards == Frt.reset.guards && (t.slot 0).confirm.isNone && (t.live 0).isNone && t.bue.held.isEmpty
      && (t.source 12).active && t.bue.request == .none
    cleared (run .partTimerExpiry s) = true ∧ cleared (run .restartLink s) = true
    ∧ (run .restartLink s).tdl.inFlight.map (·.req) = some .releaseAll ∧ (run .restartLink s).ntab.hold = true
    ∧ (run .partTimerExpiry s).ntab.tick = .stopped ∧ (run .partTimerExpiry s).fdir.attention = [0] := by
  decide +kernel

/-- The broadcast Release: placed at the head, once for two restarts; at its SENT the walk begins again, or waits (R32,
R50). -/
theorem test_restart_release :
    let s := (busy (some (hailing false (.sending 40)))).setRoutine [.probe]
    let held (m : CouplingState) : State :=
      let t := s.linkRestart
      { t with cmon := { t.cmon with state := m } }
    s.tdl.line ≠ .down ∧ s.queued (fun r => r == .releaseAll) = false ∧ s.linkRestart.tdl.routine = [.releaseAll]
    ∧ s.linkRestart.queued (fun r => r == .releaseAll) = true ∧ s.linkRestart.linkRestart.tdl.routine = [.releaseAll]
    ∧ (held .coupled).bue.restart = .releasing ∧ (held .coupled).restartComplete.bue.state = .probe
    ∧ (held .coupled).restartComplete.ntab.nodes = [] ∧ (held .coupled).restartComplete.tdl.routine = [.releaseAll, .probe]
    ∧ ((held .coupled).setConfig { Settings.reset with autoBringUp := false }).restartComplete.bue.state = .waitStart
    ∧ (held .parting).restartComplete.bue.restart = .onReturn ∧ (held .uncoupled).restartComplete.bue.restart = .none := by
  decide +kernel

/-- A node's catalogue is read: its sensor is READY with a confirm entry, on a line that runs and on one that does not, and
CHAIN_CHANGE is set by the settled-once mark (R42, R80, R160). -/
theorem test_catalogue_read :
    let new : Record := { gauge with state := .provisional }
    let s (l : LineState) : State :=
      let w := working l .describe
      { w with fdir := { Fdir.reset with slots := Fdir.reset.slots.set 0 { slotOf new with sampleMark := .queued } } }
    let t (l : LineState) : State :=
      ((s l).setBue { (s l).bue with nextIndex := 1 }).describeOutcome 1 (.replied .refused [] 10)
    (s .ready).live 0 = some new ∧ new.position = 1 ∧ new.cls ≠ .lamp ∧ (s .ready).bue.settledOnce = true
    ∧ (t .ready).record 0 = some gauge ∧ (t .ready).hcp.flags.getLsbD 3 = true
    ∧ ((t .ready).slot 0).confirm = some { deadline := .running 10000, phaseWait := false, mismatch := false }
    ∧ ((t .yielded).slot 0).confirm = some { deadline := .held 10000, phaseWait := false, mismatch := false }
    ∧ ((t .ready).slot 0).sampleMark = .queued ∧ 0 ∈ (t .ready).agenda.joins := by decide +kernel

/-- Clocks stand still on entry to YIELDED and FAULT and run on at the return (R46, R57, R58, R60, R161). -/
theorem test_clocks_stand_still :
    let s := confirming (lampIn .ready) .ready
    let s : State := { s.setBue { s.bue with frontier := .running 70 } with now := 30 }
    let s := s.modifyConfirm 0 fun c => { c with deadline := .running 95 }
    let t : State := { run .lineRequest s with now := 1000 }
    let u := run .toolLineReturn t
    t.ntab.nodes.map (·.heard) = [.still 30] ∧ t.ntab.tick = .held 70 ∧ t.bue.frontier = .held 40
    ∧ (t.slot 0).confirm.map (·.deadline) = some (.held 65) ∧ u.ntab.nodes.map (·.heard) = [.counting 30 1000]
    ∧ u.ntab.tick = .running 1070 ∧ u.bue.frontier = .running 1040
    ∧ (u.slot 0).confirm.map (·.deadline) = some (.running 1065)
    ∧ s.enterFault.ntab.nodes.map (fun n => (n.state, n.heard)) = [(.suspect, .still 30)]
    ∧ State.reset.unfreeze.ntab.tick = .running 100 := by decide +kernel

/-- The window limit's Release is SENT, with a node and without one; and an engine request to be placed again, with room and
without (R31, R38). -/
theorem test_engine_places_again :
    let s := walking .assign
    let none := s.setNtab Ntab.reset
    let none := none.setBue { none.bue with units := [] }
    let w := s.setBue { s.bue with request := .unplaced (.assign 3 9) }
    s.ntab.nodes.getLast? = some node ∧ s.windowReleased.tdl.routine = [.extend 0 false]
    ∧ s.windowReleased.bue.errand = .closeForWindow
    ∧ none.windowReleased.bue.state = .settled ∧ none.windowReleased.bue.chainEnd = .windowLimit
    ∧ (s.bueOutcome (.release 1 true) .sent).tdl.routine = [.extend 0 false]
    ∧ w.bueOccasion.tdl.routine = [.assign 3 9] ∧ w.bueOccasion.bue.request = .queued
    ∧ (w.setRoutine (List.replicate 24 .probe)).bueOccasion = w.setRoutine (List.replicate 24 .probe) := by decide +kernel

/-- A guard that awaits STOP: a STOP answered OVERLOAD ends it with the slot emptied, one that carried a run does not; and a
Sample that reports STOP for it, drive-settled or not (R153, R171). -/
theorem test_guard_is_told :
    let g : Guard := { Guard.reset with owner := some (0, 1), state := .dwell, awaiting := true, slot := some .b }
    let s := (confirming { motor with motion := some .dwell } .ready).setGuard 0 g
    let d (w : OutWord) : DriveReq := { address := 0, index := 0, handle := 0, gen := 1, word := w, prior := none }
    let sample (t : State) : State := t.confirmOutcome 0 1 (.replied .ok [8, 0, 0, 0] 10)
    let reply (w : OutWord) : State := s.driveOutcome (d w) (.replied .fault [2] 10)
    (reply .stop).guard 0 = { g with awaiting := false, deadTimer := some 3000, slot := none }
    ∧ (reply .runA).guard 0 = { g with slot := none }
    ∧ (s.driveOutcome (d .stop) (.replied .refused [] 10)).guard 0 = { g with awaiting := false, deadTimer := some 3000 }
    ∧ s.settled 0 = true ∧ (sample s).guard 0 = { g with awaiting := false, deadTimer := some 3000 }
    ∧ ((sample s).record 0).map (·.motion) = some (some .dwell)
    ∧ (sample (s.enter 0 motor .runA)).guard 0 = g
    ∧ (sample ((s.setGuard 0 { g with state := .runA }).setDrive 0 fun x => { x with lastPlaced := some .runB })).drt.pend
      = []
    ∧ ((s.setGuard 0 { g with state := .runA }).confirmOutcome 0 1 (.replied .ok [7, 0, 0, 0] 10)).drt.pend.map (·.word)
      = [.runA] := by decide +kernel

/-- An OK reply for a STALE record is judged of the record as it returns (R165). -/
theorem test_stale_reply_is_judged :
    let old : Record := { lampIn .stale with
      before := some .ready, drive := some { lastPlaced := some .on, failed := false } }
    let s := confirming old .ready
    let t := s.confirmOutcome 0 1 (.replied .ok [1, 0, 0, 2] 10)
    s.livePair 0 1 = some old ∧ (t.record 0).map (fun r => (r.state, r.fault, r.before)) = some (.faulted, .open, none)
    ∧ 0 ∈ t.agenda.joins := by decide +kernel

/-- Demanded, phased, and the turn phase of a source that flashes, follows or is inactive (R100, R116). -/
theorem test_phases :
    let s := State.reset.setSourceEntry 2 { active := true, form := .steady }
    let f := (((s.setSourceEntry 3 { active := true, form := .flashing .flL }).setChan .flL .running).onPhase .pair 0)
    let l := s.setSourceEntry 4 { active := true, form := .followed }
    s.demanded 10 = true ∧ s.phased 10 = false ∧ f.phased 10 = true ∧ f.phased 11 = false ∧ f.turnPhase .left = true
    ∧ (f.setChan .flL .joining).turnPhase .left = false ∧ s.turnPhase .left = false ∧ s.combinedActive .left = true
    ∧ l.turnPhase .right = false ∧ l.combinedActive .right = false ∧ l.phased 11 = true ∧ l.demanded 4 = true := by
  decide +kernel

/-- A judged proof creates the record's confirm entry, standing still while the line is DOWN (R160, R161). -/
theorem test_proof_creates_confirm :
    let s := underProof .pulse .request
    let t (l : LineState) : State := (s.setLine l).proofOutcome (.replied .ok [10] 5)
    ((t .ready).slot 0).confirm = some { deadline := .running 10000, phaseWait := false, mismatch := false }
    ∧ ((t .down).slot 0).confirm = some { deadline := .held 10000, phaseWait := false, mismatch := false } := by
  decide +kernel

/-! ### Small steps -/

theorem test_read_status_after_reset :
    (run .readStatus State.reset).hcp.response = [0, 0, 0, 0, 0, 0, 96, 0, 0, 0, 0, 0, 2, 0, 0] := by decide +kernel

theorem test_ack_events : (run (.ackEvents 0x0801) { State.reset with hcp := { Hcp.reset with flags := 0x0805 } }).hcp.flags
    = 0x0004 := by decide +kernel

theorem test_ack_events_refused : (run (.ackEvents 0x1000) State.reset).hcp.response = [5, 0, 0] := by decide +kernel

theorem test_set_event_mask : (run (.setEventMask 0x1000) State.reset).hcp.mask = 0x1000 := by decide +kernel

theorem test_configure : (run (.configure 6 500) State.reset).hcp.cfg.yieldLimit = 500 := by decide +kernel

theorem test_read_config : (run .readConfig State.reset).hcp.response =
    [0, 0, 1, 0, 1, 0, 0, 0, 0, 0x02, 0x9A, 0, 6, 0x01, 0x2C, 0x03, 0xE8, 0x07, 0xD0, 0x01, 0xF4, 0x03, 0xE8, 0, 0, 0, 4,
     0, 4, 0, 4, 0, 0x1F, 0xFF] := by decide +kernel

theorem test_start_bring_up_in_idle : (run .startBringUp State.reset).hcp.response = [4] := by decide +kernel

theorem test_start_bring_up : (run .startBringUp (working .ready .waitStart)).bue.state = .probe := by decide +kernel

theorem test_restart_link : (run .restartLink (working .ready .settled)).tdl.frame.take 3 = [0xA5, 0xF9, 0x00]
    ∧ (run .restartLink (working .ready .settled)).ntab.hold = true := by decide +kernel

theorem test_lookup : (run (.lookup 0 0xFF 0xFF 1 0x04 1) (withRecord (lampIn .ready))).hcp.response
    = [0, 1, 1, 1] ++ List.replicate 30 0 ++ [0, 0] := by decide +kernel

theorem test_fetch_record_of_free_slot : (run .streamImage (run (.fetchRecord 96) State.reset)).hcp.response =
    0 :: [96, 0, 0] ++ List.replicate 10 0 ++ [0xFF, 0xFF, 0, 0xFF, 0xFF, 0xFF, 0xFF] ++ List.replicate 13 0 := by
  decide +kernel

theorem test_fetch_node : (run .streamImage (run (.fetchNode 1) (working .ready .settled))).hcp.response =
    [0, 1, 3, 1, 1, 3, 0, 0, 0, 0, 0, 0, 0, 7, 2, 1, 1, 21, 0, 0, 0, 0] := by decide +kernel

theorem test_take_changes : (run .takeChanges ((withRecord (lampIn .ready)).setAttention [0])).hcp.response =
    [0, 1, 1, 1] ++ List.replicate 14 0 ++ [0] := by decide +kernel

theorem test_bind : ((run (.bind 1 1 0) (withRecord (lampIn .ready))).record 0).map (fun r => (r.state, r.binding))
    = some (.bound, some 0) := by decide +kernel

theorem test_bind_full : (run (.bind 1 1 0) fullList).hcp.response = [8] := by decide +kernel

theorem test_unbind : ((run (.unbind 1 1) (withRecord (tied .bound))).record 0).map (fun r => (r.state, r.binding))
    = some (.ready, none) := by decide +kernel

theorem test_set_parameter : ((run (.setParameter 1 1 1 641) (withRecord gauge)).record 0).bind
    (fun r => r.reading.map (·.threshold)) = some .below := by decide +kernel

theorem test_run_limit_over_maximum_run : (run (.setParameter 1 1 4 11) (withRecord motor)).hcp.response = [5] := by
  decide +kernel

theorem test_drive : (run (.drive 1 1 6) (withRecord valve)).drt.pend.map (fun p => (p.handle, p.word, p.urgent))
    = [(0, .runA, false)] := by decide +kernel

theorem test_drive_of_lamp : (run (.drive 1 1 1) (withRecord (lampIn .ready))).hcp.response = [4] := by decide +kernel

theorem test_set_demand : ((run (.setDemand 6 1) State.reset).source 17).active = true
    ∧ (run (.setDemand 6 1) State.reset).chan .flV = .running := by decide +kernel

theorem test_prove : ((run (.prove 1 1) (withRecord (tied .bound))).record 0).map
    (fun r => (r.state, r.intended, r.binding)) = some (.provisional, some 0, none) := by decide +kernel

theorem test_retire_reason : ((run (.retire 1 1) (withRecord (lampIn .ready))).record 0).map (fun r => (r.state, r.reason))
    = some (.retired, some .host) := by decide +kernel

theorem test_forget : (run (.forget 1 1) (withRecord (lampIn .retired))).record 0 = none := by decide +kernel

theorem test_recatalogue_without_node : (run (.recatalogue 2) (working .ready .settled)).hcp.response = [9] := by
  decide +kernel

theorem test_recatalogue_describes : (run (.recatalogue 1) (working .ready .settled)).tdl.frame.take 3
    = [0xA5, 0x13, 0x00] := by decide +kernel

theorem test_write_enable : (run .writeEnable scanned).ktl.wel = true ∧ (run .writeEnable State.reset).hcp.response = [2] := by
  decide +kernel

theorem test_write_disable : (run .writeDisable writable).ktl.wel = false := by decide +kernel

theorem test_erase_entry : (run (.eraseEntry 15) writable).hcp.response = [1] := by decide +kernel

theorem test_pin_of_empty_entry : (run (.pinEntry 0) writable).hcp.response = [4]
    ∧ (run (.pinEntry 0) writable).ktl.wel = false := by decide +kernel

theorem test_remember_unknown_unit : (run (.rememberUnit 1) writable).hcp.response = [9] := by decide +kernel

theorem test_ktl_read : (run (.ktlRead 2) scanned).hcp.response = [0, 2] ++ List.replicate 65 0 := by decide +kernel

theorem test_incomplete : (run (.incompleteTransaction .partCommand) State.reset).hcp.flags = 0x0800 := by decide +kernel

theorem test_scan_end : (run .ktlScanEnd State.reset).ktl.scanning = false
    ∧ (run .ktlScanEnd State.reset).ktl.torn = 0 := by decide +kernel

theorem test_write_end : (run (.ktlWriteEnd 0) (writable.placeWrite .erase 3 KtlEntry.blank)).ktl.last = .ok
    ∧ (run (.ktlWriteEnd 8) (writable.placeWrite .erase 3 KtlEntry.blank)).ktl.last = .writeFailed := by decide +kernel

/-- A cut write tears its entry, and the scan counts it (R191, R178). -/
theorem test_cut_write : ((run .supplyReset (writable.placeWrite .erase 3 KtlEntry.blank)).ktl.cells.toList.filter
    fun c => !c.sound).length = 1 := by decide +kernel

theorem test_couple_sense : (run .coupleSenseWithdrawn (working .ready .settled)).cmon.part = some 1000 := by decide +kernel

theorem test_line_present_withdrawn : (run .linePresentWithdrawn (working .ready .settled)).tdl.line = .fault := by
  decide +kernel

/-- The settle timer starts the walk: a Probe goes out, A5 01 00 and its check. -/
theorem test_settle_timer : (run .settleTimerExpiry (State.reset.setCmon
    { Cmon.reset with state := .settling, sense := true, settle := some 3000 })).tdl.frame = [0xA5, 0x01, 0x00, 0xC2] := by
  decide +kernel

theorem test_parting : (State.reset.senseAsserted.senseWithdrawn).cmon = Cmon.reset := by decide +kernel

theorem test_line_request : (run .lineRequest (working .ready .settled)).tdl.line = .yielded := by decide +kernel

theorem test_gap_end : (run .gapEnd (busy (some (hailing false .due)))).tdl.frame.take 3 = [0xA5, 0x18, 0x00] := by
  decide +kernel

theorem test_frame_end : (run .frameEnd (busy (some (hailing false (.sending 20))))).tdl.inFlight
    = some (hailing false (.window 20 20 70)) := by decide +kernel

/-- The frame of an abandoned request ends: the gap begins, and a retire Drive that was refused FULL is placed (R20, R87). -/
theorem test_orphan_frame_ends :
    let s := busy none
    let s := { s with
      tdl := { s.tdl with orphan := some 40 }
      fdir := { Fdir.reset with slots := Fdir.reset.slots.set 0 { Slot.reset with gen := 1, retireDrive := .unplaced 0 1 .off } } }
    let t := run .frameEnd s
    s.hcp.inReset = false ∧ s.tdl.line = .busy ∧ s.tdl.inFlight = none
    ∧ t.tdl.orphan = none ∧ t.tdl.gapEnds = 50 ∧ t.tdl.line = .busy
    ∧ t.tdl.routine = [.drive { address := 0, index := 1, handle := 0, gen := 1, word := .off, prior := none }] := by decide +kernel

theorem test_second_attempt_is_due : (run .replyWindowEnd (busy (some (hailing false (.window 0 0 50))))).tdl.inFlight
    = some (hailing true .due) := by decide +kernel

/-- A second attempt without a reply fails, and a LIVE node becomes SUSPECT (R56). -/
theorem test_failure_makes_suspect : ((run .replyWindowEnd (busy (some (hailing true (.window 0 0 50))))).nodeAt 1).map
    (·.state) = some .suspect := by decide +kernel

theorem test_reply : (run (.replyComplete [0xA5, 0x10, 0x01, frameCheck [0x10, 0x01]])
    (busy (some (hailing false (.window 0 0 50))))).tdl.nextBit[(0 : Fin 12)] = true := by decide +kernel

theorem test_silent_frontier : (run .replyWindowEnd
    (busy (some { probing (.window 0 0 50) with second := true }))).bue.state = .settled := by decide +kernel

theorem test_phase_end : (run (.phaseEnd .virtual) (run (.setDemand 6 1) State.reset)).now = 3330 := by decide +kernel

theorem test_demand_input : ((run (.demandInputChange 3 true) State.reset).source 3)
    = { active := true, form := .flashing .flL } := by decide +kernel

theorem test_guard_run : ((State.reset.guardRun 5 .a).guard 5).state = .runA := by decide +kernel

/-! ### The port's pins (R194, R197, R198, R210) -/

/-- The transaction that begins at a fall of CS_N, after one command of the queue and a row of bytes on SDI. -/
def sending (mode3 : Bool) (s : State) (l : List Byte) : State := l.foldl (fun s b => (s.clockByte mode3 b).1) s.selectFall

/-- Bytes reach the part most significant bit first, with zeros on SDO; the response follows, with zeros after it, in both
modes; SDO is released with CS_N high. -/
theorem test_pins_answer :
    let zeros := List.replicate 8 (some false)
    let answered (m : Bool) : State := (run (.unknownCommand 0x48) { sending m State.reset [0x48] with pending := [] })
    State.reset.hcp.spi = .high ∧ State.reset.sdo = none ∧ (State.reset.selectFall.clockByte false 0x48).2 = zeros
    ∧ (sending false State.reset [0x48]).pending = [.unknownCommand 0x48]
    ∧ (sending true State.reset [0x02, 0x08]).pending = []
    ∧ (sending true State.reset [0x02, 0x08, 0x01]).pending = [.ackEvents 0x0801]
    ∧ ((answered false).clockByte false 0xFF).2 = [false, false, false, false, true, false, true, true].map some
    ∧ ((answered true).clockByte true 0xFF).2 = [false, false, false, false, true, false, true, true].map some
    ∧ (((answered false).clockByte false 0xFF).1.clockByte false 0xFF).2 = zeros
    ∧ ((answered false).clockByte false 0x23).1.selectRise.pending = [] ∧ (answered false).selectRise.sdo = none := by
  decide +kernel

/-- What a transaction brings that ends early, and the image that a stream's falling edge calls for. -/
theorem test_pins_part :
    let streaming : State := run (.fetchNode 1) { sending false State.reset [0x22, 0x01] with pending := [] }
    State.reset.selectFall.selectRise.pending = [.incompleteTransaction .noClock]
    ∧ State.reset.selectFall.clockFall.selectRise.pending = [.incompleteTransaction .partCommand]
    ∧ ((State.reset.selectFall.clockBits false (List.replicate 7 false)).1.selectRise).pending
      = [.incompleteTransaction .partCommand]
    ∧ (sending false State.reset [0x02, 0x08]).selectRise.pending = [.incompleteTransaction (.missingParameters 0x02 1)]
    ∧ (sending false State.reset [0x22, 0x01]).pending = [.fetchNode 1] ∧ streaming.hcp.response = [0]
    ∧ (streaming.clockByte false 0).1.pending = [.streamImage] ∧ (streaming.clockByte false 0).1.selectRise.hcp.stream = .none
    ∧ (State.reset.receive { bytes := [0x02, 0x08], partClocks := 3 }).pending
      = [.incompleteTransaction (.missingParameters 0x02 1)] := by decide +kernel

/-- A transaction in progress when RESET falls or a device reset begins, and one that begins in either, bring nothing until
CS_N has risen, though the port answers again before. -/
theorem test_pins_reset :
    let half := sending false State.reset [0x02]
    let low := run .resetFall State.reset
    let off := run .supplyReset half
    let after (s : State) : State := (sending false s [0x23]).selectRise
    (run .resetFall half).hcp.spi = .unframed ∧ (run .resetFall half).sdo = none
    ∧ (after (run .resetRise (run .resetFall half))).pending = []
    ∧ (after (run .resetRise (run .resetFall half))).hcp.spi = .high
    ∧ low.portSilent = true ∧ low.selectFall.hcp.spi = .unframed ∧ (after (run .resetRise low.selectFall)).pending = []
    ∧ off.hcp.spi = .unframed ∧ off.hcp.inReset = true ∧ (run .deviceResetEnd off).portSilent = false
    ∧ (after (run .deviceResetEnd off)).pending = []
    ∧ (after (after (run .deviceResetEnd off))).pending = [.takeChanges]
    ∧ low.receive { bytes := [0x23], partClocks := 0 } = low := by
  decide +kernel

/-! ### Link restarts, admissions and steady proofs that ask again -/

/-- A link restart keeps only the Release. With an attempt ended, the retire Drives and the owed marks are claimed behind it;
with none, only the retire Drive that waited for a Drive now abandoned (R20, R87, R139). -/
theorem test_restart_classes :
    let slots := (Fdir.reset.slots.set 0 { Slot.reset with gen := 1, retireDrive := .unplaced 0 1 .off }).set 5
      { Slot.reset with gen := 2, retireDrive := .awaiting 3 2 .off }
    let old : DriveReq := { address := 0, index := 2, handle := 5, gen := 1, word := .on, prior := none }
    let placed (h : Handle) (g : Byte) (a : Addr) (i : FnIndex) : Request :=
      .drive { address := a, index := i, handle := h, gen := g, word := .off, prior := none }
    let s (f : Option InFlight) : State :=
      let s := ({ busy f with fdir := { Fdir.reset with slots := slots } } : State).setRoutine [.probe, .drive old]
      (s.setUrgent [.phaseMark 1 true]).setOwed .beacon (some { mask := 4, on := true })
    let ended := s (some (hailing false (.sending 40)))
    let quiet := s none
    let release := s (some { hailing false (.sending 40) with req := .releaseAll })
    ended.lineRuns = true ∧ ended.linkRestart.tdl.inFlight = none
    ∧ ended.linkRestart.tdl.routine = [.releaseAll, placed 0 1 0 1, placed 5 2 3 2]
    ∧ ended.linkRestart.tdl.urgent = [.phaseMark 4 true]
    ∧ quiet.linkRestart.tdl.routine = [.releaseAll, placed 5 2 3 2] ∧ quiet.linkRestart.tdl.urgent = []
    ∧ release.linkRestart.tdl.routine = [placed 5 2 3 2] ∧ release.linkRestart.tdl.inFlight = release.tdl.inFlight := by decide +kernel

/-- Admissions: a reversing actuator with a guard and without one, a lamp that its active source drives at once (R78, R79). -/
theorem test_admission :
    let s := (working .ready .settled).setSourceEntry 0 { active := true, form := .steady }
    let owned := (List.finRange 6).foldl (fun s q => s.setGuard q { s.guard q with owner := some (7, 1) }) s
    let motor : CatEntry := .actuator true 10 0 0 0
    let lamp : CatEntry := .lamp .tail .left 10 25 200 0
    let guarded := (s.admitEntry 1 1 motor).1
    let lit := (s.admitEntry 1 1 lamp).1
    s.nodeAt 1 = some node ∧ s.record 0 = none ∧ s.hcp.cfg.autoBind = true ∧ motor.reversing = true
    ∧ guarded.guard 0 = { Guard.reset with owner := some (0, 1), dead := 300, limit := 10 }
    ∧ (guarded.record 0).map (fun r => (r.guard, r.wanted)) = some (some 0, some .stop) ∧ 0 ∈ guarded.agenda.joins
    ∧ ((owned.admitEntry 1 1 motor).1.record 0).map (fun r => (r.guard, r.fault)) = some (none, .noGuard)
    ∧ (lit.record 0).map (fun r => (r.intended, r.wanted)) = some (some 0, some .on)
    ∧ lit.drt.pend = [{ handle := 0, gen := 1, word := .on, time := 0, urgent := true }] ∧ lit.agenda.drain = true
    ∧ (((working .ready .settled).admitEntry 1 1 lamp).1.record 0).map (·.wanted) = some (some .off)
    ∧ ((working .ready .settled).admitEntry 1 1 lamp).1.drt.pend = [] := by decide +kernel

/-- A steady proof that finds its lamp not lit has the output placed again: with no entry in the set, and with one (R103,
R129). -/
theorem test_steady_asks_again :
    let r : Record := { lampIn .proving with
      intended := some 0, wanted := some .on, drive := some { lastPlaced := some .on, failed := false } }
    let s := (proving .steady .request true true false).setRecord 0 r
    let waiting := s.enter 0 r .off
    let reply : ReqOutcome := .replied .ok [0, 0, 0, 0] 10
    let e : Pend := { handle := 0, gen := 1, word := .on, time := 0, urgent := true }
    s.demanded 0 = true ∧ s.phased 0 = false ∧ s.placeWord r = some .on ∧ s.pendHolds 0 = false ∧ waiting.pendHolds 0 = true
    ∧ (s.proofOutcome reply).prv.proof.map (fun p => (p.stage, p.notOn)) = some (.driveWait, true)
    ∧ (s.proofOutcome reply).record 0 = some { r with drive := some { lastPlaced := none, failed := false } }
    ∧ (s.proofOutcome reply).drt.pend = [e] ∧ (s.proofOutcome reply).agenda.drain = true
    ∧ (waiting.proofOutcome reply).drt.pend = [e] := by decide +kernel

/-- The frontier timer's Probe, on a line that is free. -/
theorem test_frontier_probe :
    let s := working .ready .settled
    let s := s.setBue { s.bue with frontier := .running 70 }
    s.bue.request = .none ∧ s.tdl.line ≠ .down ∧ s.routineEntries < 24
    ∧ (run .frontierTimerExpiry s).bue.request = .queued
    ∧ (run .frontierTimerExpiry s).tdl.inFlight.map (·.req) = some .probe := by decide +kernel

end Sys2Proof.Tests
end

namespace Sys2Proof.Machine

/-! ### Limits and next bits (R7, R14 to R17, R176) -/

/-- No two cells of the stored list are taken as entries of one identity (R176). -/
def distinctCells (cells : Vector KtlCell 16) : Prop :=
  ∀ i j : Fin 16, i ≠ j → cells[i].taken.state ≠ .empty → cells[j].taken.state ≠ .empty →
    cells[i].taken.identity ≠ cells[j].taken.identity

/-- A cell that is taken as EMPTY takes no identity from the others. -/
theorem distinctCells_set {cells : Vector KtlCell 16} (h : distinctCells cells) (k : Fin 16) {x : KtlCell}
    (hx : x.taken = KtlEntry.blank) : distinctCells (cells.set k x) := by
  have other : ∀ i : Fin 16, (cells.set k x)[i].taken.state ≠ .empty → (cells.set k x)[i] = cells[i] := by
    intro i hi
    by_cases e : k = i
    · subst e
      simp [hx, KtlEntry.blank] at hi
    · have : (k : Nat) ≠ i := fun q => e (Fin.ext q)
      simp [this]
  intro i j hij hi hj
  have ei := other i hi
  have ej := other j hj
  rw [ei] at hi ⊢
  rw [ej] at hj ⊢
  exact h i j hij hi hj

/-- What a device reset leaves of a write in flight holds no identity twice (R176, R191). -/
theorem cutCells_distinct {s : State} (h : distinctCells s.ktl.cells) : distinctCells s.cutCells := by
  have erased : ∀ (l : List (Fin 16)) (c : Vector KtlCell 16), distinctCells c →
      distinctCells (l.foldl (fun c (i : Fin 16) => c.set i KtlCell.blank) c) := by
    intro l
    induction l with
    | nil => exact fun _ q => q
    | cons i l ih => exact fun c q => ih _ (distinctCells_set q i (by simp [KtlCell.taken, KtlCell.blank, KtlEntry.blank]))
  unfold State.cutCells
  split
  · exact h
  · split
    · dsimp only
      split
      · exact distinctCells_set (erased _ _ h) _ (torn_taken _)
      · exact erased _ _ h
    · exact distinctCells_set h _ (torn_taken _)

/-- The list that waits for its scan. -/
theorem ktlReset_kept {cells : Vector KtlCell 16} (h : distinctCells cells) : (Ktl.reset cells).kept := by
  refine ⟨h, ?scanned, fun _ => ⟨rfl, fun i => ?blank⟩, ?write⟩
  case scanned => intro q; cases q
  case blank => simp [Ktl.reset, KtlEntry.blank]
  case write => intro _ q; cases q

theorem deviceReset_withinLimits {s : State} (h : s.withinLimits) : s.deviceReset.withinLimits := by
  obtain ⟨-, -, -, -, -, -, ktl⟩ := h
  refine ⟨Nat.zero_le _, fun x => ?_, queueKept_empty rfl rfl rfl, List.nodup_nil, ⟨List.nodup_nil, Nat.zero_le _⟩,
    ⟨List.nodup_nil, fun _ q => by cases q⟩, ktlReset_kept (cutCells_distinct ktl.1)⟩
  simp [State.deviceReset, State.reset, State.list, Drt.reset]

/-- The RESET input and device resets keep the limits. -/
theorem ofReset_withinLimits {c : Instr} (hc : c.ofReset = true) {s t : State} (h : s.withinLimits)
    (q : exec c s = .next t) : t.withinLimits := by
  cases c with
  | resetFall =>
      have q : execResetFall s = .next t := q
      unfold execResetFall at q
      split at q <;> cases q <;> exact h
  | resetRise =>
      have q : execResetRise s = .next t := q
      unfold execResetRise at q
      split at q <;> cases q <;> exact h
  | deviceReset =>
      have q : execDeviceReset s = .next t := q
      unfold execDeviceReset at q
      split at q <;> cases q
      · exact deviceReset_withinLimits h
      · exact h
  | supplyReset =>
      cases q
      exact deviceReset_withinLimits h
  | deviceResetEnd =>
      have q : execDeviceResetEnd s = .next t := q
      unfold execDeviceResetEnd at q
      split at q <;> cases q <;> exact h
  | _ => cases hc

theorem exec_withinLimits {c : Instr} {s t : State} (h : s.withinLimits) (q : exec c s = .next t) : t.withinLimits := by
  cases hc : c.ofReset with
  | false => exact (exec_changes hc q).withinLimits h
  | true => exact ofReset_withinLimits hc h q

/-- Settles O7: a command's next state is a chain of changes each of which keeps the limits, a device reset empties what is
limited, and the passing of time touches none of it. -/
theorem limitsStayKept : Obligations.LimitsStayKept := by
  intro s t h q
  unfold step at q
  split at q
  · next c rest _ => exact exec_withinLimits (s := { s with pending := rest }) h q
  · cases q
    exact h

/-- Only a complete reply changes a next bit, device resets apart. -/
theorem Change.nextBit {c : Instr} {s t : State} (m : Change c s t) (hc : ∀ l, c ≠ .replyComplete l) :
    t.tdl.nextBit = s.tdl.nextBit := by
  cases m with
  | move _ m => exact congrArg Fixed.nextBit m.fixed
  | bit _ _ h => exact absurd h.choose_spec (hc _)
  | _ => rfl

theorem Changes.nextBit {c : Instr} {s t : State} (m : Changes c s t) (hc : ∀ l, c ≠ .replyComplete l) :
    t.tdl.nextBit = s.tdl.nextBit := by
  induction m with
  | nil => rfl
  | snoc _ m ih => exact (m.nextBit hc).trans ih

/-- The RESET input changes nothing on the line. -/
theorem resetInput_tdl {c : Instr} (hc : c.ofReset = true) (hr : c.resets = false) {s t : State}
    (q : exec c s = .next t) : t.tdl = s.tdl := by
  cases c with
  | resetFall =>
      have q : execResetFall s = .next t := q
      unfold execResetFall at q
      split at q <;> cases q <;> rfl
  | resetRise =>
      have q : execResetRise s = .next t := q
      unfold execResetRise at q
      split at q <;> cases q <;> rfl
  | deviceResetEnd =>
      have q : execDeviceResetEnd s = .next t := q
      unfold execDeviceResetEnd at q
      split at q <;> cases q <;> rfl
  | deviceReset | supplyReset => cases hr
  | _ => cases hc

/-- Settles O11. -/
theorem sequenceBitsChangeByReplies : Obligations.SequenceBitsChangeByReplies := by
  intro c s t q hr hc
  cases h : c.ofReset with
  | false => exact (exec_changes h q).nextBit hc
  | true => rw [resetInput_tdl h hr q]

end Sys2Proof.Machine

namespace Sys2Proof.Machine

/-! ### Clocks that stand still and run on, and the line states that begin it (R22, R24, R46, R57, R58, R161) -/

@[simp] theorem mapConfirms_tdl (s : State) (f : Countdown → Countdown) : (s.mapConfirms f).tdl = s.tdl :=
  mapConfirms_same _ (fun _ _ _ => rfl) s f
@[simp] theorem mapConfirms_hcp (s : State) (f : Countdown → Countdown) : (s.mapConfirms f).hcp = s.hcp :=
  mapConfirms_same _ (fun _ _ _ => rfl) s f

@[simp] theorem freeze_tdl (s : State) : s.freeze.tdl = s.tdl := by simp [State.freeze]
@[simp] theorem freeze_hcp (s : State) : s.freeze.hcp = s.hcp := by simp [State.freeze]
@[simp] theorem unfreeze_tdl (s : State) : s.unfreeze.tdl = s.tdl := by simp [State.unfreeze]
@[simp] theorem unfreeze_hcp (s : State) : s.unfreeze.hcp = s.hcp := by simp [State.unfreeze]

theorem freeze_slot (s : State) (h : Handle) : s.freeze.slot h = { s.slot h with
    confirm := (s.slot h).confirm.map fun c => { c with deadline := c.deadline.hold s.now } } := mapConfirms_slot ..
theorem unfreeze_slot (s : State) (h : Handle) : s.unfreeze.slot h = { s.slot h with
    confirm := (s.slot h).confirm.map fun c => { c with deadline := c.deadline.release s.now } } := mapConfirms_slot ..

/-- The clocks of a state that `freeze` has passed stand still with what is left. -/
theorem freeze_stoodStill (s : State) : s.stoodStill s.freeze := by
  refine ⟨by simp [State.freeze], ?nodes, ?engine, fun h => ?slots⟩
  case nodes =>
    simp only [State.freeze, mapConfirms_ntab, setBue_ntab, setNtab_ntab]
    congr 1
    · congr 1
      funext n
      cases n.heard <;> rfl
    · cases s.ntab.tick <;> rfl
  case engine =>
    simp only [State.freeze, mapConfirms_bue, setBue_bue]
    show ({ s.bue with frontier := s.bue.frontier.hold s.now } : Bue) = _
    cases s.bue.frontier <;> rfl
  case slots =>
    rw [freeze_slot]
    cases (s.slot h).confirm with
    | none => rfl
    | some c =>
        obtain ⟨d, _, _⟩ := c
        cases d <;> rfl

/-- The clocks of a state that `unfreeze` has passed run on. -/
theorem unfreeze_runsOn (s : State) : s.runsOn s.unfreeze := by
  refine ⟨by simp [State.unfreeze], ?nodes, ?engine, fun h => ?slots⟩
  case nodes =>
    simp only [State.unfreeze, mapConfirms_ntab, setBue_ntab, setNtab_ntab]
    congr 1
    · split
      · rfl
      · congr 1
        funext n
        cases n.heard <;> rfl
    · cases s.ntab.tick <;> rfl
  case engine =>
    simp only [State.unfreeze, mapConfirms_bue, setBue_bue]
    show ({ s.bue with frontier := s.bue.frontier.release s.now } : Bue) = _
    cases s.bue.frontier <;> rfl
  case slots =>
    rw [unfreeze_slot]
    cases (s.slot h).confirm with
    | none => rfl
    | some c =>
        obtain ⟨d, _, _⟩ := c
        cases d <;> rfl

/-- An interrupted request goes back to its class, and nothing but the queue changes. -/
theorem interrupt_eq (s : State) : ∃ x, s.interrupt = { s with tdl := x } := by
  unfold State.interrupt
  split
  · split <;> exact ⟨_, rfl⟩
  · exact ⟨_, rfl⟩

@[simp] theorem interrupt_inFlight (s : State) : s.interrupt.tdl.inFlight = none := by
  unfold State.interrupt
  split
  · split <;> rfl
  · assumption

@[simp] theorem interrupt_now (s : State) : s.interrupt.now = s.now := by
  obtain ⟨_, e⟩ := interrupt_eq s
  rw [e]
@[simp] theorem interrupt_hcp (s : State) : s.interrupt.hcp = s.hcp := by
  obtain ⟨_, e⟩ := interrupt_eq s
  rw [e]

/-- The line on entry to FAULT (R24). -/
theorem enterFault_tdl (s : State) : s.enterFault.tdl = { s.interrupt.tdl with
    line := .fault, orphan := none, yieldDue := false, yieldEnds := none, reclaim := .idle
    faultEnds := some (s.now + ms 1000) } := by
  simp only [State.enterFault, State.lineFaulted, setNtab_tdl, freeze_tdl, raise_tdl, setTdl_tdl, interrupt_now]
  rfl

@[simp] theorem enterFault_line (s : State) : s.enterFault.tdl.line = .fault := by rw [enterFault_tdl]
@[simp] theorem enterFault_inFlight (s : State) : s.enterFault.tdl.inFlight = none := by
  rw [enterFault_tdl]
  exact interrupt_inFlight s
@[simp] theorem enterFault_faultEnds (s : State) : s.enterFault.tdl.faultEnds = some (s.now + ms 1000) := by
  rw [enterFault_tdl]

@[simp] theorem enterFault_fixed (s : State) : s.enterFault.fixed = s.fixed :=
  (enterFault_moves (ad := false) .nil).fixed

/-- On entry to FAULT the clocks stand still, and LIVE entries become SUSPECT besides (R24, R60). -/
theorem enterFault_stoodStill (s : State) : ∃ v : State, s.stoodStill v ∧ s.enterFault = v.setNtab { v.ntab with
    nodes := v.ntab.nodes.map fun n => if n.state = .live then { n with state := .suspect } else n } := by
  have still := freeze_stoodStill (s.interrupt.lineFaulted.raise .lineFault)
  refine ⟨(s.interrupt.lineFaulted.raise .lineFault).freeze, ?_, ?_⟩
  · obtain ⟨x, e⟩ := interrupt_eq s
    rw [e] at still ⊢
    exact still
  · simp [State.enterFault]

theorem enterFault_flag (s : State) : s.enterFault.hcp.flags.getLsbD 8 = true := by
  simp only [State.enterFault, setNtab_hcp, freeze_hcp]
  exact raise_bit _ .lineFault

/-- No entry is LIVE on entry to FAULT (R60). -/
theorem enterFault_notLive (s : State) : ∀ n ∈ s.enterFault.ntab.nodes, n.state ≠ .live := by
  obtain ⟨v, -, e⟩ := enterFault_stoodStill s
  rw [e]
  intro n hn
  obtain ⟨m, -, rfl⟩ := List.mem_map.mp hn
  split
  · simp
  · assumption

/-- The engine on entry to FAULT: only the frontier timer is touched. -/
theorem enterFault_bue (s : State) : ∃ c, s.enterFault.bue = { s.bue with frontier := c } := by
  obtain ⟨v, ⟨-, -, b, -⟩, e⟩ := enterFault_stoodStill s
  exact ⟨_, by rw [e]; exact b⟩

theorem enterFault_quiet {s : State} (h : s.engineQuiet) : s.enterFault.engineQuiet := by
  obtain ⟨c, e⟩ := enterFault_bue s
  unfold State.engineQuiet
  rw [e]
  exact h

/-- An event that makes a FAULT ends with the line in FAULT, the fault timer running (R24). -/
theorem enterFault_finish (s : State) : (s.enterFault.finish false).tdl.line = .fault
    ∧ (s.enterFault.finish false).tdl.inFlight = none
    ∧ (s.enterFault.finish false).tdl.reclaim = .idle
    ∧ (s.enterFault.finish false).tdl.faultEnds = some (s.now + ms 1000)
    ∧ (s.enterFault.finish false).hcp.flags.getLsbD 8 = true
    ∧ (s.engineQuiet → ∀ n ∈ (s.enterFault.finish false).ntab.nodes, n.state ≠ .live) := by
  have fault := enterFault_tdl s
  obtain ⟨line, flight, -, -, -, -, reclaim, ends⟩ := finish_line s.enterFault false (by rw [fault]; simp)
  rw [line, flight, reclaim, ends, fault]
  refine ⟨rfl, interrupt_inFlight s, rfl, rfl, flagsKept_bit (finish_flags _ _) _ (enterFault_flag s), fun q => ?_⟩
  rw [(finish_quiet s.enterFault false (enterFault_quiet q)).2.1]
  exact enterFault_notLive s

end Sys2Proof.Machine

namespace Sys2Proof.Machine

/-! ### Yields (R19, R22, R23) -/

/-- The line on entry to YIELDED (R22). -/
theorem enterYielded_tdl (s : State) : s.enterYielded.tdl = { s.interrupt.tdl with
    line := .yielded, yieldDue := false, yieldEnds := some (s.now + ms s.hcp.cfg.yieldLimit) } := by
  simp [State.enterYielded]

@[simp] theorem enterYielded_fixed (s : State) : s.enterYielded.fixed = s.fixed :=
  (enterYielded_moves (ad := false) .nil).fixed

theorem enterYielded_flag (s : State) : s.enterYielded.hcp.flags.getLsbD 7 = true := by
  simp only [State.enterYielded, freeze_hcp]
  exact raise_bit _ .lineYield

/-- On entry to YIELDED the clocks stand still (R46, R57, R58, R161). -/
theorem enterYielded_stoodStill (s : State) : s.stoodStill s.enterYielded := by
  have still := freeze_stoodStill ((s.interrupt.setTdl { s.interrupt.tdl with
    line := .yielded, yieldDue := false, yieldEnds := some (s.interrupt.now + ms s.interrupt.hcp.cfg.yieldLimit)
    }).raise .lineYield)
  obtain ⟨x, e⟩ := interrupt_eq s
  unfold State.enterYielded
  rw [e] at still ⊢
  exact still

/-- A yield ends its event with the line YIELDED and the yield limit running (R22, R23). -/
theorem enterYielded_finish (s : State) : (s.enterYielded.finish false).tdl.line = .yielded
    ∧ (s.enterYielded.finish false).tdl.inFlight = none
    ∧ (s.enterYielded.finish false).tdl.yieldEnds = some (s.now + ms s.hcp.cfg.yieldLimit)
    ∧ (s.enterYielded.finish false).hcp.flags.getLsbD 7 = true
    ∧ (s.enterYielded.finish false).fixed = s.fixed := by
  have yielded := enterYielded_tdl s
  obtain ⟨line, flight, -, -, -, ends, -, -⟩ := finish_line s.enterYielded false (by rw [yielded]; simp)
  rw [line, flight, ends, yielded]
  exact ⟨rfl, interrupt_inFlight s, rfl, flagsKept_bit (finish_flags _ _) _ (enterYielded_flag s), by simp⟩

/-- A request whose attempt a yield ends goes back to the head of its class (R19). -/
theorem enterYielded_head {s : State} {f : InFlight} (hf : s.tdl.inFlight = some f) :
    (f.urgent = true → s.enterYielded.tdl.urgent.head? = some f.req)
    ∧ (f.urgent = false → s.enterYielded.tdl.routine.head? = some f.req) := by
  rw [enterYielded_tdl]
  unfold State.interrupt
  constructor
  all_goals
    intro hu
    simp [hf, hu]

/-! ### The end of an attempt (R10, R11, R22) -/

/-- What the origins do when an attempt ends leaves the line as it is. -/
theorem onAttemptEnd_still (s : State) : s.onAttemptEnd.still = s.still :=
  (onAttemptEnd_moves (w := .walk) .nil).still (.inr rfl)

theorem still_fixed {s t : State} (h : t.still = s.still) : t.fixed = s.fixed := congrArg Still.fixed h
theorem still_line {s t : State} (h : t.still = s.still) : t.tdl.line = s.tdl.line := congrArg Still.line h
theorem still_inFlight {s t : State} (h : t.still = s.still) : t.tdl.inFlight = s.tdl.inFlight := congrArg Still.inFlight h
theorem still_faultEnds {s t : State} (h : t.still = s.still) : t.tdl.faultEnds = s.tdl.faultEnds :=
  congrArg Still.faultEnds h
theorem still_gapEnds {s t : State} (h : t.still = s.still) : t.tdl.gapEnds = s.tdl.gapEnds := congrArg Still.gapEnds h
theorem still_yieldDue {s t : State} (h : t.still = s.still) : t.tdl.yieldDue = s.tdl.yieldDue := congrArg Still.yieldDue h

@[simp] theorem onAttemptEnd_fixed (s : State) : s.onAttemptEnd.fixed = s.fixed := still_fixed (onAttemptEnd_still s)
@[simp] theorem onAttemptEnd_line (s : State) : s.onAttemptEnd.tdl.line = s.tdl.line := still_line (onAttemptEnd_still s)
@[simp] theorem onAttemptEnd_inFlight (s : State) : s.onAttemptEnd.tdl.inFlight = s.tdl.inFlight :=
  still_inFlight (onAttemptEnd_still s)
@[simp] theorem onAttemptEnd_yieldDue (s : State) : s.onAttemptEnd.tdl.yieldDue = s.tdl.yieldDue :=
  still_yieldDue (onAttemptEnd_still s)
@[simp] theorem onAttemptEnd_gapEnds (s : State) : s.onAttemptEnd.tdl.gapEnds = s.tdl.gapEnds :=
  still_gapEnds (onAttemptEnd_still s)

theorem yieldIfDue_due {s : State} (hy : s.tdl.yieldDue = true) (hl : s.tdl.line = .busy) :
    s.yieldIfDue = s.enterYielded := by
  simp [State.yieldIfDue, hy, hl]

theorem yieldIfDue_none {s : State} (hy : s.tdl.yieldDue = false) : s.yieldIfDue = s := by
  simp [State.yieldIfDue, hy]

/-- An attempt ended that way is followed by a second one, where it was the first (R11). -/
def ReqOutcome.retried : ReqOutcome → Bool
  | .noReply | .checkError => true
  | _ => false

/-- A first attempt that has failed: the second is due (R11). -/
theorem endAttempt_first (s : State) {f : InFlight} {o : ReqOutcome} (hf : f.second = false) (ho : o.retried = true) :
    s.endAttempt f o = (s.setInFlight (some { f with second := true, stage := .due })).onAttemptEnd.yieldIfDue := by
  unfold State.endAttempt
  cases o with
  | noReply | checkError => simp only [hf]
  | _ => cases ho

/-- Any other end decides the outcome (R10, R11). -/
theorem endAttempt_decides (s : State) {f : InFlight} {o : ReqOutcome} (h : f.second = true ∨ o.retried = false) :
    s.endAttempt f o = (s.reportOutcome f.req (f.req.failedOutcome o)).onAttemptEnd.yieldIfDue := by
  unfold State.endAttempt
  cases o with
  | noReply | checkError =>
      rcases h with h | h
      · simp only [h]
      · cases h
  | replied | collision | sent | abandoned => dsimp only

/-- With a yield due a request with its second attempt to come is interrupted (R19, R22). -/
theorem endAttempt_interrupted {s : State} {f : InFlight} {o : ReqOutcome} (hf : f.second = false) (ho : o.retried = true)
    (hy : s.tdl.yieldDue = true) (hl : s.tdl.line = .busy) : s.yieldedFrom (s.endAttempt f o) f s.now := by
  rw [endAttempt_first s hf ho]
  obtain ⟨u, hu⟩ : ∃ u, (s.setInFlight (some { f with second := true, stage := .due })).onAttemptEnd = u := ⟨_, rfl⟩
  have still : u.still = (s.setInFlight (some { f with second := true, stage := .due })).still := hu ▸ onAttemptEnd_still _
  have flight : u.tdl.inFlight = some { f with second := true, stage := .due } := still_inFlight still
  have fixed : u.fixed = s.fixed := (still_fixed still).trans rfl
  have now : u.now = s.now := congrArg Fixed.now fixed
  have cfg : u.hcp.cfg = s.hcp.cfg := congrArg Fixed.cfg fixed
  have yields := yieldIfDue_due ((still_yieldDue still).trans hy) ((still_line still).trans hl)
  obtain ⟨urgent, routine⟩ := enterYielded_head flight
  have tdl := enterYielded_tdl u
  rw [hu, yields]
  refine ⟨by rw [tdl], by rw [tdl]; exact interrupt_inFlight u, by rw [tdl], by rw [tdl, now, cfg], enterYielded_flag u, ?_,
    urgent, routine⟩
  rw [enterYielded_fixed, fixed]
  rfl

/-- The same seen from a state `s` from which the attempt's state `t` differs in the line's part and the clock. -/
theorem endAttempt_interrupted_from {s t : State} {f : InFlight} {o : ReqOutcome} (hf : f.second = false)
    (ho : o.retried = true) (hy : t.tdl.yieldDue = true) (hl : t.tdl.line = .busy)
    (ht : t.fixed = { s.fixed with now := t.now }) : s.yieldedFrom (t.endAttempt f o) f t.now := by
  obtain ⟨line, flight, due, ends, flag, fixed, urgent, routine⟩ := endAttempt_interrupted hf ho hy hl
  have cfg : t.hcp.cfg = s.hcp.cfg := congrArg Fixed.cfg ht
  refine ⟨line, flight, due, cfg ▸ ends, flag, ?_, urgent, routine⟩
  rw [fixed, ht]

/-! ### Entry to READY (R23, R25) -/

theorem placeReleases_line (s : State) (l : List Request) : (s.placeReleases l).tdl.line = s.tdl.line := by
  unfold State.placeReleases
  show (s.makeRoom _ _).1.tdl.line = s.tdl.line
  rw [makeRoom_tdl]

theorem sweep_line (s : State) (cause : Sweep) : (s.sweep cause).tdl.line = s.tdl.line := by
  have room : ∀ (u : State) (p : Request → Bool) (n : Nat) (q : List Request),
      ((u.makeRoom p n).1.setRoutine q).tdl.line = u.tdl.line := by
    intro u p n q
    show (u.makeRoom p n).1.tdl.line = _
    rw [makeRoom_tdl]
  unfold State.sweep
  generalize (if s.ntab.hold then [] else (s.ntab.nodes.filter NodeEntry.present).map (·.address)) = addresses
  dsimp only
  split
  · rw [room]; rfl
  · rw [placeReleases_line, room]; rfl

@[simp] theorem enterReady_line (s : State) (cause : Sweep) : (s.enterReady cause).tdl.line = .ready := by
  have resync : ∀ u : State, u.resync.tdl.line = u.tdl.line := fun u =>
    still_line ((resync_moves (e := .claim) .nil).still (.inl rfl))
  unfold State.enterReady
  dsimp only
  rw [callPass_tdl, callDrain_tdl, resync]
  split
  · simp
  · rw [sweep_line]
    simp

@[simp] theorem enterReady_fixed (s : State) (cause : Sweep) : (s.enterReady cause).fixed = s.fixed :=
  (enterReady_moves (ad := false) .nil cause).fixed

/-- An event that brings the line to READY ends there, or in BUSY with a request granted (R18, R21). -/
theorem enterReady_finish (s : State) (cause : Sweep) :
    (((s.enterReady cause).finish false).tdl.line = .ready ∨ ((s.enterReady cause).finish false).tdl.line = .busy)
    ∧ ((s.enterReady cause).finish false).fixed = s.fixed :=
  ⟨finish_ready _ _ (enterReady_line s cause), by simp⟩

/-! ### Line requests (R22) -/

theorem driving_iff (s : State) : s.driving = true ↔
    s.tdl.orphan ≠ none ∨ ∃ f e, s.tdl.inFlight = some f ∧ f.stage = .sending e := by
  unfold State.driving
  cases o : s.tdl.orphan with
  | some e => simp
  | none =>
      cases q : s.tdl.inFlight with
      | none => simp
      | some f => cases k : f.stage <;> simp [k]

theorem lineRequest_taken {s : State} (hr : s.hcp.inReset = false) (hl : s.lineRuns = true) (hd : s.driving = false) :
    exec .lineRequest s = .next (s.lineRequested.finish false) := by
  show runEvent s (if s.lineRuns && !s.driving then some s.lineRequested else none) = _
  rw [if_pos (by simp [hl, hd]), runEvent_some hr]

/-- With no attempt in progress on the line it is given up at once. -/
theorem lineRequested_idle {s : State} (h : ∀ f, s.tdl.inFlight = some f → f.stage = .due) :
    s.lineRequested = s.enterYielded := by
  unfold State.lineRequested
  split
  · rfl
  · next f q => rw [h f q]

theorem lineRequested_window {s : State} {f : InFlight} {a b e : Nat} (hf : s.tdl.inFlight = some f)
    (hs : f.stage = .window a b e) : s.lineRequested = s.setTdl { s.tdl with yieldDue := true } := by
  simp [State.lineRequested, hf, hs]

theorem lineRequested_replying {s : State} {f : InFlight} {n : Nat} (hf : s.tdl.inFlight = some f)
    (hs : f.stage = .replying n) :
    s.lineRequested = (s.setTdl { s.tdl with yieldDue := true }).restartGap.endAttempt f .checkError := by
  simp [State.lineRequested, hf, hs]

/-- An event with its moment: the clock stands there at the earliest (log entry 2). -/
theorem advanceTo_fixed (s : State) (n : Nat) : (s.advanceTo n).fixed = { s.fixed with now := max s.now n } := rfl

/-- Settles O48. -/
theorem yieldsBeginAndEnd : Obligations.YieldsBeginAndEnd := by
  refine ⟨fun s => ⟨enterYielded_stoodStill s, driving_iff s, ?_, unfreeze_runsOn s, rfl⟩, fun s hr =>
    ⟨fun hl hd hf => ?idle, fun f a b e hl hd hf hs => ?window, fun f n hl hd hf hs => ⟨fun h1 => ?interrupted, fun h2 => ?decided⟩,
      fun hl => ?elsewhere, fun hl => ?returned, fun e he => ?limit⟩⟩
  · simp [State.yieldIfDue]
  case idle =>
    have taken := lineRequest_taken hr hl hd
    rw [lineRequested_idle hf] at taken
    exact ⟨s.enterYielded.finish false, taken, rfl, enterYielded_finish s⟩
  case window =>
    have runs : s.lineRuns = true := by simp [State.lineRuns, hl]
    have busy : (s.setTdl { s.tdl with yieldDue := true }).tdl.line ≠ .ready := by simp [hl]
    obtain ⟨line, flight, -, -, due, -⟩ := finish_line _ false busy
    have taken := lineRequest_taken hr runs hd
    rw [lineRequested_window hf hs] at taken
    refine ⟨_, taken, ?_⟩
    rw [line, flight, due]
    exact ⟨hl, rfl, rfl, finish_fixed _ _⟩
  case interrupted =>
    have runs : s.lineRuns = true := by simp [State.lineRuns, hl]
    have taken := lineRequest_taken hr runs hd
    rw [lineRequested_replying hf hs] at taken
    exact ⟨_, taken, endAttempt_interrupted_from (t := (s.setTdl { s.tdl with yieldDue := true }).restartGap) h1 rfl rfl hl rfl⟩
  case decided =>
    have runs : s.lineRuns = true := by simp [State.lineRuns, hl]
    rw [lineRequest_taken hr runs hd, lineRequested_replying hf hs, endAttempt_decides _ (.inl h2)]
  case elsewhere =>
    show runEvent s (if s.lineRuns && !s.driving then some s.lineRequested else none) = _
    rw [if_neg (by simp [hl]), runEvent_none]
  case returned =>
    refine ⟨(s.restartGap.enterReady .none).finish false, ?_, rfl, enterReady_finish s.restartGap .none⟩
    show runEvent s (if s.tdl.line == .yielded then some (s.restartGap.enterReady .none) else none) = _
    rw [if_pos (by simp [hl]), runEvent_some hr]
  case limit =>
    obtain ⟨line, -, -, -, -, ends, reclaim, -⟩ := finish_line (s.advanceTo e).startReclaim false (by simp [State.startReclaim])
    refine ⟨((s.advanceTo e).startReclaim).finish false, ?_, line, ends, reclaim, finish_fixed _ _⟩
    show runEvent s (s.tdl.yieldEnds.map fun t => (s.advanceTo t).startReclaim) = _
    rw [he]
    exact runEvent_some hr _

end Sys2Proof.Machine

namespace Sys2Proof.Machine

/-! ### The engine's entry to PROBE (R33, R45) -/

theorem answerMatch_same (s : State) (m : MatchReq) :
    (s.answerMatch m).1.bue = s.bue ∧ (s.answerMatch m).1.ntab = s.ntab := by
  unfold State.answerMatch
  split
  · exact ⟨rfl, rfl⟩
  · next i _ =>
      dsimp only
      split
      · have hints : Moves .claim s ((s.ktlEntry i).hints.foldl (State.applyHint m.first m.unit) s) :=
          foldl_moves (fun _ x k => applyHint_moves k _ _ x) _ _ .nil
        have renew : ∀ u : State, (u.renewStamp i).bue = u.bue ∧ (u.renewStamp i).ntab = u.ntab := by
          intro u
          unfold State.renewStamp
          split <;> exact ⟨rfl, rfl⟩
        obtain ⟨bue, ntab, -⟩ := hints.claim
        exact ⟨(renew _).1.trans bue, (renew _).2.trans ntab⟩
      · exact ⟨rfl, rfl⟩

/-- What the engine waits for beyond its own state is left alone, and so is the Node Table. -/
structure Walks (s t : State) : Prop where
  dropping : t.bue.dropping = s.bue.dropping
  deferred : t.bue.deferred = s.bue.deferred
  ntab : t.ntab = s.ntab

theorem Walks.trans {s t u : State} (h : Walks s t) (k : Walks t u) : Walks s u :=
  ⟨k.dropping.trans h.dropping, k.deferred.trans h.deferred, k.ntab.trans h.ntab⟩

theorem Walks.of_same {s t : State} (hb : t.bue = s.bue) (hn : t.ntab = s.ntab) : Walks s t :=
  ⟨congrArg Bue.dropping hb, congrArg Bue.deferred hb, hn⟩

/-- A request that the engine places: what becomes of the claim is all that changes of the engine, and only the first
Describe of a node moves its entry. -/
theorem placeBue_bue (s : State) (r : WalkReq) (h : ∀ a i, r ≠ .describe a i false) :
    (∃ q, (s.placeBue r).bue = { s.bue with request := q }) ∧ (s.placeBue r).ntab = s.ntab := by
  by_cases hd : s.tdl.line = .down
  · rw [placeBue_down s r hd]
    exact ⟨⟨_, rfl⟩, rfl⟩
  · by_cases hr : s.routineEntries < Config.routineSize
    · rw [placeBue_taken s r hd hr, describePlaced_other _ _ h]
      exact ⟨⟨_, rfl⟩, rfl⟩
    · rw [placeBue_full s r hd hr]
      exact ⟨⟨_, rfl⟩, rfl⟩

theorem placeBue_walks (s : State) (r : WalkReq) (h : ∀ a i, r ≠ .describe a i false) : Walks s (s.placeBue r) := by
  obtain ⟨⟨q, hb⟩, hn⟩ := placeBue_bue s r h
  exact ⟨by rw [hb], by rw [hb], hn⟩

theorem settle_walks (s : State) (x : ChainEnd) : Walks s (s.settle x) := ⟨rfl, rfl, rfl⟩

/-- The answer of a match that the end of the chain has called for (R44, R45). -/
theorem matched_walks {s : State} {x : ChainEnd} (h : s.bue.errand = .thenSettle x) (n : Nat) (o : MatchOutcome) :
    Walks s (s.matched n o) := by
  unfold State.matched State.modifyUnit
  simp only [setBue_bue, h]
  exact ⟨rfl, rfl, rfl⟩

theorem askMatch_walks {s : State} {x : ChainEnd} (h : s.bue.errand = .thenSettle x) (m : MatchReq) :
    Walks s (s.askMatch m) := by
  unfold State.askMatch
  split
  · exact ⟨rfl, rfl, rfl⟩
  · obtain ⟨bue, ntab⟩ := answerMatch_same s m
    exact (Walks.of_same bue ntab).trans (matched_walks ((congrArg Bue.errand bue).trans h) _ _)

theorem endChain_walks (s : State) (x : ChainEnd) : Walks s (s.endChain x) := by
  unfold State.endChain
  split
  · unfold State.goMatch
    split
    · exact Walks.trans (t := s.setBue { s.bue with state := .matching, errand := .thenSettle x }) ⟨rfl, rfl, rfl⟩
        (askMatch_walks rfl _)
    · exact ⟨rfl, rfl, rfl⟩
  · exact settle_walks s x

/-- The engine on entry to PROBE, before its Probe is placed (R33, R48). -/
def Bue.probing (b : Bue) : Bue := { b with
  state := .probe, errand := .none, chainEnd := .none, frontier := .stopped, frontierHeld := false, dropping := false
  deferred := .none }

theorem enterProbe_eq (s : State) : s.enterProbe = if Config.nodeLimit ≤ s.ntab.nodes.length
    then (s.setBue s.bue.probing).endChain .nodeLimit else (s.setBue s.bue.probing).placeBue .probe := rfl

/-- After its entry to PROBE the engine has nothing left over from before (R48, R83), and no node entry has changed. -/
theorem enterProbe_quiet (s : State) : s.enterProbe.engineQuiet ∧ s.enterProbe.ntab = s.ntab := by
  have ready : ∀ t, Walks (s.setBue s.bue.probing) t → t.engineQuiet ∧ t.ntab = s.ntab :=
    fun t w => ⟨⟨w.dropping, w.deferred⟩, w.ntab⟩
  rw [enterProbe_eq]
  split
  · exact ready _ (endChain_walks _ _)
  · exact ready _ (placeBue_walks _ .probe fun _ _ => by simp)

/-- With room for a node the engine is in PROBE (R33). -/
theorem enterProbe_state {s : State} (h : s.ntab.nodes.length < 12) : s.enterProbe.bue.state = .probe := by
  rw [enterProbe_eq, if_neg (by simpa [Config.nodeLimit] using h)]
  obtain ⟨q, hb⟩ := (placeBue_bue (s.setBue s.bue.probing) .probe fun _ _ => by simp).1
  rw [hb]
  rfl

/-- The engine leaves IDLE to PROBE with auto bring-up, otherwise to WAIT_START (R32). -/
theorem leaveIdle_auto {s : State} (h : s.hcp.cfg.autoBringUp = true) : s.leaveIdle = s.enterProbe := by
  simp [State.leaveIdle, h]
theorem leaveIdle_wait {s : State} (h : s.hcp.cfg.autoBringUp = false) :
    s.leaveIdle = s.setBue { s.bue with state := .waitStart } := by
  simp [State.leaveIdle, h]

theorem leaveIdle_quiet {s : State} (h : s.engineQuiet) : s.leaveIdle.engineQuiet := by
  cases hc : s.hcp.cfg.autoBringUp with
  | true => exact leaveIdle_auto hc ▸ (enterProbe_quiet s).1
  | false => exact leaveIdle_wait hc ▸ h

theorem leaveIdle_ntab (s : State) : s.leaveIdle.ntab = s.ntab := by
  cases hc : s.hcp.cfg.autoBringUp with
  | true => exact leaveIdle_auto hc ▸ (enterProbe_quiet s).2
  | false => exact leaveIdle_wait hc ▸ rfl

theorem leaveIdle_still (s : State) : s.leaveIdle.still = s.still :=
  (leaveIdle_moves (w := .walk) .nil).still (.inr rfl)

/-! ### The Coupling Monitor (R24, R27 to R30) -/

theorem finish_cmon (s : State) (host : Bool) : (s.finish host).cmon = s.cmon := congrArg Fixed.cmon (finish_fixed s host)

theorem monitorCheck_fixed (s : State) : s.monitorCheck.fixed = { s.fixed with cmon := s.monitorCheck.cmon } := by
  unfold State.monitorCheck
  split <;> rfl

theorem enterUncoupled_fixed (s : State) : s.enterUncoupled.fixed = { s.fixed with cmon := s.enterUncoupled.cmon } := by
  unfold State.enterUncoupled
  rw [monitorCheck_fixed]
  rfl

/-- In UNCOUPLED both inputs together begin a settle (R27). -/
theorem monitorCheck_cmon (s : State) : s.monitorCheck.cmon =
    if s.cmon.state = .uncoupled ∧ s.cmon.sense = true ∧ s.tdl.linePresent = true
    then { s.cmon with state := .settling, settle := some (s.now + ms 300) } else s.cmon := by
  unfold State.monitorCheck
  simp only [Bool.and_eq_true, beq_iff_eq, and_assoc]
  split <;> rfl

/-- Entry to UNCOUPLED, where both inputs together begin a settle at once (R27, R30). -/
theorem enterUncoupled_cmon (s : State) : s.enterUncoupled.cmon =
    if s.cmon.sense = true ∧ s.tdl.linePresent = true
    then { s.cmon with state := .settling, settle := some (s.now + ms 300), part := none, lineLost := false }
    else { s.cmon with state := .uncoupled, settle := none, part := none, lineLost := false } := by
  unfold State.enterUncoupled
  rw [monitorCheck_cmon]
  simp [State.setCmon]

/-- The line states in which a withdrawn LINE_PRESENT makes a FAULT (R24). -/
theorem canFault_iff (l : LineState) : l.canFault = true ↔ l ∈ [.ready, .busy, .yielded, .reclaiming] := by
  cases l <;> simp [LineState.canFault]

theorem faultIfAbsent_faults {s : State} (hp : s.tdl.linePresent = false)
    (hl : s.tdl.line ∈ [.ready, .busy, .yielded, .reclaiming]) : s.faultIfAbsent = s.enterFault := by
  simp [State.faultIfAbsent, hp, (canFault_iff _).mpr hl]

theorem faultIfAbsent_other {s : State}
    (h : s.tdl.linePresent = true ∨ s.tdl.line ∉ [.ready, .busy, .yielded, .reclaiming]) : s.faultIfAbsent = s := by
  unfold State.faultIfAbsent
  rw [if_neg]
  rw [Bool.and_eq_true, canFault_iff, Bool.not_eq_true']
  rintro ⟨hp, hl⟩
  rcases h with h | h
  · rw [h] at hp; cases hp
  · exact h hl

/-- At the end of an event a line that is READY stays so or grants what waits, and any other is as it was (R18, R21). -/
theorem finish_goesOn (s : State) (host : Bool) : (s.tdl.line ≠ .ready → (s.finish host).tdl.line = s.tdl.line)
    ∧ (s.tdl.line = .ready → (s.finish host).tdl.line = .ready ∨ (s.finish host).tdl.line = .busy) :=
  ⟨fun h => (finish_line s host h).1, finish_ready s host⟩

theorem lineAbsent_settling {s : State} (h : s.cmon.state = .settling) :
    s.lineAbsent = (s.setLinePresent false).enterUncoupled := by
  have h : (s.setLinePresent false).cmon.state = .settling := h
  simp only [State.lineAbsent, h]

theorem lineAbsent_coupled {s : State} (h : s.cmon.state = .coupled) :
    s.lineAbsent = (s.setLinePresent false).faultIfAbsent := by
  have h : (s.setLinePresent false).cmon.state = .coupled := h
  simp only [State.lineAbsent, h]

theorem lineAbsent_other {s : State} (h : s.cmon.state ≠ .settling) (k : s.cmon.state ≠ .coupled) :
    s.lineAbsent = s.setLinePresent false := by
  unfold State.lineAbsent
  dsimp only
  split
  · next q => exact absurd q h
  · next q => exact absurd q k
  · rfl

/-- Settles O45. -/
theorem linePresentSettlesOrFaults : Obligations.LinePresentSettlesOrFaults := by
  refine fun s hr => ⟨fun hp => ?asserted, fun hp => ?withdrawn⟩
  case asserted =>
    have run : exec .linePresentAsserted s = .next ((s.setLinePresent true).monitorCheck.finish false) := by
      show runEvent s (if s.tdl.linePresent then none else some (s.setLinePresent true).monitorCheck) = _
      rw [if_neg (by simp [hp]), runEvent_some hr]
    refine ⟨_, run, ?_, ?_⟩
    · rw [finish_fixed, finish_cmon, monitorCheck_fixed]
      rfl
    · rw [finish_cmon, monitorCheck_cmon]
      simp [State.setLinePresent]
  case withdrawn =>
    have run : exec .linePresentWithdrawn s = .next (s.lineAbsent.finish false) := by
      show runEvent s (if s.tdl.linePresent then some s.lineAbsent else none) = _
      rw [if_pos hp, runEvent_some hr]
    obtain ⟨u, hu⟩ : ∃ u, s.setLinePresent false = u := ⟨_, rfl⟩
    have uline : u.tdl.line = s.tdl.line := hu ▸ rfl
    have ucmon : u.cmon = s.cmon := hu ▸ rfl
    have upresent : u.tdl.linePresent = false := hu ▸ rfl
    have ufixed : u.fixed = { s.fixed with linePresent := false } := hu ▸ rfl
    have settling : s.cmon.state = .settling → s.lineAbsent = u.enterUncoupled := hu ▸ lineAbsent_settling
    have coupled : s.cmon.state = .coupled → s.lineAbsent = u.faultIfAbsent := hu ▸ lineAbsent_coupled
    have other : s.cmon.state ≠ .settling → s.cmon.state ≠ .coupled → s.lineAbsent = u := hu ▸ lineAbsent_other
    have keeps : s.cmon.state ≠ .settling → s.lineAbsent.fixed = u.fixed := fun h => by
      by_cases k : s.cmon.state = .coupled
      · rw [coupled k]
        exact (faultIfAbsent_moves (ad := false) .nil).fixed
      · rw [other h k]
    refine ⟨_, run, ?fixed, fun h => ?settling, fun h => ?kept, fun h hl => ?faults, fun h hl => ?lineKept, fun h hl => ?parting,
      fun h hl => ?partingReady⟩
    case fixed =>
      rw [finish_fixed, finish_cmon]
      by_cases h : s.cmon.state = .settling
      · rw [settling h, enterUncoupled_fixed, ufixed]
      · have cmon : s.lineAbsent.cmon = s.cmon := (congrArg Fixed.cmon (keeps h)).trans ucmon
        rw [keeps h, cmon, ufixed]
        rfl
    case settling =>
      rw [finish_cmon, settling h, enterUncoupled_cmon, ucmon, upresent]
      simp
    case kept =>
      rw [finish_cmon]
      exact (congrArg Fixed.cmon (keeps h)).trans ucmon
    case faults =>
      rw [coupled h, faultIfAbsent_faults upresent (uline ▸ hl), hu]
      obtain ⟨line, flight, -, ends, flag, nodes⟩ := enterFault_finish u
      have now : u.now = s.now := hu ▸ rfl
      have quiet : s.engineQuiet → u.engineQuiet := fun q => hu ▸ q
      exact ⟨rfl, line, flight, now ▸ ends, flag, fun q => nodes (quiet q)⟩
    case lineKept =>
      rw [coupled h, faultIfAbsent_other (.inr (uline ▸ hl)), ← uline]
      exact (finish_goesOn u false).1 (fun q => hl (by rw [← uline, q]; simp))
    case parting =>
      rw [other (by simp [h]) (by simp [h]), ← uline]
      exact (finish_goesOn u false).1 (uline ▸ hl)
    case partingReady =>
      rw [other (by simp [h]) (by simp [h])]
      exact (finish_goesOn u false).2 (uline ▸ hl)

/-- The monitor back in COUPLED after PARTING, before what follows for the line and the engine. -/
def State.recoupled (s : State) : State :=
  s.setCmon { s.cmon with sense := true, state := .coupled, part := none }

/-- What a FAULT at the return to COUPLED leaves as the engine's part needs it. -/
theorem faultIfAbsent_engine (s : State) : s.faultIfAbsent.fixed = s.fixed
    ∧ s.faultIfAbsent.bue.state = s.bue.state ∧ s.faultIfAbsent.bue.restart = s.bue.restart
    ∧ s.faultIfAbsent.ntab.nodes.length = s.ntab.nodes.length
    ∧ (s.engineQuiet → s.faultIfAbsent.engineQuiet) := by
  unfold State.faultIfAbsent
  split
  · obtain ⟨c, bue⟩ := enterFault_bue s
    obtain ⟨v, ⟨-, nodes, -⟩, e⟩ := enterFault_stoodStill s
    refine ⟨enterFault_fixed s, by rw [bue], by rw [bue], ?_, enterFault_quiet⟩
    rw [e, setNtab_ntab, nodes]
    simp
  · exact ⟨rfl, rfl, rfl, rfl, id⟩

/-- The return to COUPLED, by the phase of a link restart (R28, R50). -/
theorem returnCoupled_onReturn {s : State} (h : s.bue.restart = .onReturn) : (s.setCmon { s.cmon with sense := true }).returnCoupled
    = (s.recoupled.faultIfAbsent.setBue { s.recoupled.faultIfAbsent.bue with restart := .none }).leaveIdle := by
  have restart : s.recoupled.faultIfAbsent.bue.restart = .onReturn := (faultIfAbsent_engine _).2.2.1.trans h
  have e : (s.setCmon { s.cmon with sense := true }).returnCoupled = if s.recoupled.faultIfAbsent.bue.restart == .onReturn
      then (s.recoupled.faultIfAbsent.setBue { s.recoupled.faultIfAbsent.bue with restart := .none }).leaveIdle
      else s.recoupled.faultIfAbsent := rfl
  rw [e, restart]
  rfl

theorem returnCoupled_other {s : State} (h : s.bue.restart ≠ .onReturn) :
    (s.setCmon { s.cmon with sense := true }).returnCoupled = s.recoupled.faultIfAbsent := by
  have restart : s.recoupled.faultIfAbsent.bue.restart ≠ .onReturn := by
    rw [(faultIfAbsent_engine _).2.2.1]
    exact h
  have e : (s.setCmon { s.cmon with sense := true }).returnCoupled = if s.recoupled.faultIfAbsent.bue.restart == .onReturn
      then (s.recoupled.faultIfAbsent.setBue { s.recoupled.faultIfAbsent.bue with restart := .none }).leaveIdle
      else s.recoupled.faultIfAbsent := rfl
  rw [e, if_neg (by simpa using restart)]

/-- Whether the engine leaves IDLE or not, the line, the node entries and its quiet come from the fault alone. -/
theorem returnCoupled_same (s : State) : ∃ u, (s.setCmon { s.cmon with sense := true }).returnCoupled = u
    ∧ u.still = s.recoupled.faultIfAbsent.still ∧ u.ntab = s.recoupled.faultIfAbsent.ntab
    ∧ s.recoupled.faultIfAbsent.flagsKept u
    ∧ (s.engineQuiet → u.engineQuiet) := by
  refine ⟨_, rfl, ?_⟩
  obtain ⟨v, hv⟩ : ∃ v, s.recoupled.faultIfAbsent = v := ⟨_, rfl⟩
  have quiet : s.engineQuiet → v.engineQuiet := fun q => hv ▸ (faultIfAbsent_engine s.recoupled).2.2.2.2 q
  by_cases h : s.bue.restart = .onReturn
  · rw [returnCoupled_onReturn h, hv]
    have m : Moves (.more .walk) v (v.setBue { v.bue with restart := .none }).leaveIdle :=
      leaveIdle_moves (setBue_moves .nil _)
    exact ⟨m.still (.inr rfl), leaveIdle_ntab _, m.flags, fun q => leaveIdle_quiet (quiet q)⟩
  · rw [returnCoupled_other h, hv]
    exact ⟨rfl, rfl, flagsKept_refl v, quiet⟩

theorem senseAsserted_uncoupled {s : State} (h : s.cmon.state = .uncoupled) :
    s.senseAsserted = (s.setCmon { s.cmon with sense := true }).monitorCheck := by
  have h : (s.setCmon { s.cmon with sense := true }).cmon.state = .uncoupled := h
  simp only [State.senseAsserted, h]

theorem senseAsserted_parting {s : State} (h : s.cmon.state = .parting) : s.senseAsserted =
    if s.cmon.lineLost then (s.setCmon { s.cmon with sense := true }).enterUncoupled
    else (s.setCmon { s.cmon with sense := true }).returnCoupled := by
  have h : (s.setCmon { s.cmon with sense := true }).cmon.state = .parting := h
  simp only [State.senseAsserted, h]
  rfl

theorem senseAsserted_other {s : State} (h : s.cmon.state ≠ .uncoupled) (k : s.cmon.state ≠ .parting) :
    s.senseAsserted = s.setCmon { s.cmon with sense := true } := by
  unfold State.senseAsserted
  dsimp only
  split
  · next q => exact absurd q h
  · next q => exact absurd q k
  · rfl

theorem senseWithdrawn_settling {s : State} (h : s.cmon.state = .settling) :
    s.senseWithdrawn = (s.setCmon { s.cmon with sense := false }).enterUncoupled := by
  have h : (s.setCmon { s.cmon with sense := false }).cmon.state = .settling := h
  simp only [State.senseWithdrawn, h]

theorem senseWithdrawn_coupled {s : State} (h : s.cmon.state = .coupled) : s.senseWithdrawn =
    s.setCmon { s.cmon with sense := false, state := .parting, part := some (s.now + ms 100) } := by
  have h : (s.setCmon { s.cmon with sense := false }).cmon.state = .coupled := h
  simp only [State.senseWithdrawn, h]
  rfl

theorem senseWithdrawn_other {s : State} (h : s.cmon.state = .uncoupled ∨ s.cmon.state = .parting) :
    s.senseWithdrawn = s.setCmon { s.cmon with sense := false } := by
  unfold State.senseWithdrawn
  dsimp only
  split
  · next q => rw [show s.cmon.state = .settling from q] at h; simp at h
  · next q => rw [show s.cmon.state = .coupled from q] at h; simp at h
  · rfl

/-- The event of the withdrawn COUPLE_SENSE changes the monitor alone of what the trailer's side leaves alone. -/
theorem senseWithdrawn_fixed (s : State) : s.senseWithdrawn.fixed = { s.fixed with cmon := s.senseWithdrawn.cmon } := by
  cases h : s.cmon.state with
  | settling =>
      rw [senseWithdrawn_settling h, enterUncoupled_fixed]
      rfl
  | coupled =>
      rw [senseWithdrawn_coupled h]
      rfl
  | uncoupled | parting =>
      rw [senseWithdrawn_other (by simp [h])]
      rfl

theorem returnCoupled_fixed (s : State) : (s.setCmon { s.cmon with sense := true }).returnCoupled.fixed = s.recoupled.fixed := by
  obtain ⟨u, hu, still, -⟩ := returnCoupled_same s
  rw [hu, still_fixed still, (faultIfAbsent_engine s.recoupled).1]

theorem senseAsserted_fixed (s : State) : s.senseAsserted.fixed = { s.fixed with cmon := s.senseAsserted.cmon } := by
  by_cases h : s.cmon.state = .uncoupled
  · rw [senseAsserted_uncoupled h, monitorCheck_fixed]
    rfl
  · by_cases k : s.cmon.state = .parting
    · rw [senseAsserted_parting k]
      split
      · rw [enterUncoupled_fixed]
        rfl
      · have fixed := returnCoupled_fixed s
        have cmon := congrArg Fixed.cmon fixed
        rw [fixed]
        exact congrArg (fun c => { s.fixed with cmon := c }) cmon.symm
    · rw [senseAsserted_other h k]
      rfl

/-- The line at the end of the event of the return to COUPLED (R24). -/
theorem returnCoupled_line {s u : State} (hu : (s.setCmon { s.cmon with sense := true }).returnCoupled = u) :
    (s.tdl.linePresent = false → s.tdl.line ∈ [.ready, .busy, .yielded, .reclaiming] →
      (u.finish false).tdl.line = .fault ∧ (u.finish false).tdl.inFlight = none
      ∧ (u.finish false).tdl.faultEnds = some (s.now + ms 1000) ∧ (u.finish false).hcp.flags.getLsbD 8 = true
      ∧ (s.engineQuiet → ∀ n ∈ (u.finish false).ntab.nodes, n.state ≠ .live))
    ∧ (s.tdl.linePresent = true ∨ s.tdl.line ∉ [.ready, .busy, .yielded, .reclaiming] →
      (s.tdl.line ≠ .ready → (u.finish false).tdl.line = s.tdl.line)
      ∧ (s.tdl.line = .ready → (u.finish false).tdl.line = .ready ∨ (u.finish false).tdl.line = .busy)) := by
  obtain ⟨v, hv, still, nodes, flags, quiet⟩ := returnCoupled_same s
  rw [hu] at hv
  subst hv
  refine ⟨fun hp hl => ?faults, fun h => ?goesOn⟩
  case faults =>
    rw [faultIfAbsent_faults (s := s.recoupled) hp hl] at still nodes flags
    have uline : u.tdl.line = .fault := (still_line still).trans (enterFault_line _)
    obtain ⟨line, flight, -, -, -, -, -, ends⟩ := finish_line u false (by rw [uline]; simp)
    rw [line, flight, ends, uline, still_inFlight still, still_faultEnds still, enterFault_inFlight, enterFault_faultEnds]
    refine ⟨rfl, rfl, rfl,
      flagsKept_bit (flagsKept_trans flags (finish_flags u false)) _ (enterFault_flag _), fun q => ?_⟩
    rw [(finish_quiet u false (quiet q)).2.1, nodes]
    exact enterFault_notLive _
  case goesOn =>
    rw [faultIfAbsent_other (s := s.recoupled) h] at still
    have uline : u.tdl.line = s.recoupled.tdl.line := still_line still
    have on := finish_goesOn u false
    rw [uline] at on
    exact on

/-- The engine at the end of the event of the return to COUPLED: it leaves IDLE after a link restart (R28, R32, R50). -/
theorem returnCoupled_engine {s u : State} (hu : (s.setCmon { s.cmon with sense := true }).returnCoupled = u) :
    (s.bue.restart = .onReturn →
      (s.hcp.cfg.autoBringUp = false → s.engineQuiet → (u.finish false).bue.state = .waitStart)
      ∧ (s.hcp.cfg.autoBringUp = true → s.ntab.nodes.length < 12 → (u.finish false).bue.state = .probe))
    ∧ (s.bue.restart ≠ .onReturn → s.engineQuiet → (u.finish false).bue.state = s.bue.state) := by
  obtain ⟨fixed, state, -, nodes, quiet⟩ := faultIfAbsent_engine s.recoupled
  refine ⟨fun h => ?_, fun h q => ?_⟩
  · rw [returnCoupled_onReturn h] at hu
    obtain ⟨v, hv⟩ : ∃ v, s.recoupled.faultIfAbsent.setBue { s.recoupled.faultIfAbsent.bue with restart := .none } = v := ⟨_, rfl⟩
    have vcfg : v.hcp.cfg = s.hcp.cfg := by
      rw [← hv]
      exact congrArg Fixed.cfg fixed
    have vquiet : s.engineQuiet → v.engineQuiet := by
      rw [← hv]
      exact quiet
    have vnodes : v.ntab.nodes.length = s.ntab.nodes.length := by
      rw [← hv]
      exact nodes
    rw [hv] at hu
    refine ⟨fun hc q => ?_, fun hc hn => ?_⟩
    · have uquiet : u.engineQuiet := hu ▸ leaveIdle_quiet (vquiet q)
      rw [(finish_quiet u false uquiet).1, ← hu, leaveIdle_wait (vcfg ▸ hc)]
      rfl
    · rw [leaveIdle_auto (vcfg ▸ hc)] at hu
      have uquiet : u.engineQuiet := hu ▸ (enterProbe_quiet v).1
      rw [(finish_quiet u false uquiet).1, ← hu]
      exact enterProbe_state (vnodes ▸ hn)
  · rw [returnCoupled_other h] at hu
    have uquiet : u.engineQuiet := hu ▸ quiet q
    rw [(finish_quiet u false uquiet).1, ← hu, state]
    rfl

/-- Settles O44. -/
theorem coupleSenseMovesMonitor : Obligations.CoupleSenseMovesMonitor := by
  refine fun s hr => ⟨fun hs => ?asserted, fun hs => ?withdrawn⟩
  case asserted =>
    have run : exec .coupleSenseAsserted s = .next (s.senseAsserted.finish false) := by
      show runEvent s (if s.cmon.sense then none else some s.senseAsserted) = _
      rw [if_neg (by simp [hs]), runEvent_some hr]
    have fixed : (s.senseAsserted.finish false).fixed
        = { s.fixed with cmon := (s.senseAsserted.finish false).cmon } := by
      rw [finish_fixed, finish_cmon]
      exact senseAsserted_fixed s
    refine ⟨_, run, fixed, fun h hp => ?settles, fun h hp => ?waits, fun h hl => ?returns, fun h hl => ?lost⟩
    case settles =>
      rw [finish_cmon, senseAsserted_uncoupled h, monitorCheck_cmon]
      simp [State.setCmon, h, hp]
    case waits =>
      rw [finish_cmon, senseAsserted_uncoupled h, monitorCheck_cmon]
      simp [State.setCmon, hp]
    case returns =>
      have back : s.senseAsserted = (s.setCmon { s.cmon with sense := true }).returnCoupled := by
        rw [senseAsserted_parting h, if_neg (by simp [hl])]
      rw [back]
      obtain ⟨u, hu⟩ : ∃ u, (s.setCmon { s.cmon with sense := true }).returnCoupled = u := ⟨_, rfl⟩
      have cmon : u.cmon = { s.cmon with sense := true, state := .coupled, part := none } :=
        congrArg Fixed.cmon (hu ▸ returnCoupled_fixed s)
      obtain ⟨faults, goesOn⟩ := returnCoupled_line hu
      obtain ⟨leaves, stays⟩ := returnCoupled_engine hu
      rw [hu]
      exact ⟨(finish_cmon u false).trans cmon, faults, goesOn, leaves, stays⟩
    case lost =>
      rw [finish_cmon, senseAsserted_parting h, if_pos hl, enterUncoupled_cmon]
      cases hp : s.tdl.linePresent <;> simp [State.setCmon, hp]
  case withdrawn =>
    have run : exec .coupleSenseWithdrawn s = .next (s.senseWithdrawn.finish false) := by
      show runEvent s (if s.cmon.sense then some s.senseWithdrawn else none) = _
      rw [if_pos hs, runEvent_some hr]
    refine ⟨_, run, ?_, fun h => ?_, fun h => ?_, fun h => ?_⟩
    · rw [finish_fixed, finish_cmon, senseWithdrawn_fixed]
    · rw [finish_cmon, senseWithdrawn_settling h, enterUncoupled_cmon]
      simp [State.setCmon]
    · rw [finish_cmon, senseWithdrawn_coupled h]
      rfl
    · rw [finish_cmon, senseWithdrawn_other h]
      rfl

end Sys2Proof.Machine

namespace Sys2Proof.Machine

/-! ### Changes of records leave the line alone -/

@[simp] theorem enter_tdl (s : State) (h : Handle) (r : Record) (w : OutWord) : (s.enter h r w).tdl = s.tdl := by
  unfold State.enter
  dsimp only
  split <;> rfl

@[simp] theorem enterIfDiffers_tdl (s : State) (h : Handle) (r : Record) (w : OutWord) :
    (s.enterIfDiffers h r w).tdl = s.tdl := by
  unfold State.enterIfDiffers
  split
  · split
    · rfl
    · exact enter_tdl ..
  · rfl

@[simp] theorem askOutput_tdl (s : State) (h : Handle) (w : OutWord) : (s.askOutput h w).tdl = s.tdl := by
  unfold State.askOutput
  split
  · split
    · rfl
    · exact enterIfDiffers_tdl ..
  · rfl

@[simp] theorem setMotion_tdl (s : State) (h : Handle) (m : Motion) : (s.setMotion h m).tdl = s.tdl := by
  unfold State.setMotion
  split
  · split <;> rfl
  · rfl

@[simp] theorem putGuard_tdl (s : State) (g : Fin 6) (x : Guard) : (s.putGuard g x).tdl = s.tdl := by
  unfold State.putGuard
  dsimp only
  split
  · split
    · exact setMotion_tdl ..
    · rfl
  · rfl

@[simp] theorem guardAsk_tdl (s : State) (g : Fin 6) (w : OutWord) : (s.guardAsk g w).tdl = s.tdl := by
  unfold State.guardAsk
  split
  · split
    · exact askOutput_tdl ..
    · rfl
  · rfl

@[simp] theorem guardStopEnded_tdl (s : State) (g : Fin 6) : (s.guardStopEnded g).tdl = s.tdl := by
  unfold State.guardStopEnded
  dsimp only
  split <;> rfl

@[simp] theorem stopNeedsNoDrive_tdl (s : State) (g : Fin 6) : (s.stopNeedsNoDrive g).tdl = s.tdl := by
  unfold State.stopNeedsNoDrive
  split
  · split
    · split
      · split
        · exact guardStopEnded_tdl ..
        · rfl
      · rfl
    · rfl
  · rfl

@[simp] theorem guardEnterDwell_tdl (s : State) (g : Fin 6) (d : Option Dir) (entered : Bool) :
    (s.guardEnterDwell g d entered).tdl = s.tdl := by
  unfold State.guardEnterDwell
  dsimp only
  rw [stopNeedsNoDrive_tdl]
  split <;> simp

@[simp] theorem guardStop_tdl (s : State) (g : Fin 6) (entered : Bool) : (s.guardStop g entered).tdl = s.tdl := by
  unfold State.guardStop
  dsimp only
  split
  · split <;> simp
  · rfl
  · exact guardEnterDwell_tdl ..

@[simp] theorem reactWithheld_tdl (s : State) (h : Handle) (old new : Record) (was : Bool) :
    (s.reactWithheld h old new was).tdl = s.tdl := by
  unfold State.reactWithheld
  split
  · dsimp only
    split <;> simp
  · split
    · split <;> rfl
    · split
      · split <;> simp
      · rfl

@[simp] theorem commit_tdl (s : State) (h : Handle) (old new : Record) : (s.commit h old new).tdl = s.tdl := by
  have joined : ∀ u : State, (if old.state = new.state ∧ old.fault = new.fault then u else u.join h).tdl = u.tdl := by
    intro u
    split <;> rfl
  have confirm : ∀ u : State, (if new.state.usable && !old.state.usable then u.createConfirm h new
      else if old.state.usable && !new.state.usable then u.removeConfirm h else u).tdl = u.tdl := by
    intro u
    split
    · rfl
    · split <;> rfl
  unfold State.commit
  dsimp only
  rw [reactWithheld_tdl, confirm, joined]
  rfl

@[simp] theorem claim_tdl (s : State) (h : Handle) (gen : Byte) (f : Record → Option Record) :
    (s.claim h gen f).tdl = s.tdl := by
  unfold State.claim
  split
  · split
    · exact commit_tdl ..
    · rfl
  · rfl

/-- The end of a recatalogue is no matter of the line (R82). -/
@[simp] theorem endRecat_tdl (s : State) : s.endRecat.tdl = s.tdl := by
  unfold State.endRecat
  split
  · exact foldl_same (p := State.tdl) (fun u (x : Handle × Byte) => claim_tdl u x.1 x.2 _) _ _
  · rfl

/-- The end of a recatalogue is one of claims, and of the recatalogue itself. -/
theorem endRecat_same (s : State) : s.endRecat.bue = s.bue ∧ s.endRecat.ntab = s.ntab ∧ s.endRecat.fdir.recat = none
    ∧ s.endRecat.ktl = s.ktl ∧ s.endRecat.hcp = s.hcp := by
  unfold State.endRecat
  split
  · next c _ =>
      have m : Moves .claim (s.setRecat none) (c.taken.foldl (fun s x => s.claim x.1 x.2 Record.catalogueRead) (s.setRecat none)) :=
        foldl_moves (fun _ x k => claim_moves k x.1 x.2 _ catalogueRead_keeps) _ _ .nil
      obtain ⟨bue, ntab, ktl, hcp, recat, -⟩ := m.claim
      exact ⟨bue, ntab, recat, ktl, hcp⟩
  · next h => exact ⟨rfl, rfl, h, rfl, rfl⟩

/-! ### Requests abandoned (R20) -/

/-- The outcome ABANDONED of a proof's request empties the slot or leaves it (R111). -/
theorem proofOutcome_abandoned (s : State) : ∃ p, s.proofOutcome .abandoned = s.setProof p := by
  unfold State.proofOutcome
  split
  · next h =>
      refine ⟨none, ?_⟩
      show s = { s with prv := { s.prv with proof := none } }
      rw [← h]
  · next p h =>
      have keep : s = s.setProof (some p) := by
        show s = { s with prv := { s.prv with proof := some p } }
        rw [← h]
      split
      · exact ⟨_, rfl⟩
      · split
        · exact ⟨_, keep⟩
        · split <;> exact ⟨_, rfl⟩

/-- The outcome ABANDONED of a scheduler's Sample clears the mark, and brings about a pass (R163). -/
theorem confirmOutcome_abandoned (s : State) (h : Handle) (gen : Byte) :
    s.confirmOutcome h gen .abandoned = ((s.clearMark h).setOwn (s.csch.own - 1)).callPass := by
  have same : ∀ (u : State) (v : Bool) (r : Record), (if v then u else u.judgeSample h gen r .abandoned) = u := by
    intro u v r
    cases v <;> rfl
  unfold State.confirmOutcome
  dsimp only
  split
  · rw [same]
    rfl
  · rfl

/-- What is told of an abandoned request is no matter of the line or of the Node Table (R20). -/
theorem abandoned_line (s : State) (r : Request) : (s.abandoned r).tdl = s.tdl ∧ (s.abandoned r).ntab = s.ntab := by
  obtain ⟨p, proof⟩ := proofOutcome_abandoned s
  unfold State.abandoned
  split
  · exact ⟨endRecat_tdl _, (endRecat_same _).2.1⟩
  all_goals first
    | exact ⟨rfl, rfl⟩
    | (rw [proof]; exact ⟨rfl, rfl⟩)
    | (rw [confirmOutcome_abandoned]; exact ⟨rfl, rfl⟩)

theorem foldl_abandoned_line (l : List Request) (s : State) :
    (l.foldl State.abandoned s).tdl = s.tdl ∧ (l.foldl State.abandoned s).ntab = s.ntab :=
  ⟨foldl_same (p := State.tdl) (fun u r => (abandoned_line u r).1) l s,
    foldl_same (p := State.ntab) (fun u r => (abandoned_line u r).2) l s⟩

/-- The line once the requests of a kind have been taken out, before their owners are told (R20; log entry 9). -/
def State.withoutRequests (s : State) (p : Request → Bool) : State :=
  let t := (s.setUrgent (s.tdl.urgent.filter fun r => !p r)).setRoutine (s.tdl.routine.filter fun r => !p r)
  match s.tdl.inFlight with
  | some f => if p f.req then t.dropInFlight f else t
  | none => t

/-- The requests of a kind, the one in flight first. -/
def Tdl.ofKind (t : Tdl) (p : Request → Bool) : List Request :=
  (match t.inFlight with
    | some f => if p f.req then [f.req] else []
    | none => []) ++ (t.urgent.filter p ++ t.routine.filter p)

theorem abandonWhere_eq (s : State) (p : Request → Bool) :
    s.abandonWhere p = (s.tdl.ofKind p).foldl State.abandoned (s.withoutRequests p) := by
  unfold State.abandonWhere Tdl.ofKind State.withoutRequests
  cases hf : s.tdl.inFlight with
  | none => simp [hf, State.setUrgent, State.setRoutine]
  | some f => cases hp : p f.req <;> simp [hf, hp, State.setUrgent, State.setRoutine]

theorem withoutRequests_eq (s : State) (p : Request → Bool) : ∃ x, s.withoutRequests p = { s with tdl := x } := by
  unfold State.withoutRequests
  dsimp only
  split
  · split
    · unfold State.dropInFlight
      dsimp only
      split <;> exact ⟨_, rfl⟩
    · exact ⟨_, rfl⟩
  · exact ⟨_, rfl⟩

/-- Both classes keep what is not of the kind. -/
theorem withoutRequests_queue (s : State) (p : Request → Bool) :
    (s.withoutRequests p).tdl.urgent = s.tdl.urgent.filter (fun r => !p r)
    ∧ (s.withoutRequests p).tdl.routine = s.tdl.routine.filter (fun r => !p r)
    ∧ (s.withoutRequests p).tdl.line = s.tdl.line ∧ (s.withoutRequests p).tdl.yieldDue = s.tdl.yieldDue := by
  unfold State.withoutRequests
  dsimp only
  split
  · split
    · unfold State.dropInFlight
      dsimp only
      split <;> exact ⟨rfl, rfl, rfl, rfl⟩
    · exact ⟨rfl, rfl, rfl, rfl⟩
  · exact ⟨rfl, rfl, rfl, rfl⟩

/-- The request in flight stays, when it is not of the kind. -/
theorem withoutRequests_stays {s : State} {p : Request → Bool} (h : ∀ f, s.tdl.inFlight = some f → p f.req = false) :
    (s.withoutRequests p).tdl.inFlight = s.tdl.inFlight ∧ (s.withoutRequests p).tdl.orphan = s.tdl.orphan := by
  unfold State.withoutRequests
  cases hf : s.tdl.inFlight with
  | none => exact ⟨hf, rfl⟩
  | some f =>
      simp only [h f hf, Bool.false_eq_true, if_false]
      exact ⟨hf, rfl⟩

/-- It is dropped otherwise: a frame being sent goes on without an owner, and a window is not waited for (log entry 9). -/
theorem withoutRequests_drops {s : State} {p : Request → Bool} {f : InFlight} (hf : s.tdl.inFlight = some f)
    (hp : p f.req = true) : (s.withoutRequests p).tdl.inFlight = none
    ∧ (∀ e, f.stage = .sending e →
      (s.withoutRequests p).tdl.orphan = some e ∧ (s.withoutRequests p).tdl.gapEnds = s.tdl.gapEnds)
    ∧ (∀ a b e, f.stage = .window a b e →
      (s.withoutRequests p).tdl.orphan = s.tdl.orphan ∧ (s.withoutRequests p).tdl.gapEnds = s.now + ms 1) := by
  unfold State.withoutRequests State.dropInFlight
  simp only [hf, hp, if_true]
  refine ⟨?_, fun e h => ?_, fun a b e h => ?_⟩
  · split <;> rfl
  · rw [h]
    exact ⟨rfl, rfl⟩
  · rw [h]
    exact ⟨rfl, rfl⟩

theorem abandonWhere_line (s : State) (p : Request → Bool) :
    (s.abandonWhere p).tdl = (s.withoutRequests p).tdl ∧ (s.abandonWhere p).ntab = s.ntab := by
  obtain ⟨x, e⟩ := withoutRequests_eq s p
  rw [abandonWhere_eq]
  obtain ⟨tdl, ntab⟩ := foldl_abandoned_line (s.tdl.ofKind p) (s.withoutRequests p)
  exact ⟨tdl, ntab.trans (by rw [e])⟩

end Sys2Proof.Machine

namespace Sys2Proof.Machine

/-! ### What claims and retirements leave alone -/

/-- The engine, the nodes, the stored list's part, the port, the recatalogue, the sources, the channels and the running
generators are as they were. -/
structure ClaimsKeep (s t : State) : Prop where
  bue : t.bue = s.bue
  ntab : t.ntab = s.ntab
  ktl : t.ktl = s.ktl
  hcp : t.hcp = s.hcp
  recat : t.fdir.recat = s.fdir.recat
  inputs : t.drt.inputs = s.drt.inputs
  sources : t.drt.sources = s.drt.sources
  chans : t.frt.chans = s.frt.chans
  run : ∀ g, (t.gen g).run = (s.gen g).run

theorem ClaimsKeep.refl (s : State) : ClaimsKeep s s := ⟨rfl, rfl, rfl, rfl, rfl, rfl, rfl, rfl, fun _ => rfl⟩

theorem ClaimsKeep.trans {s t u : State} (h : ClaimsKeep s t) (k : ClaimsKeep t u) : ClaimsKeep s u :=
  ⟨k.bue.trans h.bue, k.ntab.trans h.ntab, k.ktl.trans h.ktl, k.hcp.trans h.hcp, k.recat.trans h.recat,
    k.inputs.trans h.inputs, k.sources.trans h.sources, k.chans.trans h.chans, fun g => (k.run g).trans (h.run g)⟩

theorem Moves.claimsKeep {s t : State} (m : Moves .claim s t) : ClaimsKeep s t := by
  obtain ⟨bue, ntab, ktl, hcp, recat, gens⟩ := m.claim
  have still := m.still (.inl rfl)
  exact ⟨bue, ntab, ktl, hcp, recat, congrArg Fixed.inputs m.fixed, congrArg Still.sources still, congrArg Still.chans still,
    fun g => (gens g).1⟩

theorem foldl_claimsKeep {α : Type} {f : State → α → State} (hf : ∀ u x, ClaimsKeep u (f u x)) :
    ∀ (l : List α) (s : State), ClaimsKeep s (l.foldl f s)
  | [], s => .refl s
  | x :: xs, s => (hf s x).trans (foldl_claimsKeep hf xs (f s x))

/-- Of the line nothing changes but the queue of the attempt and the classes. -/
theorem claimsKeep_tdl (s : State) (x : Tdl) : ClaimsKeep s { s with tdl := x } :=
  ⟨rfl, rfl, rfl, rfl, rfl, rfl, rfl, rfl, fun _ => rfl⟩

/-! ### Retirements (R84, R85) -/

theorem clearRecord_tdl (s : State) (h : Handle) (r : Record) : (s.clearRecord h r).tdl = s.tdl := by
  have ended : ∀ u : State, (u.endProofOf h).tdl = u.tdl := by
    intro u
    unfold State.endProofOf
    split
    · split <;> rfl
    · rfl
  have freed : ∀ u : State, (u.freeGuardOf r).tdl = u.tdl := by
    intro u
    unfold State.freeGuardOf
    split <;> rfl
  unfold State.clearRecord
  dsimp only
  rw [freed]
  show (State.endProofOf _ h).tdl = _
  rw [ended]
  show (State.removePend _ h).tdl = _
  split <;> rfl

/-- The clearing of a record touches no other slot. -/
theorem clearRecord_slot (s : State) (h : Handle) (r : Record) {k : Handle} (hk : h ≠ k) :
    (s.clearRecord h r).slot k = s.slot k := by
  have ended : ∀ u : State, (u.endProofOf h).slot k = u.slot k := by
    intro u
    unfold State.endProofOf
    split
    · split <;> rfl
    · rfl
  have freed : ∀ u : State, (u.freeGuardOf r).slot k = u.slot k := by
    intro u
    unfold State.freeGuardOf
    split <;> rfl
  unfold State.clearRecord
  dsimp only
  rw [freed]
  unfold State.removeConfirm State.modifySlot
  rw [slot_setSlot_ne _ _ hk, ended]
  split <;> rfl

theorem retireRecord_tdl (s : State) (h : Handle) (x : RetireReason) : (s.retireRecord h x).tdl = s.tdl := by
  unfold State.retireRecord
  split
  · exact clearRecord_tdl ..
  · rfl

theorem retireRecord_slot (s : State) (h : Handle) (x : RetireReason) {k : Handle} (hk : h ≠ k) :
    (s.retireRecord h x).slot k = s.slot k := by
  unfold State.retireRecord
  split
  · rw [setRecord_ne _ hk, clearRecord_slot _ _ _ hk]
  · rfl

/-- The record retired, with the cause's reason (R84). -/
theorem retireRecord_retired {s : State} {h : Handle} (x : RetireReason) (hl : (s.live h).isSome = true) :
    ∃ r, (s.retireRecord h x).record h = some r ∧ r.reason = some x ∧ r.state = .retired := by
  obtain ⟨r, hr⟩ := Option.isSome_iff_exists.mp hl
  unfold State.retireRecord
  rw [hr]
  exact ⟨_, setRecord_record .., rfl, rfl⟩

theorem retireRecord_keeps (s : State) (h : Handle) (x : RetireReason) : ClaimsKeep s (s.retireRecord h x) := by
  unfold State.retireRecord
  split
  · next r _ =>
      have m : Moves .claim s (s.clearRecord h r) := clearRecord_moves .nil h r
      exact m.claimsKeep.trans ⟨rfl, rfl, rfl, rfl, rfl, rfl, rfl, rfl, fun _ => rfl⟩
  · exact .refl s

theorem retireRecord_attention (s : State) (h : Handle) (x : RetireReason) :
    (s.retireRecord h x).fdir.attention = s.fdir.attention := by
  unfold State.retireRecord
  split
  · next r _ =>
      have m : Moves .claim s (s.clearRecord h r) := clearRecord_moves .nil h r
      exact congrArg Still.attention (m.still (.inl rfl))
  · rfl

theorem joinNow_keeps (s : State) (h : Handle) : ClaimsKeep s (s.joinNow h) := by
  unfold State.joinNow
  split
  · exact .refl s
  · exact ⟨rfl, rfl, rfl, rfl, rfl, rfl, rfl, rfl, fun _ => rfl⟩

theorem joinNow_tdl (s : State) (h : Handle) : (s.joinNow h).tdl = s.tdl := by
  unfold State.joinNow
  split <;> rfl

theorem joinNow_record (s : State) (h k : Handle) : (s.joinNow h).record k = s.record k := by
  unfold State.joinNow
  split <;> rfl

theorem mem_joinNow {s : State} {h k : Handle} :
    k ∈ (s.joinNow h).fdir.attention ↔ k ∈ s.fdir.attention ∨ k = h := by
  unfold State.joinNow
  split
  · next m =>
      refine ⟨.inl, fun q => q.elim id fun e => e ▸ m⟩
  · exact List.mem_append.trans (by simp)

/-- One handle of a pass that retires every live record. -/
def State.retireOne (x : RetireReason) (join : Bool) (s : State) (h : Handle) : State :=
  match s.live h with
  | some _ => if join then (s.retireRecord h x).joinNow h else s.retireRecord h x
  | none => s

theorem retireAll_eq (s : State) (x : RetireReason) (join : Bool) :
    s.retireAll x join = allHandles.foldl (State.retireOne x join) s := rfl

theorem retireOne_live {s : State} {h : Handle} (x : RetireReason) (join : Bool) (hl : (s.live h).isSome = true) :
    s.retireOne x join h = if join then (s.retireRecord h x).joinNow h else s.retireRecord h x := by
  obtain ⟨r, hr⟩ := Option.isSome_iff_exists.mp hl
  simp only [State.retireOne, hr]

theorem retireOne_other {s : State} {h : Handle} (x : RetireReason) (join : Bool) (hl : s.live h = none) :
    s.retireOne x join h = s := by
  simp only [State.retireOne, hl]

theorem retireOne_keeps (x : RetireReason) (join : Bool) (s : State) (h : Handle) :
    ClaimsKeep s (s.retireOne x join h) ∧ (s.retireOne x join h).tdl = s.tdl := by
  have retired := retireRecord_keeps s h x
  unfold State.retireOne
  split
  · split
    · exact ⟨retired.trans (joinNow_keeps _ h), (joinNow_tdl ..).trans (retireRecord_tdl ..)⟩
    · exact ⟨retired, retireRecord_tdl ..⟩
  · exact ⟨.refl s, rfl⟩

theorem retireAll_keeps (s : State) (x : RetireReason) (join : Bool) :
    ClaimsKeep s (s.retireAll x join) ∧ (s.retireAll x join).tdl = s.tdl :=
  ⟨foldl_claimsKeep (fun u h => (retireOne_keeps x join u h).1) _ s,
    foldl_same (p := State.tdl) (fun u h => (retireOne_keeps x join u h).2) _ s⟩

/-- Without joins the Attention Set stays as it is (R50). -/
theorem retireAll_attention (s : State) (x : RetireReason) : (s.retireAll x false).fdir.attention = s.fdir.attention := by
  have one : ∀ (u : State) (h : Handle), (u.retireOne x false h).fdir.attention = u.fdir.attention := by
    intro u h
    unfold State.retireOne
    split
    · exact retireRecord_attention u h x
    · rfl
  rw [retireAll_eq]
  exact foldl_same (p := fun u : State => u.fdir.attention) one allHandles s

/-- The record of a handle is retired for the reason `x`, and has joined where it is to join. -/
def State.retiredFor (x : RetireReason) (join : Bool) (s : State) (h : Handle) : Prop :=
  (∃ r, s.record h = some r ∧ r.reason = some x ∧ r.state = .retired) ∧ (join = true → h ∈ s.fdir.attention)

/-- One handle of the pass: its own record is retired, and what another's pass finds stays. -/
theorem retireOne_retired (x : RetireReason) (join : Bool) (s : State) (h k : Handle) :
    (h = k → (s.live k).isSome = true → (s.retireOne x join h).retiredFor x join k)
    ∧ (s.retiredFor x join k → (s.retireOne x join h).retiredFor x join k)
    ∧ (h ≠ k → (s.live k).isSome = true → ((s.retireOne x join h).live k).isSome = true) := by
  have record : h ≠ k → (s.retireOne x join h).record k = s.record k := by
    intro hk
    have retired : (s.retireRecord h x).record k = s.record k := congrArg Slot.record (retireRecord_slot s h x hk)
    unfold State.retireOne
    split
    · split
      · rw [joinNow_record, retired]
      · exact retired
    · rfl
  refine ⟨?own, ?kept, fun hk hl => by rw [live_of_record (record hk)]; exact hl⟩
  case own =>
    rintro rfl hl
    rw [retireOne_live x join hl]
    obtain ⟨r, hr⟩ := retireRecord_retired x hl
    cases join with
    | true => exact ⟨⟨r, (joinNow_record ..).trans hr.1, hr.2⟩, fun _ => mem_joinNow.mpr (.inr rfl)⟩
    | false => exact ⟨⟨r, hr⟩, fun q => by cases q⟩
  case kept =>
    rintro ⟨⟨r, hr, hx, hs⟩, hj⟩
    by_cases hk : h = k
    · subst hk
      have dead : s.live h = none := by
        unfold State.live
        rw [hr]
        simp [hs]
      rw [retireOne_other x join dead]
      exact ⟨⟨r, hr, hx, hs⟩, hj⟩
    · refine ⟨⟨r, (record hk).trans hr, hx, hs⟩, fun q => ?_⟩
      have hj := hj q
      unfold State.retireOne
      split
      · split
        · exact mem_joinNow.mpr (.inl (by rw [retireRecord_attention]; exact hj))
        · next m => exact absurd q m
      · exact hj

/-- Every record that was live is retired with the reason, and has joined where it is to (R49, R50, R66, R85). -/
theorem retireAll_retired {s : State} (x : RetireReason) (join : Bool) {k : Handle} (hl : (s.live k).isSome = true) :
    (s.retireAll x join).retiredFor x join k := by
  have pass : ∀ (l : List Handle) (u : State), (k ∈ l ∧ (u.live k).isSome = true ∨ u.retiredFor x join k) →
      (l.foldl (State.retireOne x join) u).retiredFor x join k := by
    intro l
    induction l with
    | nil => exact fun u h => h.resolve_left fun q => by cases q.1
    | cons h l ih =>
        intro u hu
        obtain ⟨own, kept, others⟩ := retireOne_retired x join u h k
        refine ih _ ?_
        rcases hu with ⟨m, live⟩ | done
        · by_cases e : h = k
          · exact .inr (own e live)
          · exact .inl ⟨(List.mem_cons.mp m).resolve_left (Ne.symm e), others e live⟩
        · exact .inr (kept done)
  exact pass allHandles s (.inl ⟨mem_allHandles k, hl⟩)

/-- What follows a retirement keeps the record retired, with its reason. -/
theorem Moves.retiredRecord {v : Reach} {s t : State} (m : Moves v s t) {k : Handle} {r : Record}
    (hr : s.record k = some r) (hs : r.state = .retired) : t.record k = some r := by
  have standing : (s.slot k).standing = some true := by
    have : (s.slot k).record = some r := hr
    simp [Slot.standing, this, hs]
  exact (m.retired k standing).2.trans hr

theorem finish_retiredRecord {s : State} {k : Handle} {r : Record} (host : Bool) (hr : s.record k = some r)
    (hs : r.state = .retired) : (s.finish host).record k = some r := by
  obtain ⟨t, m, q, -⟩ := finish_moves s host
  rw [q]
  exact m.retiredRecord hr hs

/-- No handle leaves the Attention Set at the end of an event (R89). -/
theorem finish_attention {s : State} {k : Handle} (host : Bool) (h : k ∈ s.fdir.attention) :
    k ∈ (s.finish host).fdir.attention := by
  have m : Moves (.more .walk) s s.bueCheck.settleClaims := settleClaims_moves (bueCheck_moves .nil)
  unfold State.finish State.settleEvent
  generalize s.bueCheck.settleClaims = u at m
  have kept : k ∈ u.arbitrate.fdir.attention := by
    rw [(arbitrate_kept u).attention, show u.fdir.attention = s.fdir.attention from congrArg Still.attention (m.still (.inr rfl))]
    exact h
  generalize u.arbitrate = v at kept
  cases host
  · exact List.mem_append_left _ kept
  · exact kept

end Sys2Proof.Machine

namespace Sys2Proof.Machine

/-! ### The end of an event where the other blocks are empty -/

/-- The Proving Unit, the Demand Router and the guards as they were, and of every slot the record and the confirm entry. -/
structure Beside (s t : State) : Prop where
  prv : t.prv = s.prv
  drt : t.drt = s.drt
  guards : t.frt.guards = s.frt.guards
  slots : ∀ h, (t.slot h).record = (s.slot h).record ∧ (t.slot h).confirm = (s.slot h).confirm

theorem Beside.refl (s : State) : Beside s s := ⟨rfl, rfl, rfl, fun _ => ⟨rfl, rfl⟩⟩

theorem Beside.trans {s t u : State} (h : Beside s t) (k : Beside t u) : Beside s u :=
  ⟨k.prv.trans h.prv, k.drt.trans h.drt, k.guards.trans h.guards,
    fun g => ⟨(k.slots g).1.trans (h.slots g).1, (k.slots g).2.trans (h.slots g).2⟩⟩

theorem foldl_beside {α : Type} {f : State → α → State} (hf : ∀ u x, Beside u (f u x)) :
    ∀ (l : List α) (s : State), Beside s (l.foldl f s)
  | [], s => .refl s
  | x :: xs, s => (hf s x).trans (foldl_beside hf xs (f s x))

theorem tdl_beside (s : State) (x : Tdl) : Beside s { s with tdl := x } := ⟨rfl, rfl, rfl, fun _ => ⟨rfl, rfl⟩⟩

theorem agenda_beside (s : State) (a : Agenda) : Beside s { s with agenda := a } := ⟨rfl, rfl, rfl, fun _ => ⟨rfl, rfl⟩⟩

theorem slot_modifySlot (s : State) (h : Handle) (f : Slot → Slot) : (s.modifySlot h f).slot h = f (s.slot h) := by
  unfold State.modifySlot
  exact slot_setSlot ..

theorem slot_modifySlot_ne (s : State) {h k : Handle} (f : Slot → Slot) (hk : h ≠ k) :
    (s.modifySlot h f).slot k = s.slot k := by
  unfold State.modifySlot
  exact slot_setSlot_ne _ _ hk

theorem modifySlot_beside (s : State) (h : Handle) {f : Slot → Slot}
    (hf : ∀ x, (f x).record = x.record ∧ (f x).confirm = x.confirm) : Beside s (s.modifySlot h f) := by
  refine ⟨rfl, rfl, rfl, fun k => ?_⟩
  by_cases e : h = k
  · rw [← e, slot_modifySlot]
    exact hf _
  · rw [slot_modifySlot_ne _ _ e]
    exact ⟨rfl, rfl⟩

/-- A claim in the routine class changes that class only. -/
theorem claimRoutine_tdl (s : State) (r : Request) : ∃ x, (s.claimRoutine r).1 = { s with tdl := x } := by
  unfold State.claimRoutine
  split
  · exact ⟨s.tdl, rfl⟩
  · split
    · exact ⟨_, rfl⟩
    · exact ⟨s.tdl, rfl⟩

/-- A Phase Mark's claim changes the urgent class only. -/
theorem claimMark_tdl (s : State) (m : BitVec 4) (on : Bool) : ∃ x, (s.claimMark m on).1 = { s with tdl := x } := by
  unfold State.claimMark
  split
  · exact ⟨s.tdl, rfl⟩
  · split
    · exact ⟨_, rfl⟩
    · exact ⟨s.tdl, rfl⟩

/-- A Drive's claim changes the two classes only. -/
theorem claimDrive_tdl (s : State) (d : DriveReq) (u : Bool) : ∃ x, (s.claimDrive d u).1 = { s with tdl := x } := by
  unfold State.claimDrive
  repeat' split
  all_goals exact ⟨_, rfl⟩

theorem claimMark_beside (s : State) (m : BitVec 4) (on : Bool) : Beside s (s.claimMark m on).1 := by
  obtain ⟨x, e⟩ := claimMark_tdl s m on
  rw [e]
  exact tdl_beside s x

theorem claimGenMark_beside (s : State) (g : Generator) : Beside s (s.claimGenMark g) := by
  unfold State.claimGenMark
  split
  · exact (claimMark_beside s _ _).trans ⟨rfl, rfl, rfl, fun _ => ⟨rfl, rfl⟩⟩
  · exact .refl s

theorem claimFollowMark_beside (s : State) (x : TurnSide) : Beside s (s.claimFollowMark x) := by
  unfold State.claimFollowMark
  split
  · exact (claimMark_beside s _ _).trans ⟨rfl, rfl, rfl, fun _ => ⟨rfl, rfl⟩⟩
  · exact .refl s

theorem claimDueMarks_beside (s : State) : Beside s s.claimDueMarks := by
  unfold State.claimDueMarks
  exact (agenda_beside s _).trans ((foldl_beside claimGenMark_beside _ _).trans (foldl_beside claimFollowMark_beside _ _))

theorem claimSampleTo_beside (s : State) (h : Handle) (a : Addr) (i : FnIndex) (gen : Byte) :
    Beside s (s.claimSampleTo h a i gen).1 := by
  obtain ⟨x, e⟩ := claimRoutine_tdl s (.sample .confirm a i h gen)
  have mark : ∀ (u : State) (m : SampleMark), Beside u (u.setMark h m) := fun u m =>
    modifySlot_beside u h fun _ => ⟨rfl, rfl⟩
  unfold State.claimSampleTo
  generalize hq : s.claimRoutine (.sample .confirm a i h gen) = q at e
  obtain ⟨t, ans⟩ := q
  have claimed : Beside s t := by
    rw [show t = _ from e]
    exact tdl_beside s x
  cases ans with
  | taken => exact (claimed.trans (mark t .queued)).trans ⟨rfl, rfl, rfl, fun _ => ⟨rfl, rfl⟩⟩
  | merged | inFlight | full | down => exact mark s _

/-- Nothing is proved, driven, guarded or confirmed: the other blocks are empty. -/
structure State.BlocksEmpty (s : State) : Prop where
  prv : s.prv = { list := [], proof := none }
  pend : s.drt.pend = []
  lists : ∀ x : Src, s.list x = []
  guards : ∀ g : Fin 6, s.guard g = Guard.reset
  slots : ∀ h : Handle, s.live h = none ∧ (s.slot h).confirm = none

theorem Beside.empty {s t : State} (b : Beside s t) (e : s.BlocksEmpty) : t.BlocksEmpty := by
  refine ⟨b.prv.trans e.prv, ?_, fun x => ?_, fun g => ?_, fun h => ⟨?_, (b.slots h).2.trans (e.slots h).2⟩⟩
  · rw [b.drt]
    exact e.pend
  · unfold State.list
    rw [b.drt]
    exact e.lists x
  · unfold State.guard
    rw [b.guards]
    exact e.guards g
  · rw [live_of_record (b.slots h).1]
    exact (e.slots h).1

theorem drainIfDue_empty {s : State} (h : s.drt.pend = []) : Beside s s.drainIfDue := by
  unfold State.drainIfDue
  split
  · unfold State.drain
    rw [show (({ s with agenda := { s.agenda with drain := false } } : State)).drt.pend = [] from h]
    exact agenda_beside s _
  · exact .refl s

/-- No record is due. -/
theorem dueRecords_none {s : State} (h : ∀ k, (s.slot k).confirm = none) : s.dueRecords = [] := by
  have due : ∀ k, s.dueAt k = none := by
    intro k
    unfold State.dueAt
    simp only [h k]
  unfold State.dueRecords
  simp only [due]
  rw [List.map_eq_nil_iff]
  exact List.foldl_fixed allHandles

theorem passUnplaced_beside (acc : State × Bool) (h : Handle) : Beside acc.1 (State.passUnplaced acc h).1 := by
  unfold State.passUnplaced
  split
  · unfold State.claimSampleAgain
    split
    · exact claimSampleTo_beside ..
    · exact .refl _
  · exact .refl _

theorem pass_empty {s : State} (e : s.BlocksEmpty) : Beside s s.pass := by
  have unplaced : ∀ (l : List Handle) (acc : State × Bool), Beside acc.1 (l.foldl State.passUnplaced acc).1 := by
    intro l
    induction l with
    | nil => exact fun acc => .refl _
    | cons h l ih => exact fun acc => (passUnplaced_beside acc h).trans (ih _)
  unfold State.pass
  dsimp only
  generalize (allHandles.filter fun h => (s.slot h).sampleMark.isUnplaced) = l
  have b := unplaced l (s, true)
  generalize l.foldl State.passUnplaced (s, true) = acc at b
  rw [dueRecords_none fun k => ((b.empty e).slots k).2]
  exact b

theorem passIfDue_empty {s : State} (e : s.BlocksEmpty) : Beside s s.passIfDue := by
  unfold State.passIfDue
  split
  · exact (agenda_beside s _).trans (pass_empty ((agenda_beside s _).empty e))
  · exact .refl s

theorem phaseWaitCheck_empty {s : State} (e : s.BlocksEmpty) : s.phaseWaitCheck = s := by
  have one : ∀ l : List Handle, l.foldl (fun (u : State) h =>
      match (u.slot h).confirm with
      | some c =>
          if c.phaseWait && !(match u.live h with
            | some r => u.lampPhased r
            | none => false)
          then (u.modifyConfirm h fun c => { c with phaseWait := false }).callPass
          else u
      | none => u) s = s := by
    intro l
    induction l with
    | nil => rfl
    | cons h l ih =>
        rw [List.foldl_cons, (e.slots h).2]
        exact ih
  exact one allHandles

/-- What an event brings about changes nothing of the empty blocks (R76, R99, R127, R162). -/
theorem settleClaims_empty {s : State} (e : s.BlocksEmpty) : Beside s s.settleClaims := by
  have source : s.proofSourceCheck = s := by unfold State.proofSourceCheck; simp only [e.prv]
  have waits : s.proofWaits = s := by unfold State.proofWaits; simp only [e.prv]
  have begins : s.beginProof = s := by unfold State.beginProof; simp only [e.prv]
  unfold State.settleClaims
  rw [source, waits, begins]
  have drained := drainIfDue_empty e.pend
  have marked := drained.trans (claimDueMarks_beside s.drainIfDue)
  rw [phaseWaitCheck_empty (marked.empty e)]
  have passed := marked.trans (passIfDue_empty (marked.empty e))
  exact passed.trans (drainIfDue_empty (passed.empty e).pend)

/-- A grant's first attempt changes the line only. -/
theorem grant_tdl (s : State) (r : Request) (u : Bool) : ∃ x, s.grant r u = { s with tdl := x } := by
  unfold State.grant State.startIfIdle
  dsimp only
  split
  · rw [startAttempt_first _ rfl]
    exact ⟨_, rfl⟩
  · exact ⟨_, rfl⟩

/-- The arbiter changes the line only: the attempt it grants is a first one (R18). -/
theorem arbitrate_tdl (s : State) : ∃ x, s.arbitrate = { s with tdl := x } := by
  have granted : ∀ (y : Tdl) (r : Request) (u : Bool), ∃ x, State.grant { s with tdl := y } r u = { s with tdl := x } := by
    intro y r u
    obtain ⟨x, e⟩ := grant_tdl { s with tdl := y } r u
    exact ⟨x, e⟩
  unfold State.arbitrate
  split
  · split
    · exact ⟨s.tdl, rfl⟩
    · exact granted ..
    · exact granted ..
    · split <;> exact granted ..
  · exact ⟨s.tdl, rfl⟩

/-- The end of an event leaves the empty blocks empty, where the engine has nothing to do. -/
theorem finish_empty {s : State} (host : Bool) (q : s.engineQuiet) (e : s.BlocksEmpty) : (s.finish host).BlocksEmpty := by
  obtain ⟨x, ha⟩ := arbitrate_tdl s.settleClaims
  have settled : s.settleEvent.BlocksEmpty := by
    unfold State.settleEvent
    rw [bueCheck_quiet q, ha]
    exact (tdl_beside _ x).empty ((settleClaims_empty e).empty e)
  unfold State.finish
  generalize s.settleEvent = u at settled
  cases host
  · exact Beside.empty (s := u) ⟨rfl, rfl, rfl, fun _ => ⟨rfl, rfl⟩⟩ settled
  · exact Beside.empty (s := u) ⟨rfl, rfl, rfl, fun _ => ⟨rfl, rfl⟩⟩ settled

end Sys2Proof.Machine

namespace Sys2Proof.Machine

/-! ### Requests abandoned while the engine idles (R20, R31) -/

/-- No request of the engine's own stands, and no recatalogue is in progress. -/
def State.asksNothing (s : State) : Prop := s.bue.request = .none ∧ s.fdir.recat = none

theorem bueRequestGone_none {s : State} (h : s.bue.request = .none) : s.bueRequestGone = s := by
  show { s with bue := { s.bue with request := .none } } = s
  rw [← h]

theorem endRecat_none {s : State} (h : s.fdir.recat = none) : s.endRecat = s := by
  unfold State.endRecat
  rw [h]

/-- The owners of what is abandoned then change claims, marks and the proof slot only. -/
theorem abandoned_keeps {s : State} (h : s.asksNothing) (r : Request) : ClaimsKeep s (s.abandoned r) := by
  obtain ⟨request, recat⟩ := h
  obtain ⟨p, proof⟩ := proofOutcome_abandoned s
  unfold State.abandoned
  simp only [bueRequestGone_none request, endRecat_none recat, proof, confirmOutcome_abandoned]
  split
  all_goals exact ⟨rfl, rfl, rfl, rfl, rfl, rfl, rfl, rfl, fun _ => rfl⟩

theorem foldl_abandoned_keeps (l : List Request) {s : State} (h : s.asksNothing) :
    ClaimsKeep s (l.foldl State.abandoned s) := by
  induction l generalizing s with
  | nil => exact .refl s
  | cons r l ih =>
      have one := abandoned_keeps h r
      exact one.trans (ih ⟨by rw [one.bue]; exact h.1, one.recat.trans h.2⟩)

theorem abandonWhere_keeps {s : State} (h : s.asksNothing) (p : Request → Bool) : ClaimsKeep s (s.abandonWhere p) := by
  obtain ⟨x, e⟩ := withoutRequests_eq s p
  rw [abandonWhere_eq, e]
  exact (claimsKeep_tdl s x).trans (foldl_abandoned_keeps _ h)

/-- Whether a record lives, and what stands in the Attention Set, is no matter of what is abandoned. -/
theorem abandonWhere_records (s : State) (p : Request → Bool) :
    (∀ k, ((s.abandonWhere p).live k).isSome = (s.live k).isSome)
    ∧ (s.abandonWhere p).fdir.attention = s.fdir.attention := by
  obtain ⟨x, e⟩ := withoutRequests_eq s p
  rw [abandonWhere_eq, e]
  have m : Moves (.more .walk) { s with tdl := x } ((s.tdl.ofKind p).foldl State.abandoned { s with tdl := x }) :=
    foldl_moves (fun _ r k => abandoned_moves k r) _ _ .nil
  refine ⟨fun k => ?_, congrArg Still.attention (m.still (.inr rfl))⟩
  rw [standing_live, standing_live, m.standing (.inr rfl) k]
  rfl

/-! ### The engine idle and the line down (R31, R49, R66) -/

theorem engineIdle_asksNothing (s : State) : s.engineIdle.asksNothing := ⟨rfl, rfl⟩

/-- What the engine's part leaves alone. -/
theorem engineIdle_live (s : State) (k : Handle) : s.engineIdle.live k = s.live k := rfl

theorem lineDown_tdl (s : State) : s.lineDown.tdl = { (s.abandonWhere fun _ => true).tdl with
    line := .down, urgent := [], routine := [], inFlight := none, orphan := none, urgentRun := 0, stray := false,
    yieldDue := false, yieldEnds := none, reclaim := .idle, faultEnds := none } := rfl

theorem lineDown_keeps {s : State} (h : s.asksNothing) : ClaimsKeep s s.lineDown :=
  (abandonWhere_keeps h fun _ => true).trans (claimsKeep_tdl _ _)

theorem lineDown_live (s : State) (k : Handle) : (s.lineDown.live k).isSome = (s.live k).isSome :=
  (abandonWhere_records s fun _ => true).1 k

/-! ### Entries freed (R87) -/

theorem dropUnplacedTo_tdl (s : State) (p : Addr → Bool) : (s.dropUnplacedTo p).tdl = s.tdl := by
  have drives : ∀ u : State, (u.dropRetireDrivesTo p).tdl = u.tdl := by
    intro u
    refine foldl_same (p := State.tdl) (fun v h => ?_) allHandles u
    split
    · split <;> rfl
    · split <;> rfl
    · rfl
  have samples : ∀ u : State, (u.dropSamplesTo p).tdl = u.tdl := by
    intro u
    refine foldl_same (p := State.tdl) (fun v h => ?_) allHandles u
    split
    · split <;> rfl
    · rfl
  exact (samples _).trans (drives s)

theorem dropSamplesTo_beside (s : State) (p : Addr → Bool) : Beside s (s.dropSamplesTo p) := by
  refine foldl_beside (fun u h => ?_) allHandles s
  split
  · split
    · exact modifySlot_beside u h fun _ => ⟨rfl, rfl⟩
    · exact .refl u
  · exact .refl u

theorem dropUnplacedTo_beside (s : State) (p : Addr → Bool) : Beside s (s.dropUnplacedTo p) := by
  have drives : Beside s (s.dropRetireDrivesTo p) := by
    refine foldl_beside (fun u h => ?_) allHandles s
    split
    · split
      · exact modifySlot_beside u h fun _ => ⟨rfl, rfl⟩
      · exact .refl u
    · split
      · exact modifySlot_beside u h fun _ => ⟨rfl, rfl⟩
      · exact .refl u
    · exact .refl u
  exact drives.trans (dropSamplesTo_beside _ p)

theorem dropUnplacedTo_keeps (s : State) (p : Addr → Bool) : ClaimsKeep s (s.dropUnplacedTo p) :=
  (dropUnplacedTo_moves (e := .claim) .nil p).claimsKeep

theorem dropUnplacedTo_attention (s : State) (p : Addr → Bool) :
    (s.dropUnplacedTo p).fdir.attention = s.fdir.attention := by
  have m : Moves .claim s (s.dropUnplacedTo p) := dropUnplacedTo_moves .nil p
  generalize s.dropUnplacedTo p = t at m
  exact congrArg Still.attention (m.still (.inl rfl))

/-! ### The blocks emptied (R49, R50, R66, R134) -/

theorem emptyBlocks_tdl (s : State) : s.emptyBlocks.tdl = s.tdl := by
  unfold State.emptyBlocks
  obtain ⟨a, ha⟩ : ∃ a, allHandles.foldl State.removeConfirm s = a := ⟨_, rfl⟩
  obtain ⟨b, hb⟩ : ∃ b, (List.finRange 6).foldl (fun u g => u.setGuard g Guard.reset) a = b := ⟨_, rfl⟩
  obtain ⟨c, hc⟩ : ∃ c, (List.finRange 18).foldl (fun u x => u.setList x []) b = c := ⟨_, rfl⟩
  have confirms := foldl_same (f := State.removeConfirm) (p := State.tdl) (fun _ _ => rfl) allHandles s
  have guards := foldl_same (f := fun u g => u.setGuard g Guard.reset) (p := State.tdl) (fun _ _ => rfl) (List.finRange 6) a
  have lists := foldl_same (f := fun u x => u.setList x []) (p := State.tdl) (fun _ _ => rfl) (List.finRange 18) b
  rw [ha] at confirms
  rw [hb] at guards
  rw [hc] at lists
  dsimp only
  rw [ha, hb, hc]
  exact lists.trans (guards.trans confirms)

theorem emptyBlocks_keeps (s : State) : ClaimsKeep s s.emptyBlocks :=
  (emptyBlocks_moves (v := .claim) .nil).claimsKeep

theorem emptyBlocks_attention (s : State) : s.emptyBlocks.fdir.attention = s.fdir.attention := by
  have m : Moves .claim s s.emptyBlocks := emptyBlocks_moves .nil
  generalize s.emptyBlocks = t at m
  exact congrArg Still.attention (m.still (.inl rfl))

theorem emptyBlocks_record (s : State) (k : Handle) : s.emptyBlocks.record k = s.record k := by
  obtain ⟨-, -, -, -, slots⟩ := emptyBlocks_cleared s
  unfold State.record
  rw [slots]

/-- The other blocks are empty, where no record lives. -/
theorem emptyBlocks_empty {s : State} (h : ∀ k, s.live k = none) : s.emptyBlocks.BlocksEmpty := by
  obtain ⟨prv, pend, lists, guards, slots⟩ := emptyBlocks_cleared s
  refine ⟨prv, pend, lists, guards, fun k => ⟨?_, by rw [slots]⟩⟩
  rw [live_of_record (emptyBlocks_record s k)]
  exact h k

/-- Every record retired and the blocks emptied (R49, R50, R66). -/
theorem retiredEmpty_empty (s : State) (x : RetireReason) (join : Bool) : (s.retireAll x join).emptyBlocks.BlocksEmpty :=
  emptyBlocks_empty fun k => retireAll_live s x join k

/-! ### What a state that is cleared keeps to the event's end -/

/-- The engine's own part of what a teardown and a link restart clear (R31). -/
def Bue.Cleared (b : Bue) : Prop :=
  b.state = .idle ∧ b.units = [] ∧ b.chainEnd = .none ∧ b.halt = .none ∧ b.tries = 0 ∧ b.lastProbe = none ∧ b.held = []
  ∧ b.frontier = .stopped ∧ b.settledOnce = false ∧ b.request = .none

theorem Bue.reset_cleared : Bue.reset.Cleared := ⟨rfl, rfl, rfl, rfl, rfl, rfl, rfl, rfl, rfl, rfl⟩

theorem trailerCleared_iff {s t : State} : s.trailerCleared t ↔
    t.BlocksEmpty ∧ t.bue.Cleared ∧ t.fdir.recat = none ∧ t.ktl.waiting = none
    ∧ t.drt.inputs = s.drt.inputs ∧ t.drt.sources = s.drt.sources ∧ t.frt.chans = s.frt.chans
    ∧ ∀ g : Generator, (t.gen g).run = (s.gen g).run := by
  constructor
  · rintro ⟨list, proof, pend, lists, guards, slots, recat, waiting, b1, b2, b3, b4, b5, b6, b7, b8, b9, b10, kept⟩
    have prv : t.prv = { list := [], proof := none } := by rw [← list, ← proof]
    exact ⟨⟨prv, pend, lists, guards, slots⟩, ⟨b1, b2, b3, b4, b5, b6, b7, b8, b9, b10⟩, recat, waiting, kept⟩
  · rintro ⟨⟨prv, pend, lists, guards, slots⟩, ⟨b1, b2, b3, b4, b5, b6, b7, b8, b9, b10⟩, recat, waiting, kept⟩
    exact ⟨by rw [prv], by rw [prv], pend, lists, guards, slots, recat, waiting, b1, b2, b3, b4, b5, b6, b7, b8, b9, b10, kept⟩

/-- A running generator goes on at the end of an event, where the engine has nothing to do. -/
theorem finish_run {s : State} (host : Bool) (q : s.engineQuiet) (g : Generator) :
    ((s.finish host).gen g).run = (s.gen g).run := by
  have m : Moves .claim s s.settleClaims := settleClaims_moves .nil
  obtain ⟨x, ha⟩ := arbitrate_tdl s.settleClaims
  unfold State.finish State.settleEvent
  rw [bueCheck_quiet q, ha]
  have run := m.claimsKeep.run g
  generalize s.settleClaims = u at run
  cases host
  · exact run
  · exact run

theorem finish_trailerCleared {s t : State} (host : Bool) (q : t.engineQuiet) (h : s.trailerCleared t) :
    s.trailerCleared (t.finish host) := by
  obtain ⟨empty, bue, recat, waiting, inputs, sources, chans, run⟩ := trailerCleared_iff.mp h
  obtain ⟨hbue, -, hktl, -, hrecat⟩ := finish_quiet t host q
  obtain ⟨hsources, hchans, -⟩ := finish_sources t host
  refine trailerCleared_iff.mpr ⟨finish_empty host q empty, by rw [hbue]; exact bue, hrecat.trans recat,
    by rw [hktl]; exact waiting, ?_, hsources.trans sources, hchans.trans chans, fun g => (finish_run host q g).trans (run g)⟩
  exact (congrArg Fixed.inputs (finish_fixed t host)).trans inputs

/-! ### Teardowns (R49, R50, R66) -/

/-- The part of a teardown that follows the retirements: the blocks are emptied and the entries freed. -/
def State.emptied (s : State) : State := (s.emptyBlocks.setNtab Ntab.reset).dropUnplacedTo fun _ => true

theorem emptied_tdl (s : State) : s.emptied.tdl = s.tdl := by
  have h := emptyBlocks_tdl s
  unfold State.emptied
  generalize s.emptyBlocks = t at h
  rw [dropUnplacedTo_tdl]
  exact h

theorem emptied_keeps (s : State) : ClaimsKeep { s with ntab := Ntab.reset } s.emptied := by
  have k := emptyBlocks_keeps s
  unfold State.emptied
  generalize s.emptyBlocks = t at k
  have freed : ClaimsKeep { s with ntab := Ntab.reset } (t.setNtab Ntab.reset) :=
    ⟨k.bue, rfl, k.ktl, k.hcp, k.recat, k.inputs, k.sources, k.chans, k.run⟩
  exact freed.trans (dropUnplacedTo_keeps _ _)

theorem emptied_empty {s : State} (h : ∀ k, s.live k = none) : s.emptied.BlocksEmpty := by
  have e := emptyBlocks_empty h
  unfold State.emptied
  generalize s.emptyBlocks = t at e
  exact (dropUnplacedTo_beside _ _).empty (Beside.empty (s := t) ⟨rfl, rfl, rfl, fun _ => ⟨rfl, rfl⟩⟩ e)

theorem emptied_retired {s : State} {x : RetireReason} {join : Bool} {k : Handle} (h : s.retiredFor x join k) :
    s.emptied.retiredFor x join k := by
  obtain ⟨⟨r, hr, reason⟩, joined⟩ := h
  have record := emptyBlocks_record s k
  have attention := emptyBlocks_attention s
  unfold State.emptied
  generalize s.emptyBlocks = t at record attention
  refine ⟨⟨r, ((dropUnplacedTo_beside _ _).slots k).1.trans (record.trans hr), reason⟩, fun q => ?_⟩
  rw [dropUnplacedTo_attention]
  show k ∈ t.fdir.attention
  rw [attention]
  exact joined q

/-- What a teardown comes to before the monitor's part: the line is DOWN, the engine idle, and the records retired. -/
structure State.TearsDown (s : State) (x : RetireReason) (t : State) : Prop where
  line : t.tdl.line = .down ∧ t.tdl.urgent = [] ∧ t.tdl.routine = [] ∧ t.tdl.inFlight = none
  bue : t.bue = Bue.reset
  ntab : t.ntab = Ntab.reset
  hcp : t.hcp = s.hcp
  cleared : s.trailerCleared t
  retired : ∀ k, (s.live k).isSome = true → t.retiredFor x true k

theorem teardown_tearsDown (s : State) (x : RetireReason) : s.TearsDown x (s.teardown x) := by
  have down := lineDown_tdl s.engineIdle
  have idle := lineDown_keeps (engineIdle_asksNothing s)
  have live := fun k => (lineDown_live s.engineIdle k).trans (congrArg Option.isSome (engineIdle_live s k))
  have eq : s.teardown x = (s.engineIdle.lineDown.retireAll x true).emptied := rfl
  rw [eq]
  generalize s.engineIdle.lineDown = a at down idle live
  obtain ⟨retires, tdl⟩ := retireAll_keeps a x true
  have none := retireAll_live a x true
  have retired := fun k (hl : (a.live k).isSome = true) => retireAll_retired x true hl
  generalize a.retireAll x true = b at retires tdl none retired
  have k : ClaimsKeep { s.engineIdle with ntab := Ntab.reset } b.emptied :=
    ClaimsKeep.trans (t := { b with ntab := Ntab.reset }) ⟨retires.bue.trans idle.bue, rfl, retires.ktl.trans idle.ktl, retires.hcp.trans idle.hcp,
      retires.recat.trans idle.recat, retires.inputs.trans idle.inputs, retires.sources.trans idle.sources,
      retires.chans.trans idle.chans, fun g => (retires.run g).trans (idle.run g)⟩ (emptied_keeps b)
  refine ⟨?_, k.bue, k.ntab, k.hcp, trailerCleared_iff.mpr ⟨emptied_empty none, by rw [k.bue]; exact Bue.reset_cleared,
    k.recat, by rw [k.ktl]; rfl, k.inputs, k.sources, k.chans, k.run⟩, fun h hl => ?_⟩
  · rw [emptied_tdl, tdl, down]
    exact ⟨rfl, rfl, rfl, rfl⟩
  · exact emptied_retired (retired h ((live h).trans hl))

/-- What the Coupling Monitor and the port add to a teardown, and the event's end, leave it a teardown. -/
theorem finish_tornDown {s t u : State} {x : RetireReason} (d : s.TearsDown x t) {c : Cmon} {p : Hcp}
    (hu : u = { t with cmon := c, hcp := p }) : s.tornDown (u.finish false) x := by
  obtain ⟨⟨line, urgent, routine, inFlight⟩, bue, ntab, -, cleared, retired⟩ := d
  have quiet : u.engineQuiet := by
    unfold State.engineQuiet
    rw [hu]
    exact ⟨congrArg Bue.dropping bue, congrArg Bue.deferred bue⟩
  have tdl : (u.finish false).tdl = t.tdl := by
    rw [finish_down u false (by rw [hu]; exact line), hu]
  have nodes : (u.finish false).ntab = Ntab.reset := by
    rw [(finish_quiet u false quiet).2.1, hu]
    exact ntab
  refine ⟨by rw [tdl]; exact line, by rw [tdl]; exact urgent, by rw [tdl]; exact routine, by rw [tdl]; exact inFlight,
    by rw [nodes]; rfl, by rw [nodes]; rfl, finish_trailerCleared false quiet (by rw [hu]; exact cleared), fun h hl => ?_⟩
  obtain ⟨⟨r, hr, hx, hs⟩, joined⟩ := retired h hl
  have record : u.record h = some r := by rw [hu]; exact hr
  exact ⟨finish_attention false (by rw [hu]; exact joined rfl), r, finish_retiredRecord false record hs, hx⟩

end Sys2Proof.Machine

namespace Sys2Proof.Machine

/-! ### The monitor's part in a teardown (R27, R29, R30) -/

theorem enterUncoupled_eq (s : State) : s.enterUncoupled = { s with cmon := s.enterUncoupled.cmon } := by
  unfold State.enterUncoupled State.monitorCheck
  split <;> rfl

theorem monitorLineLoss_eq (s : State) : s.monitorLineLoss = { s with cmon := s.monitorLineLoss.cmon } := by
  unfold State.monitorLineLoss
  split
  · exact enterUncoupled_eq s
  · rfl
  · rfl

theorem teardown_fixed (s : State) (x : RetireReason) : (s.teardown x).fixed = s.fixed :=
  (teardown_moves (ad := false) .nil x).fixed

/-- A parting teardown (R29, R49). -/
theorem partingTeardown_eq (s : State) : s.partingTeardown = { s.teardown .uncoupled with
    cmon := (s.teardown .uncoupled).enterUncoupled.cmon, hcp := ((s.teardown .uncoupled).raise .parted).hcp } := by
  unfold State.partingTeardown
  generalize s.teardown .uncoupled = t
  rw [enterUncoupled_eq t]
  rfl

/-- A line loss teardown (R30, R66). -/
theorem lineLossTeardown_eq (s : State) : s.lineLossTeardown = { s.teardown .line with
    cmon := (s.teardown .line).monitorLineLoss.cmon, hcp := (s.teardown .line).hcp } := by
  unfold State.lineLossTeardown
  rw [monitorLineLoss_eq]

/-- Of what the blocks leave alone, the end of such an event changes the monitor only. -/
theorem finish_cmonOnly {s t u : State} {m : Nat} (ht : t.fixed = { s.fixed with now := m }) {c : Cmon} {p : Hcp} (hu : u = { t with cmon := c, hcp := p })
    (hp : ({ t with hcp := p } : State).fixed = t.fixed) (host : Bool) :
    (u.finish host).fixed = { s.fixed with now := m, cmon := (u.finish host).cmon } := by
  have cmon : (u.finish host).cmon = c := by
    rw [finish_cmon, hu]
  have fixed : u.fixed = { s.fixed with now := m, cmon := c } := by
    have k := hp.trans ht
    rw [hu]
    show { ({ t with hcp := p } : State).fixed with cmon := c } = _
    rw [k]
  rw [finish_fixed, cmon, fixed]

theorem tornDown_advanceTo {s t : State} {e : Nat} {x : RetireReason} (h : (s.advanceTo e).tornDown t x) :
    s.tornDown t x := h

/-- Settles O47. -/
theorem teardownsTakeTheTrailerDown : Obligations.TeardownsTakeTheTrailerDown := by
  intro s e hr
  refine ⟨fun hpart => ?part, fun hfault => ?fault⟩
  case part =>
    have run : exec .partTimerExpiry s = .next ((s.advanceTo e).partingTeardown.finish false) := by
      show runEvent s (s.cmon.part.map fun t => (s.advanceTo t).partingTeardown) = _
      rw [hpart, Option.map_some, runEvent_some hr]
    have eq := partingTeardown_eq (s.advanceTo e)
    have fixed := (teardown_fixed (s.advanceTo e) .uncoupled).trans (advanceTo_fixed s e)
    have tears := teardown_tearsDown (s.advanceTo e) .uncoupled
    generalize (s.advanceTo e).teardown .uncoupled = d at eq fixed tears
    have before : d.cmon = s.cmon := congrArg Fixed.cmon fixed
    generalize (s.advanceTo e).partingTeardown = u at run eq
    have flag : u.hcp.flags.getLsbD 1 = true := by
      rw [eq]
      exact raise_bit d .parted
    refine ⟨_, run, tornDown_advanceTo (finish_tornDown tears eq), flagsKept_bit (finish_flags u false) 1 flag,
      finish_cmonOnly fixed eq rfl false, fun sense => ?_⟩
    rw [finish_cmon, eq, enterUncoupled_cmon, before]
    simp [sense]
  case fault =>
    have run : exec .faultTimerExpiry s = .next ((s.advanceTo e).lineLossTeardown.finish false) := by
      show runEvent s (s.tdl.faultEnds.map fun t => (s.advanceTo t).lineLossTeardown) = _
      rw [hfault, Option.map_some, runEvent_some hr]
    have eq := lineLossTeardown_eq (s.advanceTo e)
    have fixed := (teardown_fixed (s.advanceTo e) .line).trans (advanceTo_fixed s e)
    have tears := teardown_tearsDown (s.advanceTo e) .line
    generalize (s.advanceTo e).teardown .line = d at eq fixed tears
    have before : d.cmon = s.cmon := congrArg Fixed.cmon fixed
    have present : d.tdl.linePresent = s.tdl.linePresent := congrArg Fixed.linePresent fixed
    have now : d.now = max s.now e := congrArg Fixed.now fixed
    generalize (s.advanceTo e).lineLossTeardown = u at run eq
    refine ⟨_, run, tornDown_advanceTo (finish_tornDown tears eq), finish_cmonOnly fixed eq rfl false, fun parting => ?_,
      fun coupled lost => ?_, fun coupled sense there => ?_⟩
    · rw [finish_cmon, eq]
      simp only [State.monitorLineLoss, before, parting]
      rfl
    · rw [finish_cmon, eq]
      simp only [State.monitorLineLoss, before, coupled]
      rw [enterUncoupled_cmon, before, present, if_neg lost]
    · rw [finish_cmon, eq]
      simp only [State.monitorLineLoss, before, coupled]
      rw [enterUncoupled_cmon, before, present, now, if_pos ⟨sense, there⟩]

end Sys2Proof.Machine

namespace Sys2Proof.Machine

/-! ### Node entries by position and address (R54) -/

theorem nodeAt_eq_some {s : State} {p : Nat} {n : NodeEntry} : s.nodeAt p = some n ↔ p ≠ 0 ∧ s.ntab.nodes[p - 1]? = some n := by
  unfold State.nodeAt
  split <;> simp [*]

/-- An address stands at one position at most. -/
theorem positionOf_nodeAt {s : State} {p : Nat} {n : NodeEntry} (k : s.ntab.nodesKept) (h : s.nodeAt p = some n) :
    s.positionOf n.address = some p := by
  obtain ⟨hp, hn⟩ := nodeAt_eq_some.mp h
  obtain ⟨lt, at'⟩ := List.getElem?_eq_some_iff.mp hn
  have found : s.ntab.nodes.findIdx? (fun m => m.address == n.address) = some (p - 1) := by
    refine List.findIdx?_eq_some_iff_getElem.mpr ⟨lt, by simp [at'], fun j hj => ?_⟩
    have ne := List.pairwise_iff_getElem.mp k.1 j (p - 1) (by simp; omega) (by simpa using lt) hj
    simpa [at'] using ne
  unfold State.positionOf
  rw [found, Option.map_some]
  congr 1
  omega

/-- What stands at a position is changed there. -/
theorem modifyNode_set {s : State} {p : Nat} {n : NodeEntry} (h : s.nodeAt p = some n) (f : NodeEntry → NodeEntry) :
    s.modifyNode p f = { s with ntab := { s.ntab with nodes := s.ntab.nodes.set (p - 1) (f n) } } := by
  obtain ⟨hp, hn⟩ := nodeAt_eq_some.mp h
  unfold State.modifyNode
  rw [if_neg hp, List.modify_eq_set_getElem?, hn]
  rfl

theorem nodeAt_modifyNode {s : State} {p : Nat} {n : NodeEntry} (h : s.nodeAt p = some n) (f : NodeEntry → NodeEntry) :
    (s.modifyNode p f).nodeAt p = some (f n) := by
  obtain ⟨hp, hn⟩ := nodeAt_eq_some.mp h
  obtain ⟨lt, -⟩ := List.getElem?_eq_some_iff.mp hn
  rw [modifyNode_set h]
  exact nodeAt_eq_some.mpr ⟨hp, by simp [lt]⟩

/-- The entries before a position are not changed there. -/
theorem modifyNode_take (s : State) (p : Nat) (f : NodeEntry → NodeEntry) :
    (s.modifyNode p f).ntab.nodes.take (p - 1) = s.ntab.nodes.take (p - 1) := by
  unfold State.modifyNode
  split
  · rfl
  · refine List.ext_getElem? fun i => ?_
    simp only [List.getElem?_take, List.getElem?_modify]
    split
    · have ne : p - 1 ≠ i := by omega
      simp [ne]
    · rfl

theorem modifyNode_rest (s : State) (p : Nat) (f : NodeEntry → NodeEntry) :
    ∃ l, s.modifyNode p f = { s with ntab := { s.ntab with nodes := l } } := by
  unfold State.modifyNode
  split <;> exact ⟨_, rfl⟩

/-! ### The engine's own requests -/

/-- A request of the engine's own. -/
def Request.ofWalk : Request → Bool
  | .probe | .assign .. | .describe .. | .extend .. | .release _ true => true
  | _ => false

/-- One that is abandoned stands no longer (R20). -/
theorem abandoned_bue (s : State) (r : Request) :
    (s.abandoned r).bue = { s.bue with request := if r.ofWalk then .none else s.bue.request } := by
  obtain ⟨p, proof⟩ := proofOutcome_abandoned s
  unfold State.abandoned Request.ofWalk
  split
  · exact (endRecat_same _).1
  all_goals simp only [proof, confirmOutcome_abandoned]
  all_goals rfl

theorem foldl_abandoned_bue (l : List Request) (s : State) : (l.foldl State.abandoned s).bue =
    { s.bue with request := if l.any Request.ofWalk then .none else s.bue.request } := by
  induction l generalizing s with
  | nil => rfl
  | cons r l ih =>
      rw [List.foldl_cons, ih, abandoned_bue, List.any_cons]
      cases r.ofWalk <;> simp

/-- The requests of a kind that stand in the queue. -/
theorem ofKind_any (s : State) (p q : Request → Bool) :
    (s.tdl.ofKind p).any q = s.queued fun r => p r && q r := by
  have waiting : ∀ l : List Request, (l.filter p).any q = l.any fun r => p r && q r := fun l => List.any_filter
  unfold Tdl.ofKind State.queued State.inFlightIs
  rw [List.any_append, List.any_append, waiting, waiting, Bool.or_comm]
  cases s.tdl.inFlight with
  | none => rfl
  | some f => cases h : p f.req <;> simp [h]

theorem abandonWhere_bue (s : State) (p : Request → Bool) : (s.abandonWhere p).bue =
    { s.bue with request := if s.queued (fun r => p r && r.ofWalk) then .none else s.bue.request } := by
  obtain ⟨x, e⟩ := withoutRequests_eq s p
  rw [abandonWhere_eq, foldl_abandoned_bue, ofKind_any, e]

/-- A request refused back leaves the engine's own request waiting, unless that is the one (R17). -/
theorem refuseBack_bue (s : State) (r : Request) :
    ∃ q, (s.refuseBack r).bue = { s.bue with request := q } ∧ (s.bue.request ≠ .queued → q ≠ .queued) := by
  have drive : ∀ d : DriveReq, (s.refuseDrive d).bue = s.bue := by
    intro d
    have set : ∀ h f, (s.setDrive h f).bue = s.bue := fun h f => by unfold State.setDrive; split <;> rfl
    unfold State.refuseDrive
    split
    · dsimp only
      split <;> exact set _ _
    · split <;> rfl
  have proof : s.refuseProof.bue = s.bue := by
    unfold State.refuseProof
    split <;> rfl
  have walk : ∀ w : WalkReq, ∃ q, (s.refuseBue w).bue = { s.bue with request := q } ∧ (s.bue.request ≠ .queued → q ≠ .queued) :=
    fun w => ⟨_, rfl, fun _ => by split <;> simp⟩
  have same : ∀ t : State, t.bue = s.bue → ∃ q, t.bue = { s.bue with request := q } ∧ (s.bue.request ≠ .queued → q ≠ .queued) :=
    fun t h => ⟨s.bue.request, h, id⟩
  unfold State.refuseBack
  split
  · exact same _ (drive _)
  · exact same _ rfl
  · exact same _ proof
  · exact same _ proof
  · exact walk _
  · exact walk _
  · exact walk _
  · exact walk _
  · exact walk _
  all_goals exact same _ rfl

theorem foldl_refuseBack_bue (l : List Request) (s : State) :
    ∃ q, (l.foldl State.refuseBack s).bue = { s.bue with request := q } ∧ (s.bue.request ≠ .queued → q ≠ .queued) := by
  induction l generalizing s with
  | nil => exact ⟨s.bue.request, rfl, id⟩
  | cons r l ih =>
      obtain ⟨q, eq, hq⟩ := refuseBack_bue s r
      obtain ⟨q', eq', hq'⟩ := ih (s.refuseBack r)
      rw [List.foldl_cons, eq']
      rw [eq] at hq' ⊢
      exact ⟨q', rfl, fun h => hq' (hq h)⟩

theorem makeRoom_bue (s : State) (keep : Request → Bool) (n : Nat) :
    ∃ q, (s.makeRoom keep n).1.bue = { s.bue with request := q } ∧ (s.bue.request ≠ .queued → q ≠ .queued) := by
  unfold State.makeRoom
  exact foldl_refuseBack_bue _ _

theorem takeOutNewest_zero (keep : Request → Bool) (q : List Request) : takeOutNewest keep 0 q = (q, []) := by
  obtain ⟨out, sub, -⟩ := takeOutNewest_parts keep 0 q
  obtain ⟨-, length, -⟩ := takeOutNewest_spec keep 0 q
  have none : (takeOutNewest keep 0 q).2 = [] := out.trans (List.take_zero)
  rw [none, List.length_nil, Nat.add_zero] at length
  exact Prod.ext (sub.eq_of_length length) none

/-- Where the class has room, nothing is taken out of it (R17). -/
theorem makeRoom_fits {s : State} {n : Nat} (keep : Request → Bool) (h : s.routineEntries + n ≤ 24) :
    s.makeRoom keep n = (s, []) := by
  have k : s.routineEntries + n - Config.routineSize = 0 := Nat.sub_eq_zero_of_le h
  unfold State.makeRoom
  rw [k, takeOutNewest_zero]
  rfl

theorem makeRoom_ntab (s : State) (keep : Request → Bool) (n : Nat) : (s.makeRoom keep n).1.ntab = s.ntab := by
  have one : ∀ (u : State) (r : Request), (u.refuseBack r).ntab = u.ntab := by
    intro u r
    have drive : ∀ d : DriveReq, (u.refuseDrive d).ntab = u.ntab := by
      intro d
      have set : ∀ h f, (u.setDrive h f).ntab = u.ntab := fun h f => by unfold State.setDrive; split <;> rfl
      unfold State.refuseDrive
      split
      · dsimp only
        split <;> exact set _ _
      · split <;> rfl
    have proof : u.refuseProof.ntab = u.ntab := by
      unfold State.refuseProof
      split <;> rfl
    unfold State.refuseBack
    split
    · exact drive _
    · rfl
    · exact proof
    · exact proof
    all_goals rfl
  unfold State.makeRoom
  exact foldl_same (p := State.ntab) one _ _

/-! ### A cut's Releases (R64) -/

theorem placeReleases_ntab (s : State) (l : List Request) : (s.placeReleases l).ntab = s.ntab := makeRoom_ntab ..

theorem placeReleases_bue (s : State) (l : List Request) :
    ∃ q, (s.placeReleases l).bue = { s.bue with request := q } ∧ (s.bue.request ≠ .queued → q ≠ .queued) :=
  makeRoom_bue ..

theorem placeReleases_fits {s : State} {l : List Request} (h : s.routineEntries + l.length ≤ 24) :
    s.placeReleases l = s.setRoutine (placeBehind l s.tdl.routine) := by
  unfold State.placeReleases
  rw [makeRoom_fits _ h]

/-- The Releases placed, and what is before and behind them. -/
theorem placeBehind_parts (new q : List Request) : ∃ a b, placeBehind new q = a ++ new ++ b ∧ q = a ++ b
    ∧ (∀ r, a.getLast? = some r → r.aheadOfCut = true) ∧ ∀ r ∈ b, r.aheadOfCut = false := by
  have parts : q = q.rdropWhile (fun r => !r.aheadOfCut) ++ q.rtakeWhile fun r => !r.aheadOfCut :=
    (List.rdropWhile_append_rtakeWhile ..).symm
  refine ⟨_, _, ?_, parts, fun r h => ?_, fun r h => ?_⟩
  · have before : ∀ a b : List Request, q = a ++ b → q.take (q.length - b.length) = a := by
      rintro a b rfl
      simp
    show q.take (q.length - (q.rtakeWhile fun r => !r.aheadOfCut).length) ++ new ++ _ = _
    rw [before _ _ parts]
    rfl
  · have ne : (q.rdropWhile fun r => !r.aheadOfCut) ≠ [] := by
      intro nil
      rw [nil] at h
      cases h
    have last := List.rdropWhile_last_not (fun r : Request => !r.aheadOfCut) q ne
    rw [List.getLast_of_getLast?_eq_some h] at last
    simpa using last
  · simpa using List.mem_rtakeWhile_imp h

end Sys2Proof.Machine

namespace Sys2Proof.Machine

/-! ### The records of a cut node (R63) -/

/-- A record is retired and joins. -/
def State.retireJoin (x : RetireReason) (s : State) (h : Handle) : State := (s.retireRecord h x).joinNow h

theorem retireNode_eq (x : RetireReason) (s : State) (p : Nat) :
    State.retireNode x s p = (s.recordsAt p).foldl (State.retireJoin x) s := rfl

theorem retireJoin_keeps (x : RetireReason) (s : State) (h : Handle) : ClaimsKeep s (s.retireJoin x h) :=
  (retireRecord_keeps s h x).trans (joinNow_keeps _ h)

theorem retireJoin_tdl (x : RetireReason) (s : State) (h : Handle) : (s.retireJoin x h).tdl = s.tdl :=
  (joinNow_tdl _ h).trans (retireRecord_tdl s h x)

theorem retireNode_keeps (x : RetireReason) (s : State) (p : Nat) :
    ClaimsKeep s (State.retireNode x s p) ∧ (State.retireNode x s p).tdl = s.tdl :=
  ⟨foldl_claimsKeep (retireJoin_keeps x) _ s, foldl_same (p := State.tdl) (retireJoin_tdl x) _ s⟩

theorem retireJoin_other (x : RetireReason) (s : State) {h k : Handle} (hk : h ≠ k) :
    (s.retireJoin x h).record k = s.record k :=
  (joinNow_record ..).trans (congrArg Slot.record (retireRecord_slot s h x hk))

theorem retireJoin_own (x : RetireReason) {s : State} {k : Handle} (hl : (s.live k).isSome = true) :
    (s.retireJoin x k).retiredFor x true k := by
  obtain ⟨r, hr, reason⟩ := retireRecord_retired x hl
  exact ⟨⟨r, (joinNow_record ..).trans hr, reason⟩, fun _ => mem_joinNow.mpr (.inr rfl)⟩

/-- A record retired before stays retired for its own reason, in the set. -/
theorem retireJoin_kept (x : RetireReason) {y : RetireReason} {s : State} (h : Handle) {k : Handle}
    (q : s.retiredFor y true k) : (s.retireJoin x h).retiredFor y true k := by
  obtain ⟨⟨r, hr, reason, retired⟩, joined⟩ := q
  have record : (s.retireJoin x h).record k = some r := by
    by_cases e : h = k
    · subst e
      have dead : s.live h = none := by
        unfold State.live
        rw [hr]
        simp [retired]
      have same : s.retireRecord h x = s := by
        unfold State.retireRecord
        rw [dead]
      unfold State.retireJoin
      rw [joinNow_record, same]
      exact hr
    · exact (retireJoin_other x s e).trans hr
  refine ⟨⟨r, record, reason, retired⟩, fun _ => mem_joinNow.mpr (.inl ?_)⟩
  rw [retireRecord_attention]
  exact joined rfl

/-- A pass over handles retires those that are live, and no other. -/
theorem foldl_retireJoin (x : RetireReason) (k : Handle) (l : List Handle) (s : State) :
    (k ∉ l → (l.foldl (State.retireJoin x) s).record k = s.record k)
    ∧ (k ∈ l → (s.live k).isSome = true → (l.foldl (State.retireJoin x) s).retiredFor x true k)
    ∧ ∀ y, s.retiredFor y true k → (l.foldl (State.retireJoin x) s).retiredFor y true k := by
  induction l generalizing s with
  | nil => exact ⟨fun _ => rfl, fun m _ => absurd m List.not_mem_nil, fun _ h => h⟩
  | cons h l ih =>
      obtain ⟨other, own, kept⟩ := ih (s.retireJoin x h)
      refine ⟨fun m => ?_, fun m live => ?_, fun y q => kept y (retireJoin_kept x h q)⟩
      · obtain ⟨ne, m⟩ := not_or.mp (mt List.mem_cons.mpr m)
        exact (other m).trans (retireJoin_other x s (Ne.symm ne))
      · by_cases e : h = k
        · subst e
          exact kept x (retireJoin_own x live)
        · refine own ((List.mem_cons.mp m).resolve_left (Ne.symm e)) ?_
          rw [live_of_record (retireJoin_other x s e)]
          exact live

theorem mem_recordsAt {s : State} {p : Nat} {k : Handle} :
    k ∈ s.recordsAt p ↔ ∃ r, s.live k = some r ∧ r.position = p := by
  unfold State.recordsAt
  simp only [List.mem_flatMap, List.mem_filter, List.mem_finRange, mem_allHandles, true_and]
  constructor
  · rintro ⟨i, h⟩
    split at h
    · next r hr =>
        simp only [Bool.and_eq_true, decide_eq_true_eq] at h
        exact ⟨r, hr, h.1⟩
    · cases h
  · rintro ⟨r, hr, hp⟩
    refine ⟨r.index, ?_⟩
    rw [hr]
    simp [hp]

/-- The records of one node are retired, and those of the others stay as they are. -/
theorem retireNode_records (x : RetireReason) (s : State) (p : Nat) (k : Handle) :
    (∀ r, s.live k = some r → r.position = p → (State.retireNode x s p).retiredFor x true k)
    ∧ (∀ r, s.live k = some r → r.position ≠ p → (State.retireNode x s p).live k = some r)
    ∧ ∀ y, s.retiredFor y true k → (State.retireNode x s p).retiredFor y true k := by
  obtain ⟨other, own, kept⟩ := foldl_retireJoin x k (s.recordsAt p) s
  rw [← retireNode_eq] at other own kept
  refine ⟨fun r hr hp => own (mem_recordsAt.mpr ⟨r, hr, hp⟩) (by rw [hr]; rfl), fun r hr hp => ?_, kept⟩
  refine (live_of_record (other fun m => ?_)).trans hr
  obtain ⟨r', hr', hp'⟩ := mem_recordsAt.mp m
  rw [hr] at hr'
  cases hr'
  exact hp hp'

/-- So are those of every node of a list of positions. -/
theorem foldl_retireNode (x : RetireReason) (k : Handle) (l : List Nat) (s : State) :
    (∀ r, s.live k = some r → r.position ∈ l → (l.foldl (State.retireNode x) s).retiredFor x true k)
    ∧ ∀ y, s.retiredFor y true k → (l.foldl (State.retireNode x) s).retiredFor y true k := by
  induction l generalizing s with
  | nil => exact ⟨fun _ _ m => absurd m List.not_mem_nil, fun _ h => h⟩
  | cons p l ih =>
      obtain ⟨own, kept⟩ := ih (State.retireNode x s p)
      obtain ⟨here, elsewhere, before⟩ := retireNode_records x s p k
      refine ⟨fun r hr m => ?_, fun y q => kept y (before y q)⟩
      by_cases e : r.position = p
      · exact kept x (here r hr e)
      · exact own r (elsewhere r hr e) ((List.mem_cons.mp m).resolve_left e)

/-- The records of the node at a position and of those behind it (R63). -/
def State.retireFrom (s : State) (p : Nat) : State :=
  ((List.range (s.ntab.nodes.length - p)).map fun i => p + 1 + i).foldl (State.retireNode .chainCut) (s.retireNode .nodeLost p)

theorem retireFrom_keeps (s : State) (p : Nat) : ClaimsKeep s (s.retireFrom p) ∧ (s.retireFrom p).tdl = s.tdl := by
  obtain ⟨here, tdl⟩ := retireNode_keeps .nodeLost s p
  exact ⟨here.trans (foldl_claimsKeep (fun u q => (retireNode_keeps .chainCut u q).1) _ _),
    (foldl_same (p := State.tdl) (fun u q => (retireNode_keeps .chainCut u q).2) _ _).trans tdl⟩

/-- A cut retires every record of the node it cuts as NODE_LOST, and those behind as CHAIN_CUT. -/
theorem retireFrom_retired {s : State} {p : Nat} {k : Handle} {r : Record} (hr : s.live k = some r) (hp : p ≤ r.position)
    (hn : r.position ≤ s.ntab.nodes.length) :
    (s.retireFrom p).retiredFor (if r.position = p then .nodeLost else .chainCut) true k := by
  obtain ⟨here, elsewhere, -⟩ := retireNode_records .nodeLost s p k
  obtain ⟨behind, kept⟩ := foldl_retireNode .chainCut k ((List.range (s.ntab.nodes.length - p)).map fun i => p + 1 + i)
    (s.retireNode .nodeLost p)
  split
  · next e => exact kept _ (here r hr e)
  · next e =>
      refine behind r (elsewhere r hr e) (List.mem_map.mpr ⟨r.position - p - 1, ?_, by omega⟩)
      rw [List.mem_range]
      omega

/-! ### The chain cut (R63, R64) -/

/-- A request to an entry that a cut frees, other than a cut's Release. -/
def Request.cutWith (gone : List Addr) (r : Request) : Bool :=
  match r.address with
  | some a => decide (a ∈ gone) && !r.isCutRelease
  | none => false

/-- The addresses that a cut at a position frees. -/
def State.goneFrom (s : State) (p : Nat) : List Addr := (s.ntab.nodes.drop (p - 1)).map (·.address)

/-- A cut before its Releases: the records are retired and the requests to the freed entries abandoned. -/
def State.cutQueue (s : State) (p : Nat) : State := (s.retireFrom p).abandonWhere (Request.cutWith (s.goneFrom p))

/-- A cut before the engine's part. -/
def State.cutNodes (s : State) (p : Nat) : State :=
  let t := (s.cutQueue p).placeReleases ((s.goneFrom p).map fun a => .release a false)
  (t.setNtab { t.ntab with nodes := t.ntab.nodes.take (p - 1) }).dropUnplacedTo fun a => decide (a ∈ s.goneFrom p)

theorem chainCut_eq (s : State) (p : Nat) : s.chainCut p = ((s.cutNodes p).cutResponse p).raise .chainChange := rfl

theorem cutQueue_ntab (s : State) (p : Nat) : (s.cutQueue p).ntab = s.ntab :=
  (abandonWhere_line _ _).2.trans (retireFrom_keeps s p).1.ntab

/-- The queue without what is to go (R20). -/
theorem cutQueue_tdl (s : State) (p : Nat) :
    (s.cutQueue p).tdl = ((s.retireFrom p).withoutRequests (Request.cutWith (s.goneFrom p))).tdl :=
  (abandonWhere_line _ _).1

theorem queued_of_tdl {s t : State} (h : t.tdl = s.tdl) (p : Request → Bool) : t.queued p = s.queued p := by
  unfold State.queued State.inFlightIs
  rw [h]

theorem cutQueue_bue (s : State) (p : Nat) : (s.cutQueue p).bue = { s.bue with
    request := if s.queued (fun r => r.cutWith (s.goneFrom p) && r.ofWalk) then .none else s.bue.request } := by
  obtain ⟨keeps, tdl⟩ := retireFrom_keeps s p
  unfold State.cutQueue
  rw [abandonWhere_bue, queued_of_tdl tdl, keeps.bue]

theorem cutNodes_ntab (s : State) (p : Nat) :
    (s.cutNodes p).ntab = { s.ntab with nodes := s.ntab.nodes.take (p - 1) } := by
  unfold State.cutNodes
  rw [(dropUnplacedTo_keeps _ _).ntab, setNtab_ntab, placeReleases_ntab, cutQueue_ntab]

theorem cutNodes_tdl (s : State) (p : Nat) :
    (s.cutNodes p).tdl = ((s.cutQueue p).placeReleases ((s.goneFrom p).map fun a => .release a false)).tdl := by
  unfold State.cutNodes
  rw [dropUnplacedTo_tdl, setNtab_tdl]

theorem cutNodes_bue (s : State) (p : Nat) :
    (s.cutNodes p).bue = ((s.cutQueue p).placeReleases ((s.goneFrom p).map fun a => .release a false)).bue := by
  unfold State.cutNodes
  rw [(dropUnplacedTo_keeps _ _).bue, setNtab_bue]

/-- The engine's part leaves the Node Table alone (R48). -/
theorem depart_ntab (s : State) : ∃ u : State, s.depart .toProbe = u.enterProbe ∧ u.tdl = s.tdl ∧ u.ntab = s.ntab
    ∧ u.fdir.recat = none ∧ u.bue = { s.bue with deferred := .none, request := .none } := by
  obtain ⟨bue, ntab, recat, -⟩ := endRecat_same s
  refine ⟨_, rfl, endRecat_tdl s, ntab, recat, ?_⟩
  show { s.endRecat.bue with deferred := .none, request := .none } = _
  rw [bue]

theorem cutRecat_ntab (s : State) (p : Nat) : (s.cutRecat p).ntab = s.ntab := by
  unfold State.cutRecat
  split
  · split
    · exact (endRecat_same _).2.1
    · rfl
  · rfl

theorem cutResponse_ntab (s : State) (p : Nat) : (s.cutResponse p).ntab = s.ntab := by
  unfold State.cutResponse
  dsimp only
  split
  · rfl
  · rfl
  · exact cutRecat_ntab _ p
  · split
    · rfl
    · split
      · exact (endRecat_same _).2.1
      · obtain ⟨u, eq, -, ntab, -⟩ := depart_ntab (State.setBue (State.setBue s _) _)
        rw [eq, (enterProbe_quiet u).2]
        exact ntab
  · split
    · rfl
    · exact (enterProbe_quiet _).2

/-- A cut leaves the entries before its position, and sets CHAIN_CHANGE (R62, R63). -/
theorem chainCut_cuts (s : State) (p : Nat) : (s.chainCut p).ntab = { s.ntab with nodes := s.ntab.nodes.take (p - 1) }
    ∧ (s.chainCut p).hcp.flags.getLsbD 3 = true := by
  rw [chainCut_eq]
  refine ⟨?_, raise_bit _ .chainChange⟩
  rw [raise_ntab, cutResponse_ntab, cutNodes_ntab]

/-- A node declared LOST is cut with what is behind it (R62). -/
theorem declareLost_cuts {s : State} {p : Nat} {n : NodeEntry} (hn : s.nodeAt p = some n) (hold : s.ntab.hold = false) :
    s.declareLost p = (s.modifyNode p fun n => { n with state := .lost }).chainCut p
    ∧ (s.declareLost p).ntab.nodes = s.ntab.nodes.take (p - 1) ∧ (s.declareLost p).hcp.flags.getLsbD 3 = true := by
  have eq : s.declareLost p = (s.modifyNode p fun n => { n with state := .lost }).chainCut p := by
    unfold State.declareLost
    simp only [hn, hold]
    rfl
  obtain ⟨nodes, flag⟩ := chainCut_cuts (s.modifyNode p fun n => { n with state := .lost }) p
  refine ⟨eq, ?_, by rw [eq]; exact flag⟩
  rw [eq, nodes]
  exact modifyNode_take ..

end Sys2Proof.Machine

namespace Sys2Proof.Machine

/-! ### What is told of replies and failures (R55, R56, R61) -/

theorem heard_eq {s : State} {p : Nat} {n : NodeEntry} (hold : s.ntab.hold = false) (k : s.ntab.nodesKept)
    (hn : s.nodeAt p = some n) : s.heard n.address = { s with ntab := { s.ntab with nodes := s.ntab.nodes.set (p - 1) { n with
      failures := 0, heard := if s.lineRuns then .counting 0 s.now else .still 0
      state := if n.state = .suspect then .live else n.state } } } := by
  unfold State.heard
  simp only [positionOf_nodeAt k hn]
  rw [if_neg (by simp [hold]), modifyNode_set hn]
  simp only [beq_iff_eq]

/-- The failure counted, before the third cuts the chain (R56). -/
theorem failed_eq {s : State} {p : Nat} {n : NodeEntry} (hold : s.ntab.hold = false) (k : s.ntab.nodesKept)
    (hn : s.nodeAt p = some n) : s.failed n.address =
      let t := s.modifyNode p fun n => { n with
        failures := n.failures + 1, state := if n.state == .live then .suspect else n.state }
      if n.failures + 1 < 3 then t else t.declareLost p := by
  unfold State.failed
  simp only [positionOf_nodeAt k hn, hold]
  rw [nodeAt_modifyNode hn]
  rfl

theorem failed_cuts {s : State} {p : Nat} {n : NodeEntry} (hold : s.ntab.hold = false) (k : s.ntab.nodesKept)
    (hn : s.nodeAt p = some n) (third : 2 ≤ n.failures) : (s.failed n.address).ntab.nodes = s.ntab.nodes.take (p - 1)
    ∧ (s.failed n.address).hcp.flags.getLsbD 3 = true := by
  rw [failed_eq hold k hn]
  dsimp only
  rw [if_neg (by omega)]
  obtain ⟨l, rest⟩ := modifyNode_rest s p fun n : NodeEntry => { n with
    failures := n.failures + 1, state := if n.state == .live then .suspect else n.state }
  have take := modifyNode_take s p fun n : NodeEntry => { n with
    failures := n.failures + 1, state := if n.state == .live then .suspect else n.state }
  have held : (s.modifyNode p fun n : NodeEntry => { n with
      failures := n.failures + 1, state := if n.state == .live then .suspect else n.state }).ntab.hold = false := by
    rw [rest]
    exact hold
  obtain ⟨-, nodes, flag⟩ := declareLost_cuts (nodeAt_modifyNode hn _) held
  exact ⟨nodes.trans take, flag⟩

theorem sweepFailed_cuts {s : State} {p : Nat} {n : NodeEntry} (hold : s.ntab.hold = false) (k : s.ntab.nodesKept)
    (hn : s.nodeAt p = some n) : (s.sweepFailed n.address).ntab.nodes = s.ntab.nodes.take (p - 1)
    ∧ (s.sweepFailed n.address).hcp.flags.getLsbD 3 = true := by
  unfold State.sweepFailed
  rw [positionOf_nodeAt k hn]
  exact (declareLost_cuts hn hold).2

/-! ### The outcome ABANDONED (R20) -/

/-- An owner that drops nothing is told of it as of any outcome. -/
theorem abandoned_ownerOutcome {s : State} (h : s.bue.dropping = false) (r : Request) :
    s.abandoned r = s.ownerOutcome r .abandoned := by
  have walk : ∀ r : Request, s.bueOutcome r .abandoned = (match r with
      | .describe _ _ true => s.bueRequestGone.endRecat
      | _ => s.bueRequestGone) := by
    intro r
    unfold State.bueOutcome
    dsimp only
    rw [if_neg (by rw [show s.bueRequestGone.bue.dropping = false from h]; decide)]
    cases r with
    | describe a i b =>
        cases b with
        | false => rfl
        | true =>
            show s.bueRequestGone.recatOutcome i .abandoned = _
            unfold State.recatOutcome
            split
            · rfl
            · next none => exact (endRecat_none none).symm
    | assign a i =>
        show s.bueRequestGone.assignOutcome a .abandoned = _
        unfold State.assignOutcome
        split <;> simp_all
    | release a b => cases b <;> rfl
    | _ => rfl
  cases r with
  | describe a i b =>
      cases b with
      | false => exact (walk (.describe a i false)).symm
      | true => exact (walk (.describe a i true)).symm
  | probe => exact (walk .probe).symm
  | assign a i => exact (walk (.assign a i)).symm
  | extend a b => exact (walk (.extend a b)).symm
  | release a b =>
      cases b with
      | true => exact (walk (.release a true)).symm
      | false => rfl
  | sample w a i h g => cases w <;> rfl
  | phaseMark m on => rfl
  | _ => rfl

/-! ### The engine's part in a cut (R48) -/

theorem bueCheck_dropped {s : State} (hd : s.bue.dropping = true) (hq : s.bue.request = .none) :
    s.bueCheck = s.enterProbe := by
  unfold State.bueCheck
  simp [hd, hq]

theorem bueCheck_departs {s : State} (hd : s.bue.dropping = false) (hf : s.bue.deferred ≠ .none)
    (ho : s.recatOutstanding = false) : s.bueCheck = s.depart s.bue.deferred := by
  unfold State.bueCheck
  simp [hd, hf, ho]

theorem bueCheck_waits {s : State} (hd : s.bue.dropping = true → s.bue.request ≠ .none)
    (hf : s.bue.deferred = .none ∨ s.recatOutstanding = true) : s.bueCheck = s := by
  unfold State.bueCheck
  have drop : (s.bue.dropping && s.bue.request == .none) = false := by
    cases h : s.bue.dropping with
    | false => rfl
    | true => simpa using hd h
  have defer : (s.bue.deferred != .none && !s.recatOutstanding) = false := by
    rcases hf with h | h <;> simp [h]
  simp only [drop, defer, Bool.false_eq_true, if_false]

end Sys2Proof.Machine

namespace Sys2Proof.Machine

/-! ### The engine's part, by its state (R48) -/

/-- The engine once its units are cut short. -/
def State.bueTrimmed (s : State) (p : Nat) : Bue :=
  { s.bue with units := trimUnits p ((s.nodeAt (p - 1)).bind (·.endDigest)) s.bue.units, chainEnd := .none }

theorem cutResponse_eq (s : State) (p : Nat) : s.cutResponse p =
    let t := s.setBue (s.bueTrimmed p)
    let u := s.setBue { s.bueTrimmed p with frontier := .stopped, frontierHeld := false }
    let w := (s.setKtl { s.ktl with waiting := none }).setBue
      { s.bueTrimmed p with lastProbe := none, tries := 0, errand := .none }
    match s.bue.state with
    | .idle | .waitStart => t
    | .halted => t.cutRecat p
    | .settled =>
        if s.recatOutstanding then u.setBue { u.bue with deferred := .toProbe }
        else if s.bue.request == .queued then u.endRecat.setBue { u.endRecat.bue with state := .probe, dropping := true }
        else u.depart .toProbe
    | _ =>
        if s.bue.request == .queued then w.setBue { w.bue with dropping := true }
        else (w.setBue { w.bue with request := .none }).enterProbe := rfl

theorem cutResponse_stays {s : State} (p : Nat) (h : s.bue.state = .idle ∨ s.bue.state = .waitStart) :
    s.cutResponse p = s.setBue (s.bueTrimmed p) := by
  rw [cutResponse_eq]
  rcases h with h | h <;> simp only [h]

theorem cutResponse_halted {s : State} (p : Nat) (h : s.bue.state = .halted) :
    s.cutResponse p = (s.setBue (s.bueTrimmed p)).cutRecat p := by
  rw [cutResponse_eq]
  simp only [h]

/-- In HALTED only a recatalogue of a cut node ends (R83). -/
theorem cutRecat_ends {s : State} {p : Nat} (h : ∃ c, s.fdir.recat = some c ∧ p ≤ c.position) :
    (s.cutRecat p).bue = { s.bue with request := .none } ∧ (s.cutRecat p).tdl = s.tdl
    ∧ (s.cutRecat p).fdir.recat = none := by
  obtain ⟨c, hc, hp⟩ := h
  have eq : s.cutRecat p = (s.setBue { s.bue with request := .none }).endRecat := by
    unfold State.cutRecat
    rw [hc]
    exact if_pos hp
  obtain ⟨bue, -, recat, -⟩ := endRecat_same (s.setBue { s.bue with request := .none })
  rw [eq]
  exact ⟨bue, endRecat_tdl _, recat⟩

theorem cutRecat_stays {s : State} {p : Nat} (h : ∀ c, s.fdir.recat = some c → c.position < p) : s.cutRecat p = s := by
  unfold State.cutRecat
  split
  · next c hc => rw [if_neg (by have := h c hc; omega)]
  · rfl

/-- In SETTLED the frontier timer stops, and the engine goes to PROBE now or once an outcome has come. -/
theorem cutResponse_settled {s : State} (p : Nat) (h : s.bue.state = .settled) : s.cutResponse p =
    let t := s.setBue { s.bueTrimmed p with frontier := .stopped, frontierHeld := false }
    if s.recatOutstanding then t.setBue { t.bue with deferred := .toProbe }
    else if s.bue.request == .queued then t.endRecat.setBue { t.endRecat.bue with state := .probe, dropping := true }
    else t.depart .toProbe := by
  rw [cutResponse_eq]
  simp only [h]

/-- In the walk the engine goes to PROBE, now or once the outcome it drops has come. -/
theorem cutResponse_walks {s : State} (p : Nat)
    (h : s.bue.state ∉ [EngineState.idle, .waitStart, .halted, .settled]) : s.cutResponse p =
    let t := (s.setKtl { s.ktl with waiting := none }).setBue
      { s.bueTrimmed p with lastProbe := none, tries := 0, errand := .none }
    if s.bue.request == .queued then t.setBue { t.bue with dropping := true }
    else (t.setBue { t.bue with request := .none }).enterProbe := by
  cases q : s.bue.state with
  | idle | waitStart | halted | settled => simp [q] at h
  | _ =>
      rw [cutResponse_eq]
      simp only [q]

/-! ### The queue after a cut (R20, R64) -/

/-- The requests to freed entries leave the classes. -/
theorem cutQueue_classes (s : State) (p : Nat) :
    (s.cutQueue p).tdl.urgent = s.tdl.urgent.filter (fun r => !r.cutWith (s.goneFrom p))
    ∧ (s.cutQueue p).tdl.routine = s.tdl.routine.filter (fun r => !r.cutWith (s.goneFrom p)) := by
  obtain ⟨urgent, routine, -⟩ := withoutRequests_queue (s.retireFrom p) (Request.cutWith (s.goneFrom p))
  rw [cutQueue_tdl, urgent, routine, (retireFrom_keeps s p).2]
  exact ⟨rfl, rfl⟩

/-- So does the one in flight, and one to another entry stays. -/
theorem cutQueue_inFlight (s : State) (p : Nat) :
    ((∀ f, s.tdl.inFlight = some f → f.req.cutWith (s.goneFrom p) = false) → (s.cutQueue p).tdl.inFlight = s.tdl.inFlight)
    ∧ ((∃ f, s.tdl.inFlight = some f ∧ f.req.cutWith (s.goneFrom p) = true) → (s.cutQueue p).tdl.inFlight = none) := by
  have tdl := (retireFrom_keeps s p).2
  rw [cutQueue_tdl]
  constructor
  · intro h
    rw [(withoutRequests_stays (by rw [tdl]; exact h)).1, tdl]
  · rintro ⟨f, hf, hc⟩
    exact (withoutRequests_drops (by rw [tdl]; exact hf) hc).1

/-- The Releases of a cut, at their place in the routine class. -/
theorem cutNodes_releases (s : State) (p : Nat) : ∃ a b : List Request,
    (s.cutNodes p).tdl.routine = a ++ (s.goneFrom p).map (fun a => .release a false) ++ b
    ∧ (∀ r, a.getLast? = some r → r.aheadOfCut = true) ∧ (∀ r ∈ b, r.aheadOfCut = false)
    ∧ ((s.cutQueue p).routineEntries + (s.goneFrom p).length ≤ 24 → a ++ b = (s.cutQueue p).tdl.routine) := by
  rw [cutNodes_tdl]
  generalize s.cutQueue p = t
  have length : ((s.goneFrom p).map fun a => Request.release a false).length = (s.goneFrom p).length := List.length_map ..
  generalize ((s.goneFrom p).map fun a => Request.release a false) = new at length
  obtain ⟨a, b, placed, parts, before, behind⟩ := placeBehind_parts new
    (t.makeRoom (fun r => r.aheadOfCut || r.isRestartRelease) new.length).1.tdl.routine
  refine ⟨a, b, placed, before, behind, fun fits => ?_⟩
  rw [← parts, makeRoom_fits _ (by omega)]

/-- Among requests to freed entries those of the engine's own are these. -/
theorem cutWith_ofWalk (gone : List Addr) (r : Request) :
    (r.cutWith gone && r.ofWalk) = (r.cutWith gone && match r with
      | .describe .. | .extend .. | .release _ true => true
      | _ => false) := by
  cases r with
  | release a b => cases b <;> rfl
  | _ => rfl

/-- The engine's own request does not wait any more when a cut abandons it, and stays otherwise where there is room. -/
theorem cutNodes_request (s : State) (p : Nat) :
    (∃ q, (s.cutNodes p).bue = { s.bue with request := q })
    ∧ (s.queued (fun r => r.cutWith (s.goneFrom p) && r.ofWalk) = true → (s.cutNodes p).bue.request ≠ .queued)
    ∧ (s.queued (fun r => r.cutWith (s.goneFrom p) && r.ofWalk) = false →
        (s.cutQueue p).routineEntries + (s.goneFrom p).length ≤ 24 → (s.cutNodes p).bue.request = s.bue.request) := by
  have bue := cutQueue_bue s p
  have length : ((s.goneFrom p).map fun a => Request.release a false).length = (s.goneFrom p).length := List.length_map ..
  rw [cutNodes_bue]
  generalize s.cutQueue p = t at bue
  generalize ((s.goneFrom p).map fun a => Request.release a false) = new at length
  obtain ⟨q, placed, waits⟩ := placeReleases_bue t new
  refine ⟨⟨q, by rw [placed, bue]⟩, fun gone => ?_, fun none fits => ?_⟩
  · rw [placed]
    exact waits (by rw [bue, if_pos gone]; simp)
  · rw [placeReleases_fits (by omega)]
    show t.bue.request = _
    rw [bue]
    simp [none]

/-! ### The timeout (R57, R62) -/

/-- What the timeout of an entry cuts. -/
def State.cutSilent (s : State) (p e : Nat) : State :=
  ((s.advanceTo e).modifyNode p fun n => { n with state := .lost }).chainCut p

/-- An attempt that the cut abandons has ended for the origins (log entry 48). -/
def State.afterCut (s c : State) : State :=
  if s.tdl.inFlight ≠ none ∧ c.tdl.inFlight = none then c.onAttemptEnd.yieldIfDue else c

theorem silenced_eq (s : State) (p : Nat) : s.silenced p = s.afterCut (s.declareLost p) := by
  unfold State.silenced State.afterCut
  dsimp only
  generalize s.declareLost p = c
  refine if_congr ?_ rfl rfl
  cases s.tdl.inFlight <;> cases c.tdl.inFlight <;> simp

theorem lastHeardTimeout_taken {s : State} {p : Fin 12} {e : Nat} (hr : s.hcp.inReset = false)
    (h : s.silentAt (p.val + 1) = some e) :
    exec (.lastHeardTimeout p) s = .next ((s.afterCut (s.cutSilent (p.val + 1) e)).finish false) := by
  obtain ⟨hold, n, -, -, hn, -⟩ := silentAt_iff.mp h
  have lost := (declareLost_cuts (s := s.advanceTo e) hn hold).1
  show runEvent s ((s.silentAt (p.val + 1)).map fun t => (s.advanceTo t).silenced (p.val + 1)) = _
  rw [h, Option.map_some, runEvent_some hr, silenced_eq, lost]
  rfl

end Sys2Proof.Machine

namespace Sys2Proof.Machine

/-! ### Addresses and the Attention Set to the event's end -/

/-- Claims and the walk keep the entries' addresses (R52). -/
theorem Moves.addresses {s t : State} (m : Moves (.more .walk) s t) :
    t.ntab.nodes.map (·.address) = s.ntab.nodes.map (·.address) := by
  induction m with
  | nil => rfl
  | snoc _ m ih =>
      refine Eq.trans ?_ ih
      cases m with
      | nodes n hh hn => exact hn
      | _ => rfl

theorem mapConfirms_attention (s : State) (f : Countdown → Countdown) :
    (s.mapConfirms f).fdir.attention = s.fdir.attention :=
  mapConfirms_same (fun v : State => v.fdir.attention) (fun _ _ _ => rfl) s f

/-- The entry to YIELDED holds clocks only. -/
theorem enterYielded_addresses (s : State) : s.enterYielded.ntab.nodes.map (·.address) = s.ntab.nodes.map (·.address)
    ∧ s.enterYielded.fdir.attention = s.fdir.attention := by
  obtain ⟨x, e⟩ := interrupt_eq s
  have attention : ∀ u : State, u.freeze.fdir.attention = u.fdir.attention := by
    intro u
    unfold State.freeze
    rw [mapConfirms_attention]
    rfl
  obtain ⟨-, nodes, -⟩ := enterYielded_stoodStill s
  refine ⟨?_, ?_⟩
  · rw [nodes]
    simp only [List.map_map]
    rfl
  · unfold State.enterYielded
    dsimp only
    rw [attention, e]
    rfl

theorem yieldIfDue_addresses (s : State) : s.yieldIfDue.ntab.nodes.map (·.address) = s.ntab.nodes.map (·.address)
    ∧ s.yieldIfDue.fdir.attention = s.fdir.attention := by
  unfold State.yieldIfDue
  split
  · exact enterYielded_addresses s
  · exact ⟨rfl, rfl⟩

theorem finish_addresses (s : State) (host : Bool) :
    (s.finish host).ntab.nodes.map (·.address) = s.ntab.nodes.map (·.address) := by
  have m : Moves (.more .walk) s s.bueCheck.settleClaims := settleClaims_moves (bueCheck_moves .nil)
  unfold State.finish State.settleEvent
  generalize s.bueCheck.settleClaims = u at m
  have k := (arbitrate_kept u).ntab
  generalize u.arbitrate = v at k
  have nodes : v.ntab.nodes.map (·.address) = s.ntab.nodes.map (·.address) := by
    rw [k]
    exact m.addresses
  cases host
  · exact nodes
  · exact nodes

/-! ### What a cut does to the records (R63) -/

theorem placeReleases_attention (s : State) (l : List Request) :
    (s.placeReleases l).fdir.attention = s.fdir.attention := by
  have out : ∀ (rs : List Request) (u : State), (rs.foldl State.refuseBack u).fdir.attention = u.fdir.attention := by
    intro rs u
    have m : Moves (.more .walk) u (rs.foldl State.refuseBack u) := foldl_moves (fun _ r k => refuseBack_moves k r) _ _ .nil
    exact congrArg Still.attention (m.still (.inr rfl))
  exact out _ _

/-- What has joined stays in the set through the rest of a cut. -/
theorem chainCut_attention (s : State) (p : Nat) : (s.chainCut p).fdir.attention = (s.retireFrom p).fdir.attention := by
  have response : ∀ u : State, (u.cutResponse p).fdir.attention = u.fdir.attention := fun u => by
    have m : Moves (.more .walk) u (u.cutResponse p) := cutResponse_moves .nil p
    generalize u.cutResponse p = v at m
    exact congrArg Still.attention (m.still (.inr rfl))
  rw [chainCut_eq, raise_fdir, response]
  unfold State.cutNodes
  rw [dropUnplacedTo_attention, setNtab_fdir, placeReleases_attention]
  exact (abandonWhere_records _ _).2

/-- Each is RETIRED after the cut, with its own reason, and in the Attention Set. -/
theorem chainCut_retired {s : State} {p : Nat} {k : Handle} {x : RetireReason} (h : (s.retireFrom p).retiredFor x true k) :
    (s.chainCut p).retiredFor x true k := by
  obtain ⟨⟨r, hr, reason, retired⟩, joined⟩ := h
  refine ⟨⟨r, ?_, reason, retired⟩, fun _ => by rw [chainCut_attention]; exact joined rfl⟩
  have m : Moves (.more (.event false)) (s.retireFrom p) (s.chainCut p) := by
    refine raise_moves (cutResponse_moves (dropUnplacedTo_moves
      (setNtab_moves ?_ (nodesKept_sublist (List.take_sublist ..))) _) p) _
    refine placeReleases_moves (abandonWhere_moves .nil _) fun r hr => ?_
    obtain ⟨a, -, rfl⟩ := List.mem_map.mp hr
    rfl
  exact m.retiredRecord hr retired

/-- So they come out of the event. -/
theorem afterCut_retired {s c : State} {k : Handle} {x : RetireReason} (h : c.retiredFor x true k) :
    ((s.afterCut c).finish false).retiredFor x true k := by
  obtain ⟨⟨r, hr, reason, retired⟩, joined⟩ := h
  have m : Moves (.more (.event false)) c (s.afterCut c) := ite_moves (yieldIfDue_moves (onAttemptEnd_moves .nil)) .nil
  have attention : (s.afterCut c).fdir.attention = c.fdir.attention := by
    unfold State.afterCut
    split
    · have still := onAttemptEnd_still c
      generalize c.onAttemptEnd = u at still
      exact (yieldIfDue_addresses u).2.trans (congrArg Still.attention still)
    · rfl
  exact ⟨⟨r, finish_retiredRecord false (m.retiredRecord hr retired) retired, reason, retired⟩,
    fun _ => finish_attention false (by rw [attention]; exact joined rfl)⟩

theorem afterCut_addresses (s c : State) :
    ((s.afterCut c).finish false).ntab.nodes.map (·.address) = c.ntab.nodes.map (·.address) := by
  rw [finish_addresses]
  unfold State.afterCut
  split
  · have m : Moves (.more .walk) c c.onAttemptEnd := onAttemptEnd_moves .nil
    exact (yieldIfDue_addresses _).1.trans m.addresses
  · rfl

/-- The event of a timeout: the chain cut there, and the records of the nodes there and behind retired (R57, R62, R63). -/
theorem lastHeardTimeout_cuts {s : State} {p : Fin 12} {e : Nat} (hr : s.hcp.inReset = false)
    (h : s.silentAt (p.val + 1) = some e) :
    ∃ t : State, exec (.lastHeardTimeout p) s = .next t ∧ t.hcp.flags.getLsbD 3 = true
      ∧ t.ntab.nodes.map (·.address) = (s.ntab.nodes.take p.val).map (·.address)
      ∧ (∀ h r, s.live h = some r → p.val + 1 ≤ r.position → r.position ≤ s.ntab.nodes.length →
          t.live h = none ∧ h ∈ t.fdir.attention
          ∧ ∃ x, t.record h = some x ∧ x.reason = some (if r.position = p.val + 1 then .nodeLost else .chainCut))
      ∧ t.fixed = { s.fixed with now := max s.now e } := by
  obtain ⟨l, rest⟩ := modifyNode_rest (s.advanceTo e) (p.val + 1) fun n => { n with state := .lost }
  have take := modifyNode_take (s.advanceTo e) (p.val + 1) fun n => { n with state := .lost }
  have length : ((s.advanceTo e).modifyNode (p.val + 1) fun n => { n with state := .lost }).ntab.nodes.length
      = s.ntab.nodes.length := by
    unfold State.modifyNode
    rw [if_neg (by omega)]
    exact List.length_modify ..
  have live : ∀ k, ((s.advanceTo e).modifyNode (p.val + 1) fun n => { n with state := .lost }).live k = s.live k := by
    intro k
    rw [rest]
    rfl
  have fixed : ((s.advanceTo e).modifyNode (p.val + 1) fun n => { n with state := .lost }).fixed
      = { s.fixed with now := max s.now e } := by
    rw [rest]
    rfl
  have taken := lastHeardTimeout_taken hr h
  unfold State.cutSilent at taken
  generalize ((s.advanceTo e).modifyNode (p.val + 1) fun n => { n with state := .lost }) = u at *
  obtain ⟨nodes, flag⟩ := chainCut_cuts u (p.val + 1)
  have retires := fun k r (hk : u.live k = some r) hp hn => chainCut_retired (k := k) (retireFrom_retired (p := p.val + 1) hk hp hn)
  have m : Moves (.more (.event false)) u (u.chainCut (p.val + 1)) := chainCut_moves .nil _
  generalize u.chainCut (p.val + 1) = c at *
  have after : Moves (.more (.event false)) c (s.afterCut c) := ite_moves (yieldIfDue_moves (onAttemptEnd_moves .nil)) .nil
  refine ⟨_, taken, flagsKept_bit (flagsKept_trans after.flags (finish_flags _ false)) 3 flag, ?_, fun k r hk hp hn => ?_, ?_⟩
  · rw [afterCut_addresses, nodes]
    exact congrArg (List.map (·.address)) take
  · obtain ⟨⟨x, hx, reason, retired⟩, joined⟩ :=
      afterCut_retired (s := s) (retires k r ((live k).trans hk) hp (by rw [length]; exact hn))
    refine ⟨?_, joined rfl, x, hx, reason⟩
    unfold State.live
    rw [hx]
    simp [retired]
  · rw [finish_fixed]
    exact (after.fixed.trans m.fixed).trans fixed

end Sys2Proof.Machine

namespace Sys2Proof.Machine

/-- The node clauses of a reply, of failures and of a fault sweep's Hail (R55, R56, R61). -/
theorem nodeHeardOrLost {s : State} {p : Nat} {n : NodeEntry} (hold : s.ntab.hold = false) (k : s.ntab.nodesKept)
    (hn : s.nodeAt p = some n) (few : n.failures < 2) : s.failed n.address = { s with ntab := { s.ntab with
      nodes := s.ntab.nodes.set (p - 1) { n with
        failures := n.failures + 1, state := if n.state = .live then .suspect else n.state } } } := by
  rw [failed_eq hold k hn]
  dsimp only
  rw [if_pos (by omega), modifyNode_set hn]
  simp only [beq_iff_eq]

/-- The clauses of the engine's part (R48), by its state. -/
theorem cutResponse_clauses (s : State) (p : Nat) :
    let b := s.bueTrimmed p
    let settled : Bue := { b with frontier := .stopped, frontierHeld := false }
    let walked : Bue := { b with lastProbe := none, tries := 0, errand := .none }
    let t := s.cutResponse p
    (s.bue.state = .halted → ((∀ c, s.fdir.recat = some c → c.position < p) → t = s.setBue b)
      ∧ ((∃ c, s.fdir.recat = some c ∧ p ≤ c.position) → t.bue = { b with request := .none } ∧ t.tdl = s.tdl
        ∧ t.fdir.recat = none))
    ∧ (s.bue.state = .settled →
      (s.recatOutstanding = true → t = s.setBue { settled with deferred := .toProbe })
      ∧ (s.recatOutstanding = false → s.bue.request = .queued → t.bue = { settled with state := .probe, dropping := true }
        ∧ t.tdl = s.tdl ∧ t.fdir.recat = none)
      ∧ (s.recatOutstanding = false → s.bue.request ≠ .queued → ∃ u : State, t = u.enterProbe ∧ u.tdl = s.tdl
        ∧ u.ntab = s.ntab ∧ u.fdir.recat = none ∧ u.bue = { settled with deferred := .none, request := .none }))
    ∧ (s.bue.state ∉ [.idle, .waitStart, .halted, .settled] →
      let w := s.setKtl { s.ktl with waiting := none }
      (s.bue.request = .queued → t = w.setBue { walked with dropping := true })
      ∧ (s.bue.request ≠ .queued → t = (w.setBue { walked with request := .none }).enterProbe)) := by
  intro b settled walked t
  refine ⟨fun h => ?halted, fun h => ?settled, fun h => ?walk⟩
  case halted =>
    have eq : t = (s.setBue b).cutRecat p := cutResponse_halted p h
    rw [eq]
    exact ⟨fun hc => cutRecat_stays hc, fun hc => cutRecat_ends hc⟩
  case settled =>
    have eq : t = _ := cutResponse_settled p h
    rw [eq]
    dsimp only
    refine ⟨fun ho => ?_, fun ho hq => ?_, fun ho hq => ?_⟩
    · rw [if_pos ho]
      rfl
    · rw [if_neg (by rw [ho]; decide), if_pos (by rw [hq]; rfl)]
      obtain ⟨bue, -, recat, -⟩ := endRecat_same (s.setBue settled)
      refine ⟨?_, endRecat_tdl _, recat⟩
      rw [setBue_bue, bue]
      rfl
    · rw [if_neg (by rw [ho]; decide), if_neg (by simpa using hq)]
      exact depart_ntab (s.setBue settled)
  case walk =>
    have eq : t = _ := cutResponse_walks p h
    rw [eq]
    dsimp only
    refine ⟨fun hq => ?_, fun hq => ?_⟩
    · rw [if_pos (by rw [hq]; rfl)]
      rfl
    · rw [if_neg (by simpa using hq)]
      rfl

/-- Settles O54. -/
theorem silenceCutsTheChain : Obligations.SilenceCutsTheChain := by
  refine ⟨fun s p n hold k hn => ?nodes, fun s p => ?kinds, fun s r => ?owners, fun s p => ?cut, fun s p => ?engine,
    fun s => ?check, fun s p e => ?clock, fun s p e hr h => lastHeardTimeout_taken hr h,
    fun s p e hr h => lastHeardTimeout_cuts hr h⟩
  case nodes =>
    exact ⟨heard_eq hold k hn, nodeHeardOrLost hold k hn, failed_cuts hold k hn, sweepFailed_cuts hold k hn⟩
  case kinds =>
    obtain ⟨x, e⟩ := withoutRequests_eq s p
    obtain ⟨urgent, routine, -⟩ := withoutRequests_queue s p
    exact ⟨s.withoutRequests p, abandonWhere_eq s p, by rw [e], urgent, routine, withoutRequests_stays,
      fun f hf hp => withoutRequests_drops hf hp⟩
  case owners =>
    obtain ⟨tdl, ntab⟩ := abandoned_line s r
    exact ⟨tdl, ntab, fun h => abandoned_ownerOutcome h r⟩
  case cut =>
    obtain ⟨urgent, routine⟩ := cutQueue_classes s p
    obtain ⟨stays, drops⟩ := cutQueue_inFlight s p
    obtain ⟨⟨q, bue⟩, gone, kept⟩ := cutNodes_request s p
    simp only [cutWith_ofWalk] at gone kept
    exact ⟨s.cutNodes p, s.cutQueue p, chainCut_eq s p, cutNodes_ntab s p, urgent, routine, stays, drops, cutNodes_tdl s p,
      cutNodes_releases s p, by rw [bue], gone, kept⟩
  case engine =>
    obtain ⟨halted, settled, walk⟩ := cutResponse_clauses s p
    exact ⟨cutResponse_stays p, halted, settled, walk⟩
  case check =>
    exact ⟨rfl, bueCheck_dropped, fun _ hq hf => bueCheck_waits (fun _ => hq) (.inl hf), bueCheck_departs,
      fun _ ho hd => bueCheck_waits (by simp [hd]) (.inr ho), depart_ntab s⟩
  case clock =>
    simp only [silentAt_iff, eq_comm (a := e)]

end Sys2Proof.Machine

namespace Sys2Proof.Machine

/-! ### A presence sweep (R17, R61) -/

/-- Hails to the present nodes in chain order, in place of those waiting for them, with room made; a cut's Releases taken
out are placed again behind the sweep. -/
theorem sweep_eq {s : State} (cause : Sweep) (hold : s.ntab.hold = false) :
    let nodes := s.ntab.nodes.filter NodeEntry.present
    let rest := s.tdl.routine.filter fun r => !nodes.any fun n => r.isHailTo n.address
    let room := (s.setRoutine rest).makeRoom Request.isRestartRelease nodes.length
    let t := room.1.setRoutine (nodes.map (fun n => .hail n.address cause) ++ room.1.tdl.routine)
    s.sweep cause = if room.2 = [] then t else t.placeReleases room.2 := by
  unfold State.sweep
  simp only [hold, Bool.false_eq_true, if_false, List.any_map, List.map_map, List.length_map, List.isEmpty_iff]
  rfl

theorem sweep_fits {s : State} (cause : Sweep) (hold : s.ntab.hold = false) :
    let nodes := s.ntab.nodes.filter NodeEntry.present
    let rest := s.tdl.routine.filter fun r => !nodes.any fun n => r.isHailTo n.address
    (s.setRoutine rest).routineEntries + nodes.length ≤ 24 →
      s.sweep cause = s.setRoutine (nodes.map (fun n => .hail n.address cause) ++ rest) := by
  intro nodes rest fits
  have eq := sweep_eq cause hold
  dsimp only at eq
  rw [makeRoom_fits (s := s.setRoutine rest) _ fits, if_pos rfl] at eq
  exact eq

/-! ### What is refused back (R17, R87, R127) -/

theorem setDrive_live {s : State} {h : Handle} {r : Record} (hl : s.live h = some r) (f : DriveState → DriveState) :
    s.setDrive h f = s.setRecord h { r with drive := r.drive.map f } := by
  unfold State.setDrive
  rw [hl]

/-- A Drive of a live record returns to the pending-drive set, with the output last placed set back. -/
theorem refuseDrive_live {s : State} {d : DriveReq} {r : Record} (hl : s.livePair d.handle d.gen = some r) :
    (s.refuseDrive d).record d.handle = some { r with drive := r.drive.map fun x => { x with lastPlaced := d.prior } }
    ∧ (s.refuseDrive d).agenda.drain = true ∧ (s.refuseDrive d).tdl = s.tdl
    ∧ (s.refuseDrive d).drt.pend = if s.pendHolds d.handle then s.drt.pend else s.drt.pend ++
        [{ handle := d.handle, gen := d.gen, word := d.word, time := s.now, urgent := false }] := by
  have holds : ∀ x, ((s.setRecord d.handle x).callDrain).pendHolds d.handle = s.pendHolds d.handle := fun _ => rfl
  unfold State.refuseDrive
  simp only [hl, setDrive_live (livePair_live hl), holds]
  split
  · exact ⟨setRecord_record s d.handle _, rfl, rfl, rfl⟩
  · exact ⟨setRecord_record s d.handle _, rfl, rfl, rfl⟩

/-- A retire Drive is to be placed again. -/
theorem refuseDrive_retired {s : State} {d : DriveReq} (hl : s.livePair d.handle d.gen = none) : s.refuseDrive d =
    if (s.slot d.handle).retireDrive = .placed then
      s.modifySlot d.handle fun x => { x with retireDrive := .unplaced d.address d.index d.word }
    else s := by
  unfold State.refuseDrive
  simp only [hl, beq_iff_eq]

theorem refuseProof_eq {s : State} {p : Proof} (hp : s.prv.proof = some p) :
    s.refuseProof = s.setProof (if p.stage = .draining then none else some { p with placed := false }) := by
  unfold State.refuseProof
  simp only [hp, beq_iff_eq]

theorem refuseBack_walk (s : State) (w : WalkReq) : s.refuseBack w.request = s.refuseBue w := by
  cases w <;> rfl

/-! ### The reclaim's events (R23, R24, R25) -/

/-- Settles O49. -/
theorem reclaimsAndRecoveries : Obligations.ReclaimsAndRecoveries := by
  refine ⟨fun s cause hold => ⟨sweep_eq cause hold, sweep_fits cause hold⟩, takeOutNewest_parts, fun s keep n => rfl,
    fun s d => ⟨fun r hl => refuseDrive_live hl, refuseDrive_retired⟩, fun s r => ⟨?proof, ?walk, ?others⟩, fun s l => ?releases,
    fun s cause => ?ready, enterFault_stoodStill, fun s hr => ⟨fun e hl hm => ?mark, fun m hw => ⟨?success, ?timeout⟩,
      fun hl hp he => ?recovery⟩⟩
  case proof =>
    rintro p hp (⟨a, i, rfl⟩ | ⟨a, i, h, g, rfl⟩)
    · exact refuseProof_eq hp
    · exact refuseProof_eq hp
  case walk =>
    rintro w rfl
    exact refuseBack_walk s w
  case others =>
    rintro (⟨a, x, rfl⟩ | ⟨a, rfl⟩)
    · rfl
    · rfl
  case releases =>
    obtain ⟨a, b, placed, parts, before, behind⟩ := placeBehind_parts l
      (s.makeRoom (fun r => r.aheadOfCut || r.isRestartRelease) l.length).1.tdl.routine
    refine ⟨a, b, parts, before, behind, ?_⟩
    rw [← placed]
    rfl
  case ready =>
    have runs := unfreeze_runsOn { s with tdl := { s.tdl with
      line := .ready, yieldEnds := none, reclaim := .idle, faultEnds := none } }
    unfold State.enterReady
    dsimp only
    unfold State.setTdl
    generalize State.unfreeze _ = u at runs
    simp only [beq_iff_eq]
    exact ⟨trivial, runs⟩
  case mark =>
    have run : exec .reclaimMarkEnd s = .next (((s.advanceTo e).restartGap.setTdl
        { (s.advanceTo e).restartGap.tdl with reclaim := .watch (max s.now e) }).finish false) := by
      show runEvent s (match s.tdl.reclaim with
        | .mark e => some ((s.advanceTo e).restartGap.setTdl
            { (s.advanceTo e).restartGap.tdl with reclaim := .watch (s.advanceTo e).restartGap.now })
        | _ => none) = _
      rw [hm, runEvent_some hr]
      rfl
    refine ⟨_, run, ?_⟩
    generalize hu : (s.advanceTo e).restartGap.setTdl
      { (s.advanceTo e).restartGap.tdl with reclaim := .watch (max s.now e) } = u
    have line : u.tdl.line = .reclaiming := by rw [← hu]; exact hl
    obtain ⟨hline, -, -, -, -, -, reclaim, -⟩ := finish_line u false (by rw [line]; decide)
    refine ⟨hline.trans line, reclaim.trans (by rw [← hu]; rfl), (finish_fixed u false).trans (by rw [← hu]; rfl)⟩
  case success =>
    have run : exec .reclaimSuccess s = .next
        ((((s.advanceTo (m + ms 1)).advanceTo s.tdl.gapEnds).enterReady .reclaim).finish false) := by
      show runEvent s (match s.tdl.reclaim with
        | .watch m => some (((s.advanceTo (m + ms 1)).advanceTo s.tdl.gapEnds).enterReady .reclaim)
        | _ => none) = _
      rw [hw, runEvent_some hr]
    obtain ⟨line, fixed⟩ := enterReady_finish ((s.advanceTo (m + ms 1)).advanceTo s.tdl.gapEnds) .reclaim
    exact ⟨_, run, line, rfl, fixed⟩
  case timeout =>
    have run : exec .reclaimTimeout s = .next ((s.advanceTo (m + ms 20)).enterFault.finish false) := by
      show runEvent s (match s.tdl.reclaim with
        | .watch m => some (s.advanceTo (m + ms 20)).enterFault
        | _ => none) = _
      rw [hw, runEvent_some hr]
    obtain ⟨line, -, reclaim, ends, flag, -⟩ := enterFault_finish (s.advanceTo (m + ms 20))
    refine ⟨_, run, rfl, line, reclaim, ends, flag, ?_⟩
    rw [finish_fixed, enterFault_fixed]
    rfl
  case recovery =>
    have run : exec .lineRecovery s = .next (((s.advanceTo s.tdl.gapEnds).enterReady .fault).finish false) := by
      show runEvent s (if s.tdl.line == .fault && s.tdl.linePresent && s.tdl.faultEnds.isSome then
        some ((s.advanceTo s.tdl.gapEnds).enterReady .fault) else none) = _
      rw [if_pos (by simp [hl, hp, he]), runEvent_some hr]
    obtain ⟨line, fixed⟩ := enterReady_finish (s.advanceTo s.tdl.gapEnds) .fault
    exact ⟨_, run, line, rfl, fixed⟩

end Sys2Proof.Machine

namespace Sys2Proof.Machine

/-! ### The two classes (R14, R15, R16) -/

/-- Whether the request in flight keeps an entry of a class for a predicate (R14). -/
def Tdl.flying (t : Tdl) (urgent : Bool) (p : Request → Bool) : Nat :=
  match t.inFlight with
  | some f => if f.urgent = urgent ∧ p f.req = true then 1 else 0
  | none => 0

theorem urgentOf_eq (t : Tdl) (p : Request → Bool) : t.urgentOf p = (t.urgent.filter p).length + t.flying true p := by
  unfold Tdl.urgentOf Tdl.flying
  rw [List.countP_eq_length_filter]
  cases t.inFlight with
  | none => rfl
  | some f => simp only [Bool.and_eq_true]

theorem routineOf_eq (t : Tdl) (p : Request → Bool) : t.routineOf p = (t.routine.filter p).length + t.flying false p := by
  unfold Tdl.routineOf Tdl.flying
  rw [List.countP_eq_length_filter]
  cases t.inFlight with
  | none => rfl
  | some f => simp only [Bool.and_eq_true, Bool.not_eq_true']

theorem queued_iff {s : State} {p : Request → Bool} : s.queued p = true ↔ ∃ r, p r = true
    ∧ (r ∈ s.tdl.urgent ∨ r ∈ s.tdl.routine ∨ ∃ f, s.tdl.inFlight = some f ∧ f.req = r) := by
  have flying : s.inFlightIs p = true ↔ ∃ f, s.tdl.inFlight = some f ∧ p f.req = true := by
    unfold State.inFlightIs
    cases s.tdl.inFlight <;> simp
  unfold State.queued
  simp only [Bool.or_eq_true, List.any_eq_true, flying]
  constructor
  · rintro ((⟨r, hr, hp⟩ | ⟨r, hr, hp⟩) | ⟨f, hf, hp⟩)
    · exact ⟨r, hp, .inl hr⟩
    · exact ⟨r, hp, .inr (.inl hr)⟩
    · exact ⟨f.req, hp, .inr (.inr ⟨f, hf, rfl⟩)⟩
  · rintro ⟨r, hp, hr | hr | ⟨f, hf, rfl⟩⟩
    · exact .inl (.inl ⟨r, hr, hp⟩)
    · exact .inl (.inr ⟨r, hr, hp⟩)
    · exact .inr ⟨f, hf, hp⟩

theorem claimRoutine_eq (s : State) (r : Request) : s.claimRoutine r =
    if s.tdl.line = .down then (s, .down)
    else if s.routineEntries < 24 then (s.setRoutine (s.tdl.routine ++ [r]), .taken) else (s, .full) := by
  unfold State.claimRoutine
  simp only [beq_iff_eq]
  rfl

theorem claimMark_eq (s : State) (m : BitVec 4) (on : Bool) : s.claimMark m on =
    if s.tdl.line ≠ .ready ∧ s.tdl.line ≠ .busy then (s, .down)
    else if s.urgentEntries < 8 then (s.setUrgent (s.tdl.urgent ++ [.phaseMark m on]), .taken) else (s, .full) := by
  unfold State.claimMark State.lineRuns
  refine if_congr ?_ rfl rfl
  cases s.tdl.line <;> simp

/-- A Drive for a handle. -/
theorem isDriveFor_iff {h : Handle} {r : Request} : r.isDriveFor h = true ↔ ∃ x : DriveReq, r = .drive x ∧ x.handle = h := by
  cases r <;> simp [Request.isDriveFor]

theorem any_isDriveFor {h : Handle} {l : List Request} :
    l.any (Request.isDriveFor h) = true ↔ ∃ x : DriveReq, .drive x ∈ l ∧ x.handle = h := by
  simp only [List.any_eq_true, isDriveFor_iff]
  constructor
  · rintro ⟨r, hr, x, rfl, hx⟩
    exact ⟨x, hr, hx⟩
  · rintro ⟨x, hr, hx⟩
    exact ⟨_, hr, x, rfl, hx⟩

theorem inFlightIs_isDriveFor {s : State} {h : Handle} : s.inFlightIs (Request.isDriveFor h) = true ↔
    ∃ f x, s.tdl.inFlight = some f ∧ f.req = .drive x ∧ x.handle = h := by
  unfold State.inFlightIs
  cases s.tdl.inFlight with
  | none => simp
  | some f => simp [isDriveFor_iff]

/-- A waiting Drive for the handle carries the word claimed (R16). -/
theorem mergeWord_eq (h : Handle) (w : OutWord) (l : List Request) : mergeWord h w l = l.map fun r => match r with
    | .drive x => if x.handle = h then .drive { x with word := w } else r
    | _ => r := by
  unfold mergeWord
  refine List.map_congr_left fun r _ => ?_
  cases r with
  | drive x => simp only [beq_iff_eq]
  | _ => rfl

section
variable {s : State} {d : DriveReq}

theorem claimDrive_down (h : s.tdl.line = .down) (u : Bool) : s.claimDrive d u = (s, .down) := by
  unfold State.claimDrive
  rw [if_pos (by rw [h]; rfl)]

theorem claimDrive_inFlight (hd : s.tdl.line ≠ .down)
    (h : ∃ f x, s.tdl.inFlight = some f ∧ f.req = .drive x ∧ x.handle = d.handle) (u : Bool) :
    s.claimDrive d u = (s, .inFlight) := by
  unfold State.claimDrive
  rw [if_neg (by simpa using hd), if_pos (inFlightIs_isDriveFor.mpr h)]

theorem claimDrive_urgent (hd : s.tdl.line ≠ .down)
    (hf : ¬ ∃ f x, s.tdl.inFlight = some f ∧ f.req = .drive x ∧ x.handle = d.handle)
    (h : ∃ x : DriveReq, .drive x ∈ s.tdl.urgent ∧ x.handle = d.handle) (u : Bool) :
    s.claimDrive d u = (s.setUrgent (mergeWord d.handle d.word s.tdl.urgent), .merged) := by
  unfold State.claimDrive
  rw [if_neg (by simpa using hd), if_neg (mt inFlightIs_isDriveFor.mp hf), if_pos (any_isDriveFor.mpr h)]

theorem claimDrive_routine (hd : s.tdl.line ≠ .down)
    (hf : ¬ ∃ f x, s.tdl.inFlight = some f ∧ f.req = .drive x ∧ x.handle = d.handle)
    (hu : ¬ ∃ x : DriveReq, .drive x ∈ s.tdl.urgent ∧ x.handle = d.handle)
    (h : ∃ x : DriveReq, .drive x ∈ s.tdl.routine ∧ x.handle = d.handle) (u : Bool) :
    s.claimDrive d u = (s.setRoutine (mergeWord d.handle d.word s.tdl.routine), .merged) := by
  unfold State.claimDrive
  rw [if_neg (by simpa using hd), if_neg (mt inFlightIs_isDriveFor.mp hf), if_neg (mt any_isDriveFor.mp hu),
    if_pos (any_isDriveFor.mpr h)]

theorem claimDrive_new (hd : s.tdl.line ≠ .down)
    (hf : ¬ ∃ f x, s.tdl.inFlight = some f ∧ f.req = .drive x ∧ x.handle = d.handle)
    (hu : ¬ ∃ x : DriveReq, .drive x ∈ s.tdl.urgent ∧ x.handle = d.handle)
    (hr : ¬ ∃ x : DriveReq, .drive x ∈ s.tdl.routine ∧ x.handle = d.handle) (u : Bool) : s.claimDrive d u =
      if u = true then
        if s.urgentDriveEntries < 6 ∧ s.urgentEntries < 8 then (s.setUrgent (s.tdl.urgent ++ [.drive d]), .taken)
        else (s, .full)
      else if s.routineEntries < 24 then (s.setRoutine (s.tdl.routine ++ [.drive d]), .taken) else (s, .full) := by
  unfold State.claimDrive
  rw [if_neg (by simpa using hd), if_neg (mt inFlightIs_isDriveFor.mp hf), if_neg (mt any_isDriveFor.mp hu),
    if_neg (mt any_isDriveFor.mp hr)]
  rfl

end

/-! ### The arbiter (R18) -/

/-- A grant: the line is BUSY with the first attempt of the request. -/
theorem grant_line (s : State) (r : Request) (u : Bool) : (s.grant r u).tdl.line = .busy
    ∧ (s.grant r u).tdl.urgent = s.tdl.urgent ∧ (s.grant r u).tdl.routine = s.tdl.routine
    ∧ (s.grant r u).tdl.urgentRun = s.tdl.urgentRun
    ∧ ∃ f, (s.grant r u).tdl.inFlight = some f ∧ f.req = r ∧ f.urgent = u ∧ f.second = false := by
  unfold State.grant State.startIfIdle
  dsimp only
  split
  · rw [startAttempt_first _ rfl]
    exact ⟨rfl, rfl, rfl, rfl, _, rfl, rfl, rfl, rfl⟩
  · exact ⟨rfl, rfl, rfl, rfl, _, rfl, rfl, rfl, rfl⟩

theorem arbitrate_granted {s : State} {r : Request} {u : Bool} {us rs : List Request} {count : Nat}
    (h : s.arbitrate = ({ s with tdl := { s.tdl with urgent := us, routine := rs, urgentRun := count } } : State).grant r u) :
    s.granted s.arbitrate r u us rs count := by
  obtain ⟨line, urgent, routine, run, f, hf, req, class', second⟩ :=
    grant_line { s with tdl := { s.tdl with urgent := us, routine := rs, urgentRun := count } } r u
  have fixed : s.arbitrate.fixed = s.fixed := (arbitrate_moves (ad := false) .nil).fixed
  refine ⟨?_, ?_, ?_, ?_, fixed, f, ?_, req, class', second⟩
  · rw [h, line]
  · rw [h, urgent]
  · rw [h, routine]
  · rw [h, run]
  · rw [h, hf]

theorem arbitrate_idle {s : State}
    (h : s.tdl.line ≠ .ready ∨ s.tdl.inFlight ≠ none ∨ s.tdl.urgent = [] ∧ s.tdl.routine = []) : s.arbitrate = s := by
  unfold State.arbitrate
  rcases h with h | h | ⟨hu, hr⟩
  · rw [if_neg (by simp [h])]
  · rw [if_neg (by simp [h])]
  · split
    · simp only [hu, hr]
    · rfl

/-- The urgent head goes first, while no routine request has waited through eight urgent grants. -/
theorem arbitrate_urgent {s : State} (hl : s.tdl.line = .ready) (hf : s.tdl.inFlight = none) {u : Request}
    {us : List Request} (hu : s.tdl.urgent = u :: us) (hr : s.tdl.routine = [] ∨ s.tdl.urgentRun < 8) :
    s.granted s.arbitrate u true us s.tdl.routine (if s.tdl.routine = [] then 0 else s.tdl.urgentRun + 1) := by
  refine arbitrate_granted ?_
  unfold State.arbitrate
  rw [if_pos (by simp [hl, hf])]
  cases q : s.tdl.routine with
  | nil => simp only [hu, q, if_true]
  | cons r rs =>
      have few : ¬ Config.fairness ≤ s.tdl.urgentRun := Nat.not_le.mpr (hr.resolve_left (by simp [q]))
      simp only [hu, q, if_neg few, reduceCtorEq, if_false]

/-- The routine head goes, where no urgent request waits or eight have gone before it. -/
theorem arbitrate_routine {s : State} (hl : s.tdl.line = .ready) (hf : s.tdl.inFlight = none) {r : Request}
    {rs : List Request} (hr : s.tdl.routine = r :: rs) (hu : s.tdl.urgent = [] ∨ 8 ≤ s.tdl.urgentRun) :
    s.granted s.arbitrate r false s.tdl.urgent rs 0 := by
  refine arbitrate_granted ?_
  unfold State.arbitrate
  rw [if_pos (by simp [hl, hf])]
  cases q : s.tdl.urgent with
  | nil => simp only [hr, q]
  | cons u us =>
      have many : Config.fairness ≤ s.tdl.urgentRun := hu.resolve_left (by simp [q])
      simp only [hr, q, if_pos many]

/-! ### Attempts begun (R7, R8, R10, R12) -/

/-- The second attempt of a Drive carries the pending entry's word, which leaves the set and is placed (R12). -/
theorem secondWord_pending {s : State} {d : DriveReq} {p : Pend}
    (h : s.drt.pend.find? (fun q => q.handle == d.handle) = some p) : ∃ v, s.secondWord (.drive d) = (v, .drive { d with word := p.word })
    ∧ v.tdl = s.tdl ∧ v.now = s.now ∧ v.drt.pend = s.drt.pend.filter (fun q => !(q.handle == d.handle))
    ∧ v.windowOf (.drive { d with word := p.word }) = s.windowOf (.drive d) ∧ v.fixed = s.fixed
    ∧ ∀ x, s.live d.handle = some x → v.record d.handle = some { x with
        drive := x.drive.map fun y => { y with lastPlaced := some p.word } } := by
  have same : ({ s with drt := { s.drt with pend := s.drt.pend.filter fun q => !(q.handle == d.handle) } } : State).live d.handle
      = s.live d.handle := rfl
  unfold State.secondWord
  simp only [h, same]
  cases s.live d.handle with
  | none => exact ⟨_, rfl, rfl, rfl, rfl, rfl, rfl, fun x q => by cases q⟩
  | some x =>
      refine ⟨_, rfl, rfl, rfl, rfl, rfl, rfl, fun y q => ?_⟩
      cases q
      exact setRecord_record ..

theorem secondWord_other {s : State} {r : Request} (h : ∀ d, r = .drive d → s.pendHolds d.handle = false) :
    s.secondWord r = (s, r) := by
  unfold State.secondWord
  split
  · next d =>
      have none : s.drt.pend.find? (fun q => q.handle == d.handle) = none :=
        List.find?_eq_none.mpr fun q hq => by simpa using List.any_eq_false.mp (h d rfl) q hq
      rw [none]
  · rfl

/-- The second attempt of a Drive whose handle has a pending entry. -/
theorem startAttempt_pending {s : State} {f : InFlight} {d : DriveReq} {p : Pend} (h2 : f.second = true)
    (hd : f.req = .drive d) (h : s.drt.pend.find? (fun q => q.handle == d.handle) = some p) :
    let r : Request := .drive { d with word := p.word }
    (s.startAttempt f).tdl.frame = r.frame f.seq
    ∧ (s.startAttempt f).tdl.inFlight = some { f with
        req := r, window := s.windowOf f.req, stage := .sending (s.now + 25) }
    ∧ (s.startAttempt f).tdl.line = s.tdl.line
    ∧ (s.startAttempt f).drt.pend = s.drt.pend.filter (fun q => !(q.handle == d.handle))
    ∧ (s.startAttempt f).fixed = s.fixed
    ∧ ∀ x, s.live d.handle = some x → (s.startAttempt f).record d.handle = some { x with
        drive := x.drive.map fun y => { y with lastPlaced := some p.word } } := by
  obtain ⟨v, eq, tdl, now, pend, window, fixed, record⟩ := secondWord_pending h
  have start : s.startAttempt f = { v with tdl := { v.tdl with
      inFlight := some { f with
        req := .drive { d with word := p.word }, window := s.windowOf f.req, stage := .sending (s.now + 25) }
      frame := Request.frame (.drive { d with word := p.word }) f.seq
      stray := false } } := by
    unfold State.startAttempt
    simp only [h2, if_true, hd, eq]
    rw [window, now]
    rfl
  rw [start]
  refine ⟨rfl, rfl, ?_, pend, fixed, record⟩
  show v.tdl.line = _
  rw [tdl]

/-- Any other attempt: a first one with the address's next bit, a second with the bit of the first. -/
theorem startAttempt_plain {s : State} {f : InFlight}
    (h : f.second = true → ∀ d, f.req = .drive d → s.pendHolds d.handle = false) :
    let seq := if f.second then f.seq else s.seqOf f.req
    s.startAttempt f = { s with tdl := { s.tdl with
      inFlight := some { f with
        seq := seq, window := s.windowOf f.req, stage := .sending (s.now + 5 * (f.req.frame seq).length) }
      frame := f.req.frame seq
      stray := false } } := by
  dsimp only
  by_cases h2 : f.second = true
  · rw [if_pos h2]
    unfold State.startAttempt
    simp only [h2, if_true, secondWord_other (h h2)]
    rfl
  · rw [if_neg h2]
    exact startAttempt_first s (by simpa using h2)

/-- The gap has passed with an attempt due: it begins (R10). -/
theorem gapEnd_begins {s : State} {f : InFlight} (hr : s.hcp.inReset = false) (hl : s.tdl.line = .busy)
    (ho : s.tdl.orphan = none) (hf : s.tdl.inFlight = some f) (hs : f.stage = .due) :
    exec .gapEnd s = .next (((s.advanceTo s.tdl.gapEnds).startAttempt f).finish false) := by
  have awaited : s.gapAwaited = true := by
    unfold State.gapAwaited
    simp [hl, ho, hf, hs]
  have late : (s.advanceTo s.tdl.gapEnds).tdl.gapEnds ≤ (s.advanceTo s.tdl.gapEnds).now := Nat.le_max_right ..
  have passed : (s.advanceTo s.tdl.gapEnds).gapPassed = (s.advanceTo s.tdl.gapEnds).startAttempt f := by
    unfold State.gapPassed State.startIfIdle
    rw [if_pos (by simp [State.advanceTo, hl, ho])]
    simp only [show (s.advanceTo s.tdl.gapEnds).tdl.inFlight = some f from hf]
    rw [if_pos (by simp only [hs, decide_eq_true late]; rfl)]
  show runEvent s (if s.gapAwaited then some (s.advanceTo s.tdl.gapEnds).gapPassed else none) = _
  rw [if_pos awaited, passed, runEvent_some hr]

/-- The gap has passed with no request in flight: the line is READY again (R18). -/
theorem gapEnd_ready {s : State} (hr : s.hcp.inReset = false) (hl : s.tdl.line = .busy) (ho : s.tdl.orphan = none)
    (hf : s.tdl.inFlight = none) : exec .gapEnd s = .next ((s.advanceTo s.tdl.gapEnds).readyAgain.finish false) := by
  have awaited : s.gapAwaited = true := by
    unfold State.gapAwaited
    simp [hl, ho, hf]
  have passed : (s.advanceTo s.tdl.gapEnds).gapPassed = (s.advanceTo s.tdl.gapEnds).readyAgain := by
    unfold State.gapPassed
    rw [if_pos (by simp [State.advanceTo, hl, ho])]
    simp only [show (s.advanceTo s.tdl.gapEnds).tdl.inFlight = none from hf]
  show runEvent s (if s.gapAwaited then some (s.advanceTo s.tdl.gapEnds).gapPassed else none) = _
  rw [if_pos awaited, passed, runEvent_some hr]

/-- Settles O50. -/
theorem gapEndBeginsAttempts : Obligations.GapEndBeginsAttempts := by
  refine ⟨fun s p => ?counts, claimRoutine_eq, claimMark_eq, fun s d u => ⟨fun h => claimDrive_down h u, fun hd => ?drives⟩,
    fun s => arbitrate_idle, fun s hl hf => ⟨fun u us => arbitrate_urgent hl hf, fun r rs => arbitrate_routine hl hf⟩,
    fun s hr hl ho => ⟨fun hf => ?ready, fun f d p hf hs h2 hd hp => ?pending, fun f hf hs h => ?plain⟩⟩
  case counts =>
    have all : ∀ l : List Request, (l.filter fun _ => true).length = l.length := fun l => by rw [List.filter_true]
    refine ⟨?_, ?_, urgentOf_eq s.tdl Request.isDrive, queued_iff⟩
    · exact (urgentOf_eq s.tdl fun _ => true).trans (by rw [all]; rfl)
    · exact (routineOf_eq s.tdl fun _ => true).trans (by rw [all]; rfl)
  case drives =>
    exact ⟨fun h => claimDrive_inFlight hd h u,
      fun hf h => (claimDrive_urgent hd hf h u).trans (by rw [mergeWord_eq] <;> rfl),
      fun hf hu h => (claimDrive_routine hd hf hu h u).trans (by rw [mergeWord_eq] <;> rfl),
      fun hf hu hr => claimDrive_new hd hf hu hr u⟩
  case ready =>
    have line : (s.advanceTo s.tdl.gapEnds).readyAgain.tdl.line = .ready := rfl
    exact ⟨_, gapEnd_ready hr hl ho hf, finish_ready _ _ line, finish_fixed _ _⟩
  case pending =>
    obtain ⟨frame, flight, -, pend, fixed, record⟩ := startAttempt_pending (s := s.advanceTo s.tdl.gapEnds) h2 hd hp
    exact ⟨_, gapEnd_begins hr hl ho hf hs, frame, flight, pend, record, fixed⟩
  case plain =>
    have start := startAttempt_plain (s := s.advanceTo s.tdl.gapEnds) h
    have begins := gapEnd_begins hr hl ho hf hs
    generalize (s.advanceTo s.tdl.gapEnds).startAttempt f = u at start begins
    have busy : u.tdl.line = .busy := by rw [start]; exact hl
    obtain ⟨line, flight, -, frame, -⟩ := finish_line u false (by rw [busy]; decide)
    refine ⟨_, begins, line.trans busy, frame.trans ?_, flight.trans ?_, (finish_fixed u false).trans ?_⟩
    · rw [start]
      rfl
    · rw [start]
      rfl
    · rw [start]
      rfl

end Sys2Proof.Machine

namespace Sys2Proof.Machine

/-! ### Checks of frames (R212) -/

/-- One more byte is folded into the check bit by bit. -/
theorem frameCheck_append (b : List Byte) (x : Byte) : frameCheck (b ++ [x]) = crc8Byte (frameCheck b) x := by
  unfold frameCheck
  rw [List.foldl_append]
  rfl

theorem crc8Byte_eq (c x : Byte) : crc8Byte c x =
    (List.range 8).foldl (fun (c : Byte) _ => (c <<< 1) ^^^ if c.msb then 0x07 else 0) (c ^^^ x) := by
  have step : ∀ c : Byte, crc8Step c = (c <<< 1) ^^^ if c.msb then 0x07 else 0 := by
    intro c
    unfold crc8Step
    split
    · rfl
    · exact (BitVec.xor_zero).symm
  unfold crc8Byte
  simp only [step]
  rfl

/-- The check of a frame with its check is 0. -/
theorem frameCheck_self (b : List Byte) : frameCheck (b ++ [frameCheck b]) = 0 := by
  rw [frameCheck_append]
  unfold crc8Byte
  rw [BitVec.xor_self]
  rfl

/-! ### Reply windows (R8, R9) -/

/-- An address finds the one entry that holds it. -/
theorem find_address {s : State} {n : NodeEntry} (k : s.ntab.nodesKept) (hn : n ∈ s.ntab.nodes) :
    s.ntab.nodes.find? (fun m => m.address == n.address) = some n := by
  cases found : s.ntab.nodes.find? fun m => m.address == n.address with
  | none => exact absurd (List.find?_eq_none.mp found n hn) (by simp)
  | some m =>
      have same : m.address = n.address := by simpa using List.find?_some found
      rw [List.inj_on_of_nodup_map k.1 (List.mem_of_find?_eq_some found) hn same]

theorem windowOf_node {s : State} {r : Request} {n : NodeEntry} (k : s.ntab.nodesKept) (hn : n ∈ s.ntab.nodes)
    (hr : r.address = some n.address) : s.windowOf r = s.unitWindow n.unit := by
  unfold State.windowOf
  simp only [hr, find_address k hn]

theorem address_of_destination {r : Request} (h : r.destination = 0) : r.address = none := by
  cases r with
  | probe | assign | releaseAll | phaseMark => rfl
  | _ => exact absurd h (Nat.succ_ne_zero _)

theorem windowOf_zero (s : State) {r : Request} (h : r.destination = 0) : s.windowOf r = s.zeroWindow := by
  unfold State.windowOf
  rw [address_of_destination h]

/-- The largest element of a list that is not empty. -/
theorem foldl_max (es : List Nat) (e : Nat) : es.foldl max e ∈ e :: es ∧ ∀ x ∈ e :: es, x ≤ es.foldl max e := by
  induction es generalizing e with
  | nil => simp
  | cons y es ih =>
      obtain ⟨mem, le⟩ := ih (max e y)
      rw [List.foldl_cons]
      have base := le (max e y) List.mem_cons_self
      refine ⟨?_, fun x hx => ?_⟩
      · rcases List.mem_cons.mp mem with h | h
        · rw [h]
          rcases max_choice e y with q | q <;> rw [q] <;> simp
        · simp [h]
      · rcases List.mem_cons.mp hx with rfl | hx
        · omega
        · rcases List.mem_cons.mp hx with rfl | hx
          · omega
          · exact le x (List.mem_cons_of_mem _ hx)

/-- No entry in the unit: 4 ms. -/
theorem autoWindow_empty {s : State} {unit : Nat} (h : ∀ n ∈ s.ntab.nodes, n.unit ≠ unit) : s.autoWindow unit = 4 := by
  have none : s.ntab.nodes.filter (fun n => n.unit = unit) = [] :=
    List.filter_eq_nil_iff.mpr fun n hn => by simpa using h n hn
  unfold State.autoWindow
  rw [none]
  rfl

/-- The window of a unit that has entries, by its largest echo delay. -/
theorem autoWindow_largest {s : State} {unit : Nat} (h : ∃ n ∈ s.ntab.nodes, n.unit = unit) : ∃ m ∈ s.ntab.nodes,
    m.unit = unit ∧ (∀ n ∈ s.ntab.nodes, n.unit = unit → n.echo ≤ m.echo)
    ∧ s.autoWindow unit = min 12 (max 2 ((m.echo + 20 + 9) / 10)) := by
  have member : ∀ x, x ∈ (s.ntab.nodes.filter fun n => n.unit = unit).map (·.echo) ↔
      ∃ n ∈ s.ntab.nodes, n.unit = unit ∧ n.echo = x := by
    intro x
    simp [and_assoc]
  unfold State.autoWindow
  cases q : (s.ntab.nodes.filter fun n => n.unit = unit).map (·.echo) with
  | nil =>
      obtain ⟨n, hn, hu⟩ := h
      have := (member n.echo).mpr ⟨n, hn, hu, rfl⟩
      rw [q] at this
      cases this
  | cons e es =>
      rw [q] at member
      obtain ⟨mem, le⟩ := foldl_max es e
      obtain ⟨m, hm, hu, echo⟩ := (member _).mp mem
      exact ⟨m, hm, hu, fun n hn q => echo ▸ le _ ((member _).mpr ⟨n, hn, q, rfl⟩), by rw [echo]⟩

/-- The AUTO window of a unit: its largest echo delay and 2 ms, rounded up, within 2 to 12 ms (R9). -/
theorem autoWindow_bounds {s : State} {unit : Nat} (echo : ∀ n ∈ s.ntab.nodes, n.echo ≤ 100)
    (h : ∃ n ∈ s.ntab.nodes, n.unit = unit) : 2 ≤ s.autoWindow unit ∧ s.autoWindow unit ≤ 12
      ∧ (∀ n ∈ s.ntab.nodes, n.unit = unit → n.echo + ms 2 ≤ ms (s.autoWindow unit))
      ∧ (s.autoWindow unit = 2 ∨ ∃ n ∈ s.ntab.nodes, n.unit = unit ∧ ms (s.autoWindow unit - 1) < n.echo + ms 2) := by
  obtain ⟨m, hm, hu, largest, eq⟩ := autoWindow_largest h
  have few := echo m hm
  have tenths : ∀ x, ms x = 10 * x := fun x => rfl
  generalize s.autoWindow unit = w at eq
  simp only [tenths]
  refine ⟨by omega, by omega, fun n hn q => ?_, ?_⟩
  · have := largest n hn q
    omega
  · by_cases two : w = 2
    · exact .inl two
    · exact .inr ⟨m, hm, hu, by omega⟩

/-! ### The end of a first attempt (R11) -/

/-- With no yield due the second attempt is due, and the line goes on as it was. -/
theorem endAttempt_retries {s : State} {f : InFlight} {o : ReqOutcome} (hl : s.tdl.line = .busy) (hf : f.second = false)
    (ho : o.retried = true) (hy : s.tdl.yieldDue = false) : ((s.endAttempt f o).finish false).tdl.line = .busy
    ∧ ((s.endAttempt f o).finish false).tdl.gapEnds = s.tdl.gapEnds
    ∧ ((s.endAttempt f o).finish false).tdl.inFlight = some { f with second := true, stage := .due }
    ∧ ((s.endAttempt f o).finish false).fixed = s.fixed := by
  rw [endAttempt_first s hf ho]
  have still := onAttemptEnd_still (s.setInFlight (some { f with second := true, stage := .due }))
  generalize (s.setInFlight (some { f with second := true, stage := .due })).onAttemptEnd = u at still
  have line : u.tdl.line = .busy := (still_line still).trans hl
  rw [yieldIfDue_none ((still_yieldDue still).trans hy)]
  obtain ⟨hline, flight, -⟩ := finish_line u false (by rw [line]; decide)
  obtain ⟨-, gap⟩ := finish_stray u false (by rw [line]; decide)
  have gapKept : u.tdl.gapEnds = s.tdl.gapEnds := (still_gapEnds still).trans rfl
  have fixed : u.fixed = s.fixed := (still_fixed still).trans rfl
  exact ⟨hline.trans line, gap.trans gapKept, flight.trans (still_inFlight still), (finish_fixed u false).trans fixed⟩

theorem failedOutcome_noReply (r : Request) : r.failedOutcome .noReply = .noReply := by
  cases r <;> rfl

/-! ### The end of a frame and of a window (R10) -/

theorem frameEnd_orphan {s : State} {e : Nat} (hr : s.hcp.inReset = false) (ho : s.tdl.orphan = some e) :
    exec .frameEnd s = .next (((s.advanceTo e).orphanDone).finish false) := by
  show runEvent s (match s.tdl.orphan, s.tdl.inFlight with
    | some e, _ => some (s.advanceTo e).orphanDone
    | none, some f =>
        match f.stage with
        | .sending e => some ((s.advanceTo e).frameDone f)
        | _ => none
    | none, none => none) = _
  rw [ho]
  exact runEvent_some hr _

theorem frameEnd_sent {s : State} {f : InFlight} {e : Nat} (hr : s.hcp.inReset = false) (ho : s.tdl.orphan = none)
    (hf : s.tdl.inFlight = some f) (hs : f.stage = .sending e) :
    exec .frameEnd s = .next (((s.advanceTo e).frameDone f).finish false) := by
  show runEvent s (match s.tdl.orphan, s.tdl.inFlight with
    | some e, _ => some (s.advanceTo e).orphanDone
    | none, some f =>
        match f.stage with
        | .sending e => some ((s.advanceTo e).frameDone f)
        | _ => none
    | none, none => none) = _
  rw [ho, hf]
  dsimp only
  rw [hs]
  exact runEvent_some hr _

theorem replyWindowEnd_taken {s : State} {f : InFlight} {a b e : Nat} (hr : s.hcp.inReset = false)
    (hf : s.tdl.inFlight = some f) (hs : f.stage = .window a b e) :
    exec .replyWindowEnd s = .next ((((s.advanceTo e).restartGap).endAttempt f .noReply).finish false) := by
  show runEvent s (match s.tdl.inFlight with
    | some f =>
        match f.stage with
        | .window _ _ ends => some (((s.advanceTo ends).restartGap).endAttempt f .noReply)
        | _ => none
    | none => none) = _
  rw [hf]
  dsimp only
  rw [hs]
  exact runEvent_some hr _

theorem orphanDone_eq (s : State) (e : Nat) : (s.advanceTo e).orphanDone = State.onAttemptEnd { s with
    now := max s.now e, tdl := { s.tdl with orphan := none, gapEnds := max s.now e + ms 1 } } :=
  congrArg State.onAttemptEnd rfl

/-- The frame of an abandoned request has ended (R20; log entry 48). -/
theorem orphanDone_finish {s : State} {e : Nat} (hl : s.tdl.line = .busy) (hf : s.tdl.inFlight = none) :
    let t := ((s.advanceTo e).orphanDone).finish false
    t.tdl.line = .busy ∧ t.tdl.inFlight = none ∧ t.tdl.orphan = none ∧ t.tdl.gapEnds = max s.now e + ms 1
    ∧ t.fixed = { s.fixed with now := max s.now e } := by
  unfold State.orphanDone
  obtain ⟨v, hv⟩ : ∃ v, ((s.advanceTo e).setTdl { (s.advanceTo e).tdl with orphan := none }).restartGap = v := ⟨_, rfl⟩
  rw [hv]
  have still := onAttemptEnd_still v
  generalize v.onAttemptEnd = u at still
  have line : u.tdl.line = .busy := (still_line still).trans (by rw [← hv]; exact hl)
  obtain ⟨hline, flight, orphan, -⟩ := finish_line u false (by rw [line]; decide)
  obtain ⟨-, gap⟩ := finish_stray u false (by rw [line]; decide)
  refine ⟨hline.trans line, flight.trans ((still_inFlight still).trans ?_), orphan.trans ((congrArg Still.orphan still).trans ?_),
    gap.trans ((still_gapEnds still).trans ?_), (finish_fixed u false).trans ((still_fixed still).trans ?_)⟩
  · rw [← hv]
    exact hf
  all_goals
    rw [← hv]
    rfl

/-- Settles O51. -/
theorem framesAndWindowsEnd : Obligations.FramesAndWindowsEnd := by
  refine ⟨fun r seq => ?layout, ⟨rfl, fun b x => ⟨?check, frameCheck_self b⟩⟩, fun s r n k hn hr => ?node,
    fun s r h => windowOf_zero s h, fun s unit echo => ⟨autoWindow_empty, autoWindow_bounds echo⟩,
    fun s e hr ho => ⟨(frameEnd_orphan hr ho).trans (by rw [orphanDone_eq]), fun hl hf => ⟨_, frameEnd_orphan hr ho, orphanDone_finish hl hf⟩⟩,
    fun s f hr hl ho hf => ⟨fun e hs => ⟨fun ha opens hopens => ?opens, fun ha => ?sent⟩, fun a b e hs =>
      ⟨fun h2 hy => ?retried, fun h2 hy => ?yields, fun h2 => ?decided⟩⟩⟩
  case layout =>
    cases r with
    | drive d =>
        obtain ⟨a, i, h, g, w, p⟩ := d
        cases w with
        | flash c => cases c <;> rfl
        | _ => rfl
    | _ => rfl
  case check =>
    rw [frameCheck_append, crc8Byte_eq]
  case node =>
    exact windowOf_node k hn hr
  case opens =>
    have done : (s.advanceTo e).frameDone f = (s.advanceTo e).restartGap.setInFlight
        (some { f with stage := .window (max s.now e) opens (opens + ms f.window) }) := by
      unfold State.frameDone
      rw [hopens]
      exact if_pos ha
    have ends := frameEnd_sent hr ho hf hs
    rw [done] at ends
    refine ⟨_, ends, ?_⟩
    generalize hu : (s.advanceTo e).restartGap.setInFlight _ = u
    have line : u.tdl.line = .busy := by rw [← hu]; exact hl
    obtain ⟨hline, flight, -⟩ := finish_line u false (by rw [line]; decide)
    obtain ⟨-, gap⟩ := finish_stray u false (by rw [line]; decide)
    refine ⟨hline.trans line, gap.trans ?_, flight.trans ?_, (finish_fixed u false).trans ?_⟩
    all_goals
      rw [← hu]
      rfl
  case sent =>
    have done : (s.advanceTo e).frameDone f = (s.advanceTo e).restartGap.endAttempt f .sent := by
      unfold State.frameDone
      exact if_neg (by rw [ha]; decide)
    rw [frameEnd_sent hr ho hf hs, done]
  case retried =>
    obtain ⟨line, gap, flight, fixed⟩ := endAttempt_retries (s := (s.advanceTo e).restartGap) (o := .noReply) hl h2 rfl hy
    exact ⟨_, replyWindowEnd_taken hr hf hs, line, gap, flight, fixed⟩
  case yields =>
    exact ⟨_, replyWindowEnd_taken hr hf hs,
      endAttempt_interrupted_from (t := (s.advanceTo e).restartGap) h2 rfl hy hl rfl⟩
  case decided =>
    rw [replyWindowEnd_taken hr hf hs, endAttempt_decides _ (.inl h2), failedOutcome_noReply]

end Sys2Proof.Machine

namespace Sys2Proof.Machine

/-! ### Valid replies (R4, R212) -/

/-- The code of a status in a reply's second character. -/
def ReplyStatus.wire : ReplyStatus → Nat
  | .ok => 0
  | .refused => 1
  | .fault => 2
  | .noFunction => 3

theorem ofCode_iff {n : Nat} {st : ReplyStatus} : ReplyStatus.ofCode n = some st ↔ n = st.wire := by
  unfold ReplyStatus.ofCode
  split
  · cases st <;> simp [ReplyStatus.wire]
  · cases st <;> simp [ReplyStatus.wire]
  · cases st <;> simp [ReplyStatus.wire]
  · cases st <;> simp [ReplyStatus.wire]
  · next h0 h1 h2 h3 =>
      constructor
      · exact fun h => by cases h
      · rintro rfl
        cases st
        · exact absurd rfl h0
        · exact absurd rfl h1
        · exact absurd rfl h2
        · exact absurd rfl h3

/-- A list begins with `p`, of the length `n`, and goes on with `c`. -/
theorem take_next_iff {α : Type} {l p : List α} {n : Nat} {c : α} :
    l.take n = p ∧ l[n]? = some c ↔ (∃ tail, l = p ++ c :: tail) ∧ p.length = n := by
  constructor
  · rintro ⟨rfl, h⟩
    obtain ⟨lt, at'⟩ := List.getElem?_eq_some_iff.mp h
    refine ⟨⟨l.drop (n + 1), ?_⟩, by simp; omega⟩
    rw [← at', List.cons_getElem_drop_succ, List.take_append_drop]
  · rintro ⟨⟨tail, rfl⟩, rfl⟩
    simp

/-- The codes inside a payload of the length its status calls for (R212). -/
theorem payloadOk_iff {r : Request} {st : ReplyStatus} {pl : List Byte} (length : pl.length = r.replyLength st) :
    r.payloadOk st pl = true ↔ (st = .fault → pl.head? = some 1 ∨ pl.head? = some 2)
      ∧ ∀ o a i h g, st = .ok → r = .sample o a i h g →
        (∀ w, pl[0]? = some w → w.toNat % 128 ≤ 8) ∧ ∀ q, pl[1]? = some q → q.toNat ≤ 1 := by
  cases st with
  | fault =>
      obtain ⟨b, rfl⟩ := List.length_eq_one_iff.mp (length : pl.length = 1)
      simp [Request.payloadOk]
  | ok =>
      cases r with
      | sample o a i h g =>
          match pl, length with
          | w :: q :: rest, _ =>
              have codes : (Request.sample o a i h g).payloadOk .ok (w :: q :: rest) = true
                  ↔ w.toNat % 128 ≤ 8 ∧ q.toNat ≤ 1 := by simp [Request.payloadOk]
              rw [codes]
              exact ⟨fun c => ⟨fun f => absurd f (by decide), fun _ _ _ _ _ _ _ => by simpa using c⟩,
                fun c => by simpa using c.2 o a i h g rfl rfl⟩
          | [_], h => cases h
          | [], h => cases h
      | _ => simp [Request.payloadOk]
  | refused | noFunction => simp [Request.payloadOk]

/-- A valid reply: the lead, the source and the status, the payload of the length they call for, and its check. -/
theorem parseReply_iff {r : Request} {l : List Byte} {st : ReplyStatus} {pl : List Byte} :
    r.parseReply l = some (st, pl) ↔ ∃ (b : Byte) (tail : List Byte), l = 0xA5 :: b :: (pl ++ frameCheck (b :: pl) :: tail)
      ∧ b.toNat / 16 = r.replySource ∧ b.toNat % 16 = st.wire ∧ pl.length = r.replyLength st
      ∧ (st = .fault → pl.head? = some 1 ∨ pl.head? = some 2)
      ∧ (∀ o a i h g, st = .ok → r = .sample o a i h g →
          (∀ w, pl[0]? = some w → w.toNat % 128 ≤ 8) ∧ ∀ q, pl[1]? = some q → q.toNat ≤ 1) := by
  constructor
  · intro h
    unfold Request.parseReply at h
    split at h
    · next x b rest =>
        split at h
        · next st' code =>
            dsimp only at h
            split at h
            · next valid =>
                simp only [Bool.and_eq_true, beq_iff_eq, decide_eq_true_eq] at valid
                obtain ⟨⟨⟨first, source⟩, check⟩, codes⟩ := valid
                obtain ⟨rfl, rfl⟩ := Prod.mk.inj (Option.some.inj h)
                obtain ⟨⟨tail, parts⟩, length⟩ := take_next_iff.mp ⟨rfl, check⟩
                obtain ⟨readings, sample⟩ := (payloadOk_iff length).mp codes
                refine ⟨b, tail, ?_, source, ofCode_iff.mp code, length, readings, sample⟩
                rw [first, ← parts]
                rfl
            · cases h
        · cases h
    · cases h
  · rintro ⟨b, tail, rfl, source, code, length, readings, sample⟩
    obtain ⟨payload, check⟩ := take_next_iff (c := frameCheck (b :: pl)).mpr ⟨⟨tail, rfl⟩, length⟩
    have codes := (payloadOk_iff length).mpr ⟨readings, sample⟩
    unfold Request.parseReply
    simp only [ofCode_iff.mpr code, payload, check, source, codes]
    simp [lead]

/-! ### What the origins leave alone at the end of an attempt -/

/-- What a window depends on in an entry (R8, R9). -/
def NodeEntry.place (n : NodeEntry) : Addr × Nat × Nat := (n.address, n.unit, n.echo)

/-- The demands, the records, the settings and the entries' windows are as they were. -/
structure Attends (s t : State) : Prop where
  drt : t.drt = s.drt
  cfg : t.hcp.cfg = s.hcp.cfg
  record : ∀ h, t.record h = s.record h
  places : t.ntab.nodes.map NodeEntry.place = s.ntab.nodes.map NodeEntry.place

theorem Attends.refl (s : State) : Attends s s := ⟨rfl, rfl, fun _ => rfl, rfl⟩

theorem Attends.trans {s t u : State} (h : Attends s t) (k : Attends t u) : Attends s u :=
  ⟨k.drt.trans h.drt, k.cfg.trans h.cfg, fun x => (k.record x).trans (h.record x), k.places.trans h.places⟩

theorem foldl_attends {α : Type} {f : State → α → State} (hf : ∀ u x, Attends u (f u x)) :
    ∀ (l : List α) (s : State), Attends s (l.foldl f s)
  | [], s => .refl s
  | x :: xs, s => (hf s x).trans (foldl_attends hf xs (f s x))

theorem tdl_attends (s : State) (x : Tdl) : Attends s { s with tdl := x } := ⟨rfl, rfl, fun _ => rfl, rfl⟩

theorem setBue_attends (s : State) (b : Bue) : Attends s (s.setBue b) := ⟨rfl, rfl, fun _ => rfl, rfl⟩

theorem mark_attends (s : State) (h : Handle) (m : RetireDrive) :
    Attends s (s.modifySlot h fun x => { x with retireDrive := m }) :=
  ⟨rfl, rfl, fun k => ((modifySlot_beside s h (f := fun x => { x with retireDrive := m }) fun _ => ⟨rfl, rfl⟩).slots k).1, rfl⟩

theorem placeRetireDrive_attends (s : State) (h : Handle) : Attends s (s.placeRetireDrive h) := by
  unfold State.placeRetireDrive
  split
  · next a i w _ =>
      obtain ⟨x, claimed⟩ := claimDrive_tdl s
        { address := a, index := i, handle := h, gen := (s.slot h).gen, word := w, prior := none } false
      dsimp only
      generalize s.claimDrive _ false = c at claimed
      obtain ⟨t, ans⟩ := c
      have claims : Attends s t := by
        rw [show t = _ from claimed]
        exact tdl_attends s x
      cases ans with
      | taken | merged => exact claims.trans (mark_attends t h _)
      | down | inFlight => exact mark_attends s h _
      | full => exact .refl s
  · exact .refl s

theorem claimMark_attends (s : State) (m : BitVec 4) (on : Bool) : Attends s (s.claimMark m on).1 := by
  obtain ⟨x, e⟩ := claimMark_tdl s m on
  rw [e]
  exact tdl_attends s x

theorem claimOwed_attends (s : State) : Attends s s.claimOwed := by
  have gen : ∀ (u : State) (g : Generator), Attends u (u.claimOwedGen g) := by
    intro u g
    unfold State.claimOwedGen
    split
    · exact (claimMark_attends u _ _).trans ⟨rfl, rfl, fun _ => rfl, rfl⟩
    · exact .refl u
  have follow : ∀ (u : State) (x : TurnSide), Attends u (u.claimOwedFollow x) := by
    intro u x
    unfold State.claimOwedFollow
    split
    · exact (claimMark_attends u _ _).trans ⟨rfl, rfl, fun _ => rfl, rfl⟩
    · exact .refl u
  unfold State.claimOwed
  exact (foldl_attends gen _ s).trans (foldl_attends follow _ _)

theorem provingOccasion_attends (s : State) : Attends s s.provingOccasion := by
  have placed : ∀ req q, Attends s ((s.claimRoutine req).1.setProof q) := by
    intro req q
    obtain ⟨x, e⟩ := claimRoutine_tdl s req
    rw [e]
    exact ⟨rfl, rfl, fun _ => rfl, rfl⟩
  have claims : ∀ p, Attends s (s.claimProof p) := by
    intro p
    unfold State.claimProof
    split
    · split
      · exact placed _ _
      · exact .refl s
    · exact .refl s
  unfold State.provingOccasion
  split
  · split
    · exact claims _
    · exact .refl s
  · exact .refl s

theorem describePlaced_attends (s : State) (r : WalkReq) : Attends s (s.describePlaced r) := by
  have describing : ∀ n : NodeEntry, n.describing.place = n.place := by
    intro n
    unfold NodeEntry.describing
    split <;> rfl
  have node : ∀ p, Attends s (s.modifyNode p NodeEntry.describing) := by
    intro p
    unfold State.modifyNode
    split
    · exact .refl s
    · refine ⟨rfl, rfl, fun _ => rfl, List.ext_getElem? fun i => ?_⟩
      simp only [List.getElem?_map, List.getElem?_modify]
      cases s.ntab.nodes[i]? with
      | none => rfl
      | some n =>
          simp only [Option.map_eq_map, Option.map_some]
          split
          · exact congrArg some (describing n)
          · rfl
  unfold State.describePlaced
  split
  · split
    · exact node _
    · exact .refl s
  · exact .refl s

theorem bueOccasion_attends (s : State) : Attends s s.bueOccasion := by
  unfold State.bueOccasion
  split
  · next r _ =>
      obtain ⟨x, claimed⟩ := claimRoutine_tdl s r.request
      unfold State.placeBue
      generalize s.claimRoutine r.request = c at claimed
      obtain ⟨t, ans⟩ := c
      have claims : Attends s t := by
        rw [show t = _ from claimed]
        exact tdl_attends s x
      cases ans with
      | taken => exact (claims.trans (setBue_attends t _)).trans (describePlaced_attends _ r)
      | merged | inFlight | full | down => exact setBue_attends s _
  · exact .refl s

theorem onAttemptEnd_attends (s : State) : Attends s s.onAttemptEnd := by
  have drives : Attends s s.placeRetireDrives := foldl_attends placeRetireDrive_attends allHandles s
  have all := ((drives.trans (claimOwed_attends _)).trans (provingOccasion_attends _)).trans (bueOccasion_attends _)
  unfold State.onAttemptEnd
  generalize s.placeRetireDrives.claimOwed.provingOccasion.bueOccasion = t at all
  exact all.trans ⟨rfl, rfl, fun _ => rfl, rfl⟩

/-- Windows depend on the settings, the addresses, the units and the echo delays only (R8, R9). -/
theorem Attends.windowOf {s t : State} (h : Attends s t) (r : Request) : t.windowOf r = s.windowOf r := by
  have found : ∀ (u : State) (a : Addr), (u.ntab.nodes.find? fun n => n.address == a).map (·.unit)
      = ((u.ntab.nodes.map NodeEntry.place).find? fun x => x.1 == a).map (·.2.1) := by
    intro u a
    rw [List.find?_map, Option.map_map]
    rfl
  have auto : ∀ (u : State) (unit : Nat), (u.ntab.nodes.filter fun n => n.unit = unit).map (·.echo)
      = ((u.ntab.nodes.map NodeEntry.place).filter fun x => x.2.1 = unit).map (·.2.2) := by
    intro u unit
    rw [List.filter_map, List.map_map]
    rfl
  have window : ∀ unit, t.unitWindow unit = s.unitWindow unit := by
    intro unit
    unfold State.unitWindow State.fixedWindow State.autoWindow
    rw [auto, auto, h.places, h.cfg]
  have zero : t.zeroWindow = s.zeroWindow := by
    unfold State.zeroWindow
    rw [h.cfg]
  have node : ∀ (u : State) (a : Addr), (match u.ntab.nodes.find? fun n => n.address == a with
      | some n => u.unitWindow n.unit
      | none => 4) = (((u.ntab.nodes.find? fun n => n.address == a).map (·.unit)).map u.unitWindow).getD 4 := by
    intro u a
    cases u.ntab.nodes.find? fun n => n.address == a <;> rfl
  unfold State.windowOf
  cases r.address with
  | none => exact zero
  | some a =>
      dsimp only
      refine (node t a).trans (Eq.trans ?_ (node s a).symm)
      rw [found, found, h.places, funext window]

end Sys2Proof.Machine

namespace Sys2Proof.Machine

/-! ### Outcomes told (R13, R55, R56, R61) -/

theorem reportNode_none {s : State} {r : Request} {o : ReqOutcome} (h : r.address = none ∨ o = .sent ∨ o = .abandoned) :
    s.reportNode r o = s := by
  unfold State.reportNode
  rcases h with h | rfl | rfl
  · rw [h]
  · cases r.address <;> rfl
  · cases r.address <;> rfl

theorem reportNode_replied {s : State} {r : Request} {a : Addr} (h : r.address = some a) (st : ReplyStatus)
    (pl : List Byte) (n : Nat) : s.reportNode r (.replied st pl n) = s.heard a := by
  unfold State.reportNode
  rw [h]

/-- A failure of a fault sweep's Hail loses the node at once (R61). -/
theorem reportNode_failed {s : State} {r : Request} {a : Addr} (h : r.address = some a) {o : ReqOutcome}
    (ho : o = .noReply ∨ o = .checkError ∨ o = .collision) :
    s.reportNode r o = if r = .hail a .fault then s.sweepFailed a else s.failed a := by
  have told : s.reportNode r o = match (generalizing := false) r with
      | .hail _ .fault => s.sweepFailed a
      | _ => s.failed a := by
    unfold State.reportNode
    rw [h]
    rcases ho with rfl | rfl | rfl <;> rfl
  rw [told]
  cases r with
  | hail b x =>
      cases (Option.some.inj h : b = a)
      cases x <;> simp
  | _ => rfl

theorem failedOutcome_replied (r : Request) (st : ReplyStatus) (pl : List Byte) (n : Nat) :
    r.failedOutcome (.replied st pl n) = .replied st pl n := by
  cases r <;> rfl

/-- CHECK_ERROR decided is that, or COLLISION of a Probe (R11). -/
theorem failedOutcome_checkError (r : Request) :
    r.failedOutcome .checkError = .checkError ∨ r.failedOutcome .checkError = .collision := by
  cases r <;> simp [Request.failedOutcome]

/-- The owner of a request whose reply was broken claims, or goes on with the walk, and no more. -/
theorem ownerOutcome_broken (s : State) (r : Request) {o : ReqOutcome} (ho : o = .checkError ∨ o = .collision) :
    Moves (.more .walk) s (s.ownerOutcome r o) := by
  have gone : Moves (.more .walk) s s.bueRequestGone := bueRequestGone_moves .nil
  have walk : ∀ r : Request, Moves (.more .walk) s (s.bueOutcome r o) := by
    intro r
    have dropped : s.bueRequestGone.dropped r o = s.bueRequestGone := by
      unfold State.dropped
      rcases ho with rfl | rfl <;> cases r <;> rfl
    unfold State.bueOutcome
    refine ite_moves (by rw [dropped]; exact gone) ?_
    split
    · rcases ho with rfl | rfl <;> exact haltWith_moves (endRecat_moves gone) _
    · rcases ho with rfl | rfl <;> exact assignFailed_moves gone
    · rcases ho with rfl | rfl <;> exact describeNext_moves gone
    · unfold State.recatOutcome
      split
      · rcases ho with rfl | rfl <;> exact afterRecat_moves gone
      · exact gone
    · exact extendOutcome_moves gone _ _ o
    · rcases ho with rfl | rfl <;> exact gone
    · exact gone
  unfold State.ownerOutcome
  split
  · exact walk _
  · exact walk _
  · exact walk _
  · exact walk _
  · exact walk _
  · exact driveOutcome_moves .nil _ o
  · exact proofOutcome_moves .nil o
  · exact proofOutcome_moves .nil o
  · exact confirmOutcome_moves .nil _ _ o
  · rcases ho with rfl | rfl <;> exact .nil
  · rcases ho with rfl | rfl <;> exact .nil
  · rcases ho with rfl | rfl <;> exact .nil
  · exact .nil

/-! ### The gap goes on through a cut (R10) -/

/-- A cut that drops a window begins the gap again. -/
theorem chainCut_gap {s : State} (p : Nat) (h : s.tdl.gapEnds = s.now + ms 1) :
    (s.chainCut p).tdl.gapEnds = s.now + ms 1 := by
  have response : ∀ u : State, (u.cutResponse p).tdl.gapEnds = u.tdl.gapEnds := fun u => by
    have m : Moves (.more .walk) u (u.cutResponse p) := cutResponse_moves .nil p
    generalize u.cutResponse p = v at m
    exact still_gapEnds (m.still (.inr rfl))
  have releases : ∀ (u : State) (l : List Request), (u.placeReleases l).tdl.gapEnds = u.tdl.gapEnds := by
    intro u l
    unfold State.placeReleases
    show (u.makeRoom _ _).1.tdl.gapEnds = _
    rw [makeRoom_tdl]
  have without : ∀ (u : State) (q : Request → Bool), u.tdl.gapEnds = u.now + ms 1 →
      (u.withoutRequests q).tdl.gapEnds = u.now + ms 1 := by
    intro u q hu
    unfold State.withoutRequests State.dropInFlight
    dsimp only
    split
    · split
      · split
        · exact hu
        · exact hu
        · rfl
        · rfl
      · exact hu
    · exact hu
  obtain ⟨keeps, tdl⟩ := retireFrom_keeps s p
  have now : (s.retireFrom p).now = s.now := by
    have m : Moves (.more (.event false)) s (s.retireFrom p) :=
      foldl_moves (fun _ q j => retireNode_moves j _ q) _ _ (retireNode_moves .nil _ p)
    exact congrArg Fixed.now m.fixed
  rw [chainCut_eq, raise_tdl, response, cutNodes_tdl, releases, cutQueue_tdl]
  rw [← now] at h ⊢
  exact without _ _ (by rw [tdl]; exact h)

theorem declareLost_gap {s : State} (p : Nat) (h : s.tdl.gapEnds = s.now + ms 1) :
    (s.declareLost p).tdl.gapEnds = s.now + ms 1 := by
  obtain ⟨l, e⟩ := modifyNode_rest s p fun n => { n with state := .lost }
  unfold State.declareLost
  split
  · split
    · exact h
    · rw [e]
      exact chainCut_gap p h
  · exact h

theorem reportNode_gap {s : State} (r : Request) (o : ReqOutcome) (h : s.tdl.gapEnds = s.now + ms 1) :
    (s.reportNode r o).tdl.gapEnds = s.now + ms 1 := by
  have node : ∀ (p : Nat) (f : NodeEntry → NodeEntry), (s.modifyNode p f).tdl.gapEnds = s.now + ms 1 := by
    intro p f
    obtain ⟨l, e⟩ := modifyNode_rest s p f
    rw [e]
    exact h
  have lost : ∀ (p : Nat) (f : NodeEntry → NodeEntry), ((s.modifyNode p f).declareLost p).tdl.gapEnds = s.now + ms 1 := by
    intro p f
    obtain ⟨l, e⟩ := modifyNode_rest s p f
    rw [e]
    exact declareLost_gap p h
  have heard : ∀ a, (s.heard a).tdl.gapEnds = s.now + ms 1 := by
    intro a
    unfold State.heard
    split
    · split
      · exact h
      · exact node _ _
    · exact h
  have failed : ∀ a, (s.failed a).tdl.gapEnds = s.now + ms 1 := by
    intro a
    unfold State.failed
    split
    · dsimp only
      split
      · exact node _ _
      · exact lost _ _
    · exact h
  have swept : ∀ a, (s.sweepFailed a).tdl.gapEnds = s.now + ms 1 := by
    intro a
    unfold State.sweepFailed
    split
    · exact declareLost_gap _ h
    · exact h
  unfold State.reportNode
  split
  · exact heard _
  · split
    · exact swept _
    · exact failed _
  · split
    · exact swept _
    · exact failed _
  · split
    · exact swept _
    · exact failed _
  · exact h

/-- The gap that a broken reply begins goes on while its outcome is told. -/
theorem reportOutcome_gap {s : State} (r : Request) {o : ReqOutcome} (ho : o = .checkError ∨ o = .collision)
    (h : s.tdl.gapEnds = s.now + ms 1) :
    (s.reportOutcome r o).tdl.gapEnds = s.now + ms 1 ∧ (s.reportOutcome r o).now = s.now := by
  have silent : (s.setInFlight none).updateNextBit r o = s.setInFlight none :=
    updateNextBit_silent _ _ (by rcases ho with rfl | rfl <;> rfl)
  have now := congrArg Fixed.now (reportOutcome_moves s r o).fixed
  rw [silent] at now
  refine ⟨?_, now⟩
  unfold State.reportOutcome
  rw [silent]
  have m := ownerOutcome_broken (s.setInFlight none) r ho
  generalize (s.setInFlight none).ownerOutcome r o = u at m
  have still := m.still (.inr rfl)
  have nowKept : u.now = s.now := congrArg Fixed.now (still_fixed still)
  rw [← nowKept]
  exact reportNode_gap r o ((still_gapEnds still).trans (by rw [nowKept]; exact h))

/-! ### The gap's part at the end of a reply (R10, R18) -/

theorem gapPassed_waits {s : State} (h : s.tdl.line ≠ .busy ∨ s.now < s.tdl.gapEnds) : s.gapPassed = s := by
  unfold State.gapPassed
  refine if_neg ?_
  rcases h with h | h
  · simp [h]
  · simp [Nat.not_le.mpr h]

/-- The gap begun by the attempt's own end has not passed. -/
theorem gapPassed_attemptEnd {s : State} (h : s.tdl.gapEnds = s.now + ms 1) :
    s.onAttemptEnd.yieldIfDue.gapPassed = s.onAttemptEnd.yieldIfDue := by
  have still := onAttemptEnd_still s
  generalize s.onAttemptEnd = u at still
  have gap : u.tdl.gapEnds = s.now + ms 1 := (still_gapEnds still).trans h
  have now : u.now = s.now := congrArg Fixed.now (still_fixed still)
  refine gapPassed_waits ?_
  unfold State.yieldIfDue
  split
  · exact .inl (by rw [enterYielded_tdl]; simp)
  · refine .inr ?_
    rw [gap, now]
    exact Nat.lt_add_of_pos_right (by decide)

theorem breakReply_unmalformed (s : State) (f : InFlight) :
    s.breakReply f false = s.restartGap.endAttempt f .checkError := by
  have gap : s.restartGap.tdl.gapEnds = s.restartGap.now + ms 1 := rfl
  show (s.restartGap.endAttempt f .checkError).gapPassed = _
  cases h : f.second with
  | false =>
      rw [endAttempt_first _ h rfl]
      exact gapPassed_attemptEnd gap
  | true =>
      rw [endAttempt_decides _ (.inl h)]
      obtain ⟨gapKept, now⟩ := reportOutcome_gap f.req (failedOutcome_checkError f.req) gap
      exact gapPassed_attemptEnd (by rw [gapKept, now])

end Sys2Proof.Machine

namespace Sys2Proof.Machine

/-! ### The attempt a reply belongs to (R8, R10) -/

section
variable {s : State} {f : InFlight} {n : Nat}

theorem replyBegun_some (hf : s.tdl.inFlight = some f) (hs : f.stage = .replying n
      ∨ ∃ a b e, f.stage = .window a b e ∧ b ≤ s.now ∧ s.now ≤ e ∧ n = max 1 (min 120 (s.now - a))) :
    s.replyBegun = some (f, n) := by
  unfold State.replyBegun
  simp only [hf]
  rcases hs with h | ⟨a, b, e, h, opened, ends, rfl⟩
  · simp only [h]
  · simp only [h]
    exact if_pos ⟨opened, ends⟩

theorem replyBegun_none (h : ∀ f, s.tdl.inFlight = some f → f.stage = .due ∨ (∃ e, f.stage = .sending e)
      ∨ ∃ a b e, f.stage = .window a b e ∧ (s.now < b ∨ e < s.now)) : s.replyBegun = none := by
  unfold State.replyBegun
  split
  · next f hf =>
      rcases h f hf with q | ⟨e, q⟩ | ⟨a, b, e, q, closed⟩
      · simp only [q]
      · simp only [q]
      · simp only [q]
        exact if_neg (by omega)
  · rfl

theorem replyEnding_some (hs : s.tdl.stray = false) (h : s.replyBegun = some (f, n)) : s.replyEnding = some (f, n) := by
  unfold State.replyEnding
  rw [hs]
  exact h

theorem replyEnding_none (h : s.tdl.stray = true ∨ s.replyBegun = none) : s.replyEnding = none := by
  unfold State.replyEnding
  split
  · rfl
  · next hs => exact h.resolve_left hs

/-! ### What each event comes to (R8 to R11) -/

theorem replyFirstEdge_begins (hr : s.hcp.inReset = false) (h : s.replyBegun = some (f, n)) : exec .replyFirstEdge s =
    .next (((s.setInFlight (some { f with stage := .replying n })).restartGap.setStray false).finish false) := by
  show runEvent s (match s.replyBegun with
    | some (f, echo) => some ((s.setInFlight (some { f with stage := .replying echo })).restartGap.setStray false)
    | none => some (s.restartGap.setStray true)) = _
  rw [h]
  exact runEvent_some hr _

theorem replyFirstEdge_stray (hr : s.hcp.inReset = false) (h : s.replyBegun = none) :
    exec .replyFirstEdge s = .next ((s.restartGap.setStray true).finish false) := by
  show runEvent s (match s.replyBegun with
    | some (f, echo) => some ((s.setInFlight (some { f with stage := .replying echo })).restartGap.setStray false)
    | none => some (s.restartGap.setStray true)) = _
  rw [h]
  exact runEvent_some hr _

theorem replyComplete_taken (hr : s.hcp.inReset = false) (h : s.replyEnding = some (f, n)) (l : List Byte) :
    exec (.replyComplete l) s = .next ((s.takeReply f n l).finish false) := by
  show runEvent s (match s.replyEnding with
    | some (f, echo) => some (s.takeReply f echo l)
    | none => some (s.restartGap.setStray false)) = _
  rw [h]
  exact runEvent_some hr _

theorem replyBroken_taken (hr : s.hcp.inReset = false) (h : s.replyEnding = some (f, n)) (m : Bool) :
    exec (.replyBroken m) s = .next ((s.breakReply f m).finish false) := by
  show runEvent s (match s.replyEnding with
    | some (f, _) => some (s.breakReply f m)
    | none => some (s.restartGap.setStray false)) = _
  rw [h]
  exact runEvent_some hr _

/-- A reply that belongs to no attempt is line activity, and the stray reply is over. -/
theorem reply_stray (hr : s.hcp.inReset = false) (h : s.replyEnding = none) {c : Instr}
    (hc : (∃ l, c = .replyComplete l) ∨ ∃ m, c = .replyBroken m) :
    exec c s = .next ((s.restartGap.setStray false).finish false) := by
  rcases hc with ⟨l, rfl⟩ | ⟨m, rfl⟩
  · show runEvent s (match s.replyEnding with
      | some (f, echo) => some (s.takeReply f echo l)
      | none => some (s.restartGap.setStray false)) = _
    rw [h]
    exact runEvent_some hr _
  · show runEvent s (match s.replyEnding with
      | some (f, _) => some (s.breakReply f m)
      | none => some (s.restartGap.setStray false)) = _
    rw [h]
    exact runEvent_some hr _

/-- A broken reply ends the attempt CHECK_ERROR (R4, R10). -/
theorem reply_checkError (hr : s.hcp.inReset = false) (h : s.replyEnding = some (f, n)) {c : Instr}
    (hc : (∃ l, c = .replyComplete l ∧ f.req.parseReply l = none) ∨ c = .replyBroken false) :
    exec c s = .next ((s.restartGap.endAttempt f .checkError).finish false) := by
  rcases hc with ⟨l, rfl, invalid⟩ | rfl
  · rw [replyComplete_taken hr h]
    unfold State.takeReply
    rw [invalid]
  · rw [replyBroken_taken hr h, breakReply_unmalformed]

/-- A valid reply ends it REPLIED. -/
theorem reply_replied (hr : s.hcp.inReset = false) (h : s.replyEnding = some (f, n)) {l : List Byte} {st : ReplyStatus}
    {pl : List Byte} (valid : f.req.parseReply l = some (st, pl)) : exec (.replyComplete l) s =
      .next (((s.restartGap.reportOutcome f.req (.replied st pl n)).onAttemptEnd.yieldIfDue).finish false) := by
  rw [replyComplete_taken hr h]
  unfold State.takeReply
  rw [valid]
  dsimp only
  rw [endAttempt_decides _ (.inr rfl), failedOutcome_replied]

end

/-- While the line is BUSY such activity leaves the attempt, and begins the gap again. -/
theorem finish_activity {s u : State} (hl : s.tdl.line = .busy) (b : Bool) (hu : u = s.restartGap.setStray b) :
    (u.finish false).tdl.inFlight = s.tdl.inFlight ∧ (u.finish false).tdl.gapEnds = s.now + ms 1
    ∧ (u.finish false).tdl.stray = b ∧ (u.finish false).fixed = s.fixed := by
  have line : u.tdl.line ≠ .ready := by
    rw [hu]
    show s.tdl.line ≠ .ready
    rw [hl]
    decide
  obtain ⟨-, flight, -⟩ := finish_line u false line
  obtain ⟨stray, gap⟩ := finish_stray u false line
  rw [flight, stray, gap, finish_fixed, hu]
  exact ⟨rfl, rfl, rfl, rfl⟩

/-- The sequence bits move by the outcome REPLIED (R7). -/
theorem replied_fixed (s : State) (r : Request) (st : ReplyStatus) (pl : List Byte) (n : Nat) :
    ((s.reportOutcome r (.replied st pl n)).onAttemptEnd.yieldIfDue.finish false).fixed = { s.fixed with
      nextBit := match r, r.address with
        | .assign x _, _ => s.tdl.nextBit.set x false
        | _, some x => s.tdl.nextBit.set x (!s.tdl.nextBit[x])
        | _, none => s.tdl.nextBit } := by
  have told := (reportOutcome_moves s r (.replied st pl n)).fixed
  have after : ∀ u : State, u.onAttemptEnd.yieldIfDue.fixed = u.fixed := fun u =>
    (yieldIfDue_moves (ad := false) (onAttemptEnd_moves .nil)).fixed
  rw [finish_fixed, after, told]
  unfold State.updateNextBit
  cases r <;> rfl

/-- The second attempt follows a malformed character at once (R10, R11, R12; log entry 18). -/
theorem replyBroken_malformed {s : State} {f : InFlight} {n : Nat} (hr : s.hcp.inReset = false) (hl : s.tdl.line = .busy)
    (ho : s.tdl.orphan = none) (h : s.replyEnding = some (f, n)) (h2 : f.second = false) (hy : s.tdl.yieldDue = false) :
    ∃ v : State, exec (.replyBroken true) s = .next ((v.startAttempt { f with second := true, stage := .due }).finish false)
      ∧ Attends s v ∧ v.tdl.line = .busy ∧ v.fixed = s.fixed := by
  have taken := replyBroken_taken hr h true
  have broken : s.breakReply f true = ((s.setTdl { s.tdl with gapEnds := s.now }).endAttempt f .checkError).gapPassed := rfl
  obtain ⟨w, hw⟩ : ∃ w, (s.setTdl { s.tdl with gapEnds := s.now }).setInFlight (some { f with second := true, stage := .due }) = w :=
    ⟨_, rfl⟩
  have attends : Attends s w := by
    rw [← hw]
    exact ⟨rfl, rfl, fun _ => rfl, rfl⟩
  have still := onAttemptEnd_still w
  have after := onAttemptEnd_attends w
  rw [broken, endAttempt_first _ h2 rfl, hw] at taken
  generalize w.onAttemptEnd = v at still after taken
  have wtdl : w.tdl = { s.tdl with gapEnds := s.now, inFlight := some { f with second := true, stage := .due } } := by
    rw [← hw]
    rfl
  have line : v.tdl.line = .busy := (still_line still).trans (by rw [wtdl]; exact hl)
  have due : v.tdl.yieldDue = false := (still_yieldDue still).trans (by rw [wtdl]; exact hy)
  have orphan : v.tdl.orphan = none := (congrArg Still.orphan still).trans (by rw [State.still, wtdl]; exact ho)
  have flight : v.tdl.inFlight = some { f with second := true, stage := .due } := (still_inFlight still).trans (by rw [wtdl])
  have fixed : v.fixed = s.fixed := (still_fixed still).trans (by rw [← hw]; rfl)
  have now : v.now = s.now := congrArg Fixed.now fixed
  have gap : v.tdl.gapEnds = s.now := (still_gapEnds still).trans (by rw [wtdl])
  have passed : v.gapPassed = v.startAttempt { f with second := true, stage := .due } := by
    unfold State.gapPassed State.startIfIdle
    rw [if_pos (by simp [line, orphan, gap, now])]
    simp only [flight]
    exact if_pos (by simp [gap, now])
  rw [yieldIfDue_none due, passed] at taken
  exact ⟨v, taken, attends.trans after, line, fixed⟩

end Sys2Proof.Machine

namespace Sys2Proof.Machine

/-- The second attempt at once, of the request `r` that it carries, and the pending-drive set that is left (R11, R12). -/
theorem malformed_second {s : State} {f : InFlight} {n : Nat} (hr : s.hcp.inReset = false) (hl : s.tdl.line = .busy)
    (ho : s.tdl.orphan = none) (h : s.replyEnding = some (f, n)) (h2 : f.second = false) (hy : s.tdl.yieldDue = false)
    {r : Request} {left : List Pend}
    (how : (∃ d p, f.req = .drive d ∧ s.drt.pend.find? (fun q => q.handle == d.handle) = some p
          ∧ r = .drive { d with word := p.word } ∧ left = s.drt.pend.filter fun q => !(q.handle == d.handle))
        ∨ (∀ d, f.req = .drive d → s.drt.pend.find? (fun q => q.handle == d.handle) = none)
          ∧ r = f.req ∧ left = s.drt.pend) :
    ∃ u t : State, exec (.replyBroken true) s = .next t ∧ t = u.finish false ∧ t.fixed = s.fixed
      ∧ t.tdl.frame = r.frame f.seq ∧ t.tdl.inFlight = some { f with
          req := r, second := true, window := s.windowOf f.req, stage := .sending (s.now + 5 * (r.frame f.seq).length) }
      ∧ u.drt.pend = left
      ∧ ∀ d p x, f.req = .drive d → s.drt.pend.find? (fun q => q.handle == d.handle) = some p →
          s.live d.handle = some x → u.record d.handle = some { x with
            drive := x.drive.map fun y => { y with lastPlaced := some p.word } } := by
  obtain ⟨v, taken, attends, line, fixed⟩ := replyBroken_malformed hr hl ho h h2 hy
  have now : v.now = s.now := congrArg Fixed.now fixed
  have window := attends.windowOf f.req
  have live : ∀ k, v.live k = s.live k := fun k => live_of_record (attends.record k)
  have begun : ∃ u, v.startAttempt { f with second := true, stage := .due } = u ∧ u.tdl.line = .busy ∧ u.fixed = s.fixed
      ∧ u.tdl.frame = r.frame f.seq ∧ u.tdl.inFlight = some { f with
          req := r, second := true, window := s.windowOf f.req, stage := .sending (s.now + 5 * (r.frame f.seq).length) }
      ∧ u.drt.pend = left
      ∧ ∀ d p x, f.req = .drive d → s.drt.pend.find? (fun q => q.handle == d.handle) = some p →
          s.live d.handle = some x → u.record d.handle = some { x with
            drive := x.drive.map fun y => { y with lastPlaced := some p.word } } := by
    rcases how with ⟨d, p, hd, hp, rfl, rfl⟩ | ⟨none, rfl, rfl⟩
    · obtain ⟨frame, flight, hline, pend, hfixed, record⟩ := startAttempt_pending
        (s := v) (f := { f with second := true, stage := .due }) rfl hd (by rw [attends.drt]; exact hp)
      refine ⟨_, rfl, hline.trans line, hfixed.trans fixed, frame, ?_, by rw [pend, attends.drt], fun d' p' x hd' hp' hx => ?_⟩
      · rw [flight, window, now]
        rfl
      · rw [hd] at hd'
        cases hd'
        rw [hp] at hp'
        cases hp'
        exact record x ((live _).trans hx)
    · have plain := startAttempt_plain (s := v) (f := { f with second := true, stage := .due }) fun _ d hd => by
        unfold State.pendHolds
        rw [attends.drt]
        exact List.any_eq_false.mpr fun q hq => by simpa using List.find?_eq_none.mp (none d hd) q hq
      refine ⟨_, plain, line, ?_, rfl, ?_, congrArg Drt.pend attends.drt, fun d p x hd hp => ?_⟩
      · exact fixed
      · show some _ = some _
        rw [window, now]
        rfl
      · rw [none d hd] at hp
        cases hp
  obtain ⟨u, started, busy, hfixed, frame, flight, pend, record⟩ := begun
  rw [started] at taken
  obtain ⟨-, hflight, -, hframe, -⟩ := finish_line u false (by rw [busy]; decide)
  exact ⟨u, _, taken, rfl, (finish_fixed u false).trans hfixed, hframe.trans frame, hflight.trans flight, pend, record⟩

/-- Settles O52. -/
theorem repliesEndAttempts : Obligations.RepliesEndAttempts := by
  refine ⟨fun r l st pl => ?parse, fun s r o => ⟨rfl, ?owner, reportNode_none, fun a ha =>
      ⟨fun st pl n ho => ho ▸ reportNode_replied ha st pl n, reportNode_failed ha⟩⟩,
    fun s f n hr hl ho hf hs => ?begun, fun s c hr hl hs hc => ?outside, fun s c hr hl hs hc => ?stray, fun s => rfl⟩
  case parse =>
    have length : r.replyLength st = (match st, r with
        | .fault, _ => 1
        | .ok, .probe => 9
        | .ok, .describe .. => 6
        | .ok, .prove .. | .ok, .hail .. => 1
        | .ok, .sample .. => 4
        | _, _ => 0) := by
      cases st with
      | ok => cases r <;> rfl
      | _ => rfl
    rw [parseReply_iff, length]
    rfl
  case owner =>
    unfold State.ownerOutcome
    cases r with
    | releaseAll => simp only [beq_iff_eq]
    | phaseMark m on => simp only [Bool.and_eq_true, beq_iff_eq]
    | release a b => cases b <;> rfl
    | sample w a i h g => cases w <;> rfl
    | _ => rfl
  case begun =>
    have begun := replyBegun_some hf hs
    refine ⟨?edge, fun l st pl hstray valid => ?valid, fun c hstray hc => ?broken, fun hstray h2 hy => ?second,
      fun hstray h2 hy => ?yields, fun hstray h2 => ?decided, ?activity⟩
    case edge =>
      refine ⟨_, replyFirstEdge_begins hr begun, ?_⟩
      obtain ⟨flight, gap, stray, fixed⟩ := finish_activity
        (s := s.setInFlight (some { f with stage := .replying n })) (hl : _ = LineState.busy) false rfl
      exact ⟨flight, stray, gap, fixed⟩
    case valid =>
      exact ⟨_, reply_replied hr (replyEnding_some hstray begun) valid, rfl, replied_fixed ..⟩
    case broken =>
      have check := reply_checkError hr (replyEnding_some hstray begun) hc
      refine ⟨fun h2 hy => ?_, fun h2 hy => ⟨_, check, ?_⟩, fun h2 => ?_⟩
      · obtain ⟨-, gap, flight, fixed⟩ := endAttempt_retries (s := s.restartGap) (o := .checkError) hl h2 rfl hy
        exact ⟨_, check, flight, gap, fixed⟩
      · exact endAttempt_interrupted_from (t := s.restartGap) h2 rfl hy hl rfl
      · rw [check, endAttempt_decides _ (.inl h2)]
    case second =>
      intro entry r
      obtain ⟨u, t, run, eq, fixed, frame, flight, pend, record⟩ := malformed_second hr hl ho (replyEnding_some hstray begun)
        h2 hy (r := r) (left := match f.req, entry with
          | .drive d, some _ => s.drt.pend.filter fun q => !(q.handle == d.handle)
          | _, _ => s.drt.pend) (by
            cases hd : f.req with
            | drive d =>
                have he : entry = s.drt.pend.find? fun q => q.handle == d.handle := by simp only [entry, hd]
                cases hp : s.drt.pend.find? (fun q => q.handle == d.handle) with
                | some p => exact .inl ⟨d, p, rfl, hp, by simp only [r, hd, he, hp], by simp only [he, hp]⟩
                | none => exact .inr ⟨fun x hx => by cases hx; exact hp, by simp only [r, hd, he, hp], by simp only [he, hp]⟩
            | _ => exact .inr ⟨fun x hx => absurd hx (by simp), by simp only [r, hd], rfl⟩)
      refine ⟨u, t, run, eq, fixed, frame, flight, pend, fun d p x hd hp hx => record d p x hd ?_ hx⟩
      simpa only [entry, hd] using hp
    case yields =>
      refine ⟨_, replyBroken_taken hr (replyEnding_some hstray begun) true, ?_⟩
      have yielded := endAttempt_interrupted_from (s := s) (t := s.setTdl { s.tdl with gapEnds := s.now }) (o := .checkError)
        h2 rfl hy hl rfl
      have broken : s.breakReply f true
          = ((s.setTdl { s.tdl with gapEnds := s.now }).endAttempt f .checkError).gapPassed := rfl
      rw [broken, gapPassed_waits (.inl (by rw [yielded.1]; decide))]
      exact yielded
    case decided =>
      intro u
      have broken : s.breakReply f true = (u.endAttempt f .checkError).gapPassed := rfl
      rw [replyBroken_taken hr (replyEnding_some hstray begun) true, broken, endAttempt_decides _ (.inl h2)]
    case activity =>
      obtain ⟨flight, gap, -, fixed⟩ := finish_activity (u := s.restartGap) hl s.tdl.stray rfl
      exact ⟨_, runEvent_some hr s.restartGap, flight, gap, fixed⟩
  case outside =>
    have none := replyBegun_none hs
    rcases hc with rfl | rfl | hc
    · obtain ⟨flight, gap, stray, fixed⟩ := finish_activity hl true rfl
      exact ⟨_, replyFirstEdge_stray hr none, flight, gap, fixed, stray⟩
    · obtain ⟨flight, gap, stray, fixed⟩ := finish_activity (u := s.restartGap) hl s.tdl.stray rfl
      exact ⟨_, runEvent_some hr s.restartGap, flight, gap, fixed, stray⟩
    · obtain ⟨flight, gap, stray, fixed⟩ := finish_activity hl false rfl
      refine ⟨_, reply_stray hr (replyEnding_none (.inr none)) hc, flight, gap, fixed, ?_⟩
      rcases hc with ⟨l, rfl⟩ | ⟨m, rfl⟩
      · exact stray
      · exact stray
  case stray =>
    obtain ⟨flight, gap, stray, fixed⟩ := finish_activity hl false rfl
    exact ⟨_, reply_stray hr (replyEnding_none (.inl hs)) hc, flight, gap, stray, fixed⟩

end Sys2Proof.Machine

namespace Sys2Proof.Machine

/-! ### Marks and retire Drives that wait (R87, R139) -/

/-- The owed marks are as they were, and of every slot the generation and the retire Drive. -/
structure Owes (s t : State) : Prop where
  gens : t.frt.gens = s.frt.gens
  follow : t.frt.followOwed = s.frt.followOwed
  slots : ∀ h, (t.slot h).gen = (s.slot h).gen ∧ (t.slot h).retireDrive = (s.slot h).retireDrive

theorem Owes.refl (s : State) : Owes s s := ⟨rfl, rfl, fun _ => ⟨rfl, rfl⟩⟩

theorem Owes.trans {s t u : State} (h : Owes s t) (k : Owes t u) : Owes s u :=
  ⟨k.gens.trans h.gens, k.follow.trans h.follow,
    fun g => ⟨(k.slots g).1.trans (h.slots g).1, (k.slots g).2.trans (h.slots g).2⟩⟩

theorem foldl_owes {α : Type} {f : State → α → State} (hf : ∀ u x, Owes u (f u x)) :
    ∀ (l : List α) (s : State), Owes s (l.foldl f s)
  | [], s => .refl s
  | x :: xs, s => (hf s x).trans (foldl_owes hf xs (f s x))

theorem setSlot_owes (s : State) (h : Handle) {x : Slot}
    (hx : x.gen = (s.slot h).gen ∧ x.retireDrive = (s.slot h).retireDrive) : Owes s (s.setSlot h x) := by
  refine ⟨rfl, rfl, fun k => ?_⟩
  by_cases e : h = k
  · rw [← e, slot_setSlot]
    exact hx
  · rw [slot_setSlot_ne _ _ e]
    exact ⟨rfl, rfl⟩

theorem modifySlot_owes (s : State) (h : Handle) {f : Slot → Slot}
    (hf : ∀ x, (f x).gen = x.gen ∧ (f x).retireDrive = x.retireDrive) : Owes s (s.modifySlot h f) :=
  setSlot_owes s h (hf _)

theorem retireRecord_owes (s : State) (h : Handle) (x : RetireReason) : Owes s (s.retireRecord h x) := by
  have ended : ∀ u : State, Owes u (u.endProofOf h) := by
    intro u
    unfold State.endProofOf
    split
    · split
      · exact ⟨rfl, rfl, fun _ => ⟨rfl, rfl⟩⟩
      · exact .refl u
    · exact .refl u
  have freed : ∀ (u : State) (r : Record), Owes u (u.freeGuardOf r) := by
    intro u r
    unfold State.freeGuardOf
    split
    · exact ⟨rfl, rfl, fun _ => ⟨rfl, rfl⟩⟩
    · exact .refl u
  have confirm : ∀ u : State, Owes u (u.removeConfirm h) := fun u => modifySlot_owes u h fun _ => ⟨rfl, rfl⟩
  have cleared : ∀ r, Owes s (s.clearRecord h r) := by
    intro r
    unfold State.clearRecord
    refine Owes.trans (Owes.trans (Owes.trans ?_ (ended _)) (confirm _)) (freed _ r)
    split <;> exact ⟨rfl, rfl, fun _ => ⟨rfl, rfl⟩⟩
  unfold State.retireRecord
  split
  · exact (cleared _).trans (modifySlot_owes _ h fun _ => ⟨rfl, rfl⟩)
  · exact .refl s

theorem retireAll_owes (s : State) (x : RetireReason) : Owes s (s.retireAll x false) := by
  have one : ∀ (u : State) (h : Handle), Owes u (u.retireOne x false h) := by
    intro u h
    unfold State.retireOne
    split
    · exact retireRecord_owes u h x
    · exact .refl u
  rw [retireAll_eq]
  exact foldl_owes one allHandles s

theorem emptyBlocks_owes (s : State) : Owes s s.emptyBlocks := by
  obtain ⟨-, -, -, -, slots⟩ := emptyBlocks_cleared s
  refine ⟨?_, ?_, fun h => by rw [slots]; exact ⟨rfl, rfl⟩⟩
  all_goals
    unfold State.emptyBlocks
    obtain ⟨a, ha⟩ : ∃ a, allHandles.foldl State.removeConfirm s = a := ⟨_, rfl⟩
    obtain ⟨b, hb⟩ : ∃ b, (List.finRange 6).foldl (fun u g => u.setGuard g Guard.reset) a = b := ⟨_, rfl⟩
    obtain ⟨c, hc⟩ : ∃ c, (List.finRange 18).foldl (fun u x => u.setList x []) b = c := ⟨_, rfl⟩
    dsimp only
    rw [ha, hb, hc]
  · have confirms := foldl_same (f := State.removeConfirm) (p := fun u => u.frt.gens) (fun _ _ => rfl) allHandles s
    have guards := foldl_same (f := fun u g => u.setGuard g Guard.reset) (p := fun u => u.frt.gens) (fun _ _ => rfl)
      (List.finRange 6) a
    have lists := foldl_same (f := fun u x => u.setList x []) (p := fun u => u.frt.gens) (fun _ _ => rfl) (List.finRange 18) b
    rw [ha] at confirms
    rw [hb] at guards
    rw [hc] at lists
    exact lists.trans (guards.trans confirms)
  · have confirms := foldl_same (f := State.removeConfirm) (p := fun u => u.frt.followOwed) (fun _ _ => rfl) allHandles s
    have guards := foldl_same (f := fun u g => u.setGuard g Guard.reset) (p := fun u => u.frt.followOwed) (fun _ _ => rfl)
      (List.finRange 6) a
    have lists := foldl_same (f := fun u x => u.setList x []) (p := fun u => u.frt.followOwed) (fun _ _ => rfl)
      (List.finRange 18) b
    rw [ha] at confirms
    rw [hb] at guards
    rw [hc] at lists
    exact lists.trans (guards.trans confirms)

theorem dropSamplesTo_owes (s : State) (p : Addr → Bool) : Owes s (s.dropSamplesTo p) := by
  refine foldl_owes (fun u h => ?_) allHandles s
  split
  · split
    · exact modifySlot_owes u h fun _ => ⟨rfl, rfl⟩
    · exact .refl u
  · exact .refl u

/-- The outcome told to a retire Drive's slot by the Drives abandoned (R87). -/
theorem afterOutcome_twice (x : RetireDrive) : x.afterOutcome.afterOutcome = x.afterOutcome := by
  cases x <;> rfl

/-- One abandoned request: the outcome of a Drive reaches its own slot's retire Drive. -/
theorem abandoned_owes {s : State} (h : s.asksNothing) (r : Request) : (s.abandoned r).frt = s.frt
    ∧ ∀ k, ((s.abandoned r).slot k).gen = (s.slot k).gen ∧ ((s.abandoned r).slot k).retireDrive =
        if r.isDriveFor k then (s.slot k).retireDrive.afterOutcome else (s.slot k).retireDrive := by
  obtain ⟨request, recat⟩ := h
  obtain ⟨p, proof⟩ := proofOutcome_abandoned s
  have same : ∀ t : State, Owes s t → t.frt = s.frt → (∀ k, r.isDriveFor k = false) → t.frt = s.frt
      ∧ ∀ k, (t.slot k).gen = (s.slot k).gen ∧ (t.slot k).retireDrive =
        if r.isDriveFor k then (s.slot k).retireDrive.afterOutcome else (s.slot k).retireDrive := by
    intro t o hf hd
    refine ⟨hf, fun k => ?_⟩
    rw [hd k]
    exact o.slots k
  cases r with
  | drive d =>
      refine ⟨rfl, fun k => ?_⟩
      show ((s.clearRetireMark d.handle).slot k).gen = _ ∧ ((s.clearRetireMark d.handle).slot k).retireDrive = _
      unfold State.clearRetireMark Request.isDriveFor
      by_cases e : d.handle = k
      · rw [← e, slot_modifySlot]
        simp
      · rw [slot_modifySlot_ne _ _ e]
        simp [e]
  | describe a i b =>
      refine same _ ?_ ?_ fun _ => rfl
      · cases b <;> simp only [State.abandoned, bueRequestGone_none request, endRecat_none recat] <;> exact .refl s
      · cases b <;> simp only [State.abandoned, bueRequestGone_none request, endRecat_none recat]
  | probe | assign | extend =>
      have gone := bueRequestGone_none request
      exact same s.bueRequestGone (by rw [gone]; exact .refl s) (by rw [gone]) fun _ => rfl
  | release a b =>
      refine same _ ?_ ?_ fun _ => rfl
      · cases b <;> simp only [State.abandoned, bueRequestGone_none request] <;> exact .refl s
      · cases b <;> simp only [State.abandoned, bueRequestGone_none request]
  | prove a i =>
      simp only [State.abandoned, proof]
      exact same _ ⟨rfl, rfl, fun _ => ⟨rfl, rfl⟩⟩ rfl fun _ => rfl
  | sample w a i x g =>
      cases w with
      | proving =>
          simp only [State.abandoned, proof]
          exact same _ ⟨rfl, rfl, fun _ => ⟨rfl, rfl⟩⟩ rfl fun _ => rfl
      | confirm =>
          simp only [State.abandoned, confirmOutcome_abandoned]
          have mark : Owes s (s.clearMark x) := modifySlot_owes s x fun _ => ⟨rfl, rfl⟩
          exact same _ (mark.trans ⟨rfl, rfl, fun _ => ⟨rfl, rfl⟩⟩) rfl fun _ => rfl
  | hail | releaseAll | phaseMark => exact same s (.refl s) rfl fun _ => rfl

theorem foldl_abandoned_owes (l : List Request) {s : State} (h : s.asksNothing) : (l.foldl State.abandoned s).frt = s.frt
    ∧ ∀ k, ((l.foldl State.abandoned s).slot k).gen = (s.slot k).gen ∧ ((l.foldl State.abandoned s).slot k).retireDrive =
        if l.any (Request.isDriveFor k) then (s.slot k).retireDrive.afterOutcome else (s.slot k).retireDrive := by
  induction l generalizing s with
  | nil => exact ⟨rfl, fun _ => ⟨rfl, rfl⟩⟩
  | cons r l ih =>
      have keeps := abandoned_keeps h r
      obtain ⟨frt, slots⟩ := abandoned_owes h r
      obtain ⟨frt', slots'⟩ := ih (s := s.abandoned r) ⟨by rw [keeps.bue]; exact h.1, keeps.recat.trans h.2⟩
      refine ⟨frt'.trans frt, fun k => ⟨(slots' k).1.trans (slots k).1, ?_⟩⟩
      rw [List.foldl_cons, (slots' k).2, (slots k).2, List.any_cons]
      cases r.isDriveFor k <;> cases l.any (Request.isDriveFor k) <;> simp [afterOutcome_twice]

/-- Every Drive abandoned tells its retire Drive, in whichever class it stood. -/
theorem abandonWhere_owes {s : State} (h : s.asksNothing) {p : Request → Bool} (hp : ∀ d, p (.drive d) = true) :
    (s.abandonWhere p).frt = s.frt ∧ ∀ k, ((s.abandonWhere p).slot k).gen = (s.slot k).gen
      ∧ ((s.abandonWhere p).slot k).retireDrive =
        if s.driveQueued k then (s.slot k).retireDrive.afterOutcome else (s.slot k).retireDrive := by
  obtain ⟨x, e⟩ := withoutRequests_eq s p
  rw [abandonWhere_eq, e]
  obtain ⟨frt, slots⟩ := foldl_abandoned_owes (s.tdl.ofKind p) (s := { s with tdl := x }) h
  have queued : ∀ k, (s.tdl.ofKind p).any (Request.isDriveFor k) = s.driveQueued k := by
    intro k
    have drives : (fun r => p r && r.isDriveFor k) = Request.isDriveFor k := by
      funext r
      cases r with
      | drive d => rw [hp d, Bool.true_and]
      | _ => exact Bool.and_false _
    rw [ofKind_any, drives]
    rfl
  simp only [queued] at slots
  exact ⟨frt, slots⟩

end Sys2Proof.Machine

namespace Sys2Proof.Machine

/-! ### Claims made in turn, while a class has room (R14, R15) -/

/-- A pass whose every step claims what it asks for, as far as a class has room, claims what all of them ask for, as far as
it has room. -/
theorem foldl_claims {α : Type} {f : State → α → State} {add : Tdl → List Request → Tdl} {room : Tdl → Nat}
    {ask : State → α → List Request} {P : State → List α → Prop}
    (nil : ∀ t, add t [] = t) (append : ∀ t a b, add (add t a) b = add t (a ++ b))
    (less : ∀ t a, room (add t a) = room t - a.length)
    (step : ∀ u x l, P u (x :: l) → x ∉ l → (f u x).tdl = add u.tdl ((ask u x).take (room u.tdl)) ∧ P (f u x) l
      ∧ ∀ y ∈ l, ask (f u x) y = ask u y) :
    ∀ (l : List α) (u : State), P u l → l.Nodup → (l.foldl f u).tdl = add u.tdl ((l.flatMap (ask u)).take (room u.tdl))
  | [], u, _, _ => by
      rw [List.flatMap_nil, List.take_nil, nil]
      rfl
  | x :: l, u, p, d => by
      obtain ⟨out, rest⟩ := List.nodup_cons.mp d
      obtain ⟨claimed, after, others⟩ := step u x l p out
      have asks : l.flatMap (ask (f u x)) = l.flatMap (ask u) := List.flatMap_congr others
      rw [List.foldl_cons, foldl_claims nil append less step l (f u x) after rest, claimed, append, asks, less,
        List.flatMap_cons, List.take_append, List.length_take]
      congr 2
      congr 1
      omega

/-- What claims append to the routine class. -/
def Tdl.addRoutine (t : Tdl) (l : List Request) : Tdl := { t with routine := t.routine ++ l }

/-- What claims append to the urgent class. -/
def Tdl.addUrgent (t : Tdl) (l : List Request) : Tdl := { t with urgent := t.urgent ++ l }

/-- The room left in the routine class (R14). -/
def Tdl.routineRoom (t : Tdl) : Nat := 24 - t.routineOf fun _ => true

/-- The room left in the urgent class (R14). -/
def Tdl.urgentRoom (t : Tdl) : Nat := 8 - t.urgentOf fun _ => true

theorem routineRoom_add (t : Tdl) (l : List Request) : (t.addRoutine l).routineRoom = t.routineRoom - l.length := by
  unfold Tdl.routineRoom
  rw [routineOf_eq, routineOf_eq, List.filter_true, List.filter_true]
  have flying : (t.addRoutine l).flying false (fun _ => true) = t.flying false fun _ => true := rfl
  have length : (t.addRoutine l).routine.length = t.routine.length + l.length := List.length_append
  omega

theorem urgentRoom_add (t : Tdl) (l : List Request) : (t.addUrgent l).urgentRoom = t.urgentRoom - l.length := by
  unfold Tdl.urgentRoom
  rw [urgentOf_eq, urgentOf_eq, List.filter_true, List.filter_true]
  have flying : (t.addUrgent l).flying true (fun _ => true) = t.flying true fun _ => true := rfl
  have length : (t.addUrgent l).urgent.length = t.urgent.length + l.length := List.length_append
  omega

/-! ### Retire Drives placed (R87) -/

/-- The retire Drive that a slot has still to place. -/
def State.retireDriveOf (s : State) (h : Handle) : Option Request :=
  match (s.slot h).retireDrive with
  | .unplaced a i w =>
      some (.drive { address := a, index := i, handle := h, gen := (s.slot h).gen, word := w, prior := none })
  | _ => none

/-- No Drive stands in the urgent class or on the line, and none for the handles in the routine class. -/
def State.drivesOpen (s : State) (l : List Handle) : Prop :=
  s.tdl.line ≠ .down ∧ (∀ f, s.tdl.inFlight = some f → f.req.isDrive = false) ∧ (∀ r ∈ s.tdl.urgent, r.isDrive = false)
  ∧ ∀ h ∈ l, ∀ r ∈ s.tdl.routine, r.isDriveFor h = false

theorem isDrive_drive (d : DriveReq) : (Request.drive d).isDrive = true := rfl

/-- The claim of a Drive for a handle that has none in the queue is taken while there is room (R15). -/
theorem claimDrive_open {s : State} {d : DriveReq} {l : List Handle} (h : s.drivesOpen l) (hd : d.handle ∈ l) :
    s.claimDrive d false =
      if s.routineEntries < 24 then (s.setRoutine (s.tdl.routine ++ [.drive d]), .taken) else (s, .full) := by
  obtain ⟨line, flight, urgent, routine⟩ := h
  rw [claimDrive_new line]
  · rfl
  · rintro ⟨f, x, hf, hx, -⟩
    have := flight f hf
    rw [hx] at this
    cases this
  · rintro ⟨x, hx, -⟩
    cases urgent _ hx
  · rintro ⟨x, hx, hh⟩
    have := routine d.handle hd _ hx
    simp [Request.isDriveFor, hh] at this

theorem retireDriveOf_slot {s t : State} {h : Handle} (e : t.slot h = s.slot h) : t.retireDriveOf h = s.retireDriveOf h := by
  unfold State.retireDriveOf
  rw [e]

theorem placeRetireDrive_step (s : State) (h : Handle) (l : List Handle) (o : s.drivesOpen (h :: l)) (out : h ∉ l) :
    (s.placeRetireDrive h).tdl = s.tdl.addRoutine ((s.retireDriveOf h).toList.take s.tdl.routineRoom)
    ∧ (s.placeRetireDrive h).drivesOpen l
    ∧ ∀ k ∈ l, ((s.placeRetireDrive h).retireDriveOf k).toList = (s.retireDriveOf k).toList := by
  obtain ⟨line, flight, urgent, routine⟩ := o
  have rest : ∀ k ∈ l, ∀ r ∈ s.tdl.routine, r.isDriveFor k = false := fun k hk => routine k (List.mem_cons_of_mem _ hk)
  have nothing : s.retireDriveOf h = none → s.tdl = s.tdl.addRoutine ((s.retireDriveOf h).toList.take s.tdl.routineRoom) := by
    intro none
    rw [none, Option.toList_none, List.take_nil, Tdl.addRoutine, List.append_nil]
  unfold State.placeRetireDrive
  split
  · next a i w hw =>
      have asks : s.retireDriveOf h = some (.drive
          { address := a, index := i, handle := h, gen := (s.slot h).gen, word := w, prior := none }) := by
        unfold State.retireDriveOf
        rw [hw]
      generalize hd : ({ address := a, index := i, handle := h, gen := (s.slot h).gen, word := w, prior := none } : DriveReq)
        = d at asks
      have handle : d.handle = h := by rw [← hd]
      rw [claimDrive_open (l := h :: l) ⟨line, flight, urgent, routine⟩ (by rw [handle]; exact List.mem_cons_self), asks]
      by_cases room : s.routineEntries < 24
      · rw [if_pos room]
        dsimp only
        have one : s.tdl.routineRoom = s.tdl.routineRoom - 1 + 1 := by
          unfold Tdl.routineRoom
          have : s.tdl.routineOf (fun _ => true) < 24 := room
          omega
        refine ⟨?_, ⟨line, flight, urgent, fun k hk r hr => ?_⟩, fun k hk => ?_⟩
        · rw [one, Option.toList_some, List.take_succ_cons, List.take_nil]
          rfl
        · rcases List.mem_append.mp hr with hr | hr
          · exact rest k hk r hr
          · rw [List.mem_singleton.mp hr]
            have ne : d.handle ≠ k := fun e => out (by rw [← handle, e]; exact hk)
            simp [Request.isDriveFor, ne]
        · have ne : h ≠ k := fun e => out (e ▸ hk)
          exact congrArg Option.toList (retireDriveOf_slot (s := s) (slot_modifySlot_ne (s.setRoutine _) _ ne))
      · rw [if_neg room]
        dsimp only
        have full : s.tdl.routineRoom = 0 := by
          unfold Tdl.routineRoom
          have : ¬ s.tdl.routineOf (fun _ => true) < 24 := room
          omega
        refine ⟨?_, ⟨line, flight, urgent, rest⟩, fun k hk => rfl⟩
        rw [full, List.take_zero, Tdl.addRoutine, List.append_nil]
  · next other =>
      have asks : s.retireDriveOf h = none := by
        unfold State.retireDriveOf
        split
        · next a i w hw => exact absurd hw (other a i w)
        · rfl
      exact ⟨nothing asks, ⟨line, flight, urgent, rest⟩, fun k hk => rfl⟩

/-- The retire Drives of handles are placed in their order, while the routine class has room (R14, R15, R87). -/
theorem foldl_placeRetireDrive (l : List Handle) (s : State) (o : s.drivesOpen l) (d : l.Nodup) :
    (l.foldl State.placeRetireDrive s).tdl = s.tdl.addRoutine ((l.filterMap s.retireDriveOf).take s.tdl.routineRoom) := by
  have all := foldl_claims (f := State.placeRetireDrive) (add := Tdl.addRoutine) (room := Tdl.routineRoom)
    (ask := fun u h => (u.retireDriveOf h).toList) (P := State.drivesOpen)
    (fun t => by rw [Tdl.addRoutine, List.append_nil]) (fun t a b => by simp [Tdl.addRoutine]) routineRoom_add
    placeRetireDrive_step l s o d
  rw [all, List.filterMap_eq_flatMap_toList]

/-! ### Owed marks claimed again (R139) -/

/-- The Phase Mark that a mark still owed asks for, in a state in which marks are not refused. -/
def State.owedRequest (s : State) (o : Option OwedMark) : List Request :=
  if s.lineRuns then (o.map fun m => Request.phaseMark m.mask m.on).toList else []

theorem claimMark_room (s : State) (m : OwedMark) : (s.claimMark m.mask m.on).1.tdl =
    s.tdl.addUrgent ((s.owedRequest (some m)).take s.tdl.urgentRoom) := by
  unfold State.owedRequest
  rw [claimMark_eq]
  by_cases runs : s.lineRuns = true
  · have line : ¬ (s.tdl.line ≠ .ready ∧ s.tdl.line ≠ .busy) := by
      unfold State.lineRuns at runs
      simp only [Bool.or_eq_true, beq_iff_eq] at runs
      tauto
    rw [if_neg line, if_pos runs]
    by_cases room : s.urgentEntries < 8
    · have one : s.tdl.urgentRoom = s.tdl.urgentRoom - 1 + 1 := by
        unfold Tdl.urgentRoom
        have : s.tdl.urgentOf (fun _ => true) < 8 := room
        omega
      rw [if_pos room, one, Option.map_some, Option.toList_some, List.take_succ_cons, List.take_nil]
      rfl
    · have full : s.tdl.urgentRoom = 0 := by
        unfold Tdl.urgentRoom
        have : ¬ s.tdl.urgentOf (fun _ => true) < 8 := room
        omega
      rw [if_neg room, full, List.take_zero, Tdl.addUrgent, List.append_nil]
  · have line : s.tdl.line ≠ .ready ∧ s.tdl.line ≠ .busy := by
      unfold State.lineRuns at runs
      simp only [Bool.or_eq_true, beq_iff_eq] at runs
      tauto
    rw [if_pos line, if_neg runs, List.take_nil, Tdl.addUrgent, List.append_nil]

theorem lineRuns_addUrgent {s t : State} {l : List Request} (h : t.tdl = s.tdl.addUrgent l) : t.lineRuns = s.lineRuns := by
  unfold State.lineRuns
  rw [h]
  rfl

theorem owedRequest_none (s : State) : s.tdl = s.tdl.addUrgent ((s.owedRequest none).take s.tdl.urgentRoom) := by
  have : s.owedRequest none = [] := by
    unfold State.owedRequest
    split <;> rfl
  rw [this, List.take_nil, Tdl.addUrgent, List.append_nil]

theorem genNumber_injective {g k : Generator} (h : (genNumber g : Nat) = genNumber k) : g = k := by
  cases g <;> cases k <;> simp_all [genNumber]

theorem number_injective {x y : TurnSide} (h : (x.number : Nat) = y.number) : x = y := by
  cases x <;> cases y <;> simp_all [TurnSide.number]

/-- One generator's mark: the others' and those of the FOLLOWING channels stay. -/
theorem claimOwedGen_step (s : State) (g : Generator) :
    (s.claimOwedGen g).tdl = s.tdl.addUrgent ((s.owedRequest (s.gen g).owed).take s.tdl.urgentRoom)
    ∧ (∀ k, g ≠ k → ((s.claimOwedGen g).gen k).owed = (s.gen k).owed)
    ∧ (s.claimOwedGen g).frt.followOwed = s.frt.followOwed := by
  unfold State.claimOwedGen
  cases hm : (s.gen g).owed with
  | none => exact ⟨owedRequest_none s, fun _ _ => rfl, rfl⟩
  | some m =>
      obtain ⟨x, e⟩ := claimMark_tdl s m.mask m.on
      refine ⟨claimMark_room s m, fun k hk => ?_, ?_⟩
      · have ne : (genNumber g : Nat) ≠ genNumber k := fun e => hk (genNumber_injective e)
        dsimp only
        rw [e]
        simp [State.setOwed, State.setGen, State.gen, ne]
      · dsimp only
        rw [e]
        rfl

theorem claimOwedFollow_step (s : State) (x : TurnSide) :
    (s.claimOwedFollow x).tdl = s.tdl.addUrgent ((s.owedRequest s.frt.followOwed[x.number]).take s.tdl.urgentRoom)
    ∧ ∀ k, x ≠ k → (s.claimOwedFollow x).frt.followOwed[k.number] = s.frt.followOwed[k.number] := by
  unfold State.claimOwedFollow
  cases hm : s.frt.followOwed[x.number] with
  | none => exact ⟨owedRequest_none s, fun _ _ => rfl⟩
  | some m =>
      obtain ⟨y, e⟩ := claimMark_tdl s m.mask m.on
      refine ⟨claimMark_room s m, fun k hk => ?_⟩
      have ne : (x.number : Nat) ≠ k.number := fun e => hk (number_injective e)
      dsimp only
      rw [e]
      simp [State.setFollowOwed, ne]

/-- The marks still owed, in the order in which they are claimed (log entry 36). -/
def State.owedMarks (s : State) : List OwedMark :=
  [Generator.pair, .beacon, .virtual].filterMap (fun g => (s.gen g).owed)
    ++ [TurnSide.left, .right].filterMap fun x => s.frt.followOwed[x.number]

/-- Owed marks are claimed again in their order, while the urgent class has room. -/
theorem claimOwed_tdl (s : State) : s.claimOwed.tdl = s.tdl.addUrgent
    ((if s.lineRuns then s.owedMarks.map fun m => Request.phaseMark m.mask m.on else []).take s.tdl.urgentRoom) := by
  have nil : ∀ t : Tdl, t.addUrgent [] = t := fun t => by rw [Tdl.addUrgent, List.append_nil]
  have append : ∀ (t : Tdl) a b, (t.addUrgent a).addUrgent b = t.addUrgent (a ++ b) := fun t a b => by simp [Tdl.addUrgent]
  have gens := foldl_claims (f := State.claimOwedGen) (add := Tdl.addUrgent) (room := Tdl.urgentRoom)
    (ask := fun u g => u.owedRequest (u.gen g).owed) (P := fun _ _ => True) nil append urgentRoom_add
    (fun u g l _ out => by
      obtain ⟨tdl, others, -⟩ := claimOwedGen_step u g
      refine ⟨tdl, trivial, fun k hk => ?_⟩
      unfold State.owedRequest
      rw [lineRuns_addUrgent tdl, others k fun e => out (e ▸ hk)])
    [Generator.pair, .beacon, .virtual] s trivial (by decide)
  have follow : ([Generator.pair, .beacon, .virtual].foldl State.claimOwedGen s).frt.followOwed = s.frt.followOwed :=
    foldl_same (p := fun u : State => u.frt.followOwed) (fun u g => (claimOwedGen_step u g).2.2) _ s
  have runs := lineRuns_addUrgent gens
  unfold State.claimOwed
  generalize [Generator.pair, .beacon, .virtual].foldl State.claimOwedGen s = t at gens follow runs
  have sides := foldl_claims (f := State.claimOwedFollow) (add := Tdl.addUrgent) (room := Tdl.urgentRoom)
    (ask := fun u x => u.owedRequest u.frt.followOwed[x.number]) (P := fun _ _ => True) nil append urgentRoom_add
    (fun u x l _ out => by
      obtain ⟨tdl, others⟩ := claimOwedFollow_step u x
      refine ⟨tdl, trivial, fun k hk => ?_⟩
      unfold State.owedRequest
      rw [lineRuns_addUrgent tdl, others k fun e => out (e ▸ hk)])
    [TurnSide.left, .right] t trivial (by decide)
  have asks : (if s.lineRuns then s.owedMarks.map fun m => Request.phaseMark m.mask m.on else [])
      = [Generator.pair, .beacon, .virtual].flatMap (fun g => s.owedRequest (s.gen g).owed)
        ++ [TurnSide.left, .right].flatMap fun x => t.owedRequest t.frt.followOwed[x.number] := by
    unfold State.owedRequest State.owedMarks
    rw [runs, follow]
    split
    · rw [List.map_append, List.map_filterMap, List.map_filterMap, List.filterMap_eq_flatMap_toList,
        List.filterMap_eq_flatMap_toList]
    · simp
  rw [sides, gens, append, urgentRoom_add, asks, List.take_append, List.length_take]
  congr 3
  omega

end Sys2Proof.Machine

namespace Sys2Proof.Machine

/-! ### A link restart up to its Release (R50) -/

/-- A link restart once the records are retired and the blocks emptied. -/
def State.restartBase (s : State) : State :=
  ((s.abandonForRestart.retireAll .restart false).emptyBlocks).dropSamplesTo fun _ => true

theorem linkRestart_eq (s : State) : s.linkRestart = s.restartBase.releaseForRestart
    (s.retireDrivesFreed s.abandonForRestart) (s.tdl.inFlight.isSome && s.abandonForRestart.tdl.inFlight.isNone) := rfl

theorem restartRelease_iff (r : Request) : r.isRestartRelease = (r == .releaseAll) := by
  cases r <;> rfl

/-- Of the queue a link restart leaves the broadcast Releases. -/
theorem abandonForRestart_tdl (s : State) :
    s.abandonForRestart.tdl.urgent = s.tdl.urgent.filter (fun r => r == .releaseAll)
    ∧ s.abandonForRestart.tdl.routine = s.tdl.routine.filter (fun r => r == .releaseAll)
    ∧ s.abandonForRestart.tdl.inFlight = s.tdl.inFlight.filter (fun f => f.req == .releaseAll)
    ∧ s.abandonForRestart.tdl.line = s.tdl.line ∧ s.abandonForRestart.tdl.yieldDue = s.tdl.yieldDue := by
  unfold State.abandonForRestart
  rw [(abandonWhere_line _ _).1]
  obtain ⟨urgent, routine, line, due⟩ := withoutRequests_queue s.engineIdle fun r => !r.isRestartRelease
  have kept : (fun r : Request => !!r.isRestartRelease) = fun r => r == .releaseAll := by
    funext r
    rw [Bool.not_not, restartRelease_iff]
  refine ⟨by rw [urgent, kept]; rfl, by rw [routine, kept]; rfl, ?_, line, due⟩
  have idle : s.engineIdle.tdl = s.tdl := rfl
  cases hf : s.tdl.inFlight with
  | none => exact (withoutRequests_stays fun f h => by rw [idle, hf] at h; cases h).1.trans hf
  | some f =>
      rw [Option.filter_some, ← restartRelease_iff]
      cases hr : f.req.isRestartRelease with
      | true =>
          refine (withoutRequests_stays fun g h => ?_).1.trans hf
          rw [idle, hf] at h
          cases h
          simp [hr]
      | false => exact (withoutRequests_drops (s := s.engineIdle) hf (by simp [hr])).1

theorem abandonForRestart_keeps (s : State) : ClaimsKeep s.engineIdle s.abandonForRestart :=
  abandonWhere_keeps (engineIdle_asksNothing s) _

theorem abandonForRestart_owes (s : State) : s.abandonForRestart.frt = s.frt
    ∧ ∀ k, (s.abandonForRestart.slot k).gen = (s.slot k).gen ∧ (s.abandonForRestart.slot k).retireDrive =
      if s.driveQueued k then (s.slot k).retireDrive.afterOutcome else (s.slot k).retireDrive :=
  abandonWhere_owes (engineIdle_asksNothing s) fun _ => rfl

/-- The queue of a link restart, with `head` in the routine class, and what still waits to be placed (R50). -/
structure State.RestartQueue (s : State) (head : List Request) (t : State) : Prop where
  urgent : t.tdl.urgent = s.tdl.urgent.filter (fun r => r == .releaseAll)
  routine : t.tdl.routine = head
  inFlight : t.tdl.inFlight = s.tdl.inFlight.filter (fun f => f.req == .releaseAll)
  line : t.tdl.line = s.tdl.line
  gens : t.frt.gens = s.frt.gens
  follow : t.frt.followOwed = s.frt.followOwed
  drives : ∀ k, (t.slot k).gen = (s.slot k).gen ∧ (t.slot k).retireDrive =
    if s.driveQueued k then (s.slot k).retireDrive.afterOutcome else (s.slot k).retireDrive

/-- What a link restart clears, and what it leaves: the engine idle, the blocks empty, the entries without digests, and the
records retired without joining (R50, R66, R134). -/
structure State.RestartCleared (s t : State) : Prop where
  cleared : s.trailerCleared t
  quiet : t.engineQuiet
  attention : t.fdir.attention = s.fdir.attention
  retired : ∀ k, (s.live k).isSome = true → t.retiredFor .restart false k
  digests : ∀ n ∈ t.ntab.nodes, n.endDigest = none
  addresses : t.ntab.nodes.map (·.address) = s.ntab.nodes.map (·.address)

theorem dropSamplesTo_same (s : State) (p : Addr → Bool) : (s.dropSamplesTo p).tdl = s.tdl
    ∧ ClaimsKeep s (s.dropSamplesTo p) ∧ (s.dropSamplesTo p).fdir.attention = s.fdir.attention := by
  have m : Moves .claim s (s.dropSamplesTo p) := dropSamplesTo_moves .nil p
  refine ⟨?_, m.claimsKeep, ?_⟩
  · refine foldl_same (p := State.tdl) (fun v h => ?_) allHandles s
    split
    · split <;> rfl
    · rfl
  · generalize s.dropSamplesTo p = t at m
    exact congrArg Still.attention (m.still (.inl rfl))

theorem restartBase_cleared (s : State) :
    s.RestartQueue (s.tdl.routine.filter fun r => r == .releaseAll) s.restartBase ∧ s.RestartCleared s.restartBase := by
  obtain ⟨urgent, routine, inFlight, line, -⟩ := abandonForRestart_tdl s
  have idle := abandonForRestart_keeps s
  obtain ⟨frt, drives⟩ := abandonForRestart_owes s
  obtain ⟨live, attention⟩ := abandonWhere_records s.engineIdle fun r => !r.isRestartRelease
  have eq : s.restartBase = ((s.abandonForRestart.retireAll .restart false).emptyBlocks).dropSamplesTo fun _ => true := rfl
  rw [eq]
  unfold State.abandonForRestart at *
  generalize s.engineIdle.abandonWhere (fun r => !r.isRestartRelease) = a at *
  obtain ⟨retires, atdl⟩ := retireAll_keeps a .restart false
  have aowes := retireAll_owes a .restart
  have aattention := retireAll_attention a .restart
  have dead := retireAll_live a .restart false
  have retired := fun k (hl : (a.live k).isSome = true) => retireAll_retired .restart false hl
  generalize a.retireAll .restart false = b at *
  have empties := emptyBlocks_keeps b
  have etdl := emptyBlocks_tdl b
  have eowes := emptyBlocks_owes b
  have eattention := emptyBlocks_attention b
  have empty := emptyBlocks_empty dead
  have erecord := emptyBlocks_record b
  generalize b.emptyBlocks = c at *
  obtain ⟨dtdl, dkeeps, dattention⟩ := dropSamplesTo_same c fun _ => true
  have beside := dropSamplesTo_beside c fun _ => true
  have owes := (aowes.trans eowes).trans (dropSamplesTo_owes c fun _ => true)
  generalize (c.dropSamplesTo fun _ => true) = d at *
  have tdl : d.tdl = a.tdl := dtdl.trans (etdl.trans atdl)
  have keeps : ClaimsKeep s.engineIdle d := ((idle.trans retires).trans empties).trans dkeeps
  have nodes : d.ntab.nodes = s.ntab.nodes.map NodeEntry.noDigest := congrArg Ntab.nodes keeps.ntab
  refine ⟨⟨by rw [tdl, urgent], by rw [tdl, routine], by rw [tdl, inFlight], by rw [tdl, line],
    owes.gens.trans (congrArg Frt.gens frt), owes.follow.trans (congrArg Frt.followOwed frt), fun k => ?drives⟩,
    ⟨trailerCleared_iff.mpr ⟨beside.empty empty, by rw [keeps.bue]; exact Bue.reset_cleared, keeps.recat,
      by rw [keeps.ktl]; rfl, keeps.inputs, keeps.sources, keeps.chans, keeps.run⟩,
    ⟨congrArg Bue.dropping keeps.bue, congrArg Bue.deferred keeps.bue⟩,
    dattention.trans (eattention.trans (aattention.trans attention)), fun k hl => ?retired, fun n hn => ?digests, ?addresses⟩⟩
  case drives =>
    obtain ⟨gen, mark⟩ := owes.slots k
    exact ⟨gen.trans (drives k).1, mark.trans (drives k).2⟩
  case retired =>
    obtain ⟨⟨r, hr, reason⟩, -⟩ := retired k ((live k).trans hl)
    exact ⟨⟨r, (beside.slots k).1.trans ((erecord k).trans hr), reason⟩, fun q => by cases q⟩
  case digests =>
    rw [nodes] at hn
    obtain ⟨m, -, rfl⟩ := List.mem_map.mp hn
    rfl
  case addresses =>
    rw [nodes, List.map_map]
    rfl

/-! ### What follows keeps it cleared -/

theorem RestartCleared_claims {s t u : State} (h : s.RestartCleared t) (m : Moves .claim t u) (beside : Beside t u) :
    s.RestartCleared u := by
  have keeps := m.claimsKeep
  obtain ⟨empty, bue, recat, waiting, inputs, sources, chans, run⟩ := trailerCleared_iff.mp h.cleared
  refine ⟨trailerCleared_iff.mpr ⟨beside.empty empty, by rw [keeps.bue]; exact bue, keeps.recat.trans recat,
    by rw [keeps.ktl]; exact waiting, keeps.inputs.trans inputs, keeps.sources.trans sources, keeps.chans.trans chans,
    fun g => (keeps.run g).trans (run g)⟩, ?_, ?_, fun k hl => ?_, by rw [keeps.ntab]; exact h.digests,
    by rw [keeps.ntab]; exact h.addresses⟩
  · unfold State.engineQuiet
    rw [keeps.bue]
    exact h.quiet
  · exact (congrArg Still.attention (m.still (.inl rfl))).trans h.attention
  · obtain ⟨⟨r, hr, reason⟩, -⟩ := h.retired k hl
    exact ⟨⟨r, (beside.slots k).1.trans hr, reason⟩, fun q => by cases q⟩

theorem freeze_same {β : Type} (p : State → β) (slot : ∀ u h x, p (State.setSlot u h x) = p u)
    (ntab : ∀ u n, p (State.setNtab u n) = p u) (bue : ∀ u b, p (State.setBue u b) = p u) (s : State) :
    p s.freeze = p s := by
  unfold State.freeze
  exact (mapConfirms_same p slot _ _).trans ((bue _ _).trans (ntab _ _))

/-- The entry to YIELDED changes none of the other blocks. -/
theorem enterYielded_same (s : State) : s.enterYielded.prv = s.prv ∧ s.enterYielded.drt = s.drt
    ∧ s.enterYielded.frt = s.frt ∧ s.enterYielded.ktl = s.ktl ∧ s.enterYielded.fdir.recat = s.fdir.recat := by
  obtain ⟨x, e⟩ := interrupt_eq s
  unfold State.enterYielded
  dsimp only
  rw [freeze_same State.prv (fun _ _ _ => rfl) (fun _ _ => rfl) fun _ _ => rfl,
    freeze_same State.drt (fun _ _ _ => rfl) (fun _ _ => rfl) fun _ _ => rfl,
    freeze_same State.frt (fun _ _ _ => rfl) (fun _ _ => rfl) fun _ _ => rfl,
    freeze_same State.ktl (fun _ _ _ => rfl) (fun _ _ => rfl) fun _ _ => rfl,
    freeze_same (fun u => u.fdir.recat) (fun _ _ _ => rfl) (fun _ _ => rfl) fun _ _ => rfl, e]
  exact ⟨rfl, rfl, rfl, rfl, rfl⟩

/-- Nothing of it runs: the clocks that stand still are stopped ones. -/
theorem RestartCleared_yields {s t : State} (h : s.RestartCleared t) : s.RestartCleared t.enterYielded
    ∧ t.enterYielded.ntab.hold = t.ntab.hold ∧ t.enterYielded.bue = t.bue := by
  obtain ⟨hprv, hdrt, hfrt, hktl, hrecat⟩ := enterYielded_same t
  obtain ⟨-, nodes, engine, slots⟩ := enterYielded_stoodStill t
  obtain ⟨haddresses, hattention⟩ := enterYielded_addresses t
  obtain ⟨⟨prv, pend, lists, guards, dead⟩, bue, recat, waiting, inputs, sources, chans, run⟩ := trailerCleared_iff.mp h.cleared
  have stopped : t.bue.frontier = .stopped := bue.2.2.2.2.2.2.2.1
  have same : t.enterYielded.bue = t.bue := by
    rw [engine, stopped]
    show { t.bue with frontier := .stopped } = t.bue
    rw [← stopped]
  have record : ∀ k, t.enterYielded.record k = t.record k := fun k => by
    show (t.enterYielded.slot k).record = (t.slot k).record
    rw [slots k]
  refine ⟨⟨trailerCleared_iff.mpr ⟨⟨hprv.trans prv, by rw [hdrt]; exact pend, fun x => ?_, fun g => ?_, fun k => ⟨?_, ?_⟩⟩,
    by rw [same]; exact bue, hrecat.trans recat, by rw [hktl]; exact waiting, by rw [hdrt]; exact inputs,
    by rw [hdrt]; exact sources, by rw [hfrt]; exact chans, fun g => ?_⟩, ?_, hattention.trans h.attention, fun k hl => ?_,
    fun n hn => ?_, haddresses.trans h.addresses⟩, by rw [nodes], same⟩
  · unfold State.list
    rw [hdrt]
    exact lists x
  · unfold State.guard
    rw [hfrt]
    exact guards g
  · rw [live_of_record (record k)]
    exact (dead k).1
  · rw [slots k, (dead k).2]
    rfl
  · unfold State.gen
    rw [hfrt]
    exact run g
  · unfold State.engineQuiet
    rw [same]
    exact h.quiet
  · obtain ⟨⟨r, hr, reason⟩, -⟩ := h.retired k hl
    exact ⟨⟨r, (record k).trans hr, reason⟩, fun q => by cases q⟩
  · rw [nodes] at hn
    obtain ⟨m, hm, rfl⟩ := List.mem_map.mp hn
    exact h.digests m hm

end Sys2Proof.Machine

namespace Sys2Proof.Machine

/-! ### The Release of a link restart (R50) -/

/-- The broadcast Release is placed, unless one stands in the queue. -/
def State.restartClaimed (s : State) : State :=
  if s.queued Request.isRestartRelease then s else (s.claimRoutine .releaseAll).1

/-- The entries are held until the Release ends. -/
def State.restartHeld (s : State) : State := { s.restartClaimed with
  ntab := { s.restartClaimed.ntab with
    hold := true, nodes := s.restartClaimed.ntab.nodes.map fun n => { n with heard := n.heard.hold s.restartClaimed.now } }
  bue := { s.restartClaimed.bue with restart := .releasing } }

/-- What stands in the routine class of a link restart before the retire Drives that follow. -/
def State.restartHead (s : State) : List Request :=
  if s.tdl.line = .down ∨ s.queued (fun r => r == .releaseAll) = true then s.tdl.routine.filter fun r => r == .releaseAll
  else [.releaseAll]

theorem releaseForRestart_down {s : State} (h : s.tdl.line = .down) (freed : List Handle) (ended : Bool) :
    s.releaseForRestart freed ended = s := by
  unfold State.releaseForRestart
  simp [h]

theorem releaseForRestart_up {s : State} (h : s.tdl.line ≠ .down) (freed : List Handle) (ended : Bool) :
    s.releaseForRestart freed ended = if ended then s.restartHeld.onAttemptEnd.yieldIfDue
      else freed.foldl State.placeRetireDrive s.restartHeld := by
  have up : (s.tdl.line == .down) = false := by simpa using h
  unfold State.releaseForRestart
  rw [up]
  rfl

/-- The Release stands in the queue that a link restart leaves where it did before. -/
theorem RestartQueue_queued {s t : State} (h : s.RestartQueue (s.tdl.routine.filter fun r => r == .releaseAll) t) :
    t.queued Request.isRestartRelease = s.queued fun r => r == .releaseAll := by
  have release : Request.isRestartRelease = fun r => r == .releaseAll := funext restartRelease_iff
  unfold State.queued State.inFlightIs
  rw [release, h.urgent, h.routine, h.inFlight]
  congr 1
  · simp only [List.any_filter, Bool.and_self]
  · cases s.tdl.inFlight with
    | none => rfl
    | some f =>
        rw [Option.filter_some]
        cases hf : f.req == .releaseAll with
        | true => rfl
        | false => exact hf.symm

theorem queued_none {s : State} {p : Request → Bool} (h : s.queued p = false) :
    s.tdl.urgent.filter p = [] ∧ s.tdl.routine.filter p = [] ∧ s.tdl.inFlight.filter (fun f => p f.req) = none := by
  have out : ∀ r, p r = true → ¬ (r ∈ s.tdl.urgent ∨ r ∈ s.tdl.routine ∨ ∃ f, s.tdl.inFlight = some f ∧ f.req = r) := by
    intro r hr hq
    rw [queued_iff.mpr ⟨r, hr, hq⟩] at h
    cases h
  refine ⟨List.filter_eq_nil_iff.mpr fun r hm hr => out r hr (.inl hm),
    List.filter_eq_nil_iff.mpr fun r hm hr => out r hr (.inr (.inl hm)), Option.filter_eq_none_iff.mpr fun f hf hr =>
      out f.req hr (.inr (.inr ⟨f, hf, rfl⟩))⟩

theorem restartClaimed_eq {s t : State} (h : s.RestartQueue (s.tdl.routine.filter fun r => r == .releaseAll) t)
    (up : s.tdl.line ≠ .down) : t.restartClaimed = { t with tdl := { t.tdl with routine := s.restartHead } } := by
  unfold State.restartClaimed State.restartHead
  rw [RestartQueue_queued h]
  cases hq : s.queued fun r => r == .releaseAll with
  | true =>
      rw [if_pos rfl, if_pos (.inr rfl), ← h.routine]
  | false =>
      obtain ⟨-, routine, flight⟩ := queued_none hq
      have empty : t.tdl.routine = [] := h.routine.trans routine
      have room : t.routineEntries < 24 := by
        show t.tdl.routineOf (fun _ => true) < 24
        unfold Tdl.routineOf
        rw [empty, h.inFlight, flight]
        decide
      rw [if_neg (by simp), if_neg (by simp [up]), claimRoutine_eq, if_neg (by rw [h.line]; exact up), if_pos room, empty]
      rfl

theorem restartHeld_tdl {s t : State} (h : s.RestartQueue (s.tdl.routine.filter fun r => r == .releaseAll) t)
    (up : s.tdl.line ≠ .down) : t.restartHeld.tdl = { t.tdl with routine := s.restartHead } := by
  unfold State.restartHeld
  rw [restartClaimed_eq h up]

/-- With the Release placed the restart is under way, and all is cleared. -/
theorem restartHeld_cleared {s t : State} (h : s.RestartQueue (s.tdl.routine.filter fun r => r == .releaseAll) t)
    (c : s.RestartCleared t) (up : s.tdl.line ≠ .down) :
    s.RestartQueue s.restartHead t.restartHeld ∧ s.RestartCleared t.restartHeld
      ∧ t.restartHeld.ntab.hold = true ∧ t.restartHeld.bue.restart = .releasing := by
  obtain ⟨empty, bue, recat, waiting, inputs, sources, chans, run⟩ := trailerCleared_iff.mp c.cleared
  unfold State.restartHeld
  rw [restartClaimed_eq h up]
  refine ⟨⟨h.urgent, rfl, h.inFlight, h.line, h.gens, h.follow, h.drives⟩,
    ⟨trailerCleared_iff.mpr ⟨Beside.empty (s := t) ⟨rfl, rfl, rfl, fun _ => ⟨rfl, rfl⟩⟩ empty, bue, recat, waiting, inputs,
      sources, chans, run⟩, c.quiet, c.attention, c.retired, fun n hn => ?_, ?_⟩, rfl, rfl⟩
  · obtain ⟨m, hm, rfl⟩ := List.mem_map.mp hn
    exact c.digests m hm
  · rw [← c.addresses]
    dsimp only
    rw [List.map_map]
    rfl

/-- No Drive stands in the queue that a link restart leaves. -/
theorem RestartQueue_open {s t : State} (h : s.RestartQueue s.restartHead t) (up : s.tdl.line ≠ .down) (l : List Handle) :
    t.drivesOpen l := by
  have release : ∀ r : Request, r == .releaseAll → r = .releaseAll := fun r hr => by simpa using hr
  refine ⟨by rw [h.line]; exact up, fun f hf => ?_, fun r hr => ?_, fun k _ r hr => ?_⟩
  · rw [h.inFlight] at hf
    rw [release _ (Option.filter_eq_some_iff.mp hf).2]
    rfl
  · rw [h.urgent] at hr
    rw [release _ (List.mem_filter.mp hr).2]
    rfl
  · rw [h.routine] at hr
    unfold State.restartHead at hr
    split at hr
    · rw [release _ (List.mem_filter.mp hr).2]
      rfl
    · rw [List.mem_singleton.mp hr]
      rfl

/-! ### What the claims that follow leave as it is -/

theorem placeRetireDrive_same (s : State) (h : Handle) : Beside s (s.placeRetireDrive h)
    ∧ (s.placeRetireDrive h).frt = s.frt := by
  have mark : ∀ (u : State) (m : RetireDrive), Beside u (u.modifySlot h fun x => { x with retireDrive := m }) :=
    fun u m => modifySlot_beside u h fun _ => ⟨rfl, rfl⟩
  unfold State.placeRetireDrive
  split
  · next a i w _ =>
      obtain ⟨x, claimed⟩ := claimDrive_tdl s
        { address := a, index := i, handle := h, gen := (s.slot h).gen, word := w, prior := none } false
      dsimp only
      generalize s.claimDrive _ false = c at claimed
      obtain ⟨t, ans⟩ := c
      have e : t = { s with tdl := x } := claimed
      subst e
      cases ans with
      | taken | merged => exact ⟨(tdl_beside s x).trans (mark _ _), rfl⟩
      | down | inFlight => exact ⟨mark s _, rfl⟩
      | full => exact ⟨.refl s, rfl⟩
  · exact ⟨.refl s, rfl⟩

theorem claimOwed_beside (s : State) : Beside s s.claimOwed := by
  have gen : ∀ (u : State) (g : Generator), Beside u (u.claimOwedGen g) := by
    intro u g
    unfold State.claimOwedGen
    split
    · exact (claimMark_beside u _ _).trans ⟨rfl, rfl, rfl, fun _ => ⟨rfl, rfl⟩⟩
    · exact .refl u
  have follow : ∀ (u : State) (x : TurnSide), Beside u (u.claimOwedFollow x) := by
    intro u x
    unfold State.claimOwedFollow
    split
    · exact (claimMark_beside u _ _).trans ⟨rfl, rfl, rfl, fun _ => ⟨rfl, rfl⟩⟩
    · exact .refl u
  unfold State.claimOwed
  exact (foldl_beside gen _ s).trans (foldl_beside follow _ _)

theorem RestartCleared_placed {s t : State} (h : s.RestartCleared t) (l : List Handle) :
    s.RestartCleared (l.foldl State.placeRetireDrive t) ∧ ClaimsKeep t (l.foldl State.placeRetireDrive t) := by
  have m : Moves .claim t (l.foldl State.placeRetireDrive t) :=
    foldl_moves (fun _ k j => placeRetireDrive_moves j k) l _ .nil
  exact ⟨RestartCleared_claims h m (foldl_beside (fun u k => (placeRetireDrive_same u k).1) l t), m.claimsKeep⟩

/-- What the origins do when an attempt ends, where nothing is proved and the engine has nothing to place. -/
theorem onAttemptEnd_idle {s : State} (h : s.prv.proof = none) (q : s.bue.request = .none) :
    s.onAttemptEnd = s.placeRetireDrives.claimOwed.callPass.callDrain := by
  have drives : Moves .claim s s.placeRetireDrives.claimOwed := claimOwed_moves (placeRetireDrives_moves .nil)
  have beside : Beside s s.placeRetireDrives.claimOwed :=
    (foldl_beside (fun u k => (placeRetireDrive_same u k).1) allHandles s).trans (claimOwed_beside _)
  have bue := drives.claimsKeep.bue
  have prv := beside.prv
  unfold State.onAttemptEnd
  generalize s.placeRetireDrives.claimOwed = t at bue prv
  have proving : t.provingOccasion = t := by
    unfold State.provingOccasion
    rw [prv, h]
  have engine : t.bueOccasion = t := by
    unfold State.bueOccasion
    rw [bue, q]
  rw [proving, engine]

theorem onAttemptEnd_cleared {s t : State} (h : s.RestartCleared t) : s.RestartCleared t.onAttemptEnd
    ∧ t.onAttemptEnd.ntab = t.ntab ∧ t.onAttemptEnd.bue = t.bue
    ∧ t.onAttemptEnd.tdl = t.placeRetireDrives.claimOwed.tdl := by
  obtain ⟨empty, bue, -⟩ := trailerCleared_iff.mp h.cleared
  have called : ∀ u : State, Beside u u.callPass.callDrain := fun u => ⟨rfl, rfl, rfl, fun _ => ⟨rfl, rfl⟩⟩
  rw [onAttemptEnd_idle (by rw [empty.prv]) bue.2.2.2.2.2.2.2.2.2]
  have m : Moves .claim t t.placeRetireDrives.claimOwed.callPass.callDrain :=
    callDrain_moves (callPass_moves (claimOwed_moves (placeRetireDrives_moves .nil)))
  have beside : Beside t t.placeRetireDrives.claimOwed.callPass.callDrain :=
    ((foldl_beside (fun u k => (placeRetireDrive_same u k).1) allHandles t).trans (claimOwed_beside _)).trans
      (called _)
  exact ⟨RestartCleared_claims h m beside, m.claimsKeep.ntab, m.claimsKeep.bue,
    (callDrain_tdl _).trans (callPass_tdl _)⟩

theorem yieldIfDue_cleared {s t : State} (h : s.RestartCleared t) : s.RestartCleared t.yieldIfDue
    ∧ t.yieldIfDue.ntab.hold = t.ntab.hold ∧ t.yieldIfDue.bue = t.bue := by
  unfold State.yieldIfDue
  split
  · exact RestartCleared_yields h
  · exact ⟨h, rfl, rfl⟩

/-- A yield without a request in flight leaves the two classes. -/
theorem yieldIfDue_classes {s : State} (h : s.tdl.inFlight = none) : s.yieldIfDue.tdl.urgent = s.tdl.urgent
    ∧ s.yieldIfDue.tdl.routine = s.tdl.routine ∧ s.yieldIfDue.tdl.inFlight = none := by
  unfold State.yieldIfDue
  split
  · rw [enterYielded_tdl]
    unfold State.interrupt
    rw [h]
    exact ⟨rfl, rfl, h⟩
  · exact ⟨rfl, rfl, h⟩

end Sys2Proof.Machine

namespace Sys2Proof.Machine

/-! ### The queue after a link restart (R15, R50, R87, R139) -/

/-- The retire Drive that a slot has to place in a link restart: one that waited for the outcome of a Drive now abandoned and,
where an attempt has ended, one that waited for an attempt to end. -/
def State.waitingDrive (s : State) (full : Bool) (h : Handle) : Option Request :=
  let drive (b : Addr) (i : FnIndex) (w : OutWord) : Request :=
    .drive { address := b, index := i, handle := h, gen := (s.slot h).gen, word := w, prior := none }
  match (s.slot h).retireDrive with
  | .unplaced b i w => if full then some (drive b i w) else none
  | .awaiting b i w => if s.driveQueued h then some (drive b i w) else none
  | .none | .placed => none

/-- An attempt on the line ends in a link restart: its request is not a broadcast Release. -/
def State.restartEnds (s : State) : Prop := s.tdl.line ≠ .down ∧ ∃ f, s.tdl.inFlight = some f ∧ f.req ≠ .releaseAll

theorem RestartQueue_drive {s t : State} {l : List Request} (q : s.RestartQueue l t) (h : Handle) :
    t.retireDriveOf h = s.waitingDrive true h := by
  obtain ⟨gen, mark⟩ := q.drives h
  unfold State.retireDriveOf State.waitingDrive
  rw [gen, mark]
  cases (s.slot h).retireDrive <;> cases s.driveQueued h <;> rfl

theorem RestartQueue_freed {s t : State} {l : List Request} (q : s.RestartQueue l t) :
    (s.retireDrivesFreed s.abandonForRestart).filterMap t.retireDriveOf = (List.finRange 96).filterMap (s.waitingDrive false) := by
  unfold State.retireDrivesFreed allHandles
  rw [List.filterMap_filter]
  refine List.filterMap_congr fun h _ => ?_
  rw [RestartQueue_drive q, ((abandonForRestart_owes s).2 h).2]
  unfold State.waitingDrive
  cases (s.slot h).retireDrive <;> cases s.driveQueued h <;> rfl

theorem waitingDrive_drives {s : State} {full : Bool} {r : Request}
    (h : r ∈ (List.finRange 96).filterMap (s.waitingDrive full)) : r.isDrive = true := by
  obtain ⟨k, -, hk⟩ := List.mem_filterMap.mp h
  unfold State.waitingDrive at hk
  split at hk
  · split at hk
    · cases hk
      rfl
    · cases hk
  · split at hk
    · cases hk
      rfl
    · cases hk
  · cases hk
  · cases hk

theorem routineRoom_eq (t : Tdl) : t.routineRoom = 24 - t.routine.length - t.flying false fun _ => true := by
  unfold Tdl.routineRoom
  rw [routineOf_eq, List.filter_true]
  omega

theorem urgentRoom_eq (t : Tdl) : t.urgentRoom = 8 - t.urgent.length - t.flying true fun _ => true := by
  unfold Tdl.urgentRoom
  rw [urgentOf_eq, List.filter_true]
  omega

/-- Without an attempt that ends, only the retire Drives now free to go follow the Release. -/
theorem restart_frees {s t : State} (q : s.RestartQueue s.restartHead t) (up : s.tdl.line ≠ .down)
    (flight : t.tdl.inFlight = s.tdl.inFlight) :
    ∃ u, (s.retireDrivesFreed s.abandonForRestart).foldl State.placeRetireDrive t = u ∧ u.tdl.inFlight = s.tdl.inFlight
      ∧ u.tdl.urgent = s.tdl.urgent.filter (fun r => r == .releaseAll)
      ∧ u.tdl.routine = s.restartHead ++ ((List.finRange 96).filterMap (s.waitingDrive false)).take
          (24 - s.restartHead.length - s.tdl.flying false fun _ => true) := by
  have nodup : (s.retireDrivesFreed s.abandonForRestart).Nodup := allHandles_nodup.filter _
  have tdl := foldl_placeRetireDrive _ t (RestartQueue_open q up _) nodup
  have flying : t.tdl.flying false (fun _ => true) = s.tdl.flying false fun _ => true := by
    unfold Tdl.flying
    rw [flight]
  rw [RestartQueue_freed q, routineRoom_eq, q.routine, flying] at tdl
  refine ⟨_, rfl, ?_⟩
  rw [tdl, ← flight, ← q.urgent]
  refine ⟨rfl, rfl, ?_⟩
  show t.tdl.routine ++ _ = _
  rw [q.routine]

/-- Where an attempt ends, all retire Drives still to be placed follow the Release, and the owed marks are claimed. -/
theorem restart_ends {s t : State} (q : s.RestartQueue s.restartHead t) (c : s.RestartCleared t) (up : s.tdl.line ≠ .down)
    (flight : t.tdl.inFlight = none) :
    t.onAttemptEnd.yieldIfDue.tdl.inFlight = none
    ∧ t.onAttemptEnd.yieldIfDue.tdl.routine = s.restartHead
      ++ ((List.finRange 96).filterMap (s.waitingDrive true)).take (24 - s.restartHead.length)
    ∧ t.onAttemptEnd.yieldIfDue.tdl.urgent = s.tdl.urgent.filter (fun r => r == .releaseAll)
      ++ (if s.lineRuns then s.owedMarks.map fun m => Request.phaseMark m.mask m.on else []).take
        (8 - (s.tdl.urgent.filter fun r => r == .releaseAll).length) := by
  obtain ⟨-, -, -, ends⟩ := onAttemptEnd_cleared c
  have placed : t.placeRetireDrives.tdl = _ := foldl_placeRetireDrive allHandles t (RestartQueue_open q up _) allHandles_nodup
  have frt : t.placeRetireDrives.frt = t.frt :=
    foldl_same (p := State.frt) (fun u k => (placeRetireDrive_same u k).2) allHandles t
  have claimed := claimOwed_tdl t.placeRetireDrives
  generalize t.placeRetireDrives = p at ends placed frt claimed
  have asks : allHandles.filterMap t.retireDriveOf = (List.finRange 96).filterMap (s.waitingDrive true) :=
    List.filterMap_congr fun h _ => RestartQueue_drive q h
  have still : ∀ u p, t.tdl.flying u p = 0 := by
    intro u p
    unfold Tdl.flying
    rw [flight]
  have line : p.lineRuns = s.lineRuns := by
    unfold State.lineRuns
    rw [placed]
    show (t.tdl.line == .ready || t.tdl.line == .busy) = _
    rw [q.line]
  have owed : p.owedMarks = s.owedMarks := by
    unfold State.owedMarks State.gen
    rw [frt, q.gens, q.follow]
  have room : p.tdl.urgentRoom = 8 - (s.tdl.urgent.filter fun r => r == .releaseAll).length := by
    have flying : (t.tdl.addRoutine ((allHandles.filterMap t.retireDriveOf).take t.tdl.routineRoom)).flying true
        (fun _ => true) = 0 :=
      (show _ = t.tdl.flying true fun _ => true from rfl).trans (still ..)
    rw [urgentRoom_eq, placed, flying]
    show 8 - t.tdl.urgent.length - 0 = _
    rw [q.urgent, Nat.sub_zero]
  rw [asks, routineRoom_eq, still, q.routine, Nat.sub_zero] at placed
  rw [line, owed, room] at claimed
  obtain ⟨urgent, routine, inFlight⟩ := yieldIfDue_classes (s := t.onAttemptEnd) (by rw [ends, claimed, placed]; exact flight)
  rw [urgent, routine, ends, claimed, placed]
  refine ⟨inFlight, ?_, ?_⟩
  · show t.tdl.routine ++ _ = _
    rw [q.routine]
  · show t.tdl.urgent ++ _ = _
    rw [q.urgent]

/-! ### A link restart as a whole (R50) -/

theorem restartEnds_iff (s : State) (up : s.tdl.line ≠ .down) :
    (s.tdl.inFlight.isSome && s.abandonForRestart.tdl.inFlight.isNone) = true ↔ s.restartEnds := by
  obtain ⟨-, -, inFlight, -⟩ := abandonForRestart_tdl s
  unfold State.restartEnds
  rw [inFlight]
  cases s.tdl.inFlight with
  | none => simp
  | some f => simp [up, Option.filter_some]

theorem linkRestart_down {s : State} (h : s.tdl.line = .down) : s.linkRestart = s.restartBase := by
  rw [linkRestart_eq]
  exact releaseForRestart_down ((restartBase_cleared s).1.line.trans h) _ _

theorem linkRestart_up {s : State} (up : s.tdl.line ≠ .down) :
    (s.restartEnds → s.linkRestart = s.restartBase.restartHeld.onAttemptEnd.yieldIfDue)
    ∧ (¬ s.restartEnds → s.linkRestart =
      (s.retireDrivesFreed s.abandonForRestart).foldl State.placeRetireDrive s.restartBase.restartHeld) := by
  have line : s.restartBase.tdl.line ≠ .down := by
    rw [(restartBase_cleared s).1.line]
    exact up
  rw [linkRestart_eq, releaseForRestart_up line]
  exact ⟨fun h => if_pos ((restartEnds_iff s up).mpr h), fun h => if_neg fun e => h ((restartEnds_iff s up).mp e)⟩

/-- All is cleared, and the entries are held until the Release ends. -/
theorem linkRestart_cleared (s : State) : s.RestartCleared s.linkRestart ∧ (s.tdl.line ≠ .down →
    s.linkRestart.ntab.hold = true ∧ s.linkRestart.bue.restart = .releasing) := by
  obtain ⟨queue, cleared⟩ := restartBase_cleared s
  by_cases down : s.tdl.line = .down
  · rw [linkRestart_down down]
    exact ⟨cleared, fun up => absurd down up⟩
  · obtain ⟨-, held, hold, restart⟩ := restartHeld_cleared queue cleared down
    by_cases ended : s.restartEnds
    · rw [(linkRestart_up down).1 ended]
      obtain ⟨ends, ntab, bue, -⟩ := onAttemptEnd_cleared held
      obtain ⟨yields, yhold, ybue⟩ := yieldIfDue_cleared ends
      exact ⟨yields, fun _ => ⟨by rw [yhold, ntab, hold], by rw [ybue, bue, restart]⟩⟩
    · rw [(linkRestart_up down).2 ended]
      obtain ⟨places, keeps⟩ := RestartCleared_placed held (s.retireDrivesFreed s.abandonForRestart)
      exact ⟨places, fun _ => ⟨by rw [keeps.ntab, hold], by rw [keeps.bue, restart]⟩⟩

/-- The queue of a link restart. -/
theorem linkRestart_queue (s : State) :
    s.linkRestart.tdl.inFlight = s.tdl.inFlight.filter (fun f => f.req == .releaseAll)
    ∧ (¬ s.restartEnds → s.linkRestart.tdl.urgent = s.tdl.urgent.filter (fun r => r == .releaseAll)
      ∧ s.linkRestart.tdl.routine = if s.tdl.line = .down then s.restartHead else s.restartHead
        ++ ((List.finRange 96).filterMap (s.waitingDrive false)).take
          (24 - s.restartHead.length - s.tdl.flying false fun _ => true))
    ∧ (s.restartEnds → s.linkRestart.tdl.routine = s.restartHead
        ++ ((List.finRange 96).filterMap (s.waitingDrive true)).take (24 - s.restartHead.length)
      ∧ s.linkRestart.tdl.urgent = s.tdl.urgent.filter (fun r => r == .releaseAll)
        ++ (if s.lineRuns then s.owedMarks.map fun m => Request.phaseMark m.mask m.on else []).take
          (8 - (s.tdl.urgent.filter fun r => r == .releaseAll).length)) := by
  obtain ⟨queue, cleared⟩ := restartBase_cleared s
  by_cases down : s.tdl.line = .down
  · rw [linkRestart_down down, if_pos down]
    refine ⟨queue.inFlight, fun _ => ⟨queue.urgent, ?_⟩, fun ended => absurd down ended.1⟩
    rw [queue.routine, State.restartHead, if_pos (.inl down)]
  · obtain ⟨held, hcleared, -⟩ := restartHeld_cleared queue cleared down
    by_cases ended : s.restartEnds
    · obtain ⟨f, hf, hr⟩ := ended.2
      have gone : s.tdl.inFlight.filter (fun f => f.req == .releaseAll) = none := by
        rw [hf, Option.filter_some, if_neg (by simpa using hr)]
      rw [(linkRestart_up down).1 ended, gone]
      obtain ⟨inFlight, routine, urgent⟩ := restart_ends held hcleared down (held.inFlight.trans gone)
      exact ⟨inFlight, fun n => absurd ended n, fun _ => ⟨routine, urgent⟩⟩
    · have stays : s.tdl.inFlight.filter (fun f => f.req == .releaseAll) = s.tdl.inFlight := by
        cases hf : s.tdl.inFlight with
        | none => rfl
        | some f =>
            have release : f.req = .releaseAll := by
              by_contra hr
              exact ended ⟨down, f, hf, hr⟩
            rw [Option.filter_some, if_pos (by rw [release]; rfl)]
      obtain ⟨u, eq, inFlight, urgent, routine⟩ := restart_frees held down (held.inFlight.trans stays)
      rw [(linkRestart_up down).2 ended, eq, if_neg down, stays]
      exact ⟨inFlight, fun _ => ⟨urgent, routine⟩, fun e => absurd e ended⟩

/-- Apart from the Releases there are only Drives and Phase Marks. -/
theorem linkRestart_releases (s : State) : ∃ marks drives, s.linkRestart.tdl.urgent
      = s.tdl.urgent.filter (fun r => r == .releaseAll) ++ marks
    ∧ s.linkRestart.tdl.routine = s.restartHead ++ drives ∧ marks.filter (fun r => r == .releaseAll) = []
    ∧ drives.filter (fun r => r == .releaseAll) = [] := by
  have noDrive : ∀ (full : Bool) n, (((List.finRange 96).filterMap (s.waitingDrive full)).take n).filter
      (fun r => r == .releaseAll) = [] := by
    intro full n
    refine List.filter_eq_nil_iff.mpr fun r hr hx => ?_
    have drive := waitingDrive_drives (List.mem_of_mem_take hr)
    have release : r = .releaseAll := by simpa using hx
    rw [release] at drive
    cases drive
  have noMark : ∀ n, ((if s.lineRuns then s.owedMarks.map fun m => Request.phaseMark m.mask m.on else []).take n).filter
      (fun r => r == .releaseAll) = [] := by
    intro n
    refine List.filter_eq_nil_iff.mpr fun r hr hx => ?_
    have release : r = .releaseAll := by simpa using hx
    have mark := List.mem_of_mem_take hr
    rw [release] at mark
    split at mark
    · obtain ⟨m, -, hm⟩ := List.mem_map.mp mark
      cases hm
    · cases mark
  obtain ⟨-, others, ends⟩ := linkRestart_queue s
  by_cases ended : s.restartEnds
  · obtain ⟨routine, urgent⟩ := ends ended
    exact ⟨_, _, urgent, routine, noMark _, noDrive _ _⟩
  · obtain ⟨urgent, routine⟩ := others ended
    split at routine
    · exact ⟨[], [], by rw [urgent, List.append_nil], by rw [routine, List.append_nil], rfl, rfl⟩
    · exact ⟨[], _, by rw [urgent, List.append_nil], routine, rfl, noDrive _ _⟩

/-- What a link restart taken from the host leaves (R50, R197). -/
theorem linkRestart_taken (s : State) : s.trailerCleared s.linkRestart.taken
    ∧ s.linkRestart.taken.fdir.attention = s.fdir.attention
    ∧ (∀ h, (s.live h).isSome = true → ∃ r, s.linkRestart.taken.record h = some r ∧ r.reason = some .restart)
    ∧ s.linkRestart.taken.ntab = s.linkRestart.ntab ∧ s.linkRestart.taken.bue = s.linkRestart.bue
    ∧ (s.tdl.line = .down → s.linkRestart.taken.tdl.line = .down) := by
  obtain ⟨⟨cleared, quiet, attention, retired, -, -⟩, -⟩ := linkRestart_cleared s
  have down : s.tdl.line = .down → s.linkRestart.tdl.line = .down := fun h => by
    rw [linkRestart_down h]
    exact (restartBase_cleared s).1.line.trans h
  generalize s.linkRestart = u at *
  have trailer := finish_trailerCleared true quiet cleared
  have joins := (finish_sources u true).2.2.2.2 rfl
  have records := fun k r => finish_retiredRecord (s := u) (k := k) (r := r) true
  obtain ⟨bue, ntab, -⟩ := finish_quiet u true quiet
  have line := fun h => finish_down u true h
  unfold State.taken
  generalize u.finish true = v at *
  refine ⟨trailer, joins.trans attention, fun h hl => ?_, ntab, bue, fun h => ?_⟩
  · obtain ⟨⟨r, hr, reason, state⟩, -⟩ := retired h hl
    exact ⟨r, records h r hr state, reason⟩
  · exact (congrArg Tdl.line (line (down h))).trans (down h)

end Sys2Proof.Machine

namespace Sys2Proof.Machine

/-! ### The Release of a link restart is SENT (R32, R50) -/

/-- The entries are freed, and nothing else that counts here changes. -/
theorem freeNodes_same (s : State) (n : Ntab) : (s.freeNodes n).ntab = n ∧ (s.freeNodes n).bue = s.bue
    ∧ (s.freeNodes n).tdl = s.tdl ∧ (s.freeNodes n).hcp = s.hcp ∧ (s.freeNodes n).cmon = s.cmon := by
  have m : Moves .claim (s.setNtab n) (s.freeNodes n) := dropUnplacedTo_moves .nil fun _ => true
  have tdl : (s.freeNodes n).tdl = s.tdl := dropUnplacedTo_tdl _ _
  generalize s.freeNodes n = t at m tdl
  have keeps := m.claimsKeep
  exact ⟨keeps.ntab, keeps.bue, tdl, keeps.hcp, congrArg Fixed.cmon m.fixed⟩

theorem engineAfterRestart_coupled {s : State} (hr : s.bue.restart = .releasing) (hc : s.cmon.state = .coupled) :
    s.engineAfterRestart = (s.setBue { s.bue with restart := .none }).leaveIdle := by
  unfold State.engineAfterRestart
  rw [hr, hc]

theorem engineAfterRestart_parting {s : State} (hr : s.bue.restart = .releasing) (hc : s.cmon.state = .parting) :
    s.engineAfterRestart = s.setBue { s.bue with restart := .onReturn } := by
  unfold State.engineAfterRestart
  rw [hr, hc]

theorem engineAfterRestart_other {s : State}
    (h : s.bue.restart ≠ .releasing ∨ s.cmon.state = .uncoupled ∨ s.cmon.state = .settling) :
    s.engineAfterRestart = s.setBue { s.bue with restart := .none } := by
  unfold State.engineAfterRestart
  split
  · next hr hc => simp [hr, hc] at h
  · next hr hc => simp [hr, hc] at h
  · rfl

theorem engineAfterRestart_ntab (s : State) : s.engineAfterRestart.ntab = s.ntab := by
  unfold State.engineAfterRestart
  split
  · exact leaveIdle_ntab _
  · rfl
  · rfl

/-- The engine leaves IDLE with no entry in the table: to WAIT_START, or to PROBE with its Probe (R32, R33). -/
theorem leaveIdle_freed {s : State} (h : s.ntab.nodes = []) : s.leaveIdle.bue.restart = s.bue.restart
    ∧ (s.hcp.cfg.autoBringUp = false → s.leaveIdle.bue.state = .waitStart ∧ s.leaveIdle.tdl = s.tdl)
    ∧ (s.hcp.cfg.autoBringUp = true → s.leaveIdle.bue.state = .probe
      ∧ (s.tdl.line ≠ .down → s.routineEntries < 24 → s.leaveIdle.bue.request = .queued
        ∧ s.leaveIdle.tdl = { s.tdl with routine := s.tdl.routine ++ [.probe] })
      ∧ (s.tdl.line ≠ .down → 24 ≤ s.routineEntries → s.leaveIdle.bue.request = .unplaced .probe
        ∧ s.leaveIdle.tdl = s.tdl)) := by
  cases hc : s.hcp.cfg.autoBringUp with
  | false =>
      rw [leaveIdle_wait hc]
      exact ⟨rfl, fun _ => ⟨rfl, rfl⟩, (fun q => by cases q)⟩
  | true =>
      have noDescribe : ∀ a i, WalkReq.probe ≠ .describe a i false := fun _ _ => by simp
      have entries : ¬ Config.nodeLimit ≤ s.ntab.nodes.length := by
        rw [h]
        decide
      obtain ⟨⟨q, bue⟩, -⟩ := placeBue_bue (s.setBue s.bue.probing) .probe noDescribe
      rw [leaveIdle_auto hc, enterProbe_eq, if_neg entries]
      refine ⟨by rw [bue]; rfl, (fun q => by cases q), fun _ => ⟨by rw [bue]; rfl, fun up room => ?_, fun up full => ?_⟩⟩
      · rw [placeBue_taken (s.setBue s.bue.probing) _ up room, describePlaced_other _ _ noDescribe]
        exact ⟨rfl, rfl⟩
      · rw [placeBue_full (s.setBue s.bue.probing) _ up (Nat.not_lt.mpr full)]
        exact ⟨rfl, rfl⟩

theorem restartComplete_same (s : State) : s.restartComplete.ntab = { s.ntab with nodes := [], hold := false }
    ∧ (s.bue.restart = .releasing → s.cmon.state = .coupled → s.restartComplete.bue.restart = .none
      ∧ (s.hcp.cfg.autoBringUp = false → s.restartComplete.bue.state = .waitStart ∧ s.restartComplete.tdl = s.tdl)
      ∧ (s.hcp.cfg.autoBringUp = true → s.restartComplete.bue.state = .probe
        ∧ (s.tdl.line ≠ .down → s.routineEntries < 24 → s.restartComplete.bue.request = .queued
          ∧ s.restartComplete.tdl = { s.tdl with routine := s.tdl.routine ++ [.probe] })
        ∧ (s.tdl.line ≠ .down → 24 ≤ s.routineEntries → s.restartComplete.bue.request = .unplaced .probe
          ∧ s.restartComplete.tdl = s.tdl)))
    ∧ (s.bue.restart = .releasing → s.cmon.state = .parting → s.restartComplete.bue = { s.bue with restart := .onReturn }
      ∧ s.restartComplete.tdl = s.tdl)
    ∧ (s.bue.restart ≠ .releasing ∨ s.cmon.state = .uncoupled ∨ s.cmon.state = .settling →
      s.restartComplete.bue = { s.bue with restart := .none } ∧ s.restartComplete.tdl = s.tdl) := by
  obtain ⟨ntab, bue, tdl, hcp, cmon⟩ := freeNodes_same s { s.ntab with nodes := [], hold := false }
  unfold State.restartComplete
  generalize s.freeNodes { s.ntab with nodes := [], hold := false } = t at *
  have room : t.routineEntries = s.routineEntries := by
    unfold State.routineEntries
    rw [tdl]
  rw [← bue, ← tdl, ← hcp, ← cmon, ← room]
  refine ⟨(engineAfterRestart_ntab t).trans ntab, fun hr hc => ?_, fun hr hc => ?_, fun h => ?_⟩
  · rw [engineAfterRestart_coupled hr hc]
    exact leaveIdle_freed (s := t.setBue { t.bue with restart := .none }) (congrArg Ntab.nodes ntab)
  · rw [engineAfterRestart_parting hr hc]
    exact ⟨rfl, rfl⟩
  · rw [engineAfterRestart_other h]
    exact ⟨rfl, rfl⟩

theorem ownerOutcome_release (s : State) : s.ownerOutcome .releaseAll .sent = s.restartComplete := by
  unfold State.ownerOutcome
  exact if_pos rfl

/-! ### The link restart of the host (R50) -/

/-- The request in flight holds an entry of the routine class, or none (R14). -/
theorem flying_routine (t : Tdl) : t.flying false (fun _ => true) =
    match t.inFlight with
    | some f => if f.urgent then 0 else 1
    | none => 0 := by
  unfold Tdl.flying
  cases t.inFlight with
  | none => rfl
  | some f => cases hu : f.urgent <;> simp [hu]

/-- Settles O37: the restart is its base (abandoned, retired, emptied), the Release held in front, and the claims that
follow; the outcome SENT frees the entries and lets the engine leave IDLE. -/
theorem restartLinkRetiresEverything : Obligations.RestartLinkRetiresEverything := by
  unfold Obligations.RestartLinkRetiresEverything
  refine ⟨fun s h => ?taken, fun s up => ?releases, fun s => ?queue, fun s => ⟨ownerOutcome_release s, restartComplete_same s⟩⟩
  case taken =>
    obtain ⟨cleared, attention, retired, ntab, bue, down⟩ := linkRestart_taken s
    obtain ⟨⟨-, -, -, -, digests, addresses⟩, held⟩ := linkRestart_cleared s
    have fixed : s.linkRestart.fixed = s.fixed := (linkRestart_moves (ad := false) .nil).fixed
    refine ⟨s.linkRestart.taken, runCommand_taken h _, rfl, cleared, attention, retired, by rw [ntab]; exact digests,
      by rw [taken_fixed, fixed], down, fun up => ?_⟩
    rw [ntab, bue]
    obtain ⟨hold, restart⟩ := held up
    exact ⟨hold, restart, addresses⟩
  case releases =>
    obtain ⟨marks, drives, urgent, routine, noMark, noDrive⟩ := linkRestart_releases s
    have inFlight := (linkRestart_queue s).1
    have twice : ∀ l : List Request, (l.filter fun r => r == .releaseAll).filter (fun r => r == .releaseAll)
        = l.filter fun r => r == .releaseAll := fun l => by simp only [List.filter_filter, Bool.and_self]
    dsimp only
    rw [urgent, routine, inFlight, List.filter_append, List.filter_append, noMark, noDrive, List.append_nil, List.append_nil,
      twice]
    unfold State.restartHead
    refine ⟨fun none => ?_, fun some => ?_⟩
    · obtain ⟨noUrgent, -, noFlight⟩ := queued_none none
      rw [if_neg (by simp [up, none])]
      exact ⟨noUrgent, rfl, rfl, noFlight⟩
    · rw [if_pos (.inr some), twice]
      exact ⟨rfl, rfl, rfl⟩
  case queue =>
    obtain ⟨inFlight, others, ends⟩ := linkRestart_queue s
    refine ⟨inFlight, fun h => ?_, fun h => ends h⟩
    obtain ⟨urgent, routine⟩ := others h
    refine ⟨urgent, routine.trans ?_⟩
    rw [flying_routine] <;> rfl

end Sys2Proof.Machine

namespace Sys2Proof.Machine

/-! ### The monitor, LINE_PRESENT and the inputs (R26, R115) -/

/-- Which commands change the monitor, LINE_PRESENT, the demand inputs and the modes in force. -/
structure InputsKept (c : Instr) (s t : State) : Prop where
  monitor : c ∉ [.coupleSenseAsserted, .coupleSenseWithdrawn, .linePresentAsserted, .linePresentWithdrawn,
    .settleTimerExpiry, .partTimerExpiry, .faultTimerExpiry] → t.cmon = s.cmon
  present : c ∉ [.linePresentAsserted, .linePresentWithdrawn] → t.tdl.linePresent = s.tdl.linePresent
  inputs : (∀ i b, c ≠ .demandInputChange i b) → t.drt.inputs = s.drt.inputs ∧ t.frt.modes = s.frt.modes

theorem InputsKept.trans {c : Instr} {s t u : State} (h : InputsKept c s t) (k : InputsKept c t u) : InputsKept c s u :=
  ⟨fun n => (k.monitor n).trans (h.monitor n), fun n => (k.present n).trans (h.present n), fun n =>
    ⟨(k.inputs n).1.trans (h.inputs n).1, (k.inputs n).2.trans (h.inputs n).2⟩⟩

/-- Moves keep all of them, and each of the changes that sets one is tied to its commands. -/
theorem Change.inputsKept {c : Instr} {s t : State} (m : Change c s t) : InputsKept c s t := by
  cases m with
  | move _ m =>
      exact ⟨fun _ => congrArg Fixed.cmon m.fixed, fun _ => congrArg Fixed.linePresent m.fixed, fun _ =>
        ⟨congrArg Fixed.inputs m.fixed, congrArg Fixed.modes m.fixed⟩⟩
  | monitor _ h => exact ⟨fun n => absurd h n, fun _ => rfl, fun _ => ⟨rfl, rfl⟩⟩
  | present _ h => exact ⟨fun _ => rfl, fun n => absurd h n, fun _ => ⟨rfl, rfl⟩⟩
  | inputs _ h =>
      obtain ⟨i, b, e⟩ := h
      exact ⟨fun _ => rfl, fun _ => rfl, fun n => absurd e (n i b)⟩
  | mode _ _ h =>
      obtain ⟨i, b, e, -⟩ := h
      exact ⟨fun _ => rfl, fun _ => rfl, fun n => absurd e (n i b)⟩
  | _ => exact ⟨fun _ => rfl, fun _ => rfl, fun _ => ⟨rfl, rfl⟩⟩

theorem Changes.inputsKept {c : Instr} {s t : State} (m : Changes c s t) : InputsKept c s t := by
  induction m with
  | nil => exact ⟨fun _ => rfl, fun _ => rfl, fun _ => ⟨rfl, rfl⟩⟩
  | snoc _ m ih => exact ih.trans m.inputsKept

/-- The RESET input changes neither the monitor nor the line, the inputs and their modes. -/
theorem resetInput_inputsKept {c : Instr} (hc : c.ofReset = true) (hr : c.resets = false) {s t : State}
    (q : exec c s = .next t) : InputsKept c s t := by
  have same : t.cmon = s.cmon ∧ t.drt = s.drt ∧ t.frt.modes = s.frt.modes := by
    cases c with
    | resetFall =>
        have q : execResetFall s = .next t := q
        unfold execResetFall at q
        split at q <;> cases q <;> exact ⟨rfl, rfl, rfl⟩
    | resetRise =>
        have q : execResetRise s = .next t := q
        unfold execResetRise at q
        split at q <;> cases q <;> exact ⟨rfl, rfl, rfl⟩
    | deviceResetEnd =>
        have q : execDeviceResetEnd s = .next t := q
        unfold execDeviceResetEnd at q
        split at q <;> cases q <;> exact ⟨rfl, rfl, rfl⟩
    | deviceReset | supplyReset => cases hr
    | _ => cases hc
  obtain ⟨cmon, drt, modes⟩ := same
  exact ⟨fun _ => cmon, fun _ => by rw [resetInput_tdl hc hr q], fun _ => ⟨by rw [drt], modes⟩⟩

/-- Settles O10. -/
theorem monitorAndInputsChangeByTheirEvents : Obligations.MonitorAndInputsChangeByTheirEvents := by
  intro c s t q hr
  have kept : InputsKept c s t := by
    cases h : c.ofReset with
    | false => exact (exec_changes h q).inputsKept
    | true => exact resetInput_inputsKept h hr q
  exact ⟨kept.monitor, kept.present, kept.inputs⟩

/-! ### The settle timer (R28, R32) -/

/-- Entry to READY without a sweep leaves of the engine all but the frontier timer, and the entries' number. -/
theorem enterReady_engine (s : State) : (∃ c, (s.enterReady .none).bue = { s.bue with frontier := c })
    ∧ (s.enterReady .none).ntab.nodes.length = s.ntab.nodes.length := by
  have claims : ∀ u : State, u.resync.bue = u.bue ∧ u.resync.ntab = u.ntab := fun u =>
    have same := (resync_moves (e := .claim) (refl_moves (s := u))).claim
    ⟨same.1, same.2.1⟩
  have eq : s.enterReady .none = ((s.setTdl { s.tdl with
      line := .ready, yieldEnds := none, reclaim := .idle, faultEnds := none }).unfreeze.resync).callDrain.callPass := rfl
  rw [eq, callPass_bue, callDrain_bue, callPass_ntab, callDrain_ntab, (claims _).1, (claims _).2]
  refine ⟨⟨s.bue.frontier.release s.now, by simp [State.unfreeze]⟩, ?_⟩
  unfold State.unfreeze
  by_cases hold : s.ntab.hold = true <;> simp [hold]

/-- The monitor in COUPLED, with its flag (R28). -/
def State.coupled (s : State) : State := (s.setCmon { s.cmon with state := .coupled, settle := none }).raise .coupled

theorem enterCoupled_eq (s : State) : s.enterCoupled = (s.coupled.enterReady .none).leaveIdle := rfl

theorem enterCoupled_fixed (s : State) :
    s.enterCoupled.fixed = { s.fixed with cmon := { s.cmon with state := .coupled, settle := none } } := by
  rw [enterCoupled_eq, still_fixed (leaveIdle_still _), enterReady_fixed]
  rfl

/-- COUPLED is entered with the line out of DOWN (R28). -/
theorem enterCoupled_line (s : State) : s.enterCoupled.tdl.line = .ready := by
  rw [enterCoupled_eq, still_line (leaveIdle_still _), enterReady_line]

theorem enterCoupled_flag (s : State) : s.enterCoupled.hcp.flags.getLsbD 0 = true := by
  have moves : Moves (.more (.event false)) s.coupled (s.coupled.enterReady .none).leaveIdle :=
    leaveIdle_moves (enterReady_moves .nil _)
  rw [enterCoupled_eq]
  exact flagsKept_bit moves.flags 0 (raise_bit _ .coupled)

/-- The engine leaves IDLE at the entry to COUPLED, by auto bring-up (R32). -/
theorem enterCoupled_engine (s : State) :
    (s.hcp.cfg.autoBringUp = false → s.engineQuiet →
      s.enterCoupled.bue.state = .waitStart ∧ s.enterCoupled.engineQuiet)
    ∧ (s.hcp.cfg.autoBringUp = true → s.ntab.nodes = [] →
      s.enterCoupled.bue.state = .probe ∧ s.enterCoupled.engineQuiet) := by
  rw [enterCoupled_eq]
  have fixed := enterReady_fixed s.coupled .none
  obtain ⟨⟨c, bue⟩, nodes⟩ := enterReady_engine s.coupled
  generalize s.coupled.enterReady .none = u at fixed bue nodes ⊢
  have cfg : u.hcp.cfg = s.hcp.cfg := congrArg Fixed.cfg fixed
  refine ⟨fun auto quiet => ?_, fun auto none => ?_⟩
  · have quiet : u.engineQuiet := by
      unfold State.engineQuiet
      rw [bue]
      exact quiet
    exact ⟨by rw [leaveIdle_wait (by rw [cfg, auto])]; rfl, leaveIdle_quiet quiet⟩
  · have few : u.ntab.nodes.length < 12 := by
      rw [nodes]
      exact (congrArg List.length none).trans_lt (by decide)
    rw [leaveIdle_auto (by rw [cfg, auto])]
    exact ⟨enterProbe_state few, (enterProbe_quiet u).1⟩

theorem settleTimerExpiry_taken {s : State} {e : Nat} (hr : s.hcp.inReset = false) (hs : s.cmon.settle = some e) :
    exec .settleTimerExpiry s = .next ((s.advanceTo e).enterCoupled.finish false) := by
  change runEvent s (s.cmon.settle.map fun t => (s.advanceTo t).enterCoupled) = _
  rw [hs]
  exact runEvent_some hr _

/-- Settles O46. -/
theorem settleTimerCouples : Obligations.SettleTimerCouples := by
  intro s e hr hs
  obtain ⟨waits, probes⟩ := enterCoupled_engine (s.advanceTo e)
  have fixed := enterCoupled_fixed (s.advanceTo e)
  have flag := enterCoupled_flag (s.advanceTo e)
  have line := enterCoupled_line (s.advanceTo e)
  refine ⟨_, settleTimerExpiry_taken hr hs, ?_⟩
  generalize (s.advanceTo e).enterCoupled = u at waits probes fixed flag line ⊢
  refine ⟨?_, flagsKept_bit (finish_flags u false) 0 flag, finish_ready u false line, fun auto quiet => ?_,
    fun auto none => ?_⟩
  · rw [finish_fixed, fixed]
    rfl
  · obtain ⟨state, quiet⟩ := waits auto quiet
    rw [(finish_quiet u false quiet).1, state]
  · obtain ⟨state, quiet⟩ := probes auto none
    rw [(finish_quiet u false quiet).1, state]

end Sys2Proof.Machine

namespace Sys2Proof.Machine

/-! ### The presence tick (R58) -/

/-- The Hail that a node is due at a tick (R58). -/
def State.hailsDue (s : State) (n : NodeEntry) : List Request :=
  if n.present && decide (Config.hailDue ≤ n.heard.value s.now) && !s.queued (Request.isHailTo n.address)
  then [.hail n.address .none] else []

theorem hailNode_tdl {s : State} (up : s.tdl.line ≠ .down) (n : NodeEntry) :
    (s.hailNode n).tdl = s.tdl.addRoutine ((s.hailsDue n).take s.tdl.routineRoom) := by
  have nothing : s.tdl.addRoutine [] = s.tdl := by simp [Tdl.addRoutine]
  unfold State.hailNode State.hailsDue
  split
  · rw [claimRoutine_eq, if_neg up]
    have room : s.tdl.routineRoom = 24 - s.routineEntries := rfl
    split
    · next few =>
        rw [List.take_of_length_le (by rw [List.length_singleton]; omega)]
        rfl
    · next many =>
        rw [room, Nat.sub_eq_zero_of_le (Nat.le_of_not_lt many), List.take_zero, nothing]
  · rw [List.take_nil, nothing]

/-- A Hail to one node leaves what another is due as it was. -/
theorem hailNode_hailsDue (s : State) {n m : NodeEntry} (other : n.address ≠ m.address) :
    (s.hailNode n).hailsDue m = s.hailsDue m := by
  unfold State.hailNode
  split
  · rw [claimRoutine_eq]
    split
    · rfl
    · split
      · have hail : Request.isHailTo m.address (.hail n.address .none) = false := by simpa [Request.isHailTo] using other
        have queued : (s.setRoutine (s.tdl.routine ++ [.hail n.address .none])).queued (Request.isHailTo m.address)
            = s.queued (Request.isHailTo m.address) := by
          simp only [State.queued, State.setRoutine, State.inFlightIs, List.any_append, List.any_cons, hail, List.any_nil,
            Bool.or_false]
        unfold State.hailsDue
        rw [queued]
        rfl
      · rfl
  · rfl

theorem flatMap_hailsDue (s : State) (l : List NodeEntry) : l.flatMap s.hailsDue =
    (l.filter fun n => n.present && decide (Config.hailDue ≤ n.heard.value s.now)
      && !s.queued (Request.isHailTo n.address)).map fun n => .hail n.address .none := by
  induction l with
  | nil => rfl
  | cons n l ih =>
      rw [List.flatMap_cons, List.filter_cons, ih]
      unfold State.hailsDue
      split
      · rw [List.map_cons, List.singleton_append]
      · rw [List.nil_append]

/-- The Hails of a tick are placed in chain order while the routine class has room. -/
theorem foldl_hailNode {s : State} (up : s.tdl.line ≠ .down) {l : List NodeEntry} (distinct : (l.map (·.address)).Nodup) :
    (l.foldl State.hailNode s).tdl = s.tdl.addRoutine ((l.flatMap s.hailsDue).take s.tdl.routineRoom) := by
  refine foldl_claims (add := Tdl.addRoutine) (room := Tdl.routineRoom) (ask := State.hailsDue)
    (P := fun u l => u.tdl.line ≠ .down ∧ (l.map (·.address)).Nodup) (fun t => by simp [Tdl.addRoutine])
    (fun t a b => by simp [Tdl.addRoutine]) routineRoom_add (fun u x l p _ => ?_) l s ⟨up, distinct⟩ (.of_map _ distinct)
  obtain ⟨up, distinct⟩ := p
  obtain ⟨out, distinct⟩ := List.nodup_cons.mp distinct
  have claimed := hailNode_tdl up x
  exact ⟨claimed, ⟨by rw [claimed]; exact up, distinct⟩,
    fun y hy => hailNode_hailsDue u fun e => out (List.mem_map.mpr ⟨y, hy, e.symm⟩)⟩

theorem tick_hails {s : State} (distinct : s.ntab.nodesKept) :
    let due := s.ntab.nodes.filter fun n => (n.state == .live || n.state == .suspect)
      && decide (ms 250 ≤ n.heard.value s.now) && !s.queued (Request.isHailTo n.address)
    (s.ntab.hold = true → s.tick.tdl = s.tdl)
    ∧ (s.ntab.hold = false → s.tdl.line ≠ .down → s.tick.tdl.routine = s.tdl.routine
        ++ (due.take (24 - s.routineEntries)).map fun n => .hail n.address .none) := by
  refine ⟨fun hold => ?_, fun hold up => ?_⟩
  · unfold State.tick
    simp [hold]
  · have eq : s.tick = if s.ntab.hold then _ else
        s.ntab.nodes.foldl State.hailNode (s.setNtab { s.ntab with tick := .running (s.now + Config.tickTime) }) := rfl
    rw [eq, hold]
    have hails := foldl_hailNode (s := s.setNtab { s.ntab with tick := .running (s.now + Config.tickTime) }) up distinct.1
    refine (congrArg Tdl.routine hails).trans ?_
    rw [flatMap_hailsDue, ← List.map_take]
    rfl

theorem hailNode_line (s : State) (n : NodeEntry) : ∃ x, s.hailNode n = { s with tdl := x } := by
  unfold State.hailNode
  split
  · exact claimRoutine_tdl s _
  · exact ⟨s.tdl, rfl⟩

/-- A tick starts the timer again and changes no entry and nothing of the engine (R58). -/
theorem tick_same (s : State) : s.tick.ntab = { s.ntab with tick := .running (s.now + ms 10) } ∧ s.tick.bue = s.bue := by
  have hails : ∀ (l : List NodeEntry) (u : State), ((l.foldl State.hailNode u).ntab, (l.foldl State.hailNode u).bue)
      = (u.ntab, u.bue) := foldl_same (p := fun u : State => (u.ntab, u.bue)) fun u n => by
    obtain ⟨x, e⟩ := hailNode_line u n
    rw [e]
  unfold State.tick
  dsimp only
  split
  · exact ⟨rfl, rfl⟩
  · exact ⟨congrArg Prod.fst (hails _ _), congrArg Prod.snd (hails _ _)⟩

/-! ### The due records of a pass (R162) -/

theorem dueAt_iff {s : State} {h : Handle} {e : Nat} : s.dueAt h = some e ↔ ∃ c, (s.slot h).confirm = some c
    ∧ c.deadline = .running e ∧ e ≤ s.now ∧ (s.slot h).sampleMark = .clear ∧ c.phaseWait = false := by
  unfold State.dueAt
  dsimp only
  cases (s.slot h).confirm with
  | none => simp
  | some c =>
      cases hd : c.deadline with
      | running x =>
          simp only [hd, Option.some.injEq, Countdown.running.injEq, exists_eq_left', Option.ite_none_right_eq_some]
          exact ⟨fun q => ⟨q.2, q.2 ▸ q.1⟩, fun q => ⟨q.1 ▸ q.2, q.1⟩⟩
      | stopped => simp [hd]
      | held _ => simp [hd]

theorem deadlineOf_iff {s : State} {h : Handle} {e : Nat} :
    s.deadlineOf h = some e ↔ ∃ c, (s.slot h).confirm = some c ∧ c.deadline = .running e := by
  unfold State.deadlineOf
  cases (s.slot h).confirm with
  | none => simp
  | some c => cases hd : c.deadline <;> simp [Countdown.ends, hd]

/-- The order of a pass: by deadline, and among equal ones by handle. -/
def DueBefore (x y : Nat × Handle) : Prop := x.1 < y.1 ∨ x.1 = y.1 ∧ x.2 < y.2

theorem mem_insertByKey {x y : Nat × Handle} {l : List (Nat × Handle)} : y ∈ insertByKey x l ↔ y = x ∨ y ∈ l := by
  induction l with
  | nil => simp [insertByKey]
  | cons z l ih =>
      unfold insertByKey
      split
      · simp
      · rw [List.mem_cons, ih, List.mem_cons, or_left_comm]

/-- A handle higher than those of the list keeps the order, behind its equals. -/
theorem insertByKey_sorted {x : Nat × Handle} {l : List (Nat × Handle)} (sorted : l.Pairwise DueBefore)
    (lower : ∀ y ∈ l, y.2 < x.2) : (insertByKey x l).Pairwise DueBefore := by
  induction l with
  | nil => simp [insertByKey]
  | cons y l ih =>
      obtain ⟨first, rest⟩ := List.pairwise_cons.mp sorted
      unfold insertByKey
      split
      · next less =>
          refine List.pairwise_cons.mpr ⟨fun z hz => ?_, sorted⟩
          rcases List.mem_cons.mp hz with rfl | hz
          · exact .inl less
          · rcases first z hz with k | k
            · exact .inl (less.trans k)
            · exact .inl (k.1 ▸ less)
      · next more =>
          refine List.pairwise_cons.mpr ⟨fun z hz => ?_, ih rest fun z hz => lower z (List.mem_cons_of_mem _ hz)⟩
          rcases mem_insertByKey.mp hz with rfl | hz
          · rcases Nat.lt_or_eq_of_le (Nat.le_of_not_lt more) with k | k
            · exact .inl k
            · exact .inr ⟨k, lower y List.mem_cons_self⟩
          · exact first z hz

/-- The due records with their deadlines, of a list of handles. -/
def State.dueOf (s : State) (hs : List Handle) (l : List (Nat × Handle)) : List (Nat × Handle) :=
  hs.foldl (fun l h => match s.dueAt h with
    | some e => insertByKey (e, h) l
    | none => l) l

theorem dueOf_cons (s : State) (h : Handle) (hs : List Handle) (l : List (Nat × Handle)) : s.dueOf (h :: hs) l =
    s.dueOf hs (match s.dueAt h with
      | some e => insertByKey (e, h) l
      | none => l) := rfl

theorem mem_dueOf (s : State) (y : Nat × Handle) (hs : List Handle) (l : List (Nat × Handle)) :
    y ∈ s.dueOf hs l ↔ y ∈ l ∨ y.2 ∈ hs ∧ s.dueAt y.2 = some y.1 := by
  induction hs generalizing l with
  | nil => simp [State.dueOf]
  | cons h hs ih =>
      rw [dueOf_cons, ih, List.mem_cons]
      cases due : s.dueAt h with
      | none =>
          have : y.2 = h → s.dueAt y.2 ≠ some y.1 := fun e => by simp [e, due]
          tauto
      | some e =>
          have : y = (e, h) ↔ y.2 = h ∧ s.dueAt y.2 = some y.1 := by
            constructor
            · rintro rfl; exact ⟨rfl, due⟩
            · rintro ⟨k, q⟩
              rw [k, due] at q
              exact Prod.ext (Option.some.inj q).symm k
          simp only [mem_insertByKey, this]
          tauto

theorem dueOf_sorted (s : State) {hs : List Handle} (rising : hs.Pairwise (· < ·)) {l : List (Nat × Handle)}
    (sorted : l.Pairwise DueBefore) (lower : ∀ y ∈ l, ∀ h ∈ hs, y.2 < h) : (s.dueOf hs l).Pairwise DueBefore := by
  induction hs generalizing l with
  | nil => exact sorted
  | cons h hs ih =>
      obtain ⟨first, rising⟩ := List.pairwise_cons.mp rising
      rw [dueOf_cons]
      split
      · refine ih rising (insertByKey_sorted sorted fun y hy => lower y hy h List.mem_cons_self) fun y hy k hk => ?_
        rcases mem_insertByKey.mp hy with rfl | hy
        · exact first k hk
        · exact lower y hy k (List.mem_cons_of_mem _ hk)
      · exact ih rising sorted fun y hy k hk => lower y hy k (List.mem_cons_of_mem _ hk)

theorem dueRecords_eq (s : State) : s.dueRecords = (s.dueOf allHandles []).map (·.2) := rfl

theorem mem_dueRecords {s : State} {h : Handle} : h ∈ s.dueRecords ↔ ∃ e, s.dueAt h = some e := by
  rw [dueRecords_eq, List.mem_map]
  constructor
  · rintro ⟨⟨e, _⟩, hy, rfl⟩
    rcases (mem_dueOf s _ _ _).mp hy with k | k
    · cases k
    · exact ⟨e, k.2⟩
  · rintro ⟨e, due⟩
    exact ⟨(e, h), (mem_dueOf s _ _ _).mpr (.inr ⟨mem_allHandles h, due⟩), rfl⟩

theorem dueRecords_sorted (s : State) : s.dueRecords.Pairwise fun a b => ∃ x y, s.deadlineOf a = some x
    ∧ s.deadlineOf b = some y ∧ (x < y ∨ x = y ∧ a < b) := by
  have sorted : (s.dueOf allHandles []).Pairwise DueBefore :=
    dueOf_sorted s (List.pairwise_lt_finRange 96) .nil fun y hy => by cases hy
  have deadline : ∀ y ∈ s.dueOf allHandles [], s.deadlineOf y.2 = some y.1 := fun y hy => by
    rcases (mem_dueOf s _ _ _).mp hy with k | k
    · cases k
    · obtain ⟨c, confirm, running, -⟩ := dueAt_iff.mp k.2
      exact deadlineOf_iff.mpr ⟨c, confirm, running⟩
  rw [dueRecords_eq, List.pairwise_map]
  exact sorted.imp_of_mem fun {a b} ha hb k => ⟨a.1, b.1, deadline a ha, deadline b hb, k⟩

/-! ### Samples claimed (R162, R163) -/

theorem claimSample_live {s : State} {h : Handle} {r : Record} {a : Addr} (hl : s.live h = some r)
    (ha : r.address = some a) : s.claimSample h = s.claimSampleTo h a r.index (s.slot h).gen := by
  unfold State.claimSample
  simp only [hl, ha]

theorem claimSampleAgain_unplaced {s : State} {h : Handle} {a : Addr} {i : FnIndex} {gen : Byte}
    (hm : (s.slot h).sampleMark = .unplaced a i gen) : s.claimSampleAgain h = s.claimSampleTo h a i gen := by
  unfold State.claimSampleAgain
  simp only [hm]

theorem setMark_mark (s : State) (h : Handle) (m : SampleMark) : ((s.setMark h m).slot h).sampleMark = m := by
  unfold State.setMark
  rw [slot_modifySlot]

/-- A Sample that the routine class takes counts as the scheduler's own. -/
theorem claimSampleTo_taken {s : State} (h : Handle) (a : Addr) (i : FnIndex) (gen : Byte) (up : s.tdl.line ≠ .down)
    (room : s.routineEntries < 24) : s.claimSampleTo h a i gen =
      (((s.setRoutine (s.tdl.routine ++ [.sample .confirm a i h gen])).setMark h .queued).setOwn (s.csch.own + 1),
        decide (s.csch.own + 1 < 4)) := by
  unfold State.claimSampleTo
  rw [claimRoutine_eq, if_neg up, if_pos room]
  rfl

/-- One refused FULL stays unplaced. -/
theorem claimSampleTo_full {s : State} (h : Handle) (a : Addr) (i : FnIndex) (gen : Byte) (up : s.tdl.line ≠ .down)
    (full : 24 ≤ s.routineEntries) : s.claimSampleTo h a i gen = (s.setMark h (.unplaced a i gen), false) := by
  unfold State.claimSampleTo
  rw [claimRoutine_eq, if_neg up, if_neg (Nat.not_lt.mpr full)]

/-! ### A scheduling pass (R162, R164) -/

theorem lampPhased_iff (s : State) (r : Record) : s.lampPhased r = true ↔ r.cls = .lamp ∧ r.overloadHeld = false
    ∧ ∃ x, r.tie = some x ∧ s.demanded x = true ∧ s.phased x = true := by
  unfold State.lampPhased Record.isLamp
  cases r.tie <;> simp [and_assoc]

theorem passOne_ended (s : State) (h : Handle) : State.passOne (s, false) h = (s, false) := rfl

theorem passUnplaced_ended (s : State) (h : Handle) : State.passUnplaced (s, false) h = (s, false) := rfl

/-- What a pass makes of a live record. -/
theorem passOne_live {s : State} {h : Handle} {r : Record} (hl : s.live h = some r) : State.passOne (s, true) h =
    if s.lampPhased r then (s.modifyConfirm h fun c => { c with phaseWait := true }, true)
    else if s.csch.own < 4 then s.claimSample h else (s, true) := by
  unfold State.passOne
  simp only [hl, if_true]
  rfl

theorem passUnplaced_eq (s : State) (h : Handle) :
    State.passUnplaced (s, true) h = if s.csch.own < 4 then s.claimSampleAgain h else (s, true) := by
  unfold State.passUnplaced
  by_cases few : s.csch.own < 4 <;> simp [Config.ownLimit, few]

/-! ### ON starts (R100, R164) -/

/-- A Phase Mark lights a lamp that is driven FLASH on a channel that the mark names. -/
def State.lights (m : BitVec 4) (s : State) (h : Handle) : Bool :=
  match s.live h with
  | some r => r.cls == .lamp && (match r.tie with
    | some x => (match s.asks x false with
      | .flash .flL => m.getLsbD 0
      | .flash .flR => m.getLsbD 1
      | .flash .flB => m.getLsbD 2
      | .flash .flV => m.getLsbD 3
      | _ => false)
    | none => false)
  | none => false

theorem markOnStart_eq (s : State) (m : BitVec 4) :
    s.markOnStart m = allHandles.foldl (fun u h => if u.lights m h then u.onStart h else u) s := by
  unfold State.markOnStart
  congr 1
  funext u h
  unfold State.lights
  cases u.live h with
  | none => rfl
  | some r =>
      unfold State.flashChannel Record.isLamp
      cases hr : r.tie with
      | none => simp [hr]
      | some x =>
          cases ha : u.asks x false with
          | flash c => cases c <;> simp [hr, ha, Chan.number]
          | _ => simp [hr, ha]

theorem confirmOnStart_waits {s : State} {h : Handle} {c : ConfirmEntry} (hc : (s.slot h).confirm = some c)
    (k : c.phaseWait = false ∨ 4 ≤ s.csch.own) : s.confirmOnStart h = s := by
  unfold State.confirmOnStart
  simp only [hc]
  rw [if_neg]
  rcases k with k | k
  · simp [k]
  · simp [Config.ownLimit, Nat.not_lt.mpr k]

theorem confirmOnStart_claims {s : State} {h : Handle} {c : ConfirmEntry} (hc : (s.slot h).confirm = some c)
    (waits : c.phaseWait = true) (few : s.csch.own < 4) : s.confirmOnStart h =
      ((s.modifyConfirm h fun x => { x with phaseWait := false }).claimSample h).1.callPass := by
  unfold State.confirmOnStart
  simp only [hc]
  rw [if_pos (by simp [Config.ownLimit, waits, few])]

/-! ### Phase-wait marks cleared (R162, R164) -/

/-- One record's part in the clearing of the marks. -/
def State.phaseWaitOne (s : State) (h : Handle) : State :=
  match (s.slot h).confirm with
  | some c =>
      if c.phaseWait && !(match s.live h with
        | some r => s.lampPhased r
        | none => false)
      then (s.modifyConfirm h fun c => { c with phaseWait := false }).callPass
      else s
  | none => s

theorem modifyConfirm_slot (s : State) (h : Handle) (f : ConfirmEntry → ConfirmEntry) :
    (s.modifyConfirm h f).slot h = { s.slot h with confirm := (s.slot h).confirm.map f } := slot_modifySlot ..

theorem modifyConfirm_slot_ne (s : State) {h k : Handle} (f : ConfirmEntry → ConfirmEntry) (hk : h ≠ k) :
    (s.modifyConfirm h f).slot k = s.slot k := slot_modifySlot_ne s _ hk

theorem modifyConfirm_record (s : State) (h k : Handle) (f : ConfirmEntry → ConfirmEntry) :
    (s.modifyConfirm h f).record k = s.record k := by
  unfold State.record
  by_cases e : h = k
  · subst e
    rw [modifyConfirm_slot]
  · rw [modifyConfirm_slot_ne s f e]

theorem callPass_slot (s : State) (h : Handle) : s.callPass.slot h = s.slot h := rfl

theorem phaseWaitCheck_eq (s : State) : s.phaseWaitCheck = allHandles.foldl State.phaseWaitOne s := rfl

/-- The mark that a record keeps while it is phased. -/
def State.keptWait (s : State) (h : Handle) (x : Slot) : Slot := { x with
  confirm := x.confirm.map fun c => { c with phaseWait := c.phaseWait && (s.live h).any s.lampPhased } }

/-- Two states whose records and sources are the same. -/
structure SamePhases (s t : State) : Prop where
  records : ∀ h, t.record h = s.record h
  drt : t.drt = s.drt

theorem SamePhases.phased {s t : State} (e : SamePhases s t) (h : Handle) :
    (t.live h).any t.lampPhased = (s.live h).any s.lampPhased := by
  have phased : t.lampPhased = s.lampPhased := by
    funext r
    unfold State.lampPhased State.demanded State.phased State.source
    rw [e.drt]
  rw [live_of_record (e.records h), phased]

theorem phaseWaitOne_some {s : State} {h : Handle} {c : ConfirmEntry} (hc : (s.slot h).confirm = some c) :
    s.phaseWaitOne h = if c.phaseWait && !(s.live h).any s.lampPhased
      then (s.modifyConfirm h fun c => { c with phaseWait := false }).callPass else s := by
  unfold State.phaseWaitOne
  simp only [hc]
  cases s.live h <;> rfl

theorem phaseWaitOne_none {s : State} {h : Handle} (hc : (s.slot h).confirm = none) : s.phaseWaitOne h = s := by
  unfold State.phaseWaitOne
  simp only [hc]

theorem phaseWaitOne_slot (s : State) (h : Handle) : (s.phaseWaitOne h).slot h = s.keptWait h (s.slot h) := by
  unfold State.keptWait
  cases hc : (s.slot h).confirm with
  | none =>
      rw [phaseWaitOne_none hc, Option.map_none, ← hc]
  | some c =>
      rw [phaseWaitOne_some hc]
      split
      · next off =>
          rw [callPass_slot, modifyConfirm_slot, hc]
          have : (s.live h).any s.lampPhased = false := by simpa using (Bool.and_eq_true_iff.mp off).2
          rw [this, Option.map_some, Option.map_some, Bool.and_false]
      · next on =>
          have : (c.phaseWait && (s.live h).any s.lampPhased) = c.phaseWait := by
            revert on
            cases c.phaseWait <;> cases (s.live h).any s.lampPhased <;> simp
          rw [Option.map_some, this, ← hc]

theorem phaseWaitOne_others (s : State) (h : Handle) :
    (∀ k, h ≠ k → (s.phaseWaitOne h).slot k = s.slot k) ∧ SamePhases s (s.phaseWaitOne h) := by
  cases hc : (s.slot h).confirm with
  | none =>
      rw [phaseWaitOne_none hc]
      exact ⟨fun _ _ => rfl, fun _ => rfl, rfl⟩
  | some c =>
      rw [phaseWaitOne_some hc]
      split
      · exact ⟨fun k hk => modifyConfirm_slot_ne s _ hk, fun k => modifyConfirm_record s h k _, rfl⟩
      · exact ⟨fun _ _ => rfl, fun _ => rfl, rfl⟩

theorem foldl_phaseWaitOne {k : Handle} {l : List Handle} (distinct : l.Nodup) (s : State) :
    (l.foldl State.phaseWaitOne s).slot k = if k ∈ l then s.keptWait k (s.slot k) else s.slot k := by
  induction l generalizing s with
  | nil => rfl
  | cons h l ih =>
      obtain ⟨out, distinct⟩ := List.nodup_cons.mp distinct
      obtain ⟨others, phases⟩ := phaseWaitOne_others s h
      rw [List.foldl_cons, ih distinct]
      by_cases e : h = k
      · subst e
        rw [if_neg out, if_pos List.mem_cons_self, phaseWaitOne_slot]
      · have kept : (s.phaseWaitOne h).keptWait k = s.keptWait k := by
          unfold State.keptWait
          rw [phases.phased k]
        rw [kept, others k e]
        simp [Ne.symm e]

theorem phaseWaitCheck_confirm {s : State} {h : Handle} {c : ConfirmEntry} (hc : (s.slot h).confirm = some c) :
    (s.phaseWaitCheck.slot h).confirm = some { c with phaseWait := c.phaseWait && (s.live h).any s.lampPhased } := by
  rw [phaseWaitCheck_eq, foldl_phaseWaitOne allHandles_nodup, if_pos (mem_allHandles h)]
  unfold State.keptWait
  rw [hc]
  rfl


/-! ### The timers in a quiet engine (R46, R48, R58, R162) -/

theorem presenceTick_taken {s : State} {e : Nat} (hr : s.hcp.inReset = false) (ht : s.ntab.tick = .running e) :
    exec .presenceTick s = .next ((s.advanceTo e).tick.finish false) := by
  change runEvent s (s.ntab.tick.ends.map fun t => (s.advanceTo t).tick) = _
  rw [ht]
  exact runEvent_some hr _

theorem addressHoldExpiry_taken {s : State} {a : Addr} {e : Nat} (hr : s.hcp.inReset = false)
    (ha : s.bue.held.find? (fun x => x.1 == a) = some (a, e)) :
    exec (.addressHoldExpiry a) s = .next (((s.advanceTo e).releaseHold a).finish false) := by
  change runEvent s ((s.bue.held.find? fun x => x.1 == a).map fun x => (s.advanceTo x.2).releaseHold a) = _
  rw [ha]
  exact runEvent_some hr _

theorem frontierTimerExpiry_taken {s : State} {e : Nat} (hr : s.hcp.inReset = false) (hf : s.bue.frontier = .running e) :
    exec .frontierTimerExpiry s = .next ((s.advanceTo e).frontierOut.finish false) := by
  change runEvent s (s.bue.frontier.ends.map fun t => (s.advanceTo t).frontierOut) = _
  rw [hf]
  exact runEvent_some hr _

theorem confirmDeadline_taken {s : State} {h : Handle} {e : Nat} (hr : s.hcp.inReset = false)
    (hd : s.deadlineOf h = some e) : exec (.confirmDeadline h) s = .next ((s.advanceTo e).callPass.finish false) := by
  change runEvent s ((s.deadlineOf h).map fun t => (s.advanceTo t).callPass) = _
  rw [hd]
  exact runEvent_some hr _

/-- What the end of an event leaves of a quiet engine that has taken an effect of the walk's. -/
theorem finish_walked {s u : State} {e : Nat} (m : Moves (.more .walk) (s.advanceTo e) u) (quiet : u.engineQuiet) :
    (u.finish false).bue = u.bue ∧ (u.finish false).ntab = u.ntab
    ∧ (u.finish false).fixed = { s.fixed with now := max s.now e } := by
  obtain ⟨bue, ntab, -⟩ := finish_quiet u false quiet
  exact ⟨bue, ntab, by rw [finish_fixed, m.fixed, advanceTo_fixed]⟩

/-- An Assign placed changes of the engine no more than its errand and its request. -/
theorem placeAssign_bue (s : State) : ∃ x q, s.placeAssign.bue = { s.bue with errand := x, request := q } := by
  unfold State.placeAssign
  split
  · next a p _ _ =>
      obtain ⟨⟨q, bue⟩, -⟩ := placeBue_bue (s.setBue { s.bue with errand := .none }) (.assign a p.identity) fun _ _ => by simp
      exact ⟨.none, q, by rw [bue]; rfl⟩
  · exact ⟨.waitAddress, s.bue.request, rfl⟩

theorem releaseHold_bue (s : State) (a : Addr) : ∃ x q, (s.releaseHold a).bue =
    { s.bue with held := s.bue.held.filter fun x => !(x.1 == a), errand := x, request := q } := by
  unfold State.releaseHold
  dsimp only
  split
  · obtain ⟨x, q, bue⟩ := placeAssign_bue (s.setBue { s.bue with held := s.bue.held.filter fun x => !(x.1 == a) })
    exact ⟨x, q, by rw [bue]; rfl⟩
  · exact ⟨s.bue.errand, s.bue.request, rfl⟩

/-- While a request of the engine's stands the frontier Probe is held (log entry 21). -/
theorem frontierOut_held {s : State} (h : s.bue.request ≠ .none) :
    s.frontierOut = s.setBue { s.bue with frontier := .stopped, frontierHeld := true } := by
  unfold State.frontierOut
  simp only [setBue_bue, beq_iff_eq, if_neg h]
  rfl

theorem frontierOut_placed {s : State} (h : s.bue.request = .none) :
    s.frontierOut = (s.setBue { s.bue with frontier := .stopped }).placeBue .probe := by
  unfold State.frontierOut
  simp only [setBue_bue, beq_iff_eq, if_pos h]

theorem placeBue_probe {s : State} (up : s.tdl.line ≠ .down) (room : s.routineEntries < 24) :
    s.placeBue .probe = { s with
      tdl := { s.tdl with routine := s.tdl.routine ++ [.probe] }, bue := { s.bue with request := .queued } } := by
  rw [placeBue_taken s .probe up room, describePlaced_other _ _ fun _ _ => by simp]
  rfl

theorem frontierOut_room {s : State} (idle : s.bue.request = .none) (up : s.tdl.line ≠ .down)
    (room : s.routineEntries < 24) : s.frontierOut = { s with
      tdl := { s.tdl with routine := s.tdl.routine ++ [.probe] }
      bue := { s.bue with frontier := .stopped, request := .queued } } := by
  rw [frontierOut_placed idle]
  exact placeBue_probe (s := s.setBue { s.bue with frontier := .stopped }) up room

theorem frontierOut_bue (s : State) : ∃ b q, s.frontierOut.bue =
    { s.bue with frontier := .stopped, frontierHeld := b, request := q } := by
  by_cases h : s.bue.request = .none
  · rw [frontierOut_placed h]
    obtain ⟨⟨q, bue⟩, -⟩ := placeBue_bue (s.setBue { s.bue with frontier := .stopped }) .probe fun _ _ => by simp
    exact ⟨s.bue.frontierHeld, q, by rw [bue]; rfl⟩
  · rw [frontierOut_held h]
    exact ⟨true, s.bue.request, rfl⟩

theorem presenceTick_ends {s : State} {e : Nat} (hr : s.hcp.inReset = false) (quiet : s.engineQuiet)
    (ht : s.ntab.tick = .running e) : ∃ t : State, exec .presenceTick s = .next t
      ∧ t = (s.advanceTo e).tick.finish false ∧ t.ntab = { s.ntab with tick := .running (max s.now e + ms 10) }
      ∧ t.bue = s.bue ∧ t.fixed = { s.fixed with now := max s.now e } := by
  obtain ⟨entries, same⟩ := tick_same (s.advanceTo e)
  have calm : (s.advanceTo e).tick.engineQuiet := by
    unfold State.engineQuiet
    rw [same]
    exact quiet
  obtain ⟨bue, ntab, fixed⟩ := finish_walked (tick_moves .nil) calm
  exact ⟨_, presenceTick_taken hr ht, rfl, ntab.trans entries, bue.trans same, fixed⟩

theorem addressHold_ends {s : State} {a : Addr} {e : Nat} (hr : s.hcp.inReset = false) (quiet : s.engineQuiet)
    (ha : s.bue.held.find? (fun x => x.1 == a) = some (a, e)) : ∃ t : State,
      exec (.addressHoldExpiry a) s = .next t ∧ t.bue.held = s.bue.held.filter (fun x => !(x.1 == a))
      ∧ t.fixed = { s.fixed with now := max s.now e } := by
  obtain ⟨x, q, same⟩ := releaseHold_bue (s.advanceTo e) a
  have calm : ((s.advanceTo e).releaseHold a).engineQuiet := by
    unfold State.engineQuiet
    rw [same]
    exact quiet
  obtain ⟨bue, -, fixed⟩ := finish_walked (releaseHold_moves .nil a) calm
  exact ⟨_, addressHoldExpiry_taken hr ha, by rw [bue, same]; rfl, fixed⟩

theorem frontierTimer_ends {s : State} {e : Nat} (hr : s.hcp.inReset = false) (quiet : s.engineQuiet)
    (hf : s.bue.frontier = .running e) : ∃ t : State, exec .frontierTimerExpiry s = .next t
      ∧ t.bue.frontier = .stopped ∧ t.bue.state = s.bue.state
      ∧ (s.bue.request ≠ .none → t.bue = { s.bue with frontier := .stopped, frontierHeld := true })
      ∧ (s.bue.request = .none → s.tdl.line ≠ .down → s.routineEntries < 24 → t.bue.request = .queued
        ∧ ∃ u : State, t = u.finish false ∧ u.tdl = { s.tdl with routine := s.tdl.routine ++ [.probe] })
      ∧ t.fixed = { s.fixed with now := max s.now e } := by
  obtain ⟨b, q, same⟩ := frontierOut_bue (s.advanceTo e)
  have calm : (s.advanceTo e).frontierOut.engineQuiet := by
    unfold State.engineQuiet
    rw [same]
    exact quiet
  obtain ⟨bue, -, fixed⟩ := finish_walked (frontierOut_moves .nil) calm
  refine ⟨_, frontierTimerExpiry_taken hr hf, by rw [bue, same], by rw [bue, same]; rfl, fun busy => ?_,
    fun idle up room => ⟨?_, _, rfl, ?_⟩, fixed⟩
  · exact bue.trans (congrArg State.bue (frontierOut_held (s := s.advanceTo e) busy))
  · rw [bue, frontierOut_room (s := s.advanceTo e) idle up room]
  · rw [frontierOut_room (s := s.advanceTo e) idle up room]
    rfl

theorem confirmDeadline_ends {s : State} {h : Handle} {e : Nat} (hr : s.hcp.inReset = false) (quiet : s.engineQuiet)
    (hd : s.deadlineOf h = some e) : ∃ t : State, exec (.confirmDeadline h) s = .next t
      ∧ t = (s.advanceTo e).callPass.finish false ∧ t.bue = s.bue ∧ t.ntab = s.ntab
      ∧ t.fixed = { s.fixed with now := max s.now e } := by
  obtain ⟨bue, ntab, fixed⟩ := finish_walked (u := (s.advanceTo e).callPass) (callPass_moves .nil) quiet
  exact ⟨_, confirmDeadline_taken hr hd, rfl, bue, ntab, fixed⟩

/-- Settles O53: the tick, the due records, the Samples claimed, the passes, the ON starts and the timers in turn. -/
theorem nodeAndFrontierTimers : Obligations.NodeAndFrontierTimers := by
  unfold Obligations.NodeAndFrontierTimers
  refine ⟨fun s kept => tick_hails kept, fun s => ⟨fun h => ?due, dueRecords_sorted s⟩,
    fun s h r a hl ha => claimSample_live hl ha, fun s h a i gen => ?sample, fun s h r hl => ?pass, fun s => ?whole,
    fun s h e => ⟨deadlineOf_iff, rfl⟩, fun s m => ?mark, fun s h c hc => ?start, fun s e hr quiet => ?timers⟩
  case due =>
    simp only [mem_dueRecords, dueAt_iff]
    exact exists_comm
  case sample =>
    refine ⟨fun up room => ?_, claimSampleTo_full h a i gen, claimSampleAgain_unplaced, rfl⟩
    rw [claimSampleTo_taken h a i gen up room]
    exact ⟨rfl, setMark_mark _ h .queued, rfl, decide_eq_true_iff⟩
  case pass =>
    refine ⟨lampPhased_iff s r, fun phased => ?_, fun steady few => ?_, fun many => ⟨?_, fun steady => ?_⟩, fun few => ?_,
      passOne_ended s h, passUnplaced_ended s h⟩
    · rw [passOne_live hl, if_pos phased]
    · rw [passOne_live hl, if_neg (by simp [steady]), if_pos few]
    · rw [passUnplaced_eq, if_neg (Nat.not_lt.mpr many)]
    · rw [passOne_live hl, if_neg (by simp [steady]), if_neg (Nat.not_lt.mpr many)]
    · rw [passUnplaced_eq, if_pos few]
  case whole =>
    exact ⟨rfl, (pass_moves (e := .claim) .nil).own_le, rfl⟩
  case mark => exact markOnStart_eq s m
  case start =>
    exact ⟨confirmOnStart_waits hc, confirmOnStart_claims hc, phaseWaitCheck_confirm hc⟩
  case timers =>
    exact ⟨presenceTick_ends hr quiet, fun a => addressHold_ends hr quiet, frontierTimer_ends hr quiet,
      fun h => confirmDeadline_ends hr quiet⟩

end Sys2Proof.Machine

namespace Sys2Proof.Machine

/-! ### Matches leave the line and the engine alone (R44, R179, R180) -/

theorem rewant_tdl (s : State) (h : Handle) : (s.rewant h).tdl = s.tdl := by
  unfold State.rewant
  split
  · split
    · dsimp only
      split
      · rfl
      · exact enterIfDiffers_tdl ..
    · rfl
  · rfl

theorem joinList_tdl (s : State) (x : Src) (h : Handle) : (s.joinList x h).tdl = s.tdl := by
  unfold State.joinList
  split <;> rfl

theorem changeTie_tdl (s : State) (h : Handle) (x : Option Src) : (s.changeTie h x).tdl = s.tdl := by
  have left : ∀ (u : State) (y : Option Src), (match y with
      | some z => u.leaveList z h
      | none => u).tdl = u.tdl := fun u y => by cases y <;> rfl
  have joined : ∀ (u : State) (y : Option Src), (match y with
      | some z => u.joinList z h
      | none => u).tdl = u.tdl := fun u y => by
    cases y with
    | none => rfl
    | some z => exact joinList_tdl u z h
  unfold State.changeTie
  split
  · split
    · rfl
    · dsimp only
      rw [rewant_tdl]
      exact (joined _ _).trans (left _ _)
  · rfl

theorem returnProof_tdl (s : State) (p : Proof) (toHead standing : Bool) :
    (s.returnProof p toHead standing).tdl = s.tdl := claim_tdl s p.handle p.gen Record.returnToList

theorem leaveSteady_tdl (s : State) (p : Proof) : (s.leaveSteady p).tdl = s.tdl := by
  unfold State.leaveSteady
  split
  · rfl
  · exact returnProof_tdl ..

theorem watchSteady_tdl (s : State) (p : Proof) (b : Bool) : (s.watchSteady p b).tdl = s.tdl := by
  unfold State.watchSteady
  split
  · rfl
  · split
    · rfl
    · exact leaveSteady_tdl ..

theorem proofSourceCheck_tdl (s : State) : s.proofSourceCheck.tdl = s.tdl := by
  unfold State.proofSourceCheck
  split
  · rfl
  · split
    · rfl
    · split
      · rfl
      · split
        · split
          · exact returnProof_tdl ..
          · rfl
        · rfl
        · exact watchSteady_tdl ..
        · exact watchSteady_tdl ..

theorem proofTieChanged_tdl (s : State) (h : Handle) : (s.proofTieChanged h).tdl = s.tdl := by
  unfold State.proofTieChanged
  split
  · rfl
  · split
    · split
      · split
        · split
          · exact returnProof_tdl ..
          · exact leaveSteady_tdl ..
        · exact leaveSteady_tdl ..
      · exact proofSourceCheck_tdl s
    · rfl

theorem applyHint_tdl (first unit : Nat) (s : State) (x : Hint) : (State.applyHint first unit s x).tdl = s.tdl := by
  unfold State.applyHint
  dsimp only
  split
  · split
    · split
      · exact (proofTieChanged_tdl _ _).trans (changeTie_tdl _ _ _)
      · rfl
    · rfl
  · rfl

/-- What hints, the renewal of a stamp and a flag leave alone, the answer of a match does. -/
theorem answerMatch_leaves {β : Type} (p : State → β) (hint : ∀ first unit u x, p (State.applyHint first unit u x) = p u)
    (stamp : ∀ u k, p (State.setKtl u k) = p u) (flag : ∀ u f, p (State.raise u f) = p u) (s : State) (m : MatchReq) :
    p (s.answerMatch m).1 = p s := by
  unfold State.answerMatch
  split
  · rfl
  · next i _ =>
      dsimp only
      split
      · have renew : ∀ u : State, p (u.renewStamp i) = p u := fun u => by
          unfold State.renewStamp
          split
          · rfl
          · exact stamp ..
        exact (renew _).trans (foldl_same (hint m.first m.unit) _ _)
      · exact flag ..

/-- What the answer of a match leaves alone, for what the engine does next. -/
structure Answers (s t : State) : Prop where
  now : t.now = s.now
  tdl : t.tdl = s.tdl
  ntab : t.ntab = s.ntab
  recat : t.fdir.recat = s.fdir.recat

theorem answerMatch_answers (s : State) (m : MatchReq) : Answers s (s.answerMatch m).1 := by
  have hint : ∀ first unit u x, Moves .claim u (State.applyHint first unit u x) :=
    fun first unit u x => applyHint_moves .nil first unit x
  exact ⟨answerMatch_leaves State.now (fun a b u x => congrArg Fixed.now (hint a b u x).fixed) (fun _ _ => rfl)
      (fun _ _ => rfl) s m,
    answerMatch_leaves State.tdl applyHint_tdl (fun _ _ => rfl) (fun _ _ => rfl) s m,
    (answerMatch_same s m).2,
    answerMatch_leaves (fun u => u.fdir.recat) (fun a b u x => (hint a b u x).claim.2.2.2.2.1) (fun _ _ => rfl)
      (fun _ _ => rfl) s m⟩

/-- The answer is that of the stored list. -/
theorem answerMatch_outcome {s t : State} (same : t.ktl = s.ktl) (m : MatchReq) :
    (t.answerMatch m).2 = (s.answerMatch m).2 := by
  have entry : t.ktlEntry = s.ktlEntry := by
    funext i
    unfold State.ktlEntry
    rw [same]
  unfold State.answerMatch State.findEntry
  rw [entry]
  split
  · rfl
  · next i _ =>
      dsimp only
      split <;> rfl


/-! ### The end of the chain (R44, R45) -/

/-- The match that the engine asks for of its highest unit (R44). -/
def State.matchOf (s : State) (u : UnitRec) : MatchReq :=
  { unit := s.bue.units.length, first := u.first, identity := s.unitIdentity u, digest := u.digest, nodeCount := u.nodeCount }

theorem nvBusy_iff (s : State) : s.nvBusy = true ↔ s.ktl.scanning = true ∨ s.ktl.write ≠ none := by
  unfold State.nvBusy
  rw [Bool.or_eq_true, Option.isSome_iff_ne_none]

theorem highestUnmatched_eq (s : State) : s.highestUnmatched = s.bue.units.getLast?.any fun u => u.outcome == .none := by
  unfold State.highestUnmatched State.highestUnit
  cases s.bue.units.getLast? <;> rfl

/-- With the stored list busy the match waits (R179). -/
theorem goMatch_waits {s : State} {u : UnitRec} (hu : s.bue.units.getLast? = some u) (busy : s.nvBusy = true) (x : Errand) :
    s.goMatch x = (s.setBue { s.bue with state := .matching, errand := x }).setKtl
      { s.ktl with waiting := some (s.matchOf u) } := by
  unfold State.goMatch State.highestUnit
  rw [hu]
  exact if_pos busy

/-- The engine with the outcome of its highest unit's match. -/
def Bue.answered (b : Bue) (x : Errand) (o : MatchOutcome) : Bue := { b with
  state := .matching, errand := x, units := b.units.modify (b.units.length - 1) fun v => { v with outcome := o } }

/-- With the stored list free the answer is stored, and the engine goes on to what has called for the match (R44). -/
theorem goMatch_answered {s : State} {u : UnitRec} (hu : s.bue.units.getLast? = some u) (free : s.nvBusy = false)
    (x : Errand) : ∃ v : State, Answers s v ∧ v.bue = s.bue.answered x (s.answerMatch (s.matchOf u)).2
      ∧ s.goMatch x = match x with
        | .thenSettle reason => v.settle reason
        | _ => v.enterAssign := by
  let w := s.setBue { s.bue with state := .matching, errand := x }
  have eq : s.goMatch x = ((w.answerMatch (s.matchOf u)).1).matched s.bue.units.length (w.answerMatch (s.matchOf u)).2 := by
    unfold State.goMatch State.highestUnit
    rw [hu]
    exact if_neg (by rw [Bool.not_eq_true]; exact free)
  obtain ⟨now, tdl, ntab, recat⟩ := answerMatch_answers w (s.matchOf u)
  have bue := (answerMatch_same w (s.matchOf u)).1
  rw [answerMatch_outcome (s := s) (t := w) rfl] at eq
  generalize (w.answerMatch (s.matchOf u)).1 = v at *
  refine ⟨v.modifyUnit s.bue.units.length fun r => { r with outcome := (s.answerMatch (s.matchOf u)).2 },
    ⟨now, tdl, ntab, recat⟩, ?_, eq.trans ?_⟩
  · unfold State.modifyUnit
    rw [setBue_bue, bue]
    rfl
  · unfold State.matched State.modifyUnit
    dsimp only
    rw [setBue_bue, bue]
    rfl

theorem endChain_matched {s : State} (h : ∀ u, s.bue.units.getLast? = some u → u.outcome ≠ .none) (x : ChainEnd) :
    s.endChain x = s.settle x := by
  have none : s.highestUnmatched = false := by
    rw [highestUnmatched_eq, Option.any_eq_false]
    intro u hu
    simpa using h u hu
  unfold State.endChain
  rw [none]
  rfl

theorem endChain_unmatched {s : State} {u : UnitRec} (hu : s.bue.units.getLast? = some u) (ho : u.outcome = .none)
    (x : ChainEnd) : s.endChain x = s.goMatch (.thenSettle x) := by
  unfold State.endChain
  rw [highestUnmatched_eq, hu, Option.any_some, ho]
  rfl

theorem settle_settled (s : State) (x : ChainEnd) : (s.settle x).bue.state = .settled ∧ (s.settle x).bue.chainEnd = x
    ∧ (s.settle x).bue.settledOnce = true ∧ (s.settle x).hcp.flags.getLsbD 2 = true
    ∧ (s.settle x).bue.frontier = if x ≠ .ended then .stopped
      else if s.lineRuns then .running (s.now + ms 500) else .held (ms 500) := by
  refine ⟨rfl, rfl, rfl, raise_bit _ .settled, ?_⟩
  unfold State.settle
  by_cases h : x = .ended
  · simp [h]
    rfl
  · simp [h]

/-- The chain ends as R44 and R45 have it. -/
theorem endChain_ends (s : State) (x : ChainEnd) : s.chainEnded (s.endChain x) x := by
  unfold State.chainEnded
  dsimp only
  by_cases matched : ∀ u, s.bue.units.getLast? = some u → u.outcome ≠ .none
  · rw [endChain_matched matched]
    exact ⟨rfl, fun _ => ⟨settle_settled s x, rfl⟩, fun u hu ho => absurd ho (matched u hu)⟩
  · obtain ⟨u, hu, ho⟩ : ∃ u, s.bue.units.getLast? = some u ∧ u.outcome = .none := by
      push Not at matched
      exact matched
    have only : ∀ v, s.bue.units.getLast? = some v → v = u := fun v hv => Option.some.inj (hv.symm.trans hu)
    rw [endChain_unmatched hu ho]
    cases busy : s.nvBusy with
    | true =>
        rw [goMatch_waits hu busy]
        refine ⟨rfl, fun k => absurd ho (k u hu), fun v hv _ => ⟨fun _ => ⟨rfl, rfl, ?_⟩, fun k => by cases k⟩⟩
        rw [only v hv]
        rfl
    | false =>
        obtain ⟨v, answers, bue, eq⟩ := goMatch_answered hu busy (.thenSettle x)
        rw [eq]
        have settled := settle_settled v x
        have runs : v.lineRuns = s.lineRuns := by
          unfold State.lineRuns
          rw [answers.tdl]
        rw [runs, answers.now] at settled
        refine ⟨answers.tdl, fun k => absurd ho (k u hu), fun w hw _ => ⟨(fun k => by cases k), fun _ => ⟨settled, ?_⟩⟩⟩
        rw [only w hw]
        exact congrArg Bue.units bue

/-- What the end of the chain keeps of what a walk has brought about. -/
structure WalkKept (s t : State) : Prop where
  ntab : t.ntab = s.ntab
  recat : t.fdir.recat = s.fdir.recat
  tries : t.bue.tries = s.bue.tries
  halt : t.bue.halt = s.bue.halt
  units : ∃ f : UnitRec → MatchOutcome, t.bue.units = s.bue.units.modify (s.bue.units.length - 1) fun u =>
    { u with outcome := f u }

theorem WalkKept.of_units {s t : State} (ntab : t.ntab = s.ntab) (recat : t.fdir.recat = s.fdir.recat)
    (tries : t.bue.tries = s.bue.tries) (halt : t.bue.halt = s.bue.halt) (units : t.bue.units = s.bue.units) :
    WalkKept s t :=
  ⟨ntab, recat, tries, halt, UnitRec.outcome, units.trans (List.modify_id _ _).symm⟩

theorem endChain_kept (s : State) (x : ChainEnd) : WalkKept s (s.endChain x) := by
  by_cases matched : ∀ u, s.bue.units.getLast? = some u → u.outcome ≠ .none
  · rw [endChain_matched matched]
    exact .of_units rfl rfl rfl rfl rfl
  · obtain ⟨u, hu, ho⟩ : ∃ u, s.bue.units.getLast? = some u ∧ u.outcome = .none := by
      push Not at matched
      exact matched
    rw [endChain_unmatched hu ho]
    cases busy : s.nvBusy with
    | true =>
        rw [goMatch_waits hu busy]
        exact .of_units rfl rfl rfl rfl rfl
    | false =>
        obtain ⟨v, answers, bue, eq⟩ := goMatch_answered hu busy (.thenSettle x)
        rw [eq]
        have tries : v.bue.tries = s.bue.tries := by rw [bue]; rfl
        have halt : v.bue.halt = s.bue.halt := by rw [bue]; rfl
        exact ⟨answers.ntab, answers.recat, tries, halt, _, congrArg Bue.units bue⟩

/-- The end of the chain sees of a state its line, its units, the Node Table, the clock and the stored list. -/
theorem chainEnded_of_same {s u t : State} {x : ChainEnd} (tdl : u.tdl = s.tdl) (units : u.bue.units = s.bue.units)
    (ntab : u.ntab = s.ntab) (now : u.now = s.now) (ktl : u.ktl = s.ktl) (h : u.chainEnded t x) : s.chainEnded t x := by
  have runs : u.lineRuns = s.lineRuns := by
    unfold State.lineRuns
    rw [tdl]
  have identity : u.unitIdentity = s.unitIdentity := by
    funext v
    unfold State.unitIdentity State.nodeAt
    rw [ntab]
  have busy : u.nvBusy = s.nvBusy := by
    unfold State.nvBusy
    rw [ktl]
  have answer : ∀ m, (u.answerMatch m).2 = (s.answerMatch m).2 := answerMatch_outcome ktl
  unfold State.chainEnded at h ⊢
  simp only [tdl, units, now, runs, identity, busy, answer] at h
  exact h

end Sys2Proof.Machine

namespace Sys2Proof.Machine

/-! ### Requests of the walk placed (R31) -/

/-- `t` is `s` once the engine has placed `r`: taken, or refused FULL and still to be placed. -/
structure State.Places (s : State) (r : WalkReq) (t : State) : Prop where
  bue : ∃ q, t.bue = { s.bue with request := q }
  taken : s.tdl.line ≠ .down → s.routineEntries < 24 → t.bue.request = .queued
    ∧ t.tdl = { s.tdl with routine := s.tdl.routine ++ [r.request] }
  full : s.tdl.line ≠ .down → 24 ≤ s.routineEntries → t.bue.request = .unplaced r ∧ t.tdl = s.tdl
  rest : t.fdir = s.fdir ∧ t.agenda = s.agenda ∧ t.hcp = s.hcp ∧ t.ktl = s.ktl
  ntab : (∀ a i, r ≠ .describe a i false) → t.ntab = s.ntab

/-- The first Describe placed moves a node entry and nothing else (R53). -/
theorem describePlaced_eq (s : State) (r : WalkReq) : ∃ n, s.describePlaced r = s.setNtab n := by
  unfold State.describePlaced State.modifyNode
  split
  · split
    · split
      · exact ⟨s.ntab, rfl⟩
      · exact ⟨_, rfl⟩
    · exact ⟨s.ntab, rfl⟩
  · exact ⟨s.ntab, rfl⟩

theorem placeBue_places (s : State) (r : WalkReq) : s.Places r (s.placeBue r) := by
  have ntab : (∀ a i, r ≠ .describe a i false) → (s.placeBue r).ntab = s.ntab := fun h => (placeBue_bue s r h).2
  by_cases down : s.tdl.line = .down
  · rw [placeBue_down s r down] at ntab ⊢
    exact ⟨⟨_, rfl⟩, fun up => absurd down up, fun up => absurd down up, ⟨rfl, rfl, rfl, rfl⟩, ntab⟩
  · by_cases room : s.routineEntries < 24
    · rw [placeBue_taken s r down room] at ntab ⊢
      obtain ⟨n, eq⟩ := describePlaced_eq ({ s with
        tdl := { s.tdl with routine := s.tdl.routine ++ [r.request] }, bue := { s.bue with request := .queued } } : State) r
      rw [eq] at ntab ⊢
      exact ⟨⟨_, rfl⟩, fun _ _ => ⟨rfl, rfl⟩, fun _ full => absurd room (Nat.not_lt.mpr full), ⟨rfl, rfl, rfl, rfl⟩, ntab⟩
    · rw [placeBue_full s r down room] at ntab ⊢
      exact ⟨⟨_, rfl⟩, fun _ k => absurd k room, fun _ _ => ⟨rfl, rfl⟩, ⟨rfl, rfl, rfl, rfl⟩, ntab⟩

/-- A request that is still to be placed is placed when an attempt on the line ends (R31). -/
theorem bueOccasion_unplaced {s : State} {w : WalkReq} (h : s.bue.request = .unplaced w) :
    s.bueOccasion = s.placeBue w := by
  unfold State.bueOccasion
  rw [h]

theorem bueOccasion_other {s : State} (h : ∀ w, s.bue.request ≠ .unplaced w) : s.bueOccasion = s := by
  unfold State.bueOccasion
  split
  · next w k => exact absurd k (h w)
  · rfl

/-- Extend goes to the node at the highest position (R43). -/
theorem placeExtend_places {s : State} {n : NodeEntry} (hn : s.ntab.nodes.getLast? = some n) (opening : Bool) :
    s.Places (.extend n.address opening) (s.placeExtend opening) := by
  have eq : s.placeExtend opening = s.placeBue (.extend n.address opening) := by
    unfold State.placeExtend State.highestAddress
    rw [hn]
    rfl
  rw [eq]
  exact placeBue_places ..

theorem placeExtend_none {s : State} (hn : s.ntab.nodes = []) (opening : Bool) : s.placeExtend opening = s := by
  unfold State.placeExtend State.highestAddress
  rw [hn]
  rfl

/-- What the engine's Extend leaves of the engine and the Node Table. -/
theorem placeExtend_bue (s : State) (opening : Bool) : (∃ q, (s.placeExtend opening).bue = { s.bue with request := q })
    ∧ (s.placeExtend opening).ntab = s.ntab ∧ (s.placeExtend opening).fdir = s.fdir := by
  cases hn : s.ntab.nodes.getLast? with
  | none =>
      rw [placeExtend_none (List.getLast?_eq_none_iff.mp hn)]
      exact ⟨⟨_, rfl⟩, rfl, rfl⟩
  | some n =>
      have places := placeExtend_places hn opening
      exact ⟨places.bue, places.ntab fun _ _ => by simp, places.rest.1⟩

/-! ### Entry to PROBE (R33, R36) -/

theorem enterProbe_ends {s : State} (h : 12 ≤ s.ntab.nodes.length) :
    s.enterProbe = (s.setBue s.bue.probing).endChain .nodeLimit := by
  rw [enterProbe_eq]
  exact if_pos h

theorem enterProbe_places {s : State} (h : s.ntab.nodes.length < 12) :
    (s.setBue s.bue.probing).Places .probe s.enterProbe := by
  rw [enterProbe_eq, if_neg (show ¬ Config.nodeLimit ≤ _ from Nat.not_le.mpr h)]
  exact placeBue_places ..

theorem enterProbe_chainEnded {s : State} (h : 12 ≤ s.ntab.nodes.length) : s.chainEnded s.enterProbe .nodeLimit := by
  rw [enterProbe_ends h]
  exact chainEnded_of_same (u := s.setBue s.bue.probing) rfl rfl rfl rfl rfl (endChain_ends _ _)

/-- Entry to PROBE keeps the entries, a recatalogue's end, the tries and the cause of a halt. -/
theorem enterProbe_kept (s : State) : WalkKept s s.enterProbe := by
  by_cases h : 12 ≤ s.ntab.nodes.length
  · rw [enterProbe_ends h]
    obtain ⟨ntab, recat, tries, halt, units⟩ := endChain_kept (s.setBue s.bue.probing) .nodeLimit
    exact ⟨ntab, recat, tries, halt, units⟩
  · obtain ⟨⟨q, bue⟩, -, -, rest, ntab⟩ := enterProbe_places (Nat.lt_of_not_le h)
    exact .of_units (ntab fun _ _ => by simp) (congrArg Fdir.recat rest.1) (by rw [bue]; rfl) (by rw [bue]; rfl)
      (by rw [bue]; rfl)

theorem enterProbe_clauses (s : State) :
    (12 ≤ s.ntab.nodes.length → s.chainEnded s.enterProbe .nodeLimit)
    ∧ (s.ntab.nodes.length < 12 → s.enterProbe.bue.state = .probe ∧ s.enterProbe.bue.chainEnd = .none
      ∧ s.enterProbe.bue.frontier = .stopped ∧ s.enterProbe.bue.dropping = false ∧ s.enterProbe.bue.deferred = .none
      ∧ s.enterProbe.bue.units = s.bue.units ∧ s.enterProbe.ntab = s.ntab
      ∧ (s.tdl.line ≠ .down → s.routineEntries < 24 → s.enterProbe.bue.request = .queued
        ∧ s.enterProbe.tdl = { s.tdl with routine := s.tdl.routine ++ [.probe] })
      ∧ (s.tdl.line ≠ .down → 24 ≤ s.routineEntries → s.enterProbe.bue.request = .unplaced .probe
        ∧ s.enterProbe.tdl = s.tdl)) := by
  refine ⟨enterProbe_chainEnded, fun few => ?_⟩
  obtain ⟨⟨q, bue⟩, taken, full, -, ntab⟩ := enterProbe_places few
  refine ⟨?_, ?_, ?_, ?_, ?_, ?_, ntab fun _ _ => by simp, taken, full⟩
  all_goals rw [bue]; rfl

/-! ### Outcomes of the engine's requests (R31, R48) -/

theorem bueOutcome_eq (s : State) (r : Request) (o : ReqOutcome) (h : s.bue.dropping = false) : s.bueOutcome r o =
    match r with
    | .probe => s.bueRequestGone.probeOutcome o
    | .assign a _ => s.bueRequestGone.assignOutcome a o
    | .describe _ i false => s.bueRequestGone.describeOutcome i o
    | .describe _ i true => s.bueRequestGone.recatOutcome i o
    | .extend a opening => s.bueRequestGone.extendOutcome a opening o
    | .release _ true => if o == .sent then s.bueRequestGone.windowReleased else s.bueRequestGone
    | _ => s.bueRequestGone := by
  unfold State.bueOutcome
  exact if_neg (by rw [Bool.not_eq_true]; exact h)

theorem bueOutcome_drops (s : State) (r : Request) (o : ReqOutcome) (h : s.bue.dropping = true) :
    s.bueOutcome r o = s.bueRequestGone.dropped r o := by
  unfold State.bueOutcome
  exact if_pos h

theorem dropped_other (s : State) (r : Request) (o : ReqOutcome) (h : ∀ a i, r ≠ .assign a i) : s.dropped r o = s := by
  unfold State.dropped
  split
  · next a i _ _ => exact absurd rfl (h a i)
  · rfl

/-- The address of a dropped Assign answered OK is held (R48). -/
theorem dropped_assign (s : State) (a : Addr) (i : Identity) (st : ReplyStatus) (pl : List Byte) (n : Nat) :
    s.dropped (.assign a i) (.replied st pl n) = if st = .ok then s.holdAddress a else s := by
  cases st <;> rfl

/-! ### The window limit's Release is SENT (R38) -/

theorem windowReleased_none {s : State} (h : s.ntab.nodes = []) :
    s.chainEnded s.windowReleased .windowLimit ∧ s.windowReleased.hcp.flags.getLsbD 4 = true := by
  have eq : s.windowReleased = (s.raise .chainFault).endChain .windowLimit := by
    unfold State.windowReleased
    rw [h]
    rfl
  rw [eq]
  have moves : Moves (.more .walk) (s.raise .chainFault) ((s.raise .chainFault).endChain .windowLimit) :=
    endChain_moves .nil _
  exact ⟨chainEnded_of_same (u := s.raise .chainFault) rfl rfl rfl rfl rfl (endChain_ends _ _),
    flagsKept_bit moves.flags 4 (raise_bit s .chainFault)⟩

theorem windowReleased_closes {s : State} {n : NodeEntry} (h : s.ntab.nodes.getLast? = some n) :
    (s.setBue { s.bue with errand := .closeForWindow }).Places (.extend n.address false) s.windowReleased := by
  have some : s.ntab.nodes.isEmpty = false := by
    rw [List.isEmpty_eq_false_iff]
    rintro empty
    rw [empty] at h
    cases h
  unfold State.windowReleased
  rw [some]
  exact placeExtend_places (s := s.setBue { s.bue with errand := .closeForWindow }) h false

/-! ### Outcomes of a Probe (R33 to R35, R46) -/

/-- A frontier Probe without a reply starts its timer again (R46). -/
theorem probeOutcome_frontier {s : State} (settled : s.bue.state = .settled) (none : s.fdir.recat = none) :
    s.probeOutcome .noReply = { s with bue := { s.bue with frontier := if s.bue.chainEnd = .ended then
      (if s.lineRuns then .running (s.now + ms 500) else .held (ms 500)) else .stopped } } := by
  unfold State.probeOutcome State.frontierSilent State.recatNext
  dsimp only
  rw [settled, setBue_fdir, none]
  simp only [beq_self_eq_true, if_true, beq_iff_eq]
  rfl

theorem probeOutcome_silent {s : State} (walks : s.bue.state ≠ .settled) :
    s.probeOutcome .noReply = s.endChain .ended := by
  unfold State.probeOutcome
  simp only [beq_iff_eq, if_neg walks]

/-- A halt is reported, and leaves the entries and the line (R33, R47). -/
theorem haltWith_halted (s : State) (x : HaltCause) : (s.endRecat.haltWith x).bue.state = .halted
    ∧ (s.endRecat.haltWith x).bue.halt = x ∧ (s.endRecat.haltWith x).bue.haltPosition = s.ntab.nodes.length
    ∧ (s.endRecat.haltWith x).hcp.flags.getLsbD 4 = true ∧ (s.endRecat.haltWith x).ntab = s.ntab
    ∧ (s.endRecat.haltWith x).tdl = s.tdl := by
  obtain ⟨-, ntab, -⟩ := endRecat_same s
  refine ⟨rfl, rfl, ?_, raise_bit _ .chainFault, ntab, endRecat_tdl s⟩
  rw [← ntab]
  rfl

theorem probeOutcome_status (s : State) {st : ReplyStatus} (h : st ≠ .ok) (pl : List Byte) (e : Nat) :
    s.probeOutcome (.replied st pl e) = s.endRecat.haltWith .badProbe := by
  cases st with
  | ok => exact absurd rfl h
  | _ => rfl

theorem probeOutcome_broken (s : State) {pl : List Byte} (h : 16 < (parseProbe pl).count) (e : Nat) :
    s.probeOutcome (.replied .ok pl e) = s.endRecat.haltWith .badProbe := if_neg (Nat.not_le.mpr h)

theorem probeOutcome_found (s : State) {pl : List Byte} (h : (parseProbe pl).count ≤ 16) (e : Nat) :
    s.probeOutcome (.replied .ok pl e) = s.endRecat.probeFound (parseProbe pl) := if_pos h

end Sys2Proof.Machine

namespace Sys2Proof.Machine

/-! ### A Probe answered (R34, R35, R37) -/

/-- The lowest position whose entry holds an identity (R34). -/
theorem positionOfIdentity_lowest {s : State} {q : Nat} {n : NodeEntry} {i : Identity} (hn : s.nodeAt q = some n)
    (hi : n.identity = i) (lowest : ∀ k, k < q → ∀ m, s.nodeAt k = some m → m.identity ≠ i) :
    s.positionOfIdentity i = some q := by
  obtain ⟨pos, at_⟩ := nodeAt_eq_some.mp hn
  obtain ⟨inside, value⟩ := List.getElem?_eq_some_iff.mp at_
  have found : s.ntab.nodes.findIdx? (fun m => m.identity == i) = some (q - 1) := by
    rw [List.findIdx?_eq_some_iff_getElem]
    refine ⟨inside, by rw [value]; simpa using hi, fun j hj => ?_⟩
    have there : s.nodeAt (j + 1) = some (s.ntab.nodes[j]'(hj.trans inside)) :=
      nodeAt_eq_some.mpr ⟨Nat.succ_ne_zero j, List.getElem?_eq_getElem _⟩
    simpa using lowest (j + 1) (by omega) _ there
  unfold State.positionOfIdentity
  rw [found]
  exact congrArg some (show q - 1 + 1 = q by omega)

theorem positionOfIdentity_none {s : State} {i : Identity} (h : ∀ n ∈ s.ntab.nodes, n.identity ≠ i) :
    s.positionOfIdentity i = none := by
  unfold State.positionOfIdentity
  rw [List.findIdx?_eq_none_iff.mpr fun n hn => by simpa using h n hn]
  rfl

/-- A cut in PROBE leaves the engine there (R48). -/
theorem chainCut_probe {s : State} {p : Nat} (state : s.bue.state = .probe)
    (few : (s.ntab.nodes.take (p - 1)).length < 12) : (s.chainCut p).bue.state = .probe := by
  obtain ⟨⟨q, bue⟩, -⟩ := cutNodes_request s p
  have probe : (s.cutNodes p).bue.state = .probe := by rw [bue]; exact state
  have nodes := cutNodes_ntab s p
  rw [chainCut_eq, raise_bue]
  generalize s.cutNodes p = t at probe nodes
  rw [cutResponse_walks p (by rw [probe]; decide)]
  dsimp only
  split
  · exact probe
  · exact enterProbe_state (by
      show t.ntab.nodes.length < 12
      rw [nodes]
      exact few)

/-- The engine in PROBE, its chain open again (R46). -/
def Bue.found (b : Bue) : Bue := { b with state := .probe, chainEnd := .none, frontier := .stopped, frontierHeld := false }

/-- A reply with the identity of a node entry cuts the chain there (R34). -/
theorem probeFound_known {s : State} {p : ProbeReply} {q : Nat} {n : NodeEntry} (hold : s.ntab.hold = false)
    (kept : s.ntab.nodesKept) (hn : s.nodeAt q = some n) (hi : n.identity = p.identity)
    (lowest : ∀ k, k < q → ∀ m, s.nodeAt k = some m → m.identity ≠ p.identity) :
    (s.probeFound p).bue.state = .probe ∧ (s.probeFound p).ntab.nodes = s.ntab.nodes.take (q - 1)
    ∧ (s.probeFound p).hcp.flags.getLsbD 3 = true := by
  let u := s.setBue s.bue.found
  have eq : s.probeFound p = u.declareLost q := by
    have position : u.positionOfIdentity p.identity = some q := positionOfIdentity_lowest hn hi lowest
    have open_ : u.ntab.hold = false := hold
    change (match u.positionOfIdentity p.identity, u.ntab.hold with
      | some q, false => u.declareLost q
      | _, _ => (u.setBue { u.bue with lastProbe := some p }).unitCheck p) = _
    rw [position, open_]
  obtain ⟨cut, nodes, flag⟩ := declareLost_cuts (s := u) hn hold
  rw [eq]
  refine ⟨?_, nodes, flag⟩
  obtain ⟨pos, at_⟩ := nodeAt_eq_some.mp hn
  obtain ⟨inside, -⟩ := List.getElem?_eq_some_iff.mp at_
  have limit : s.ntab.nodes.length ≤ 12 := kept.2
  have rest := modifyNode_take u q fun n => { n with state := .lost }
  obtain ⟨l, lost⟩ := modifyNode_rest u q fun n => { n with state := .lost }
  rw [cut]
  refine chainCut_probe (by rw [lost]; rfl) ?_
  rw [rest, List.length_take]
  show min _ s.ntab.nodes.length < 12
  omega

/-- Any other is followed by the unit check (R35). -/
theorem probeFound_new {s : State} {p : ProbeReply}
    (new : s.ntab.hold = true ∨ ∀ n ∈ s.ntab.nodes, n.identity ≠ p.identity) :
    s.probeFound p = (s.setBue { s.bue.found with lastProbe := some p }).unitCheck p := by
  let u := s.setBue s.bue.found
  change (match u.positionOfIdentity p.identity, u.ntab.hold with
    | some q, false => u.declareLost q
    | _, _ => (u.setBue { u.bue with lastProbe := some p }).unitCheck p) = _
  rcases new with hold | new
  · have hold : u.ntab.hold = true := hold
    rw [hold]
    cases u.positionOfIdentity p.identity <;> rfl
  · rw [positionOfIdentity_none (s := u) new]
    rfl

/-- `t` is `s` in ASSIGN for the node that has answered `p`: its Assign carries the lowest free address, or waits for one
(R37). -/
def State.Assigning (s : State) (p : ProbeReply) (t : State) : Prop :=
  t.bue.state = .assign ∧ t.bue.lastProbe = some p
  ∧ (s.freeAddress = none → t.bue.errand = .waitAddress ∧ t.tdl = s.tdl)
  ∧ ∀ a, s.freeAddress = some a → s.tdl.line ≠ .down → s.routineEntries < 24 →
    t.tdl.routine = s.tdl.routine ++ [.assign a p.identity] ∧ t.bue.request = .queued

theorem enterAssign_assigning {s : State} {p : ProbeReply} (hp : s.bue.lastProbe = some p) :
    s.Assigning p s.enterAssign ∧ s.enterAssign.bue.units = s.bue.units := by
  let u := s.setBue { s.bue with state := .assign, errand := .none }
  have eq : s.enterAssign = match u.freeAddress, u.bue.lastProbe with
    | some a, some p => (u.setBue { u.bue with errand := .none }).placeBue (.assign a p.identity)
    | _, _ => u.setBue { u.bue with errand := .waitAddress } := rfl
  have free : u.freeAddress = s.freeAddress := rfl
  have probe : u.bue.lastProbe = some p := hp
  rw [eq, free, probe]
  unfold State.Assigning
  cases s.freeAddress with
  | none => exact ⟨⟨rfl, hp, fun _ => ⟨rfl, rfl⟩, fun a k => by cases k⟩, rfl⟩
  | some a =>
      obtain ⟨⟨q, bue⟩, taken, -⟩ := placeBue_places (u.setBue { u.bue with errand := .none }) (.assign a p.identity)
      dsimp only
      refine ⟨⟨by rw [bue]; rfl, by rw [bue]; exact hp, (fun k => by cases k), fun b k up room => ?_⟩, by rw [bue]; rfl⟩
      cases k
      obtain ⟨queued, tdl⟩ := taken up room
      exact ⟨by rw [tdl]; rfl, queued⟩

/-- A unit head with three units ends the chain, its gate to be closed (R35). -/
theorem unitCheck_full {s : State} {p : ProbeReply} (head : p.head = true) (many : 3 ≤ s.bue.units.length) :
    (s.unitCheck p).bue.state = s.bue.state ∧ (s.unitCheck p).bue.errand = .closeForUnits
    ∧ ∀ n, s.ntab.nodes.getLast? = some n → s.tdl.line ≠ .down → s.routineEntries < 24 →
      (s.unitCheck p).tdl.routine = s.tdl.routine ++ [.extend n.address false] ∧ (s.unitCheck p).bue.request = .queued := by
  have eq : s.unitCheck p = (s.setBue { s.bue with errand := .closeForUnits }).placeExtend false :=
    if_pos (by simp [head, Config.unitLimit, many])
  rw [eq]
  obtain ⟨⟨q, bue⟩, -⟩ := placeExtend_bue (s.setBue { s.bue with errand := .closeForUnits }) false
  refine ⟨by rw [bue]; rfl, by rw [bue]; rfl, fun n hn up room => ?_⟩
  obtain ⟨queued, tdl⟩ := (placeExtend_places (s := s.setBue { s.bue with errand := .closeForUnits }) hn false).taken up room
  exact ⟨by rw [tdl]; rfl, queued⟩

theorem unitCheck_room {s : State} {p : ProbeReply} (head : p.head = true) (few : s.bue.units.length < 3) :
    s.unitCheck p = if s.highestUnmatched then s.goMatch .thenAssign else s.enterAssign := by
  unfold State.unitCheck
  simp [head, Config.unitLimit, Nat.not_le.mpr few]

/-- A unit head begins a unit: the highest one is matched first unless it has been (R35, R44). -/
theorem unitCheck_matched {s : State} {p : ProbeReply} (head : p.head = true) (few : s.bue.units.length < 3)
    (matched : ∀ u, s.bue.units.getLast? = some u → u.outcome ≠ .none) : s.unitCheck p = s.enterAssign := by
  rw [unitCheck_room head few, highestUnmatched_eq, if_neg]
  rw [Bool.not_eq_true, Option.any_eq_false]
  intro u hu
  simpa using matched u hu

theorem unitCheck_unmatched {s : State} {p : ProbeReply} {u : UnitRec} (head : p.head = true) (few : s.bue.units.length < 3)
    (hp : s.bue.lastProbe = some p) (hu : s.bue.units.getLast? = some u) (ho : u.outcome = .none) :
    (s.unitCheck p).bue.state = (if s.nvBusy then .matching else .assign)
    ∧ (s.nvBusy = true → (s.unitCheck p).bue.errand = .thenAssign ∧ (s.unitCheck p).ktl.waiting = some (s.matchOf u)) := by
  have eq : s.unitCheck p = s.goMatch .thenAssign := by
    rw [unitCheck_room head few, highestUnmatched_eq, hu, Option.any_some, ho]
    rfl
  rw [eq]
  cases busy : s.nvBusy with
  | true =>
      rw [goMatch_waits hu busy]
      exact ⟨rfl, fun _ => ⟨rfl, rfl⟩⟩
  | false =>
      obtain ⟨v, -, bue, eq⟩ := goMatch_answered hu busy .thenAssign
      have probe : v.bue.lastProbe = some p := by
        rw [bue]
        exact hp
      rw [eq]
      exact ⟨(enterAssign_assigning probe).1.1, fun k => by cases k⟩

/-- A node that is no unit head goes on in the highest unit, which is matched anew (R35). -/
theorem unitCheck_inner (s : State) {p : ProbeReply} (inner : p.head = false) :
    s.unitCheck p = (s.setBue { s.bue with
      units := s.bue.units.modify (s.bue.units.length - 1) fun u => { u with outcome := .none } }).enterAssign := by
  unfold State.unitCheck
  rw [inner]
  rfl

theorem probeFound_clauses {s : State} {p : ProbeReply}
    (new : s.ntab.hold = true ∨ ∀ n ∈ s.ntab.nodes, n.identity ≠ p.identity) :
    (p.head = true → 3 ≤ s.bue.units.length → (s.probeFound p).bue.state = .probe
      ∧ (s.probeFound p).bue.errand = .closeForUnits
      ∧ ∀ n, s.ntab.nodes.getLast? = some n → s.tdl.line ≠ .down → s.routineEntries < 24 →
        (s.probeFound p).tdl.routine = s.tdl.routine ++ [.extend n.address false]
        ∧ (s.probeFound p).bue.request = .queued)
    ∧ (p.head = true → s.bue.units.length < 3 → (∀ u, s.bue.units.getLast? = some u → u.outcome ≠ .none) →
      s.Assigning p (s.probeFound p) ∧ (s.probeFound p).bue.units = s.bue.units)
    ∧ (∀ u, p.head = true → s.bue.units.length < 3 → s.bue.units.getLast? = some u → u.outcome = .none →
      (s.probeFound p).bue.state = (if s.nvBusy then .matching else .assign)
      ∧ (s.nvBusy = true → (s.probeFound p).bue.errand = .thenAssign
        ∧ (s.probeFound p).ktl.waiting = some (s.matchOf u)))
    ∧ (p.head = false → s.Assigning p (s.probeFound p)
      ∧ (s.probeFound p).bue.units = s.bue.units.modify (s.bue.units.length - 1) fun u => { u with outcome := .none }) := by
  rw [probeFound_new new]
  refine ⟨fun head many => unitCheck_full (s := s.setBue { s.bue.found with lastProbe := some p }) head many,
    fun head few matched => ?_, fun u head few hu ho =>
      unitCheck_unmatched (s := s.setBue { s.bue.found with lastProbe := some p }) head few rfl hu ho, fun inner => ?_⟩
  · rw [unitCheck_matched (s := s.setBue { s.bue.found with lastProbe := some p }) head few matched]
    exact enterAssign_assigning (s := s.setBue { s.bue.found with lastProbe := some p }) rfl
  · rw [unitCheck_inner _ inner]
    exact enterAssign_assigning (s := (s.setBue { s.bue.found with lastProbe := some p }).setBue _) rfl

end Sys2Proof.Machine

namespace Sys2Proof.Machine

/-! ### Addresses and identities of the walk (R37, R44, R212) -/

/-- The first of the numbers below `n` that a condition holds of is the lowest. -/
theorem find?_finRange {n : Nat} (p : Fin n → Bool) (a : Fin n) :
    (List.finRange n).find? p = some a ↔ p a = true ∧ ∀ b, b < a → p b = false := by
  rw [List.find?_eq_some_iff_getElem]
  constructor
  · rintro ⟨pa, i, hi, rfl, before⟩
    refine ⟨pa, fun b hb => ?_⟩
    have hb : b.val < i := by simpa [Fin.lt_def] using hb
    simpa using before b.val hb
  · rintro ⟨pa, before⟩
    refine ⟨pa, a.val, by simp, by simp, fun j hj => ?_⟩
    simpa using before ⟨j, hj.trans a.isLt⟩ hj

/-- The address given is the lowest that neither an entry has nor a hold keeps (R37). -/
theorem freeAddress_eq_some (s : State) (a : Addr) : s.freeAddress = some a ↔
    ((∀ n ∈ s.ntab.nodes, n.address ≠ a) ∧ (∀ x ∈ s.bue.held, x.1 ≠ a))
    ∧ ∀ b, b < a → (∃ n ∈ s.ntab.nodes, n.address = b) ∨ ∃ x ∈ s.bue.held, x.1 = b := by
  have taken : ∀ b : Addr, (!(s.ntab.nodes.any fun n => n.address == b) && !(s.bue.held.any fun x => x.1 == b)) = false ↔
      (∃ n ∈ s.ntab.nodes, n.address = b) ∨ ∃ x ∈ s.bue.held, x.1 = b := fun b => by
    simp only [Bool.and_eq_false_iff, Bool.not_eq_false', List.any_eq_true, beq_iff_eq]
  have free : (!(s.ntab.nodes.any fun n => n.address == a) && !(s.bue.held.any fun x => x.1 == a)) = true ↔
      (∀ n ∈ s.ntab.nodes, n.address ≠ a) ∧ ∀ x ∈ s.bue.held, x.1 ≠ a := by
    simp only [Bool.and_eq_true, Bool.not_eq_true', List.any_eq_false, beq_iff_eq, ne_eq]
  unfold State.freeAddress
  rw [find?_finRange, free]
  exact and_congr_right fun _ => forall₂_congr fun b _ => taken b

/-- A unit has the identity of its first node (R44). -/
theorem unitIdentity_first {s : State} {u : UnitRec} {n : NodeEntry} (h : s.nodeAt u.first = some n) :
    s.unitIdentity u = n.identity := by
  unfold State.unitIdentity
  rw [h]
  rfl

/-- An identity is read back from its bytes. -/
theorem bytesNat_identityBytes (i : Identity) : bytesNat (identityBytes i) = i.toNat := by
  have small : i.toNat < 18446744073709551616 := i.isLt
  simp only [bytesNat, identityBytes, List.foldl_cons, List.foldl_nil, BitVec.extractLsb'_toNat, Nat.shiftRight_eq_div_pow]
  omega

/-- A Probe reply is the identity and the byte with the unit-head flag and the function count (R212). -/
theorem parseProbe_identityBytes (i : Identity) (b : Byte) : parseProbe (identityBytes i ++ [b]) =
    { identity := i, head := decide (128 ≤ b.toNat), count := b.toNat % 32 } := by
  have identity : BitVec.ofNat 64 (bytesNat ((identityBytes i ++ [b]).take 8)) = i := by
    rw [show (identityBytes i ++ [b]).take 8 = identityBytes i from rfl, bytesNat_identityBytes]
    exact BitVec.ofNat_toNat _ i |>.trans (BitVec.setWidth_eq i)
  unfold parseProbe
  rw [identity]
  rfl

/-! ### A request refused FULL (R31) -/

/-- While the class is full, a request that waits to be placed goes on waiting. -/
theorem bueOccasion_full {s : State} {w : WalkReq} (h : s.bue.request = .unplaced w) (up : s.tdl.line ≠ .down)
    (full : 24 ≤ s.routineEntries) : s.bueOccasion = s := by
  rw [bueOccasion_unplaced h, placeBue_full s w up (Nat.not_lt.mpr full), ← h]
  rfl

/-- With room it is placed. -/
theorem bueOccasion_room {s : State} {w : WalkReq} (h : s.bue.request = .unplaced w) (up : s.tdl.line ≠ .down)
    (room : s.routineEntries < 24) : s.bueOccasion.bue = { s.bue with request := .queued }
      ∧ s.bueOccasion.tdl = { s.tdl with routine := s.tdl.routine ++ [w.request] }
      ∧ ((∀ a i, w ≠ .describe a i false) → s.bueOccasion.ntab = s.ntab) := by
  rw [bueOccasion_unplaced h]
  obtain ⟨⟨q, bue⟩, taken, -, -, ntab⟩ := placeBue_places s w
  obtain ⟨queued, tdl⟩ := taken up room
  rw [bue] at queued
  exact ⟨by rw [bue, show q = _ from queued], tdl, ntab⟩

/-! ### A Probe's outcomes with a recatalogue in progress (R34, R35, R83) -/

theorem probeOutcome_known {s : State} {pl : List Byte} {e q : Nat} {n : NodeEntry} (sane : (parseProbe pl).count ≤ 16)
    (hold : s.ntab.hold = false) (kept : s.ntab.nodesKept) (hn : s.nodeAt q = some n)
    (hi : n.identity = (parseProbe pl).identity)
    (lowest : ∀ k, k < q → ∀ m, s.nodeAt k = some m → m.identity ≠ (parseProbe pl).identity) :
    (s.probeOutcome (.replied .ok pl e)).bue.state = .probe
    ∧ (s.probeOutcome (.replied .ok pl e)).ntab.nodes = s.ntab.nodes.take (q - 1)
    ∧ (s.probeOutcome (.replied .ok pl e)).hcp.flags.getLsbD 3 = true := by
  obtain ⟨-, ntab, -⟩ := endRecat_same s
  have nodeAt : s.endRecat.nodeAt = s.nodeAt := by
    funext k
    unfold State.nodeAt
    rw [ntab]
  rw [probeOutcome_found s sane, ← ntab]
  rw [← ntab] at hold kept
  rw [← nodeAt] at hn lowest
  exact probeFound_known hold kept hn hi lowest

end Sys2Proof.Machine

namespace Sys2Proof.Machine

/-! ### A node's catalogue has been read (R42, R75, R160) -/

/-- The record that a catalogue read claim leaves (R75). -/
def Record.afterRead (r : Record) : Record :=
  { r with state := if r.tie.isSome then .bound else .ready, binding := r.tie, intended := none }

theorem catalogueRead_eq (r : Record) :
    r.catalogueRead = if r.state = .provisional ∧ r.cls ≠ .lamp then some r.afterRead else none := by
  unfold Record.catalogueRead Record.isLamp
  simp only [Bool.not_eq_true', beq_eq_false_iff_ne]
  rfl

theorem afterRead_state (r : Record) : r.afterRead.state = .ready ∨ r.afterRead.state = .bound := by
  unfold Record.afterRead
  dsimp only
  split
  · exact .inr rfl
  · exact .inl rfl

/-- Nothing is withheld of a record that is neither FAULTED nor STALE nor PROVING (R128). -/
theorem withheld_sound (s : State) (h : Handle) {r : Record}
    (sound : r.state = .provisional ∨ r.state = .ready ∨ r.state = .bound) :
    r.overloadHeld = false ∧ s.withheld h r = false := by
  unfold State.withheld State.pulseHeld Record.overloadHeld
  rcases sound with e | e | e <;> simp [e]

/-- The claim gives a record its confirm entry, joins it, and moves no Drive and no guard. -/
theorem commit_afterRead (s : State) (h : Handle) {r : Record} (provisional : r.state = .provisional) :
    s.commit h r r.afterRead = ((s.setRecord h r.afterRead).join h).createConfirm h r.afterRead := by
  have sound := afterRead_state r
  have moved : ¬ (r.state = r.afterRead.state ∧ r.fault = r.afterRead.fault) := fun k => by
    rcases sound with e | e <;> rw [provisional, e] at k <;> cases k.1
  have enters : (r.afterRead.state.usable && !r.state.usable) = true := by
    rcases sound with e | e <;> rw [provisional, e] <;> rfl
  have was := (withheld_sound s h (.inl provisional)).2
  unfold State.commit State.reactWithheld
  simp only [if_neg moved, if_pos enters, was, (withheld_sound s h (.inr sound)).1, (withheld_sound _ h (.inr sound)).2]
  rfl


/-- The claim of one handle at the end of a node's catalogue. -/
def State.readOne (s : State) (h : Handle) : State := s.claim h (s.slot h).gen Record.catalogueRead

theorem readOne_unread {s : State} {h : Handle} {r : Record} (hl : s.live h = some r) (provisional : r.state = .provisional)
    (device : r.cls ≠ .lamp) :
    s.readOne h = ((s.setRecord h r.afterRead).join h).createConfirm h r.afterRead := by
  unfold State.readOne State.claim State.livePair
  rw [beq_self_eq_true, if_pos rfl, hl]
  dsimp only
  rw [catalogueRead_eq, if_pos ⟨provisional, device⟩]
  exact commit_afterRead s h provisional

theorem readOne_other {s : State} {h : Handle} (other : ∀ r, s.live h = some r → ¬ (r.state = .provisional ∧ r.cls ≠ .lamp)) :
    s.readOne h = s := by
  unfold State.readOne State.claim State.livePair
  rw [beq_self_eq_true, if_pos rfl]
  cases hl : s.live h with
  | none => rfl
  | some r =>
      dsimp only
      rw [catalogueRead_eq, if_neg (other r hl)]

/-- What the claim makes of a record that it is defined for, its slot and the joins; nothing else moves (R75, R160). -/
theorem readOne_read {s : State} {h : Handle} {r : Record} (hl : s.live h = some r) (provisional : r.state = .provisional)
    (device : r.cls ≠ .lamp) :
    (s.readOne h).slot h = { s.slot h with record := some r.afterRead, confirm := some (s.newConfirm r.afterRead) }
    ∧ (∀ k, h ≠ k → (s.readOne h).slot k = s.slot k) ∧ (s.readOne h).agenda.joins = h :: s.agenda.joins
    ∧ (s.readOne h).now = s.now ∧ (s.readOne h).tdl = s.tdl ∧ (s.readOne h).bue = s.bue ∧ (s.readOne h).ntab = s.ntab
    ∧ (s.readOne h).hcp = s.hcp := by
  rw [readOne_unread hl provisional device]
  refine ⟨?_, fun k ne => (slot_setSlot_ne _ _ ne).trans (setRecord_ne s ne _), rfl, rfl, rfl, rfl, rfl, rfl⟩
  have recorded : ((s.setRecord h r.afterRead).join h).slot h = { s.slot h with record := some r.afterRead } :=
    slot_setSlot ..
  exact (slot_setSlot ..).trans (by rw [recorded]; rfl)

/-- `t` is `s` once some handles' records have been read: nothing else has moved but the joins. -/
structure State.Reads (s t : State) (done : Handle → Prop) : Prop where
  rest : t.now = s.now ∧ t.tdl = s.tdl ∧ t.bue = s.bue ∧ t.ntab = s.ntab ∧ t.hcp = s.hcp
  read : ∀ h r, s.live h = some r → r.state = .provisional → r.cls ≠ .lamp → done h →
    t.slot h = { s.slot h with record := some r.afterRead, confirm := some (s.newConfirm r.afterRead) } ∧ h ∈ t.agenda.joins
  other : ∀ h, ((∀ r, s.live h = some r → ¬ (r.state = .provisional ∧ r.cls ≠ .lamp)) ∨ ¬ done h) → t.slot h = s.slot h

theorem State.Reads.refl (s : State) : s.Reads s fun _ => False :=
  ⟨⟨rfl, rfl, rfl, rfl, rfl⟩, fun _ _ _ _ _ k => k.elim, fun _ _ => rfl⟩

theorem live_of_slot {s t : State} {h : Handle} (same : t.slot h = s.slot h) : t.live h = s.live h :=
  live_of_record (congrArg Slot.record same)

/-- A record that is PROVISIONAL still has not been read, so its slot stands as it was. -/
theorem State.Reads.slot_of_provisional {s t : State} {done : Handle → Prop} (k : s.Reads t done) {h : Handle} {r : Record}
    (hl : t.live h = some r) (provisional : r.state = .provisional) : t.slot h = s.slot h := by
  refine k.other h ?_
  by_contra both
  push Not at both
  obtain ⟨⟨q, hq, hp, hc⟩, d⟩ := both
  have after : t.record h = some q.afterRead := congrArg Slot.record (k.read h q hq hp hc d).1
  obtain rfl := Option.some.inj ((live_record hl).symm.trans after)
  rcases afterRead_state q with e | e <;> rw [e] at provisional <;> cases provisional

/-- One more handle is read. -/
theorem State.Reads.one {s t : State} {done : Handle → Prop} (k : s.Reads t done) (x : Handle) :
    s.Reads (t.readOne x) fun h => done h ∨ h = x := by
  obtain ⟨⟨now, tdl, bue, ntab, hcp⟩, read, other⟩ := id k
  by_cases new : ∃ r, t.live x = some r ∧ r.state = .provisional ∧ r.cls ≠ .lamp
  · obtain ⟨r, hl, provisional, device⟩ := new
    have same : t.slot x = s.slot x := k.slot_of_provisional hl provisional
    have here : s.live x = some r := by rw [← live_of_slot same, hl]
    obtain ⟨own, apart, joins, now', tdl', bue', ntab', hcp'⟩ := readOne_read hl provisional device
    have confirm : t.newConfirm r.afterRead = s.newConfirm r.afterRead := by
      unfold State.newConfirm State.lineRuns
      rw [tdl, now]
    rw [same, confirm] at own
    refine ⟨⟨now'.trans now, tdl'.trans tdl, bue'.trans bue, ntab'.trans ntab, hcp'.trans hcp⟩,
      fun h q hq hp hc d => ?_, fun h out => ?_⟩
    · rw [joins]
      by_cases e : x = h
      · subst e
        obtain rfl : q = r := Option.some.inj (hq.symm.trans here)
        exact ⟨own, List.mem_cons_self⟩
      · obtain ⟨slot, join⟩ := read h q hq hp hc (d.resolve_right (Ne.symm e))
        exact ⟨(apart h e).trans slot, List.mem_cons_of_mem x join⟩
    · by_cases e : x = h
      · subst e
        exact out.elim (fun out => absurd ⟨provisional, device⟩ (out r here)) fun out => absurd (.inr rfl) out
      · exact (apart h e).trans (other h (out.imp_right fun k d => k (.inl d)))
  · rw [readOne_other fun r hl ⟨hp, hc⟩ => new ⟨r, hl, hp, hc⟩]
    refine ⟨⟨now, tdl, bue, ntab, hcp⟩, fun h q hq hp hc d => ?_, fun h out => other h (out.imp_right fun k d => k (.inl d))⟩
    by_cases before : done h
    · exact read h q hq hp hc before
    · obtain rfl := d.resolve_left before
      exact absurd ⟨q, (live_of_slot (other h (.inr before))).trans hq, hp, hc⟩ new

theorem foldl_readOne {s : State} (l : List Handle) {t : State} {done : Handle → Prop} (k : s.Reads t done) :
    s.Reads (l.foldl State.readOne t) fun h => done h ∨ h ∈ l := by
  induction l generalizing t done with
  | nil => simpa using k
  | cons x l ih =>
      have all := ih (k.one x)
      simp only [or_assoc] at all
      simpa [List.foldl_cons] using all

/-- The claims of one node's records, in the order of their function indices. -/
def State.recordsRead (s : State) (p : Nat) : State := (s.recordsAt p).foldl State.readOne s

theorem recordsRead_reads (s : State) (p : Nat) :
    s.Reads (s.recordsRead p) fun h => ∃ r, s.live h = some r ∧ r.position = p := by
  have all := foldl_readOne (s.recordsAt p) (State.Reads.refl s)
  simp only [false_or, mem_recordsAt] at all
  exact all

/-- CHAIN_CHANGE is set once the engine has been SETTLED. -/
def State.chainChanged (s : State) : State := if s.bue.settledOnce then s.raise .chainChange else s

theorem chainChanged_same (s : State) : s.chainChanged.fdir = s.fdir ∧ s.chainChanged.agenda = s.agenda
    ∧ s.chainChanged.tdl = s.tdl ∧ s.chainChanged.bue = s.bue ∧ s.chainChanged.ntab = s.ntab := by
  unfold State.chainChanged
  split <;> exact ⟨rfl, rfl, rfl, rfl, rfl⟩

theorem chainChanged_bit (s : State) :
    s.chainChanged.hcp.flags.getLsbD 3 = (s.hcp.flags.getLsbD 3 || s.bue.settledOnce) := by
  unfold State.chainChanged
  cases s.bue.settledOnce with
  | true => exact (raise_bit s .chainChange).trans (Bool.or_true _).symm
  | false => simp

/-- The claims and the flag are the catalogue read of R42. -/
theorem State.Reads.catalogueRead {s t : State} {p : Nat} (k : s.Reads t fun h => ∃ r, s.live h = some r ∧ r.position = p) :
    s.catalogueRead t.chainChanged p := by
  obtain ⟨⟨-, -, bue, -, hcp⟩, read, other⟩ := k
  obtain ⟨fdir, agenda, -⟩ := chainChanged_same t
  have slot : ∀ h, t.chainChanged.slot h = t.slot h := fun h => by
    unfold State.slot
    rw [fdir]
  refine ⟨by rw [chainChanged_bit, bue, hcp], fun h r hr => ⟨fun position provisional device => ?_, fun out => ?_⟩⟩
  · obtain ⟨own, join⟩ := read h r hr provisional device ⟨r, hr, position⟩
    have own := (slot h).trans own
    refine ⟨congrArg Slot.record own, ⟨?_, ?_, ?_⟩, by rw [agenda]; exact join⟩
    · rw [own]
      rfl
    all_goals rw [own]
  · have only : ∀ q, s.live h = some q → q = r := fun q hq => Option.some.inj (hq.symm.trans hr)
    refine (slot h).trans (other h ?_)
    by_cases position : r.position = p
    · left
      rintro q hq ⟨provisional, device⟩
      obtain rfl := only q hq
      exact out.elim (absurd position) fun out => out.elim (absurd provisional) device
    · right
      rintro ⟨q, hq, at_⟩
      exact position (only q hq ▸ at_)

/-- The node at the highest position LIVE, with its node-end digest (R42, R53). -/
def NodeEntry.catalogued (d : Half) (n : NodeEntry) : NodeEntry := { n with endDigest := some d, state := .live }

/-- The state once the catalogue of the node at the highest position has been read, before the engine goes on (R42). -/
def State.catalogueIn (s : State) : State :=
  ((s.modifyNode s.ntab.nodes.length (NodeEntry.catalogued
    ((s.bue.units[s.unitOf s.ntab.nodes.length - 1]?.map (·.digest)).getD digestStart))).recordsRead
      s.ntab.nodes.length).chainChanged

theorem catalogueDone_eq (s : State) : s.catalogueDone =
    if 12 ≤ s.ntab.nodes.length then s.catalogueIn.endChain .nodeLimit else s.catalogueIn.enterExtend := rfl

theorem modifyNode_last (s : State) (f : NodeEntry → NodeEntry) : s.modifyNode s.ntab.nodes.length f =
    { s with ntab := { s.ntab with nodes := s.ntab.nodes.modify (s.ntab.nodes.length - 1) f } } := by
  unfold State.modifyNode
  split
  · next empty =>
      have none : s.ntab.nodes = [] := List.eq_nil_of_length_eq_zero empty
      have same : s.ntab.nodes.modify (s.ntab.nodes.length - 1) f = s.ntab.nodes := by rw [none]; rfl
      rw [same]
  · rfl

theorem catalogueIn_reads (s : State) : s.catalogueRead s.catalogueIn s.ntab.nodes.length
    ∧ s.catalogueIn.tdl = s.tdl ∧ s.catalogueIn.bue = s.bue
    ∧ ∃ d, s.catalogueIn.ntab.nodes = s.ntab.nodes.modify (s.ntab.nodes.length - 1) (NodeEntry.catalogued d) := by
  unfold State.catalogueIn
  rw [modifyNode_last]
  generalize (s.bue.units[s.unitOf s.ntab.nodes.length - 1]?.map (·.digest)).getD digestStart = d
  let t : State := { s with
    ntab := { s.ntab with nodes := s.ntab.nodes.modify (s.ntab.nodes.length - 1) (NodeEntry.catalogued d) } }
  have reads := recordsRead_reads t s.ntab.nodes.length
  obtain ⟨-, -, tdl, bue, ntab⟩ := chainChanged_same (t.recordsRead s.ntab.nodes.length)
  refine ⟨reads.catalogueRead, tdl.trans reads.rest.2.1, bue.trans reads.rest.2.2.1, d, ?_⟩
  rw [show State.ntab _ = _ from ntab, reads.rest.2.2.2.1]

end Sys2Proof.Machine

namespace Sys2Proof.Machine

/-! ### Assign REPLIED OK (R37, R38) -/

/-- The last element changed. -/
theorem modify_concat {α : Type} (l : List α) (x : α) (f : α → α) : (l ++ [x]).modify l.length f = l ++ [f x] :=
  List.modifyTailIdx_add (List.modifyHead f) 0 l [x]

/-- The unit records that a node counts in: a unit head, or the first node of the chain, begins one (R37). -/
def State.unitsFor (s : State) (p : ProbeReply) : List UnitRec :=
  if p.head || s.bue.units.isEmpty then s.bue.units ++ [newUnit (s.ntab.nodes.length + 1) p.head] else s.bue.units

theorem unitsFor_begins {s : State} {p : ProbeReply} (h : p.head = true ∨ s.bue.units = []) :
    s.unitsFor p = s.bue.units ++ [newUnit (s.ntab.nodes.length + 1) p.head] :=
  if_pos (by simpa using h)

theorem unitsFor_goes_on {s : State} {p : ProbeReply} (h : ¬ (p.head = true ∨ s.bue.units = [])) :
    s.unitsFor p = s.bue.units :=
  if_neg (by simpa using h)

/-- The node entry that an Assign makes (R37, R53). -/
def State.nodeFor (s : State) (a : Addr) (p : ProbeReply) (e : Nat) : NodeEntry :=
  newNode a (s.unitsFor p).length p e (if s.lineRuns then .counting 0 s.now else .still 0)

/-- One more node of a unit. -/
def UnitRec.oneMore (u : UnitRec) : UnitRec := { u with nodeCount := u.nodeCount + 1 }

/-- The unit records with the node counted in (R37). -/
def State.unitsWith (s : State) (p : ProbeReply) : List UnitRec :=
  (s.unitsFor p).modify ((s.unitsFor p).length - 1) UnitRec.oneMore

/-- The state with the node that an Assign has made. -/
def State.nodeMade (s : State) (a : Addr) (p : ProbeReply) (e : Nat) : State := { s with
  ntab := { s.ntab with nodes := s.ntab.nodes ++ [s.nodeFor a p e] }
  bue := { s.bue with units := s.unitsWith p, tries := 0, lastProbe := none } }

theorem assigned_eq (s : State) (a : Addr) (p : ProbeReply) (e : Nat) : s.assigned a p e =
    if 100 < e then (s.nodeMade a p e).windowLimit a s.bue.units else (s.nodeMade a p e).enterDescribe := rfl

/-- An echo delay over 10.0 ms takes the entry and its share in the units back, and the node is released (R38). -/
theorem nodeMade_windowLimit (s : State) (a : Addr) (p : ProbeReply) (e : Nat) :
    ((s.nodeMade a p e).windowLimit a s.bue.units).ntab = s.ntab
    ∧ ((s.nodeMade a p e).windowLimit a s.bue.units).bue.units = s.bue.units
    ∧ ((s.nodeMade a p e).windowLimit a s.bue.units).bue.errand = .windowRelease
    ∧ (s.tdl.line ≠ .down → s.routineEntries < 24 →
      ((s.nodeMade a p e).windowLimit a s.bue.units).tdl.routine = s.tdl.routine ++ [.release a true]) := by
  let u : State := { s with bue := { s.bue with units := s.bue.units, tries := 0, lastProbe := none, errand := .windowRelease } }
  have eq : (s.nodeMade a p e).windowLimit a s.bue.units = u.placeBue (.release a) := by
    have back : (s.ntab.nodes ++ [s.nodeFor a p e]).dropLast = s.ntab.nodes := List.dropLast_concat
    unfold State.windowLimit State.nodeMade State.setNtab State.setBue
    dsimp only
    rw [back]
  obtain ⟨⟨q, bue⟩, taken, -, -, ntab⟩ := placeBue_places u (.release a)
  rw [eq]
  refine ⟨ntab fun _ _ => by simp, by rw [bue], by rw [bue], fun up room => ?_⟩
  rw [(taken up room).2]
  rfl

/-- `t` is `s` with the entry `n` at its end, its engine having gone on from there: of the units only match outcomes have
changed. -/
structure State.HasNode (s : State) (n : NodeEntry) (units : List UnitRec) (t : State) : Prop where
  nodes : t.ntab.nodes = s.ntab.nodes ++ [n]
  tries : t.bue.tries = 0
  units : ∃ f : UnitRec → MatchOutcome, t.bue.units = units.modify (units.length - 1) fun u => { u with outcome := f u }

/-- The last entry stands at its address alone. -/
theorem positionOf_last {s : State} {l : List NodeEntry} {n : NodeEntry} (nodes : s.ntab.nodes = l ++ [n])
    (new : ∀ m ∈ l, m.address ≠ n.address) : s.positionOf n.address = some (l.length + 1) := by
  have before : l.findIdx? (fun m => m.address == n.address) = none :=
    List.findIdx?_eq_none_iff.mpr fun m hm => by simpa using new m hm
  unfold State.positionOf
  rw [nodes, List.findIdx?_append, before]
  simp

/-- The first Describe, once placed, moves the last entry to DESCRIBING (R53). -/
theorem placeBue_describe {s : State} {l : List NodeEntry} {n : NodeEntry} (nodes : s.ntab.nodes = l ++ [n])
    (new : ∀ m ∈ l, m.address ≠ n.address) (i : FnIndex) :
    ∃ st, (s.placeBue (.describe n.address i false)).ntab.nodes = l ++ [{ n with state := st }]
      ∧ (s.tdl.line ≠ .down → s.routineEntries < 24 → n.state = .assigned → st = .describing) := by
  by_cases down : s.tdl.line = .down
  · rw [placeBue_down s _ down]
    exact ⟨n.state, nodes, fun up => absurd down up⟩
  · by_cases room : s.routineEntries < 24
    · let t : State := { s with
        tdl := { s.tdl with routine := s.tdl.routine ++ [.describe n.address i false] }
        bue := { s.bue with request := .queued } }
      have eq : s.placeBue (.describe n.address i false) = t.modifyNode (l.length + 1) NodeEntry.describing := by
        rw [placeBue_taken s _ down room]
        change (match t.positionOf n.address with
          | some p => t.modifyNode p NodeEntry.describing
          | none => t) = _
        rw [positionOf_last (s := t) nodes new]
      have moved : (t.modifyNode (l.length + 1) NodeEntry.describing).ntab.nodes = l ++ [n.describing] := by
        change (s.ntab.nodes.modify l.length NodeEntry.describing) = _
        rw [nodes, modify_concat]
      rw [eq, moved]
      unfold NodeEntry.describing
      by_cases assigned : n.state = .assigned
      · exact ⟨.describing, by rw [assigned]; rfl, fun _ _ _ => rfl⟩
      · exact ⟨n.state, by simp [assigned], fun _ _ k => absurd k assigned⟩
    · rw [placeBue_full s _ down room]
      exact ⟨n.state, nodes, fun _ k => absurd k room⟩

/-- With functions to read, the first Describe is placed (R39). -/
theorem nodeMade_describes {s : State} {a : Addr} {p : ProbeReply} (e : Nat) (functions : 0 < p.count)
    (new : ∀ n ∈ s.ntab.nodes, n.address ≠ a) :
    ∃ st, s.HasNode { s.nodeFor a p e with state := st } (s.unitsWith p) (s.nodeMade a p e).enterDescribe
      ∧ (s.nodeMade a p e).enterDescribe.bue.state = .describe ∧ (s.nodeMade a p e).enterDescribe.bue.nextIndex = 0
      ∧ (s.tdl.line ≠ .down → s.routineEntries < 24 →
        (s.nodeMade a p e).enterDescribe.tdl.routine = s.tdl.routine ++ [.describe a 0 false] ∧ st = .describing) := by
  let u := (s.nodeMade a p e).setBue { (s.nodeMade a p e).bue with state := .describe, nextIndex := 0 }
  have last : u.ntab.nodes.getLast? = some (s.nodeFor a p e) := List.getLast?_concat
  have eq : (s.nodeMade a p e).enterDescribe = u.placeBue (.describe a 0 false) := by
    change u.describeNext = _
    unfold State.describeNext
    rw [last]
    exact dif_pos ⟨functions, Nat.zero_lt_succ 15⟩
  obtain ⟨st, nodes, describing⟩ := placeBue_describe (s := u) (n := s.nodeFor a p e) rfl new 0
  obtain ⟨⟨q, bue⟩, taken, -⟩ := placeBue_places u (.describe a 0 false)
  rw [eq]
  refine ⟨st, ⟨nodes, by rw [bue]; rfl, UnitRec.outcome, ?_⟩, by rw [bue]; rfl, by rw [bue]; rfl, fun up room =>
    ⟨?_, describing up room rfl⟩⟩
  · rw [bue]
    exact (List.modify_id _ _).symm
  · rw [(taken up room).2]
    rfl

/-- Extend OPEN goes to the node at the highest position (R43). -/
theorem enterExtend_opens {s : State} {n : NodeEntry} (hn : s.ntab.nodes.getLast? = some n) :
    s.enterExtend.bue.state = .extend ∧ s.enterExtend.bue.tries = s.bue.tries ∧ s.enterExtend.bue.units = s.bue.units
    ∧ s.enterExtend.ntab = s.ntab ∧ s.enterExtend.fdir = s.fdir ∧ s.enterExtend.agenda = s.agenda
    ∧ s.enterExtend.hcp = s.hcp ∧ (s.tdl.line ≠ .down → s.routineEntries < 24 →
      s.enterExtend.tdl.routine = s.tdl.routine ++ [.extend n.address true]) := by
  obtain ⟨⟨q, bue⟩, taken, -, ⟨fdir, agenda, hcp, -⟩, ntab⟩ :=
    placeExtend_places (s := s.setBue { s.bue with state := .extend, errand := .none }) hn true
  unfold State.enterExtend
  refine ⟨by rw [bue]; rfl, by rw [bue]; rfl, by rw [bue]; rfl, ntab fun _ _ => by simp, fdir, agenda, hcp,
    fun up room => ?_⟩
  · rw [(taken up room).2]
    rfl

/-- A node without functions is LIVE at once, and its gate is to be opened, or the chain ends at the twelfth (R36, R42). -/
theorem nodeMade_catalogued {s : State} {a : Addr} {p : ProbeReply} (e : Nat) (functions : p.count = 0)
    (few : s.ntab.nodes.length < 12) :
    ∃ d, s.HasNode ((s.nodeFor a p e).catalogued d) (s.unitsWith p) (s.nodeMade a p e).enterDescribe
      ∧ ∃ v : State, s.catalogueRead v (s.ntab.nodes.length + 1)
        ∧ (s.ntab.nodes.length < 11 → (s.nodeMade a p e).enterDescribe.bue.state = .extend
          ∧ (s.nodeMade a p e).enterDescribe.fdir = v.fdir ∧ (s.nodeMade a p e).enterDescribe.agenda = v.agenda
          ∧ (s.nodeMade a p e).enterDescribe.hcp = v.hcp
          ∧ (s.tdl.line ≠ .down → s.routineEntries < 24 →
            (s.nodeMade a p e).enterDescribe.tdl.routine = s.tdl.routine ++ [.extend a true]))
        ∧ (s.ntab.nodes.length = 11 → v.chainEnded (s.nodeMade a p e).enterDescribe .nodeLimit
          ∧ (s.nodeMade a p e).enterDescribe.tdl = s.tdl) := by
  let u := (s.nodeMade a p e).setBue { (s.nodeMade a p e).bue with state := .describe, nextIndex := 0 }
  have last : u.ntab.nodes.getLast? = some (s.nodeFor a p e) := List.getLast?_concat
  have length : u.ntab.nodes.length = s.ntab.nodes.length + 1 := List.length_append
  have eq : (s.nodeMade a p e).enterDescribe =
      if 12 ≤ s.ntab.nodes.length + 1 then u.catalogueIn.endChain .nodeLimit else u.catalogueIn.enterExtend := by
    change u.describeNext = _
    unfold State.describeNext
    rw [last]
    refine (dif_neg fun k => ?_).trans (by rw [catalogueDone_eq, length])
    have counted : 0 < p.count := k.1
    omega
  obtain ⟨read, tdl, bue, d, nodes⟩ := catalogueIn_reads u
  have read : s.catalogueRead u.catalogueIn (s.ntab.nodes.length + 1) := length ▸ read
  have nodes : u.catalogueIn.ntab.nodes = s.ntab.nodes ++ [(s.nodeFor a p e).catalogued d] := by
    rw [nodes, length]
    exact modify_concat ..
  have tries : u.catalogueIn.bue.tries = 0 := by rw [bue]; rfl
  have units : u.catalogueIn.bue.units = s.unitsWith p := by rw [bue]; rfl
  have tdl : u.catalogueIn.tdl = s.tdl := tdl
  rw [eq]
  generalize u.catalogueIn = v at *
  by_cases twelfth : s.ntab.nodes.length = 11
  · rw [if_pos (by omega)]
    have ends := endChain_ends v .nodeLimit
    obtain ⟨ntab, -, same, -, f, matched⟩ := endChain_kept v .nodeLimit
    refine ⟨d, ⟨(congrArg Ntab.nodes ntab).trans nodes, same.trans tries, f, units ▸ matched⟩, v, read,
      fun less => absurd twelfth (by omega), fun _ => ⟨ends, ends.1.trans tdl⟩⟩
  · rw [if_neg (by omega)]
    have highest : v.ntab.nodes.getLast? = some ((s.nodeFor a p e).catalogued d) := by
      rw [nodes]
      exact List.getLast?_concat
    obtain ⟨state, sameTries, sameUnits, ntab, fdir, agenda, hcp, placed⟩ := enterExtend_opens highest
    have entries : v.routineEntries = s.routineEntries := congrArg (fun t => t.routineOf fun _ => true) tdl
    refine ⟨d, ⟨(congrArg Ntab.nodes ntab).trans nodes, sameTries.trans tries, UnitRec.outcome, ?_⟩, v, read,
      fun _ => ⟨state, fdir, agenda, hcp, fun up room => ?_⟩, fun k => absurd k twelfth⟩
    · rw [sameUnits, units]
      exact (List.modify_id _ _).symm
    · rw [placed (tdl ▸ up) (entries ▸ room), tdl]
      rfl

/-- What the units are once a node has been counted in and its unit perhaps matched (R37, R44). -/
theorem State.HasNode.begins {s t : State} {n : NodeEntry} {p : ProbeReply} (k : s.HasNode n (s.unitsWith p) t)
    (h : p.head = true ∨ s.bue.units = []) : t.bue.units.take s.bue.units.length = s.bue.units
      ∧ ∃ u, t.bue.units[s.bue.units.length]? = some u ∧ u.first = s.ntab.nodes.length + 1 ∧ u.headless = !p.head
        ∧ u.nodeCount = 1 ∧ u.digest = 0xFFFF := by
  obtain ⟨f, units⟩ := k.units
  have counted : s.unitsWith p = s.bue.units ++ [(newUnit (s.ntab.nodes.length + 1) p.head).oneMore] := by
    unfold State.unitsWith
    rw [unitsFor_begins h, List.length_append]
    exact modify_concat ..
  rw [counted, List.length_append] at units
  have units := units.trans (modify_concat ..)
  rw [units]
  exact ⟨List.take_left, _, List.getElem?_concat_length, rfl, rfl, rfl, rfl⟩

theorem State.HasNode.goes_on {s t : State} {n : NodeEntry} {p : ProbeReply} (k : s.HasNode n (s.unitsWith p) t)
    (inner : p.head = false) {u : UnitRec} (hu : s.bue.units.getLast? = some u) : ∃ v, t.bue.units.getLast? = some v
      ∧ t.bue.units.length = s.bue.units.length ∧ v.first = u.first ∧ v.nodeCount = u.nodeCount + 1 := by
  obtain ⟨f, units⟩ := k.units
  obtain ⟨l, eq⟩ := List.getLast?_eq_some_iff.mp hu
  have other : ¬ (p.head = true ∨ s.bue.units = []) := by
    rw [inner, eq]
    simp
  have counted : s.unitsWith p = l ++ [u.oneMore] := by
    unfold State.unitsWith
    rw [unitsFor_goes_on other, eq, List.length_append]
    exact modify_concat ..
  rw [counted, List.length_append] at units
  have units := units.trans (modify_concat ..)
  rw [units, eq]
  exact ⟨_, List.getLast?_concat, by simp, rfl, rfl⟩

/-- The node belongs to the highest unit, or to the one that it begins (R37). -/
theorem nodeFor_unit (s : State) (a : Addr) (p : ProbeReply) (e : Nat) :
    (s.nodeFor a p e).unit = if p.head = true ∨ s.bue.units = [] then s.bue.units.length + 1 else s.bue.units.length := by
  change (s.unitsFor p).length = _
  split
  · next h => rw [unitsFor_begins h, List.length_append]; rfl
  · next h => rw [unitsFor_goes_on h]

theorem assignOutcome_ok {s : State} {a : Addr} {p : ProbeReply} (hp : s.bue.lastProbe = some p)
    (new : ∀ n ∈ s.ntab.nodes, n.address ≠ a) (few : s.ntab.nodes.length < 12) (pl : List Byte) (e : Nat) :
    s.assignOutcome a (.replied .ok pl e) = s.assigned a p e := by
  have room : s.addressOpen a = true := by
    unfold State.addressOpen
    rw [decide_eq_true (show s.ntab.nodes.length < Config.nodeLimit from few)]
    simpa using new
  unfold State.assignOutcome
  rw [hp]
  exact if_pos room

/-! ### An Assign that fails (R37) -/

theorem assignOutcome_failed {s : State} {a : Addr} {o : ReqOutcome}
    (h : o = .noReply ∨ o = .checkError ∨ o = .collision ∨ ∃ st pl e, st ≠ .ok ∧ o = .replied st pl e) :
    s.assignOutcome a o = s.assignFailed := by
  unfold State.assignOutcome
  rcases h with rfl | rfl | rfl | ⟨st, pl, e, bad, rfl⟩
  · rfl
  · rfl
  · rfl
  · cases st with
    | ok => exact absurd rfl bad
    | _ => rfl

theorem assignFailed_clauses (s : State) : s.assignFailed.ntab = s.ntab ∧ s.assignFailed.bue.tries = s.bue.tries + 1
    ∧ (s.bue.tries < 2 → s.ntab.nodes.length < 12 → s.assignFailed.bue.state = .probe)
    ∧ (2 ≤ s.bue.tries → s.assignFailed.bue.state = .halted ∧ s.assignFailed.bue.halt = .assignFailed
      ∧ s.assignFailed.hcp.flags.getLsbD 4 = true) := by
  let u := s.setBue { s.bue with tries := s.bue.tries + 1, lastProbe := none }
  have eq : s.assignFailed = if s.bue.tries + 1 < 3 then u.enterProbe else u.haltWith .assignFailed := rfl
  rw [eq]
  by_cases again : s.bue.tries < 2
  · rw [if_pos (by omega)]
    obtain ⟨ntab, -, tries, -⟩ := enterProbe_kept u
    exact ⟨ntab, tries, fun _ few => enterProbe_state (s := u) few, fun k => absurd again (by omega)⟩
  · rw [if_neg (by omega)]
    exact ⟨rfl, rfl, fun k => absurd k again, fun _ => ⟨rfl, rfl, raise_bit _ .chainFault⟩⟩

end Sys2Proof.Machine

namespace Sys2Proof.Machine

/-! ### START BRING-UP (R32) -/

/-- The gate is to be opened again: the node that refused it still stands (R32). -/
def State.gateAgain (s : State) : Prop := s.bue.halt = .gateRefused ∧ s.bue.haltPosition ≤ s.ntab.nodes.length

/-- With no recatalogue's Describe outstanding the engine departs at once (R83). -/
theorem departOrDefer_at_once {s : State} (idle : s.recatOutstanding = false) (d : Departure) :
    s.departOrDefer d = s.depart d :=
  if_neg (by rw [idle]; decide)

/-- The walk goes on at PROBE, with no tries counted. -/
theorem restartWalk_probes {s : State} (idle : s.recatOutstanding = false) (h : ¬ s.gateAgain) :
    ∃ u : State, s.restartWalk = u.enterProbe ∧ u.ntab = s.ntab ∧ u.tdl = s.tdl ∧ u.ktl = s.ktl
      ∧ u.bue.units = s.bue.units ∧ u.bue.halt = .none ∧ u.bue.tries = 0 ∧ u.fdir.recat = none := by
  let v := s.setBue { s.bue with halt := .none, tries := 0 }
  have eq : s.restartWalk = v.depart .toProbe := by
    have again : (s.bue.halt == .gateRefused && decide (s.bue.haltPosition ≤ s.ntab.nodes.length)) = false := by
      rw [← Bool.not_eq_true]
      simpa [State.gateAgain] using h
    unfold State.restartWalk
    rw [again]
    exact departOrDefer_at_once (s := v) idle _
  obtain ⟨bue, ntab, recat, ktl, -⟩ := endRecat_same v
  rw [eq]
  refine ⟨_, rfl, ntab, endRecat_tdl v, ktl, ?_, ?_, ?_, recat⟩
  all_goals rw [setBue_bue, bue]; rfl

/-- The gate that was refused is to be opened again. -/
theorem restartWalk_extends {s : State} (quiet : s.engineQuiet) (idle : s.recatOutstanding = false) (h : s.gateAgain) :
    s.restartWalk.engineQuiet ∧ s.restartWalk.bue.state = .extend ∧ s.restartWalk.bue.halt = .none
    ∧ s.restartWalk.fdir.recat = none := by
  let v := s.setBue { s.bue with halt := .none }
  obtain ⟨bue, ntab, recat, -⟩ := endRecat_same v
  let w := v.endRecat.setBue { v.endRecat.bue with deferred := .none, request := .none }
  have moved : w.bue = { s.bue with halt := .none, deferred := .none, request := .none } := by
    change { v.endRecat.bue with deferred := .none, request := .none } = _
    rw [bue]
    rfl
  have eq : s.restartWalk = w.enterExtend := by
    have again : (s.bue.halt == .gateRefused && decide (s.bue.haltPosition ≤ s.ntab.nodes.length)) = true := by
      simpa [State.gateAgain] using h
    unfold State.restartWalk
    rw [again]
    refine (departOrDefer_at_once (s := v) idle _).trans (if_pos ?_)
    change w.bue.haltPosition ≤ v.endRecat.ntab.nodes.length
    rw [moved, ntab]
    exact h.2
  obtain ⟨⟨q, placed⟩, -, fdir⟩ := placeExtend_bue (w.setBue { w.bue with state := .extend, errand := .none }) true
  rw [eq]
  unfold State.enterExtend
  refine ⟨⟨?_, ?_⟩, ?_, ?_, (congrArg Fdir.recat fdir).trans recat⟩
  all_goals rw [placed, setBue_bue, moved]
  exact quiet.1

/-- A command taken with OK leaves an engine at rest as its effect has made it. -/
theorem taken_quiet {u : State} (quiet : u.engineQuiet) :
    u.taken.bue = u.bue ∧ u.taken.fdir.recat = u.fdir.recat ∧ u.taken.hcp.response = [0] := by
  obtain ⟨bue, -, -, -, recat⟩ := finish_quiet u true quiet
  unfold State.taken State.answer
  generalize u.finish true = t at bue recat
  exact ⟨bue, recat, rfl⟩

theorem startBringUp_refused {s : State} (awake : s.portSilent = false) (walks : s.bue.state ≠ .waitStart)
    (runs : s.bue.state ≠ .halted) : exec .startBringUp s = .next (s.answer 4) := by
  have eq : exec .startBringUp s = runCommand s (some .badState) s := by
    change execStartBringUp s = _
    unfold execStartBringUp
    split
    · next k => exact absurd k walks
    · next k => exact absurd k runs
    · rfl
  rw [eq, runCommand_answer awake]
  rfl

theorem startBringUp_begins {s : State} (awake : s.portSilent = false) (h : s.bue.state = .waitStart) :
    exec .startBringUp s = .next s.enterProbe.taken := by
  change execStartBringUp s = _
  unfold execStartBringUp
  rw [h]
  exact runCommand_taken awake _

theorem startBringUp_restarts {s : State} (awake : s.portSilent = false) (h : s.bue.state = .halted)
    (quiet : s.engineQuiet) : exec .startBringUp s = .next s.restartWalk.taken := by
  change execStartBringUp s = _
  unfold execStartBringUp
  rw [h, quiet.2]
  exact runCommand_taken awake _

theorem startBringUp_from_halted {s : State} (awake : s.portSilent = false) (h : s.bue.state = .halted)
    (quiet : s.engineQuiet) (idle : s.recatOutstanding = false) : ∃ t : State,
      exec .startBringUp s = .next t ∧ t.hcp.response = [0] ∧ t.bue.halt = .none ∧ t.fdir.recat = none
      ∧ (s.bue.halt ≠ .gateRefused ∨ s.ntab.nodes.length < s.bue.haltPosition → ∃ u : State,
          t = u.enterProbe.taken ∧ u.ntab = s.ntab ∧ u.tdl = s.tdl ∧ u.ktl = s.ktl ∧ u.bue.units = s.bue.units)
      ∧ (s.gateAgain → t.bue.state = .extend)
      ∧ (¬ s.gateAgain → s.ntab.nodes.length < 12 → t.bue.state = .probe ∧ t.bue.tries = 0) := by
  refine ⟨_, startBringUp_restarts awake h quiet, ?_⟩
  by_cases again : s.gateAgain
  · obtain ⟨rest, state, halt, recat⟩ := restartWalk_extends quiet idle again
    obtain ⟨bue, same, response⟩ := taken_quiet rest
    rw [bue, same]
    refine ⟨response, halt, recat, fun k => ?_, fun _ => state, fun k => absurd again k⟩
    exact k.elim (absurd again.1) fun k => absurd again.2 (Nat.not_le.mpr k)
  · obtain ⟨u, eq, ntab, tdl, ktl, units, halt, tries, recat⟩ := restartWalk_probes idle again
    obtain ⟨-, recat', tries', halt', -⟩ := enterProbe_kept u
    obtain ⟨bue, same, response⟩ := taken_quiet (enterProbe_quiet u).1
    rw [eq]
    refine ⟨response, by rw [bue, halt', halt], by rw [same, recat', recat], fun _ => ⟨u, rfl, ntab, tdl, ktl, units⟩,
      fun k => absurd k again, fun _ few => ?_⟩
    rw [bue, tries', tries]
    exact ⟨enterProbe_state (by rw [ntab]; exact few), rfl⟩

end Sys2Proof.Machine

namespace Sys2Proof.Machine

/-! ### The clauses of O36, put together -/

/-- A request of the window limit's Release that is SENT, or is not (R38). -/
theorem bueOutcome_release {s : State} (h : s.bue.dropping = false) (a : Addr) (o : ReqOutcome) :
    s.bueOutcome (.release a true) o = if o = .sent then s.bueRequestGone.windowReleased else s.bueRequestGone := by
  rw [bueOutcome_eq s _ o h]
  simp only [beq_iff_eq]

/-- Every outcome of a request of the engine's, by whether a cut has it drop (R31, R48). -/
theorem bueOutcome_clauses (s : State) (o : ReqOutcome) :
    (s.bue.dropping = false → s.bueOutcome .probe o = s.bueRequestGone.probeOutcome o
      ∧ (∀ a i, s.bueOutcome (.assign a i) o = s.bueRequestGone.assignOutcome a o)
      ∧ (∀ a i, s.bueOutcome (.describe a i false) o = s.bueRequestGone.describeOutcome i o)
      ∧ (∀ a b, s.bueOutcome (.extend a b) o = s.bueRequestGone.extendOutcome a b o)
      ∧ ∀ a, s.bueOutcome (.release a true) o = if o = .sent then s.bueRequestGone.windowReleased else s.bueRequestGone)
    ∧ (s.bue.dropping = true → (∀ r, (∀ a i, r ≠ .assign a i) → s.bueOutcome r o = s.bueRequestGone)
      ∧ ∀ a i st pl n, o = .replied st pl n →
        s.bueOutcome (.assign a i) o = if st = .ok then s.bueRequestGone.holdAddress a else s.bueRequestGone) := by
  refine ⟨fun h => ⟨bueOutcome_eq s _ o h, fun a i => bueOutcome_eq s _ o h, fun a i => bueOutcome_eq s _ o h,
    fun a b => bueOutcome_eq s _ o h, fun a => bueOutcome_release h a o⟩, fun h => ⟨fun r hr => ?_, ?_⟩⟩
  · rw [bueOutcome_drops s r o h, dropped_other _ r o hr]
  · rintro a i st pl n rfl
    rw [bueOutcome_drops s _ _ h, dropped_assign]

theorem windowReleased_clauses (s : State) :
    (s.ntab.nodes = [] → s.chainEnded s.windowReleased .windowLimit ∧ s.windowReleased.hcp.flags.getLsbD 4 = true)
    ∧ ∀ n, s.ntab.nodes.getLast? = some n → s.windowReleased.bue.errand = .closeForWindow
      ∧ s.windowReleased.bue.state = s.bue.state ∧ s.windowReleased.ntab = s.ntab
      ∧ (s.tdl.line ≠ .down → s.routineEntries < 24 → s.windowReleased.bue.request = .queued
        ∧ s.windowReleased.tdl = { s.tdl with routine := s.tdl.routine ++ [.extend n.address false] })
      ∧ (s.tdl.line ≠ .down → 24 ≤ s.routineEntries → s.windowReleased.bue.request = .unplaced (.extend n.address false)
        ∧ s.windowReleased.tdl = s.tdl) := by
  refine ⟨windowReleased_none, fun n hn => ?_⟩
  obtain ⟨⟨q, bue⟩, taken, full, -, ntab⟩ := windowReleased_closes hn
  exact ⟨by rw [bue]; rfl, by rw [bue]; rfl, ntab fun _ _ => by simp, taken, full⟩

/-- An Assign REPLIED OK within the echo limit, clause by clause (R36, R37, R42). -/
theorem assigned_within {s : State} {a : Addr} {p : ProbeReply} {e : Nat} (within : e ≤ 100)
    (new : ∀ n ∈ s.ntab.nodes, n.address ≠ a) (few : s.ntab.nodes.length < 12) :
    ∃ n, s.HasNode n (s.unitsWith p) (s.assigned a p e)
      ∧ (∃ st d, n = { s.nodeFor a p e with state := st, endDigest := d })
      ∧ (p.count = 0 → n.state = .live ∧ ∃ v : State, s.catalogueRead v (s.ntab.nodes.length + 1)
        ∧ (s.ntab.nodes.length < 11 → (s.assigned a p e).bue.state = .extend ∧ (s.assigned a p e).fdir = v.fdir
          ∧ (s.assigned a p e).agenda = v.agenda ∧ (s.assigned a p e).hcp = v.hcp
          ∧ (s.tdl.line ≠ .down ∧ s.routineEntries < 24 →
            (s.assigned a p e).tdl.routine = s.tdl.routine ++ [.extend a true]))
        ∧ (s.ntab.nodes.length = 11 → v.chainEnded (s.assigned a p e) .nodeLimit ∧ (s.assigned a p e).tdl = s.tdl))
      ∧ (0 < p.count → (s.assigned a p e).bue.state = .describe ∧ (s.assigned a p e).bue.nextIndex = 0
        ∧ (s.tdl.line ≠ .down ∧ s.routineEntries < 24 →
          (s.assigned a p e).tdl.routine = s.tdl.routine ++ [.describe a 0 false] ∧ n.state = .describing)) := by
  rw [assigned_eq, if_neg (Nat.not_lt.mpr within)]
  by_cases functions : p.count = 0
  · obtain ⟨d, node, v, read, goes, ends⟩ := nodeMade_catalogued (a := a) e functions few
    refine ⟨_, node, ⟨.live, some d, rfl⟩, fun _ => ⟨rfl, v, read, fun less => ?_, ends⟩, fun k => absurd functions (by omega)⟩
    obtain ⟨state, fdir, agenda, hcp, placed⟩ := goes less
    exact ⟨state, fdir, agenda, hcp, fun room => placed room.1 room.2⟩
  · obtain ⟨st, node, state, index, placed⟩ := nodeMade_describes e (Nat.pos_of_ne_zero functions) new
    exact ⟨_, node, ⟨st, none, rfl⟩, fun k => absurd k functions, fun _ => ⟨state, index, fun room => placed room.1 room.2⟩⟩

/-- Settles O36: each clause is the lemma above on the function of the engine's that it speaks of, with the end of the chain
(`endChain_ends`), the placing of a request (`placeBue_places`) and the reading of a catalogue (`catalogueIn_reads`) under
them. -/
theorem startBringUpByEngineState : Obligations.StartBringUpByEngineState := by
  unfold Obligations.StartBringUpByEngineState
  refine ⟨freeAddress_eq_some, fun s u => ⟨fun n => unitIdentity_first, nvBusy_iff s⟩, parseProbe_identityBytes,
    bueOutcome_clauses, windowReleased_clauses,
    fun s => ⟨bueOccasion_other, fun w hw => ⟨bueOccasion_full hw, bueOccasion_room hw⟩⟩,
    fun s => ⟨probeOutcome_frontier, fun walks => ?_⟩, enterProbe_clauses, ?probe, ?assign, ?fail, ?command⟩
  · rw [probeOutcome_silent walks]
    exact endChain_ends s .ended
  case probe =>
    refine fun s pl e => ⟨haltWith_halted s .collision, haltWith_halted s .collision, fun st bad => ?_, fun broken => ?_,
      fun sane => ⟨fun q n hold kept hn hi lowest => probeOutcome_known sane hold kept hn hi lowest, fun none new => ?_⟩⟩
    · rw [probeOutcome_status s bad]
      exact haltWith_halted s .badProbe
    · rw [probeOutcome_broken s broken]
      exact haltWith_halted s .badProbe
    · rw [probeOutcome_found s sane, endRecat_none none]
      exact probeFound_clauses new
  case assign =>
    intro s a p pl e hp new few
    rw [assignOutcome_ok hp new few]
    refine ⟨fun within => ?_, fun late => ?_⟩
    · obtain ⟨n, node, ⟨st, d, rfl⟩, empty, functions⟩ := assigned_within within new few
      have stands := congrArg (fun l : List NodeEntry => l[s.ntab.nodes.length]?) node.nodes
      have stands := stands.trans List.getElem?_concat_length
      refine ⟨by rw [node.nodes]; exact List.take_left, node.tries, ⟨_, stands, rfl, rfl, rfl, rfl, rfl, rfl, rfl, rfl, rfl,
        nodeFor_unit s a p e, empty, functions⟩, node.begins, fun u inner hu => node.goes_on inner hu⟩
    · rw [assigned_eq, if_pos late]
      obtain ⟨ntab, units, errand, placed⟩ := nodeMade_windowLimit s a p e
      exact ⟨ntab, units, errand, fun room => placed room.1 room.2⟩
  case fail =>
    intro s a o failed
    rw [assignOutcome_failed failed]
    exact assignFailed_clauses s
  case command =>
    refine fun s awake => ⟨startBringUp_refused awake, fun waits => ?_, startBringUp_from_halted awake⟩
    obtain ⟨bue, -, response⟩ := taken_quiet (enterProbe_quiet s).1
    have begins := startBringUp_begins awake waits
    exact ⟨begins, fun few => ⟨_, begins, by rw [bue]; exact enterProbe_state few, response⟩⟩

end Sys2Proof.Machine

namespace Sys2Proof.Machine

/-! ### Pairs that name records, and the slots they name (R68, R69, R77, R84, R88) -/

/-- The handle a byte names. -/
theorem handleOf_eq_some {b : Byte} {h : Handle} : handleOf b = some h ↔ h.val + 1 = b.toNat := by
  unfold handleOf
  split
  · simp only [Option.some.injEq, Fin.ext_iff]
    omega
  · simp only [reduceCtorEq, false_iff]
    omega

theorem named_iff {s : State} {b g : Byte} {h : Handle} {r : Record} :
    s.named b g = some (h, r) ↔ h.val + 1 = b.toNat ∧ (s.slot h).gen = g ∧ s.record h = some r := by
  constructor
  · intro q
    obtain ⟨handle, gen, record⟩ := named_eq q
    exact ⟨handleOf_eq_some.mp handle, gen, record⟩
  · rintro ⟨handle, gen, record⟩
    unfold State.named
    simp [handleOf_eq_some.mpr handle, gen, record]

/-- A pair names nothing when no slot that is not FREE has its handle and generation (R69). -/
theorem named_none_iff {s : State} {b g : Byte} :
    s.named b g = none ↔ ¬ ∃ h : Handle, h.val + 1 = b.toNat ∧ (s.record h).isSome = true ∧ (s.slot h).gen = g := by
  rw [← not_iff_not, not_not, ← ne_eq, Option.ne_none_iff_exists']
  constructor
  · rintro ⟨⟨h, r⟩, q⟩
    obtain ⟨handle, gen, record⟩ := named_iff.mp q
    exact ⟨h, handle, by rw [record]; rfl, gen⟩
  · rintro ⟨h, handle, record, gen⟩
    obtain ⟨r, record⟩ := Option.isSome_iff_exists.mp record
    exact ⟨(h, r), named_iff.mpr ⟨handle, gen, record⟩⟩

theorem runNamed_refuses {s : State} {b g : Byte} (awake : s.portSilent = false) (h : s.named b g = none)
    (check : Handle → Record → Option HostResult) (effect : Handle → Record → State) :
    runNamed s b g check effect = .next (s.answer 3) := by
  rw [runNamed_none h, reply_awake awake, responseBytes_nil]
  rfl

/-- Settles O25: each of the seven commands takes its pair first. -/
theorem pairsThatNameNothingAreRefused : Obligations.PairsThatNameNothingAreRefused := by
  refine fun h g s => ⟨named_none_iff, fun awake none c hc => ?_⟩
  rcases hc with ⟨x, rfl⟩ | rfl | ⟨p, v, rfl⟩ | ⟨w, rfl⟩ | rfl | rfl | rfl
  all_goals exact runNamed_refuses awake none _ _

/-! ### FORGET (R88) -/

theorem runNamed_taken {s : State} {b g : Byte} {h : Handle} {r : Record} (awake : s.portSilent = false)
    (named : s.named b g = some (h, r)) {check : Handle → Record → Option HostResult} {effect : Handle → Record → State}
    (ok : check h r = none) : runNamed s b g check effect = .next (effect h r).taken := by
  rw [runNamed_some named, ok, runCommand_taken awake]

theorem runNamed_answers {s : State} {b g : Byte} {h : Handle} {r : Record} (awake : s.portSilent = false)
    (named : s.named b g = some (h, r)) {check : Handle → Record → Option HostResult} {effect : Handle → Record → State}
    {x : HostResult} (refused : check h r = some x) : runNamed s b g check effect = .next (s.answer (byte x.code)) := by
  rw [runNamed_some named, refused, runCommand_answer awake]

@[simp] theorem answer_fdir (s : State) (code : Byte) : (s.answer code).fdir = s.fdir := rfl

theorem taken_fdir (u : State) : u.taken.fdir = (u.finish true).fdir := answer_fdir _ 0

theorem slot_of_fdir {s t : State} (same : t.fdir = s.fdir) (h : Handle) : t.slot h = s.slot h := by
  unfold State.slot
  rw [same]

/-- What a host command taken leaves of the directory beside the records of its own effect. -/
theorem taken_slots (u : State) : (∀ k, u.record k = none → u.taken.record k = none)
    ∧ (∀ k, (u.taken.slot k).gen = (u.slot k).gen) ∧ u.taken.fdir.attention = u.fdir.attention := by
  obtain ⟨t, moves, pins, -⟩ := finish_moves u true
  have slot : ∀ k, u.taken.slot k = t.slot k := fun k => by
    rw [slot_of_fdir (taken_fdir u), pins]
    rfl
  refine ⟨fun k free => ?_, fun k => ?_, ?_⟩
  · have free := moves.free nofun k free
    rw [State.record, slot k]
    exact free
  · rw [slot k]
    exact moves.gen nofun k
  · rw [taken_fdir]
    exact (finish_sources u true).2.2.2.2 rfl

theorem forgetCheck_live (s : State) (h : Handle) {r : Record} (live : r.state ≠ .retired) :
    s.forgetCheck h r = some .badState := by
  simp [State.forgetCheck, Record.isRetired, live]

theorem forgetCheck_outstanding {s : State} {h : Handle} {r : Record} (retired : r.state = .retired)
    (drive : (s.slot h).retireDrive ≠ .none) : s.forgetCheck h r = some .busy := by
  simp [State.forgetCheck, Record.isRetired, retired, drive]

theorem forgetCheck_ok {s : State} {h : Handle} {r : Record} (retired : r.state = .retired)
    (drive : (s.slot h).retireDrive = .none) : s.forgetCheck h r = none := by
  simp [State.forgetCheck, Record.isRetired, retired, drive]

theorem forget_slot (s : State) (h : Handle) :
    (s.forget h).record h = none ∧ ((s.forget h).slot h).gen = (s.slot h).gen := by
  have slot : (s.forget h).slot h = { s.slot h with record := none } :=
    slot_modifySlot s h fun x => { x with record := none }
  exact ⟨by rw [State.record, slot], by rw [slot]⟩

/-- Settles O33: the checks of FORGET in their order, and what the rest of the event leaves of the slot. -/
theorem forgetFreesSlot : Obligations.ForgetFreesSlot := by
  refine fun a g s h r awake named => ⟨fun live => ?_, fun retired drive => ?_, fun retired drive => ?_⟩
  · exact runNamed_answers awake named (forgetCheck_live s h live)
  · exact runNamed_answers awake named (forgetCheck_outstanding retired drive)
  · obtain ⟨free, gen, attention⟩ := taken_slots (s.forget h)
    obtain ⟨record, same⟩ := forget_slot s h
    exact ⟨_, runNamed_taken awake named (forgetCheck_ok retired drive), free h record, (gen h).trans same, attention,
      taken_fixed _⟩

/-! ### What a command leaves of a slot (R68, R77, R84) -/

/-- A move leaves a RETIRED record as it is. -/
theorem Move.retiredRecord {v : Reach} {s t : State} (m : Move v s t) {k : Handle} {r : Record}
    (hr : s.record k = some r) (hs : r.state = .retired) : t.record k = some r :=
  (Moves.nil.snoc m).retiredRecord hr hs

/-- Only FORGET frees a slot and only a reply gives a slot a new generation, device resets apart. -/
structure SlotKept (c : Instr) (s t : State) (h : Handle) : Prop where
  held : (∀ a b, c ≠ .forget a b) → (s.record h).isSome = true → (t.record h).isSome = true
  gen : (∀ f, c ≠ .replyComplete f) → (t.slot h).gen = (s.slot h).gen
  retired : (∀ a b, c ≠ .forget a b) → ∀ r, s.record h = some r → r.state = .retired → t.record h = some r

theorem SlotKept.of_fdir {c : Instr} {s t : State} (same : t.fdir = s.fdir) (h : Handle) : SlotKept c s t h := by
  have slot := slot_of_fdir same h
  have record := congrArg Slot.record slot
  exact ⟨fun _ held => (congrArg Option.isSome record).trans held, fun _ => congrArg Slot.gen slot,
    fun _ _ hr _ => Eq.trans record hr⟩

theorem SlotKept.trans {c : Instr} {s t u : State} {h : Handle} (p : SlotKept c s t h) (q : SlotKept c t u h) :
    SlotKept c s u h :=
  ⟨fun hc held => q.held hc (p.held hc held), fun hc => (q.gen hc).trans (p.gen hc),
    fun hc r hr hs => q.retired hc r (p.retired hc r hr hs) hs⟩

theorem Change.slotKept {c : Instr} {s t : State} (m : Change c s t) (h : Handle) : SlotKept c s t h := by
  cases m with
  | @move _ b hb m =>
      refine ⟨fun _ => m.kept h, fun hc => ?_, fun _ r hr hs => m.retiredRecord hr hs⟩
      cases b with
      | false => exact (Moves.nil.snoc m).gen nofun h
      | true => exact absurd (hb rfl).choose_spec (hc _)
  | @free k x forget hg _ =>
      obtain ⟨a, b, rfl⟩ := forget
      refine ⟨fun hc => absurd rfl (hc a b), fun _ => ?_, fun hc => absurd rfl (hc a b)⟩
      by_cases e : k = h
      · subst e
        rw [slot_setSlot, hg]
      · rw [slot_setSlot_ne s x e]
  | _ => exact .of_fdir (by rfl) h

theorem Changes.slotKept {c : Instr} {s t : State} (m : Changes c s t) (h : Handle) : SlotKept c s t h := by
  induction m with
  | nil => exact .of_fdir rfl h
  | snoc _ m ih => exact ih.trans (m.slotKept h)

/-- The RESET input leaves the directory as it is until a device reset begins. -/
theorem resetInput_fdir {c : Instr} (hc : c.ofReset = true) (hr : c.resets = false) {s t : State}
    (q : exec c s = .next t) : t.fdir = s.fdir := by
  cases c with
  | resetFall =>
      have q : execResetFall s = .next t := q
      unfold execResetFall at q
      split at q <;> cases q <;> rfl
  | resetRise =>
      have q : execResetRise s = .next t := q
      unfold execResetRise at q
      split at q <;> cases q <;> rfl
  | deviceResetEnd =>
      have q : execDeviceResetEnd s = .next t := q
      unfold execDeviceResetEnd at q
      split at q <;> cases q <;> rfl
  | deviceReset | supplyReset => cases hr
  | _ => cases hc

theorem exec_slotKept {c : Instr} {s t : State} (q : exec c s = .next t) (hr : c.resets = false) (h : Handle) :
    SlotKept c s t h := by
  cases hc : c.ofReset with
  | false => exact (exec_changes hc q).slotKept h
  | true => exact .of_fdir (resetInput_fdir hc hr q) h

/-- Settles O13: every change that a command makes keeps the slots so. -/
theorem recordsLeaveByForget : Obligations.RecordsLeaveByForget := by
  intro c s t q hr h
  obtain ⟨held, gen, retired⟩ := exec_slotKept q hr h
  exact ⟨held, gen, retired⟩

end Sys2Proof.Machine

namespace Sys2Proof.Machine

/-! ### TAKE CHANGES (R89, R90, R206) -/

/-- Data that fills its response stands behind the result code as it is. -/
theorem responseBytes_full (r : HostResult) {data : List Byte} {len : Nat} (full : data.length = len) :
    responseBytes r data len = byte r.code :: data := by
  rw [responseBytes, List.take_append_of_le_length full.ge, List.take_of_length_le full.le]

theorem pairs_length (s : State) (l : List Handle) :
    (l.flatMap fun h => [h.code, (s.slot h).gen]).length = 2 * l.length := by
  simp [List.length_flatMap, Nat.mul_comm]

/-- Places of two bytes for pairs, those that no pair fills left at zero (R214). -/
theorem take_pairs (s : State) {l : List Handle} {n : Nat} (room : l.length ≤ n) :
    ((l.flatMap s.pairBytes) ++ List.replicate (2 * n) 0).take (2 * n)
      = (l.flatMap fun h => [h.code, (s.slot h).gen]) ++ List.replicate (2 * n - 2 * l.length) (0 : Byte) := by
  have length := pairs_length s l
  change ((l.flatMap fun h => [h.code, (s.slot h).gen]) ++ _).take _ = _
  rw [List.take_append, List.take_of_length_le (by omega), List.take_replicate, length, Nat.min_eq_left (by omega)]

theorem changesData_eq (s : State) : s.changesData = byte (min 8 s.fdir.attention.length)
    :: (((s.fdir.attention.take 8).flatMap fun h => [h.code, (s.slot h).gen])
      ++ List.replicate (16 - 2 * min 8 s.fdir.attention.length) 0)
    ++ [byte (s.fdir.attention.length - 8)] := by
  have length : (s.fdir.attention.take 8).length = min 8 s.fdir.attention.length := List.length_take
  have pairs := take_pairs s (n := 8) (length.trans_le (Nat.min_le_left ..))
  rw [length] at pairs
  unfold State.changesData
  dsimp only
  rw [length]
  exact congrArg (fun l => byte _ :: l ++ [byte _]) pairs

/-- The pins that follow stay as they are but for ATTN, when the Attention Set changes (R148, R206). -/
theorem drivePins_setAttention {s : State} (follow : s.pinsFollow = true) (l : List Handle) :
    (s.setAttention l).drivePins = { s with
      fdir := { s.fdir with attention := l }
      hcp := { s.hcp with attnLow := (s.setAttention l).attnWanted } } := by
  have turn : s.frt.turnFail = (s.turnFailWanted && !s.hcp.inReset) := by
    simp only [State.pinsFollow, Bool.and_eq_true, beq_iff_eq] at follow
    exact follow.2
  have same : (s.setAttention l).turnFailWanted = s.turnFailWanted := rfl
  have frt : ({ s.frt with turnFail := s.turnFailWanted && !s.hcp.inReset } : Frt) = s.frt := by rw [← turn]
  unfold State.drivePins
  rw [same]
  exact congrArg (fun x => ({ s.setAttention l with
    hcp := { s.hcp with attnLow := (s.setAttention l).attnWanted }, frt := x } : State)) frt

theorem attnWanted_awake {s : State} (awake : s.portSilent = false) : s.attnWanted =
    decide (s.hcp.flags &&& s.hcp.mask &&& 0x0FFF ≠ 0
      ∨ 0 < s.fdir.attention.length ∧ s.hcp.mask.getLsbD 12 = true) := by
  simp only [State.portSilent, Bool.or_eq_false_iff, Option.isSome_eq_false_iff] at awake
  obtain ⟨low, reset⟩ := awake
  rw [Bool.eq_iff_iff]
  simp only [State.attnWanted, low, reset, Bool.and_true, Bool.not_false, Bool.or_eq_true, Bool.and_eq_true, bne_iff_ne,
    Bool.not_eq_true', List.isEmpty_eq_false_iff, decide_eq_true_eq, List.length_pos_iff]

theorem finish_host (s : State) : s.finish true = ({ s.settleEvent with agenda := Agenda.none } : State).drivePins := by
  simp only [State.finish, if_true]

theorem finish_event (s : State) :
    s.finish false = ({ s.settleEvent.flushJoins with agenda := Agenda.none } : State).drivePins := by
  simp only [State.finish, Bool.false_eq_true, if_false]

/-- Settles O23: the ends of both kinds of event, and the response and the pins of the command. -/
theorem takeChangesTakesEight : Obligations.TakeChangesTakesEight := by
  refine ⟨fun s => ⟨rfl, finish_host s, finish_event s⟩, fun s awake follow => ?_⟩
  have taken : exec .takeChanges s
      = reply s (s.setAttention (s.fdir.attention.drop 8)).drivePins .ok s.changesData 18 := rfl
  have length : s.changesData.length = 18 := by
    rw [changesData_eq]
    simp only [List.length_append, List.length_cons, List.length_nil, List.length_replicate, pairs_length,
      List.length_take]
    omega
  have attn := attnWanted_awake (s := s.setAttention (s.fdir.attention.drop 8)) awake
  have more : 0 < (s.fdir.attention.drop 8).length ↔ 8 < s.fdir.attention.length := by
    rw [List.length_drop]
    omega
  rw [taken, reply_awake awake, responseBytes_full .ok length, drivePins_setAttention follow, attn, changesData_eq]
  simp only [State.setAttention, more]
  rfl

end Sys2Proof.Machine

namespace Sys2Proof.Machine

/-! ### LOOKUP (R92, R93) -/

theorem ofCode_class {n : Nat} {x : Class} : Class.ofCode n = some x ↔ n = x.code := by
  unfold Class.ofCode
  split <;> cases x <;> simp [Class.code] <;> omega

theorem ofCode_role {n : Nat} {x : LampRole} : LampRole.ofCode n = some x ↔ n = x.code := by
  unfold LampRole.ofCode
  split <;> cases x <;> simp [LampRole.code] <;> omega

theorem ofCode_side {n : Nat} {x : LampSide} : LampSide.ofCode n = some x ↔ n = x.code := by
  unfold LampSide.ofCode
  split <;> cases x <;> simp [LampSide.code] <;> omega

theorem exists_class_code {n : Nat} : (∃ x, Class.ofCode n = some x) ↔ n ≤ 3 := by
  constructor
  · rintro ⟨x, code⟩
    rw [ofCode_class.mp code]
    cases x <;> decide
  · intro small
    interval_cases n <;> exact ⟨_, rfl⟩

theorem exists_role_code {n : Nat} : (∃ x, LampRole.ofCode n = some x) ↔ n ≤ 9 := by
  constructor
  · rintro ⟨x, code⟩
    rw [ofCode_role.mp code]
    cases x <;> decide
  · intro small
    interval_cases n <;> exact ⟨_, rfl⟩

theorem exists_side_code {n : Nat} : (∃ x, LampSide.ofCode n = some x) ↔ n ≤ 2 := by
  constructor
  · rintro ⟨x, code⟩
    rw [ofCode_side.mp code]
    cases x <;> decide
  · intro small
    interval_cases n <;> exact ⟨_, rfl⟩

theorem unitOfCode_iff {n m : Nat} : unitOfCode n = some m ↔ (1 ≤ n ∧ n ≤ 3) ∧ n = m := by
  unfold unitOfCode
  split <;> simp [*]

theorem criterion_any {α : Type} (decode : Nat → Option α) {b : Byte} (any : b = 0xFF) :
    criterion decode b = some none := if_pos any

theorem criterion_code {α : Type} (decode : Nat → Option α) {b : Byte} (code : b ≠ 0xFF) :
    criterion decode b = (decode b.toNat).map some := if_neg code

theorem criterion_eq_some {α : Type} {decode : Nat → Option α} {b : Byte} {want : Option α} :
    criterion decode b = some want ↔
      if b = 0xFF then want = none else ∃ x, want = some x ∧ decode b.toNat = some x := by
  split
  · next any => rw [criterion_any decode any, Option.some.injEq, eq_comm]
  · next code => simp only [criterion_code decode code, Option.map_eq_some_iff, and_comm, eq_comm]

/-- A criterion byte is FFh, or a code. -/
theorem exists_criterion {α : Type} {decode : Nat → Option α} {b : Byte} :
    (∃ want, criterion decode b = some want) ↔ b = 0xFF ∨ ∃ x, decode b.toNat = some x := by
  by_cases any : b = 0xFF
  · exact ⟨fun _ => .inl any, fun _ => ⟨_, criterion_any decode any⟩⟩
  · simp only [criterion_code decode any, any, false_or, Option.map_eq_some_iff]
    exact ⟨fun ⟨_, x, hx, _⟩ => ⟨x, hx⟩, fun ⟨x, hx⟩ => ⟨_, x, hx, rfl⟩⟩

theorem parseLookup_eq_some {cls role side unit mask start : Byte} {c : Criteria} {h : Handle} :
    parseLookup cls role side unit mask start = some (c, h) ↔
      criterion Class.ofCode cls = some c.cls ∧ criterion LampRole.ofCode role = some c.role
        ∧ criterion LampSide.ofCode side = some c.side ∧ criterion unitOfCode unit = some c.unit
        ∧ handleOf start = some h ∧ mask.toNat < 128 ∧ mask = c.mask := by
  have small : mask.msb = false ↔ mask.toNat < 128 := by
    rw [BitVec.msb_eq_false_iff_two_mul_lt]
    omega
  unfold parseLookup
  constructor
  · intro q
    split at q
    · next hc hr hd hu hh =>
      split at q
      · cases q
      · next hm =>
        cases q
        exact ⟨hc, hr, hd, hu, hh, small.mp (by simpa using hm), rfl⟩
    · cases q
  · rintro ⟨hc, hr, hd, hu, hh, hm, rfl⟩
    simp [hc, hr, hd, hu, hh, small.mpr hm]

theorem parseLookup_eq_none {cls role side unit mask start : Byte} :
    parseLookup cls role side unit mask start = none ↔
      ¬ ((cls = 0xFF ∨ cls.toNat ≤ 3) ∧ (role = 0xFF ∨ role.toNat ≤ 9) ∧ (side = 0xFF ∨ side.toNat ≤ 2)
        ∧ (unit = 0xFF ∨ 1 ≤ unit.toNat ∧ unit.toNat ≤ 3) ∧ mask.toNat < 128
        ∧ 1 ≤ start.toNat ∧ start.toNat ≤ 96) := by
  rw [← exists_class_code, ← exists_role_code, ← exists_side_code, ← exists_criterion, ← exists_criterion,
    ← exists_criterion]
  have units : (unit = 0xFF ∨ 1 ≤ unit.toNat ∧ unit.toNat ≤ 3) ↔ ∃ u, criterion unitOfCode unit = some u := by
    rw [exists_criterion]
    exact or_congr Iff.rfl ⟨fun k => ⟨_, unitOfCode_iff.mpr ⟨k, rfl⟩⟩, fun ⟨_, code⟩ => (unitOfCode_iff.mp code).1⟩
  have starts : (1 ≤ start.toNat ∧ start.toNat ≤ 96) ↔ ∃ h, handleOf start = some h := by
    simp only [handleOf_eq_some]
    exact ⟨fun k => ⟨⟨start.toNat - 1, by omega⟩, Nat.sub_add_cancel k.1⟩, fun ⟨h, k⟩ => by omega⟩
  rw [units, starts, ← not_iff_not, not_not, ← ne_eq, Option.ne_none_iff_exists']
  constructor
  · rintro ⟨⟨c, h⟩, q⟩
    obtain ⟨hc, hr, hd, hu, hh, hm, -⟩ := parseLookup_eq_some.mp q
    exact ⟨⟨_, hc⟩, ⟨_, hr⟩, ⟨_, hd⟩, ⟨_, hu⟩, hm, _, hh⟩
  · rintro ⟨⟨c, hc⟩, ⟨r, hr⟩, ⟨d, hd⟩, ⟨u, hu⟩, hm, h, hh⟩
    exact ⟨⟨⟨c, r, d, u, mask⟩, h⟩, parseLookup_eq_some.mpr ⟨hc, hr, hd, hu, hh, hm, rfl⟩⟩

theorem meets_iff {α : Type} [DecidableEq α] {want given : Option α} :
    meets want given = true ↔ want = none ∨ want = given := by
  cases want with
  | none => simp only [meets, true_or]
  | some x =>
    simp only [meets, beq_iff_eq, reduceCtorEq, false_or]
    exact eq_comm

theorem matches_iff (c : Criteria) (r : Record) : c.matches r = true ↔
    (c.cls = none ∨ c.cls = some r.cls) ∧ (c.role = none ∨ c.role = r.entry.role)
      ∧ (c.side = none ∨ c.side = r.entry.side) ∧ (c.unit = none ∨ c.unit = some r.unit)
      ∧ c.mask.getLsbD (r.state.code - 1) = true := by
  simp only [Criteria.matches, Bool.and_eq_true, meets_iff, and_assoc, RecState.maskBit]

theorem mem_matching {s : State} {c : Criteria} {h k : Handle} :
    k ∈ s.matching c h ↔ h ≤ k ∧ ∃ r, s.record k = some r ∧ c.matches r = true := by
  unfold State.matching
  rw [List.mem_filter]
  cases s.record k <;> simp [mem_allHandles]

theorem matching_rising (s : State) (c : Criteria) (h : Handle) : (s.matching c h).Pairwise (· < ·) :=
  (List.pairwise_lt_finRange 96).filter _

theorem lookupData_eq (s : State) (c : Criteria) (h : Handle) : s.lookupData c h =
    byte (min 16 (s.matching c h).length)
      :: (((s.matching c h).take 16).flatMap fun k => [k.code, (s.slot k).gen])
      ++ List.replicate (32 - 2 * min 16 (s.matching c h).length) 0
      ++ (match (s.matching c h)[16]? with
        | some k => [1, k.code]
        | none => [0, 0]) := by
  have length : ((s.matching c h).take 16).length = min 16 (s.matching c h).length := List.length_take
  have pairs := take_pairs s (n := 16) (length.trans_le (Nat.min_le_left ..))
  rw [length] at pairs
  have next : [byte (bit (s.matching c h)[16]?.isSome), ((s.matching c h)[16]?.map Handle.code).getD 0]
      = (match (s.matching c h)[16]? with
        | some k => [1, k.code]
        | none => [0, 0]) := by
    cases (s.matching c h)[16]? <;> rfl
  unfold State.lookupData
  dsimp only
  rw [length, ← next]
  exact congrArg (fun l => byte _ :: l ++ _) pairs

/-- Settles O24: the parse criterion by criterion, then the matching handles and the data they give. -/
theorem lookupAnswersMatches : Obligations.LookupAnswersMatches := by
  intro cls role side unit mask start s awake
  have taken : exec (.lookup cls role side unit mask start) s = execLookup cls role side unit mask start s := rfl
  rw [taken]
  unfold execLookup
  refine ⟨fun refused => ?_, parseLookup_eq_none, fun c h parsed => ?_⟩
  · rw [refused]
    exact reply_awake awake ..
  · obtain ⟨hc, hr, hd, hu, hh, -, hm⟩ := parseLookup_eq_some.mp parsed
    refine ⟨⟨handleOf_eq_some.mp hh, hm.symm, ?_, ?_, ?_, ?_⟩, fun k => ?_, matching_rising s c h, ?_⟩
    · simp only [criterion_eq_some, ofCode_class] at hc
      exact hc
    · simp only [criterion_eq_some, ofCode_role] at hr
      exact hr
    · simp only [criterion_eq_some, ofCode_side] at hd
      exact hd
    · rw [criterion_eq_some] at hu
      split at hu
      · rw [hu, if_pos ‹_›]
      · obtain ⟨x, hx, code⟩ := hu
        rw [hx, if_neg ‹_›, (unitOfCode_iff.mp code).2]
    · simp only [mem_matching, matches_iff]
    · have length : (s.lookupData c h).length = 35 := by
        rw [lookupData_eq]
        simp only [List.length_append, List.length_cons, List.length_replicate, pairs_length, List.length_take]
        split <;> simp only [List.length_cons, List.length_nil] <;> omega
      rw [parsed]
      dsimp only
      rw [reply_awake awake, responseBytes_full .ok length, lookupData_eq]
      rfl

end Sys2Proof.Machine

namespace Sys2Proof.Machine

/-! ### The streams and their images (R94 to R96, R198, R215) -/

theorem startStream_some {s : State} (awake : s.portSilent = false) (x : Stream) :
    startStream s (some x) = .next (s.setResponse [0] x) := by
  rw [startStream, if_neg (by rw [awake]; decide)]
  rfl

theorem startStream_none {s : State} (awake : s.portSilent = false) : startStream s none = .next (s.answer 5) := by
  rw [startStream, if_neg (by rw [awake]; decide)]
  rfl

theorem fetchRecord_taken {s : State} (awake : s.portSilent = false) {b : Byte} (range : 1 ≤ b.toNat ∧ b.toNat ≤ 96) :
    exec (.fetchRecord b) s = .next (s.setResponse [0] (.records (b.toNat - 1))) := by
  have taken : exec (.fetchRecord b) s = startStream s ((handleOf b).map fun h => .records h.val) := rfl
  rw [taken, handleOf, dif_pos range]
  exact startStream_some awake _

theorem fetchRecord_refused {s : State} (awake : s.portSilent = false) {b : Byte}
    (range : ¬ (1 ≤ b.toNat ∧ b.toNat ≤ 96)) : exec (.fetchRecord b) s = .next (s.answer 5) := by
  have taken : exec (.fetchRecord b) s = startStream s ((handleOf b).map fun h => .records h.val) := rfl
  rw [taken, handleOf, dif_neg range]
  exact startStream_none awake

theorem fetchNode_taken {s : State} (awake : s.portSilent = false) {b : Byte} (range : 1 ≤ b.toNat ∧ b.toNat ≤ 12) :
    exec (.fetchNode b) s = .next (s.setResponse [0] (.nodes b.toNat)) := by
  have taken : exec (.fetchNode b) s
      = startStream s (if 1 ≤ b.toNat ∧ b.toNat ≤ 12 then some (.nodes b.toNat) else none) := rfl
  rw [taken, if_pos range]
  exact startStream_some awake _

theorem fetchNode_refused {s : State} (awake : s.portSilent = false) {b : Byte}
    (range : ¬ (1 ≤ b.toNat ∧ b.toNat ≤ 12)) : exec (.fetchNode b) s = .next (s.answer 5) := by
  have taken : exec (.fetchNode b) s
      = startStream s (if 1 ≤ b.toNat ∧ b.toNat ≤ 12 then some (.nodes b.toNat) else none) := rfl
  rw [taken, if_neg range]
  exact startStream_none awake

theorem streamImage_sends {s : State} (awake : s.portSilent = false) {image : List Byte} {x : Stream}
    (next : s.nextImage = some (image, x)) :
    exec .streamImage s = .next (s.setResponse (s.hcp.response ++ image) x) := by
  have taken : exec .streamImage s = execStreamImage s := rfl
  rw [taken, execStreamImage, if_neg (by rw [awake]; decide), next]

theorem streamImage_ends {s : State} (awake : s.portSilent = false) (next : s.nextImage = none) :
    exec .streamImage s = .next s := by
  have taken : exec .streamImage s = execStreamImage s := rfl
  rw [taken, execStreamImage, if_neg (by rw [awake]; decide), next]

theorem nextImage_record {s : State} {h : Handle} (stream : s.hcp.stream = .records h.val) :
    s.nextImage = some (s.recordImage h, .records (h.val + 1)) := by
  simp only [State.nextImage, stream, h.isLt, dif_pos]

theorem nextImage_node {s : State} {p : Nat} (position : p ≤ 12) (stream : s.hcp.stream = .nodes p) :
    s.nextImage = some (s.nodeImage p, .nodes (p + 1)) := by
  simp only [State.nextImage, stream, position, if_true]

theorem nextImage_none {s : State} (stream : s.hcp.stream = .none ∨ (∃ n, 96 ≤ n ∧ s.hcp.stream = .records n)
    ∨ ∃ p, 12 < p ∧ s.hcp.stream = .nodes p) : s.nextImage = none := by
  rcases stream with none | ⟨n, last, records⟩ | ⟨p, last, nodes⟩
  · simp only [State.nextImage, none]
  · simp only [State.nextImage, records, dif_neg (Nat.not_lt.mpr last)]
  · simp only [State.nextImage, nodes, if_neg (Nat.not_le.mpr last)]

theorem recordImage_free {s : State} {h : Handle} (free : s.record h = none) : s.recordImage h =
    [h.code, (s.slot h).gen, if h ∈ s.fdir.attention then 0x80 else 0] ++ List.replicate 10 0
      ++ [0xFF, 0xFF, 0, 0xFF, 0xFF, 0xFF, 0xFF] ++ List.replicate 13 0 := by
  simp only [State.recordImage, free]
  split <;> rfl

/-- What the record image gives of a reading, and the zeros without one. -/
theorem readingImage (s : State) (r : Record) :
    optByte 0 (r.reading.map fun x => x.threshold.code) :: natBytes2 (r.interval.getD 0)
      ++ halfBytes ((r.reading.map (·.value)).getD 0) ++ natBytes2 ((r.reading.map fun x => ageMs s.now x.age).getD 0)
    = match r.reading with
      | none => 0 :: natBytes2 (r.interval.getD 0) ++ [0, 0, 0, 0]
      | some x => byte x.threshold.code :: natBytes2 (r.interval.getD 0) ++ halfBytes x.value
          ++ natBytes2 (min 65535 (x.age.value s.now / 10)) := by
  have zeros : halfBytes 0 ++ natBytes2 0 = [0, 0, 0, 0] := by decide
  cases r.reading with
  | none =>
    rw [← zeros, ← List.append_assoc]
    rfl
  | some x => rfl

theorem thresholdImage (r : Record) :
    halfBytes (if r.cls == .sensor then r.lowThreshold else 0) ++ halfBytes (if r.cls == .sensor then r.highThreshold else 0)
    = if r.cls = .sensor then halfBytes r.lowThreshold ++ halfBytes r.highThreshold else [0, 0, 0, 0] := by
  by_cases sensor : r.cls = .sensor
  · simp only [sensor, beq_self_eq_true, if_true]
  · simp only [sensor, beq_eq_false_iff_ne.mpr sensor, Bool.false_eq_true, if_false]
    rfl

theorem recordImage_held {s : State} {h : Handle} {r : Record} (held : s.record h = some r) : s.recordImage h =
    [h.code, (s.slot h).gen,
      byte ((if h ∈ s.fdir.attention then 128 else 0) + 16 * (match r.before with
        | none => 0
        | some .ready => 3
        | some .bound => 4
        | some .faulted => 5) + r.state.code),
      (r.address.map Addr.code).getD 0, byte r.position, byte r.unit, byte r.index.val] ++ r.entry.bytes
    ++ [byte ((r.binding.map (·.val)).getD 255), byte ((r.intended.map (·.val)).getD 255), byte r.fault.code,
      byte ((r.wanted.map OutWord.code).getD 255), byte ((r.confirmed.map OutWord.code).getD 255),
      byte ((r.motion.map Motion.code).getD 255), byte ((r.guard.map (·.val)).getD 255),
      byte ((r.reason.map RetireReason.code).getD 0)]
    ++ (match r.reading with
      | none => 0 :: natBytes2 (r.interval.getD 0) ++ [0, 0, 0, 0]
      | some x => byte x.threshold.code :: natBytes2 (r.interval.getD 0) ++ halfBytes x.value
          ++ natBytes2 (min 65535 (x.age.value s.now / 10)))
    ++ (if r.cls = .sensor then halfBytes r.lowThreshold ++ halfBytes r.highThreshold else [0, 0, 0, 0])
    ++ [((r.address.bind fun a => s.ntab.nodes.find? fun n => n.address == a).map (·.summary)).getD 0] := by
  have before : (match r.before with
      | some b => b.state.code
      | none => 0) = (match r.before with
        | none => 0
        | some .ready => 3
        | some .bound => 4
        | some .faulted => 5) := by
    cases r.before with
    | none => rfl
    | some b => cases b <;> rfl
  have address : optByte 0 (r.address.map fun a => a.val + 1) = (r.address.map Addr.code).getD 0 := by
    cases r.address <;> rfl
  have summary : (match r.address with
      | some a => ((s.ntab.nodes.find? fun n => n.address == a).map (·.summary)).getD 0
      | none => 0) = ((r.address.bind fun a => s.ntab.nodes.find? fun n => n.address == a).map (·.summary)).getD 0 := by
    cases r.address <;> rfl
  rw [← readingImage, ← thresholdImage, ← before, ← address, ← summary]
  simp only [State.recordImage, held, optByte, List.append_assoc, List.cons_append, List.nil_append] <;> rfl

/-- Settles O22: a stream begins, sends its next image and ends, and the images byte by byte. -/
theorem streamsSendRisingImages : Obligations.StreamsSendRisingImages := by
  refine fun s awake => ⟨fun b => ⟨fetchRecord_taken awake, fetchRecord_refused awake, fetchNode_taken awake,
    fetchNode_refused awake⟩, fun h stream => streamImage_sends awake (nextImage_record stream),
    fun p position stream => streamImage_sends awake (nextImage_node position stream),
    fun ended => streamImage_ends awake (nextImage_none ended), fun h => recordImage_free, fun h r => recordImage_held,
    fun p none => ?_, fun p n node => ?_⟩
  · simp only [State.nodeImage, none]
  · simp only [State.nodeImage, node]

end Sys2Proof.Machine

namespace Sys2Proof.Machine

/-! ### What a record wants, and what is asked for (R123 to R128) -/

theorem rewant_none {s : State} {h : Handle} {r : Record} (hl : s.live h = some r) (hw : s.wantedNow r = none) :
    s.rewant h = s := by
  simp only [State.rewant, hl, hw]

/-- The set with an entry made, or with the entry that stands changed (R126). -/
def State.entered (s : State) (h : Handle) (r : Record) (w : OutWord) : List Pend :=
  if s.pendHolds h then
    s.drt.pend.map fun p => if p.handle = h then { p with word := w, urgent := r.tie.isSome } else p
  else s.drt.pend ++ [{ handle := h, gen := (s.slot h).gen, word := w, time := s.now, urgent := r.tie.isSome }]

theorem enter_eq (s : State) (h : Handle) (r : Record) (w : OutWord) :
    s.enter h r w = s.callDrain.setPend (s.entered h r w) := by
  unfold State.enter State.entered
  simp only [beq_iff_eq]
  split
  · next holds => rw [if_pos (show s.pendHolds h = true from holds)]; rfl
  · next holds => rw [if_neg (show ¬ s.pendHolds h = true from holds)]; rfl

/-- What the set is once an output has been asked for (R125, R126, R128). -/
def State.asked (s : State) (h : Handle) (r : Record) (w : OutWord) : State :=
  if s.withheld h r then s else s.enterIfDiffers h r w

theorem rewant_some {s : State} {h : Handle} {r : Record} {w : OutWord} (hl : s.live h = some r)
    (hw : s.wantedNow r = some w) :
    s.rewant h = (s.setRecord h { r with wanted := some w }).asked h { r with wanted := some w } w := by
  simp only [State.rewant, hl, hw]
  rfl

theorem enterIfDiffers_placed {s : State} {h : Handle} {r : Record} {w : OutWord} {d : DriveState}
    (drive : r.drive = some d) (placed : d.lastPlaced = some w) : s.enterIfDiffers h r w = s.removePend h := by
  simp only [State.enterIfDiffers, drive, placed, beq_self_eq_true, if_true]

theorem enterIfDiffers_other {s : State} {h : Handle} {r : Record} {w : OutWord} {d : DriveState}
    (drive : r.drive = some d) (other : d.lastPlaced ≠ some w) : s.enterIfDiffers h r w = s.enter h r w := by
  simp only [State.enterIfDiffers, drive, beq_eq_false_iff_ne.mpr other, Bool.false_eq_true, if_false]

theorem enterIfDiffers_none {s : State} {h : Handle} {r : Record} {w : OutWord} (drive : r.drive = none) :
    s.enterIfDiffers h r w = s := by
  simp only [State.enterIfDiffers, drive]

/-- Asking for an output changes the pending-drive set alone, and calls for a drain. -/
theorem asked_eq (s : State) (h : Handle) (r : Record) (w : OutWord) :
    ∃ l b, s.asked h r w = { s with drt := { s.drt with pend := l }, agenda := { s.agenda with drain := b } } := by
  unfold State.asked
  split
  · exact ⟨_, _, rfl⟩
  · cases drive : r.drive with
    | none => exact ⟨_, _, enterIfDiffers_none drive⟩
    | some d =>
      by_cases placed : d.lastPlaced = some w
      · exact ⟨_, _, enterIfDiffers_placed drive placed⟩
      · rw [enterIfDiffers_other drive placed, enter_eq]
        exact ⟨_, _, rfl⟩

theorem asked_pend (s : State) (h : Handle) (r : Record) (w : OutWord) : s.pendAsked h r w (s.asked h r w).drt.pend := by
  refine ⟨fun nothing => ?_, fun d free drive => ⟨fun placed => ?_, fun other holds => ?_, fun other holds => ?_⟩⟩
  · unfold State.asked
    split
    · rfl
    · next free =>
      rw [enterIfDiffers_none (nothing.resolve_left free)]
  all_goals
    rw [State.asked, free, if_neg Bool.false_ne_true]
  · rw [enterIfDiffers_placed drive placed]
    rfl
  · rw [enterIfDiffers_other drive other, enter_eq, State.entered, if_pos holds]
    rfl
  · rw [enterIfDiffers_other drive other, enter_eq, State.entered, if_neg (by rw [holds]; decide)]
    rfl

/-- Another output than the last placed one is entered, and the set is to be drained. -/
theorem asked_entered {s : State} {h : Handle} {r : Record} {w : OutWord} {d : DriveState} (free : s.withheld h r = false)
    (drive : r.drive = some d) (other : d.lastPlaced ≠ some w) : (s.asked h r w).agenda.drain = true
      ∧ ∃ p ∈ (s.asked h r w).drt.pend, p.handle = h ∧ p.word = w ∧ p.urgent = r.tie.isSome := by
  rw [State.asked, free, if_neg Bool.false_ne_true, enterIfDiffers_other drive other, enter_eq]
  refine ⟨rfl, ?_⟩
  change ∃ p ∈ s.entered h r w, _
  unfold State.entered
  split
  · next holds =>
    obtain ⟨p, member, handle⟩ := List.any_eq_true.mp holds
    have handle : p.handle = h := by simpa using handle
    exact ⟨_, List.mem_map.mpr ⟨p, member, if_pos handle⟩, handle, rfl, rfl⟩
  · exact ⟨_, List.mem_append_right _ (List.mem_singleton_self _), rfl, rfl, rfl⟩

/-- The slot of a record that has been told what it wants. -/
theorem rewant_slot {s : State} {h : Handle} {r : Record} {w : OutWord} (hl : s.live h = some r)
    (hw : s.wantedNow r = some w) :
    (s.rewant h).slot h = { s.slot h with record := some { r with wanted := some w } }
    ∧ ∀ k, h ≠ k → (s.rewant h).slot k = s.slot k := by
  obtain ⟨l, b, asked⟩ := asked_eq (s.setRecord h { r with wanted := some w }) h { r with wanted := some w } w
  rw [rewant_some hl hw, asked]
  exact ⟨slot_modifySlot s h fun x => { x with record := some { r with wanted := some w } }, fun k other => setRecord_ne s other _⟩

/-- What a record is told to want leaves everything but its slot, the pending-drive set and the call for a drain. -/
theorem rewant_same (s : State) (h : Handle) : ∃ l b x, s.rewant h = { s.setSlot h x with
    drt := { s.drt with pend := l }, agenda := { s.agenda with drain := b } } := by
  have stays : ∃ l b x, s = { s.setSlot h x with
      drt := { s.drt with pend := l }, agenda := { s.agenda with drain := b } } :=
    ⟨s.drt.pend, s.agenda.drain, s.slot h, (setSlot_slot s h).symm⟩
  cases hl : s.live h with
  | none => simpa only [State.rewant, hl] using stays
  | some r =>
    cases hw : s.wantedNow r with
    | none => simpa only [rewant_none hl hw] using stays
    | some w =>
      obtain ⟨l, b, asked⟩ := asked_eq (s.setRecord h { r with wanted := some w }) h { r with wanted := some w } w
      exact ⟨l, b, { s.slot h with record := some { r with wanted := some w } }, (rewant_some hl hw).trans asked⟩

end Sys2Proof.Machine

namespace Sys2Proof.Machine

/-! ### Admission (R77 to R81, R119, R149) -/

theorem freeSlot_eq_some {s : State} {h : Handle} :
    s.freeSlot = some h ↔ s.record h = none ∧ ∀ k, k < h → (s.record k).isSome = true := by
  unfold State.freeSlot allHandles
  simp [find?_finRange]

theorem freeSlot_eq_none {s : State} : s.freeSlot = none ↔ ∀ h : Handle, (s.record h).isSome = true := by
  unfold State.freeSlot allHandles
  simp [Option.isSome_iff_ne_none]

theorem freeGuard_eq_some {s : State} {q : Fin 6} :
    s.freeGuard = some q ↔ (s.guard q).owner = none ∧ ∀ k, k < q → ((s.guard k).owner).isSome = true := by
  unfold State.freeGuard
  simp [find?_finRange]

theorem freeGuard_eq_none {s : State} : s.freeGuard = none ↔ ∀ q, ((s.guard q).owner).isSome = true := by
  unfold State.freeGuard
  simp [Option.isSome_iff_ne_none]

theorem admitEntry_full {s : State} (p : Nat) (i : FnIndex) (e : CatEntry)
    (full : ∀ h : Handle, (s.record h).isSome = true) : s.admitEntry p i e = (s, none) := by
  simp only [State.admitEntry, freeSlot_eq_none.mpr full]

/-- The state with a new record in its slot, on its lists and with its guard, before it is told what it wants. -/
def State.enrolled (s : State) (h : Handle) (p : Nat) (r : Record) : State := { s with
  agenda := (s.join h).agenda
  fdir := (s.setSlot h { s.slot h with gen := nextGen (s.slot h).gen, record := some r }).fdir
  drt := match r.intended with
    | some x => (s.joinList x h).drt
    | none => s.drt
  prv := if r.isLamp then { s.prv with list := s.prv.list ++ [h] } else s.prv
  frt := match r.guard with
    | some g => (s.setGuard g (Guard.assigned h (nextGen (s.slot h).gen) r.entry.maxRun)).frt
    | none => s.frt
  ntab := (s.modifyNode p fun n => { n with admitted := n.admitted + 1 }).ntab }

theorem joinList_mem {s : State} {x : Src} {h : Handle} (member : h ∈ s.list x) : s.joinList x h = s := if_pos member

theorem joinList_new {s : State} {x : Src} {h : Handle} (new : h ∉ s.list x) :
    s.joinList x h = s.setList x (s.list x ++ [h]) := if_neg new

theorem nodeAt_pos {s : State} {p : Nat} {n : NodeEntry} (node : s.nodeAt p = some n) : p ≠ 0 :=
  (nodeAt_eq_some.mp node).1

/-- The lists of a state that differs beside the router. -/
theorem joinList_drt {s t : State} (same : t.drt = s.drt) (x : Src) (h : Handle) :
    t.joinList x h = { t with drt := (s.joinList x h).drt } := by
  have list : t.list x = s.list x := by rw [State.list, same]; rfl
  by_cases member : h ∈ s.list x
  · rw [joinList_mem member, joinList_mem (list ▸ member), ← same]
  · rw [joinList_new member, joinList_new (list ▸ member), list]
    simp only [State.setList, same]

theorem admitEntry_free {s : State} {h : Handle} {p : Nat} {n : NodeEntry} (free : s.freeSlot = some h)
    (node : s.nodeAt p = some n) (i : FnIndex) (e : CatEntry) :
    s.admitEntry p i e = ((s.enrolled h p (s.newRecord n p i e)).rewant h, some (h, nextGen (s.slot h).gen)) := by
  have position := nodeAt_pos node
  have lists := fun x => joinList_drt (s := s) (t := (s.modifySlot h fun y =>
    { y with gen := nextGen (s.slot h).gen, record := some (s.newRecord n p i e) }).join h) rfl x h
  simp only [State.admitEntry, free, node]
  congr 2
  unfold State.enrolled State.modifyNode
  simp only [position, if_false]
  cases (s.newRecord n p i e).intended <;> cases (s.newRecord n p i e).isLamp <;>
    cases (s.newRecord n p i e).guard <;> simp only [lists] <;> rfl

theorem enrolled_slot (s : State) (h : Handle) (p : Nat) (r : Record) :
    (s.enrolled h p r).slot h = { s.slot h with gen := nextGen (s.slot h).gen, record := some r } :=
  slot_setSlot s h _

/-- The list that a new record joins, and the others. -/
theorem enrolled_list (s : State) (h : Handle) (p : Nat) (r : Record) {x : Src} (joins : r.intended = some x) :
    h ∈ (s.enrolled h p r).list x := by
  have list : (s.enrolled h p r).list x = (s.joinList x h).list x := by
    simp only [State.list, State.enrolled, joins]
  rw [list]
  by_cases member : h ∈ s.list x
  · rwa [joinList_mem member]
  · rw [joinList_new member, setList_list]
    exact List.mem_append_right _ (List.mem_singleton_self h)

theorem joinList_router (s : State) (x : Src) (h : Handle) :
    (s.joinList x h).drt.sources = s.drt.sources ∧ (s.joinList x h).drt.inputs = s.drt.inputs
      ∧ (s.joinList x h).drt.pend = s.drt.pend := by
  by_cases member : h ∈ s.list x
  · rw [joinList_mem member]
    exact ⟨rfl, rfl, rfl⟩
  · rw [joinList_new member]
    exact ⟨rfl, rfl, rfl⟩

theorem enrolled_router (s : State) (h : Handle) (p : Nat) (r : Record) :
    (s.enrolled h p r).drt.sources = s.drt.sources ∧ (s.enrolled h p r).drt.inputs = s.drt.inputs := by
  unfold State.enrolled
  cases r.intended with
  | none => exact ⟨rfl, rfl⟩
  | some x => exact ⟨(joinList_router s x h).1, (joinList_router s x h).2.1⟩

/-- What a source asks for rests on the sources and the turn inputs. -/
theorem asks_of_router {s t : State} (sources : t.drt.sources = s.drt.sources) (inputs : t.drt.inputs = s.drt.inputs)
    (x : Src) (supply : Bool) : t.asks x supply = s.asks x supply := by
  have level : t.followLevel x = s.followLevel x := by
    unfold State.followLevel
    cases turnSideOf x with
    | none => rfl
    | some side => cases side <;> simp only [State.turnInput, inputs]
  have source : t.source x = s.source x := by
    rw [State.source, sources]
    rfl
  unfold State.asks
  rw [source, level]

theorem enrolled_asks (s : State) (h : Handle) (p : Nat) (r : Record) (x : Src) (supply : Bool) :
    (s.enrolled h p r).asks x supply = s.asks x supply :=
  asks_of_router (enrolled_router s h p r).1 (enrolled_router s h p r).2 x supply

theorem newRecord_tie (s : State) (n : NodeEntry) (p : Nat) (i : FnIndex) (e : CatEntry) :
    (s.newRecord n p i e).tie = s.admissionSource e := rfl

theorem admissionSource_lamp (s : State) (role : LampRole) (side : LampSide) (a b c d : Byte) :
    s.admissionSource (.lamp role side a b c d)
      = if s.hcp.cfg.autoBind then (defaultSource role side).filter s.listHasRoom else none := by
  have room : (match defaultSource role side with
      | some x => if s.listHasRoom x then some x else none
      | none => none) = (defaultSource role side).filter s.listHasRoom := by
    cases defaultSource role side with
    | none => rfl
    | some x => exact Option.filter_some.symm
  exact congrArg (fun x => if s.hcp.cfg.autoBind then x else none) room

theorem admissionSource_other (s : State) {e : CatEntry} (other : e.cls ≠ .lamp) : s.admissionSource e = none := by
  cases e with
  | lamp => exact absurd rfl other
  | _ => rfl

/-- What a new record is told to want (R78, R124). -/
def State.firstWanted (s : State) (e : CatEntry) (x : Option Src) : Option OutWord :=
  match e.cls, x with
  | .sensor, _ => none
  | .actuator, _ => some .stop
  | .supply, _ | .lamp, none => some .off
  | .lamp, some x => some (s.asks x false)

theorem enrolled_wantedNow (s : State) (h : Handle) (n : NodeEntry) (p : Nat) (i : FnIndex) (e : CatEntry) :
    (s.enrolled h p (s.newRecord n p i e)).wantedNow (s.newRecord n p i e) = s.firstWanted e (s.admissionSource e) := by
  unfold State.wantedNow
  rw [newRecord_tie]
  cases e with
  | lamp role side a b c d =>
    cases s.admissionSource (.lamp role side a b c d) with
    | none => rfl
    | some x => exact congrArg some (enrolled_asks s h p _ x false)
  | _ => rfl

/-- A record admitted: the new record, with what it is told to want. -/
def State.admitted (s : State) (n : NodeEntry) (p : Nat) (i : FnIndex) (e : CatEntry) : Record :=
  { s.newRecord n p i e with wanted := s.firstWanted e (s.admissionSource e) }

theorem enrolled_live (s : State) (h : Handle) (n : NodeEntry) (p : Nat) (i : FnIndex) (e : CatEntry) :
    (s.enrolled h p (s.newRecord n p i e)).live h = some (s.newRecord n p i e) :=
  live_of (congrArg Slot.record (enrolled_slot s h p _)) rfl

/-- The slot of a record admitted (R77). -/
theorem admitted_slot (s : State) (h : Handle) (n : NodeEntry) (p : Nat) (i : FnIndex) (e : CatEntry) :
    ((s.enrolled h p (s.newRecord n p i e)).rewant h).slot h
      = { s.slot h with gen := nextGen (s.slot h).gen, record := some (s.admitted n p i e) } := by
  have live := enrolled_live s h n p i e
  have wanted := enrolled_wantedNow s h n p i e
  unfold State.admitted
  cases word : s.firstWanted e (s.admissionSource e) with
  | none =>
    have sensor : (s.newRecord n p i e).wanted = none := by
      cases e with
      | sensor => rfl
      | lamp => cases admitted : s.admissionSource (.lamp ..) <;> rw [admitted] at word <;> cases word
      | _ => cases word
    rw [rewant_none live (wanted.trans word), enrolled_slot, ← sensor]
  | some w =>
    rw [(rewant_slot live (wanted.trans word)).1, enrolled_slot]

/-- The rest of a state in which a record has been admitted. -/
theorem admitted_same (s : State) (h : Handle) (p : Nat) (r : Record) :
    let t := (s.enrolled h p r).rewant h
    h ∈ t.agenda.joins ∧ t.prv.list = (if r.cls = .lamp then s.prv.list ++ [h] else s.prv.list)
      ∧ t.ntab = (s.modifyNode p fun n => { n with admitted := n.admitted + 1 }).ntab
      ∧ (∀ x, t.list x = (s.enrolled h p r).list x) ∧ ∀ g, t.guard g = (s.enrolled h p r).guard g := by
  obtain ⟨l, b, x, same⟩ := rewant_same (s.enrolled h p r) h
  rw [same]
  refine ⟨List.mem_cons_self, ?_, rfl, fun _ => rfl, fun _ => rfl⟩
  change (if r.isLamp then { s.prv with list := s.prv.list ++ [h] } else s.prv : Prv).list = _
  by_cases lamp : r.cls = .lamp <;> simp [Record.isLamp, lamp]

end Sys2Proof.Machine

namespace Sys2Proof.Machine

/-! ### The guard, the list and the first Drive of a record admitted (R78, R79, R119, R149) -/

theorem admitted_plain (s : State) (n : NodeEntry) (p : Nat) (i : FnIndex) {e : CatEntry} (plain : e.reversing = false) :
    (s.admitted n p i e).guard = none ∧ (s.admitted n p i e).fault = .none := by
  simp only [State.admitted, State.newRecord, State.admissionGuard, plain, Bool.false_eq_true, if_false, Bool.false_and,
    and_self]

theorem admitted_noGuard {s : State} (n : NodeEntry) (p : Nat) (i : FnIndex) {e : CatEntry}
    (reversing : e.reversing = true) (taken : ∀ q, ((s.guard q).owner).isSome = true) :
    (s.admitted n p i e).guard = none ∧ (s.admitted n p i e).fault = .noGuard := by
  simp only [State.admitted, State.newRecord, State.admissionGuard, reversing, if_true, freeGuard_eq_none.mpr taken,
    Option.isNone_none, Bool.and_self, and_self]

theorem admissionGuard_lowest {s : State} {e : CatEntry} {q : Fin 6} (reversing : e.reversing = true)
    (free : (s.guard q).owner = none) (lowest : ∀ k, k < q → ((s.guard k).owner).isSome = true) :
    s.admissionGuard e = some q := by
  rw [State.admissionGuard, if_pos reversing, freeGuard_eq_some.mpr ⟨free, lowest⟩]

theorem enrolled_guard (s : State) (h : Handle) (p : Nat) {r : Record} {q : Fin 6} (guard : r.guard = some q) :
    (s.enrolled h p r).guard q = Guard.assigned h (nextGen (s.slot h).gen) r.entry.maxRun := by
  have same : (s.enrolled h p r).guard q = (s.setGuard q (Guard.assigned h (nextGen (s.slot h).gen) r.entry.maxRun)).guard q := by
    simp only [State.guard, State.enrolled, guard]
  rw [same, setGuard_guard]

/-- The first run limit of a REVERSING actuator: its maximum run, where that is less than 30 s (R149). -/
theorem assigned_limit (h : Handle) (gen : Byte) (e : CatEntry) : Guard.assigned h gen e.maxRun = {
    owner := some (h, gen), state := .idle, dead := 300,
    limit := (match e with
      | .actuator _ run _ _ _ => if run ≠ 0 ∧ run.toNat < 30 then run.toNat else 30
      | _ => 30),
    runTimer := none, deadTimer := none, awaiting := false, slot := none } := by
  cases e with
  | actuator _ run =>
    have zero : run.toNat ≠ 0 ↔ run ≠ 0 := not_congr (by rw [← BitVec.toNat_inj]; rfl)
    simp only [Guard.assigned, CatEntry.maxRun, zero]
    rfl
  | _ => rfl

theorem admitted_guard {s : State} (h : Handle) (n : NodeEntry) (p : Nat) (i : FnIndex) {e : CatEntry} {q : Fin 6}
    (reversing : e.reversing = true) (free : (s.guard q).owner = none)
    (lowest : ∀ k, k < q → ((s.guard k).owner).isSome = true) :
    (s.admitted n p i e).guard = some q ∧ (s.admitted n p i e).fault = .none
      ∧ (s.enrolled h p (s.newRecord n p i e)).guard q = Guard.assigned h (nextGen (s.slot h).gen) e.maxRun := by
  have guard := admissionGuard_lowest reversing free lowest
  refine ⟨guard, ?_, enrolled_guard s h p guard⟩
  simp only [State.admitted, State.newRecord, guard, Option.isNone_some, Bool.and_false, Bool.false_eq_true, if_false]

theorem listHasRoom_iff (s : State) (x : Src) : s.listHasRoom x = true ↔ (s.list x).length < 16 := decide_eq_true_iff

/-- Where auto-bind puts a lamp whose role and side have a source (R78, R119). -/
theorem admissionSource_auto {s : State} {role : LampRole} {side : LampSide} {x : Src} (auto : s.hcp.cfg.autoBind = true)
    (source : defaultSource role side = some x) (a b c d : Byte) :
    ((s.list x).length < 16 → s.admissionSource (.lamp role side a b c d) = some x)
      ∧ (16 ≤ (s.list x).length → s.admissionSource (.lamp role side a b c d) = none) := by
  rw [admissionSource_lamp, if_pos auto, source, Option.filter_some, ← Nat.not_lt, ← listHasRoom_iff]
  exact ⟨fun room => if_pos room, fun full => if_neg full⟩

theorem admissionSource_none {s : State} {role : LampRole} {side : LampSide} (source : defaultSource role side = none)
    (a b c d : Byte) : s.admissionSource (.lamp role side a b c d) = none := by
  rw [admissionSource_lamp, source, Option.filter_none, ite_self]

theorem admissionSource_off {s : State} {e : CatEntry} (off : s.hcp.cfg.autoBind = false ∨ e.cls ≠ .lamp) :
    s.admissionSource e = none := by
  rcases off with off | other
  · cases e with
    | lamp role side a b c d => rw [admissionSource_lamp, off, if_neg Bool.false_ne_true]
    | _ => rfl
  · exact admissionSource_other s other

/-- A lamp whose source is active is driven at once (R78). -/
theorem admitted_urgent (s : State) (h : Handle) (n : NodeEntry) (p : Nat) (i : FnIndex) {e : CatEntry} {w : OutWord}
    (lamp : e.cls = .lamp) (wanted : (s.admitted n p i e).wanted = some w) (on : w ≠ .off) :
    let t := (s.enrolled h p (s.newRecord n p i e)).rewant h
    t.agenda.drain = true ∧ ∃ x ∈ t.drt.pend, x.handle = h ∧ x.word = w ∧ x.urgent = true := by
  have tied : (s.admissionSource e).isSome = true := by
    cases source : s.admissionSource e with
    | some x => rfl
    | none =>
      simp only [State.admitted, State.firstWanted, lamp, source] at wanted
      exact absurd (Option.some.inj wanted).symm on
  have drive : (s.newRecord n p i e).drive = some { lastPlaced := some .off, failed := false } := by
    cases e with
    | lamp => rfl
    | _ => cases lamp
  have free : ((s.enrolled h p (s.newRecord n p i e)).setRecord h { s.newRecord n p i e with wanted := some w }).withheld h
      { s.newRecord n p i e with wanted := some w } = false := (withheld_sound _ h (.inl rfl)).2
  have entered := asked_entered free (r := { s.newRecord n p i e with wanted := some w }) drive
    (fun same => on (Option.some.inj same).symm)
  rw [rewant_some (enrolled_live s h n p i e) ((enrolled_wantedNow s h n p i e).trans wanted)]
  obtain ⟨drain, x, member, handle, word, urgent⟩ := entered
  exact ⟨drain, x, member, handle, word, urgent.trans tied⟩

theorem admitted_wanted (s : State) (n : NodeEntry) (p : Nat) (i : FnIndex) (e : CatEntry) :
    (s.admitted n p i e).wanted = (match e.cls, (s.admitted n p i e).intended with
      | .sensor, _ => none
      | .actuator, _ => some .stop
      | .supply, _ | .lamp, none => some .off
      | .lamp, some x => some (s.asks x false)) := rfl

theorem admitted_class (s : State) (n : NodeEntry) (p : Nat) (i : FnIndex) (e : CatEntry) :
    (s.admitted n p i e).motion = (if e.cls = .actuator then some .stopped else none)
      ∧ (s.admitted n p i e).drive = match e.cls with
        | .sensor => none
        | .actuator => some { lastPlaced := some .stop, failed := false }
        | _ => some { lastPlaced := some .off, failed := false } := by
  cases e <;> exact ⟨rfl, rfl⟩

end Sys2Proof.Machine

namespace Sys2Proof.Machine

/-! ### Valid catalogue entries (R40, R213) -/

theorem parseEntry_length {l : List Byte} (length : l.length ≠ 6) : parseEntry l = none := by
  unfold parseEntry
  split
  · exact absurd rfl length
  · rfl

theorem bandHighOk_iff (b : Byte) : bandHighOk b = true ↔ b = 0 ∨ 105 ≤ b.toNat ∧ b.toNat ≤ 250 := by
  simp only [bandHighOk, Bool.or_eq_true, beq_iff_eq, Bool.and_eq_true, decide_eq_true_eq]

theorem role_code_le (x : LampRole) : x.code ≤ 9 := by cases x <;> decide

theorem side_code_le (x : LampSide) : x.code ≤ 2 := by cases x <;> decide

/-- A lamp's entry is valid when its role, side, nominal current and bands are. -/
theorem parseEntry_lamp {b1 b2 b3 b4 b5 : Byte} {e : CatEntry} : parseEntry [0, b1, b2, b3, b4, b5] = some e ↔
    ∃ role side, b1.toNat / 16 = role.code ∧ b1.toNat % 16 = side.code
      ∧ (b2 ≠ 0 ∧ b3.toNat ≤ 95 ∧ (b4 = 0 ∨ 105 ≤ b4.toNat ∧ b4.toNat ≤ 250))
      ∧ e = .lamp role side b2 (if b3 = 0 then 25 else b3) (if b4 = 0 then 200 else b4) b5 := by
  have parse : parseEntry [0, b1, b2, b3, b4, b5] =
      match LampRole.ofCode (b1.toNat / 16), LampSide.ofCode (b1.toNat % 16) with
      | some role, some side =>
          if b2 != 0 && bandLowOk b3 && bandHighOk b4 then
            some (.lamp role side b2 (if b3 == 0 then 25 else b3) (if b4 == 0 then 200 else b4) b5)
          else none
      | _, _ => none := rfl
  have ok : (b2 != 0 && bandLowOk b3 && bandHighOk b4) = true
      ↔ b2 ≠ 0 ∧ b3.toNat ≤ 95 ∧ (b4 = 0 ∨ 105 ≤ b4.toNat ∧ b4.toNat ≤ 250) := by
    simp only [Bool.and_eq_true, bne_iff_ne, bandLowOk, decide_eq_true_eq, bandHighOk_iff, and_assoc]
  rw [parse]
  constructor
  · intro q
    split at q
    · next role side hr hs =>
      split at q
      · next valid =>
        refine ⟨role, side, ofCode_role.mp hr, ofCode_side.mp hs, ok.mp valid, ?_⟩
        simpa only [beq_iff_eq] using (Option.some.inj q).symm
      · cases q
    · cases q
  · rintro ⟨role, side, hr, hs, valid, rfl⟩
    rw [ofCode_role.mpr hr, ofCode_side.mpr hs]
    simp only [ok.mpr valid, if_true, beq_iff_eq]

theorem parseEntry_sensor {b1 b2 b3 b4 b5 : Byte} {e : CatEntry} :
    parseEntry [1, b1, b2, b3, b4, b5] = some e ↔ b1.toNat ≤ 5 ∧ e = .sensor b1 b2 b3 b4 b5 := by
  have parse : parseEntry [1, b1, b2, b3, b4, b5] = if b1.toNat ≤ 5 then some (.sensor b1 b2 b3 b4 b5) else none := rfl
  rw [parse, Option.ite_none_right_eq_some, Option.some.injEq, eq_comm (a := e)]

theorem parseEntry_actuator {b1 b2 b3 b4 b5 : Byte} {e : CatEntry} :
    parseEntry [2, b1, b2, b3, b4, b5] = some e ↔ b1.toNat ≤ 1 ∧ e = .actuator (b1 == 1) b2 b3 b4 b5 := by
  have parse : parseEntry [2, b1, b2, b3, b4, b5]
      = if b1.toNat ≤ 1 then some (.actuator (b1 == 1) b2 b3 b4 b5) else none := rfl
  rw [parse, Option.ite_none_right_eq_some, Option.some.injEq, eq_comm (a := e)]

theorem parseEntry_supply {b1 b2 b3 b4 b5 : Byte} {e : CatEntry} :
    parseEntry [3, b1, b2, b3, b4, b5] = some e ↔ b2 ≠ 0 ∧ e = .supply b1 b2 b3 b4 b5 := by
  have parse : parseEntry [3, b1, b2, b3, b4, b5] = if b2 != 0 then some (.supply b1 b2 b3 b4 b5) else none := rfl
  rw [parse, Option.ite_none_right_eq_some, Option.some.injEq, eq_comm (a := e), bne_iff_ne]

theorem parseEntry_class {b0 b1 b2 b3 b4 b5 : Byte} {e : CatEntry} (valid : parseEntry [b0, b1, b2, b3, b4, b5] = some e) :
    b0 = 0 ∨ b0 = 1 ∨ b0 = 2 ∨ b0 = 3 := by
  have small : b0.toNat ≤ 3 := by
    by_contra large
    have none : parseEntry [b0, b1, b2, b3, b4, b5] = none := by
      simp only [parseEntry]
      split
      case h_5 => rfl
      all_goals omega
    rw [none] at valid
    cases valid
  simp only [← BitVec.toNat_inj]
  change b0.toNat = 0 ∨ b0.toNat = 1 ∨ b0.toNat = 2 ∨ b0.toNat = 3
  omega

theorem parseEntry_valid (b0 b1 b2 b3 b4 b5 : Byte) : (∃ e, parseEntry [b0, b1, b2, b3, b4, b5] = some e) ↔
    (b0 = 0 ∧ b1.toNat / 16 ≤ 9 ∧ b1.toNat % 16 ≤ 2 ∧ b2 ≠ 0 ∧ b3.toNat ≤ 95
      ∧ (b4 = 0 ∨ 105 ≤ b4.toNat ∧ b4.toNat ≤ 250))
    ∨ (b0 = 1 ∧ b1.toNat ≤ 5) ∨ (b0 = 2 ∧ b1.toNat ≤ 1) ∨ (b0 = 3 ∧ b2 ≠ 0) := by
  constructor
  · rintro ⟨e, valid⟩
    rcases parseEntry_class valid with rfl | rfl | rfl | rfl
    · obtain ⟨role, side, hr, hs, bands, -⟩ := parseEntry_lamp.mp valid
      exact .inl ⟨rfl, hr.trans_le (role_code_le role), hs.trans_le (side_code_le side), bands⟩
    · exact .inr (.inl ⟨rfl, (parseEntry_sensor.mp valid).1⟩)
    · exact .inr (.inr (.inl ⟨rfl, (parseEntry_actuator.mp valid).1⟩))
    · exact .inr (.inr (.inr ⟨rfl, (parseEntry_supply.mp valid).1⟩))
  · rintro (⟨rfl, hr, hs, bands⟩ | ⟨rfl, kind⟩ | ⟨rfl, reversing⟩ | ⟨rfl, rated⟩)
    · obtain ⟨role, hr⟩ := exists_role_code.mpr hr
      obtain ⟨side, hs⟩ := exists_side_code.mpr hs
      exact ⟨_, parseEntry_lamp.mpr ⟨role, side, ofCode_role.mp hr, ofCode_side.mp hs, bands, rfl⟩⟩
    · exact ⟨_, parseEntry_sensor.mpr ⟨kind, rfl⟩⟩
    · exact ⟨_, parseEntry_actuator.mpr ⟨reversing, rfl⟩⟩
    · exact ⟨_, parseEntry_supply.mpr ⟨rated, rfl⟩⟩

/-- A valid entry is kept as it came, with the band defaults of R40 (R213). -/
theorem parseEntry_bytes (b0 b1 b2 b3 b4 b5 : Byte) (e : CatEntry) (valid : parseEntry [b0, b1, b2, b3, b4, b5] = some e) :
    e.cls.code = b0.toNat ∧ e.bytes = [b0, b1, b2, if b0 = 0 ∧ b3 = 0 then 25 else b3,
      if b0 = 0 ∧ b4 = 0 then 200 else b4, b5] := by
  rcases parseEntry_class valid with rfl | rfl | rfl | rfl
  · obtain ⟨role, side, hr, hs, -, rfl⟩ := parseEntry_lamp.mp valid
    have place : byte (16 * role.code + side.code) = b1 := by
      rw [← hr, ← hs, Nat.div_add_mod]
      exact BitVec.ofNat_toNat ..
    refine ⟨rfl, ?_⟩
    simp only [CatEntry.bytes, place, true_and]
  · obtain ⟨-, rfl⟩ := parseEntry_sensor.mp valid
    exact ⟨rfl, rfl⟩
  · obtain ⟨reversing, rfl⟩ := parseEntry_actuator.mp valid
    have flag : (if b1 == 1 then 1 else 0) = b1 := by
      by_cases one : b1 = 1
      · rw [one]; rfl
      · simp only [beq_eq_false_iff_ne.mpr one, Bool.false_eq_true, if_false]
        bv_omega
    refine ⟨rfl, ?_⟩
    simp only [CatEntry.bytes, flag]
    rfl
  · obtain ⟨-, rfl⟩ := parseEntry_supply.mp valid
    exact ⟨rfl, rfl⟩

/-! ### A slot that holds a record has a generation (R68, R69) -/

theorem generations_of_slots {s t : State} (same : ∀ h, t.slot h = s.slot h) (k : s.generations) : t.generations := by
  intro h held
  rw [State.record, same h] at held
  rw [same h]
  exact k h held

theorem Change.generations {c : Instr} {s t : State} (hc : ∀ a b, c ≠ .forget a b) (m : Change c s t)
    (k : s.generations) : t.generations := by
  cases m with
  | move _ m => exact (Moves.nil.snoc m).generations k
  | free _ _ forget => exact absurd forget.choose_spec.choose_spec (hc _ _)
  | _ => exact k

theorem Changes.generations {c : Instr} {s t : State} (hc : ∀ a b, c ≠ .forget a b) (m : Changes c s t)
    (k : s.generations) : t.generations := by
  induction m with
  | nil => exact k
  | snoc _ m ih => exact m.generations hc ih

theorem forget_generations {s : State} (h : Handle) (k : s.generations) : (s.forget h).generations := by
  intro x held
  by_cases e : h = x
  · subst e
    rw [(forget_slot s h).1] at held
    cases held
  · have same : (s.forget h).slot x = s.slot x := slot_modifySlot_ne s (fun y => { y with record := none }) e
    rw [State.record, same] at held
    rw [same]
    exact k x held

theorem taken_generations {u : State} (k : u.generations) : u.taken.generations := by
  obtain ⟨t, moves, pins, -⟩ := finish_moves u true
  refine generations_of_slots (s := t) (fun h => ?_) (moves.generations k)
  rw [slot_of_fdir (taken_fdir u), pins]
  rfl

theorem exec_forget (a g : Byte) (s : State) :
    exec (.forget a g) s = runNamed s a g s.forgetCheck (fun h _ => s.forget h) := by rfl

theorem runNamed_silent {s : State} (silent : s.portSilent = true) (b g : Byte)
    (check : Handle → Record → Option HostResult) (effect : Handle → Record → State) :
    runNamed s b g check effect = .next s := by
  cases named : s.named b g with
  | none => rw [runNamed_none named, reply_silent silent]
  | some x =>
    rw [runNamed_some named]
    cases check x.1 x.2 with
    | none => rw [runCommand_ok, reply_silent silent]
    | some refused => rw [runCommand_refused, reply_silent silent]

/-- What FORGET can answer: nothing in silence, a refusal, or the slot freed. -/
theorem forget_cases {s t : State} {a g : Byte} (q : exec (.forget a g) s = .next t) :
    t.fdir = s.fdir ∨ ∃ h, t = (s.forget h).taken := by
  rw [exec_forget] at q
  cases silent : s.portSilent with
  | true =>
    rw [runNamed_silent silent] at q
    cases q
    exact .inl rfl
  | false =>
    cases named : s.named a g with
    | none =>
      rw [runNamed_refuses silent named] at q
      cases q
      exact .inl (answer_fdir s 3)
    | some x =>
      obtain ⟨h, r⟩ := x
      cases check : s.forgetCheck h r with
      | some x =>
        rw [runNamed_answers silent named check] at q
        cases q
        exact .inl (answer_fdir s _)
      | none =>
        rw [runNamed_taken silent named check] at q
        exact .inr ⟨h, (Host.Outcome.next.inj q).symm⟩

theorem reset_generations {s : State} (reset : s.fdir = Fdir.reset) : s.generations := by
  intro h held
  have slot : s.slot h = Slot.reset := by
    rw [State.slot, reset]
    exact Vector.getElem_replicate ..
  rw [State.record, slot] at held
  cases held

/-- A command that can reset the device leaves the directory as it was, or clears it. -/
theorem resets_fdir {c : Instr} (hc : c.resets = true) {s t : State} (q : exec c s = .next t) :
    t.fdir = s.fdir ∨ t.fdir = Fdir.reset := by
  cases c with
  | deviceReset =>
    have q : execDeviceReset s = .next t := q
    unfold execDeviceReset at q
    split at q
    all_goals cases q
    · exact .inr rfl
    · exact .inl rfl
  | supplyReset =>
    have q : execSupplyReset s = .next t := q
    cases q
    exact .inr rfl
  | _ => cases hc

theorem exec_generations {c : Instr} {s t : State} (q : exec c s = .next t) (k : s.generations) : t.generations := by
  cases hr : c.resets with
  | true =>
    rcases resets_fdir hr q with same | reset
    · exact generations_of_slots (slot_of_fdir same) k
    · exact reset_generations reset
  | false =>
    cases hc : c.ofReset with
    | true => exact generations_of_slots (slot_of_fdir (resetInput_fdir hc hr q)) k
    | false =>
      by_cases forget : ∃ a g, c = .forget a g
      · obtain ⟨a, g, rfl⟩ := forget
        rcases forget_cases q with same | ⟨h, rfl⟩
        · exact generations_of_slots (slot_of_fdir same) k
        · exact taken_generations (forget_generations h k)
      · exact (exec_changes hc q).generations (fun a b e => forget ⟨a, b, e⟩) k

theorem step_generations {s t : State} (q : step s = .next t) (k : s.generations) : t.generations := by
  unfold step at q
  split at q
  · next c rest _ =>
    exact exec_generations q (generations_of_slots (s := s) (fun _ => rfl) k)
  · cases q
    exact generations_of_slots (s := s) (fun _ => rfl) k

end Sys2Proof.Machine

namespace Sys2Proof.Machine

/-! ### The generations and the admission of records (R68 to R81) -/

theorem nodeAt_of_nodes {s t : State} (same : t.ntab = s.ntab) (p : Nat) : t.nodeAt p = s.nodeAt p := by
  rw [State.nodeAt, same]
  rfl

theorem admitted_node {s : State} {p : Nat} {n : NodeEntry} (node : s.nodeAt p = some n) (h : Handle) (r : Record) :
    ((s.enrolled h p r).rewant h).nodeAt p = some { n with admitted := n.admitted + 1 } := by
  obtain ⟨-, -, nodes, -⟩ := admitted_same s h p r
  exact (nodeAt_of_nodes nodes p).trans (nodeAt_modifyNode node _)

/-- The list that a record admitted is on (R78, R119). -/
theorem admitted_listed {s : State} {n : NodeEntry} {p : Nat} {i : FnIndex} {e : CatEntry} {x : Src} (h : Handle)
    (tied : s.admissionSource e = some x) : h ∈ ((s.enrolled h p (s.newRecord n p i e)).rewant h).list x := by
  obtain ⟨-, -, -, list, -⟩ := admitted_same s h p (s.newRecord n p i e)
  rw [list]
  exact enrolled_list s h p _ tied

/-- The guard that a REVERSING actuator admitted takes (R79, R149). -/
theorem admitted_guarded {s : State} (h : Handle) (n : NodeEntry) (p : Nat) (i : FnIndex) {e : CatEntry} {q : Fin 6}
    (reversing : e.reversing = true) (free : (s.guard q).owner = none)
    (lowest : ∀ k, k < q → ((s.guard k).owner).isSome = true) :
    ((s.enrolled h p (s.newRecord n p i e)).rewant h).guard q
      = Guard.assigned h (nextGen (s.slot h).gen) e.maxRun := by
  obtain ⟨-, -, -, -, guard⟩ := admitted_same s h p (s.newRecord n p i e)
  obtain ⟨-, -, taken⟩ := admitted_guard h n p i reversing free lowest
  exact (guard q).trans taken

/-- Settles O34: every step keeps the generations, and admission takes the lowest FREE slot. -/
theorem recordsHaveGenerations : Obligations.RecordsHaveGenerations := by
  unfold Obligations.RecordsHaveGenerations
  intro table
  have source : ∀ role side, table role side = defaultSource role side := by
    intro role side
    cases role <;> cases side <;> rfl
  refine ⟨fun s t held next => step_generations next held, reset_generations rfl, fun s p i e full => admitEntry_full p i e full,
    fun s p i e h n free lowest node => ?_, fun l length => parseEntry_length length, parseEntry_valid, parseEntry_bytes⟩
  have admission := admitEntry_free (freeSlot_eq_some.mpr ⟨free, lowest⟩) node i e
  have slot := admitted_slot s h n p i e
  have urgent := fun w => admitted_urgent s h n p i (e := e) (w := w)
  have listed := fun x => admitted_listed (s := s) (n := n) (p := p) (i := i) (e := e) (x := x) h
  have guarded := fun q => admitted_guarded (s := s) h n p i (e := e) (q := q)
  obtain ⟨joins, proving, -⟩ := admitted_same s h p (s.newRecord n p i e)
  have counted := admitted_node node h (s.newRecord n p i e)
  intro t gen
  have state : t = (s.enrolled h p (s.newRecord n p i e)).rewant h := congrArg Prod.fst admission
  rw [← state] at slot joins proving counted
  simp only [← state] at urgent listed guarded
  refine ⟨congrArg Prod.snd admission, congrArg Slot.gen slot, ⟨s.admitted n p i e, congrArg Slot.record slot, rfl, rfl, rfl,
    rfl, rfl, rfl, rfl, rfl, rfl, rfl, rfl, rfl, rfl, rfl, (admitted_class s n p i e).1, admitted_plain s n p i,
    fun reversing taken => admitted_noGuard n p i reversing taken, fun reversing q free lowest => ?_,
    admitted_wanted s n p i e, urgent, ?_, ?_, admissionSource_off, (admitted_class s n p i e).2⟩, joins, proving, counted⟩
  · obtain ⟨guard, fault, -⟩ := admitted_guard h n p i reversing free lowest
    exact ⟨guard, fault, (guarded q reversing free lowest).trans (assigned_limit h _ e)⟩
  · rintro role side a b c d rfl x auto tied
    obtain ⟨room, full⟩ := admissionSource_auto auto ((source role side).symm.trans tied) a b c d
    exact ⟨fun space => ⟨room space, listed x (room space)⟩, full⟩
  · rintro role side a b c d rfl untied
    exact admissionSource_none ((source role side).symm.trans untied) a b c d

end Sys2Proof.Machine

namespace Sys2Proof.Machine

/-! ### A change of tie (R121 to R124) -/

theorem followBinding_eq (r : Record) : r.followBinding = { r with
    state := if r.state = .ready ∨ r.state = .bound then (if r.binding.isSome then .bound else .ready) else r.state
    before := if r.state = .stale ∧ (r.before = some .ready ∨ r.before = some .bound)
      then (if r.binding.isSome then some .bound else some .ready) else r.before } := by
  obtain ⟨state, _, _, _, _, _, binding, _, _, before⟩ := r
  cases state with
  | stale =>
    rcases before with _ | _ | _ | _
    all_goals cases binding <;> rfl
  | _ => cases before <;> rfl

theorem withTie_binding (r : Record) (x : Option Src) :
    (r.withTie x).binding = (if r.state.usable then x else none)
      ∧ (r.withTie x).intended = (if r.state.usable then none else x) := by
  unfold Record.withTie
  split
  · exact ⟨rfl, rfl⟩
  · exact ⟨rfl, rfl⟩

theorem withTie_same (r : Record) (x : Option Src) :
    ∃ a b, r.withTie x = { r with binding := a, intended := b } := by
  unfold Record.withTie
  split
  · exact ⟨_, _, rfl⟩
  · exact ⟨_, _, rfl⟩

/-- A record with another tie, before it is told what it wants. -/
def Record.retied (r : Record) (x : Option Src) : Record :=
  if x.isNone && r.cls == .supply then { (r.withTie x).followBinding with wanted := some .off }
  else (r.withTie x).followBinding

/-- What a record wants with another tie (R124). -/
def State.wantedTied (s : State) (r : Record) (x : Option Src) : Option OutWord :=
  match x with
  | some y => some (s.asks y (r.cls == .supply))
  | none => if r.cls = .lamp ∨ r.cls = .supply then some .off else r.wanted

/-- The lists once a handle has left the list of one tie and joined that of another (R122). -/
def State.relisted (s : State) (h : Handle) (old new : Option Src) : State :=
  let s := match old with
    | some x => s.leaveList x h
    | none => s
  match new with
  | some x => s.joinList x h
  | none => s

theorem changeTie_eq {s : State} {h : Handle} {r : Record} {x : Option Src} (live : s.live h = some r) (other : r.tie ≠ x) :
    s.changeTie h x = ((s.relisted h r.tie x).setRecord h (r.retied x)).rewant h := by
  simp only [State.changeTie, live, if_neg other]
  rfl

/-- What another tie makes of a record (R73, R75, R121). -/
theorem retied_eq (r : Record) (x : Option Src) : r.retied x = { r with
    binding := if r.state.usable then x else none
    intended := if r.state.usable then none else x
    state := if r.state = .ready ∨ r.state = .bound then (if x.isSome then .bound else .ready) else r.state
    before := if r.state = .stale ∧ (r.before = some .ready ∨ r.before = some .bound)
      then (if x.isSome then some .bound else some .ready) else r.before
    wanted := if x = none ∧ r.cls = .supply then some .off else r.wanted } := by
  obtain ⟨a, b, same⟩ := withTie_same r x
  have ties := withTie_binding r x
  rw [same] at ties
  obtain ⟨rfl, rfl⟩ := ties
  have usable : r.state = .ready ∨ r.state = .bound ∨ r.state = .stale → r.state.usable = true := by
    rintro (state | state | state) <;> rw [state] <;> rfl
  have followed : (r.withTie x).followBinding = { r with
      binding := if r.state.usable then x else none
      intended := if r.state.usable then none else x
      state := if r.state = .ready ∨ r.state = .bound then (if x.isSome then .bound else .ready) else r.state
      before := if r.state = .stale ∧ (r.before = some .ready ∨ r.before = some .bound)
        then (if x.isSome then some .bound else some .ready) else r.before } := by
    rw [followBinding_eq, same]
    congr 1
    · by_cases sound : r.state = .ready ∨ r.state = .bound
      · have tied := usable (by tauto)
        simp only [tied, if_true]
      · simp only [sound, if_false]
    · by_cases stale : r.state = .stale
      · have tied := usable (by tauto)
        simp only [tied, if_true]
      · simp only [stale, false_and, if_false]
  unfold Record.retied
  rw [followed]
  simp only [Bool.and_eq_true, Option.isNone_iff_eq_none, beq_iff_eq]
  split
  · rfl
  · rfl

theorem retied_tie (r : Record) (x : Option Src) : (r.retied x).tie = x := by
  rw [retied_eq]
  unfold Record.tie
  cases r.state.usable <;> cases x <;> rfl

theorem retied_not_retired {r : Record} (live : (r.state == .retired) = false) (x : Option Src) :
    ((r.retied x).state == .retired) = false := by
  rw [retied_eq]
  change ((if r.state = .ready ∨ r.state = .bound then (if x.isSome then .bound else .ready) else r.state)
    == RecState.retired) = false
  split
  · cases x <;> rfl
  · exact live

/-- Leaving and joining lists changes the lists alone. -/
theorem relisted_same (s : State) (h : Handle) (old new : Option Src) :
    ∃ l, s.relisted h old new = { s with drt := { s.drt with lists := l } } := by
  have left : ∃ l, (match old with | some x => s.leaveList x h | none => s) = { s with drt := { s.drt with lists := l } } := by
    cases old with
    | none => exact ⟨_, rfl⟩
    | some x => exact ⟨_, rfl⟩
  obtain ⟨l, left⟩ := left
  unfold State.relisted
  rw [left]
  cases new with
  | none => exact ⟨_, rfl⟩
  | some x =>
    by_cases member : h ∈ ({ s with drt := { s.drt with lists := l } } : State).list x
    · exact ⟨_, joinList_mem member⟩
    · exact ⟨_, joinList_new member⟩

theorem mem_leaveList (s : State) (x y : Src) (h : Handle) : h ∈ (s.leaveList x h).list y ↔ h ∈ s.list y ∧ x ≠ y := by
  unfold State.leaveList
  by_cases same : x = y
  · subst same
    simp
  · rw [setList_list_ne _ _ same]
    simp [same]

theorem mem_joinList (s : State) (x y : Src) (h : Handle) : h ∈ (s.joinList x h).list y ↔ x = y ∨ h ∈ s.list y := by
  by_cases member : h ∈ s.list x
  · rw [joinList_mem member]
    exact ⟨.inr, fun q => q.elim (fun same => same ▸ member) id⟩
  · rw [joinList_new member]
    by_cases same : x = y
    · subst same
      simp
    · rw [setList_list_ne _ _ same]
      simp [same]

/-- The lists that a handle is on with its new tie (R122). -/
theorem mem_relisted (s : State) (h : Handle) (old new : Option Src) (y : Src) :
    h ∈ (s.relisted h old new).list y ↔ new = some y ∨ h ∈ s.list y ∧ old ≠ some y := by
  have left : h ∈ (match old with | some x => s.leaveList x h | none => s : State).list y ↔ h ∈ s.list y ∧ old ≠ some y := by
    cases old with
    | none => simp
    | some x => simp [mem_leaveList]
  unfold State.relisted
  rw [← left]
  cases new with
  | none => simp
  | some x => simp [mem_joinList]

/-- What is asked for rests on the time, the proof, the pending-drive set and the generation of the slot. -/
theorem pendAsked_of_same {s t : State} {h : Handle} {r : Record} {w : OutWord} {l : List Pend} (pend : t.drt.pend = s.drt.pend)
    (proving : t.prv = s.prv) (gen : (t.slot h).gen = (s.slot h).gen) (now : t.now = s.now) (asked : t.pendAsked h r w l) :
    s.pendAsked h r w l := by
  unfold State.pendAsked State.withheld State.pulseHeld State.pendHolds at *
  rwa [pend, proving, gen, now] at asked

/-- A record that is told nothing wants nothing. -/
theorem retied_unwanted {s : State} {r : Record} {x : Option Src} (word : s.wantedTied r x = none) :
    r.retied x = { r.retied x with wanted := none } := by
  have unwanted : (r.retied x).wanted = none := by
    rw [retied_eq]
    unfold State.wantedTied at word
    cases x with
    | some y => cases word
    | none =>
      by_cases told : r.cls = .lamp ∨ r.cls = .supply
      · simp only [told, if_true, reduceCtorEq] at word
      · simp only [told, if_false] at word
        simpa only [true_and, (not_or.mp told).2, if_false] using word
  rw [← unwanted]

/-- A record whose tie changes: its slot, and what is asked for it. -/
theorem changeTie_record {s : State} {h : Handle} {r : Record} {x : Option Src} (live : s.live h = some r)
    (other : r.tie ≠ x) :
    (s.changeTie h x).record h = some { r.retied x with wanted := s.wantedTied r x }
      ∧ (∀ w, s.wantedTied r x = some w →
        s.pendAsked h { r.retied x with wanted := s.wantedTied r x } w (s.changeTie h x).drt.pend)
      ∧ ∀ y, (s.changeTie h x).list y = (s.relisted h r.tie x).list y := by
  obtain ⟨l, relisted⟩ := relisted_same s h r.tie x
  have changed := changeTie_eq live other
  rw [relisted] at changed ⊢
  generalize middle : (State.setRecord { s with drt := { s.drt with lists := l } } h (r.retied x)) = u at changed
  have slot : u.slot h = { s.slot h with record := some (r.retied x) } := by
    rw [← middle]
    exact slot_modifySlot _ h fun y => { y with record := some (r.retied x) }
  have held : u.live h = some (r.retied x) := live_of (congrArg Slot.record slot) (retied_not_retired (live_not_retired live) x)
  have asks : ∀ y b, u.asks y b = s.asks y b := by
    rw [← middle]
    exact asks_of_router rfl rfl
  have cls : (r.retied x).cls = r.cls := by rw [retied_eq]; rfl
  have wanted : u.wantedNow (r.retied x) = s.wantedTied r x := by
    unfold State.wantedNow State.wantedTied Record.isLamp
    rw [retied_tie, cls]
    cases x with
    | some y => simp only [asks]
    | none =>
      rw [retied_eq]
      cases r.cls <;> simp
  rw [changed]
  refine ⟨?_, fun w word => ?_, fun y => ?_⟩
  · cases word : s.wantedTied r x with
    | none =>
      rw [rewant_none held (wanted.trans word), ← retied_unwanted word]
      exact congrArg Slot.record slot
    | some w => exact congrArg Slot.record (rewant_slot held (wanted.trans word)).1
  · rw [rewant_some held (wanted.trans word), word]
    have asked := asked_pend (u.setRecord h { r.retied x with wanted := some w }) h { r.retied x with wanted := some w } w
    refine pendAsked_of_same ?_ ?_ ?_ ?_ asked
    · rw [← middle]
      rfl
    · rw [← middle]
      rfl
    · have kept := congrArg Slot.gen (slot_modifySlot u h fun y =>
        { y with record := some { r.retied x with wanted := some w } })
      have before : (u.slot h).gen = (s.slot h).gen := by rw [slot]
      exact kept.trans before
    · rw [← middle]
      rfl
  · obtain ⟨_, _, _, same⟩ := rewant_same u h
    rw [same, ← middle]
    rfl

/-- Settles O27: the record, its lists and what is asked for it follow the new tie. -/
theorem tieChangeMovesLists : Obligations.TieChangeMovesLists := by
  intro s h r x live other
  obtain ⟨record, asked, lists⟩ := changeTie_record live other
  refine ⟨⟨_, record, ?_⟩, fun y => ?_⟩
  · have tied := retied_tie r x
    rw [retied_eq] at tied asked ⊢
    exact ⟨tied, rfl, rfl, rfl, rfl, rfl, rfl, rfl, rfl, rfl, rfl, asked⟩
  · rw [lists]
    exact mem_relisted s h r.tie x y

end Sys2Proof.Machine

namespace Sys2Proof.Machine

/-! ### What is cleared of a retired record (R84, R111, R157) -/

/-- What is left of a proof when the record of the handle `h` is retired (R111). -/
def Proof.endedFor (h : Handle) (p : Proof) : Option Proof :=
  if p.handle = h ∧ p.stage ≠ .draining then (if p.placed then some { p with stage := .draining } else none) else some p

theorem endProofOf_eq (s : State) (h : Handle) :
    s.endProofOf h = { s with prv := { s.prv with proof := s.prv.proof.bind (Proof.endedFor h) } } := by
  have stays : ∀ x, s.prv.proof = x → s = { s with prv := { s.prv with proof := x } } := by
    rintro x rfl
    rfl
  unfold State.endProofOf
  cases proof : s.prv.proof with
  | none => exact stays none proof
  | some p =>
    simp only [Option.bind_some, Proof.endedFor, Bool.and_eq_true, beq_iff_eq, bne_iff_ne]
    split
    · rfl
    · exact stays (some p) proof

/-- Everything that a retired record leaves behind, block by block. -/
theorem clearRecord_eq (s : State) (h : Handle) (r : Record) : s.clearRecord h r = { s with
    drt := ((match r.tie with | some x => s.leaveList x h | none => s).removePend h).drt
    prv := { list := s.prv.list.filter fun y => !(y == h), proof := s.prv.proof.bind (Proof.endedFor h) }
    fdir := (s.removeConfirm h).fdir
    frt := (s.freeGuardOf r).frt } := by
  simp only [State.clearRecord, endProofOf_eq]
  unfold State.freeGuardOf
  cases r.tie <;> cases r.guard <;> rfl

theorem leaveList_list (s : State) (x y : Src) (h : Handle) :
    (s.leaveList x h).list y = if x = y then (s.list y).filter (fun k => !(k == h)) else s.list y := by
  unfold State.leaveList
  split
  · next same =>
    subst same
    exact setList_list ..
  · next other => exact setList_list_ne _ _ other

theorem clearRecord_list (s : State) (h : Handle) (r : Record) (x : Src) : (s.clearRecord h r).list x
    = if r.tie = some x then (s.list x).filter (fun k => !(k == h)) else s.list x := by
  rw [clearRecord_eq]
  cases tie : r.tie with
  | none => rfl
  | some y =>
    simp only [Option.some.injEq]
    exact leaveList_list s y x h

theorem clearRecord_guard (s : State) (h : Handle) (r : Record) (g : Fin 6) : (s.clearRecord h r).guard g
    = if r.guard = some g then Guard.reset else s.guard g := by
  rw [clearRecord_eq]
  change (s.freeGuardOf r).guard g = _
  unfold State.freeGuardOf
  cases guard : r.guard with
  | none => rfl
  | some k =>
    simp only [Option.some.injEq]
    split
    · next same =>
      subst same
      exact setGuard_guard ..
    · next other => exact setGuard_guard_ne s _ other

/-- The slot of a record that is cleared loses its confirm entry. -/
theorem clearRecord_slot_same (s : State) (h : Handle) (r : Record) : (s.clearRecord h r).slot h
    = { s.slot h with confirm := none, sampleVoid := (s.slot h).sampleMark != .clear } := by
  rw [clearRecord_eq]
  exact slot_modifySlot s h fun x => { x with confirm := none, sampleVoid := x.sampleMark != .clear }

theorem clearRecord_ended (s : State) (h : Handle) (r : Record) : s.recordEnded (s.clearRecord h r) h r := by
  have cleared := clearRecord_eq s h r
  refine ⟨clearRecord_list s h r, ?_, ?_, fun p proof named live => ?_, fun other => ?_, ?_, clearRecord_guard s h r⟩
  · rw [cleared]
    cases r.tie <;> rfl
  · rw [cleared]
  · rw [cleared]
    change s.prv.proof.bind (Proof.endedFor h) = _
    rw [proof]
    exact if_pos ⟨named, live⟩
  · rw [cleared]
    change s.prv.proof.bind (Proof.endedFor h) = _
    cases proof : s.prv.proof with
    | none => rfl
    | some p => exact if_neg fun both => (other p proof).elim (· both.1) both.2
  · rw [clearRecord_slot_same]

/-- What is said of an ended record rests on the lists, the set, the proving state, the slot and the guards. -/
theorem recordEnded_of_same {s u v : State} {h : Handle} {r : Record} (ended : s.recordEnded u h r) (router : v.drt = u.drt)
    (proving : v.prv = u.prv) (confirm : (v.slot h).confirm = (u.slot h).confirm) (guards : v.frt = u.frt) :
    s.recordEnded v h r := by
  unfold State.recordEnded State.list State.guard at *
  rwa [router, proving, confirm, guards]

theorem retireRecord_some {s : State} {h : Handle} {r : Record} (live : s.live h = some r) (x : RetireReason) :
    s.retireRecord h x = (s.clearRecord h r).setRecord h (r.retired s.now x) := by
  simp only [State.retireRecord, live]

theorem retireRecord_ended {s : State} {h : Handle} {r : Record} (live : s.live h = some r) (x : RetireReason) :
    s.recordEnded (s.retireRecord h x) h r := by
  rw [retireRecord_some live]
  refine recordEnded_of_same (clearRecord_ended s h r) rfl rfl ?_ rfl
  unfold State.setRecord
  rw [slot_modifySlot]

end Sys2Proof.Machine

namespace Sys2Proof.Machine

theorem retireRecord_slot_same {s : State} {h : Handle} {r : Record} (live : s.live h = some r) (x : RetireReason) :
    (s.retireRecord h x).slot h = { s.slot h with
      record := some (r.retired s.now x), confirm := none, sampleVoid := (s.slot h).sampleMark != .clear } := by
  have slot := slot_modifySlot (s.clearRecord h r) h fun y => { y with record := some (r.retired s.now x) }
  rw [retireRecord_some live]
  exact slot.trans (by rw [clearRecord_slot_same])

/-! ### The claim of a retire Drive (R86, R87) -/

/-- What a claim of a Drive does to the line and answers rests on the line alone. -/
theorem claimDrive_line (s : State) (d : DriveReq) (u : Bool) :
    ∃ x a, ∀ t : State, t.tdl = s.tdl → t.claimDrive d u = ({ t with tdl := x }, a) := by
  have whole : ∀ t : State, t.tdl = s.tdl → t = { t with tdl := s.tdl } := fun t same => by rw [← same]
  by_cases down : s.tdl.line = .down
  · refine ⟨s.tdl, .down, fun t same => ?_⟩
    rw [claimDrive_down (by rwa [same]), ← whole t same]
  by_cases flying : ∃ f x, s.tdl.inFlight = some f ∧ f.req = .drive x ∧ x.handle = d.handle
  · refine ⟨s.tdl, .inFlight, fun t same => ?_⟩
    rw [claimDrive_inFlight (by rwa [same]) (by rwa [same]), ← whole t same]
  by_cases urgent : ∃ x : DriveReq, .drive x ∈ s.tdl.urgent ∧ x.handle = d.handle
  · refine ⟨{ s.tdl with urgent := mergeWord d.handle d.word s.tdl.urgent }, .merged, fun t same => ?_⟩
    rw [claimDrive_urgent (by rwa [same]) (by rwa [same]) (by rwa [same]), ← same]
    rfl
  by_cases routine : ∃ x : DriveReq, .drive x ∈ s.tdl.routine ∧ x.handle = d.handle
  · refine ⟨{ s.tdl with routine := mergeWord d.handle d.word s.tdl.routine }, .merged, fun t same => ?_⟩
    rw [claimDrive_routine (by rwa [same]) (by rwa [same]) (by rwa [same]) (by rwa [same]), ← same]
    rfl
  have fresh : ∀ t : State, t.tdl = s.tdl → t.claimDrive d u = _ := fun t same =>
    claimDrive_new (s := t) (by rwa [same]) (by rwa [same]) (by rwa [same]) (by rwa [same]) u
  have counts : ∀ t : State, t.tdl = s.tdl → t.urgentDriveEntries = s.urgentDriveEntries
      ∧ t.urgentEntries = s.urgentEntries ∧ t.routineEntries = s.routineEntries := fun t same => by
    simp only [State.urgentDriveEntries, State.urgentEntries, State.routineEntries, same, and_self]
  by_cases room : if u = true then s.urgentDriveEntries < 6 ∧ s.urgentEntries < 8 else s.routineEntries < 24
  · refine ⟨if u = true then { s.tdl with urgent := s.tdl.urgent ++ [.drive d] }
      else { s.tdl with routine := s.tdl.routine ++ [.drive d] }, .taken, fun t same => ?_⟩
    obtain ⟨drives, urgents, routines⟩ := counts t same
    rw [fresh t same, drives, urgents, routines]
    cases u with
    | true => rw [if_pos rfl, if_pos (by simpa using room), if_pos rfl, ← same]; rfl
    | false => rw [if_neg (by decide), if_pos (by simpa using room), if_neg (by decide), ← same]; rfl
  · refine ⟨s.tdl, .full, fun t same => ?_⟩
    obtain ⟨drives, urgents, routines⟩ := counts t same
    rw [fresh t same, drives, urgents, routines]
    cases u with
    | true => rw [if_pos rfl, if_neg (by simpa using room), ← whole t same]
    | false => rw [if_neg (by decide), if_neg (by simpa using room), ← whole t same]

theorem claimDrive_of_tdl {s t : State} (same : t.tdl = s.tdl) (d : DriveReq) (u : Bool) :
    t.claimDrive d u = ({ t with tdl := (s.claimDrive d u).1.tdl }, (s.claimDrive d u).2) := by
  obtain ⟨x, a, claims⟩ := claimDrive_line s d u
  rw [claims t same, claims s rfl]

/-- A claim that places nothing leaves the state as it is. -/
theorem claimDrive_refused {s : State} {d : DriveReq} {u : Bool} (taken : (s.claimDrive d u).2 ≠ .taken)
    (merged : (s.claimDrive d u).2 ≠ .merged) : (s.claimDrive d u).1 = s := by
  unfold State.claimDrive at *
  repeat' split
  all_goals simp_all

/-- The mark of a retire Drive that has been claimed (R87). -/
def ClaimAnswer.retireMark (x : ClaimAnswer) (b : Addr) (i : FnIndex) (w : OutWord) : RetireDrive :=
  match x with
  | .taken | .merged => .placed
  | .full => .unplaced b i w
  | .inFlight => .awaiting b i w
  | .down => .none

/-- The retire Drive of a slot's handle. -/
def State.retireRequest (s : State) (h : Handle) (b : Addr) (i : FnIndex) (w : OutWord) : DriveReq :=
  { address := b, index := i, handle := h, gen := (s.slot h).gen, word := w, prior := none }

theorem placeRetireDrive_unplaced {s : State} {h : Handle} {b : Addr} {i : FnIndex} {w : OutWord}
    (mark : (s.slot h).retireDrive = .unplaced b i w) :
    let c := s.claimDrive (s.retireRequest h b i w) false
    s.placeRetireDrive h = c.1.modifySlot h fun x => { x with retireDrive := c.2.retireMark b i w } := by
  intro c
  have refused := claimDrive_refused (s := s) (d := s.retireRequest h b i w) (u := false)
  have stays : s.modifySlot h (fun x => { x with retireDrive := .unplaced b i w }) = s := by
    rw [← mark]
    exact setSlot_slot s h
  simp only [State.placeRetireDrive, mark]
  change (match c.2 with
    | .taken | .merged => c.1.modifySlot h fun x => { x with retireDrive := .placed }
    | .down => s.modifySlot h fun x => { x with retireDrive := .none }
    | .inFlight => s.modifySlot h fun x => { x with retireDrive := .awaiting b i w }
    | .full => s) = _
  change c.2 ≠ _ → c.2 ≠ _ → c.1 = s at refused
  cases answer : c.2 with
  | taken => rfl
  | merged => rfl
  | down => rw [refused (by rw [answer]; decide) (by rw [answer]; decide)]; rfl
  | inFlight => rw [refused (by rw [answer]; decide) (by rw [answer]; decide)]; rfl
  | full => rw [refused (by rw [answer]; decide) (by rw [answer]; decide)]; exact stays.symm

theorem placeRetireDrive_other {s : State} {h : Handle} (other : ∀ b i w, (s.slot h).retireDrive ≠ .unplaced b i w) :
    s.placeRetireDrive h = s := by
  unfold State.placeRetireDrive
  split
  · next mark => exact absurd mark (other _ _ _)
  · rfl

end Sys2Proof.Machine

namespace Sys2Proof.Machine

/-! ### RETIRE (R84, R86) -/

/-- Placing a retire Drive changes the queue and the slot's mark alone. -/
theorem placeRetireDrive_eq (s : State) (h : Handle) : ∃ x m, s.placeRetireDrive h = { s with
    tdl := x, fdir := (s.modifySlot h fun y => { y with retireDrive := m }).fdir } := by
  by_cases unplaced : ∃ b i w, (s.slot h).retireDrive = .unplaced b i w
  · obtain ⟨b, i, w, mark⟩ := unplaced
    obtain ⟨x, claimed⟩ := claimDrive_tdl s (s.retireRequest h b i w) false
    rw [placeRetireDrive_unplaced mark, claimed]
    exact ⟨x, _, rfl⟩
  · rw [placeRetireDrive_other fun b i w mark => unplaced ⟨b, i, w, mark⟩]
    refine ⟨s.tdl, (s.slot h).retireDrive, ?_⟩
    exact (congrArg (fun u : State => { s with fdir := u.fdir }) (setSlot_slot s h)).symm

/-- A record retired by the host, before its retire Drive is placed (R86). -/
def State.letGo (s : State) (h : Handle) (r : Record) : State :=
  ((s.retireRecord h .host).modifyNode r.position NodeEntry.letGo).modifySlot h fun x => { x with retireDrive := r.retireDrive }

theorem hostRetire_eq (s : State) (h : Handle) (r : Record) : s.hostRetire h r = (s.letGo h r).placeRetireDrive h := rfl

theorem slot_modifyNode (s : State) (p : Nat) (f : NodeEntry → NodeEntry) (h : Handle) :
    (s.modifyNode p f).slot h = s.slot h := by
  unfold State.modifyNode
  split <;> rfl

theorem letGo_slot {s : State} {h : Handle} {r : Record} (live : s.live h = some r) : (s.letGo h r).slot h = { s.slot h with
    record := some (r.retired s.now .host), retireDrive := r.retireDrive, confirm := none
    sampleVoid := (s.slot h).sampleMark != .clear } := by
  have slot := slot_modifySlot ((s.retireRecord h .host).modifyNode r.position NodeEntry.letGo) h fun x =>
    { x with retireDrive := r.retireDrive }
  exact slot.trans (by rw [slot_modifyNode, retireRecord_slot_same live])

theorem modifyNode_same (s : State) (p : Nat) (f : NodeEntry → NodeEntry) : (s.modifyNode p f).drt = s.drt
    ∧ (s.modifyNode p f).prv = s.prv ∧ (s.modifyNode p f).frt = s.frt ∧ (s.modifyNode p f).tdl = s.tdl
    ∧ (s.modifyNode p f).fdir = s.fdir ∧ (s.modifyNode p f).bue = s.bue := by
  unfold State.modifyNode
  split
  · exact ⟨rfl, rfl, rfl, rfl, rfl, rfl⟩
  · exact ⟨rfl, rfl, rfl, rfl, rfl, rfl⟩

theorem clearRecord_engine (s : State) (h : Handle) (r : Record) :
    (s.clearRecord h r).bue = s.bue ∧ (s.clearRecord h r).ntab = s.ntab := by
  rw [clearRecord_eq]
  exact ⟨rfl, rfl⟩

theorem hostRetire_ended {s : State} {h : Handle} {r : Record} (live : s.live h = some r) :
    s.recordEnded (s.hostRetire h r) h r := by
  obtain ⟨x, m, placed⟩ := placeRetireDrive_eq (s.letGo h r) h
  obtain ⟨router, proving, guards, -⟩ := modifyNode_same (s.retireRecord h .host) r.position NodeEntry.letGo
  rw [hostRetire_eq, placed]
  refine recordEnded_of_same (retireRecord_ended live .host) router proving ?_ guards
  have slot := slot_modifySlot (s.letGo h r) h fun y => { y with retireDrive := m }
  have confirm := congrArg Slot.confirm slot
  rw [retireRecord_slot_same live]
  refine confirm.trans ?_
  rw [letGo_slot live]

theorem hostRetire_slot {s : State} {h : Handle} {r : Record} (live : s.live h = some r) :
    (s.hostRetire h r).record h = some (r.retired s.now .host) ∧ ((s.hostRetire h r).slot h).gen = (s.slot h).gen := by
  obtain ⟨x, m, placed⟩ := placeRetireDrive_eq (s.letGo h r) h
  have slot := slot_modifySlot (s.letGo h r) h fun y => { y with retireDrive := m }
  rw [letGo_slot live] at slot
  rw [hostRetire_eq, placed]
  have gen : (((s.letGo h r).modifySlot h fun y => { y with retireDrive := m }).slot h).gen = (s.slot h).gen := by rw [slot]
  exact ⟨congrArg Slot.record slot, gen⟩

theorem hostRetire_attention (s : State) (h : Handle) (r : Record) :
    (s.hostRetire h r).fdir.attention = s.fdir.attention := by
  obtain ⟨x, m, placed⟩ := placeRetireDrive_eq (s.letGo h r) h
  obtain ⟨-, -, -, -, directory, -⟩ := modifyNode_same (s.retireRecord h .host) r.position NodeEntry.letGo
  rw [hostRetire_eq, placed]
  exact (congrArg Fdir.attention directory).trans (retireRecord_attention s h .host)

theorem hostRetire_engine {s : State} {h : Handle} {r : Record} (live : s.live h = some r) :
    (s.hostRetire h r).bue = s.bue ∧ (s.hostRetire h r).ntab = (s.modifyNode r.position NodeEntry.letGo).ntab := by
  obtain ⟨x, m, placed⟩ := placeRetireDrive_eq (s.letGo h r) h
  obtain ⟨-, -, -, -, -, engine⟩ := modifyNode_same (s.retireRecord h .host) r.position NodeEntry.letGo
  obtain ⟨bue, ntab⟩ := clearRecord_engine s h r
  rw [hostRetire_eq, placed]
  refine ⟨engine.trans ?_, ?_⟩
  · rw [retireRecord_some live]
    exact bue
  · change ((s.retireRecord h .host).modifyNode r.position NodeEntry.letGo).ntab = _
    rw [retireRecord_some live]
    unfold State.modifyNode
    split
    · exact ntab
    · exact congrArg (fun n : Ntab => { n with nodes := n.nodes.modify (r.position - 1) NodeEntry.letGo }) ntab

theorem letGo_tdl (s : State) (h : Handle) (r : Record) : (s.letGo h r).tdl = s.tdl := by
  obtain ⟨-, -, -, line, -⟩ := modifyNode_same (s.retireRecord h .host) r.position NodeEntry.letGo
  exact line.trans (retireRecord_tdl s h .host)

theorem hostRetire_silent {s : State} {h : Handle} {r : Record} (live : s.live h = some r) (none : r.retireDrive = .none) :
    ((s.hostRetire h r).slot h).retireDrive = .none ∧ (s.hostRetire h r).tdl = s.tdl := by
  have mark : ((s.letGo h r).slot h).retireDrive = .none := by rw [letGo_slot live, none]
  rw [hostRetire_eq, placeRetireDrive_other (by rw [mark]; exact fun _ _ _ e => by cases e)]
  exact ⟨mark, letGo_tdl s h r⟩

theorem hostRetire_driven {s : State} {h : Handle} {r : Record} {b : Addr} {w : OutWord} (live : s.live h = some r)
    (drive : r.retireDrive = .unplaced b r.index w) :
    let c := s.claimDrive (s.retireRequest h b r.index w) false
    (s.hostRetire h r).tdl = c.1.tdl ∧ ((s.hostRetire h r).slot h).retireDrive = c.2.retireMark b r.index w := by
  intro c
  have mark : ((s.letGo h r).slot h).retireDrive = .unplaced b r.index w := by rw [letGo_slot live, drive]
  have request : (s.letGo h r).retireRequest h b r.index w = s.retireRequest h b r.index w := by
    unfold State.retireRequest
    rw [letGo_slot live]
  have claim := claimDrive_of_tdl (letGo_tdl s h r) (s.retireRequest h b r.index w) false
  have placed := placeRetireDrive_unplaced mark
  rw [request, claim] at placed
  rw [hostRetire_eq, placed]
  exact ⟨rfl, by rw [slot_modifySlot]⟩

/-! ### Retire Drives to addresses that are gone (R87) -/

/-- The mark of a retire Drive once addresses are gone. -/
def RetireDrive.withoutAddresses (gone : Addr → Bool) : RetireDrive → RetireDrive
  | .unplaced b i w => if gone b then .none else .unplaced b i w
  | .awaiting b i w => if gone b then .none else .awaiting b i w
  | x => x

theorem dropRetireDrivesTo_slot (s : State) (gone : Addr → Bool) (h : Handle) :
    (s.dropRetireDrivesTo gone).slot h
      = { s.slot h with retireDrive := (s.slot h).retireDrive.withoutAddresses gone } := by
  refine foldl_allHandles_slot (g := fun x : Slot => { x with retireDrive := x.retireDrive.withoutAddresses gone })
    (fun u k => ?_) s h
  have stays : ∀ x, (u.slot k).retireDrive = x → x.withoutAddresses gone = x →
      u = u.setSlot k { u.slot k with retireDrive := x.withoutAddresses gone } := by
    rintro x rfl same
    rw [same]
    exact (setSlot_slot u k).symm
  cases mark : (u.slot k).retireDrive with
  | unplaced b i w =>
    cases left : gone b with
    | true => simp only [RetireDrive.withoutAddresses, left, if_true]; rfl
    | false =>
      have kept : ¬ gone b = true := by rw [left]; decide
      exact (if_neg kept).trans (stays _ mark (if_neg kept))
  | awaiting b i w =>
    cases left : gone b with
    | true => simp only [RetireDrive.withoutAddresses, left, if_true]; rfl
    | false =>
      have kept : ¬ gone b = true := by rw [left]; decide
      exact (if_neg kept).trans (stays _ mark (if_neg kept))
  | none => exact stays _ mark rfl
  | placed => exact stays _ mark rfl

/-! ### The obligation -/

theorem taken_ntab {u : State} (quiet : u.engineQuiet) : u.taken.ntab = u.ntab := by
  obtain ⟨-, ntab, -⟩ := finish_quiet u true quiet
  unfold State.taken State.answer
  generalize u.finish true = t at ntab
  exact ntab

theorem taken_retiredRecord {u : State} {k : Handle} {r : Record} (record : u.record k = some r)
    (retired : r.state = .retired) : u.taken.record k = some r := by
  rw [State.record, slot_of_fdir (taken_fdir u)]
  exact finish_retiredRecord true record retired

/-- The retire Drive of a record: none for a SENSOR or a record without an address (R86). -/
theorem retireDrive_none {r : Record} (silent : r.retireWord = none ∨ r.address = none) : r.retireDrive = .none := by
  unfold Record.retireDrive
  split
  · next word address =>
    rw [word, address] at silent
    exact absurd silent (by simp)
  · rfl

theorem retireDrive_some {r : Record} {w : OutWord} {b : Addr} (word : r.retireWord = some w) (address : r.address = some b) :
    r.retireDrive = .unplaced b r.index w := by
  simp only [Record.retireDrive, word, address]

theorem exec_retire (a g : Byte) (s : State) : exec (.retire a g) s =
    runNamed s a g (fun _ r => if r.isRetired then some .badState else none) s.hostRetire := by rfl

/-- Settles O32: a retired record, its retire Drive, and the marks of retire Drives. -/
theorem retireEndsRecord : Obligations.RetireEndsRecord := by
  unfold Obligations.RetireEndsRecord
  intro marked
  have mark : ∀ x b i w, marked x b i w = x.retireMark b i w := by
    intro x b i w
    cases x <;> rfl
  simp only [mark]
  refine ⟨fun a g s h r awake named => ⟨fun retired => ?_, fun other => ?_⟩, fun s h r x live => ?_, fun s h => ⟨fun b i w unplaced => ?_,
    placeRetireDrive_other, rfl⟩, fun s gone h => ?_⟩
  · have refused : (if r.isRetired then some HostResult.badState else none) = some .badState := by
      rw [Record.isRetired, retired]
      rfl
    exact (exec_retire a g s).trans (runNamed_answers (check := fun _ r => if r.isRetired then some .badState else none)
      awake named refused)
  · obtain ⟨-, gen, record⟩ := named_iff.mp named
    have standing : (r.state == .retired) = false := beq_eq_false_iff_ne.mpr other
    have live : s.live h = some r := live_of record standing
    obtain ⟨kept, genKept⟩ := hostRetire_slot live
    obtain ⟨bue, ntab⟩ := hostRetire_engine live
    obtain ⟨-, gens, attention⟩ := taken_slots (s.hostRetire h r)
    refine ⟨(s.hostRetire h r).taken, ?_, taken_retiredRecord kept rfl, (gens h).trans genKept,
      attention.trans (hostRetire_attention s h r), ?_, fun quiet position => ?_, ?_⟩
    · have ok : (if r.isRetired then some HostResult.badState else none) = none := by
        rw [Record.isRetired, standing]
        rfl
      exact (exec_retire a g s).trans (runNamed_taken awake named ok)
    · rw [taken_fixed, Moves.fixed (hostRetire_moves (ad := false) .nil h r)]
    · have quiet : (s.hostRetire h r).engineQuiet := by
        unfold State.engineQuiet
        rwa [bue]
      rw [taken_ntab quiet, ntab, State.modifyNode, if_neg (Nat.pos_iff_ne_zero.mp position)]
      rfl
    · refine ⟨s.hostRetire h r, rfl, hostRetire_ended live, fun silent => hostRetire_silent live (retireDrive_none silent),
        fun w b word address => hostRetire_driven live (retireDrive_some word address)⟩
  · have retired := congrArg Slot.record (retireRecord_slot_same live x)
    exact ⟨retireRecord_ended live x, retireRecord_tdl s h x, _, retired, rfl, rfl⟩
  · exact placeRetireDrive_unplaced unplaced
  · rw [dropRetireDrivesTo_slot]
    cases (s.slot h).retireDrive <;> rfl

end Sys2Proof.Machine

namespace Sys2Proof.Machine

/-! ### The digest of a unit (R41, R213) -/

theorem digestFold_append (d : Half) (l : List Byte) (x : Byte) : digestFold d (l ++ [x]) = crc16Byte (digestFold d l) x := by
  unfold digestFold
  rw [List.foldl_append]
  rfl

theorem crc16Byte_eq (c : Half) (x : Byte) : crc16Byte c x =
    (List.range 8).foldl (fun (c : Half) _ => (c <<< 1) ^^^ if c.msb then 0x1021 else 0) (c ^^^ (x.setWidth 16 <<< 8)) := by
  have step : ∀ c : Half, crc16Step c = (c <<< 1) ^^^ if c.msb then 0x1021 else 0 := by
    intro c
    unfold crc16Step
    cases c.msb with
    | true => rfl
    | false => exact BitVec.xor_zero.symm
  unfold crc16Byte
  simp only [step]
  rfl

/-! ### A recatalogue's claims (R75, R83, R160) -/

theorem recatOutstanding_iff (s : State) : s.recatOutstanding = true ↔ ∃ a i, .describe a i true ∈ s.tdl.urgent
    ∨ .describe a i true ∈ s.tdl.routine ∨ ∃ f, s.tdl.inFlight = some f ∧ f.req = .describe a i true := by
  unfold State.recatOutstanding
  rw [queued_iff]
  constructor
  · rintro ⟨r, hr, place⟩
    split at hr
    · next a i recat =>
      subst hr
      exact ⟨a, i, place⟩
    · cases hr
  · rintro ⟨a, i, place⟩
    exact ⟨_, rfl, place⟩

theorem State.Reads.gen {s t : State} {done : Handle → Prop} (k : s.Reads t done) (h : Handle) :
    (t.slot h).gen = (s.slot h).gen := by
  by_cases read : (∃ r, s.live h = some r ∧ r.state = .provisional ∧ r.cls ≠ .lamp) ∧ done h
  · obtain ⟨⟨r, live, provisional, device⟩, reached⟩ := read
    rw [(k.read h r live provisional device reached).1]
  · rw [k.other h (by
      by_contra out
      push Not at out
      exact read ⟨out.1, out.2⟩)]

/-- One pair more has claimed; a pair with another generation claims nothing (R74). -/
theorem State.Reads.pair {s t : State} {done : Handle → Prop} (k : s.Reads t done) (x : Handle × Byte) :
    s.Reads (t.claim x.1 x.2 Record.catalogueRead) fun h => done h ∨ (h, (s.slot h).gen) = x := by
  have gen := k.gen x.1
  by_cases same : (s.slot x.1).gen = x.2
  · have claims : t.claim x.1 x.2 Record.catalogueRead = t.readOne x.1 := by
      unfold State.readOne
      rw [gen, same]
    have reached : ∀ h, (h, (s.slot h).gen) = x ↔ h = x.1 := fun h => by
      refine ⟨fun e => congrArg Prod.fst e, fun e => ?_⟩
      rw [e, same]
    simp only [reached, claims]
    exact k.one x.1
  · have claims : t.claim x.1 x.2 Record.catalogueRead = t := by
      unfold State.claim State.livePair
      rw [gen, beq_eq_false_iff_ne.mpr same]
      rfl
    have reached : ∀ h, (h, (s.slot h).gen) ≠ x := fun h e => same (by rw [← e])
    simp only [claims, reached, or_false]
    exact k

theorem foldl_catalogueRead {s : State} (l : List (Handle × Byte)) {t : State} {done : Handle → Prop} (k : s.Reads t done) :
    s.Reads (l.foldl (fun u x => u.claim x.1 x.2 Record.catalogueRead) t) fun h => done h ∨ (h, (s.slot h).gen) ∈ l := by
  induction l generalizing t done with
  | nil => simpa using k
  | cons x l ih =>
    have all := ih (k.pair x)
    simp only [or_assoc] at all
    simpa [List.foldl_cons] using all

/-- The records that a recatalogue has admitted are read at its end (R83). -/
theorem endRecat_reads {s : State} {c : Recatalogue} (recat : s.fdir.recat = some c) :
    (s.setRecat none).Reads s.endRecat fun h => (h, (s.slot h).gen) ∈ c.taken := by
  have all := foldl_catalogueRead c.taken (State.Reads.refl (s.setRecat none))
  simp only [false_or] at all
  unfold State.endRecat
  rw [recat]
  exact all

/-- A record that is read, and its confirm entry (R75, R160). -/
theorem State.Reads.created {s t : State} {done : Handle → Prop} (k : s.Reads t done) {h : Handle} {r : Record}
    (live : s.live h = some r) (provisional : r.state = .provisional) (device : r.cls ≠ .lamp) (reached : done h) :
    t.record h = some r.afterRead ∧ s.confirmCreated t h r := by
  obtain ⟨slot, -⟩ := k.read h r live provisional device reached
  unfold State.confirmCreated
  rw [State.record, slot]
  exact ⟨rfl, rfl, rfl, rfl⟩

theorem endRecat_created {s : State} {c : Recatalogue} (recat : s.fdir.recat = some c) {h : Handle} {g : Byte} {r : Record}
    (member : (h, g) ∈ c.taken) (named : s.livePair h g = some r) (provisional : r.state = .provisional)
    (device : r.cls ≠ .lamp) : s.endRecat.record h = some r.afterRead ∧ s.confirmCreated s.endRecat h r := by
  obtain ⟨gen, live⟩ := livePair_eq.mp named
  exact (endRecat_reads recat).created (r := r) live provisional device (gen ▸ member)

theorem endRecat_other {s : State} {c : Recatalogue} (recat : s.fdir.recat = some c) {h : Handle} {r : Record}
    (live : s.live h = some r) (other : (∀ g, (h, g) ∉ c.taken) ∨ r.state ≠ .provisional ∨ r.cls = .lamp) :
    s.endRecat.record h = some r := by
  have slot : s.endRecat.slot h = s.slot h := by
    refine (endRecat_reads recat).other h ?_
    rcases other with out | state | lamp
    · exact .inr (out _)
    all_goals
      left
      intro q hq both
      obtain rfl : q = r := Option.some.inj (hq.symm.trans live)
    · exact state both.1
    · exact both.2 lamp
  exact (congrArg Slot.record slot).trans (live_record live)

/-! ### The outcomes of a recatalogue's Describe (R82, R83) -/

theorem admitEntry_recat (s : State) (p : Nat) (i : FnIndex) (e : CatEntry) :
    (s.admitEntry p i e).1.fdir.recat = s.fdir.recat := by
  cases free : s.freeSlot with
  | none => simp only [State.admitEntry, free]
  | some h =>
    cases node : s.nodeAt p with
    | none => simp only [State.admitEntry, free, node]
    | some n =>
      obtain ⟨l, b, x, same⟩ := rewant_same (s.enrolled h p (s.newRecord n p i e)) h
      rw [admitEntry_free free node, same]
      rfl

/-- The recatalogue once an index has had a reply (R82). -/
def State.answered (u : State) (c : Recatalogue) (x : List (Handle × Byte)) : State :=
  { u with fdir := { u.fdir with recat := some { c with indices := c.indices.tail, taken := c.taken ++ x } } }

theorem recatDrop_eq {u : State} {c : Recatalogue} (recat : u.fdir.recat = some c) (x : List (Handle × Byte)) :
    u.recatDrop x = u.answered c x := by
  unfold State.recatDrop
  rw [recat]
  rfl

theorem modifyNode_recat (s : State) (p : Nat) (f : NodeEntry → NodeEntry) :
    (s.modifyNode p f).fdir.recat = s.fdir.recat := by
  obtain ⟨-, -, -, -, directory, -⟩ := modifyNode_same s p f
  rw [directory]

section
variable {s : State} {c : Recatalogue}

theorem recatOutcome_ok (recat : s.fdir.recat = some c) (i : FnIndex) (pl : List Byte) (e : Nat) :
    s.recatOutcome i (.replied .ok pl e) = (s.recatEntry c.position i pl).afterRecat := by
  unfold State.recatOutcome
  rw [recat]

theorem recatOutcome_invalid (recat : s.fdir.recat = some c) (i : FnIndex) {pl : List Byte} (invalid : parseEntry pl = none)
    (e : Nat) : s.recatOutcome i (.replied .ok pl e) = (s.answered c []).afterRecat := by
  rw [recatOutcome_ok recat, State.recatEntry, invalid]
  exact congrArg State.afterRecat (recatDrop_eq recat [])

theorem recatOutcome_status (recat : s.fdir.recat = some c) (i : FnIndex) {st : ReplyStatus} (bad : st ≠ .ok)
    (pl : List Byte) (e : Nat) : s.recatOutcome i (.replied st pl e) = (s.answered c []).afterRecat := by
  rw [← recatDrop_eq recat]
  unfold State.recatOutcome
  rw [recat]
  cases st with
  | ok => exact absurd rfl bad
  | _ => rfl

theorem recatOutcome_full (recat : s.fdir.recat = some c) (i : FnIndex) {pl : List Byte} {x : CatEntry}
    (valid : parseEntry pl = some x) (full : ∀ h : Handle, (s.record h).isSome = true) (e : Nat) :
    s.recatOutcome i (.replied .ok pl e) = ((s.raise .dirFull).answered c []).afterRecat := by
  have raised : (s.raise .dirFull).fdir.recat = some c := recat
  rw [recatOutcome_ok recat, State.recatEntry, valid]
  simp only [admitEntry_full c.position i x full]
  exact congrArg State.afterRecat (recatDrop_eq raised [])

theorem recatOutcome_admitted (recat : s.fdir.recat = some c) (i : FnIndex) {pl : List Byte} {x : CatEntry} {u : State}
    {pair : Handle × Byte} (valid : parseEntry pl = some x) (admits : s.admitEntry c.position i x = (u, some pair)) (e : Nat) :
    s.recatOutcome i (.replied .ok pl e) = ((u.modifyNode c.position NodeEntry.lessUnadmitted).answered c [pair]).afterRecat := by
  have kept : (u.modifyNode c.position NodeEntry.lessUnadmitted).fdir.recat = some c := by
    have same := admitEntry_recat s c.position i x
    rw [admits] at same
    rw [modifyNode_recat]
    exact same.trans recat
  rw [recatOutcome_ok recat, State.recatEntry, valid]
  simp only [admits]
  exact congrArg State.afterRecat (recatDrop_eq kept [pair])

theorem recatOutcome_failed (recat : s.fdir.recat = some c) (i : FnIndex) {o : ReqOutcome}
    (failed : o = .noReply ∨ o = .checkError ∨ o = .collision) : s.recatOutcome i o = s.afterRecat := by
  unfold State.recatOutcome
  rw [recat]
  rcases failed with rfl | rfl | rfl
  · rfl
  · rfl
  · rfl

theorem recatOutcome_abandoned (recat : s.fdir.recat = some c) (i : FnIndex) : s.recatOutcome i .abandoned = s.endRecat := by
  unfold State.recatOutcome
  rw [recat]

end

end Sys2Proof.Machine

namespace Sys2Proof.Machine

/-! ### What follows the outcome of a recatalogue's Describe (R82, R83) -/

/-- A request of the engine's placed, in the words of R31, in a state whose line is that of `s`. -/
theorem State.Places.routine {s u t : State} {r : WalkReq} (placed : u.Places r t) (line : u.tdl = s.tdl)
    (room : s.tdl.line ≠ .down ∧ s.routineEntries < 24) :
    t.tdl.routine = s.tdl.routine ++ [r.request] ∧ t.bue.request = .queued := by
  have entries : u.routineEntries = s.routineEntries := congrArg (fun x => x.routineOf fun _ => true) line
  obtain ⟨request, tdl⟩ := placed.taken (line ▸ room.1) (entries ▸ room.2)
  rw [tdl, line]
  exact ⟨rfl, request⟩

/-- The recatalogue, ended when its list is empty. -/
def State.recatChecked (s : State) (c : Recatalogue) : State := if c.indices = [] then s.endRecat else s

theorem afterRecat_eq {s : State} {c : Recatalogue} (recat : s.fdir.recat = some c) : s.afterRecat =
    if s.bue.deferred ≠ .none then s.recatChecked c
    else if s.bue.frontierHeld = true then
      ((s.recatChecked c).setBue { s.bue with frontierHeld := false }).placeBue .probe
    else (s.recatChecked c).recatNext := by
  have bue : (s.recatChecked c).bue = s.bue := by
    unfold State.recatChecked
    split
    · exact (endRecat_same s).1
    · rfl
  simp only [State.afterRecat, recat, List.isEmpty_iff]
  change (if (s.recatChecked c).bue.deferred != .none then s.recatChecked c
    else if (s.recatChecked c).bue.frontierHeld then
      ((s.recatChecked c).setBue { (s.recatChecked c).bue with frontierHeld := false }).placeBue .probe
    else (s.recatChecked c).recatNext) = _
  simp only [bue, bne_iff_ne]

theorem recatChecked_same {s : State} {c : Recatalogue} (recat : s.fdir.recat = some c) :
    (s.recatChecked c).tdl = s.tdl ∧ (s.recatChecked c).fdir.recat = if c.indices = [] then none else some c := by
  unfold State.recatChecked
  split
  · exact ⟨endRecat_tdl s, (endRecat_same s).2.2.1⟩
  · exact ⟨rfl, recat⟩

theorem recatNext_none {s : State} (recat : s.fdir.recat = none) : s.recatNext = s := by
  unfold State.recatNext
  rw [recat]

theorem recatNext_places {s : State} {c : Recatalogue} {j : FnIndex} {l : List FnIndex} (recat : s.fdir.recat = some c)
    (indices : c.indices = j :: l) : s.recatNext = s.placeBue (.describe c.address j true) := by
  unfold State.recatNext
  rw [recat]
  simp only [indices]

section
variable {s : State} {c : Recatalogue}

theorem afterRecat_deferred (recat : s.fdir.recat = some c) (deferred : s.bue.deferred ≠ .none) :
    s.afterRecat = if c.indices = [] then s.endRecat else s := by
  rw [afterRecat_eq recat, if_pos deferred]
  rfl

/-- A frontier Probe that was held goes first (R83). -/
theorem afterRecat_frontier (recat : s.fdir.recat = some c) (free : s.bue.deferred = .none)
    (held : s.bue.frontierHeld = true) : s.afterRecat.bue.frontierHeld = false
      ∧ s.afterRecat.fdir.recat = (if c.indices = [] then none else some c)
      ∧ (s.tdl.line ≠ .down ∧ s.routineEntries < 24 →
        s.afterRecat.tdl.routine = s.tdl.routine ++ [.probe] ∧ s.afterRecat.bue.request = .queued) := by
  obtain ⟨tdl, checked⟩ := recatChecked_same recat
  have places := placeBue_places ((s.recatChecked c).setBue { s.bue with frontierHeld := false }) .probe
  rw [afterRecat_eq recat, if_neg (not_not.mpr free), if_pos held]
  obtain ⟨q, bue⟩ := places.bue
  refine ⟨by rw [bue]; rfl, ?_, places.routine tdl⟩
  rw [places.rest.1]
  exact checked

theorem afterRecat_next (recat : s.fdir.recat = some c) (free : s.bue.deferred = .none)
    (held : s.bue.frontierHeld = false) : (c.indices = [] → s.afterRecat = s.endRecat)
      ∧ ∀ j l, c.indices = j :: l → s.afterRecat.fdir.recat = some c
        ∧ (s.tdl.line ≠ .down ∧ s.routineEntries < 24 →
          s.afterRecat.tdl.routine = s.tdl.routine ++ [.describe c.address j true] ∧ s.afterRecat.bue.request = .queued) := by
  have next : s.afterRecat = (s.recatChecked c).recatNext := by
    rw [afterRecat_eq recat, if_neg (not_not.mpr free), if_neg (by rw [held]; decide)]
  rw [next]
  refine ⟨fun empty => ?_, fun j l indices => ?_⟩
  · rw [State.recatChecked, if_pos empty]
    exact recatNext_none (endRecat_same s).2.2.1
  · rw [State.recatChecked, if_neg (by rw [indices]; exact List.cons_ne_nil j l), recatNext_places recat indices]
    have places := placeBue_places s (.describe c.address j true)
    exact ⟨by rw [places.rest.1]; exact recat, places.routine rfl⟩

end

/-- A departure ends the recatalogue (R83). -/
theorem depart_recat (s : State) (d : Departure) : (s.depart d).fdir.recat = none := by
  have ended : s.endRecat.fdir.recat = none := (endRecat_same s).2.2.1
  unfold State.depart
  cases d with
  | none => exact ended
  | toProbe => exact (enterProbe_kept _).recat.trans ended
  | toExtend =>
    dsimp only
    split
    · exact (congrArg Fdir.recat (placeExtend_bue _ true).2.2).trans ended
    · exact (enterProbe_kept _).recat.trans ended

/-! ### RECATALOGUE (R82) -/

theorem exec_recatalogue (p : Byte) (s : State) :
    exec (.recatalogue p) s = runCommand s (s.recatCheck p.toNat) (s.startRecat p.toNat) := by rfl

theorem recatalogue_refused {s : State} {p : Byte} (awake : s.portSilent = false) {x : HostResult}
    (refused : s.recatCheck p.toNat = some x) : exec (.recatalogue p) s = .next (s.answer (byte x.code)) := by
  rw [exec_recatalogue, refused, runCommand_answer awake]

theorem recatalogue_taken {s : State} {p : Byte} (awake : s.portSilent = false) (ok : s.recatCheck p.toNat = none) :
    exec (.recatalogue p) s = .next (s.startRecat p.toNat).taken := by
  rw [exec_recatalogue, ok, runCommand_taken awake]

section
variable {s : State} {p : Nat} {n : NodeEntry}

theorem recatCheck_outside (outside : ¬ (1 ≤ p ∧ p ≤ 12)) : s.recatCheck p = some .badValue := by
  unfold State.recatCheck
  rw [if_pos (by omega)]

theorem recatCheck_inside (lower : 1 ≤ p) (upper : p ≤ 12) : s.recatCheck p = match s.nodeAt p with
    | none => some .notFound
    | some n =>
        if n.state = .assigned ∨ n.state = .describing then some .badState
        else if ¬ (s.bue.state = .settled ∨ s.bue.state = .halted) ∨ s.fdir.recat ≠ none then some .busy
        else none := by
  unfold State.recatCheck
  rw [if_neg (by omega)]
  cases s.nodeAt p with
  | none => rfl
  | some n =>
    simp only [Bool.or_eq_true, beq_iff_eq, Bool.not_eq_true', ← Bool.not_eq_true, Option.isSome_iff_ne_none]
    by_cases state : s.bue.state = .settled ∨ s.bue.state = .halted <;> simp [state]

theorem mem_missingIndices (s : State) (p count : Nat) (i : FnIndex) :
    i ∈ s.missingIndices p count ↔ i.val < count ∧ s.recordOf p i = none := by
  unfold State.missingIndices
  simp

theorem missingIndices_sorted (s : State) (p count : Nat) : (s.missingIndices p count).Pairwise (fun i j => i < j) :=
  (List.pairwise_lt_finRange 16).filter _

/-- The recatalogue of the functions of a node without a live record. -/
def State.recatOf (s : State) (p : Nat) (n : NodeEntry) : Recatalogue :=
  { position := p, address := n.address, indices := s.missingIndices p n.count, taken := [] }

theorem startRecat_eq (node : s.nodeAt p = some n) : s.startRecat p =
    if s.missingIndices p n.count = [] then (s.setRecat (some (s.recatOf p n))).endRecat
    else if s.bue.request = .none then
      match s.missingIndices p n.count with
      | i :: _ => (s.setRecat (some (s.recatOf p n))).placeBue (.describe n.address i true)
      | [] => (s.setRecat (some (s.recatOf p n))).endRecat
    else s.setRecat (some (s.recatOf p n)) := by
  unfold State.startRecat
  rw [node]
  simp only [List.isEmpty_iff, beq_iff_eq]
  rfl

theorem startRecat_describes {i : FnIndex} {l : List FnIndex} (node : s.nodeAt p = some n)
    (missing : s.missingIndices p n.count = i :: l) (idle : s.bue.request = .none) (up : s.tdl.line ≠ .down)
    (room : s.routineEntries < 24) : (s.startRecat p).tdl.routine = s.tdl.routine ++ [.describe n.address i true] := by
  have places := placeBue_places (s.setRecat (some (s.recatOf p n))) (.describe n.address i true)
  rw [startRecat_eq node, if_neg (by rw [missing]; exact List.cons_ne_nil i l), if_pos idle, missing]
  exact (places.routine (s := s) rfl ⟨up, room⟩).1

/-- A recatalogue stands when there is something to ask for; the engine stays at rest (R82). -/
theorem startRecat_recat (node : s.nodeAt p = some n) (quiet : s.engineQuiet) : (s.startRecat p).engineQuiet
    ∧ (s.startRecat p).fdir.recat = if s.missingIndices p n.count = [] then none else some (s.recatOf p n) := by
  obtain ⟨bue, -, recat, -⟩ := endRecat_same (s.setRecat (some (s.recatOf p n)))
  rw [startRecat_eq node]
  cases missing : s.missingIndices p n.count with
  | nil =>
    rw [if_pos rfl, if_pos rfl]
    exact ⟨⟨(congrArg Bue.dropping bue).trans quiet.1, (congrArg Bue.deferred bue).trans quiet.2⟩, recat⟩
  | cons i l =>
    rw [if_neg (List.cons_ne_nil i l), if_neg (List.cons_ne_nil i l)]
    split
    · have places := placeBue_places (s.setRecat (some (s.recatOf p n))) (.describe n.address i true)
      obtain ⟨q, placed⟩ := places.bue
      exact ⟨⟨(congrArg Bue.dropping placed).trans quiet.1, (congrArg Bue.deferred placed).trans quiet.2⟩,
        congrArg Fdir.recat places.rest.1⟩
    · exact ⟨quiet, rfl⟩

end

end Sys2Proof.Machine

namespace Sys2Proof.Machine

/-! ### The outcome of an Extend (R35, R38, R43) -/

/-- The identity of a unit rests on the identities of the entries. -/
theorem unitIdentity_of_identities {s t : State}
    (same : t.ntab.nodes.map (·.identity) = s.ntab.nodes.map (·.identity)) : t.unitIdentity = s.unitIdentity := by
  have node : ∀ p, (t.nodeAt p).map (·.identity) = (s.nodeAt p).map (·.identity) := fun p => by
    unfold State.nodeAt
    split
    · rfl
    · rw [← List.getElem?_map, ← List.getElem?_map, same]
  funext u
  unfold State.unitIdentity
  rw [node]

theorem chainEnded_of_identities {s u t : State} {x : ChainEnd} (tdl : u.tdl = s.tdl) (units : u.bue.units = s.bue.units)
    (same : u.ntab.nodes.map (·.identity) = s.ntab.nodes.map (·.identity)) (now : u.now = s.now) (ktl : u.ktl = s.ktl)
    (h : u.chainEnded t x) : s.chainEnded t x := by
  have runs : u.lineRuns = s.lineRuns := by
    unfold State.lineRuns
    rw [tdl]
  have busy : u.nvBusy = s.nvBusy := by
    unfold State.nvBusy
    rw [ktl]
  have answer : ∀ m, (u.answerMatch m).2 = (s.answerMatch m).2 := answerMatch_outcome ktl
  unfold State.chainEnded at h ⊢
  simp only [tdl, units, now, runs, unitIdentity_of_identities same, busy, answer] at h
  exact h

/-- The gate of the node at an address, open or closed. -/
def NodeEntry.gated (a : Addr) (b : Bool) (n : NodeEntry) : NodeEntry :=
  if n.address = a then { n with gateOpen := b } else n

theorem setGate_eq {s : State} {n : NodeEntry} (kept : s.ntab.nodesKept) (last : s.ntab.nodes.getLast? = some n) (b : Bool) :
    s.setGate n.address b
      = { s with ntab := { s.ntab with nodes := s.ntab.nodes.map (NodeEntry.gated n.address b) } } := by
  obtain ⟨l, nodes⟩ := List.getLast?_eq_some_iff.mp last
  have distinct := kept.1
  rw [nodes, List.map_append, List.nodup_append] at distinct
  have new : ∀ m ∈ l, m.address ≠ n.address := fun m hm =>
    distinct.2.2 m.address (List.mem_map_of_mem hm) n.address (List.mem_singleton_self _)
  have others : l.map (NodeEntry.gated n.address b) = l := by
    refine (List.map_congr_left fun m hm => ?_).trans (List.map_id l)
    exact if_neg (new m hm)
  have moved : s.ntab.nodes.modify l.length (fun m => { m with gateOpen := b })
      = s.ntab.nodes.map (NodeEntry.gated n.address b) := by
    rw [nodes, modify_concat, List.map_append, others]
    exact congrArg (fun m => l ++ [m]) (if_pos rfl).symm
  unfold State.setGate
  rw [positionOf_last nodes new]
  change s.modifyNode (l.length + 1) _ = _
  rw [State.modifyNode, if_neg (Nat.succ_ne_zero _), Nat.add_sub_cancel, moved]

theorem gated_identity (a : Addr) (b : Bool) (n : NodeEntry) : (n.gated a b).identity = n.identity := by
  unfold NodeEntry.gated
  split <;> rfl

/-- What follows an Extend CLOSE: the chain ends for the limit that called for it (R35, R38). -/
theorem afterClose_ends (s : State) : s.afterClose.ntab = s.ntab
    ∧ (s.bue.errand = .closeForUnits → s.chainEnded s.afterClose .unitLimit ∧ s.afterClose.hcp.flags.getLsbD 5 = true)
    ∧ (s.bue.errand = .closeForWindow → s.chainEnded s.afterClose .windowLimit
      ∧ s.afterClose.hcp.flags.getLsbD 4 = true) := by
  have ends : ∀ f x, s.chainEnded ((s.raise f).endChain x) x ∧ ((s.raise f).endChain x).hcp.flags.getLsbD f.bit = true :=
    fun f x => by
      have moves : Moves (.more .walk) (s.raise f) ((s.raise f).endChain x) := endChain_moves .nil _
      exact ⟨chainEnded_of_same (u := s.raise f) rfl rfl rfl rfl rfl (endChain_ends _ _),
        flagsKept_bit moves.flags f.bit (raise_bit s f)⟩
  have kept : ∀ f x, ((s.raise f).endChain x).ntab = s.ntab := fun f x => (endChain_kept (s.raise f) x).ntab
  unfold State.afterClose State.endForWindow
  cases s.bue.errand with
  | closeForUnits => exact ⟨kept _ _, fun _ => ends .unitLimit .unitLimit, fun e => (by cases e)⟩
  | closeForWindow => exact ⟨kept _ _, fun e => (by cases e), fun _ => ends .chainFault .windowLimit⟩
  | _ => exact ⟨rfl, fun e => (by cases e), fun e => (by cases e)⟩

section
variable {s : State} {n : NodeEntry}

theorem extendOutcome_opened (kept : s.ntab.nodesKept) (last : s.ntab.nodes.getLast? = some n) (pl : List Byte) (e : Nat) :
    let t := s.extendOutcome n.address true (.replied .ok pl e)
    t.ntab.nodes = s.ntab.nodes.map (NodeEntry.gated n.address true)
      ∧ (s.ntab.nodes.length < 12 → t.bue.state = .probe
        ∧ (s.tdl.line ≠ .down ∧ s.routineEntries < 24 → t.tdl.routine = s.tdl.routine ++ [.probe])) := by
  have outcome : s.extendOutcome n.address true (.replied .ok pl e) = (s.setGate n.address true).enterProbe := rfl
  rw [outcome, setGate_eq kept last]
  refine ⟨congrArg Ntab.nodes (enterProbe_kept _).ntab, fun few => ?_⟩
  have few : (s.ntab.nodes.map (NodeEntry.gated n.address true)).length < 12 := by rwa [List.length_map]
  obtain ⟨-, walks⟩ := enterProbe_clauses
    { s with ntab := { s.ntab with nodes := s.ntab.nodes.map (NodeEntry.gated n.address true) } }
  obtain ⟨state, -, -, -, -, -, -, placed, -⟩ := walks few
  refine ⟨state, fun room => ?_⟩
  rw [(placed room.1 room.2).2]

theorem extendOutcome_closed (kept : s.ntab.nodesKept) (last : s.ntab.nodes.getLast? = some n) (pl : List Byte) (e : Nat) :
    let t := s.extendOutcome n.address false (.replied .ok pl e)
    t.ntab.nodes = s.ntab.nodes.map (NodeEntry.gated n.address false)
      ∧ (s.bue.errand = .closeForUnits → s.chainEnded t .unitLimit ∧ t.hcp.flags.getLsbD 5 = true)
      ∧ (s.bue.errand = .closeForWindow → s.chainEnded t .windowLimit ∧ t.hcp.flags.getLsbD 4 = true) := by
  have outcome : s.extendOutcome n.address false (.replied .ok pl e) = (s.setGate n.address false).afterClose := rfl
  rw [outcome, setGate_eq kept last]
  have same : (s.ntab.nodes.map (NodeEntry.gated n.address false)).map (·.identity) = s.ntab.nodes.map (·.identity) := by
    rw [List.map_map]
    exact List.map_congr_left fun m _ => gated_identity n.address false m
  generalize gate : ({ s with
    ntab := { s.ntab with nodes := s.ntab.nodes.map (NodeEntry.gated n.address false) } } : State) = u
  have nodes : u.ntab.nodes = s.ntab.nodes.map (NodeEntry.gated n.address false) := by rw [← gate]
  obtain ⟨ntab, units, window⟩ := afterClose_ends u
  have errands : u.bue.errand = s.bue.errand := by rw [← gate]
  have ended : ∀ {t x}, u.chainEnded t x → s.chainEnded t x := by
    refine fun k => chainEnded_of_identities ?_ ?_ (nodes ▸ same) ?_ ?_ k
    all_goals rw [← gate]
  exact ⟨(congrArg Ntab.nodes ntab).trans nodes, fun errand => (units (errands.trans errand)).imp_left ended,
    fun errand => (window (errands.trans errand)).imp_left ended⟩

theorem extendOutcome_status (s : State) (a : Addr) (opening : Bool) {st : ReplyStatus} (bad : st ≠ .ok) (pl : List Byte)
    (e : Nat) : s.extendOutcome a opening (.replied st pl e) = if opening then s.haltWith .gateRefused else s.afterClose := by
  cases st with
  | ok => exact absurd rfl bad
  | _ => rfl

theorem extendOutcome_failed (s : State) (a : Addr) (opening : Bool) {o : ReqOutcome}
    (failed : o = .noReply ∨ o = .checkError ∨ o = .collision) : s.extendOutcome a opening o = s.placeExtend opening := by
  rcases failed with rfl | rfl | rfl
  · rfl
  · rfl
  · rfl

end

end Sys2Proof.Machine

namespace Sys2Proof.Machine

/-! ### The functions that records stand for (R70, R71) -/

/-- Every record still stands for the function it was admitted for. -/
structure State.FunctionsKept (s t : State) : Prop where
  kept : ∀ k r, s.record k = some r →
    ∃ r', t.record k = some r' ∧ r'.entry = r.entry ∧ r'.index = r.index ∧ r'.position = r.position

theorem State.FunctionsKept.of_fdir {s t : State} (same : t.fdir = s.fdir) : s.FunctionsKept t :=
  ⟨fun k r record => ⟨r, (record_of_fdir same k).trans record, rfl, rfl, rfl⟩⟩

theorem State.FunctionsKept.trans {s t u : State} (first : s.FunctionsKept t) (second : t.FunctionsKept u) : s.FunctionsKept u := by
  refine ⟨fun k r record => ?_⟩
  obtain ⟨r', record, entry, index, position⟩ := first.kept k r record
  obtain ⟨r'', record, entry', index', position'⟩ := second.kept k r' record
  exact ⟨r'', record, entry'.trans entry, index'.trans index, position'.trans position⟩

/-- One record changes, and still stands for its function. -/
theorem State.FunctionsKept.of_slot {s t : State} {h : Handle} {r r' : Record} (live : s.live h = some r)
    (own : t.record h = some r') (apart : ∀ k, h ≠ k → t.slot k = s.slot k)
    (same : r'.entry = r.entry ∧ r'.index = r.index ∧ r'.position = r.position) : s.FunctionsKept t := by
  refine ⟨fun k q record => ?_⟩
  by_cases e : h = k
  · subst e
    obtain rfl := Option.some.inj ((live_record live).symm.trans record)
    exact ⟨r', own, same⟩
  · exact ⟨q, (congrArg Slot.record (apart k e)).trans record, rfl, rfl, rfl⟩

theorem changeTie_functionsKept (s : State) (h : Handle) (x : Option Src) : s.FunctionsKept (s.changeTie h x) := by
  cases live : s.live h with
  | none =>
    have stays : s.changeTie h x = s := by simp only [State.changeTie, live]
    rw [stays]
    exact .of_fdir rfl
  | some r =>
    by_cases same : r.tie = x
    · have stays : s.changeTie h x = s := by simp only [State.changeTie, live, if_pos same]
      rw [stays]
      exact .of_fdir rfl
    · obtain ⟨record, -⟩ := changeTie_record live same
      refine .of_slot live record (fun k apart => ?_) (by rw [retied_eq]; exact ⟨rfl, rfl, rfl⟩)
      obtain ⟨l, relisted⟩ := relisted_same s h r.tie x
      obtain ⟨_, _, _, rewanted⟩ := rewant_same ((s.relisted h r.tie x).setRecord h (r.retied x)) h
      rw [changeTie_eq live same, rewanted]
      refine (slot_setSlot_ne _ _ apart).trans ((setRecord_ne _ apart _).trans ?_)
      rw [relisted]
      rfl

theorem modifySlot_functionsKept (s : State) (h : Handle) {f : Slot → Slot} (keeps : ∀ x, (f x).record = x.record) :
    s.FunctionsKept (s.modifySlot h f) := by
  refine ⟨fun k r record => ?_⟩
  refine ⟨r, ?_, rfl, rfl, rfl⟩
  by_cases e : h = k
  · subst e
    rw [State.record, slot_modifySlot, keeps]
    exact record
  · rw [State.record, slot_modifySlot_ne s f e]
    exact record

theorem commit_functionsKept {s : State} {h : Handle} {r r' : Record} (live : s.live h = some r)
    (same : r'.entry = r.entry ∧ r'.index = r.index ∧ r'.position = r.position) : s.FunctionsKept (s.commit h r r') := by
  have set : s.FunctionsKept (s.setRecord h r') :=
    .of_slot live (setRecord_record ..) (fun k apart => setRecord_ne s apart r') same
  have joined : s.FunctionsKept (if r.state = r'.state ∧ r.fault = r'.fault then s.setRecord h r'
      else (s.setRecord h r').join h) := by
    split
    · exact set
    · exact set.trans (.of_fdir rfl)
  have confirmed : ∀ u : State, u.FunctionsKept (if r'.state.usable && !r.state.usable then u.createConfirm h r'
      else if r.state.usable && !r'.state.usable then u.removeConfirm h else u) := fun u => by
    split
    · exact modifySlot_functionsKept u h fun _ => rfl
    · split
      · exact modifySlot_functionsKept u h fun _ => rfl
      · exact .of_fdir rfl
  have reacted : ∀ (u : State) was, u.FunctionsKept (u.reactWithheld h r r' was) := fun u was => by
    refine ⟨fun k q record => ?_⟩
    obtain ⟨m, record⟩ := reactWithheld_record u h r r' was k record
    exact ⟨_, record, rfl, rfl, rfl⟩
  exact (joined.trans (confirmed _)).trans (reacted _ _)

/-- A claim whose change keeps the function. -/
theorem claim_functionsKept (s : State) (h : Handle) (gen : Byte) {f : Record → Option Record}
    (keeps : ∀ r r', f r = some r' → r'.entry = r.entry ∧ r'.index = r.index ∧ r'.position = r.position) :
    s.FunctionsKept (s.claim h gen f) := by
  unfold State.claim
  split
  · next r named =>
    split
    · next r' change => exact commit_functionsKept (livePair_live named) (keeps r r' change)
    · exact .of_fdir rfl
  · exact .of_fdir rfl

theorem returnToList_function (r r' : Record) (change : r.returnToList = some r') :
    r'.entry = r.entry ∧ r'.index = r.index ∧ r'.position = r.position := by
  unfold Record.returnToList at change
  split at change
  · cases change
    exact ⟨rfl, rfl, rfl⟩
  · cases change

theorem returnProof_functionsKept (s : State) (p : Proof) (toHead standing : Bool) :
    s.FunctionsKept (s.returnProof p toHead standing) :=
  (claim_functionsKept s p.handle p.gen returnToList_function).trans (.of_fdir rfl)

theorem leaveSteady_functionsKept (s : State) (p : Proof) : s.FunctionsKept (s.leaveSteady p) := by
  unfold State.leaveSteady
  split
  · exact .of_fdir rfl
  · exact returnProof_functionsKept ..

theorem watchSteady_functionsKept (s : State) (p : Proof) (b : Bool) : s.FunctionsKept (s.watchSteady p b) := by
  unfold State.watchSteady
  split
  · exact .of_fdir rfl
  · split
    · exact .of_fdir rfl
    · exact leaveSteady_functionsKept ..

theorem proofSourceCheck_functionsKept (s : State) : s.FunctionsKept s.proofSourceCheck := by
  unfold State.proofSourceCheck
  split
  · exact .of_fdir rfl
  · split
    · exact .of_fdir rfl
    · split
      · exact .of_fdir rfl
      · split
        · split
          · exact returnProof_functionsKept ..
          · exact .of_fdir rfl
        · exact .of_fdir rfl
        · exact watchSteady_functionsKept ..
        · exact watchSteady_functionsKept ..

theorem proofTieChanged_functionsKept (s : State) (h : Handle) : s.FunctionsKept (s.proofTieChanged h) := by
  unfold State.proofTieChanged
  split
  · exact .of_fdir rfl
  · split
    · split
      · split
        · split
          · exact returnProof_functionsKept ..
          · exact leaveSteady_functionsKept ..
        · exact leaveSteady_functionsKept ..
      · exact proofSourceCheck_functionsKept s
    · exact .of_fdir rfl

theorem applyHint_functionsKept (first unit : Nat) (s : State) (x : Hint) :
    s.FunctionsKept (State.applyHint first unit s x) := by
  unfold State.applyHint
  dsimp only
  split
  · split
    · split
      · exact ((changeTie_functionsKept ..).trans (proofTieChanged_functionsKept ..)).trans (.of_fdir rfl)
      · exact .of_fdir rfl
    · exact .of_fdir rfl
  · exact .of_fdir rfl

theorem answerMatch_functionsKept (s : State) (m : MatchReq) : s.FunctionsKept (s.answerMatch m).1 := by
  have hints : ∀ (l : List Hint) (u : State), u.FunctionsKept (l.foldl (State.applyHint m.first m.unit) u) := by
    intro l
    induction l with
    | nil => exact fun u => .of_fdir rfl
    | cons x l ih => exact fun u => (applyHint_functionsKept m.first m.unit u x).trans (ih _)
  have renewed : ∀ (u : State) i, u.FunctionsKept (u.renewStamp i) := fun u i => by
    unfold State.renewStamp
    split
    · exact .of_fdir rfl
    · exact .of_fdir rfl
  unfold State.answerMatch
  split
  · exact .of_fdir rfl
  · dsimp only
    split
    · exact (hints _ s).trans (renewed _ _)
    · exact .of_fdir rfl

theorem placeAssign_fdir (s : State) : s.placeAssign.fdir = s.fdir := by
  unfold State.placeAssign
  split
  · exact (placeBue_places _ _).rest.1
  · rfl

theorem matched_fdir (s : State) (n : Nat) (o : MatchOutcome) : (s.matched n o).fdir = s.fdir := by
  unfold State.matched
  dsimp only
  split
  · rfl
  · exact placeAssign_fdir _

theorem askMatch_functionsKept (s : State) (m : MatchReq) : s.FunctionsKept (s.askMatch m) := by
  unfold State.askMatch
  split
  · exact .of_fdir rfl
  · change s.FunctionsKept ((s.answerMatch m).1.matched m.unit (s.answerMatch m).2)
    exact (answerMatch_functionsKept s m).trans (.of_fdir (matched_fdir _ _ _))

/-- The end of a chain changes ties and claims, and no record's function (R44, R180). -/
theorem endChain_functionsKept (s : State) (x : ChainEnd) : s.FunctionsKept (s.endChain x) := by
  have asked : ∀ (u : State) m, u.fdir = s.fdir → s.FunctionsKept (u.askMatch m) := fun u m same =>
    (State.FunctionsKept.of_fdir same).trans (askMatch_functionsKept u m)
  unfold State.endChain State.goMatch
  split
  · split
    · exact asked _ _ rfl
    · exact .of_fdir rfl
  · exact .of_fdir rfl

/-- The end of a chain leaves every unit its digest. -/
theorem endChain_digest (s : State) (x : ChainEnd) (k : Nat) :
    ((s.endChain x).bue.units[k]?).map (·.digest) = (s.bue.units[k]?).map (·.digest) := by
  obtain ⟨f, units⟩ := (endChain_kept s x).units
  rw [units, List.getElem?_modify]
  cases s.bue.units[k]? with
  | none => simp
  | some u =>
    simp only [Option.map_eq_map, Option.map_some, Option.some.injEq]
    split <;> rfl

end Sys2Proof.Machine

namespace Sys2Proof.Machine

/-! ### The Describe that follows (R36, R39, R42) -/

theorem describeNext_places {s : State} {n : NodeEntry} {j : FnIndex} (last : s.ntab.nodes.getLast? = some n)
    (next : j.val = s.bue.nextIndex) (more : j.val < n.count) :
    s.describeNext = s.placeBue (.describe n.address j false) := by
  unfold State.describeNext
  rw [last]
  have room : s.bue.nextIndex < n.count ∧ s.bue.nextIndex < 16 := by
    rw [← next]
    exact ⟨more, j.isLt⟩
  refine (dif_pos room).trans ?_
  congr 2
  exact Fin.ext next.symm

theorem describeNext_done {s : State} {n : NodeEntry} (last : s.ntab.nodes.getLast? = some n)
    (done : ¬ (s.bue.nextIndex < n.count ∧ s.bue.nextIndex < 16)) : s.describeNext = s.catalogueDone := by
  unfold State.describeNext
  rw [last]
  exact dif_neg done

theorem catalogueRead_function (r r' : Record) (change : r.catalogueRead = some r') :
    r'.entry = r.entry ∧ r'.index = r.index ∧ r'.position = r.position := by
  rw [catalogueRead_eq] at change
  split at change
  · cases change
    exact ⟨rfl, rfl, rfl⟩
  · cases change

theorem recordsRead_functionsKept (s : State) (p : Nat) : s.FunctionsKept (s.recordsRead p) := by
  have reads : ∀ (l : List Handle) (u : State), u.FunctionsKept (l.foldl State.readOne u) := by
    intro l
    induction l with
    | nil => exact fun u => .of_fdir rfl
    | cons h l ih => exact fun u => (claim_functionsKept u h _ catalogueRead_function).trans (ih _)
  exact reads _ s

theorem catalogueIn_functionsKept (s : State) : s.FunctionsKept s.catalogueIn := by
  unfold State.catalogueIn
  obtain ⟨-, -, -, -, directory, -⟩ := modifyNode_same s s.ntab.nodes.length (NodeEntry.catalogued
    ((s.bue.units[s.unitOf s.ntab.nodes.length - 1]?.map (·.digest)).getD digestStart))
  exact ((State.FunctionsKept.of_fdir directory).trans (recordsRead_functionsKept _ _)).trans
    (.of_fdir (chainChanged_same _).1)

theorem catalogueDone_functionsKept (s : State) : s.FunctionsKept s.catalogueDone := by
  rw [catalogueDone_eq]
  split
  · exact (catalogueIn_functionsKept s).trans (endChain_functionsKept _ _)
  · exact (catalogueIn_functionsKept s).trans (.of_fdir (placeExtend_bue _ true).2.2)

theorem describeNext_functionsKept (s : State) : s.FunctionsKept s.describeNext := by
  unfold State.describeNext
  split
  · split
    · exact .of_fdir (placeBue_places _ _).rest.1
    · exact catalogueDone_functionsKept s
  · exact .of_fdir rfl

/-- The Node Table once a catalogue has been read: the last entry is LIVE with the digest of its unit (R42). -/
theorem catalogueIn_nodes {s : State} {l : List NodeEntry} {n : NodeEntry} (nodes : s.ntab.nodes = l ++ [n]) :
    s.catalogueIn.ntab.nodes
      = l ++ [n.catalogued ((s.bue.units[n.unit - 1]?.map (·.digest)).getD digestStart)] := by
  have length : s.ntab.nodes.length = l.length + 1 := by rw [nodes, List.length_append]; rfl
  have unit : s.unitOf s.ntab.nodes.length = n.unit := by
    have node : s.nodeAt (l.length + 1) = some n := nodeAt_eq_some.mpr ⟨Nat.succ_ne_zero _, by rw [nodes]; simp⟩
    rw [length, State.unitOf, node]
    rfl
  unfold State.catalogueIn
  rw [unit, modifyNode_last, length, Nat.add_sub_cancel, nodes, modify_concat]
  generalize ((s.bue.units[n.unit - 1]?.map (·.digest)).getD digestStart) = d
  obtain ⟨-, -, -, -, ntab⟩ := chainChanged_same
    (({ s with ntab := { s.ntab with nodes := l ++ [n.catalogued d] } } : State).recordsRead (l.length + 1))
  rw [ntab, (recordsRead_reads _ _).rest.2.2.2.1]

theorem catalogueIn_ktl (s : State) : s.catalogueIn.ktl = s.ktl := by
  have reads : ∀ (u : State) p, (u.recordsRead p).ktl = u.ktl := fun u p => by
    have moves : Moves .claim u (u.recordsRead p) :=
      foldl_moves (fun v (h : Handle) k => claim_moves k h (v.slot h).gen _ catalogueRead_keeps) _ _ .nil
    exact moves.claim.2.2.1
  have changed : ∀ u : State, u.chainChanged.ktl = u.ktl := fun u => by
    unfold State.chainChanged
    split <;> rfl
  unfold State.catalogueIn
  rw [changed, reads, modifyNode_last]

/-- A Describe placed moves one entry from ASSIGNED to DESCRIBING at most (R53). -/
theorem describePlaced_nodes (s : State) (r : WalkReq) :
    ∃ k f, (f = id ∨ f = NodeEntry.describing) ∧ (s.describePlaced r).ntab.nodes = s.ntab.nodes.modify k f := by
  have stays : ∃ k f, (f = id ∨ f = NodeEntry.describing) ∧ s.ntab.nodes = s.ntab.nodes.modify k f :=
    ⟨0, id, .inl rfl, (List.modify_id _ _).symm⟩
  unfold State.describePlaced State.modifyNode
  split
  · split
    · split
      · exact stays
      · exact ⟨_, _, .inr rfl, rfl⟩
    · exact stays
  · exact stays

theorem placeBue_nodes (s : State) (r : WalkReq) :
    ∃ k f, (f = id ∨ f = NodeEntry.describing) ∧ (s.placeBue r).ntab.nodes = s.ntab.nodes.modify k f := by
  have stays : ∃ k f, (f = id ∨ f = NodeEntry.describing) ∧ s.ntab.nodes = s.ntab.nodes.modify k f :=
    ⟨0, id, .inl rfl, (List.modify_id _ _).symm⟩
  by_cases down : s.tdl.line = .down
  · rw [placeBue_down s r down]
    exact stays
  · by_cases room : s.routineEntries < 24
    · rw [placeBue_taken s r down room]
      exact describePlaced_nodes _ r
    · rw [placeBue_full s r down room]
      exact stays

theorem describing_same (n : NodeEntry) : n.describing.address = n.address ∧ n.describing.admitted = n.admitted
    ∧ n.describing.unadmitted = n.unadmitted ∧ n.describing.gateOpen = n.gateOpen := by
  unfold NodeEntry.describing
  split <;> exact ⟨rfl, rfl, rfl, rfl⟩

/-- The last entry once a request of the engine's has been placed, its state apart. -/
theorem placeBue_last {s : State} {n : NodeEntry} (r : WalkReq) (last : s.ntab.nodes.getLast? = some n) :
    (s.placeBue r).ntab.nodes.length = s.ntab.nodes.length ∧ ∃ x, (s.placeBue r).ntab.nodes.getLast? = some x
      ∧ x.address = n.address ∧ x.admitted = n.admitted ∧ x.unadmitted = n.unadmitted ∧ x.gateOpen = n.gateOpen := by
  obtain ⟨k, f, form, nodes⟩ := placeBue_nodes s r
  have same : (f n).address = n.address ∧ (f n).admitted = n.admitted ∧ (f n).unadmitted = n.unadmitted
      ∧ (f n).gateOpen = n.gateOpen := by
    rcases form with rfl | rfl
    · exact ⟨rfl, rfl, rfl, rfl⟩
    · exact describing_same n
  rw [List.getLast?_eq_getElem?] at last
  rw [nodes, List.length_modify, List.getLast?_eq_getElem?, List.length_modify, List.getElem?_modify, last]
  refine ⟨rfl, ?_⟩
  by_cases here : k = s.ntab.nodes.length - 1
  · exact ⟨f n, by simp [here], same⟩
  · exact ⟨n, by simp [here], rfl, rfl, rfl, rfl⟩

end Sys2Proof.Machine

namespace Sys2Proof.Machine

/-! ### A Describe of the walk answered (R39 to R42, R81) -/

/-- `u` is `s` once an outcome has been counted in the last entry, now `n'`, and folded into its unit's digest, now `d`: the
live records stand as they stood. -/
structure State.Offered (s u : State) (n n' : NodeEntry) (d : Half) : Prop where
  nodes : ∃ l, s.ntab.nodes = l ++ [n] ∧ u.ntab.nodes = l ++ [n']
  node : n'.address = n.address ∧ n'.unit = n.unit ∧ n'.count = n.count ∧ n'.identity = n.identity
    ∧ n'.gateOpen = n.gateOpen
  bue : u.bue = { s.bue with units := s.bue.units.modify (n.unit - 1) fun v => { v with digest := d } }
  rest : u.now = s.now ∧ u.tdl = s.tdl ∧ u.ktl = s.ktl
  flag : u.hcp.flags.getLsbD 3 = s.hcp.flags.getLsbD 3
  slots : ∀ h, (s.live h).isSome = true → u.slot h = s.slot h

/-- The state with another digest of the unit `k`. -/
def State.folded (s : State) (k : Nat) (d : Half) : State :=
  { s with bue := { s.bue with units := s.bue.units.modify (k - 1) fun v => { v with digest := d } } }

theorem modify_of_getElem? {α : Type} {l : List α} {k : Nat} {a : α} (element : l[k]? = some a) {f g : α → α}
    (same : f a = g a) : l.modify k f = l.modify k g := by
  rw [List.modify_eq_set_getElem?, List.modify_eq_set_getElem?, element]
  simp only [Option.map_eq_map, Option.map_some, same]

theorem folded_same {s : State} {k : Nat} {u : UnitRec} (unit : s.bue.units[k - 1]? = some u) :
    s.folded k u.digest = s := by
  have units : s.bue.units.modify (k - 1) (fun v => { v with digest := u.digest }) = s.bue.units := by
    rw [modify_of_getElem? unit (f := fun v => { v with digest := u.digest }) (g := id) rfl]
    exact List.modify_id ..
  unfold State.folded
  rw [units]

theorem unitOf_last {s : State} {n : NodeEntry} (last : s.ntab.nodes.getLast? = some n) :
    s.nodeAt s.ntab.nodes.length = some n ∧ s.unitOf s.ntab.nodes.length = n.unit := by
  obtain ⟨l, nodes⟩ := List.getLast?_eq_some_iff.mp last
  have node : s.nodeAt s.ntab.nodes.length = some n :=
    nodeAt_eq_some.mpr ⟨by rw [nodes]; simp, by rw [nodes]; simp⟩
  refine ⟨node, ?_⟩
  rw [State.unitOf, node]
  rfl

section
variable {s : State} {n : NodeEntry} {u : UnitRec}

theorem fold_eq (last : s.ntab.nodes.getLast? = some n) (unit : s.bue.units[n.unit - 1]? = some u) (bytes : List Byte) :
    s.modifyUnit (s.unitOf s.ntab.nodes.length) (fun v => { v with digest := digestFold v.digest bytes })
      = s.folded n.unit (digestFold u.digest bytes) := by
  rw [(unitOf_last last).2]
  unfold State.modifyUnit State.folded
  rw [modify_of_getElem? unit (g := fun v => { v with digest := digestFold u.digest bytes }) rfl]
  rfl

/-- An index that is not admitted is counted unadmitted (R81). -/
theorem unadmitted_offered (last : s.ntab.nodes.getLast? = some n) (d : Half) :
    s.Offered ((s.folded n.unit d).modifyNode s.ntab.nodes.length NodeEntry.moreUnadmitted) n n.moreUnadmitted d := by
  obtain ⟨l, nodes⟩ := List.getLast?_eq_some_iff.mp last
  have counted : (s.folded n.unit d).modifyNode s.ntab.nodes.length NodeEntry.moreUnadmitted
      = { s.folded n.unit d with ntab := { s.ntab with nodes := l ++ [n.moreUnadmitted] } } := by
    have modified := modifyNode_last (s.folded n.unit d) NodeEntry.moreUnadmitted
    have length : (s.folded n.unit d).ntab.nodes.length - 1 = l.length := by
      change s.ntab.nodes.length - 1 = _
      rw [nodes, List.length_append]
      rfl
    rw [length] at modified
    refine modified.trans ?_
    change { s.folded n.unit d with ntab := { s.ntab with nodes := s.ntab.nodes.modify l.length NodeEntry.moreUnadmitted } } = _
    rw [nodes, modify_concat]
  rw [counted]
  exact ⟨⟨l, nodes, rfl⟩, ⟨rfl, rfl, rfl, rfl, rfl⟩, rfl, ⟨rfl, rfl, rfl⟩, rfl, fun _ _ => rfl⟩

theorem readEntry_invalid (last : s.ntab.nodes.getLast? = some n) (unit : s.bue.units[n.unit - 1]? = some u) (i : FnIndex)
    {bytes : List Byte} (invalid : parseEntry bytes = none) : s.readEntry i bytes
      = (s.folded n.unit (digestFold u.digest bytes)).modifyNode s.ntab.nodes.length NodeEntry.moreUnadmitted := by
  simp only [State.readEntry, invalid, fold_eq last unit]

theorem readEntry_full (last : s.ntab.nodes.getLast? = some n) (unit : s.bue.units[n.unit - 1]? = some u) (i : FnIndex)
    {bytes : List Byte} {x : CatEntry} (valid : parseEntry bytes = some x)
    (full : ∀ h : Handle, (s.record h).isSome = true) : s.readEntry i bytes
      = ((s.folded n.unit (digestFold u.digest bytes)).modifyNode s.ntab.nodes.length NodeEntry.moreUnadmitted).raise
          .dirFull := by
  have refused := admitEntry_full (s := s.folded n.unit (digestFold u.digest bytes)) s.ntab.nodes.length i x full
  simp only [State.readEntry, valid, fold_eq last unit, refused]

/-- The entry admitted into the slot `h` (R77). -/
def State.admittedAt (s : State) (h : Handle) (n : NodeEntry) (p : Nat) (i : FnIndex) (x : CatEntry) : State :=
  (s.enrolled h p (s.newRecord n p i x)).rewant h

theorem readEntry_admits (last : s.ntab.nodes.getLast? = some n) (unit : s.bue.units[n.unit - 1]? = some u) (i : FnIndex)
    {bytes : List Byte} {x : CatEntry} {h : Handle} (valid : parseEntry bytes = some x) (free : s.record h = none)
    (lowest : ∀ k, k < h → (s.record k).isSome = true) : s.readEntry i bytes
      = (s.folded n.unit (digestFold u.digest bytes)).admittedAt h n s.ntab.nodes.length i x := by
  have slot : (s.folded n.unit (digestFold u.digest bytes)).freeSlot = some h := freeSlot_eq_some.mpr ⟨free, lowest⟩
  have node : (s.folded n.unit (digestFold u.digest bytes)).nodeAt s.ntab.nodes.length = some n := (unitOf_last last).1
  have admits := admitEntry_free slot node i x
  simp only [State.readEntry, valid, fold_eq last unit, admits]
  rfl

theorem raise_flag3 (s : State) : (s.raise .dirFull).hcp.flags.getLsbD 3 = s.hcp.flags.getLsbD 3 := by
  unfold State.raise
  simp only [BitVec.getLsbD_or]
  have clear : (1#16 <<< Flag.dirFull.bit).getLsbD 3 = false := by decide
  rw [clear, Bool.or_false]

theorem State.Offered.raised {v : State} {n' : NodeEntry} {d : Half} (o : s.Offered v n n' d) :
    s.Offered (v.raise .dirFull) n n' d :=
  ⟨o.nodes, o.node, o.bue, o.rest, (raise_flag3 v).trans o.flag, o.slots⟩

/-- An entry admitted (R77, R81). -/
theorem admitted_offered (last : s.ntab.nodes.getLast? = some n) (d : Half) {h : Handle} (free : s.record h = none)
    (i : FnIndex) (x : CatEntry) :
    s.Offered ((s.folded n.unit d).admittedAt h n s.ntab.nodes.length i x) n { n with admitted := n.admitted + 1 } d := by
  obtain ⟨l, nodes⟩ := List.getLast?_eq_some_iff.mp last
  generalize record : (s.folded n.unit d).newRecord n s.ntab.nodes.length i x = r
  obtain ⟨-, -, ntab, -⟩ := admitted_same (s.folded n.unit d) h s.ntab.nodes.length r
  obtain ⟨a, b, y, same⟩ := rewant_same ((s.folded n.unit d).enrolled h s.ntab.nodes.length r) h
  unfold State.admittedAt
  rw [record]
  refine ⟨⟨l, nodes, ?_⟩, ⟨rfl, rfl, rfl, rfl, rfl⟩, ?_, ?_, ?_, fun k live => ?_⟩
  · have modified := modifyNode_last (s.folded n.unit d) fun n => { n with admitted := n.admitted + 1 }
    have length : (s.folded n.unit d).ntab.nodes.length - 1 = l.length := by
      change s.ntab.nodes.length - 1 = _
      rw [nodes, List.length_append]
      rfl
    rw [length] at modified
    have counted : ((s.folded n.unit d).modifyNode s.ntab.nodes.length fun n => { n with admitted := n.admitted + 1 }).ntab.nodes
        = s.ntab.nodes.modify l.length fun n => { n with admitted := n.admitted + 1 } :=
      congrArg (fun v : State => v.ntab.nodes) modified
    rw [ntab, counted, nodes, modify_concat]
  · rw [same]
    rfl
  · rw [same]
    exact ⟨rfl, rfl, rfl⟩
  · rw [same]
    rfl
  · have other : h ≠ k := by
      rintro rfl
      obtain ⟨q, live⟩ := Option.isSome_iff_exists.mp live
      rw [live_record live] at free
      cases free
    rw [same]
    exact (slot_setSlot_ne _ _ other).trans (slot_setSlot_ne s _ other)

end

end Sys2Proof.Machine

namespace Sys2Proof.Machine

/-! ### What a Describe of the walk brings about (R36, R39, R42) -/

/-- `t` is `s` once the outcome for an index has been counted in the last entry `n`, and the walk has gone on: with the next
index, or with the node LIVE and its catalogue read. -/
def State.entryRead (s t : State) (n : NodeEntry) (d : Half) (admitted unadmitted : Nat) (new : State → Prop) : Prop :=
  let room : Prop := s.tdl.line ≠ .down ∧ s.routineEntries < 24
  ∃ x, t.ntab.nodes.getLast? = some x ∧ t.ntab.nodes.length = s.ntab.nodes.length ∧ x.address = n.address
    ∧ x.admitted = admitted ∧ x.unadmitted = unadmitted ∧ x.gateOpen = n.gateOpen
    ∧ (n.count ≤ s.bue.nextIndex + 1 → x.state = .live ∧ x.endDigest = some d ∧ ∃ v : State,
      s.catalogueRead v s.ntab.nodes.length ∧ new v
      ∧ (s.ntab.nodes.length < 12 → t.bue.state = .extend ∧ t.fdir = v.fdir ∧ t.agenda = v.agenda ∧ t.hcp = v.hcp
        ∧ (room → t.tdl.routine = s.tdl.routine ++ [.extend n.address true]))
      ∧ (12 ≤ s.ntab.nodes.length → v.chainEnded t .nodeLimit ∧ v.tdl = s.tdl ∧ v.ktl = s.ktl
        ∧ v.bue.units = (s.bue.units.modify (n.unit - 1) fun u => { u with digest := d })
        ∧ ∀ u, v.unitIdentity u = s.unitIdentity u))
    ∧ ∀ j : FnIndex, j.val = s.bue.nextIndex + 1 → j.val < n.count → t.bue.nextIndex = j.val
      ∧ (room → t.tdl.routine = s.tdl.routine ++ [.describe n.address j false])

/-- The catalogue read of a state whose live records, flag and clock are those of `s` is that of `s`. -/
theorem catalogueRead_of_same {s u v : State} {p : Nat} (flag : u.hcp.flags.getLsbD 3 = s.hcp.flags.getLsbD 3)
    (once : u.bue.settledOnce = s.bue.settledOnce) (now : u.now = s.now) (line : u.tdl = s.tdl)
    (slots : ∀ h, (s.live h).isSome = true → u.slot h = s.slot h) (read : u.catalogueRead v p) : s.catalogueRead v p := by
  obtain ⟨bit, records⟩ := read
  have runs : u.lineRuns = s.lineRuns := by
    unfold State.lineRuns
    rw [line]
  refine ⟨by rw [bit, flag, once], fun h r live => ?_⟩
  have slot := slots h (by rw [live]; rfl)
  obtain ⟨taken, kept⟩ := records h r ((live_of_slot slot).trans live)
  refine ⟨fun position provisional device => ?_, fun out => (kept out).trans slot⟩
  obtain ⟨record, created, join⟩ := taken position provisional device
  unfold State.confirmCreated at created ⊢
  rw [runs, now, slot] at created
  exact ⟨record, created, join⟩

section
variable {s u : State} {n n' : NodeEntry} {d : Half}

/-- The state in which the walk goes on from an outcome counted. -/
def State.nextIndexed (u : State) : State := u.setBue { u.bue with nextIndex := u.bue.nextIndex + 1 }

/-- The catalogue of the node read after the outcome counted (R42). -/
theorem State.Offered.catalogued (o : s.Offered u n n' d) (unit : (s.bue.units[n.unit - 1]?).isSome = true) :
    let v := u.nextIndexed.catalogueIn
    (∃ l, s.ntab.nodes = l ++ [n] ∧ v.ntab.nodes = l ++ [n'.catalogued d]) ∧ u.catalogueRead v s.ntab.nodes.length
      ∧ s.catalogueRead v s.ntab.nodes.length ∧ v.tdl = s.tdl ∧ v.ktl = s.ktl
      ∧ v.bue.units = (s.bue.units.modify (n.unit - 1) fun u => { u with digest := d })
      ∧ v.unitIdentity = s.unitIdentity := by
  obtain ⟨⟨l, before, after⟩, ⟨address, same, count, identity, gate⟩, bue, ⟨now, line, list⟩, flag, slots⟩ := o
  have length : u.ntab.nodes.length = s.ntab.nodes.length := by rw [before, after, List.length_append, List.length_append]; rfl
  obtain ⟨read, tdl, engine, -⟩ := catalogueIn_reads u.nextIndexed
  have nodes := catalogueIn_nodes (s := u.nextIndexed) after
  have ktl := catalogueIn_ktl u.nextIndexed
  have units : u.nextIndexed.bue.units = s.bue.units.modify (n.unit - 1) fun u => { u with digest := d } :=
    congrArg Bue.units bue
  have digest : ((u.nextIndexed.bue.units[n'.unit - 1]?).map (·.digest)).getD digestStart = d := by
    obtain ⟨q, unit⟩ := Option.isSome_iff_exists.mp unit
    rw [units, same, List.getElem?_modify, unit]
    simp
  rw [digest] at nodes
  have read : u.catalogueRead u.nextIndexed.catalogueIn s.ntab.nodes.length := length ▸ read
  intro v
  refine ⟨⟨l, before, nodes⟩, read, catalogueRead_of_same flag ?_ now line slots read, tdl.trans line, ktl.trans list,
    (congrArg Bue.units engine).trans units, ?_⟩
  · rw [bue]
  · refine unitIdentity_of_identities ?_
    rw [nodes, before, List.map_append, List.map_append]
    exact congrArg (fun x => List.map (·.identity) l ++ [x]) identity

theorem State.Offered.last (o : s.Offered u n n' d) : u.nextIndexed.ntab.nodes.getLast? = some n'
    ∧ u.nextIndexed.ntab.nodes.length = s.ntab.nodes.length := by
  obtain ⟨⟨l, before, after⟩, -⟩ := o
  have nodes : u.nextIndexed.ntab.nodes = l ++ [n'] := after
  rw [nodes, before]
  exact ⟨List.getLast?_concat, by rw [List.length_append, List.length_append]; rfl⟩

theorem State.Offered.index (o : s.Offered u n n' d) : u.nextIndexed.bue.nextIndex = s.bue.nextIndex + 1 := by
  change u.bue.nextIndex + 1 = _
  rw [o.bue]

/-- With the last index read, the node is LIVE and its gate is opened, or the chain ends (R36, R42). -/
theorem State.Offered.finishes (o : s.Offered u n n' d) (unit : (s.bue.units[n.unit - 1]?).isSome = true)
    (done : ¬ (s.bue.nextIndex + 1 < n.count ∧ s.bue.nextIndex + 1 < 16)) {new : State → Prop}
    (claims : ∀ v, u.catalogueRead v s.ntab.nodes.length → new v) :
    s.entryRead u.nextDescribe n d n'.admitted n'.unadmitted new
      ∧ ((u.nextDescribe.bue.units[n.unit - 1]?).map (·.digest)) = some d := by
  obtain ⟨last, length⟩ := o.last
  obtain ⟨address, -, count, -, gate⟩ := o.node
  have spent : ¬ (u.nextIndexed.bue.nextIndex < n'.count ∧ u.nextIndexed.bue.nextIndex < 16) := by
    rwa [o.index, count]
  have next : u.nextDescribe = if 12 ≤ s.ntab.nodes.length then u.nextIndexed.catalogueIn.endChain .nodeLimit
      else u.nextIndexed.catalogueIn.enterExtend := by
    rw [← length, ← catalogueDone_eq]
    exact describeNext_done last spent
  obtain ⟨⟨l, before, nodes⟩, here, read, tdl, ktl, units, identity⟩ := o.catalogued unit
  generalize u.nextIndexed.catalogueIn = v at *
  have highest : v.ntab.nodes.getLast? = some (n'.catalogued d) := by rw [nodes, List.getLast?_concat]
  have entries : v.ntab.nodes.length = s.ntab.nodes.length := by rw [nodes, before, List.length_append, List.length_append]; rfl
  have folded : (v.bue.units[n.unit - 1]?).map (·.digest) = some d := by
    obtain ⟨q, unit⟩ := Option.isSome_iff_exists.mp unit
    rw [units, List.getElem?_modify, unit]
    simp
  have more : ∀ j : FnIndex, j.val = s.bue.nextIndex + 1 → ¬ j.val < n.count := fun j index less =>
    done ⟨index ▸ less, index ▸ j.isLt⟩
  by_cases twelfth : 12 ≤ s.ntab.nodes.length
  · rw [next, if_pos twelfth]
    have ntab := (endChain_kept v .nodeLimit).ntab
    refine ⟨⟨n'.catalogued d, by rw [ntab, highest], by rw [ntab, entries], address, rfl, rfl, gate,
      fun _ => ⟨rfl, rfl, v, read, claims v here, fun few => absurd twelfth (Nat.not_le.mpr few), fun _ => ?_⟩,
      fun j index less => absurd less (more j index)⟩, (endChain_digest v .nodeLimit _).trans folded⟩
    exact ⟨endChain_ends v .nodeLimit, tdl, ktl, units, fun w => congrFun identity w⟩
  · rw [next, if_neg twelfth]
    obtain ⟨state, -, sameUnits, ntab, fdir, agenda, hcp, placed⟩ := enterExtend_opens highest
    refine ⟨⟨n'.catalogued d, by rw [ntab, highest], by rw [ntab, entries], address, rfl, rfl, gate,
      fun _ => ⟨rfl, rfl, v, read, claims v here, fun _ => ⟨state, fdir, agenda, hcp, fun room => ?_⟩,
        fun full => absurd full twelfth⟩,
      fun j index less => absurd less (more j index)⟩, by rw [sameUnits, folded]⟩
    have counted : v.routineEntries = s.routineEntries := congrArg (fun t => t.routineOf fun _ => true) tdl
    rw [placed (tdl ▸ room.1) (counted ▸ room.2), tdl]
    exact congrArg (fun a => s.tdl.routine ++ [Request.extend a true]) address

/-- With an index left, the next Describe is placed (R39). -/
theorem State.Offered.continues (o : s.Offered u n n' d) (unit : (s.bue.units[n.unit - 1]?).isSome = true)
    (more : s.bue.nextIndex + 1 < n.count ∧ s.bue.nextIndex + 1 < 16) (new : State → Prop) :
    s.entryRead u.nextDescribe n d n'.admitted n'.unadmitted new
      ∧ ((u.nextDescribe.bue.units[n.unit - 1]?).map (·.digest)) = some d := by
  obtain ⟨last, length⟩ := o.last
  obtain ⟨address, -, count, -, gate⟩ := o.node
  have index := o.index
  have next : u.nextDescribe = u.nextIndexed.placeBue (.describe n'.address ⟨s.bue.nextIndex + 1, more.2⟩ false) :=
    describeNext_places last index.symm (by rw [count]; exact more.1)
  have places := placeBue_places u.nextIndexed (.describe n'.address ⟨s.bue.nextIndex + 1, more.2⟩ false)
  obtain ⟨entries, x, highest, sameAddress, admitted, unadmitted, sameGate⟩ :=
    placeBue_last (.describe n'.address ⟨s.bue.nextIndex + 1, more.2⟩ false) last
  obtain ⟨q, bue⟩ := places.bue
  rw [next]
  refine ⟨⟨x, highest, entries.trans length, sameAddress.trans address, admitted, unadmitted, sameGate.trans gate,
    fun few => absurd more.1 (Nat.not_lt.mpr few), fun j number less => ⟨?_, fun room => ?_⟩⟩, ?_⟩
  · rw [bue, number]
    exact index
  · have same : (⟨s.bue.nextIndex + 1, more.2⟩ : FnIndex) = j := Fin.ext number.symm
    rw [same, address] at places ⊢
    exact (places.routine o.rest.2.1 room).1
  · obtain ⟨r, unit⟩ := Option.isSome_iff_exists.mp unit
    have units : u.nextIndexed.bue.units = s.bue.units.modify (n.unit - 1) fun u => { u with digest := d } :=
      congrArg Bue.units o.bue
    rw [bue]
    change (u.nextIndexed.bue.units[n.unit - 1]?).map (·.digest) = some d
    rw [units, List.getElem?_modify, unit]
    simp

theorem State.Offered.entryRead (o : s.Offered u n n' d) (unit : (s.bue.units[n.unit - 1]?).isSome = true)
    {new : State → Prop} (claims : ∀ v, u.catalogueRead v s.ntab.nodes.length → new v) :
    ((u.nextDescribe.bue.units[n.unit - 1]?).map (·.digest)) = some d
      ∧ s.entryRead u.nextDescribe n d n'.admitted n'.unadmitted new := by
  by_cases more : s.bue.nextIndex + 1 < n.count ∧ s.bue.nextIndex + 1 < 16
  · exact (o.continues unit more new).symm
  · exact (o.finishes unit more claims).symm

end

end Sys2Proof.Machine

namespace Sys2Proof.Machine

/-! ### The outcomes of a Describe (R39, R41, R77, R81) -/

theorem nextDescribe_functionsKept (u : State) : u.FunctionsKept u.nextDescribe :=
  (State.FunctionsKept.of_fdir (s := u) (t := u.nextIndexed) rfl).trans (describeNext_functionsKept _)

theorem nextDescribe_flag {u : State} {k : Nat} (flag : u.hcp.flags.getLsbD k = true) :
    u.nextDescribe.hcp.flags.getLsbD k = true := by
  have moves : Moves (.more .walk) u u.nextDescribe := describeNext_moves (setBue_moves .nil _)
  exact flagsKept_bit moves.flags k flag

theorem admittedAt_slot (s : State) (h : Handle) (n : NodeEntry) (p : Nat) (i : FnIndex) (x : CatEntry) :
    (s.admittedAt h n p i x).slot h
      = { s.slot h with gen := nextGen (s.slot h).gen, record := some (s.admitted n p i x) } :=
  admitted_slot s h n p i x

theorem admittedAt_line (s : State) (h : Handle) (n : NodeEntry) (p : Nat) (i : FnIndex) (x : CatEntry) :
    (s.admittedAt h n p i x).now = s.now ∧ (s.admittedAt h n p i x).tdl = s.tdl := by
  obtain ⟨a, b, y, same⟩ := rewant_same (s.enrolled h p (s.newRecord n p i x)) h
  unfold State.admittedAt
  rw [same]
  exact ⟨rfl, rfl⟩

/-- A record admitted is read with its node's catalogue, unless it is a lamp's (R75, R80, R160). -/
theorem admittedAt_read {s v : State} {h : Handle} {n : NodeEntry} {p : Nat} {i : FnIndex} {x : CatEntry}
    (read : (s.admittedAt h n p i x).catalogueRead v p) : ∃ r, v.record h = some r ∧ r.entry = x
      ∧ (x.cls = .lamp → r.state = .provisional) ∧ (x.cls ≠ .lamp → r.state = .ready ∧ s.confirmCreated v h r) := by
  have slot := admittedAt_slot s h n p i x
  have live : (s.admittedAt h n p i x).live h = some (s.admitted n p i x) := live_of (congrArg Slot.record slot) rfl
  obtain ⟨taken, kept⟩ := read.2 h _ live
  by_cases lamp : x.cls = .lamp
  · have stays := (kept (.inr (.inr lamp))).trans slot
    exact ⟨_, congrArg Slot.record stays, rfl, fun _ => rfl, fun other => absurd lamp other⟩
  · obtain ⟨record, created, -⟩ := taken rfl rfl lamp
    obtain ⟨now, tdl⟩ := admittedAt_line s h n p i x
    have untied : (s.admitted n p i x).tie = none := admissionSource_other s lamp
    have runs : (s.admittedAt h n p i x).lineRuns = s.lineRuns := by
      unfold State.lineRuns
      rw [tdl]
    unfold State.confirmCreated at created
    rw [runs, now, slot] at created
    refine ⟨_, record, rfl, fun same => absurd same lamp, fun _ => ⟨?_, created⟩⟩
    simp only [untied]
    rfl

section
variable {s : State} {n : NodeEntry} {u : UnitRec} (i : FnIndex)

theorem describeOutcome_failed (s : State) {o : ReqOutcome} (failed : o = .noReply ∨ o = .checkError ∨ o = .collision) :
    s.describeOutcome i o = s.describeNext := by
  rcases failed with rfl | rfl | rfl
  · rfl
  · rfl
  · rfl

theorem describeOutcome_status (s : State) {st : ReplyStatus} (bad : st ≠ .ok) (pl : List Byte) (e : Nat) :
    s.describeOutcome i (.replied st pl e)
      = (s.modifyNode s.ntab.nodes.length NodeEntry.moreUnadmitted).nextDescribe := by
  cases st with
  | ok => exact absurd rfl bad
  | _ => rfl

theorem describeOutcome_ok (s : State) (pl : List Byte) (e : Nat) :
    s.describeOutcome i (.replied .ok pl e) = (s.readEntry i pl).nextDescribe := rfl

/-- An entry that is not valid (R81). -/
theorem describeOutcome_invalid (last : s.ntab.nodes.getLast? = some n) (unit : s.bue.units[n.unit - 1]? = some u)
    {pl : List Byte} (invalid : parseEntry pl = none) (e : Nat) :
    s.entryRead (s.describeOutcome i (.replied .ok pl e)) n (digestFold u.digest pl) n.admitted (n.unadmitted + 1)
      fun _ => True := by
  have offered := unadmitted_offered last (digestFold u.digest pl)
  rw [describeOutcome_ok, readEntry_invalid last unit i invalid]
  exact (offered.entryRead (by rw [unit]; rfl) fun _ _ => trivial).2

/-- A valid entry, with the directory full (R81). -/
theorem describeOutcome_full (last : s.ntab.nodes.getLast? = some n) (unit : s.bue.units[n.unit - 1]? = some u)
    {pl : List Byte} {x : CatEntry} (valid : parseEntry pl = some x) (full : ∀ h : Handle, (s.record h).isSome = true)
    (e : Nat) : s.entryRead (s.describeOutcome i (.replied .ok pl e)) n (digestFold u.digest pl) n.admitted
        (n.unadmitted + 1) (fun _ => True)
      ∧ (s.describeOutcome i (.replied .ok pl e)).hcp.flags.getLsbD 6 = true := by
  have offered := (unadmitted_offered last (digestFold u.digest pl)).raised
  rw [describeOutcome_ok, readEntry_full last unit i valid full]
  exact ⟨(offered.entryRead (by rw [unit]; rfl) fun _ _ => trivial).2, nextDescribe_flag (raise_bit _ .dirFull)⟩

/-- A valid entry, admitted into the lowest FREE slot (R77). -/
theorem describeOutcome_admitted (last : s.ntab.nodes.getLast? = some n) (unit : s.bue.units[n.unit - 1]? = some u)
    {pl : List Byte} {x : CatEntry} {h : Handle} (valid : parseEntry pl = some x) (free : s.record h = none)
    (lowest : ∀ k, k < h → (s.record k).isSome = true) (e : Nat) :
    let t := s.describeOutcome i (.replied .ok pl e)
    s.entryRead t n (digestFold u.digest pl) (n.admitted + 1) n.unadmitted (fun v => ∃ r, v.record h = some r
        ∧ r.entry = x ∧ (x.cls = .lamp → r.state = .provisional)
        ∧ (x.cls ≠ .lamp → r.state = .ready ∧ s.confirmCreated v h r))
      ∧ ∃ r, t.record h = some r ∧ r.entry = x ∧ r.index = i ∧ r.position = s.ntab.nodes.length := by
  have offered := admitted_offered last (digestFold u.digest pl) free i x
  have slot := admittedAt_slot (s.folded n.unit (digestFold u.digest pl)) h n s.ntab.nodes.length i x
  rw [describeOutcome_ok, readEntry_admits last unit i valid free lowest]
  refine ⟨(offered.entryRead (by rw [unit]; rfl) fun v read => ?_).2, ?_⟩
  · exact admittedAt_read (s := s.folded n.unit (digestFold u.digest pl)) read
  · obtain ⟨r, record, entry, index, position⟩ := (nextDescribe_functionsKept _).kept h _ (congrArg Slot.record slot)
    exact ⟨r, record, entry, index, position⟩

/-- Every entry answered is folded into its unit's digest (R41). -/
theorem describeOutcome_folds (last : s.ntab.nodes.getLast? = some n) (unit : s.bue.units[n.unit - 1]? = some u)
    (pl : List Byte) (e : Nat) :
    ((s.describeOutcome i (.replied .ok pl e)).bue.units[n.unit - 1]?).map (·.digest) = some (digestFold u.digest pl) := by
  have held : (s.bue.units[n.unit - 1]?).isSome = true := by rw [unit]; rfl
  have offered := unadmitted_offered last (digestFold u.digest pl)
  rw [describeOutcome_ok]
  cases valid : parseEntry pl with
  | none =>
    rw [readEntry_invalid last unit i valid]
    exact (offered.entryRead held fun _ _ => trivial).1
  | some x =>
    cases slot : s.freeSlot with
    | none =>
      rw [readEntry_full last unit i valid (freeSlot_eq_none.mp slot)]
      exact (offered.raised.entryRead held fun _ _ => trivial).1
    | some h =>
      obtain ⟨free, lowest⟩ := freeSlot_eq_some.mp slot
      rw [readEntry_admits last unit i valid free lowest]
      exact ((admitted_offered last (digestFold u.digest pl) free i x).entryRead held fun _ _ => trivial).1

/-- An index without a function is counted unadmitted, and folds nothing (R39, R41). -/
theorem describeOutcome_absent (last : s.ntab.nodes.getLast? = some n) (unit : s.bue.units[n.unit - 1]? = some u)
    {st : ReplyStatus} (bad : st ≠ .ok) (pl : List Byte) (e : Nat) :
    let t := s.describeOutcome i (.replied st pl e)
    (t.bue.units[n.unit - 1]?).map (·.digest) = some u.digest
      ∧ s.entryRead t n u.digest n.admitted (n.unadmitted + 1) fun _ => True := by
  have offered := unadmitted_offered last u.digest
  rw [folded_same unit] at offered
  rw [describeOutcome_status i s bad]
  exact offered.entryRead (by rw [unit]; rfl) fun _ _ => trivial

/-- A Describe that fails is placed again (R39). -/
theorem describeOutcome_again (last : s.ntab.nodes.getLast? = some n) (unit : s.bue.units[n.unit - 1]? = some u)
    {o : ReqOutcome} (failed : o = .noReply ∨ o = .checkError ∨ o = .collision) {j : FnIndex}
    (next : j.val = s.bue.nextIndex) (more : j.val < n.count) :
    let t := s.describeOutcome i o
    (t.bue.units[n.unit - 1]?).map (·.digest) = some u.digest ∧ t.bue.nextIndex = s.bue.nextIndex
      ∧ (s.tdl.line ≠ .down ∧ s.routineEntries < 24 →
        t.tdl.routine = s.tdl.routine ++ [.describe n.address j false]) := by
  have places := placeBue_places s (.describe n.address j false)
  obtain ⟨q, bue⟩ := places.bue
  rw [describeOutcome_failed i s failed, describeNext_places last next more]
  refine ⟨?_, by rw [bue], fun room => (places.routine rfl room).1⟩
  rw [bue]
  exact congrArg (Option.map (·.digest)) unit

end

end Sys2Proof.Machine

namespace Sys2Proof.Machine

/-! ### The clauses of RECATALOGUE and of Describe (R82, R83) -/

/-- What the checks of RECATALOGUE answer, in their order (R82). -/
theorem recatalogue_checks {s : State} {p : Byte} {n : NodeEntry} (awake : s.portSilent = false) (lower : 1 ≤ p.toNat)
    (upper : p.toNat ≤ 12) (node : s.nodeAt p.toNat = some n) :
    (n.state = .assigned ∨ n.state = .describing → exec (.recatalogue p) s = .next (s.answer 4))
    ∧ (n.state ≠ .assigned → n.state ≠ .describing →
      ((s.bue.state ≠ .settled ∧ s.bue.state ≠ .halted) ∨ s.fdir.recat ≠ none →
        exec (.recatalogue p) s = .next (s.answer 2))
      ∧ (s.bue.state = .settled ∨ s.bue.state = .halted → s.fdir.recat = none →
        exec (.recatalogue p) s = .next (s.startRecat p.toNat).taken)) := by
  have check := recatCheck_inside (s := s) lower upper
  simp only [node] at check
  refine ⟨fun unread => ?_, fun assigned describing => ⟨fun busy => ?_, fun rests free => ?_⟩⟩
  · rw [if_pos unread] at check
    exact recatalogue_refused awake check
  · rw [if_neg (not_or.mpr ⟨assigned, describing⟩), if_pos (busy.imp_left fun walks => not_or.mpr walks)] at check
    exact recatalogue_refused awake check
  · rw [if_neg (not_or.mpr ⟨assigned, describing⟩), if_neg (by
      rintro (walks | stands)
      · exact walks rests
      · exact stands free)] at check
    exact recatalogue_taken awake check

/-- RECATALOGUE (R82). -/
theorem recatalogue_clauses (p : Byte) (s : State) (awake : s.portSilent = false) :
    (¬ (1 ≤ p.toNat ∧ p.toNat ≤ 12) → exec (.recatalogue p) s = .next (s.answer 5))
    ∧ (1 ≤ p.toNat → p.toNat ≤ 12 → s.nodeAt p.toNat = none → exec (.recatalogue p) s = .next (s.answer 9)) := by
  refine ⟨fun outside => recatalogue_refused awake (recatCheck_outside outside), fun lower upper node => ?_⟩
  have check := recatCheck_inside (s := s) lower upper
  rw [node] at check
  exact recatalogue_refused awake check

/-- The recatalogue that RECATALOGUE leaves in an engine at rest (R82). -/
theorem recatalogue_stands {s : State} {p : Nat} {n : NodeEntry} (node : s.nodeAt p = some n) (quiet : s.engineQuiet) :
    (s.startRecat p).taken.fdir.recat = if s.missingIndices p n.count = [] then none else some (s.recatOf p n) := by
  obtain ⟨rests, recat⟩ := startRecat_recat node quiet
  exact (taken_quiet rests).2.1.trans recat

theorem bueOutcome_recat {s : State} (taken : s.bue.dropping = false) (a : Addr) (i : FnIndex) (o : ReqOutcome) :
    s.bueOutcome (.describe a i true) o = ({ s with bue := { s.bue with request := .none } } : State).recatOutcome i o :=
  bueOutcome_eq s _ o taken

/-- What a refusal of Extend brings about (R43). -/
theorem extendOutcome_refused {s : State} (a : Addr) (opening : Bool) {st : ReplyStatus} (bad : st ≠ .ok) (pl : List Byte)
    (e : Nat) : let t := s.extendOutcome a opening (.replied st pl e)
    t.ntab = s.ntab ∧ (opening = true → t.bue.state = .halted ∧ t.bue.halt = .gateRefused
        ∧ t.bue.haltPosition = s.ntab.nodes.length ∧ t.hcp.flags.getLsbD 4 = true)
      ∧ (opening = false →
        (s.bue.errand = .closeForUnits → s.chainEnded t .unitLimit ∧ t.hcp.flags.getLsbD 5 = true)
        ∧ (s.bue.errand = .closeForWindow → s.chainEnded t .windowLimit ∧ t.hcp.flags.getLsbD 4 = true)) := by
  rw [extendOutcome_status s a opening bad]
  cases opening with
  | true => exact ⟨rfl, fun _ => ⟨rfl, rfl, rfl, raise_bit _ .chainFault⟩, fun e => by cases e⟩
  | false =>
    obtain ⟨ntab, ended⟩ := afterClose_ends s
    exact ⟨ntab, fun e => (by cases e), fun _ => ended⟩

/-- Settles O38: the digest, the outcomes of Describe and Extend, and the recatalogue from RECATALOGUE to its end. -/
theorem recatalogueListsMissingFunctions : Obligations.RecatalogueListsMissingFunctions := by
  refine ⟨fun d => ⟨rfl, fun l x => ?_⟩, recatOutstanding_iff, fun s i n u last _ unit => ?walk,
    fun s a opening n kept last address => ?extend, fun s c a i recat => ?outcome, fun s c recat => ?next,
    fun s c recat => ?ended, fun s d => ?departs, fun p s awake => ?command⟩
  · rw [digestFold_append, crc16Byte_eq]
  case walk =>
    refine ⟨fun pl e => ⟨describeOutcome_folds i last unit pl e, fun invalid => describeOutcome_invalid i last unit invalid e,
      fun x valid full => describeOutcome_full i last unit valid full e,
      fun x h valid free lowest => describeOutcome_admitted i last unit valid free lowest e⟩,
      fun st pl e bad => describeOutcome_absent i last unit bad pl e,
      fun o j failed next more => describeOutcome_again i last unit failed next more⟩
  case extend =>
    subst address
    refine ⟨fun pl e => ?_, fun st pl e bad => extendOutcome_refused _ opening bad pl e, fun o failed room => ?_⟩
    · cases opening with
      | true =>
        obtain ⟨gate, walks⟩ := extendOutcome_opened kept last pl e
        exact ⟨gate, fun _ => walks, fun e => by cases e⟩
      | false =>
        obtain ⟨gate, ended⟩ := extendOutcome_closed kept last pl e
        exact ⟨gate, fun e => (by cases e), fun _ => ended⟩
    · rw [extendOutcome_failed s n.address opening failed]
      exact ((placeExtend_places last opening).routine rfl room).1
  case outcome =>
    exact ⟨fun taken o => bueOutcome_recat taken a i o, fun pl e invalid => recatOutcome_invalid recat i invalid e,
      fun st pl e bad => recatOutcome_status recat i bad pl e, fun pl e x valid full => recatOutcome_full recat i valid full e,
      fun pl e x u pair valid admits => recatOutcome_admitted recat i valid admits e,
      fun o failed => recatOutcome_failed recat i failed, recatOutcome_abandoned recat i⟩
  case next =>
    exact ⟨afterRecat_deferred recat, afterRecat_frontier recat, afterRecat_next recat⟩
  case ended =>
    exact ⟨(endRecat_same s).2.2.1, fun h g r member named provisional device =>
      endRecat_created recat member named provisional device, fun h r live other => endRecat_other recat live other⟩
  case departs =>
    exact ⟨fun outstanding => if_pos outstanding, fun idle => by rw [departOrDefer_at_once idle, depart_recat]⟩
  case command =>
    obtain ⟨outside, absent⟩ := recatalogue_clauses p s awake
    refine ⟨outside, fun lower upper => ⟨absent lower upper, fun n node => ?_⟩⟩
    obtain ⟨unread, checked⟩ := recatalogue_checks awake lower upper node
    refine ⟨unread, fun assigned describing => ?_⟩
    obtain ⟨busy, taken⟩ := checked assigned describing
    exact ⟨busy, fun rests free => ⟨taken rests free, mem_missingIndices s p.toNat n.count,
      missingIndices_sorted s p.toNat n.count, fun i l missing idle up room => startRecat_describes node missing idle up room,
      recatalogue_stands node⟩⟩

end Sys2Proof.Machine

namespace Sys2Proof.Machine

/-! ### Demanded and phased sources (R100) -/

theorem demanded_iff (s : State) (x : Src) : s.demanded x = true ↔
    if x = 10 then (s.source 2).active = true ∨ (s.source 3).active = true
    else if x = 11 then (s.source 2).active = true ∨ (s.source 4).active = true else (s.source x).active = true := by
  unfold State.demanded
  split
  · exact Bool.or_eq_true_iff
  · split
    · exact Bool.or_eq_true_iff
    · rfl

theorem phased_iff (s : State) (x : Src) : s.phased x = true ↔
    if x = 10 then (s.source 3).active = true else if x = 11 then (s.source 4).active = true
    else (s.source x).active = true ∧ (s.source x).form ≠ .steady := by
  unfold State.phased
  split
  · rfl
  · split
    · rfl
    · rw [Bool.and_eq_true, bne_iff_ne]

/-! ### A record takes new contents (R76, R128) -/

theorem setSlot_setSlot (s : State) (h : Handle) (x y : Slot) : (s.setSlot h x).setSlot h y = s.setSlot h y := by
  simp [State.setSlot]

/-- A record that changes its state: its slot, its join, and what withholding then brings about. -/
theorem commit_eq (s : State) (h : Handle) {old new : Record} (moved : old.state ≠ new.state) :
    s.commit h old new = ((s.setSlot h (Slot.committed s old new (s.slot h))).join h).reactWithheld h old new
      (s.withheld h old) := by
  have slot : ((s.setRecord h new).join h).slot h = { s.slot h with record := some new } := slot_setSlot ..
  have again : ∀ x, ((s.setRecord h new).join h).setSlot h x = (s.setSlot h x).join h := fun x =>
    congrArg (State.join · h) (setSlot_setSlot s h _ x)
  unfold State.commit Slot.committed
  simp only [moved, false_and, if_false]
  congr 1
  split
  · unfold State.createConfirm State.modifySlot
    rw [slot, again]
    rfl
  · split
    · unfold State.removeConfirm State.modifySlot
      rw [slot, again]
    · rfl

section
variable {u : State} {h : Handle} {old new : Record}

theorem overloadHeld_of_free (free : u.withheld h new = false) : new.overloadHeld = false :=
  (Bool.or_eq_false_iff.mp free).1

/-- A record that becomes withheld for overload has OFF or STOP entered (R128). -/
theorem reactWithheld_overload (held : new.overloadHeld = true) (before : old.overloadHeld = false)
    (unguarded : new.guard = none) (was : Bool) :
    u.reactWithheld h old new was = u.enter h new new.safeWord := by
  simp only [State.reactWithheld, held, before, unguarded, Bool.not_false, Bool.and_self, if_true]

/-- One that is withheld under a pulse proof has its entry removed as it becomes so (R128). -/
theorem reactWithheld_held (spared : new.overloadHeld = false) (held : u.withheld h new = true) (was : Bool) :
    u.reactWithheld h old new was = if was then u else u.removePend h := by
  simp only [State.reactWithheld, spared, held, Bool.false_and, Bool.false_eq_true, if_false, if_true]

/-- A record that was not withheld, and is not now, is left alone. -/
theorem reactWithheld_free (free : u.withheld h new = false) : u.reactWithheld h old new false = u := by
  simp only [State.reactWithheld, overloadHeld_of_free free, free, Bool.false_and, Bool.false_eq_true, if_false]

/-- One that is withheld no more has its output asked for, where there is one (R101). -/
theorem reactWithheld_released (free : u.withheld h new = false) {w : OutWord} (word : u.placeWord new = some w) :
    u.reactWithheld h old new true = u.asked h new w := by
  simp only [State.reactWithheld, State.asked, overloadHeld_of_free free, free, word, Bool.false_and, Bool.false_eq_true,
    if_false, if_true]

theorem reactWithheld_silent (free : u.withheld h new = false) (silent : u.placeWord new = none) :
    u.reactWithheld h old new true = u := by
  simp only [State.reactWithheld, overloadHeld_of_free free, free, silent, Bool.false_and, Bool.false_eq_true, if_false,
    if_true]

/-- Withholding changes the pending-drive set alone, and calls for a drain; a guard is told of an overload only. -/
theorem reactWithheld_pends (plain : new.overloadHeld = false ∨ old.overloadHeld = false ∧ new.guard = none) (was : Bool) :
    ∃ l b, u.reactWithheld h old new was
      = { u with drt := { u.drt with pend := l }, agenda := { u.agenda with drain := b } } := by
  cases held : new.overloadHeld with
  | true =>
    obtain ⟨before, unguarded⟩ := plain.resolve_left (by rw [held]; decide)
    rw [reactWithheld_overload held before unguarded, enter_eq]
    exact ⟨_, _, rfl⟩
  | false =>
    cases withheld : u.withheld h new with
    | true =>
      rw [reactWithheld_held held withheld]
      split
      · exact ⟨_, _, rfl⟩
      · exact ⟨_, _, rfl⟩
    | false =>
      cases was with
      | false => exact ⟨_, _, reactWithheld_free withheld⟩
      | true =>
        cases word : u.placeWord new with
        | none => exact ⟨_, _, reactWithheld_silent withheld word⟩
        | some w =>
          rw [reactWithheld_released withheld word]
          exact asked_eq u h new w

end

/-- A record that changes its state changes its slot, the joins and the pending-drive set, and nothing else. -/
theorem commit_pends (s : State) (h : Handle) {old new : Record} (moved : old.state ≠ new.state)
    (plain : new.overloadHeld = false ∨ old.overloadHeld = false ∧ new.guard = none) :
    ∃ l b, s.commit h old new = { s.setSlot h (Slot.committed s old new (s.slot h)) with
      drt := { s.drt with pend := l }, agenda := { s.agenda with joins := h :: s.agenda.joins, drain := b } } := by
  rw [commit_eq s h moved]
  obtain ⟨l, b, same⟩ := reactWithheld_pends (u := (s.setSlot h (Slot.committed s old new (s.slot h))).join h) (h := h) plain
    (s.withheld h old)
  exact ⟨l, b, same⟩

theorem claim_some {s : State} {h : Handle} {gen : Byte} {f : Record → Option Record} {r r' : Record}
    (pair : s.livePair h gen = some r) (defined : f r = some r') : s.claim h gen f = s.commit h r r' := by
  simp only [State.claim, pair, defined]

/-! ### PROVE (R113) -/

/-- A record put back for proof (R75, R113). -/
def Record.toProve (r : Record) : Record :=
  { r with state := .provisional, intended := r.tie, binding := none, fault := .none }

theorem lamp_of_entry {r : Record} {role : LampRole} {side : LampSide} {n low high unused : Byte}
    (entry : r.entry = .lamp role side n low high unused) : r.cls = .lamp := by
  rw [Record.cls, entry]
  rfl

theorem lamp_not_reversing {r : Record} (lamp : r.cls = .lamp) : r.entry.reversing = false := by
  unfold Record.cls at lamp
  cases entry : r.entry with
  | actuator =>
    rw [entry] at lamp
    cases lamp
  | _ => rfl

theorem lamp_restFault {r : Record} (lamp : r.cls = .lamp) : r.restFault = .none := by
  simp only [Record.restFault, lamp_not_reversing lamp, Bool.false_and, Bool.false_eq_true, if_false]

theorem putBack_eq (r : Record) : r.putBack =
    if r.cls = .lamp ∧ (r.state = .ready ∨ r.state = .bound ∨ r.state = .faulted) then some r.toProve else none := by
  unfold Record.putBack Record.isLamp
  simp only [beq_iff_eq]
  split
  · next lamp =>
    rw [lamp_restFault lamp.1]
    rfl
  · rfl

theorem exec_prove (a g : Byte) (s : State) : exec (.prove a g) s =
    runNamed s a g (fun _ r => if r.putBack.isSome then none else some .badState)
      (fun h _ => (s.claim h g Record.putBack).setProvingList ((s.claim h g Record.putBack).prv.list ++ [h])) := by rfl

theorem prove_refused {a g : Byte} {s : State} {h : Handle} {r : Record} (awake : s.portSilent = false)
    (named : s.named a g = some (h, r))
    (other : ¬ (r.cls = .lamp ∧ (r.state = .ready ∨ r.state = .bound ∨ r.state = .faulted))) :
    exec (.prove a g) s = .next (s.answer 4) := by
  have refused : (if r.putBack.isSome then none else some HostResult.badState) = some .badState := by
    rw [putBack_eq, if_neg other]
    rfl
  rw [exec_prove, runNamed_answers awake named refused]
  rfl

/-- The record that PROVE names is put back, and comes last on the Proving List (R113). -/
theorem prove_puts {a g : Byte} {s : State} {h : Handle} {r : Record} (awake : s.portSilent = false)
    (named : s.named a g = some (h, r)) (lamp : r.cls = .lamp)
    (state : r.state = .ready ∨ r.state = .bound ∨ r.state = .faulted) :
    ∃ u : State, exec (.prove a g) s = .next u.taken ∧ u.record h = some r.toProve ∧ u.prv.list = s.prv.list ++ [h]
      ∧ (u.slot h).confirm = none ∧ u.still = s.still := by
  obtain ⟨-, gen, record⟩ := named_iff.mp named
  have back : r.putBack = some r.toProve := by rw [putBack_eq, if_pos ⟨lamp, state⟩]
  have live : s.live h = some r := live_of record (by rcases state with e | e | e <;> rw [e] <;> rfl)
  have claimed := claim_some (livePair_eq.mpr ⟨gen, live⟩) back
  have usable : r.state.usable = true := by rcases state with e | e | e <;> rw [e] <;> rfl
  have moved : r.state ≠ r.toProve.state := fun same => by
    rw [same] at usable
    cases usable
  have slot : Slot.committed s r r.toProve (s.slot h)
      = { s.slot h with record := some r.toProve, confirm := none, sampleVoid := (s.slot h).sampleMark != .clear } := by
    unfold Slot.committed
    rw [usable]
    rfl
  obtain ⟨l, b, same⟩ := commit_pends s h moved (.inl rfl)
  have ok : (if r.putBack.isSome then none else some HostResult.badState) = none := by rw [back]; rfl
  refine ⟨_, (exec_prove a g s).trans (runNamed_taken awake named ok), ?_⟩
  refine ⟨?_, ?_, ?_, (setProvingList_moves (claim_moves (e := .claim) .nil h g _ putBack_keeps) _).still (.inl rfl)⟩
  · rw [claimed, same, slot]
    exact congrArg Slot.record (slot_setSlot s h _)
  · rw [claimed, same]
    rfl
  · rw [claimed, same, slot]
    exact congrArg Slot.confirm (slot_setSlot s h _)

/-! ### A proof's request is claimed (R102, R103, R104) -/

/-- The request of a proof (R102, R103). -/
def Proof.request (p : Proof) (a : Addr) (i : FnIndex) : Request :=
  match p.form with
  | .pulse => .prove a i
  | .steady => .sample .proving a i p.handle p.gen

section
variable {s : State} {p : Proof} {r : Record}

theorem claimProof_eq {a : Addr} (pair : s.livePair p.handle p.gen = some r) (address : r.address = some a) :
    s.claimProof p = (s.claimRoutine (p.request a r.index)).1.setProof (some { p with
      stage := .request, placed := (s.claimRoutine (p.request a r.index)).2 == .taken }) := by
  simp only [State.claimProof, State.proofRecord, pair, address]
  rfl

theorem claimProof_absent (pair : s.livePair p.handle p.gen = some r) (absent : r.address = none) : s.claimProof p = s := by
  simp only [State.claimProof, State.proofRecord, pair, absent]

theorem claimProof_taken {a : Addr} (pair : s.livePair p.handle p.gen = some r) (address : r.address = some a)
    (up : s.tdl.line ≠ .down) (room : s.routineEntries < 24) : s.claimProof p = { s with
      tdl := { s.tdl with routine := s.tdl.routine ++ [p.request a r.index] }
      prv := { s.prv with proof := some { p with stage := .request, placed := true } } } := by
  rw [claimProof_eq pair address, claimRoutine_eq, if_neg up, if_pos room]
  rfl

theorem claimProof_full {a : Addr} (pair : s.livePair p.handle p.gen = some r) (address : r.address = some a)
    (up : s.tdl.line ≠ .down) (full : 24 ≤ s.routineEntries) :
    s.claimProof p = s.setProof (some { p with stage := .request, placed := false }) := by
  rw [claimProof_eq pair address, claimRoutine_eq, if_neg up, if_neg (Nat.not_lt.mpr full)]
  rfl

theorem provingOccasion_eq (proof : s.prv.proof = some p) :
    s.provingOccasion = if p.stage = .request ∧ p.placed = false then s.claimProof p else s := by
  simp only [State.provingOccasion, proof, Bool.and_eq_true, beq_iff_eq, Bool.not_eq_true']

theorem proofOnStart_eq (proof : s.prv.proof = some p) (h : Handle) :
    s.proofOnStart h = if p.handle = h ∧ p.stage = .phaseWait then s.claimProof p else s := by
  simp only [State.proofOnStart, proof, Bool.and_eq_true, beq_iff_eq]

theorem lastPlaced_eq (r : Record) : r.lastPlaced = r.drive.bind (·.lastPlaced) := by
  unfold Record.lastPlaced
  cases r.drive <;> rfl

theorem proofWaits_drive (proof : s.prv.proof = some p) (pair : s.livePair p.handle p.gen = some r)
    (stage : p.stage = .driveWait) : s.proofWaits = if s.settled p.handle = true then s.claimProof p else s := by
  simp only [State.proofWaits, State.proofRecord, proof, pair, stage]

theorem proofWaits_phase (proof : s.prv.proof = some p) (pair : s.livePair p.handle p.gen = some r)
    (stage : p.stage = .phaseWait) {x : Src} (intended : r.intended = some x) : s.proofWaits =
      if s.demanded x = true ∧ s.phased x = false ∧ s.settled p.handle = true ∧ r.drive.bind (·.lastPlaced) = some .on
      then s.claimProof p else s := by
  simp only [State.proofWaits, State.proofRecord, proof, pair, stage, intended, lastPlaced_eq, Bool.and_eq_true,
    Bool.not_eq_true', beq_iff_eq, and_assoc]

theorem proofWaits_other (proof : s.prv.proof = some p) (pair : s.livePair p.handle p.gen = some r)
    (stage : p.stage = .request ∨ p.stage = .draining) : s.proofWaits = s := by
  rcases stage with stage | stage
  · simp only [State.proofWaits, State.proofRecord, proof, pair, stage]
  · simp only [State.proofWaits, State.proofRecord, proof, pair, stage]

end

/-- A claim changes the queue and the proof alone. -/
theorem claimProof_same (s : State) (p : Proof) : s.claimProof p = s ∨ ∃ x b, s.claimProof p = { s with
    tdl := x, prv := { s.prv with proof := some { p with stage := .request, placed := b } } } := by
  cases pair : s.livePair p.handle p.gen with
  | none =>
    left
    simp only [State.claimProof, State.proofRecord, pair]
  | some r =>
    cases address : r.address with
    | none => exact .inl (claimProof_absent pair address)
    | some a =>
      obtain ⟨x, line⟩ := claimRoutine_tdl s (p.request a r.index)
      rw [claimProof_eq pair address, line]
      exact .inr ⟨x, _, rfl⟩

/-! ### A proof begins (R99) -/

theorem beginProof_waits {s : State} (waits : s.prv.proof ≠ none ∨ s.prv.list = [] ∨ s.lineRuns = false
    ∨ ∀ h l, s.prv.list = h :: l → s.settled h = false) : s.beginProof = s := by
  unfold State.beginProof
  split
  · next h l proof list =>
    rcases waits with stands | empty | idle | unsettled
    · exact absurd proof stands
    · rw [list] at empty
      cases empty
    · rw [idle]
      rfl
    · rw [unsettled h l list, Bool.and_false]
      rfl
  · rfl

/-- The record once it is under proof (R75). -/
def Record.inProof (r : Record) : Record := { r with state := .proving }

/-- The record under proof waits for a phase of its source (R99). -/
def State.waitsPhase (s : State) (r : Record) : Bool := r.intended.any fun x => s.demanded x && s.phased x

/-- The proof that begins on a record (R99). -/
def State.newProof (s : State) (h : Handle) (r : Record) : Proof :=
  { handle := h, gen := (s.slot h).gen, form := if r.intended.any s.demanded then .steady else .pulse,
    stage := if s.waitsPhase r then .phaseWait else .request, placed := false, notOn := false, missed := 0,
    left := false, stopped := false }

section
variable {s : State} {h : Handle} {l : List Handle} {r : Record}

/-- The state in which a proof has begun, before its request is claimed. -/
def State.begun (s : State) (h : Handle) (l : List Handle) (r : Record) : State :=
  ((s.setProvingList l).setProof (some (s.newProof h r))).claim h (s.slot h).gen Record.beginProof

theorem beginProof_eq (empty : s.prv.proof = none) (list : s.prv.list = h :: l) (runs : s.lineRuns = true)
    (settled : s.settled h = true) (live : s.live h = some r) : s.beginProof =
      if s.waitsPhase r then s.begun h l r else (s.begun h l r).claimProof (s.newProof h r) := by
  unfold State.beginProof State.begun State.newProof State.waitsPhase
  simp only [empty, list, runs, settled, live, Bool.and_self, if_true]
  cases r.intended with
  | none => rfl
  | some x => rfl

/-- The record is PROVING and joins; the queue and the list are as the proof leaves them. -/
theorem begun_eq (live : s.live h = some r) (state : r.state = .provisional) (lamp : r.cls = .lamp) :
    ∃ d b, s.begun h l r = { s.setSlot h { s.slot h with record := some r.inProof } with
      drt := { s.drt with pend := d }, prv := { list := l, proof := some (s.newProof h r) }
      agenda := { s.agenda with joins := h :: s.agenda.joins, drain := b } } := by
  have begins : r.beginProof = some r.inProof := if_pos ⟨state, beq_iff_eq.mpr lamp⟩
  have pair : ((s.setProvingList l).setProof (some (s.newProof h r))).livePair h (s.slot h).gen = some r :=
    livePair_eq.mpr ⟨rfl, live⟩
  have moved : r.state ≠ r.inProof.state := fun same => by
    rw [state] at same
    cases same
  have spared : r.inProof.overloadHeld = false := Bool.and_false _
  have slot : Slot.committed ((s.setProvingList l).setProof (some (s.newProof h r))) r r.inProof (s.slot h)
      = { s.slot h with record := some r.inProof } := by
    unfold Slot.committed
    rw [state]
    rfl
  obtain ⟨d, b, same⟩ := commit_pends ((s.setProvingList l).setProof (some (s.newProof h r))) h moved (.inl spared)
  rw [← slot]
  exact ⟨d, b, (claim_some pair begins).trans same⟩

theorem begun_slot (live : s.live h = some r) (state : r.state = .provisional) (lamp : r.cls = .lamp) :
    (s.begun h l r).slot h = { s.slot h with record := some r.inProof } := by
  obtain ⟨d, b, same⟩ := begun_eq (l := l) live state lamp
  rw [same]
  exact slot_setSlot s h _

theorem begun_livePair (live : s.live h = some r) (state : r.state = .provisional) (lamp : r.cls = .lamp) :
    (s.begun h l r).livePair h (s.slot h).gen = some r.inProof := by
  have slot := begun_slot (l := l) live state lamp
  exact livePair_eq.mpr ⟨by rw [slot], live_of (congrArg Slot.record slot) rfl⟩

/-- The claim of the proof's request leaves the proof in REQUEST, placed or not. -/
theorem begun_claims (live : s.live h = some r) (state : r.state = .provisional) (lamp : r.cls = .lamp)
    (waits : s.waitsPhase r = false) : ∃ x b, (s.begun h l r).claimProof (s.newProof h r) = { s.begun h l r with
      tdl := x, prv := { list := l, proof := some { s.newProof h r with placed := b } } } := by
  obtain ⟨_, _, same⟩ := begun_eq (l := l) live state lamp
  have proving : (s.begun h l r).prv = { list := l, proof := some (s.newProof h r) } := by rw [same]
  have stage : (s.newProof h r).stage = .request := if_neg (by rw [waits]; decide)
  rcases claimProof_same (s.begun h l r) (s.newProof h r) with claims | ⟨x, b, claims⟩
  · rw [claims]
    exact ⟨(s.begun h l r).tdl, false, congrArg (fun y => { s.begun h l r with prv := y }) proving⟩
  · rw [proving, ← stage] at claims
    exact ⟨x, b, claims⟩

/-- The proof that begins: it waits for a phase, or its request is claimed (R99, R102, R103). -/
theorem beginProof_begins (empty : s.prv.proof = none) (list : s.prv.list = h :: l) (runs : s.lineRuns = true)
    (settled : s.settled h = true) (live : s.live h = some r) (state : r.state = .provisional) (lamp : r.cls = .lamp) :
    let t := s.beginProof
    t.record h = some r.inProof ∧ h ∈ t.agenda.joins ∧ t.prv.list = l
      ∧ ∃ p : Proof, t.prv.proof = some p ∧ p.handle = h ∧ p.gen = (s.slot h).gen
        ∧ p.form = (if r.intended.any s.demanded then .steady else .pulse)
        ∧ p.notOn = false ∧ p.missed = 0 ∧ p.left = false
        ∧ (s.waitsPhase r = true → p.stage = .phaseWait ∧ t.tdl = s.tdl)
        ∧ (s.waitsPhase r = false → p.stage = .request ∧ ∃ u : State, t = u.claimProof { p with placed := false }
          ∧ u.tdl = s.tdl ∧ u.livePair h p.gen = some r.inProof) := by
  intro t
  have begins : t = _ := beginProof_eq empty list runs settled live
  obtain ⟨d, b, same⟩ := begun_eq (l := l) live state lamp
  have record : (s.begun h l r).record h = some r.inProof := congrArg Slot.record (begun_slot live state lamp)
  have tdl : (s.begun h l r).tdl = s.tdl := by rw [same]; rfl
  have joins : h ∈ (s.begun h l r).agenda.joins := by rw [same]; exact List.mem_cons_self
  cases waits : s.waitsPhase r with
  | true =>
    rw [waits, if_pos rfl] at begins
    have proving : t.prv = { list := l, proof := some (s.newProof h r) } := by rw [begins, same]
    refine ⟨by rw [begins]; exact record, by rw [begins]; exact joins, by rw [proving], s.newProof h r, by rw [proving],
      rfl, rfl, rfl, rfl, rfl, rfl, fun _ => ⟨if_pos waits, by rw [begins]; exact tdl⟩, fun e => by cases e⟩
  | false =>
    rw [waits, if_neg Bool.false_ne_true] at begins
    obtain ⟨x, placed, claims⟩ := begun_claims (l := l) live state lamp waits
    rw [claims] at begins
    refine ⟨by rw [begins]; exact record, by rw [begins]; exact joins, by rw [begins],
      { s.newProof h r with placed := placed }, by rw [begins], rfl, rfl, rfl, rfl, rfl, rfl, fun e => (by cases e),
      fun _ => ⟨if_neg (by rw [waits]; decide), s.begun h l r, begins.trans claims.symm, tdl, begun_livePair live state lamp⟩⟩

end

/-! ### A record under proof takes new contents (R101, R105, R128) -/

/-- A lamp's record is under proof, and its proof has not been given up (R98). -/
structure State.Proves (s : State) (p : Proof) (r : Record) : Prop where
  proof : s.prv.proof = some p
  stands : p.stage ≠ .draining
  pair : s.livePair p.handle p.gen = some r
  proving : r.state = .proving
  unguarded : r.guard = none

/-- `l` is the pending-drive set of `s` once the record of the proof `p` has left PROVING with the contents `x`: OFF is entered
for an OVERLOAD, its own output is asked for after a pulse proof, and nothing after a steady one (R101, R128). -/
def State.asksAfter (s : State) (p : Proof) (x : Record) (l : List Pend) : Prop :=
  (x.overloadHeld = true → ∃ q ∈ l, q.handle = p.handle ∧ q.word = x.safeWord)
  ∧ (x.overloadHeld = false → p.form = .steady → l = s.drt.pend)
  ∧ (x.overloadHeld = false → p.form = .pulse → ∀ w, x.wanted = some w → s.pendAsked p.handle x w l)

/-- An output entered for a record stands in the set. -/
theorem entered_mem (s : State) (h : Handle) (r : Record) (w : OutWord) : ∃ q ∈ s.entered h r w, q.handle = h ∧ q.word = w := by
  unfold State.entered
  split
  · next holds =>
    obtain ⟨q, member, handle⟩ := List.any_eq_true.mp holds
    have handle : q.handle = h := beq_iff_eq.mp handle
    exact ⟨_, List.mem_map.mpr ⟨q, member, if_pos handle⟩, handle, rfl⟩
  · exact ⟨_, List.mem_append_right _ (List.mem_singleton_self _), rfl, rfl⟩

theorem withheld_of_state {s : State} {h : Handle} {r : Record} (state : r.state ≠ .proving) :
    s.withheld h r = r.overloadHeld := by
  unfold State.withheld State.pulseHeld
  rw [beq_eq_false_iff_ne.mpr state, Bool.false_and, Bool.or_false]

namespace State.Proves

variable {s : State} {p : Proof} {r : Record} (k : s.Proves p r)
include k

theorem live : s.live p.handle = some r := livePair_live k.pair

theorem spared : r.overloadHeld = false := by
  unfold Record.overloadHeld
  rw [k.proving]
  exact Bool.and_false _

theorem withheld : s.withheld p.handle r = (p.form == .pulse) := by
  have stage : (p.stage != .draining) = true := bne_iff_ne.mpr k.stands
  simp only [State.withheld, State.pulseHeld, k.spared, k.proving, k.proof, stage, beq_self_eq_true, Bool.true_and,
    Bool.and_true, Bool.false_or]

/-- A record under proof that leaves PROVING changes its slot, the joins and the pending-drive set, and nothing else. -/
theorem commit {x : Record} (leaves : x.state ≠ .proving) (unguarded : x.guard = none) : ∃ l b,
    s.commit p.handle r x = { s.setSlot p.handle (Slot.committed s r x (s.slot p.handle)) with
      drt := { s.drt with pend := l }, agenda := { s.agenda with joins := p.handle :: s.agenda.joins, drain := b } }
    ∧ s.asksAfter p x l := by
  have moved : r.state ≠ x.state := fun same => leaves (same.symm.trans k.proving)
  generalize middle : (s.setSlot p.handle (Slot.committed s r x (s.slot p.handle))).join p.handle = u
  have commits : s.commit p.handle r x = u.reactWithheld p.handle r x (p.form == .pulse) := by
    rw [commit_eq s p.handle moved, k.withheld, middle]
  have gen : (u.slot p.handle).gen = (s.slot p.handle).gen := by
    rw [← middle]
    refine (congrArg Slot.gen (slot_setSlot s p.handle _)).trans ?_
    unfold Slot.committed
    split
    · rfl
    · split <;> rfl
  obtain ⟨l, b, same⟩ := reactWithheld_pends (u := u) (h := p.handle) (.inr ⟨k.spared, unguarded⟩) (p.form == .pulse)
  have pend : l = (u.reactWithheld p.handle r x (p.form == .pulse)).drt.pend := by rw [same]
  have prv : u.prv = s.prv := by rw [← middle]; rfl
  have drt : u.drt = s.drt := by rw [← middle]; rfl
  have now : u.now = s.now := by rw [← middle]; rfl
  refine ⟨l, b, ?_, fun held => ?_, fun spared form => ?_, fun spared form w word => ?_⟩
  · rw [commits, same, ← middle]
    rfl
  · rw [pend, reactWithheld_overload held k.spared unguarded, enter_eq]
    exact entered_mem u p.handle x x.safeWord
  · have free : u.withheld p.handle x = false := (withheld_of_state leaves).trans spared
    rw [pend, form]
    exact (congrArg (·.drt.pend) (reactWithheld_free free)).trans (congrArg Drt.pend drt)
  · have free : u.withheld p.handle x = false := (withheld_of_state leaves).trans spared
    have placed : u.placeWord x = some w := by
      unfold State.placeWord
      rw [unguarded]
      exact word
    rw [pend, form]
    have released := reactWithheld_released (old := r) free placed
    refine pendAsked_of_same (congrArg Drt.pend drt) prv gen now ?_
    exact (congrArg (·.drt.pend) released) ▸ asked_pend u p.handle x w

end State.Proves

/-! ### A proof returns its lamp to the list (R104, R108, R109) -/

/-- The record returned to the list (R75). -/
def Record.returned (r : Record) : Record := { r with state := .provisional }

/-- `t` is `s` once the lamp has been returned to the head of the list, its request standing or not (R108, R109). -/
def State.returnedTo (s t : State) (p : Proof) (r : Record) (standing : Bool) : Prop :=
  t.record p.handle = some r.returned ∧ p.handle ∈ t.agenda.joins ∧ t.prv.list = p.handle :: s.prv.list ∧ t.tdl = s.tdl
    ∧ t.prv.proof = if standing then some { p with stage := .draining } else none

/-- `t` is `s` once the source of a steady proof has been left (R109). -/
def State.leftBy (s t : State) (p : Proof) (r : Record) : Prop :=
  ((p.stage == .request && p.placed) = true → t = s.setProof (some { p with left := true, stopped := true }))
    ∧ ((p.stage == .request && p.placed) = false → s.returnedTo t p r false ∧ t.drt = s.drt)

namespace State.Proves

variable {s : State} {p : Proof} {r : Record} (k : s.Proves p r)
include k

/-- What a return makes of the record, the Proving Unit and the pending-drive set. -/
theorem returns (toHead standing : Bool) : ∃ l b, s.returnProof p toHead standing
    = { s.setSlot p.handle { s.slot p.handle with record := some r.returned } with
      prv := { list := if toHead then p.handle :: s.prv.list else s.prv.list ++ [p.handle]
               proof := if standing then some { p with stage := .draining } else none }
      drt := { s.drt with pend := l }, agenda := { s.agenda with joins := p.handle :: s.agenda.joins, drain := b } }
    ∧ s.asksAfter p r.returned l := by
  have returned : r.returnToList = some r.returned := if_pos k.proving
  have slot : Slot.committed s r r.returned (s.slot p.handle) = { s.slot p.handle with record := some r.returned } := by
    unfold Slot.committed
    rw [k.proving]
    rfl
  obtain ⟨l, b, commits, asks⟩ := k.commit (x := r.returned) nofun k.unguarded
  refine ⟨l, b, ?_, asks⟩
  unfold State.returnProof
  rw [claim_some k.pair returned, commits, slot]
  rfl

theorem returned_record (toHead standing : Bool) : (s.returnProof p toHead standing).record p.handle = some r.returned := by
  obtain ⟨l, b, same, -⟩ := k.returns toHead standing
  rw [same]
  exact congrArg Slot.record (slot_setSlot s p.handle _)

theorem returned_prv (toHead standing : Bool) : (s.returnProof p toHead standing).prv
    = { list := if toHead then p.handle :: s.prv.list else s.prv.list ++ [p.handle]
        proof := if standing then some { p with stage := .draining } else none } := by
  obtain ⟨l, b, same, -⟩ := k.returns toHead standing
  rw [same]

theorem returned_head (standing : Bool) : s.returnedTo (s.returnProof p true standing) p r standing := by
  have prv := k.returned_prv true standing
  refine ⟨k.returned_record true standing, ?_, congrArg Prv.list prv, returnProof_tdl .., congrArg Prv.proof prv⟩
  obtain ⟨l, b, same, -⟩ := k.returns true standing
  rw [same]
  exact List.mem_cons_self

theorem returned_asks (toHead standing : Bool) : s.asksAfter p r.returned (s.returnProof p toHead standing).drt.pend := by
  obtain ⟨l, b, same, asks⟩ := k.returns toHead standing
  rw [same]
  exact asks

/-- A steady proof that returns its lamp leaves the router as it is. -/
theorem returned_drt (steady : p.form = .steady) (toHead standing : Bool) :
    (s.returnProof p toHead standing).drt = s.drt := by
  obtain ⟨l, b, same, -, kept, -⟩ := k.returns toHead standing
  rw [same, kept (Bool.and_false _) steady]

/-! ### What a source does meanwhile (R108, R109, R110) -/

theorem leaves (steady : p.form = .steady) : s.leftBy (s.leaveSteady p) p r := by
  refine ⟨fun standing => if_pos standing, fun released => ?_⟩
  have returns : s.leaveSteady p = s.returnProof p true false := if_neg (by rw [released]; decide)
  rw [returns]
  exact ⟨k.returned_head false, k.returned_drt steady true false⟩

theorem sourceCheck_pulse (pulse : p.form = .pulse) :
    s.proofSourceCheck = if r.intended.any s.demanded then s.returnProof p true p.placed else s := by
  have stage := beq_eq_false_iff_ne.mpr k.stands
  simp only [State.proofSourceCheck, State.proofRecord, k.proof, k.pair, stage, pulse, Bool.false_eq_true, if_false]
  cases r.intended <;> rfl

theorem sourceCheck_steady (steady : p.form = .steady) :
    s.proofSourceCheck = s.watchSteady p (r.intended.any s.demanded) := by
  have stage := beq_eq_false_iff_ne.mpr k.stands
  simp only [State.proofSourceCheck, State.proofRecord, k.proof, k.pair, stage, steady, Bool.false_eq_true, if_false]
  cases r.intended <;> rfl

theorem tieChanged_pulse (pulse : p.form = .pulse) : s.proofTieChanged p.handle = s.proofSourceCheck := by
  have stage := bne_iff_ne.mpr k.stands
  simp only [State.proofTieChanged, State.proofRecord, k.proof, k.pair, stage, pulse, beq_self_eq_true, Bool.and_self,
    if_true]

theorem tieChanged_steady (steady : p.form = .steady) : s.proofTieChanged p.handle =
    if r.intended.any s.demanded then s.returnProof p true (p.stage == .request && p.placed) else s.leaveSteady p := by
  have stage := bne_iff_ne.mpr k.stands
  simp only [State.proofTieChanged, State.proofRecord, k.proof, k.pair, stage, steady, beq_self_eq_true, Bool.and_self,
    if_true]
  cases r.intended <;> rfl

/-- A pulse proof, as its source comes to be demanded (R108). -/
theorem watches_pulse (pulse : p.form = .pulse) :
    (r.intended.any s.demanded = false → s.proofSourceCheck = s)
    ∧ (r.intended.any s.demanded = true → s.returnedTo s.proofSourceCheck p r p.placed ∧ ∀ w, r.wanted = some w →
        s.pendAsked p.handle r.returned w s.proofSourceCheck.drt.pend)
    ∧ s.proofTieChanged p.handle = s.proofSourceCheck := by
  have check := k.sourceCheck_pulse pulse
  refine ⟨fun idle => ?_, fun asked => ?_, k.tieChanged_pulse pulse⟩
  · rw [check, idle]
    rfl
  · rw [asked, if_pos rfl] at check
    rw [check]
    exact ⟨k.returned_head p.placed, (k.returned_asks true p.placed).2.2 (Bool.and_false _) pulse⟩

/-- A steady proof, as its source stops being demanded (R109), or is another (R110). -/
theorem watches_steady (steady : p.form = .steady) :
    (r.intended.any s.demanded = true → s.proofSourceCheck = s.setProof (some { p with stopped := false }))
    ∧ (r.intended.any s.demanded = false → p.stopped = true → s.proofSourceCheck = s)
    ∧ (r.intended.any s.demanded = false → p.stopped = false → s.leftBy s.proofSourceCheck p r)
    ∧ (r.intended.any s.demanded = false → s.leftBy (s.proofTieChanged p.handle) p r)
    ∧ (r.intended.any s.demanded = true →
        s.returnedTo (s.proofTieChanged p.handle) p r (p.stage == .request && p.placed)
        ∧ (s.proofTieChanged p.handle).drt = s.drt) := by
  have check := k.sourceCheck_steady steady
  have tied := k.tieChanged_steady steady
  refine ⟨fun asked => ?_, fun idle stopped => ?_, fun idle runs => ?_, fun idle => ?_, fun asked => ?_⟩
  · rw [check, asked]
    rfl
  · rw [check, idle]
    exact if_pos stopped
  · have leaves : s.watchSteady p false = s.leaveSteady p := if_neg (c := p.stopped = true) (by rw [runs]; decide)
    rw [check, idle, leaves]
    exact k.leaves steady
  · rw [tied, idle]
    exact k.leaves steady
  · rw [tied, asked, if_pos rfl]
    exact ⟨k.returned_head _, k.returned_drt steady true _⟩

end State.Proves

/-- A change of tie is no matter of a proof on another record, nor of one that drains (R110). -/
theorem proofTieChanged_other {s : State} {h : Handle}
    (other : ∀ p, s.prv.proof = some p → p.handle ≠ h ∨ p.stage = .draining) : s.proofTieChanged h = s := by
  unfold State.proofTieChanged
  split
  · rfl
  · next p proof =>
    refine if_neg fun here => ?_
    simp only [Bool.and_eq_true, beq_iff_eq, bne_iff_ne] at here
    exact (other p proof).elim (absurd here.1) here.2

/-! ### A proof is judged (R105, R106, R107) -/

/-- The record of a judged proof: its tie is its binding, and it is FAULTED by a fault (R73, R75). -/
def Record.provedAs (r : Record) (f : RecFault) : Record := { r with
  state := if f ≠ .none then .faulted else if r.tie.isSome then .bound else .ready
  fault := f, binding := r.tie, intended := none }

theorem provedAs_tie (r : Record) (f : RecFault) : (r.provedAs f).tie = r.tie := by
  unfold Record.provedAs
  cases tie : r.tie <;> rfl

theorem provedAs_usable (r : Record) (f : RecFault) : (r.provedAs f).state.usable = true := by
  unfold Record.provedAs
  dsimp only
  split
  · rfl
  · split <;> rfl

theorem provedAs_overloadHeld (r : Record) (f : RecFault) : (r.provedAs f).overloadHeld = (f == .overload) := by
  cases f with
  | none => rfl
  | _ => rfl

theorem proofFailed_eq {r : Record} (proving : r.state = .proving) {f : RecFault} (fault : f ≠ .none) :
    r.proofFailed f = some (r.provedAs f) := by
  simp only [Record.proofFailed, Record.provedAs, if_pos proving, if_pos fault]
  rfl

theorem proofPassed_eq {r : Record} (proving : r.state = .proving) (lamp : r.cls = .lamp) :
    r.proofPassed = some (r.provedAs .none) := by
  have rest : r.bindIntended.restFault = .none := lamp_restFault (r := r.bindIntended) lamp
  simp only [Record.proofPassed, if_pos proving, rest]
  rfl

/-- What is asked for rests on the record's withholding, its drive state and its tie. -/
theorem pendAsked_of_record {s : State} {h : Handle} {r r' : Record} {w : OutWord} {l : List Pend}
    (withheld : s.withheld h r' = s.withheld h r) (drive : r'.drive = r.drive) (tie : r'.tie = r.tie)
    (asked : s.pendAsked h r' w l) : s.pendAsked h r w l := by
  unfold State.pendAsked at *
  rwa [withheld, drive, tie] at asked

/-- `t` is `s` once the proof `p` on the record `r` has been judged with the fault `f`, or passed (R101, R105, R160). -/
def State.closedAs (s t : State) (p : Proof) (r : Record) (f : RecFault) : Prop :=
  t.prv.proof = none ∧ t.prv.list = s.prv.list ∧ s.confirmCreated t p.handle r ∧ p.handle ∈ t.agenda.joins
    ∧ (f = .overload → ∃ q ∈ t.drt.pend, q.handle = p.handle ∧ q.word = .off)
    ∧ (f ≠ .overload → p.form = .steady → t.drt.pend = s.drt.pend)
    ∧ (f ≠ .overload → p.form = .pulse → ∀ w, r.wanted = some w →
        s.pendAsked p.handle { r with state := .ready } w t.drt.pend)
    ∧ t.record p.handle = some (r.provedAs f)

/-- The fault that a measured current shows, or none (R105). -/
def bandFault (c n low high : Nat) : RecFault :=
  if 100 * c < n * low then .open else if n * high < 100 * c then .overload else .none

namespace State.Proves

variable {s : State} {p : Proof} {r : Record} (k : s.Proves p r)
include k

theorem closes (lamp : r.cls = .lamp) {g : Record → Option Record} {f : RecFault} (judged : g r = some (r.provedAs f)) :
    s.closedAs (s.closeProof p g) p r f := by
  have usable := provedAs_usable r f
  have leaves : (r.provedAs f).state ≠ .proving := fun same => by
    rw [same] at usable
    cases usable
  have held := provedAs_overloadHeld r f
  obtain ⟨l, b, commits, overload, quiet, asks⟩ := k.commit leaves k.unguarded
  have slot : Slot.committed s r (r.provedAs f) (s.slot p.handle)
      = { s.slot p.handle with record := some (r.provedAs f), confirm := some (s.newConfirm (r.provedAs f)) } := by
    unfold Slot.committed
    rw [usable, k.proving]
    rfl
  have close : s.closeProof p g = { s.setSlot p.handle (Slot.committed s r (r.provedAs f) (s.slot p.handle)) with
      prv := { s.prv with proof := none }, drt := { s.drt with pend := l }
      agenda := { s.agenda with joins := p.handle :: s.agenda.joins, drain := b } } := by
    unfold State.closeProof
    rw [claim_some k.pair judged, commits]
    rfl
  have closed : (s.closeProof p g).slot p.handle = { s.slot p.handle with
      record := some (r.provedAs f), confirm := some (s.newConfirm (r.provedAs f)) } := by
    rw [close, slot]
    exact slot_setSlot s p.handle _
  have pend : (s.closeProof p g).drt.pend = l := by rw [close]
  have off : (r.provedAs f).safeWord = .off := if_neg (by
    rw [show (r.provedAs f).cls = .lamp from lamp]
    decide)
  refine ⟨by rw [close], by rw [close], ?_, by rw [close]; exact List.mem_cons_self, fun fault => ?_,
    fun fault steady => ?_, fun fault pulse w word => ?_, congrArg Slot.record closed⟩
  · unfold State.confirmCreated
    rw [closed]
    exact ⟨rfl, rfl, rfl⟩
  · rw [pend, ← off]
    exact overload (held.trans (beq_iff_eq.mpr fault))
  · rw [pend]
    exact quiet (held.trans (beq_eq_false_iff_ne.mpr fault)) steady
  · have spared := held.trans (beq_eq_false_iff_ne.mpr fault)
    rw [pend]
    refine pendAsked_of_record (r' := r.provedAs f) ?_ rfl (provedAs_tie r f) (asks spared pulse w word)
    rw [withheld_of_state leaves, spared, withheld_of_state (r := { r with state := .ready }) nofun]
    exact (Bool.and_false _).symm

theorem fails (lamp : r.cls = .lamp) {f : RecFault} (fault : f ≠ .none) :
    s.closedAs (s.closeProof p (Record.proofFailed f)) p r f :=
  k.closes lamp (proofFailed_eq k.proving fault)

/-- A measured current is judged by the lamp's band (R105). -/
theorem judges {role : LampRole} {side : LampSide} {n low high unused : Byte}
    (entry : r.entry = .lamp role side n low high unused) (c : Nat) :
    s.closedAs (s.judgeProof p r c) p r (bandFault c n.toNat low.toNat high.toNat) := by
  have lamp := lamp_of_entry entry
  have band : r.entry.judge c = judgeCurrent c n.toNat low.toNat high.toNat := by rw [entry]; rfl
  unfold State.judgeProof bandFault
  rw [band]
  unfold judgeCurrent
  by_cases below : 100 * c < n.toNat * low.toNat
  · rw [if_pos below, if_pos below]
    exact k.fails lamp (by decide)
  · rw [if_neg below, if_neg below]
    by_cases above : n.toNat * high.toNat < 100 * c
    · rw [if_pos above, if_pos above]
      exact k.fails lamp (by decide)
    · rw [if_neg above, if_neg above]
      exact k.closes lamp (proofPassed_eq k.proving lamp)

end State.Proves

/-! ### The reply of a steady proof's Sample (R103, R104, R158) -/

/-- A reply whose word has the code `c` finds the lamp lit when that is ON, or FLASH with its level lit (R158, R212). -/
theorem lit_iff_code {x : SampleReply} {c : Nat} (word : x.word = (OutWord.ofCode c).getD .off) :
    x.lit = true ↔ c = 1 ∨ (2 ≤ c ∧ c ≤ 5) ∧ x.level = true := by
  unfold SampleReply.lit
  rw [word]
  rcases c with _ | _ | _ | _ | _ | _ | _ | _ | _ | c
  all_goals simp [OutWord.ofCode]

/-- The level of a word stands in bit 7 of its byte (R158). -/
theorem parseSample_lit (w q a b : Byte) : (parseSample [w, q, a, b]).lit = true ↔
    w.toNat % 128 = 1 ∨ 130 ≤ w.toNat ∧ w.toNat ≤ 133 := by
  have bound := w.isLt
  have level : (parseSample [w, q, a, b]).level = true ↔ 128 ≤ w.toNat := decide_eq_true_iff
  rw [lit_iff_code (x := parseSample [w, q, a, b]) (c := w.toNat % 128) rfl, level]
  omega

theorem parseSample_value (w q a b : Byte) : (parseSample [w, q, a, b]).value.toNat = 256 * a.toNat + b.toNat := by
  have high := a.isLt
  have low := b.isLt
  change (BitVec.ofNat 16 ((0 * 256 + a.toNat) * 256 + b.toNat)).toNat = _
  rw [BitVec.toNat_ofNat]
  omega

/-- A proof that waits for its output to be placed again (R103). -/
def Proof.waitingDrive (p : Proof) : Proof := { p with stage := .driveWait, placed := false, notOn := true }

namespace State.Proves

variable {s : State} {p : Proof} {r : Record} (k : s.Proves p r)
include k

/-- A steady proof's lamp has its output placed again (R103, R129). -/
theorem placesAgain (steady : p.form = .steady) {out : OutWord} (word : s.placeWord r = some out) :
    (s.setProof (some p.waitingDrive)).placeAgain p.handle
      = { s.setSlot p.handle { s.slot p.handle with
            record := some { r with drive := r.drive.map fun d => { d with lastPlaced := none } } } with
          prv := { s.prv with proof := some p.waitingDrive }, drt := { s.drt with pend := s.entered p.handle r out }
          agenda := { s.agenda with drain := true } } := by
  generalize middle : s.setProof (some p.waitingDrive) = u
  have live : u.live p.handle = some r := by rw [← middle]; exact k.live
  have pulse : u.pulseHeld p.handle r = false := by
    rw [← middle]
    simp [State.pulseHeld, State.setProof, Proof.waitingDrive, steady]
  have free : u.withheld p.handle r = false := Bool.or_eq_false_iff.mpr ⟨k.spared, pulse⟩
  have placed : u.placeWord r = some out := by rw [← middle]; exact word
  simp only [State.placeAgain, live, free, placed, setDrive_live live, Bool.false_eq_true, if_false]
  rw [enter_eq, ← middle]
  have entered : ((s.setProof (some p.waitingDrive)).setRecord p.handle
      { r with drive := r.drive.map fun d => { d with lastPlaced := none } }).entered p.handle r out
      = s.entered p.handle r out := by
    have gen := congrArg Slot.gen (slot_modifySlot s p.handle fun y => { y with
      record := some { r with drive := r.drive.map fun d => { d with lastPlaced := none } } })
    unfold State.entered
    exact congrArg (fun g => if s.pendHolds p.handle then _ else s.drt.pend ++ [{
      handle := p.handle, gen := g, word := out, time := s.now, urgent := r.tie.isSome }]) gen
  rw [entered]
  rfl

end State.Proves

section
variable {s : State} {p : Proof} {r : Record} {x : SampleReply}

theorem steadyReply_lit (lit : x.lit = true) : s.steadyReply p r x = s.judgeProof p r x.value.toNat := if_pos lit

/-- The lamp's source has been left, or is not demanded any more (R109). -/
theorem steadyReply_gone (dark : x.lit = false)
    (gone : p.left = true ∨ r.intended = none ∨ ∃ y, r.intended = some y ∧ s.demanded y = false) :
    s.steadyReply p r x = s.returnProof p true false := by
  unfold State.steadyReply
  rw [dark, if_neg Bool.false_ne_true]
  by_cases left : p.left = true
  · rw [if_pos left]
  · rw [if_neg left]
    rcases gone with stays | untied | ⟨y, intended, idle⟩
    · exact absurd stays left
    · rw [untied]
    · rw [intended]
      exact if_pos (by rw [idle]; rfl)

/-- The lamp's source is demanded still (R103, R104). -/
theorem steadyReply_dark (dark : x.lit = false) (stays : p.left = false) {y : Src} (intended : r.intended = some y)
    (asked : s.demanded y = true) : s.steadyReply p r x = if s.phased y then s.missPhase p
      else if p.notOn then s.closeProof p (Record.proofFailed .refused)
      else (s.setProof (some p.waitingDrive)).placeAgain p.handle := by
  have kept : ¬ p.left = true := by rw [stays]; decide
  simp only [State.steadyReply, dark, if_neg kept, intended, asked, Bool.not_true, Bool.false_eq_true, if_false]
  rfl

theorem missPhase_again (few : p.missed < 3) :
    s.missPhase p = s.setProof (some { p with stage := .phaseWait, placed := false, missed := p.missed + 1 }) :=
  if_pos (Nat.succ_lt_succ few)

theorem missPhase_ends (many : 3 ≤ p.missed) : s.missPhase p = s.returnProof p false false :=
  if_neg (Nat.not_lt.mpr (Nat.succ_le_succ many))

end

/-- The lamp under proof has been returned, and the proof is over (R104, R109). -/
def State.returnedWith (t : State) (p : Proof) (r : Record) (l : List Handle) : Prop :=
  (t.prv.proof = none ∧ t.record p.handle = some r.returned) ∧ t.prv.list = l

namespace State.Proves

variable {s : State} {p : Proof} {r : Record} (k : s.Proves p r)
include k

theorem returnsWith (toHead : Bool) : (s.returnProof p toHead false).returnedWith p r
    (if toHead then p.handle :: s.prv.list else s.prv.list ++ [p.handle]) := by
  have prv := k.returned_prv toHead false
  exact ⟨⟨congrArg Prv.proof prv, k.returned_record toHead false⟩, congrArg Prv.list prv⟩

/-- A missed phase: the fourth ends the proof, at the tail of the list (R104). -/
theorem misses : (p.missed < 3 → (s.missPhase p).prv.proof = some { p with
        stage := .phaseWait, placed := false, missed := p.missed + 1 } ∧ (s.missPhase p).record p.handle = some r)
    ∧ (3 ≤ p.missed → (s.missPhase p).returnedWith p r (s.prv.list ++ [p.handle])) := by
  refine ⟨fun few => ?_, fun many => ?_⟩
  · rw [missPhase_again few]
    exact ⟨rfl, live_record k.live⟩
  · rw [missPhase_ends many]
    exact k.returnsWith false

/-- The output of a steady proof's lamp is placed again, once (R103, R129). -/
theorem waitsDrive (steady : p.form = .steady) :
    let t := (s.setProof (some p.waitingDrive)).placeAgain p.handle
    t.prv.proof = some p.waitingDrive ∧ ∀ out, s.placeWord r = some out → t.agenda.drain = true
      ∧ t.record p.handle = some { r with drive := r.drive.map fun d => { d with lastPlaced := none } }
      ∧ (s.pendHolds p.handle = true → t.drt.pend = s.drt.pend.map fun e =>
          if e.handle = p.handle then { e with word := out, urgent := r.tie.isSome } else e)
      ∧ (s.pendHolds p.handle = false → t.drt.pend = s.drt.pend ++ [{
          handle := p.handle, gen := (s.slot p.handle).gen, word := out, time := s.now, urgent := r.tie.isSome }]) := by
  refine ⟨?_, fun out word => ?_⟩
  · cases word : s.placeWord r with
    | none =>
      have live : (s.setProof (some p.waitingDrive)).live p.handle = some r := k.live
      have silent : (s.setProof (some p.waitingDrive)).placeWord r = none := word
      simp only [State.placeAgain, live, silent, ite_self]
      rfl
    | some out => rw [k.placesAgain steady word]
  · rw [k.placesAgain steady word]
    refine ⟨rfl, congrArg Slot.record (slot_setSlot s p.handle _), fun holds => if_pos holds, fun free => if_neg ?_⟩
    rw [free]
    decide

/-! ### The outcome of a proof's request (R103 to R107, R111) -/

section
variable (placed : p.placed = true)
include placed

theorem outcome_pulse (pulse : p.form = .pulse) (c : Byte) (n : Nat) :
    s.proofOutcome (.replied .ok [c] n) = s.judgeProof p r c.toNat := by
  have stage := beq_eq_false_iff_ne.mpr k.stands
  simp only [State.proofOutcome, State.proofRecord, k.proof, k.pair, stage, placed, pulse, Bool.not_true,
    Bool.false_eq_true, if_false]
  rfl

theorem outcome_steady (steady : p.form = .steady) (l : List Byte) (n : Nat) :
    s.proofOutcome (.replied .ok l n) = s.steadyReply p r (parseSample l) := by
  have stage := beq_eq_false_iff_ne.mpr k.stands
  simp only [State.proofOutcome, State.proofRecord, k.proof, k.pair, stage, placed, steady, Bool.not_true,
    Bool.false_eq_true, if_false]

theorem outcome_fault (l : List Byte) (n : Nat) :
    s.proofOutcome (.replied .fault l n) = s.closeProof p (Record.proofFailed (faultReading l)) := by
  have stage := beq_eq_false_iff_ne.mpr k.stands
  simp only [State.proofOutcome, State.proofRecord, k.proof, k.pair, stage, placed, Bool.not_true, Bool.false_eq_true,
    if_false]

/-- A refusal, or a request that fails, is the fault REFUSED (R106, R107). -/
theorem outcome_refused {o : ReqOutcome} (refused : o = .noReply ∨ o = .checkError ∨ o = .collision
      ∨ (∃ l n, o = .replied .refused l n) ∨ ∃ l n, o = .replied .noFunction l n) :
    s.proofOutcome o = s.closeProof p (Record.proofFailed .refused) := by
  have stage := beq_eq_false_iff_ne.mpr k.stands
  rcases refused with rfl | rfl | rfl | ⟨l, n, rfl⟩ | ⟨l, n, rfl⟩
  all_goals
    simp only [State.proofOutcome, State.proofRecord, k.proof, k.pair, stage, placed, Bool.not_true, Bool.false_eq_true,
      if_false]

theorem outcome_abandoned : s.proofOutcome .abandoned = s.setProof none := by
  have stage := beq_eq_false_iff_ne.mpr k.stands
  simp only [State.proofOutcome, State.proofRecord, k.proof, k.pair, stage, placed, Bool.not_true, Bool.false_eq_true,
    if_false]

end

/-! ### The reply of a steady proof, clause by clause (R103, R104, R109) -/

/-- A lamp that is not lit while its source is demanded (R103, R104). -/
theorem replies_dark (lamp : r.cls = .lamp) {x : SampleReply} (dark : x.lit = false)
    (stays : p.left = false) {y : Src} (intended : r.intended = some y) :
    let t := s.steadyReply p r x
    (s.demanded y = false → t.returnedWith p r (p.handle :: s.prv.list))
    ∧ (s.demanded y = true → s.phased y = true →
      (p.missed < 3 → t.prv.proof = some { p with stage := .phaseWait, placed := false, missed := p.missed + 1 }
        ∧ t.record p.handle = some r)
      ∧ (3 ≤ p.missed → t.returnedWith p r (s.prv.list ++ [p.handle])))
    ∧ (s.demanded y = true → s.phased y = false → (p.notOn = true → s.closedAs t p r .refused)
      ∧ (p.notOn = false → t = (s.setProof (some p.waitingDrive)).placeAgain p.handle)) := by
  intro t
  refine ⟨fun idle => ?_, fun asked phased => ?_, fun asked unphased => ⟨fun again => ?_, fun first => ?_⟩⟩
  · have state : t = _ := steadyReply_gone dark (.inr (.inr ⟨y, intended, idle⟩))
    rw [state]
    exact k.returnsWith true
  all_goals have state : t = _ := steadyReply_dark dark stays intended asked
  · rw [phased, if_pos rfl] at state
    rw [state]
    exact k.misses
  · rw [unphased, if_neg Bool.false_ne_true, if_pos again] at state
    rw [state]
    exact k.fails lamp (by decide)
  · rw [unphased, if_neg Bool.false_ne_true, first, if_neg Bool.false_ne_true] at state
    exact state

end State.Proves

theorem proofOutcome_draining {s : State} {p : Proof} (proof : s.prv.proof = some p) (stage : p.stage = .draining)
    (o : ReqOutcome) : s.proofOutcome o = { s with prv := { s.prv with proof := none } } := by
  simp only [State.proofOutcome, proof, stage, beq_self_eq_true, if_true]
  rfl

theorem faultReading_eq (b : Byte) : faultReading [b] = if b = 2 then .overload else .open := by
  unfold faultReading
  simp only [List.getElem?_cons_zero, Option.getD_some, beq_iff_eq]

/-- Settles O31: how a lamp is put back for proof, how its proof begins, what a source does to it, and its outcome. -/
theorem provePutsLampBack : Obligations.ProvePutsLampBack := by
  refine ⟨fun s x => ⟨demanded_iff s x, phased_iff s x⟩,
    fun a g s h r awake named => ⟨prove_refused awake named, prove_puts awake named⟩,
    fun s p r a pair address up => ⟨claimProof_taken pair address up, claimProof_full pair address up⟩,
    fun s p proof => ⟨provingOccasion_eq proof, proofOnStart_eq proof, fun r pair => ⟨proofWaits_drive proof pair,
      fun x stage intended => proofWaits_phase proof pair stage intended, proofWaits_other proof pair⟩⟩,
    fun s => beginProof_waits,
    fun s h l r empty list runs settled live state lamp _ => beginProof_begins empty list runs settled live state lamp,
    fun s p r proof stands pair proving unguarded => ?watch,
    fun s h x => ⟨rfl, proofTieChanged_other⟩,
    fun s p o proof stage => proofOutcome_draining proof stage o,
    fun s p r role side n low high unused proof stands placed pair proving entry unguarded => ?outcome⟩
  case watch =>
    have k : s.Proves p r := ⟨proof, stands, pair, proving, unguarded⟩
    exact ⟨k.watches_pulse, k.watches_steady⟩
  case outcome =>
    have k : s.Proves p r := ⟨proof, stands, pair, proving, unguarded⟩
    have lamp := lamp_of_entry entry
    refine ⟨fun pulse c m => ?pulse, fun steady w q a b m => ?steady, fun b m => ?fault, fun o refused => ?refused,
      k.outcome_abandoned placed⟩
    case pulse =>
      rw [k.outcome_pulse placed pulse]
      exact k.judges entry c.toNat
    case steady =>
      intro t lit
      have state : t = _ := k.outcome_steady placed steady [w, q, a, b] m
      have dark : ¬ lit → (parseSample [w, q, a, b]).lit = false := fun off =>
        Bool.eq_false_iff.mpr (mt (parseSample_lit w q a b).mp off)
      refine ⟨fun bright => ?_, fun off gone => ?_, fun off stays x intended => ?_⟩
      · rw [state, steadyReply_lit ((parseSample_lit w q a b).mpr bright), parseSample_value]
        exact k.judges entry _
      · rw [state, steadyReply_gone (dark off) (gone.imp_right .inl)]
        exact k.returnsWith true
      · obtain ⟨idle, phased, unphased⟩ := k.replies_dark lamp (dark off) stays intended
        rw [state]
        refine ⟨idle, phased, fun asked even => ⟨(unphased asked even).1, fun first => ?_⟩⟩
        rw [(unphased asked even).2 first]
        exact k.waitsDrive steady
    case fault =>
      rw [k.outcome_fault placed, faultReading_eq]
      refine k.fails lamp ?_
      split <;> decide
    case refused =>
      rw [k.outcome_refused placed refused]
      exact k.fails lamp (by decide)

end Sys2Proof.Machine

namespace Sys2Proof.Machine

/-! ### BIND, UNBIND and DRIVE check in order (R121, R122, R132) -/

theorem srcOf_none {x : Byte} : srcOf x = none ↔ 18 ≤ x.toNat := by
  unfold srcOf
  split
  · next small => simp only [reduceCtorEq, false_iff]; omega
  · next large => simp only [true_iff]; omega

theorem isRetired_iff (r : Record) : r.isRetired = true ↔ r.state = .retired := beq_iff_eq

theorem canTie_false (r : Record) : r.canTie = false ↔ r.cls ≠ .lamp ∧ r.cls ≠ .supply := by
  rw [Record.canTie, Bool.or_eq_false_iff, beq_eq_false_iff_ne, beq_eq_false_iff_ne]

/-- The first checks of BIND and UNBIND: a RETIRED record, and one whose class holds no ties. -/
theorem tieRefused_iff (r : Record) : (!r.canTie || r.isRetired) = true
    ↔ r.state = .retired ∨ (r.cls ≠ .lamp ∧ r.cls ≠ .supply) := by
  rw [Bool.or_eq_true, Bool.not_eq_true', canTie_false, isRetired_iff, or_comm]

/-- A command with its check: refused with the first result that the check gives, or taken (R200). -/
theorem runCommand_checked {s : State} (awake : s.portSilent = false) (check : Option HostResult) (u : State) :
    runCommand s check u = .next (match check with
      | some x => s.answer (byte x.code)
      | none => u.taken) := by
  cases check with
  | none => exact runCommand_taken awake u
  | some x => exact runCommand_answer awake x u

theorem bindCheck_eq (s : State) (x : Src) (r : Record) : s.bindCheck x r =
    if r.state = .retired ∨ (r.cls ≠ .lamp ∧ r.cls ≠ .supply) then some .badState
    else if r.tie ≠ some x ∧ 16 ≤ (s.list x).length then some .listFull else none := by
  unfold State.bindCheck
  refine if_congr (tieRefused_iff r) rfl (if_congr ?_ rfl rfl)
  rw [Bool.and_eq_true, Bool.not_eq_true', beq_eq_false_iff_ne, Bool.not_eq_true', State.listHasRoom, decide_eq_false_iff_not,
    not_lt]
  rfl

theorem exec_bind (a g x : Byte) (s : State) : exec (.bind a g x) s = runNamed s a g
    (fun _ r => match srcOf x with
      | none => some .badValue
      | some y => s.bindCheck y r)
    (fun h r => match srcOf x with
      | none => s
      | some y => if r.tie = some y then s else s.hostTie h (some y)) := rfl

theorem exec_unbind (a g : Byte) (s : State) : exec (.unbind a g) s = runNamed s a g
    (fun _ r => if !r.canTie || r.isRetired || r.tie.isNone then some .badState else none)
    (fun h _ => s.hostTie h none) := rfl

section
variable {s : State} {a g : Byte} {h : Handle} {r : Record} (awake : s.portSilent = false)
  (named : s.named a g = some (h, r))
include awake named

/-- A BIND with the number of a source (R121). -/
theorem bind_checks {x : Byte} {y : Src} (source : srcOf x = some y) : exec (.bind a g x) s = .next (
    if r.state = .retired ∨ (r.cls ≠ .lamp ∧ r.cls ≠ .supply) then s.answer 4
    else if r.tie ≠ some y ∧ 16 ≤ (s.list y).length then s.answer 8
    else if r.tie = some y then s.taken
    else (s.hostTie h (some y)).taken) := by
  rw [exec_bind, runNamed_some named]
  simp only [source, bindCheck_eq, runCommand_checked awake]
  split_ifs <;> rfl

theorem unbind_checks : exec (.unbind a g) s = .next (
    if r.state = .retired ∨ (r.cls ≠ .lamp ∧ r.cls ≠ .supply) ∨ r.tie = none then s.answer 4
    else (s.hostTie h none).taken) := by
  have refused : (!r.canTie || r.isRetired || r.tie.isNone) = true
      ↔ r.state = .retired ∨ (r.cls ≠ .lamp ∧ r.cls ≠ .supply) ∨ r.tie = none := by
    rw [Bool.or_eq_true, tieRefused_iff, Option.isNone_iff_eq_none, or_assoc]
  rw [exec_unbind, runNamed_some named]
  simp only [refused, runCommand_checked awake]
  split_ifs <;> rfl

end

/-- Settles O26: each command's checks, one by one in their order. -/
theorem bindAndUnbindCheckInOrder : Obligations.BindAndUnbindCheckInOrder := by
  refine fun a g s h r awake named => ⟨fun x => ?_, fun x => srcOf_none, unbind_checks awake named⟩
  cases source : srcOf x with
  | none =>
    have refused : (match srcOf x with | none => some HostResult.badValue | some y => s.bindCheck y r) = some .badValue := by
      rw [source]
    rw [exec_bind, runNamed_answers awake named refused]
    rfl
  | some y => exact bind_checks awake named source

theorem ofCode_none {n : Nat} : OutWord.ofCode n = none ↔ 9 ≤ n := by
  by_cases small : n < 9
  · interval_cases n <;> simp [OutWord.ofCode]
  · obtain ⟨k, rfl⟩ := Nat.exists_eq_add_of_le' (not_lt.mp small)
    simp [OutWord.ofCode]

/-- The words that a class takes (R132). -/
theorem takes_iff (c : Class) (w : OutWord) (driven : c ≠ .lamp ∧ c ≠ .sensor) : c.takes w = false
    ↔ (c = .actuator ∧ w ∉ [.runA, .runB, .stop]) ∨ (c = .supply ∧ w ∉ [.off, .on]) := by
  cases c with
  | lamp => exact absurd rfl driven.1
  | sensor => exact absurd rfl driven.2
  | actuator => simp [Class.takes]; tauto
  | supply => simp [Class.takes]

/-- The states of a record that DRIVE is refused in. -/
theorem usable_false (x : RecState) : x.usable = false ↔ x = .provisional ∨ x = .proving ∨ x = .retired := by
  cases x <;> simp [RecState.usable]

theorem driveCheck_eq (x : OutWord) (r : Record) : driveCheck (some x) r =
    if r.cls = .lamp ∨ r.cls = .sensor then some .badState
    else if r.state = .provisional ∨ r.state = .proving ∨ r.state = .retired then some .badState
    else if r.cls = .supply ∧ r.binding ≠ none then some .badState
    else if (r.cls = .actuator ∧ x ∉ [.runA, .runB, .stop]) ∨ (r.cls = .supply ∧ x ∉ [.off, .on]) then some .badValue
    else if r.overloadHeld = true ∧ x ≠ .off ∧ x ≠ .stop then some .badState
    else if r.entry.reversing = true ∧ r.guard = none then some .noGuard
    else none := by
  unfold driveCheck
  dsimp only
  by_cases undriven : r.cls = .lamp ∨ r.cls = .sensor
  · rw [if_pos undriven, if_pos (by simpa using undriven)]
  rw [if_neg undriven, if_neg (by simpa using undriven)]
  refine if_congr (by rw [Bool.not_eq_true', usable_false]) rfl ?_
  refine if_congr (by simp [Option.isSome_iff_ne_none]) rfl ?_
  refine if_congr (by rw [Bool.not_eq_true', takes_iff _ _ (not_or.mp undriven)]) rfl ?_
  refine if_congr (by simp) rfl ?_
  exact if_congr (by simp) rfl rfl

theorem exec_drive (a g w : Byte) (s : State) : exec (.drive a g w) s = runNamed s a g
    (fun _ r => driveCheck (OutWord.ofCode w.toNat) r)
    (fun h r => match OutWord.ofCode w.toNat with
      | some x => s.hostDrive h r x
      | none => s) := rfl

/-- Settles O29: the checks of a word's DRIVE, one by one in their order. -/
theorem driveChecksInOrder : Obligations.DriveChecksInOrder := by
  refine fun a g w s h r awake named => ⟨?_, ofCode_none⟩
  rw [exec_drive, runNamed_some named]
  cases word : OutWord.ofCode w.toNat with
  | none => exact runCommand_answer awake ..
  | some x =>
    dsimp only
    rw [driveCheck_eq, runCommand_checked awake]
    split_ifs <;> rfl

end Sys2Proof.Machine

namespace Sys2Proof.Machine

/-! ### Reversal guards (R151 to R153, R156) -/

section
variable {s : State} {g : Fin 6}

/-- A motion claim changes the slot of its record alone. -/
theorem setMotion_same (s : State) (h : Handle) (m : Motion) : ∃ x, s.setMotion h m = s.setSlot h x := by
  have stays : ∃ x, s = s.setSlot h x := ⟨_, (setSlot_slot s h).symm⟩
  unfold State.setMotion
  split
  · split
    · exact ⟨_, rfl⟩
    · exact stays
  · exact stays

theorem setMotion_actuator {h : Handle} {r : Record} (live : s.live h = some r) (actuator : r.cls = .actuator) (m : Motion) :
    s.setMotion h m = s.setRecord h { r with motion := some m } := by
  simp only [State.setMotion, live, actuator, beq_self_eq_true, if_true]

/-- A guard that takes new contents changes a slot besides, for its owner's motion. -/
theorem putGuard_same (s : State) (g : Fin 6) (y : Guard) : ∃ h x, s.putGuard g y = (s.setGuard g y).setSlot h x := by
  have stays : ∃ h x, s.setGuard g y = (s.setGuard g y).setSlot h x := ⟨0, _, (setSlot_slot _ 0).symm⟩
  unfold State.putGuard
  dsimp only
  split
  · split
    · exact ⟨_, setMotion_same _ _ _⟩
    · exact stays
  · exact stays

@[simp] theorem putGuard_guard (s : State) (g : Fin 6) (y : Guard) : (s.putGuard g y).guard g = y := by
  obtain ⟨h, x, same⟩ := putGuard_same s g y
  rw [same]
  exact setGuard_guard s g y

theorem putGuard_drt (s : State) (g : Fin 6) (y : Guard) : (s.putGuard g y).drt = s.drt := by
  obtain ⟨h, x, same⟩ := putGuard_same s g y
  rw [same]
  rfl

theorem putGuard_owned {y : Guard} {h : Handle} {q : Byte} (owner : y.owner = some (h, q)) (gen : (s.slot h).gen = q) :
    s.putGuard g y = (s.setGuard g y).setMotion h y.state.motion := by
  have same : ((s.setGuard g y).slot h).gen = q := gen
  simp only [State.putGuard, owner, same, beq_self_eq_true, if_true]

/-- What a record is asked for, where it is live. -/
theorem askOutput_eq {h : Handle} {r : Record} (live : s.live h = some r) (w : OutWord) : s.askOutput h w = s.asked h r w := by
  simp only [State.askOutput, live, State.asked]

/-- Asking for an output changes the pending-drive set alone, and calls for a drain. -/
theorem askOutput_same (s : State) (h : Handle) (w : OutWord) : ∃ l b, s.askOutput h w =
    { s with drt := { s.drt with pend := l }, agenda := { s.agenda with drain := b } } := by
  cases live : s.live h with
  | none =>
    have stays : s.askOutput h w = s := by simp only [State.askOutput, live]
    exact ⟨_, _, stays⟩
  | some r =>
    rw [askOutput_eq live]
    exact asked_eq s h r w

theorem guardAsk_same (s : State) (g : Fin 6) (w : OutWord) : ∃ l b, s.guardAsk g w =
    { s with drt := { s.drt with pend := l }, agenda := { s.agenda with drain := b } } := by
  unfold State.guardAsk
  split
  · split
    · exact askOutput_same ..
    · exact ⟨_, _, rfl⟩
  · exact ⟨_, _, rfl⟩

@[simp] theorem guardAsk_guard (s : State) (g k : Fin 6) (w : OutWord) : (s.guardAsk g w).guard k = s.guard k := by
  obtain ⟨l, b, same⟩ := guardAsk_same s g w
  rw [same]
  rfl

theorem guardAsk_owned {h : Handle} {q : Byte} {r : Record} (owner : (s.guard g).owner = some (h, q))
    (pair : s.livePair h q = some r) (w : OutWord) : s.guardAsk g w = s.asked h r w := by
  obtain ⟨gen, live⟩ := livePair_eq.mp pair
  simp only [State.guardAsk, owner, gen, beq_self_eq_true, if_true, askOutput_eq live]

theorem guardStopEnded_awaiting (dwell : (s.guard g).state = .dwell) (awaiting : (s.guard g).awaiting = true) :
    s.guardStopEnded g
      = s.setGuard g { s.guard g with awaiting := false, deadTimer := some (s.now + ms (s.guard g).dead) } := by
  simp only [State.guardStopEnded, dwell, awaiting, beq_self_eq_true, Bool.and_self, if_true]

/-- The owner of a guard is drive-settled with STOP last placed (R153). -/
def State.stopDone (s : State) (g : Fin 6) : Prop :=
  ∃ h q r d, (s.guard g).owner = some (h, q) ∧ s.live h = some r ∧ r.drive = some d ∧ s.settled h = true
    ∧ d.lastPlaced = some .stop

theorem stopNeedsNoDrive_done (done : s.stopDone g) : s.stopNeedsNoDrive g = s.guardStopEnded g := by
  obtain ⟨h, q, r, d, owner, live, drive, settled, placed⟩ := done
  simp only [State.stopNeedsNoDrive, owner, live, drive, settled, placed, beq_self_eq_true, Bool.and_self, if_true]

theorem stopNeedsNoDrive_other (other : ¬ s.stopDone g) : s.stopNeedsNoDrive g = s := by
  unfold State.stopNeedsNoDrive
  split
  · next h q owner =>
    split
    · next r live =>
      split
      · next d drive =>
        refine if_neg fun done => other ?_
        obtain ⟨settled, placed⟩ := (Bool.and_eq_true _ _).mp done
        exact ⟨h, q, r, d, owner, live, drive, settled, beq_iff_eq.mp placed⟩
      · rfl
    · rfl
  · rfl

/-- The end of a STOP gives a guard another dead timer at most. -/
theorem guardStopEnded_guard (s : State) (g : Fin 6) : ∃ a t, (s.guardStopEnded g).guard g
    = { s.guard g with awaiting := a, deadTimer := t } := by
  unfold State.guardStopEnded
  dsimp only
  split
  · exact ⟨_, _, setGuard_guard ..⟩
  · exact ⟨_, _, rfl⟩

theorem stopNeedsNoDrive_guard (s : State) (g : Fin 6) : ∃ a t, (s.stopNeedsNoDrive g).guard g
    = { s.guard g with awaiting := a, deadTimer := t } := by
  by_cases done : s.stopDone g
  · rw [stopNeedsNoDrive_done done]
    exact guardStopEnded_guard s g
  · rw [stopNeedsNoDrive_other done]
    exact ⟨_, _, rfl⟩

/-- A guard that has left its run: it dwells, awaits STOP and holds what it was asked for (R151, R152). -/
def Guard.dwelling (x : Guard) (slot : Option Dir) : Guard :=
  { x with state := .dwell, runTimer := none, deadTimer := none, awaiting := true, slot := slot }

/-- A guard that enters a run (R151, R153). -/
def Guard.entering (x : Guard) (d : Dir) (now : Nat) : Guard :=
  { x with state := d.runState, runTimer := some (now + ms (1000 * x.limit)), deadTimer := none, awaiting := false,
           slot := none }

theorem guardEnterDwell_eq (s : State) (g : Fin 6) (slot : Option Dir) (entered : Bool) :
    s.guardEnterDwell g slot entered = (if entered then s.putGuard g ((s.guard g).dwelling slot)
      else (s.putGuard g ((s.guard g).dwelling slot)).guardAsk g .stop).stopNeedsNoDrive g := rfl

/-- A guard that leaves its run is in DWELL with its slot and without a run timer. -/
theorem guardEnterDwell_guard (s : State) (g : Fin 6) (slot : Option Dir) (entered : Bool) :
    ∃ a t, (s.guardEnterDwell g slot entered).guard g
      = { (s.guard g).dwelling slot with awaiting := a, deadTimer := t } := by
  have asked : (if entered then s.putGuard g ((s.guard g).dwelling slot)
      else (s.putGuard g ((s.guard g).dwelling slot)).guardAsk g .stop).guard g = (s.guard g).dwelling slot := by
    split
    · exact putGuard_guard ..
    · rw [guardAsk_guard, putGuard_guard]
  obtain ⟨a, t, same⟩ := stopNeedsNoDrive_guard (if entered then s.putGuard g ((s.guard g).dwelling slot)
    else (s.putGuard g ((s.guard g).dwelling slot)).guardAsk g .stop) g
  exact ⟨a, t, by rw [guardEnterDwell_eq, same, asked]⟩

/-! A run asked for, by the guard's state (R151). -/

theorem guardRun_idle (idle : (s.guard g).state = .idle) (d : Dir) :
    s.guardRun g d = (s.putGuard g ((s.guard g).entering d s.now)).guardAsk g d.word := by
  simp only [State.guardRun, idle]
  rfl

theorem guardRun_dwell (dwell : (s.guard g).state = .dwell) (d : Dir) :
    s.guardRun g d = s.setGuard g { s.guard g with slot := some d } := by
  simp only [State.guardRun, dwell]

theorem guardRun_same {d : Dir} (same : (s.guard g).state = d.runState) : s.guardRun g d
    = (s.setGuard g { s.guard g with runTimer := some (s.now + ms (1000 * (s.guard g).limit)) }).guardAsk g d.word := by
  cases d <;> simp only [State.guardRun, same, Dir.runState, if_true]

theorem guardRun_leaves {d : Dir} (idle : (s.guard g).state ≠ .idle) (dwell : (s.guard g).state ≠ .dwell)
    (other : (s.guard g).state ≠ d.runState) : s.guardRun g d = s.guardEnterDwell g (some d) false := by
  unfold State.guardRun
  dsimp only
  split
  · next e => exact absurd e idle
  · next e => exact absurd e dwell
  · exact if_neg other

/-! A STOP, by the guard's state (R152). -/

theorem guardStop_idle (idle : (s.guard g).state = .idle) (entered : Bool) :
    s.guardStop g entered = if entered then s else s.guardAsk g .stop := by
  simp only [State.guardStop, idle]

theorem guardStop_dwell (dwell : (s.guard g).state = .dwell) (entered : Bool) :
    s.guardStop g entered = s.setGuard g { s.guard g with slot := none } := by
  simp only [State.guardStop, dwell]

theorem guardStop_leaves (idle : (s.guard g).state ≠ .idle) (dwell : (s.guard g).state ≠ .dwell) (entered : Bool) :
    s.guardStop g entered = s.guardEnterDwell g none entered := by
  unfold State.guardStop
  dsimp only
  split
  · next e => exact absurd e idle
  · next e => exact absurd e dwell
  · rfl

end

/-- A guard takes its contents, and its owner the motion of its state (R156). -/
theorem putGuard_clauses (s : State) (g : Fin 6) (y : Guard) : (s.putGuard g y).guard g = y
    ∧ (s.putGuard g y).drt = s.drt
    ∧ ∀ h q r, y.owner = some (h, q) → s.livePair h q = some r → r.cls = .actuator →
      (s.putGuard g y).record h = some { r with motion := some y.state.motion } := by
  refine ⟨putGuard_guard s g y, putGuard_drt s g y, fun h q r owner pair actuator => ?_⟩
  obtain ⟨gen, live⟩ := livePair_eq.mp pair
  have live : (s.setGuard g y).live h = some r := live
  rw [putGuard_owned owner gen, setMotion_actuator live actuator]
  exact setRecord_record ..

theorem guardAsk_clauses (s : State) (g : Fin 6) (w : OutWord) : (s.guardAsk g w).guard g = s.guard g
    ∧ (∀ k, (s.guardAsk g w).record k = s.record k)
    ∧ ((s.guard g).owner = none → s.guardAsk g w = s)
    ∧ ∀ h q r, (s.guard g).owner = some (h, q) → s.livePair h q = some r → s.pendAsked h r w (s.guardAsk g w).drt.pend := by
  refine ⟨guardAsk_guard s g g w, record_of_fdir (guardAsk_fdir s g w), fun free => ?_, fun h q r owner pair => ?_⟩
  · simp only [State.guardAsk, free]
  · rw [guardAsk_owned owner pair]
    exact asked_pend s h r w

/-- Settles O58: the guard's contents and motion, what it asks for, and its answers to runs and STOPs by its state. -/
theorem guardTakesRunAndStop : Obligations.GuardTakesRunAndStop := by
  refine ⟨fun s g y => ?_, guardAsk_clauses, fun s g => ?_, fun s g d => ?_⟩
  · obtain ⟨guard, drt, motion⟩ := putGuard_clauses s g y
    refine ⟨guard, drt, fun h q r owner pair actuator => (motion h q r owner pair actuator).trans ?_⟩
    cases y.state <;> rfl
  · intro x done dwell awaiting
    refine ⟨fun k => ?_, stopNeedsNoDrive_other⟩
    rw [stopNeedsNoDrive_done k]
    exact guardStopEnded_awaiting dwell awaiting
  intro x run word leaving
  have asksRun : run = d.runState := by cases d <;> rfl
  have asksWord : word = d.word := by cases d <;> rfl
  rw [asksRun, asksWord]
  refine ⟨fun idle => ?_, fun dwell => guardRun_dwell dwell d, fun same => ?_, fun idle dwell other => ?_,
    fun idle => ⟨guardStop_idle idle false, guardStop_idle idle true⟩, guardStop_dwell, fun idle dwell => ?_⟩
  · have guard : (s.guardRun g d).guard g = x.entering d s.now := by
      rw [guardRun_idle idle, guardAsk_guard, putGuard_guard]
    exact ⟨guard, by rw [guard]; exact guardRun_idle idle d⟩
  · have guard : (s.guardRun g d).guard g = { x with runTimer := some (s.now + ms (1000 * x.limit)) } := by
      rw [guardRun_same same, guardAsk_guard, setGuard_guard]
    exact ⟨guard, by rw [guard]; exact guardRun_same same⟩
  · obtain ⟨a, t, guard⟩ := guardEnterDwell_guard s g (some d) false
    rw [guardRun_leaves idle dwell other, guard]
    exact ⟨rfl, rfl, rfl, rfl⟩
  · obtain ⟨a, t, guard⟩ := guardEnterDwell_guard s g none false
    rw [guardStop_leaves idle dwell, guardStop_leaves idle dwell, guard]
    exact ⟨rfl, rfl, rfl, rfl, rfl⟩

end Sys2Proof.Machine

namespace Sys2Proof.Machine

/-! ### What a source asks for, and which records are withheld or drive-settled (R124, R128, R129) -/

theorem asks_inactive {s : State} {x : Src} (off : (s.source x).active = false) (supply : Bool) :
    s.asks x supply = .off := by
  simp only [State.asks, off, Bool.not_false, if_true]

section
variable {s : State} {x : Src} (on : (s.source x).active = true)
include on

theorem asks_steady (form : (s.source x).form = .steady) (supply : Bool) : s.asks x supply = .on := by
  simp only [State.asks, on, form, Bool.not_true, Bool.false_eq_true, if_false]

theorem asks_flashing {c : Chan} (form : (s.source x).form = .flashing c) (supply : Bool) :
    s.asks x supply = if supply then .on else .flash c := by
  simp only [State.asks, on, form, Bool.not_true, Bool.false_eq_true, if_false]

theorem asks_followed (form : (s.source x).form = .followed) (supply : Bool) :
    s.asks x supply = if s.followLevel x then .on else .off := by
  simp only [State.asks, on, form, Bool.not_true, Bool.false_eq_true, if_false]

end

theorem overloadHeld_iff (r : Record) : r.overloadHeld = true
    ↔ r.fault = .overload ∧ (r.state = .faulted ∨ r.state = .stale ∧ r.before = some .faulted) := by
  simp only [Record.overloadHeld, Bool.and_eq_true, Bool.or_eq_true, beq_iff_eq]

theorem pulseHeld_iff (s : State) (h : Handle) (r : Record) : s.pulseHeld h r = true
    ↔ r.state = .proving ∧ ∃ p, s.prv.proof = some p ∧ p.handle = h ∧ p.form = .pulse ∧ p.stage ≠ .draining := by
  unfold State.pulseHeld
  cases s.prv.proof with
  | none => simp
  | some p => simp [and_assoc]

theorem withheld_iff (s : State) (h : Handle) (r : Record) : s.withheld h r = true ↔ r.overloadHeld = true
    ∨ r.state = .proving ∧ ∃ p, s.prv.proof = some p ∧ p.handle = h ∧ p.form = .pulse ∧ p.stage ≠ .draining := by
  rw [State.withheld, Bool.or_eq_true, pulseHeld_iff]

theorem pendHolds_iff (s : State) (h : Handle) : s.pendHolds h = true ↔ ∃ p ∈ s.drt.pend, p.handle = h := by
  simp only [State.pendHolds, List.any_eq_true, beq_iff_eq]

theorem driveQueued_iff (s : State) (h : Handle) : s.driveQueued h = true ↔ ∃ d : DriveReq, d.handle = h
    ∧ (.drive d ∈ s.tdl.urgent ∨ .drive d ∈ s.tdl.routine ∨ ∃ f, s.tdl.inFlight = some f ∧ f.req = .drive d) := by
  simp only [State.driveQueued, queued_iff, isDriveFor_iff]
  constructor
  · rintro ⟨r, ⟨d, rfl, handle⟩, place⟩
    exact ⟨d, handle, place⟩
  · rintro ⟨d, handle, place⟩
    exact ⟨_, ⟨d, rfl, handle⟩, place⟩

theorem settled_iff (s : State) (h : Handle) : s.settled h = true ↔ (∀ p ∈ s.drt.pend, p.handle ≠ h)
    ∧ ∀ d : DriveReq, d.handle = h → .drive d ∉ s.tdl.urgent ∧ .drive d ∉ s.tdl.routine
      ∧ ∀ f, s.tdl.inFlight = some f → f.req ≠ .drive d := by
  rw [State.settled, Bool.and_eq_true, Bool.not_eq_true', Bool.not_eq_true', ← Bool.not_eq_true, ← Bool.not_eq_true,
    pendHolds_iff, driveQueued_iff]
  push Not
  exact Iff.rfl

/-! ### Routing (R125, R126) -/

section
variable {s : State}

theorem setRecord_gen (s : State) (h k : Handle) (r : Record) : ((s.setRecord h r).slot k).gen = (s.slot k).gen := by
  by_cases same : h = k
  · subst same
    unfold State.setRecord
    rw [slot_modifySlot]
  · rw [setRecord_ne s same]

/-- What is asked for is withheld, or is the last placed output, or has the set drained. -/
theorem asked_drains (s : State) (h : Handle) (r : Record) (w : OutWord) : (s.asked h r w).drt.pend = s.drt.pend
    ∨ (∃ d, r.drive = some d ∧ d.lastPlaced = some w) ∨ (s.asked h r w).agenda.drain = true := by
  unfold State.asked
  split
  · exact .inl rfl
  · cases drive : r.drive with
    | none => exact .inl (by rw [enterIfDiffers_none drive])
    | some d =>
      by_cases placed : d.lastPlaced = some w
      · exact .inr (.inl ⟨d, rfl, placed⟩)
      · rw [enterIfDiffers_other drive placed, enter_eq]
        exact .inr (.inr rfl)

/-- A record that is told what it wants: its contents, the others', and the pending-drive set. -/
theorem rewant_asks {h : Handle} {r : Record} {w : OutWord} (live : s.live h = some r) (word : s.wantedNow r = some w) :
    let t := s.rewant h
    t.record h = some { r with wanted := some w } ∧ s.pendAsked h r w t.drt.pend ∧ (∀ k, k ≠ h → t.record k = s.record k)
      ∧ (t.drt.pend = s.drt.pend ∨ (∃ d, r.drive = some d ∧ d.lastPlaced = some w) ∨ t.agenda.drain = true) := by
  obtain ⟨slot, others⟩ := rewant_slot live word
  refine ⟨congrArg Slot.record slot, ?_, fun k other => congrArg Slot.record (others k other.symm), ?_⟩
  · rw [rewant_some live word]
    exact pendAsked_of_same (t := s.setRecord h { r with wanted := some w }) rfl rfl (setRecord_gen ..) rfl
      (asked_pend _ h { r with wanted := some w } w)
  · rw [rewant_some live word]
    exact asked_drains _ h { r with wanted := some w } w

/-! ### Draining (R127) -/

theorem drainOne_gone {p : Pend} (gone : s.livePair p.handle p.gen = none) : s.drainOne p = s.removePend p.handle := by
  simp only [State.drainOne, gone]

/-- The Drive that an entry of the pending-drive set is claimed as (R127). -/
def Pend.request (p : Pend) (r : Record) (a : Addr) (d : DriveState) : DriveReq :=
  { address := a, index := r.index, handle := p.handle, gen := p.gen, word := p.word, prior := d.lastPlaced }

section
variable {p : Pend} {r : Record} {a : Addr} {d : DriveState} (pair : s.livePair p.handle p.gen = some r)
  (address : r.address = some a) (drive : r.drive = some d)
include pair address drive

theorem drainOne_placed (placed : (s.claimDrive (p.request r a d) p.urgent).2 = .taken
      ∨ (s.claimDrive (p.request r a d) p.urgent).2 = .merged) : s.drainOne p
    = ((s.claimDrive (p.request r a d) p.urgent).1.removePend p.handle).setDrive p.handle
      fun x => { x with lastPlaced := some p.word } := by
  unfold State.drainOne
  simp only [pair, address, drive]
  unfold Pend.request at placed ⊢
  rcases placed with placed | placed <;> simp only [placed]

theorem drainOne_stays (taken : (s.claimDrive (p.request r a d) p.urgent).2 ≠ .taken)
    (merged : (s.claimDrive (p.request r a d) p.urgent).2 ≠ .merged) : s.drainOne p = s := by
  unfold State.drainOne
  simp only [pair, address, drive]
  unfold Pend.request at taken merged
  split
  · next answer => exact absurd answer taken
  · next answer => exact absurd answer merged
  · rfl

/-- A Drive taken or merged: the entry leaves, and its word is the last placed one. -/
theorem drainOne_leaves (placed : (s.claimDrive (p.request r a d) p.urgent).2 = .taken
      ∨ (s.claimDrive (p.request r a d) p.urgent).2 = .merged) :
    (s.drainOne p).tdl = (s.claimDrive (p.request r a d) p.urgent).1.tdl
      ∧ (s.drainOne p).drt.pend = s.drt.pend.filter (fun q => !(q.handle == p.handle))
      ∧ (s.drainOne p).record p.handle = some { r with drive := some { d with lastPlaced := some p.word } } := by
  rw [drainOne_placed pair address drive placed]
  obtain ⟨x, claims⟩ := claimDrive_tdl s (p.request r a d) p.urgent
  rw [claims]
  have live : (State.removePend { s with tdl := x } p.handle).live p.handle = some r := livePair_live pair
  rw [setDrive_live live, drive]
  exact ⟨rfl, rfl, setRecord_record ..⟩

end

end

/-! ### Changes of sources (R118, R125, R136) -/

/-- `t` is `s` but for records, the pending-drive set and the agenda: what routing may change. -/
def State.RoutedTo (s t : State) : Prop :=
  ∃ f l a, t = { s with fdir := f, drt := { s.drt with pend := l }, agenda := a }

theorem RoutedTo_refl (s : State) : s.RoutedTo s := ⟨_, _, _, rfl⟩

theorem RoutedTo_trans {s t u : State} (h : s.RoutedTo t) (k : t.RoutedTo u) : s.RoutedTo u := by
  obtain ⟨_, _, _, rfl⟩ := h
  obtain ⟨_, _, _, rfl⟩ := k
  exact ⟨_, _, _, rfl⟩

theorem rewant_routed (s : State) (h : Handle) : s.RoutedTo (s.rewant h) := by
  obtain ⟨l, b, x, same⟩ := rewant_same s h
  exact ⟨_, _, _, same⟩

theorem route_routed (s : State) (x : Src) : s.RoutedTo (s.route x) := by
  have along : ∀ (l : List Handle) (u : State), u.RoutedTo (l.foldl State.rewant u) := by
    intro l
    induction l with
    | nil => exact RoutedTo_refl
    | cons h l ih => exact fun u => RoutedTo_trans (rewant_routed u h) (ih _)
  exact RoutedTo_trans (along (s.list x) s) ⟨_, _, _, rfl⟩

@[simp] theorem source_setSourceEntry (s : State) (x : Src) (v : Source) : (s.setSourceEntry x v).source x = v := by
  simp [State.source, State.setSourceEntry]

theorem source_setSourceEntry_ne (s : State) {x y : Src} (v : Source) (other : x ≠ y) :
    (s.setSourceEntry x v).source y = s.source y := by
  have : (x : Nat) ≠ y := fun e => other (Fin.ext e)
  simp [State.source, State.setSourceEntry, this]

theorem setSourceEntry_same (s : State) (x : Src) : s.setSourceEntry x (s.source x) = s := by
  have same : s.drt.sources.set x (s.source x) = s.drt.sources := by
    ext i hi
    rw [Vector.getElem_set]
    split
    · next e => subst e; rfl
    · rfl
  unfold State.setSourceEntry
  rw [same]

/-- A source that takes new contents is entered, and a change of it routed. -/
theorem putSource_routed (s : State) (x : Src) (v : Source) : (s.setSourceEntry x v).RoutedTo (s.putSource x v) := by
  unfold State.putSource
  split
  · next same =>
    rw [← same, setSourceEntry_same]
    exact RoutedTo_refl s
  · exact route_routed _ x

theorem source_of_sources {s t : State} (same : t.drt.sources = s.drt.sources) (x : Src) : t.source x = s.source x := by
  unfold State.source
  rw [same]

theorem RoutedTo_source {s t : State} (h : s.RoutedTo t) (x : Src) : t.source x = s.source x := by
  obtain ⟨_, _, _, rfl⟩ := h
  rfl

theorem putSource_source (s : State) (x : Src) (v : Source) : (s.putSource x v).source x = v :=
  (RoutedTo_source (putSource_routed s x v) x).trans (source_setSourceEntry s x v)

theorem putSource_source_ne (s : State) {x y : Src} (v : Source) (other : x ≠ y) :
    (s.putSource x v).source y = s.source y :=
  (RoutedTo_source (putSource_routed s x v) y).trans (source_setSourceEntry_ne s v other)

/-- `t` is `s` but for channels, generators, owed marks and the agenda: what a channel's change may change. -/
def State.FlashedTo (s t : State) : Prop :=
  ∃ c g o a, t = { s with frt := { s.frt with chans := c, gens := g, followOwed := o }, agenda := a }

theorem FlashedTo_refl (s : State) : s.FlashedTo s := ⟨_, _, _, _, rfl⟩

theorem FlashedTo_trans {s t u : State} (h : s.FlashedTo t) (k : t.FlashedTo u) : s.FlashedTo u := by
  obtain ⟨_, _, _, _, rfl⟩ := h
  obtain ⟨_, _, _, _, rfl⟩ := k
  exact ⟨_, _, _, _, rfl⟩

theorem setChan_flashed (s : State) (c : Chan) (x : ChanState) : s.FlashedTo (s.setChan c x) := ⟨_, _, _, _, rfl⟩

theorem setFollowOwed_flashed (s : State) (x : TurnSide) (o : Option OwedMark) : s.FlashedTo (s.setFollowOwed x o) :=
  ⟨_, _, _, _, rfl⟩

theorem startGen_flashed (s : State) (g : Generator) : s.FlashedTo (s.startGen g) := ⟨_, _, _, _, rfl⟩

theorem stopGen_flashed (s : State) (g : Generator) : s.FlashedTo (s.stopGen g) := ⟨_, _, _, _, rfl⟩

theorem dueFollow_flashed (s : State) (x : TurnSide) : s.FlashedTo (s.dueFollow x) := ⟨_, _, _, _, rfl⟩

theorem startChan_flashed (s : State) (c : Chan) : s.FlashedTo (s.startChan c) := by
  have afresh := FlashedTo_trans (setChan_flashed s c .running) (startGen_flashed _ c.generator)
  unfold State.startChan
  split
  · split
    · exact setChan_flashed s c .joining
    · exact afresh
  · exact afresh

theorem leaveChan_flashed (s : State) (c : Chan) (x : ChanState) : s.FlashedTo (s.leaveChan c x) := by
  have left := setChan_flashed s c x
  have stops := FlashedTo_trans left (stopGen_flashed _ c.generator)
  unfold State.leaveChan
  dsimp only
  split
  · split
    · split
      · exact FlashedTo_trans (FlashedTo_trans left (setChan_flashed _ _ .running)) (startGen_flashed _ _)
      · exact left
      · exact stops
    · exact stops
  · exact left

theorem updateChan_flashed (s : State) (x : Src) : s.FlashedTo (s.updateChan x) := by
  unfold State.updateChan
  split
  · exact FlashedTo_refl s
  · next c _ =>
    dsimp only
    split
    · have left : s.FlashedTo (if s.chan c == .stopped then s else s.leaveChan c .stopped) := by
        split
        · exact FlashedTo_refl s
        · exact leaveChan_flashed s c .stopped
      split
      · exact FlashedTo_trans left (setFollowOwed_flashed _ _ none)
      · exact left
    · split
      · split
        · exact FlashedTo_refl s
        · exact FlashedTo_trans (leaveChan_flashed s c .following) (dueFollow_flashed _ _)
      · split
        · refine FlashedTo_trans ?_ (startChan_flashed _ c)
          split
          · exact setFollowOwed_flashed s _ none
          · exact FlashedTo_refl s
        · exact FlashedTo_refl s
      · exact FlashedTo_refl s

theorem changeSource_drt (s : State) (x : Src) (v : Source) : (s.changeSource x v).drt = (s.putSource x v).drt := by
  obtain ⟨_, _, _, _, same⟩ := updateChan_flashed (s.putSource x v) x
  unfold State.changeSource
  rw [same]

theorem changeSource_source (s : State) (x : Src) (v : Source) : (s.changeSource x v).source x = v :=
  (source_of_sources (congrArg Drt.sources (changeSource_drt s x v)) x).trans (putSource_source s x v)

theorem changeSource_source_ne (s : State) {x y : Src} (v : Source) (other : x ≠ y) :
    (s.changeSource x v).source y = s.source y :=
  (source_of_sources (congrArg Drt.sources (changeSource_drt s x v)) y).trans (putSource_source_ne s v other)

/-! ### SET DEMAND (R117) -/

/-- The virtual sources and their numbers (R114, R117). -/
theorem virtualOf_eq_some {n : Nat} {y : Src} : virtualOf n = some y ↔ n + 11 = y.val ∧ 12 ≤ y.val := by
  unfold virtualOf
  split
  · simp only [Option.some.injEq, Fin.ext_iff]
    omega
  · simp only [reduceCtorEq, false_iff]
    omega

theorem virtualOf_eq_none {n : Nat} : virtualOf n = none ↔ ¬ (1 ≤ n ∧ n ≤ 6) := by
  unfold virtualOf
  split
  · next inside => simp only [reduceCtorEq, inside, and_self, not_true_eq_false]
  · next outside => simp only [outside, not_false_eq_true]

theorem exec_setDemand (x d : Byte) (s : State) : exec (.setDemand x d) s = match virtualOf x.toNat with
    | some y => runCommand s (if d.toNat ≤ 1 then none else some .badValue)
        (s.changeSource y { s.source y with active := d.toNat == 1 })
    | none => runCommand s (some .badValue) s := rfl

section
variable {s : State} {x d : Byte} (awake : s.portSilent = false)
include awake

theorem setDemand_refused (bad : ¬ (1 ≤ x.toNat ∧ x.toNat ≤ 6 ∧ d.toNat ≤ 1)) :
    exec (.setDemand x d) s = .next (s.answer 5) := by
  rw [exec_setDemand]
  split
  · next y source =>
    have inside : 1 ≤ x.toNat ∧ x.toNat ≤ 6 := not_not.mp fun outside => by
      rw [virtualOf_eq_none.mpr outside] at source
      cases source
    rw [if_neg fun level => bad ⟨inside.1, inside.2, level⟩]
    exact runCommand_answer awake ..
  · exact runCommand_answer awake ..

theorem setDemand_taken {y : Src} (number : x.toNat + 11 = y.val) (virtual : 12 ≤ y.val) (level : d.toNat ≤ 1) :
    exec (.setDemand x d) s
      = .next (s.changeSource y { s.source y with active := decide (d = 1) }).taken := by
  have one : (d.toNat == 1) = decide (d = 1) := by
    rw [Bool.eq_iff_iff, beq_iff_eq, decide_eq_true_iff, BitVec.toNat_eq]
    rfl
  rw [exec_setDemand, virtualOf_eq_some.mpr ⟨number, virtual⟩]
  dsimp only
  rw [if_pos level, runCommand_taken awake, one]

end

@[simp] theorem answer_drt (s : State) (code : Byte) : (s.answer code).drt = s.drt := rfl

theorem taken_source (u : State) (x : Src) : u.taken.source x = u.source x :=
  (source_of_sources (congrArg Drt.sources (answer_drt (u.finish true) 0)) x).trans
    (source_of_sources (finish_sources u true).1 x)

/-- The virtual source that SET DEMAND names is switched, and no other (R117). -/
theorem taken_changeSource (s : State) (y : Src) (v : Source) : (s.changeSource y v).taken.source y = v
    ∧ (∀ z, z ≠ y → (s.changeSource y v).taken.source z = s.source z)
    ∧ (s.changeSource y v).taken.fixed = { s.fixed with response := [0], stream := .none } := by
  refine ⟨?_, fun z other => ?_, ?_⟩
  · rw [taken_source, changeSource_source]
  · rw [taken_source, changeSource_source_ne s v other.symm]
  · rw [taken_fixed, (changeSource_moves (ad := false) .nil y v).fixed]

/-- Settles O35: what sources ask for, how a change is routed and the set drained, and SET DEMAND. -/
theorem setDemandSwitchesVirtualSource : Obligations.SetDemandSwitchesVirtualSource := by
  refine ⟨fun s x => ?asks, fun s h r => ?views, fun s h r live => ?rewants, fun s x v => ⟨rfl, rfl⟩, fun s p => ?drains,
    fun s => ⟨rfl, rfl, rfl⟩, fun x d s awake => ⟨setDemand_refused awake, fun y number virtual level => ?demands⟩⟩
  case asks =>
    exact ⟨asks_inactive, asks_steady, fun c on form => ⟨asks_flashing on form false, asks_flashing on form true⟩,
      fun supply on form => ⟨fun left => left ▸ asks_followed on form supply, fun right => right ▸ asks_followed on form supply⟩⟩
  case views =>
    refine ⟨overloadHeld_iff r, withheld_iff s h r, pendHolds_iff s h, settled_iff s h, ?_⟩
    unfold State.placeWord State.guardWord State.guard
    cases r.guard <;> rfl
  case rewants =>
    intro wanted
    have same : s.wantedNow r = wanted := by
      simp only [State.wantedNow, Record.isLamp, beq_iff_eq, wanted]
    exact ⟨fun none => rewant_none live (same.trans none), fun w word => rewant_asks live (same.trans word)⟩
  case drains =>
    exact ⟨drainOne_gone, fun r a d pair address drive =>
      ⟨drainOne_leaves pair address drive, drainOne_stays pair address drive⟩⟩
  case demands =>
    exact ⟨_, setDemand_taken awake number virtual level, rfl, fun v => rfl, taken_changeSource s y _⟩

end Sys2Proof.Machine

namespace Sys2Proof.Machine

/-! ### DRIVE taken (R133) -/

section
variable {s : State} {h : Handle} {r : Record}

theorem not_retired_of_usable (usable : r.state.usable = true) : (r.state == .retired) = false := by
  cases state : r.state with
  | retired =>
    rw [state] at usable
    cases usable
  | _ => rfl

theorem not_proving_of_usable (usable : r.state.usable = true) : r.state ≠ .proving := fun state => by
  rw [state] at usable
  cases usable

/-- The word is the wanted output, and asked for where no guard takes it. -/
theorem hostDrive_unguarded (live : (r.state == .retired) = false) (unguarded : r.guard = none) (w : OutWord) :
    s.hostDrive h r w = (s.setRecord h { r with wanted := some w }).asked h { r with wanted := some w } w := by
  have wants : (s.setRecord h { r with wanted := some w }).live h = some { r with wanted := some w } :=
    live_of (setRecord_record ..) live
  rw [← askOutput_eq wants]
  simp only [State.hostDrive, unguarded]

/-- A DRIVE of a record without a guard that is not withheld asks for its word. -/
theorem hostDrive_asks (usable : r.state.usable = true) (unguarded : r.guard = none) (spared : r.overloadHeld = false)
    {d : DriveState} (drive : r.drive = some d) (w : OutWord) :
    (d.lastPlaced = some w → s.hostDrive h r w
        = (s.setRecord h { r with wanted := some w }).setPend (s.drt.pend.filter fun p => !(p.handle == h)))
      ∧ (d.lastPlaced ≠ some w → s.hostDrive h r w
        = (s.setRecord h { r with wanted := some w }).enter h { r with wanted := some w } w) := by
  have free : (s.setRecord h { r with wanted := some w }).withheld h { r with wanted := some w } = false :=
    (withheld_of_state (r := { r with wanted := some w }) (not_proving_of_usable usable)).trans spared
  rw [hostDrive_unguarded (not_retired_of_usable usable) unguarded, State.asked, free, if_neg Bool.false_ne_true]
  exact ⟨enterIfDiffers_placed drive, enterIfDiffers_other drive⟩

theorem hostDrive_withheld (usable : r.state.usable = true) (unguarded : r.guard = none) (held : r.overloadHeld = true)
    (w : OutWord) : s.hostDrive h r w = s.setRecord h { r with wanted := some w } := by
  rw [hostDrive_unguarded (not_retired_of_usable usable) unguarded]
  exact if_pos (Bool.or_eq_true_iff.mpr (.inl held))

end

/-! ### What asking and withholding change (R76, R128, R152) -/

/-- `t` is `s` but for records, the pending-drive set, the agenda and the guards: what an output asked for may change. -/
def State.AskedTo (s t : State) : Prop := ∃ f l a g,
  t = { s with fdir := f, drt := { s.drt with pend := l }, agenda := a, frt := { s.frt with guards := g } }

theorem AskedTo_refl (s : State) : s.AskedTo s := ⟨_, _, _, _, rfl⟩

theorem AskedTo_trans {s t u : State} (h : s.AskedTo t) (k : t.AskedTo u) : s.AskedTo u := by
  obtain ⟨_, _, _, _, rfl⟩ := h
  obtain ⟨_, _, _, _, rfl⟩ := k
  exact ⟨_, _, _, _, rfl⟩

theorem modifySlot_asked (s : State) (h : Handle) (f : Slot → Slot) : s.AskedTo (s.modifySlot h f) := ⟨_, _, _, _, rfl⟩

theorem enter_asked (s : State) (h : Handle) (r : Record) (w : OutWord) : s.AskedTo (s.enter h r w) := by
  rw [enter_eq]
  exact ⟨_, _, _, _, rfl⟩

theorem enterIfDiffers_asked (s : State) (h : Handle) (r : Record) (w : OutWord) : s.AskedTo (s.enterIfDiffers h r w) := by
  unfold State.enterIfDiffers
  split
  · split
    · exact ⟨_, _, _, _, rfl⟩
    · exact enter_asked ..
  · exact AskedTo_refl s

theorem setGuard_asked (s : State) (g : Fin 6) (y : Guard) : s.AskedTo (s.setGuard g y) := ⟨_, _, _, _, rfl⟩

theorem putGuard_asked (s : State) (g : Fin 6) (y : Guard) : s.AskedTo (s.putGuard g y) := by
  obtain ⟨_, _, same⟩ := putGuard_same s g y
  rw [same]
  exact ⟨_, _, _, _, rfl⟩

theorem guardAsk_asked (s : State) (g : Fin 6) (w : OutWord) : s.AskedTo (s.guardAsk g w) := by
  obtain ⟨_, _, same⟩ := guardAsk_same s g w
  rw [same]
  exact ⟨_, _, _, _, rfl⟩

theorem guardStopEnded_asked (s : State) (g : Fin 6) : s.AskedTo (s.guardStopEnded g) := by
  unfold State.guardStopEnded
  dsimp only
  split
  · exact setGuard_asked ..
  · exact AskedTo_refl s

theorem stopNeedsNoDrive_asked (s : State) (g : Fin 6) : s.AskedTo (s.stopNeedsNoDrive g) := by
  by_cases done : s.stopDone g
  · rw [stopNeedsNoDrive_done done]
    exact guardStopEnded_asked s g
  · rw [stopNeedsNoDrive_other done]
    exact AskedTo_refl s

theorem guardStop_asked (s : State) (g : Fin 6) (entered : Bool) : s.AskedTo (s.guardStop g entered) := by
  unfold State.guardStop
  dsimp only
  split
  · split
    · exact AskedTo_refl s
    · exact guardAsk_asked ..
  · exact setGuard_asked ..
  · rw [guardEnterDwell_eq]
    refine AskedTo_trans ?_ (stopNeedsNoDrive_asked _ g)
    split
    · exact putGuard_asked ..
    · exact AskedTo_trans (putGuard_asked ..) (guardAsk_asked ..)

theorem reactWithheld_asked (s : State) (h : Handle) (old new : Record) (was : Bool) :
    s.AskedTo (s.reactWithheld h old new was) := by
  unfold State.reactWithheld
  split
  · dsimp only
    split
    · exact AskedTo_trans (enter_asked ..) (guardStop_asked ..)
    · exact enter_asked ..
  · split
    · split
      · exact AskedTo_refl s
      · exact ⟨_, _, _, _, rfl⟩
    · split
      · split
        · exact enterIfDiffers_asked ..
        · exact AskedTo_refl s
      · exact AskedTo_refl s

/-- A record takes its new contents in its slot, and then the router and the guard react. -/
theorem commit_reacts (s : State) (h : Handle) (old new : Record) : ∃ x a, x.record = some new
    ∧ s.commit h old new = ({ s.setSlot h x with agenda := a } : State).reactWithheld h old new (s.withheld h old) := by
  have again : ∀ (x : Slot) (a : Agenda) (f : Slot → Slot),
      ({ s.setSlot h x with agenda := a } : State).modifySlot h f = { s.setSlot h (f x) with agenda := a } := by
    intro x a f
    have slot : ({ s.setSlot h x with agenda := a } : State).slot h = x := slot_setSlot s h x
    unfold State.modifySlot
    rw [slot]
    exact congrArg (fun u : State => { u with agenda := a }) (setSlot_setSlot s h x (f x))
  have joined : ∃ a, (if old.state = new.state ∧ old.fault = new.fault then s.setRecord h new
      else (s.setRecord h new).join h) = { s.setSlot h { s.slot h with record := some new } with agenda := a } := by
    split
    · exact ⟨s.agenda, rfl⟩
    · exact ⟨_, rfl⟩
  obtain ⟨a, joined⟩ := joined
  unfold State.commit
  dsimp only
  rw [joined]
  split
  · unfold State.createConfirm
    rw [again]
    exact ⟨_, a, rfl, rfl⟩
  · split
    · unfold State.removeConfirm
      rw [again]
      exact ⟨_, a, rfl, rfl⟩
    · exact ⟨_, a, rfl, rfl⟩

theorem commit_asked (s : State) (h : Handle) (old new : Record) : s.AskedTo (s.commit h old new) := by
  obtain ⟨x, a, -, reacts⟩ := commit_reacts s h old new
  rw [reacts]
  exact AskedTo_trans ⟨_, _, _, _, rfl⟩ (reactWithheld_asked ..)

/-- A STOP that the router has entered itself leaves the pending-drive set as it is. -/
theorem guardStop_entered_drt (s : State) (g : Fin 6) : (s.guardStop g true).drt = s.drt := by
  have ended : ∀ u : State, (u.stopNeedsNoDrive g).drt = u.drt := by
    intro u
    by_cases done : u.stopDone g
    · rw [stopNeedsNoDrive_done done]
      unfold State.guardStopEnded
      dsimp only
      split <;> rfl
    · rw [stopNeedsNoDrive_other done]
  unfold State.guardStop
  dsimp only
  split
  · rfl
  · rfl
  · rw [guardEnterDwell_eq, ended, if_pos rfl]
    exact putGuard_drt ..

/-- A record that becomes withheld for overload has OFF or STOP entered, with a guard or without (R128, R152). -/
theorem commit_enters {s : State} {h : Handle} {old new : Record} (held : new.overloadHeld = true)
    (before : old.overloadHeld = false) : ∃ p ∈ (s.commit h old new).drt.pend, p.handle = h ∧ p.word = new.safeWord := by
  obtain ⟨x, a, -, reacts⟩ := commit_reacts s h old new
  rw [reacts]
  generalize ({ s.setSlot h x with agenda := a } : State) = u
  have entered : (u.enter h new new.safeWord).drt.pend = u.entered h new new.safeWord := by rw [enter_eq]; rfl
  have pend : (u.reactWithheld h old new (s.withheld h old)).drt.pend = u.entered h new new.safeWord := by
    unfold State.reactWithheld
    rw [held, before, Bool.not_false, Bool.and_self, if_pos rfl]
    dsimp only
    split
    · rw [guardStop_entered_drt, entered]
    · exact entered
  rw [pend]
  exact entered_mem u h new new.safeWord

/-- A guard that dwells has its slot emptied when its owner becomes withheld for overload, and is left alone otherwise. -/
theorem commit_guard {s : State} {h : Handle} {old new : Record} {g : Fin 6} (guard : new.guard = some g)
    (dwell : (s.guard g).state = .dwell) : (s.commit h old new).guard g
      = if new.overloadHeld = true ∧ old.overloadHeld = false then { s.guard g with slot := none } else s.guard g := by
  obtain ⟨x, a, -, reacts⟩ := commit_reacts s h old new
  rw [reacts]
  have same : ({ s.setSlot h x with agenda := a } : State).guard g = s.guard g := rfl
  generalize ({ s.setSlot h x with agenda := a } : State) = u at same
  have entered : ∀ w, (u.enter h new w).guard g = s.guard g := by
    intro w
    rw [enter_eq]
    exact same
  have differs : ∀ w, (u.enterIfDiffers h new w).guard g = s.guard g := by
    intro w
    unfold State.enterIfDiffers
    split
    · split
      · exact same
      · exact entered w
    · exact same
  unfold State.reactWithheld
  simp only [Bool.and_eq_true, Bool.not_eq_true', guard]
  split
  · rw [guardStop_dwell (by rw [entered]; exact dwell), setGuard_guard, entered]
  · split
    · split <;> exact same
    · split
      · split
        · exact differs _
        · exact same
      · exact same

/-! ### The outcome of a Drive (R87, R130, R131, R153) -/

/-- The outcome of a Drive has been heard: its handle's retire Drive has its mark, and the set is to be drained. -/
def State.driveHeard (s : State) (h : Handle) : State := (s.clearRetireMark h).callDrain

section
variable {s : State} {h : Handle}

theorem driveHeard_slot (s : State) (h : Handle) : (s.driveHeard h).slot h
    = { s.slot h with retireDrive := (s.slot h).retireDrive.afterOutcome } :=
  slot_modifySlot s h fun x => { x with retireDrive := x.retireDrive.afterOutcome }

theorem driveHeard_record (s : State) (h k : Handle) : (s.driveHeard h).record k = s.record k := by
  by_cases same : h = k
  · subst same
    unfold State.record
    rw [driveHeard_slot]
  · have kept : (s.driveHeard h).slot k = s.slot k := 
      slot_modifySlot_ne s (fun x => { x with retireDrive := x.retireDrive.afterOutcome }) same
    exact congrArg Slot.record kept

theorem driveHeard_live (s : State) (h k : Handle) : (s.driveHeard h).live k = s.live k :=
  live_of_record (driveHeard_record s h k)

theorem driveHeard_pair (s : State) (h : Handle) (gen : Byte) : (s.driveHeard h).livePair h gen = s.livePair h gen := by
  unfold State.livePair
  rw [driveHeard_slot, driveHeard_live]

theorem driveOutcome_replied (s : State) (d : DriveReq) (st : ReplyStatus) (pl : List Byte) (n : Nat) :
    s.driveOutcome d (.replied st pl n) = (s.driveHeard d.handle).driveReplied d st pl := rfl

/-- The outcome for a record that is gone is dropped (R74). -/
theorem driveOutcome_gone {d : DriveReq} (gone : s.livePair d.handle d.gen = none) (o : ReqOutcome) :
    s.driveOutcome d o = s.driveHeard d.handle := by
  have gone : (s.driveHeard d.handle).livePair d.handle d.gen = none := (driveHeard_pair s d.handle d.gen).trans gone
  cases o with
  | replied st pl n =>
    rw [driveOutcome_replied]
    simp only [State.driveReplied, gone]
  | noReply | checkError | collision =>
    unfold State.driveHeard at gone
    simp only [State.driveOutcome, gone]
    rfl
  | sent | abandoned => rfl

/-! ### A Drive that failed (R131) -/

/-- A record whose Drive has failed once. -/
def Record.driveLost (r : Record) : Record := { r with drive := some { lastPlaced := none, failed := true } }

section
variable {d : DriveReq} {r : Record} (pair : s.livePair d.handle d.gen = some r)
include pair

theorem driveOutcome_failed {o : ReqOutcome} (failed : o = .noReply ∨ o = .checkError ∨ o = .collision) :
    s.driveOutcome d o = (s.driveHeard d.handle).driveFailed d.handle := by
  have pair : (s.driveHeard d.handle).livePair d.handle d.gen = some r := (driveHeard_pair s d.handle d.gen).trans pair
  unfold State.driveHeard at pair
  rcases failed with rfl | rfl | rfl <;> simp only [State.driveOutcome, pair] <;> rfl

theorem driveHeard_holds : (s.driveHeard d.handle).live d.handle = some r :=
  (driveHeard_live s d.handle d.handle).trans (livePair_live pair)

/-- A failure at count 1 brings about nothing. -/
theorem driveFailed_again {x : DriveState} (drive : r.drive = some x) (again : x.failed = true) :
    (s.driveHeard d.handle).driveFailed d.handle = s.driveHeard d.handle := by
  simp only [State.driveFailed, driveHeard_holds pair, drive, again, if_true]

/-- A failure at count 0 has the output placed once more, or OFF or STOP; nothing under a pulse proof. -/
theorem driveFailed_first {x : DriveState} (drive : r.drive = some x) (first : x.failed = false) :
    let u := (s.driveHeard d.handle).setRecord d.handle r.driveLost
    let t := (s.driveHeard d.handle).driveFailed d.handle
    (r.overloadHeld = true → t = u.enter d.handle r r.safeWord)
      ∧ (r.overloadHeld = false → s.withheld d.handle r = true → t = u)
      ∧ (s.withheld d.handle r = false → ∀ w, s.placeWord r = some w → t = u.enter d.handle r w)
      ∧ t.record d.handle = some r.driveLost := by
  intro u t
  have fails : t = if r.overloadHeld then u.enter d.handle r r.safeWord
      else if s.withheld d.handle r then u
      else match s.placeWord r with
        | some w => u.enter d.handle r w
        | none => u := by
    simp only [t, State.driveFailed, driveHeard_holds pair, drive, first, Bool.false_eq_true, if_false,
      setDrive_live (driveHeard_holds pair), Option.map_some] <;> rfl
  have kept : ∀ w, (u.enter d.handle r w).record d.handle = some r.driveLost := fun w =>
    (record_of_fdir (enter_fdir ..) _).trans (setRecord_record ..)
  refine ⟨fun held => ?_, fun spared held => ?_, fun free w word => ?_, ?_⟩
  · rw [fails, held, if_pos rfl]
  · rw [fails, spared, held, if_neg Bool.false_ne_true, if_pos rfl]
  · rw [fails, overloadHeld_of_free free, free, word, if_neg Bool.false_ne_true, if_neg Bool.false_ne_true]
  · rw [fails]
    split
    · exact kept _
    · split
      · exact setRecord_record ..
      · split
        · exact kept _
        · exact setRecord_record ..

end

/-! ### A Drive REPLIED (R130, R153) -/

/-- The fault that a reply with another status than OK claims (R130). -/
def replyFault (st : ReplyStatus) (pl : List Byte) : RecFault :=
  if st = .fault then (if pl.head? = some 2 then .overload else .open) else .refused

theorem driveFault_eq (st : ReplyStatus) (pl : List Byte) :
    driveFault st pl = if st = .ok then none else some (replyFault st pl) := by
  cases st with
  | fault =>
    cases pl with
    | nil => rfl
    | cons b l => simp [driveFault, faultReading, replyFault]
  | _ => rfl

/-- A record whose Drive has been answered. -/
def Record.driveHeard (r : Record) : Record := { r with drive := r.drive.map fun x => { x with failed := false } }

/-- A usable record with a fault (R75). -/
def Record.faultedAs (f : RecFault) (r : Record) : Record :=
  { r with state := if r.state = .stale then .stale else .faulted
           before := if r.state = .stale then some .faulted else r.before
           fault := f }

theorem takeFault_eq (f : RecFault) (r : Record) :
    r.takeFault f = if r.state.usable then some (r.faultedAs f) else none := by
  obtain ⟨state⟩ := r
  cases state <;> rfl

theorem faultedAs_overloadHeld (f : RecFault) (r : Record) : (r.faultedAs f).overloadHeld = true ↔ f = .overload := by
  rw [overloadHeld_iff]
  unfold Record.faultedAs
  by_cases stale : r.state = .stale <;> simp [stale]

/-- A reply has been heard, and its fault claimed. -/
def Record.repliedWith (st : ReplyStatus) (pl : List Byte) (r : Record) : Record :=
  if st ≠ .ok ∧ r.state.usable = true then r.driveHeard.faultedAs (replyFault st pl) else r.driveHeard

/-- The part once the record has its contents after a reply, and the router and its guard have reacted. -/
def State.driveJudged (s : State) (h : Handle) (r : Record) (st : ReplyStatus) (pl : List Byte) : State :=
  if st ≠ .ok ∧ r.state.usable = true then
    ((s.driveHeard h).setRecord h r.driveHeard).commit h r.driveHeard (r.repliedWith st pl)
  else (s.driveHeard h).setRecord h r.driveHeard

/-- The guard that awaits a STOP is told of its reply (R153). -/
theorem guardDriveReplied_asked (s : State) (h : Handle) (w : OutWord) : s.AskedTo (s.guardDriveReplied h w) := by
  unfold State.guardDriveReplied
  split
  · split
    · split
      · exact guardStopEnded_asked ..
      · exact AskedTo_refl s
    · exact AskedTo_refl s
  · exact AskedTo_refl s

theorem guardStopEnded_drt (s : State) (g : Fin 6) : (s.guardStopEnded g).drt = s.drt := by
  unfold State.guardStopEnded
  dsimp only
  split <;> rfl

theorem guardDriveReplied_drt (s : State) (h : Handle) (w : OutWord) : (s.guardDriveReplied h w).drt = s.drt := by
  unfold State.guardDriveReplied
  split
  · split
    · split
      · exact guardStopEnded_drt ..
      · rfl
    · rfl
  · rfl

theorem guardDriveReplied_eq {r : Record} {g : Fin 6} (live : s.live h = some r) (guard : r.guard = some g) (w : OutWord) :
    s.guardDriveReplied h w = if w = .stop then s.guardStopEnded g else s := by
  simp only [State.guardDriveReplied, live, guard]

/-- A reply up to the ON start that it may be. -/
def State.driveTaken (s : State) (d : DriveReq) (r : Record) (st : ReplyStatus) (pl : List Byte) : State :=
  (s.driveJudged d.handle r st pl).guardDriveReplied d.handle d.word

theorem repliedWith_eq (st : ReplyStatus) (pl : List Byte) (r : Record) : ∃ x b f, r.repliedWith st pl
    = { r with state := x, before := b, fault := f, drive := r.drive.map fun y => { y with failed := false } } := by
  unfold Record.repliedWith
  split <;> exact ⟨_, _, _, rfl⟩

theorem driveJudged_asked (s : State) (h : Handle) (r : Record) (st : ReplyStatus) (pl : List Byte) :
    s.AskedTo (s.driveJudged h r st pl) := by
  have heard : s.AskedTo ((s.driveHeard h).setRecord h r.driveHeard) := ⟨_, _, _, _, rfl⟩
  unfold State.driveJudged
  split
  · exact AskedTo_trans heard (commit_asked ..)
  · exact heard

theorem driveTaken_asked (s : State) (d : DriveReq) (r : Record) (st : ReplyStatus) (pl : List Byte) :
    s.AskedTo (s.driveTaken d r st pl) :=
  AskedTo_trans (driveJudged_asked ..) (guardDriveReplied_asked ..)

section
variable {d : DriveReq} {r : Record}

/-- A record that becomes withheld for overload has OFF or STOP entered (R128). -/
theorem driveTaken_enters {st : ReplyStatus} {pl : List Byte} (claimed : st ≠ .ok) (overload : replyFault st pl = .overload)
    (usable : r.state.usable = true) (spared : r.overloadHeld = false) :
    ∃ p ∈ (s.driveTaken d r st pl).drt.pend, p.handle = d.handle ∧ p.word = if r.cls = .actuator then .stop else .off := by
  have becomes : r.repliedWith st pl = r.driveHeard.faultedAs (replyFault st pl) := if_pos ⟨claimed, usable⟩
  have held : (r.repliedWith st pl).overloadHeld = true := by rw [becomes, faultedAs_overloadHeld, overload]
  have safe : (r.repliedWith st pl).safeWord = if r.cls = .actuator then .stop else .off := by
    rw [becomes]
    exact if_congr beq_iff_eq rfl rfl
  unfold State.driveTaken State.driveJudged
  rw [guardDriveReplied_drt, if_pos ⟨claimed, usable⟩, ← safe]
  exact commit_enters held spared

variable (pair : s.livePair d.handle d.gen = some r)
include pair

theorem driveReplied_eq (st : ReplyStatus) (pl : List Byte) (n : Nat) :
    s.driveOutcome d (.replied st pl n) = (s.driveTaken d r st pl).driveOnStart d st := by
  have heard : (s.driveHeard d.handle).livePair d.handle d.gen = some r := (driveHeard_pair s d.handle d.gen).trans pair
  have live : (r.state == .retired) = false := live_not_retired (livePair_live pair)
  have told : ((s.driveHeard d.handle).setRecord d.handle r.driveHeard).livePair d.handle d.gen = some r.driveHeard :=
    livePair_eq.mpr ⟨(setRecord_gen ..).trans (livePair_eq.mp heard).1, live_of (setRecord_record ..) live⟩
  have judged : (match driveFault st pl with
      | some f => ((s.driveHeard d.handle).setRecord d.handle r.driveHeard).claim d.handle d.gen (Record.takeFault f)
      | none => (s.driveHeard d.handle).setRecord d.handle r.driveHeard) = s.driveJudged d.handle r st pl := by
    rw [driveFault_eq]
    unfold State.driveJudged Record.repliedWith
    by_cases ok : st = .ok
    · rw [if_pos ok, if_neg fun k => k.1 ok]
    · rw [if_neg ok]
      dsimp only
      have taken := takeFault_eq (replyFault st pl) r.driveHeard
      cases usable : r.state.usable with
      | true =>
        have usable' : r.driveHeard.state.usable = true := usable
        rw [usable', if_pos rfl] at taken
        rw [claim_some told taken, if_pos ⟨ok, rfl⟩, if_pos ⟨ok, rfl⟩]
      | false =>
        have usable' : r.driveHeard.state.usable = false := usable
        rw [usable', if_neg Bool.false_ne_true] at taken
        rw [if_neg fun k => Bool.false_ne_true k.2]
        simp only [State.claim, told, taken]
  rw [driveOutcome_replied, State.driveTaken, ← judged]
  simp only [State.driveReplied, heard, setDrive_live (livePair_live heard)]
  rfl

/-- The record after a reply, a motion of its guard's apart (R156). -/
theorem driveTaken_pair (st : ReplyStatus) (pl : List Byte) :
    ∃ m, (s.driveTaken d r st pl).livePair d.handle d.gen = some { r.repliedWith st pl with motion := m } := by
  have live : (r.state == .retired) = false := live_not_retired (livePair_live pair)
  have told : ((s.driveHeard d.handle).setRecord d.handle r.driveHeard).live d.handle = some r.driveHeard :=
    live_of (setRecord_record ..) live
  have gen : (((s.driveHeard d.handle).setRecord d.handle r.driveHeard).slot d.handle).gen = d.gen := by
    rw [setRecord_gen, driveHeard_slot]
    exact (livePair_eq.mp pair).1
  have stands : ((r.repliedWith st pl).state == .retired) = false := by
    unfold Record.repliedWith Record.faultedAs
    split
    · dsimp only
      split <;> rfl
    · exact live
  have judged : ((s.driveJudged d.handle r st pl).slot d.handle).gen = d.gen
      ∧ ∃ m, (s.driveJudged d.handle r st pl).record d.handle = some { r.repliedWith st pl with motion := m } := by
    unfold State.driveJudged
    split
    · have moves : Moves .claim _ _ := commit_moves .nil told (r.repliedWith st pl) stands
      exact ⟨(moves.gen (by decide) d.handle).trans gen, commit_record ..⟩
    · next silent =>
      have same : r.repliedWith st pl = r.driveHeard := if_neg silent
      rw [same]
      exact ⟨gen, r.motion, setRecord_record ..⟩
  obtain ⟨gen, m, record⟩ := judged
  have same := guardDriveReplied_fdir (s.driveJudged d.handle r st pl) d.handle d.word
  refine ⟨m, livePair_eq.mpr ⟨?_, live_of ((record_of_fdir same d.handle).trans record) stands⟩⟩
  exact (congrArg Slot.gen (slot_of_fdir same d.handle)).trans gen

/-- A guard that awaits STOP, with its slot emptied by an overload, is told of a STOP's reply (R128, R152, R153). -/
theorem driveTaken_guard (st : ReplyStatus) (pl : List Byte) {g : Fin 6} (guard : r.guard = some g)
    (dwell : (s.guard g).state = .dwell) (awaiting : (s.guard g).awaiting = true) :
    let x : Guard := if st ≠ .ok ∧ replyFault st pl = .overload ∧ r.state.usable = true ∧ r.overloadHeld = false
      then { s.guard g with slot := none } else s.guard g
    (s.driveTaken d r st pl).guard g = if d.word = .stop
      then { x with awaiting := false, deadTimer := some (s.now + ms x.dead) } else x := by
  intro x
  obtain ⟨_, _, _, same⟩ := repliedWith_eq st pl r
  have owned : (r.repliedWith st pl).guard = some g := by rw [same]; exact guard
  have judged : (s.driveJudged d.handle r st pl).guard g = x := by
    unfold State.driveJudged
    split
    · next claimed =>
      have before : r.driveHeard.overloadHeld = r.overloadHeld := rfl
      have becomes : r.repliedWith st pl = r.driveHeard.faultedAs (replyFault st pl) := if_pos claimed
      have dwell : (((s.driveHeard d.handle).setRecord d.handle r.driveHeard).guard g).state = .dwell := dwell
      rw [commit_guard owned dwell, before, becomes]
      refine if_congr ?_ rfl rfl
      rw [faultedAs_overloadHeld]
      exact ⟨fun k => ⟨claimed.1, k.1, claimed.2, k.2⟩, fun k => ⟨k.2.1, k.2.2.2⟩⟩
    · next silent => exact (if_neg fun k => silent ⟨k.1, k.2.2.1⟩).symm
  have waits : x.state = .dwell ∧ x.awaiting = true := by
    simp only [x]
    split <;> exact ⟨dwell, awaiting⟩
  obtain ⟨m, taken⟩ := driveTaken_pair pair st pl
  have live : (s.driveJudged d.handle r st pl).live d.handle = some { r.repliedWith st pl with motion := m } :=
    (live_of_record (record_of_fdir (guardDriveReplied_fdir _ _ d.word) d.handle)).symm.trans (livePair_live taken)
  obtain ⟨_, _, _, _, asked⟩ := driveJudged_asked s d.handle r st pl
  have now : (s.driveJudged d.handle r st pl).now = s.now := by rw [asked]
  rw [State.driveTaken, guardDriveReplied_eq live owned]
  split
  · rw [guardStopEnded_awaiting (by rw [judged]; exact waits.1) (by rw [judged]; exact waits.2), setGuard_guard, judged, now]
  · exact judged

end

/-! ### The ON start of a lamp (R100) -/

theorem claimSample_beside (s : State) (h : Handle) : Beside s (s.claimSample h).1 := by
  unfold State.claimSample
  split
  · split
    · exact claimSampleTo_beside ..
    · exact .refl s
  · exact .refl s

/-- What an ON start brings about leaves the router, the guards and the records as they are. -/
theorem onStart_keeps (s : State) (h : Handle) : (s.onStart h).drt = s.drt ∧ (s.onStart h).frt.guards = s.frt.guards
    ∧ ∀ k, (s.onStart h).record k = s.record k := by
  have proof : (s.proofOnStart h).drt = s.drt ∧ (s.proofOnStart h).frt.guards = s.frt.guards
      ∧ ∀ k, (s.proofOnStart h).record k = s.record k := by
    unfold State.proofOnStart
    split
    · next p _ =>
      split
      · rcases claimProof_same s p with claims | ⟨x, b, claims⟩ <;> rw [claims] <;> exact ⟨rfl, rfl, fun _ => rfl⟩
      · exact ⟨rfl, rfl, fun _ => rfl⟩
    · exact ⟨rfl, rfl, fun _ => rfl⟩
  obtain ⟨drt, guards, records⟩ := proof
  unfold State.onStart
  generalize s.proofOnStart h = u at drt guards records
  unfold State.confirmOnStart
  split
  · split
    · have beside := claimSample_beside (u.modifyConfirm h fun c => { c with phaseWait := false }) h
      exact ⟨beside.drt.trans drt, beside.guards.trans guards, fun k =>
        ((beside.slots k).1.trans (modifyConfirm_record u h k _)).trans (records k)⟩
    · exact ⟨drt, guards, records⟩
  · exact ⟨drt, guards, records⟩

/-- Whether a source has its lamps driven FLASH. -/
def OutWord.isFlash : OutWord → Bool
  | .flash _ => true
  | _ => false

section
variable {d : DriveReq} {r : Record} (pair : s.livePair d.handle d.gen = some r)
include pair

/-- A reply is no ON start unless it is the OK of a lamp's Drive ON. -/
theorem driveOnStart_other {st : ReplyStatus} (other : st ≠ .ok ∨ d.word ≠ .on ∨ r.cls ≠ .lamp ∨ r.tie = none) :
    s.driveOnStart d st = s := by
  simp only [State.driveOnStart, pair]
  split
  · next x tie =>
    refine if_neg fun starts => ?_
    simp only [Bool.and_eq_true, beq_iff_eq, Record.isLamp] at starts
    obtain ⟨⟨⟨⟨⟨ok, on⟩, lamp⟩, -⟩, -⟩, -⟩ := starts
    rcases other with other | other | other | other
    · exact other ok
    · exact other on
    · exact other lamp
    · rw [other] at tie
      cases tie
  · rfl

/-- The OK of a lamp's Drive ON is its ON start, where it is driven ON and OFF by phase (R100). -/
theorem driveOnStart_lamp (on : d.word = .on) (lamp : r.cls = .lamp) {x : Src} (tie : r.tie = some x) :
    s.driveOnStart d .ok = if (s.asks x false).isFlash = true then s
      else if s.demanded x = true ∧ s.phased x = true then s.onStart d.handle else s := by
  have channel : (s.flashChannel r).isNone = !(s.asks x false).isFlash := by
    unfold State.flashChannel
    rw [tie]
    dsimp only
    cases s.asks x false <;> rfl
  simp only [State.driveOnStart, pair, tie, on, Record.isLamp, lamp, channel, beq_self_eq_true, Bool.true_and,
    Bool.and_eq_true, Bool.not_eq_true']
  cases (s.asks x false).isFlash <;> simp

end

/-- An ON start leaves the router, the guards and the records as they are. -/
theorem driveOnStart_keeps (s : State) (d : DriveReq) (st : ReplyStatus) : (s.driveOnStart d st).drt = s.drt
    ∧ (s.driveOnStart d st).frt.guards = s.frt.guards ∧ ∀ k, (s.driveOnStart d st).record k = s.record k := by
  have stays : s.drt = s.drt ∧ s.frt.guards = s.frt.guards ∧ ∀ k, s.record k = s.record k := ⟨rfl, rfl, fun _ => rfl⟩
  unfold State.driveOnStart
  split
  · split
    · split
      · exact onStart_keeps s d.handle
      · exact stays
    · exact stays
  · exact stays

end

/-! ### The clauses of O30 -/

/-- A DRIVE taken of a record without a guard that is not withheld (R133). -/
theorem hostDrive_enters {s : State} {h : Handle} {r : Record} (usable : r.state.usable = true) (unguarded : r.guard = none)
    (spared : r.overloadHeld = false) {d : DriveState} (drive : r.drive = some d) (w : OutWord)
    (other : d.lastPlaced ≠ some w) : (s.hostDrive h r w).record h = some { r with wanted := some w }
      ∧ (s.hostDrive h r w).drt.pend = s.entered h r w := by
  rw [(hostDrive_asks usable unguarded spared drive w).2 other, enter_eq]
  refine ⟨setRecord_record .., ?_⟩
  change (s.setRecord h { r with wanted := some w }).entered h { r with wanted := some w } w = s.entered h r w
  unfold State.entered
  rw [setRecord_gen]
  rfl

/-- What the reply of a Drive makes of its record (R130). -/
theorem repliedWith_clauses (st : ReplyStatus) (pl : List Byte) (r : Record) : let x := r.repliedWith st pl
    x.drive = r.drive.map (fun y => { y with failed := false })
      ∧ x.binding = r.binding ∧ x.intended = r.intended ∧ x.wanted = r.wanted
      ∧ (st = .ok → x.state = r.state ∧ x.before = r.before ∧ x.fault = r.fault)
      ∧ (st ≠ .ok → r.state = .ready ∨ r.state = .bound ∨ r.state = .faulted →
          x.state = .faulted ∧ x.before = r.before ∧ x.fault = replyFault st pl)
      ∧ (st ≠ .ok → r.state = .stale → x.state = .stale ∧ x.before = some .faulted ∧ x.fault = replyFault st pl)
      ∧ (r.state = .provisional ∨ r.state = .proving → x.state = r.state ∧ x.fault = r.fault) := by
  intro x
  have heard : st = .ok ∨ r.state.usable = false → x = r.driveHeard := fun silent => if_neg fun k => by
    rcases silent with ok | unusable
    · exact k.1 ok
    · rw [unusable] at k
      exact Bool.false_ne_true k.2
  have faulted : st ≠ .ok → r.state.usable = true → x = r.driveHeard.faultedAs (replyFault st pl) := fun claimed usable =>
    if_pos ⟨claimed, usable⟩
  obtain ⟨_, _, _, same⟩ := repliedWith_eq st pl r
  have same : x = _ := same
  refine ⟨by rw [same], by rw [same], by rw [same], by rw [same], fun ok => ?_, fun claimed state => ?_,
    fun claimed state => ?_, fun state => ?_⟩
  · rw [heard (.inl ok)]
    exact ⟨rfl, rfl, rfl⟩
  · have fresh : r.state ≠ .stale := by rcases state with e | e | e <;> rw [e] <;> decide
    have usable : r.state.usable = true := by rcases state with e | e | e <;> rw [e] <;> rfl
    rw [faulted claimed usable]
    exact ⟨if_neg fresh, if_neg fresh, rfl⟩
  · have usable : r.state.usable = true := by rw [state]; rfl
    rw [faulted claimed usable]
    exact ⟨if_pos state, if_pos state, rfl⟩
  · have unusable : r.state.usable = false := by rcases state with e | e <;> rw [e] <;> rfl
    rw [heard (.inr unusable)]
    exact ⟨rfl, rfl⟩

/-- Settles O30: the effect of DRIVE, and what the outcome of a Drive does, dropped, replied or failed. -/
theorem driveEffect : Obligations.DriveEffect := by
  refine ⟨fun s h r w record usable => ⟨fun unguarded spared d drive => ⟨?_, fun other free => ?_, fun other holds => ?_⟩,
      fun unguarded held => hostDrive_withheld usable unguarded held w, fun q guard => ?_⟩,
    fun s d o gone => ?_, fun s d r pair => ⟨fun st pl n => ?replied, fun o x failed drive => ?failed⟩⟩
  · exact (hostDrive_asks usable unguarded spared drive w).1
  · obtain ⟨record, pend⟩ := hostDrive_enters (s := s) (h := h) usable unguarded spared drive w other
    refine ⟨record, pend.trans ?_⟩
    rw [State.entered, free, if_neg Bool.false_ne_true]
  · obtain ⟨-, pend⟩ := hostDrive_enters (s := s) (h := h) usable unguarded spared drive w other
    rw [pend, State.entered, if_pos holds]
  · simp only [State.hostDrive, guard, and_self]
  · rw [driveOutcome_gone gone]
    refine ⟨rfl, driveHeard_record s d.handle, ?_⟩
    rw [driveHeard_slot]
    cases (s.slot d.handle).retireDrive <;> rfl
  case replied =>
    intro t f
    have replied : t = (s.driveTaken d r st pl).driveOnStart d st := driveReplied_eq pair st pl n
    obtain ⟨m, taken⟩ := driveTaken_pair pair st pl
    obtain ⟨_, _, _, _, asked⟩ := driveTaken_asked s d r st pl
    obtain ⟨drt, guards, records⟩ := driveOnStart_keeps (s.driveTaken d r st pl) d st
    rw [← replied] at drt guards records
    obtain ⟨_, _, _, same⟩ := repliedWith_eq st pl r
    refine ⟨⟨_, (records d.handle).trans (live_record (livePair_live taken)), repliedWith_clauses st pl r⟩,
      fun fault overload usable spared => ?_,
      ⟨s.driveTaken d r st pl, by rw [asked], by rw [asked], by rw [asked], fun other => ?_, fun ok on lamp => ?_⟩,
      fun g guard dwell awaiting => ?_⟩
    · rw [drt]
      exact driveTaken_enters (by rw [fault]; decide) overload usable spared
    · rw [replied]
      refine driveOnStart_other taken ?_
      rcases other with other | other | other
      · exact .inl other
      · exact .inr (.inl other)
      · exact .inr (.inr (.inl (by rw [same]; exact other)))
    · subst ok
      have tied : Record.tie { r.repliedWith .ok pl with motion := m } = r.tie := by rw [same]; rfl
      have class' : Record.cls { r.repliedWith .ok pl with motion := m } = .lamp := by rw [same]; exact lamp
      refine ⟨fun untied => ?_, fun x tie => ?_⟩
      · rw [replied]
        exact driveOnStart_other taken (.inr (.inr (.inr (tied.trans untied))))
      · have asks : (s.driveTaken d r .ok pl).asks x false = s.asks x false :=
          asks_of_router (by rw [asked]) (by rw [asked]) x false
        have demanded : (s.driveTaken d r .ok pl).demanded x = s.demanded x := by rw [asked]; rfl
        have phased : (s.driveTaken d r .ok pl).phased x = s.phased x := by rw [asked]; rfl
        rw [replied, driveOnStart_lamp taken on class' (tied.trans tie), asks, demanded, phased]
        cases s.asks x false <;> rfl
    · have same : t.guard g = (s.driveTaken d r st pl).guard g := by
        unfold State.guard
        rw [guards]
      rw [same]
      exact driveTaken_guard pair st pl guard dwell awaiting
  case failed =>
    intro t
    have fails : t = (s.driveHeard d.handle).driveFailed d.handle := driveOutcome_failed pair failed
    refine ⟨fun again => ?_, fun first => ?_⟩
    · rw [fails, driveFailed_again pair drive again]
      exact ⟨live_record (driveHeard_holds pair), rfl⟩
    · obtain ⟨overload, pulse, places, record⟩ := driveFailed_first pair drive first
      rw [← fails] at overload pulse places record
      have safe : r.safeWord = if r.cls = .actuator then .stop else .off := if_congr beq_iff_eq rfl rfl
      refine ⟨record, fun held => ?_, fun spared held => ?_, fun free w word => ?_⟩
      · rw [overload held, ← safe, enter_eq]
        exact entered_mem _ d.handle r r.safeWord
      · rw [pulse spared held]
        rfl
      · rw [places free w word, enter_eq]
        exact entered_mem _ d.handle r w

end Sys2Proof.Machine

namespace Sys2Proof.Machine

/-! ### Turn phases and the combined sources (R116) -/

section
variable {s : State} {x : TurnSide}

theorem turnPhase_inactive (off : (s.source x.src).active = false) : s.turnPhase x = false := by
  simp only [State.turnPhase, off, Bool.false_and]

section
variable (on : (s.source x.src).active = true)
include on

theorem turnPhase_followed (form : (s.source x.src).form = .followed) : s.turnPhase x = s.turnInput x := by
  simp only [State.turnPhase, on, form, Bool.true_and]

theorem turnPhase_flashing {k : Chan} (form : (s.source x.src).form = .flashing k) :
    s.turnPhase x = s.chanPhase x.chan := by
  simp only [State.turnPhase, on, form, Bool.true_and]

end

theorem chanPhase_running {c : Chan} (running : s.chan c = .running) :
    s.chanPhase c = ((s.gen c.generator).run.map (·.on)).getD false := by
  simp only [State.chanPhase, running]
  cases (s.gen c.generator).run <;> rfl

theorem chanPhase_following (following : s.chan x.chan = .following) : s.chanPhase x.chan = s.turnInput x := by
  simp only [State.chanPhase, following]
  cases x <;> rfl

theorem chanPhase_off {c : Chan} (off : s.chan c = .stopped ∨ s.chan c = .joining) : s.chanPhase c = false := by
  rcases off with off | off <;> simp only [State.chanPhase, off]

theorem combinedActive_eq (s : State) (x : TurnSide) :
    s.combinedActive x = if (s.source x.src).active then s.turnPhase x else (s.source 2).active := by
  unfold State.combinedActive
  cases (s.source x.src).active
  · rw [Bool.false_and, Bool.false_or, Bool.not_false, Bool.and_true, if_neg Bool.false_ne_true]
  · rw [Bool.true_and, Bool.not_true, Bool.and_false, Bool.or_false, if_pos rfl]

end

/-! ### Channels and generators (R135 to R137, R140, R142) -/

theorem turnSideOf_eq : ∀ x : Src, turnSideOf x = if x = 3 then some .left else if x = 4 then some .right else none := by
  decide

theorem chanOf_eq (s : State) (x : Src) : s.chanOf x = if x = 3 then some .flL else if x = 4 then some .flR
    else if x = 9 then some .flB else if 12 ≤ x.val ∧ x.val = s.hcp.cfg.flvSource + 11 then some .flV else none := by
  have virtual : virtualOf s.hcp.cfg.flvSource = some x ↔ 12 ≤ x.val ∧ x.val = s.hcp.cfg.flvSource + 11 := by
    rw [virtualOf_eq_some, and_comm, eq_comm]
  unfold State.chanOf
  rw [if_congr virtual rfl rfl]

theorem effectivePeriod_eq (s : State) (g : Generator) (n : Nat) :
    s.effectivePeriod g n = if g = .pair ∧ s.turnFailCondition = true then n / 2 else n :=
  if_congr (by rw [Bool.and_eq_true, beq_iff_eq]) rfl rfl

section
variable {s : State} {c p : Chan} {v : ChanState}

theorem startChan_afresh (alone : ∀ p, c.partner = some p → s.chan p ≠ .running) :
    s.startChan c = (s.setChan c .running).startGen c.generator := by
  unfold State.startChan
  cases partner : c.partner with
  | none => rfl
  | some p => exact if_neg (by rw [beq_iff_eq]; exact alone p partner)

theorem startChan_joins (partner : c.partner = some p) (running : s.chan p = .running) :
    s.startChan c = s.setChan c .joining := by
  simp only [State.startChan, partner, running, BEq.rfl, if_true]

/-- A channel's change leaves its partner as it is. -/
theorem chan_setChan_partner (partner : c.partner = some p) : (s.setChan c v).chan p = s.chan p := by
  have other : (c.number : Nat) ≠ p.number := by
    cases c <;> cases partner <;> decide
  simp [State.chan, State.setChan, other]

theorem leaveChan_silent (silent : s.chan c ≠ .running) (v : ChanState) : s.leaveChan c v = s.setChan c v :=
  if_neg (by rw [beq_iff_eq]; exact silent)

section
variable (running : s.chan c = .running) (v : ChanState)
include running

theorem leaveChan_takenOver (partner : c.partner = some p) (joining : s.chan p = .joining) :
    s.leaveChan c v = ((s.setChan c v).setChan p .running).startGen c.generator := by
  simp only [State.leaveChan, running, BEq.rfl, if_true, partner, chan_setChan_partner partner, joining]

theorem leaveChan_beside (partner : c.partner = some p) (beside : s.chan p = .running) :
    s.leaveChan c v = s.setChan c v := by
  simp only [State.leaveChan, running, BEq.rfl, if_true, partner, chan_setChan_partner partner, beside]

theorem leaveChan_last (last : ∀ p, c.partner = some p → s.chan p = .stopped ∨ s.chan p = .following) :
    s.leaveChan c v = (s.setChan c v).stopGen c.generator := by
  simp only [State.leaveChan, running, BEq.rfl, if_true]
  cases partner : c.partner with
  | none => rfl
  | some p =>
    rcases last p partner with off | off <;> simp only [chan_setChan_partner partner, off]

end

end

/-- The follow mark that the channel of a turn source owes is dropped (log entry 50). -/
def State.dropFollowOwed (s : State) (x : Src) : State :=
  match turnSideOf x with
  | some side => s.setFollowOwed side none
  | none => s

section
variable {s : State} {x : Src}

theorem updateChan_unserved (unserved : s.chanOf x = none) : s.updateChan x = s := by
  simp only [State.updateChan, unserved]

section
variable {c : Chan} (served : s.chanOf x = some c)
include served

theorem updateChan_inactive (off : (s.source x).active = false) :
    s.updateChan x = (if s.chan c = .stopped then s else s.leaveChan c .stopped).dropFollowOwed x := by
  simp only [State.updateChan, served, off, Bool.not_false, if_true, beq_iff_eq]
  cases turn : turnSideOf x <;> simp only [State.dropFollowOwed, turn]

section
variable (on : (s.source x).active = true)
include on

theorem updateChan_steady (form : (s.source x).form = .steady) : s.updateChan x = s := by
  simp only [State.updateChan, served, on, form, Bool.not_true, Bool.false_eq_true, if_false]

theorem updateChan_flashing {k : Chan} (form : (s.source x).form = .flashing k) : s.updateChan x
    = if s.chan c = .stopped ∨ s.chan c = .following then (s.dropFollowOwed x).startChan c else s := by
  simp only [State.updateChan, served, on, form, Bool.not_true, Bool.false_eq_true, if_false, Bool.or_eq_true, beq_iff_eq]
  cases turn : turnSideOf x <;> simp only [State.dropFollowOwed, turn]

theorem updateChan_followed (form : (s.source x).form = .followed) {y : TurnSide} (turn : turnSideOf x = some y) :
    s.updateChan x = if s.chan c = .following then s else (s.leaveChan c .following).dueFollow y := by
  simp only [State.updateChan, served, on, form, turn, Bool.not_true, Bool.false_eq_true, if_false, beq_iff_eq]

end

end

end

/-! ### The edges of a turn input (R115, R143 to R145) -/

/-- What an edge of a turn input does besides its mode and its capture: nothing, or it changes the turn source, or the
source follows it. -/
inductive EdgeEffect where
  | still
  | changes (v : Source)
  | follows

def EdgeEffect.apply (x : TurnSide) (u : State) : EdgeEffect → State
  | .still => u
  | .changes v => u.changeSource x.src v
  | .follows => u.followedEdge x

/-- The turn source after an edge. -/
def EdgeEffect.result (v : Source) : EdgeEffect → Source
  | .changes w => w
  | .still | .follows => v

/-- A rising edge under 250 ms after the last one: the second in a row makes the source flash steadily (R143). -/
def Capture.shortPeriod (c : Capture) (chan : Chan) : Capture × EdgeEffect :=
  let bad := min 2 (c.bad + 1)
  if c.steady then ({ c with bad := bad }, .still)
  else if bad = 2 then ({ c with bad := bad, steady := true }, .changes { active := true, form := .flashing chan })
  else ({ c with bad := bad }, .follows)

/-- A rising edge 250 to 1500 ms after the last one: a source that flashes steadily follows again (R144). -/
def Capture.goodPeriod (c : Capture) : Capture × EdgeEffect :=
  if c.steady then ({ c with bad := 0, steady := false }, .changes { active := true, form := .followed })
  else ({ c with bad := 0 }, .follows)

/-- A later rising edge, which is followed unless the source flashes steadily. -/
def Capture.longPeriod (c : Capture) : Capture × EdgeEffect :=
  if c.steady then (c, .still) else (c, .follows)

/-- A rising edge of an active source: what follows from the time since the last one, good where there is none. -/
def Capture.laterRise (c : Capture) (chan : Chan) (now : Nat) : Capture × EdgeEffect :=
  let period := (c.lastRise.map (now - ·)).getD Config.goodPeriod
  let c := { c with lastRise := some now }
  if period < Config.goodPeriod then c.shortPeriod chan
  else if period ≤ Config.stretchTime then c.goodPeriod
  else c.longPeriod

/-- An edge in FOLLOW mode. -/
def Capture.edge (c : Capture) (v : Source) (chan : Chan) (now : Nat) (rising : Bool) : Capture × EdgeEffect :=
  if !rising then
    ({ c with lastFall := some now }, if v.active && v.form == .followed then .follows else .still)
  else if !v.active then
    ({ c with lastRise := some now, bad := 0, steady := false }, .changes { active := true, form := .followed })
  else c.laterRise chan now

/-- The capture at an edge that a changed mode takes effect at (R145). -/
def Capture.switched (follow rising : Bool) (now : Nat) : Capture where
  lastRise := if follow && rising then some now else none
  lastFall := if follow && !rising then some now else none
  bad := 0
  steady := false

/-- The form of a turn source in a mode, true for FOLLOW. -/
def modeForm (x : TurnSide) (follow : Bool) : Form := if follow then .followed else .flashing x.chan

/-- The capture and the effect of an edge of a turn input. -/
def State.edge (s : State) (x : TurnSide) (rising : Bool) : Capture × EdgeEffect :=
  let follow := s.hcp.cfg.follow x
  if follow != s.followMode x then
    (.switched follow rising s.now, .changes { active := rising, form := modeForm x follow })
  else if follow then (s.capture x).edge (s.source x.src) x.chan s.now rising
  else (s.capture x, .changes { active := rising, form := modeForm x follow })

theorem setFollowMode_self (s : State) (x : TurnSide) : s.setFollowMode x (s.followMode x) = s := by
  have same : s.frt.modes.set x.number (s.followMode x) = s.frt.modes := Vector.set_getElem_self _
  unfold State.setFollowMode
  rw [same]

theorem setCapture_self (s : State) (x : TurnSide) : s.setCapture x (s.capture x) = s := by
  have same : s.frt.captures.set x.number (s.capture x) = s.frt.captures := Vector.set_getElem_self _
  unfold State.setCapture
  rw [same]

theorem switchMode_eq (s : State) (x : TurnSide) (b : Bool) : s.switchMode x b
    = ((s.setFollowMode x (s.hcp.cfg.follow x)).setCapture x (.switched (s.hcp.cfg.follow x) b s.now)).changeSource x.src
      { active := b, form := modeForm x (s.hcp.cfg.follow x) } := by
  unfold State.switchMode
  cases s.hcp.cfg.follow x
  · rfl
  · cases b <;> rfl

theorem followEdge_eq (s : State) (x : TurnSide) (b : Bool) :
    let e := (s.capture x).edge (s.source x.src) x.chan s.now b
    s.followEdge x b = e.2.apply x (s.setCapture x e.1) := by
  intro e
  unfold State.followEdge
  cases b
  · cases follows : (s.source x.src).active && (s.source x.src).form == .followed
    all_goals simp only [e, Capture.edge, follows, EdgeEffect.apply, Bool.not_false, Bool.false_eq_true, if_true, if_false]
  · cases active : (s.source x.src).active
    · simp only [e, Capture.edge, active, EdgeEffect.apply, Bool.not_false, Bool.not_true, Bool.false_eq_true, if_true, if_false]
    · cases rise : (s.capture x).lastRise
      all_goals
        simp only [e, Capture.edge, Capture.laterRise, Capture.shortPeriod, Capture.goodPeriod, Capture.longPeriod, active,
          rise, Option.map_none, Option.map_some, Option.getD_none, Option.getD_some, Bool.not_true, Bool.false_eq_true, if_false]
        split_ifs <;> rfl

/-- An edge of a turn input: its mode, its capture, and its effect. -/
theorem turnEdge_eq (s : State) (x : TurnSide) (b : Bool) : s.turnEdge x b
    = (s.edge x b).2.apply x ((s.setFollowMode x (s.hcp.cfg.follow x)).setCapture x (s.edge x b).1) := by
  unfold State.turnEdge State.edge
  dsimp only
  by_cases same : s.hcp.cfg.follow x = s.followMode x
  · have unswitched : ¬ (s.hcp.cfg.follow x != s.followMode x) = true := by rw [bne_iff_ne, not_not]; exact same
    rw [if_neg unswitched, if_neg unswitched, same, setFollowMode_self]
    cases s.followMode x
    · rw [if_neg Bool.false_ne_true, if_neg Bool.false_ne_true, setCapture_self]
      rfl
    · rw [if_pos rfl, if_pos rfl, followEdge_eq]
  · have switched : (s.hcp.cfg.follow x != s.followMode x) = true := by rw [bne_iff_ne]; exact same
    rw [if_pos switched, if_pos switched, switchMode_eq]
    rfl

section
variable {c : Capture} {chan : Chan} {v : Source} {now : Nat}

theorem edge_fall : c.edge v chan now false
    = ({ c with lastFall := some now }, if v.active && v.form == .followed then .follows else .still) := rfl

theorem edge_first (off : v.active = false) : c.edge v chan now true
    = ({ c with lastRise := some now, bad := 0, steady := false }, .changes { active := true, form := .followed }) := by
  simp only [Capture.edge, off, Bool.not_true, Bool.not_false, Bool.false_eq_true, if_true, if_false]

theorem edge_later (on : v.active = true) : c.edge v chan now true = c.laterRise chan now := by
  simp only [Capture.edge, on, Bool.not_true, Bool.false_eq_true, if_false]

theorem shortPeriod_bad (c : Capture) (chan : Chan) : (c.shortPeriod chan).1.bad = min 2 (c.bad + 1) := by
  unfold Capture.shortPeriod
  dsimp only
  split_ifs <;> rfl

theorem shortPeriod_keeps (kept : c.steady = true ∨ c.bad = 0) (chan : Chan) (v : Source) :
    (c.shortPeriod chan).1.steady = c.steady ∧ (c.shortPeriod chan).2.result v = v := by
  unfold Capture.shortPeriod
  cases steady : c.steady
  · have first : c.bad = 0 := kept.resolve_left (by rw [steady]; decide)
    simp only [first, Bool.false_eq_true, if_false]
    exact ⟨rfl, rfl⟩
  · exact ⟨rfl, rfl⟩

theorem shortPeriod_second (unsteady : c.steady = false) (bad : 1 ≤ c.bad) (chan : Chan) (v : Source) :
    (c.shortPeriod chan).1.steady = true
      ∧ (c.shortPeriod chan).2.result v = { active := true, form := .flashing chan } := by
  have second : min 2 (c.bad + 1) = 2 := by omega
  simp only [Capture.shortPeriod, unsteady, second, Bool.false_eq_true, if_false, if_true, EdgeEffect.result, and_self]

theorem goodPeriod_clears (c : Capture) (v : Source) : c.goodPeriod.1.bad = 0 ∧ c.goodPeriod.1.steady = false
    ∧ c.goodPeriod.2.result v = if c.steady then { active := true, form := .followed } else v := by
  unfold Capture.goodPeriod
  cases c.steady
  · exact ⟨rfl, rfl, rfl⟩
  · exact ⟨rfl, rfl, rfl⟩

theorem longPeriod_keeps (c : Capture) (v : Source) : c.longPeriod.1 = c ∧ c.longPeriod.2.result v = v := by
  unfold Capture.longPeriod
  split <;> exact ⟨rfl, rfl⟩

theorem laterRise_times (c : Capture) (chan : Chan) (now : Nat) :
    (c.laterRise chan now).1.lastRise = some now ∧ (c.laterRise chan now).1.lastFall = c.lastFall := by
  unfold Capture.laterRise Capture.shortPeriod Capture.goodPeriod Capture.longPeriod
  dsimp only
  split_ifs <;> exact ⟨rfl, rfl⟩

theorem edge_rise (c : Capture) (v : Source) (chan : Chan) (now : Nat) :
    (c.edge v chan now true).1.lastRise = some now ∧ (c.edge v chan now true).1.lastFall = c.lastFall := by
  cases active : v.active
  · rw [edge_first active]
    exact ⟨rfl, rfl⟩
  · rw [edge_later active]
    exact laterRise_times c chan now

section
variable {d : Nat} (period : c.lastRise.map (now - ·) = some d)
include period

theorem laterRise_short (short : d < ms 250) :
    c.laterRise chan now = { c with lastRise := some now }.shortPeriod chan := by
  unfold Capture.laterRise
  rw [period]
  exact if_pos short

theorem laterRise_good (least : ms 250 ≤ d) (most : d ≤ ms 1500) :
    c.laterRise chan now = { c with lastRise := some now }.goodPeriod := by
  unfold Capture.laterRise
  rw [period]
  exact (if_neg (Nat.not_lt.mpr least)).trans (if_pos most)

theorem laterRise_long (long : ms 1500 < d) :
    c.laterRise chan now = { c with lastRise := some now }.longPeriod := by
  unfold Capture.laterRise
  rw [period]
  have least : ¬ d < ms 250 := by unfold ms at long ⊢; omega
  exact (if_neg least).trans (if_neg (Nat.not_le.mpr long))

end

/-- An edge that leaves the capture of a following source not steady, as it was, is followed (R118). -/
theorem edge_follows (b : Bool) (before : c.steady = false)
    (after : (c.edge { active := true, form := .followed } chan now b).1.steady = false) :
    (c.edge { active := true, form := .followed } chan now b).2 = .follows := by
  cases b
  · rfl
  · rw [edge_later rfl] at after ⊢
    simp only [Capture.laterRise, Capture.shortPeriod, Capture.goodPeriod, Capture.longPeriod, before, Bool.false_eq_true,
      if_false] at after ⊢
    split_ifs at after ⊢ <;> rfl

/-- An edge changes a source, or leaves it as it was. -/
theorem result_changes {u : State} {x : TurnSide} (e : EdgeEffect) (other : e.result (u.source x.src) ≠ u.source x.src) :
    e.apply x u = u.changeSource x.src (e.result (u.source x.src)) := by
  cases e with
  | changes => rfl
  | still => exact absurd rfl other
  | follows => exact absurd rfl other

theorem result_stands {u : State} {x : TurnSide} (e : EdgeEffect) (same : e.result (u.source x.src) = u.source x.src) :
    e.apply x u = u ∨ e.apply x u = u.changeSource x.src (u.source x.src) ∨ e.apply x u = (u.route x.src).dueFollow x := by
  cases e with
  | still => exact .inl rfl
  | changes v =>
    have same : v = u.source x.src := same
    exact .inr (.inl (by rw [← same]; rfl))
  | follows => exact .inr (.inr rfl)

end

section
variable {s : State} {x : TurnSide}

theorem edge_switched (switched : s.hcp.cfg.follow x ≠ s.followMode x) (b : Bool) : s.edge x b
    = (.switched (s.hcp.cfg.follow x) b s.now, .changes { active := b, form := modeForm x (s.hcp.cfg.follow x) }) :=
  if_pos (bne_iff_ne.mpr switched)

theorem edge_level (level : s.followMode x = false) (setting : s.hcp.cfg.follow x = false) (b : Bool) :
    s.edge x b = (s.capture x, .changes { active := b, form := .flashing x.chan }) := by
  simp only [State.edge, level, setting, bne_self_eq_false, Bool.false_eq_true, if_false, modeForm]

theorem edge_followed (setting : s.hcp.cfg.follow x = true) (mode : s.followMode x = true) (b : Bool) :
    s.edge x b = (s.capture x).edge (s.source x.src) x.chan s.now b := by
  simp only [State.edge, mode, setting, bne_self_eq_false, Bool.false_eq_true, if_false, if_true]

end

/-! ### What a change of a source leaves unchanged -/

theorem putSource_frt (s : State) (x : Src) (v : Source) : (s.putSource x v).frt = s.frt := by
  obtain ⟨_, _, _, same⟩ := putSource_routed s x v
  rw [same]
  rfl

theorem capture_of_captures {s t : State} (same : t.frt.captures = s.frt.captures) (x : TurnSide) :
    t.capture x = s.capture x := by
  unfold State.capture
  rw [same]

theorem changeSource_captures (s : State) (x : Src) (v : Source) :
    (s.changeSource x v).frt.captures = s.frt.captures := by
  obtain ⟨_, _, _, _, same⟩ := updateChan_flashed (s.putSource x v) x
  unfold State.changeSource
  rw [same]
  change (s.putSource x v).frt.captures = s.frt.captures
  rw [putSource_frt]

section
variable (x : TurnSide) (u : State) (e : EdgeEffect)

theorem followedEdge_source (u : State) (x : TurnSide) (y : Src) : (u.followedEdge x).source y = u.source y :=
  RoutedTo_source (route_routed u x.src) y

theorem followedEdge_frt (u : State) (x : TurnSide) : (u.followedEdge x).frt = u.frt := by
  obtain ⟨_, _, _, same⟩ := route_routed u x.src
  unfold State.followedEdge
  rw [same]
  rfl

theorem apply_source : (e.apply x u).source x.src = e.result (u.source x.src) := by
  cases e with
  | still => rfl
  | changes v => exact changeSource_source u x.src v
  | follows => exact followedEdge_source u x x.src

theorem apply_captures : (e.apply x u).frt.captures = u.frt.captures := by
  cases e with
  | still => rfl
  | changes v => exact changeSource_captures u x.src v
  | follows => exact congrArg Frt.captures (followedEdge_frt u x)

theorem apply_fixed : (e.apply x u).fixed = u.fixed := by
  cases e with
  | still => rfl
  | changes v => exact (changeSource_moves (ad := false) .nil x.src v).fixed
  | follows => exact (followedEdge_moves (w := .walk) .nil x).fixed

end

/-! ### The end of a change of a demand input (R116) -/

/-- The combined source of a side (R114). -/
def combinedSrc : TurnSide → Src
  | .left => 10
  | .right => 11

/-- `t` has the inputs, the channels, the running generators and all but the combined sources of `s`. -/
structure State.PhasedAs (s t : State) : Prop where
  sources : ∀ y, y ≠ 10 → y ≠ 11 → t.source y = s.source y
  inputs : t.drt.inputs = s.drt.inputs
  chans : t.frt.chans = s.frt.chans
  run : ∀ g, (t.gen g).run = (s.gen g).run

section
variable {s t : State}

theorem PhasedAs_trans {u : State} (h : s.PhasedAs t) (k : t.PhasedAs u) : s.PhasedAs u :=
  ⟨fun y a b => (k.sources y a b).trans (h.sources y a b), k.inputs.trans h.inputs, k.chans.trans h.chans,
    fun g => (k.run g).trans (h.run g)⟩

theorem chanPhase_phasedAs (same : s.PhasedAs t) (c : Chan) : t.chanPhase c = s.chanPhase c := by
  have chan : t.chan c = s.chan c := by
    unfold State.chan
    rw [same.chans]
  unfold State.chanPhase State.turnInput
  rw [chan, same.run, same.inputs]

theorem turnPhase_phasedAs (same : s.PhasedAs t) (x : TurnSide) : t.turnPhase x = s.turnPhase x := by
  have source : t.source x.src = s.source x.src := same.sources _ (by cases x <;> decide) (by cases x <;> decide)
  unfold State.turnPhase State.turnInput
  rw [source, chanPhase_phasedAs same, same.inputs]

theorem combinedActive_phasedAs (same : s.PhasedAs t) (x : TurnSide) : t.combinedActive x = s.combinedActive x := by
  have source : t.source x.src = s.source x.src := same.sources _ (by cases x <;> decide) (by cases x <;> decide)
  rw [combinedActive_eq, combinedActive_eq, source, turnPhase_phasedAs same, same.sources 2 (by decide) (by decide)]

theorem putSource_phasedAs (s : State) (x : TurnSide) (v : Source) : s.PhasedAs (s.putSource (combinedSrc x) v) where
  sources y left right := putSource_source_ne s v (by cases x <;> [exact left.symm; exact right.symm])
  inputs := congrArg Fixed.inputs (putSource_moves (ad := false) .nil (combinedSrc x) v).fixed
  chans := congrArg Frt.chans (putSource_frt s (combinedSrc x) v)
  run g := by
    unfold State.gen
    rw [putSource_frt]

theorem recombine_phasedAs (s : State) : s.PhasedAs s.recombine :=
  PhasedAs_trans (putSource_phasedAs s .left _) (putSource_phasedAs _ .right _)

/-- After a change the combined sources are active by the turn phases (R116). -/
theorem recombine_combined (s : State) (x : TurnSide) :
    s.recombine.source (combinedSrc x) = { active := s.combinedActive x, form := .steady } := by
  cases x with
  | left => exact (putSource_source_ne _ _ (by decide)).trans (putSource_source ..)
  | right =>
    exact (putSource_source ..).trans
      (congrArg (Source.mk · .steady) (combinedActive_phasedAs (putSource_phasedAs s .left _) .right))

theorem recombine_frt (s : State) : s.recombine.frt = s.frt :=
  (putSource_frt ..).trans (putSource_frt ..)

/-- What claims and the walk leave alone of the generators. -/
theorem Move.run {v : Reach} (m : Move v s t) (short : v = .claim ∨ v = .more .walk) (g : Generator) :
    (t.gen g).run = (s.gen g).run := by
  cases m with
  | owed k o =>
    obtain ⟨_, _, _, _, _, gens⟩ := (Move.owed (v := .claim) (s := s) k o).claim
    exact (gens g).1
  | flash f => rcases short with e | e <;> cases e
  | _ => rfl

theorem Moves.run {v : Reach} (m : Moves v s t) (short : v = .claim ∨ v = .more .walk) (g : Generator) :
    (t.gen g).run = (s.gen g).run := by
  induction m with
  | nil => rfl
  | snoc _ m ih => exact (m.run short g).trans ih

theorem finish_gen_run (s : State) (host : Bool) (g : Generator) : ((s.finish host).gen g).run = (s.gen g).run := by
  have m : Moves (.more .walk) s s.bueCheck.settleClaims := settleClaims_moves (bueCheck_moves .nil)
  obtain ⟨x, arbitrated⟩ := arbitrate_tdl s.bueCheck.settleClaims
  have run := m.run (.inr rfl) g
  unfold State.finish State.settleEvent
  rw [arbitrated]
  generalize s.bueCheck.settleClaims = u at run
  cases host
  · exact run
  · exact run

theorem finish_phasedAs (s : State) (host : Bool) : s.PhasedAs (s.finish host) where
  sources y _ _ := source_of_sources (finish_sources s host).1 y
  inputs := congrArg Fixed.inputs (finish_fixed s host)
  chans := (finish_sources s host).2.1
  run := finish_gen_run s host

end

/-- What ends a change of a turn source, and of a demand input: the combined sources, and the end of the event. -/
def State.recombined (s : State) : State := s.recombine.finish false

section
variable (s : State)

theorem recombined_phasedAs : s.PhasedAs s.recombined :=
  PhasedAs_trans (recombine_phasedAs s) (finish_phasedAs _ false)

theorem recombined_source {y : Src} (left : y ≠ 10) (right : y ≠ 11) : s.recombined.source y = s.source y :=
  (recombined_phasedAs s).sources y left right

theorem recombined_turnSource (x : TurnSide) : s.recombined.source x.src = s.source x.src :=
  recombined_source s (by cases x <;> decide) (by cases x <;> decide)

theorem recombined_fixed : s.recombined.fixed = s.fixed :=
  (finish_fixed ..).trans (recombine_moves (ad := false) .nil).fixed

theorem recombined_capture (x : TurnSide) : s.recombined.capture x = s.capture x := by
  obtain ⟨-, -, captures, -⟩ := finish_sources s.recombine false
  have same : s.recombined.frt.captures = s.frt.captures := captures.trans (congrArg Frt.captures (recombine_frt s))
  exact capture_of_captures same x

theorem recombined_combined (x : TurnSide) : s.recombined.source (combinedSrc x)
    = { active := if (s.recombined.source x.src).active then s.recombined.turnPhase x else (s.recombined.source 2).active
        form := .steady } := by
  rw [← combinedActive_eq, combinedActive_phasedAs (recombined_phasedAs s)]
  exact (source_of_sources (finish_sources s.recombine false).1 _).trans (recombine_combined s x)

end

/-! ### DEMAND_INPUT_CHANGE and FOLLOW_STRETCH_END -/

def State.withInput (s : State) (i : Fin 10) (b : Bool) : State :=
  { s with drt := { s.drt with inputs := s.drt.inputs.set i b } }

/-- An edge of the turn input `i` of side `x` has the mode set in force and is captured. -/
def State.captured (s : State) (i : Fin 10) (x : TurnSide) (b : Bool) : State :=
  ((s.withInput i b).setFollowMode x (s.hcp.cfg.follow x)).setCapture x (s.edge x b).1

/-- The edge has its effect. -/
def State.edged (s : State) (i : Fin 10) (x : TurnSide) (b : Bool) : State := (s.edge x b).2.apply x (s.captured i x b)

theorem exec_demandInputChange (i : Fin 10) (b : Bool) (s : State) : exec (.demandInputChange i b) s
    = runEvent s (if s.drt.inputs[i] = b then none else some (s.inputChange i b)) := rfl

theorem exec_followStretchEnd (x : TurnSide) (s : State) : exec (.followStretchEnd x) s
    = runEvent s (if s.followMode x && (s.source x.src).active then
        (s.capture x).lastRise.map fun t => (s.advanceTo (t + ms 1500)).endStretch x else none) := rfl

theorem demandInputChange_stands {s : State} {i : Fin 10} {b : Bool} (stands : s.drt.inputs[i] = b) :
    exec (.demandInputChange i b) s = .next s := by
  rw [exec_demandInputChange, if_pos stands, runEvent_none]

section
variable {s : State} (awake : s.hcp.inReset = false) {i : Fin 10} {b : Bool}
include awake

section
variable (edge : s.drt.inputs[i] = !b)
include edge

theorem demandInputChange_wired (wired : turnSideOf (inputSrc i) = none) : exec (.demandInputChange i b) s
    = .next ((s.withInput i b).changeSource (inputSrc i) { s.source (inputSrc i) with active := b }).recombined := by
  have differs : s.drt.inputs[i] ≠ b := by rw [edge]; exact Bool.not_ne_self b
  rw [exec_demandInputChange, if_neg differs, runEvent_some awake]
  simp only [State.inputChange, if_neg differs, wired]
  rfl

theorem demandInputChange_turn {x : TurnSide} (turn : turnSideOf (inputSrc i) = some x) :
    exec (.demandInputChange i b) s = .next (s.edged i x b).recombined := by
  have differs : s.drt.inputs[i] ≠ b := by rw [edge]; exact Bool.not_ne_self b
  rw [exec_demandInputChange, if_neg differs, runEvent_some awake]
  simp only [State.inputChange, if_neg differs, turn, turnEdge_eq]
  rfl

end

theorem followStretchEnd_ends {x : TurnSide} {e : Nat} (mode : s.followMode x = true)
    (on : (s.source x.src).active = true) (rise : (s.capture x).lastRise = some e) : exec (.followStretchEnd x) s
    = .next (((s.advanceTo (e + ms 1500)).setCapture x { s.capture x with bad := 0, steady := false }).changeSource x.src
      { active := false, form := .followed }).recombined := by
  rw [exec_followStretchEnd, mode, on, Bool.and_self, if_pos rfl, rise, Option.map_some, runEvent_some awake]
  rfl

end

section
variable (s : State) (i : Fin 10) (x : TurnSide) (b : Bool)

@[simp] theorem setCapture_capture (c : Capture) : (s.setCapture x c).capture x = c := by
  simp [State.capture, State.setCapture]

theorem edged_source : (s.edged i x b).recombined.source x.src = (s.edge x b).2.result (s.source x.src) :=
  (recombined_turnSource ..).trans (apply_source ..)

theorem edged_capture : (s.edged i x b).recombined.capture x = (s.edge x b).1 :=
  (recombined_capture ..).trans ((capture_of_captures (apply_captures ..) x).trans (setCapture_capture ..))

theorem edged_fixed : (s.edged i x b).recombined.fixed = { s.fixed with
    inputs := s.drt.inputs.set i b, modes := s.frt.modes.set x.number (s.hcp.cfg.follow x) } :=
  (recombined_fixed ..).trans (apply_fixed ..)

theorem modes_of_fixed {t : State} {f : Fixed} (same : t.fixed = f) : t.frt.modes = f.modes := congrArg Fixed.modes same

theorem edged_modes : (s.edged i x b).recombined.frt.modes = s.frt.modes.set x.number (s.hcp.cfg.follow x) :=
  modes_of_fixed (edged_fixed s i x b)

theorem edged_followMode : (s.edged i x b).recombined.followMode x = s.hcp.cfg.follow x := by
  unfold State.followMode
  rw [edged_modes]
  exact Vector.getElem_set_self _

/-- Inputs and modes apart, an edge leaves what nothing on the trailer's side changes. -/
theorem edged_fixed_modes : (s.edged i x b).recombined.fixed = { s.fixed with
    inputs := s.drt.inputs.set i b, modes := (s.edged i x b).recombined.frt.modes } := by
  rw [edged_modes]
  exact edged_fixed s i x b

end

section
variable {s : State} (i : Fin 10) {x : TurnSide} {b : Bool}

/-- An edge in LEVEL mode. -/
theorem edged_level (mode : s.followMode x = false) (setting : s.hcp.cfg.follow x = false) :
    (s.edged i x b).recombined.source x.src = { active := b, form := .flashing x.chan }
      ∧ (s.edged i x b).recombined.frt.modes = s.frt.modes := by
  refine ⟨?_, ?_⟩
  · rw [edged_source, edge_level mode setting]
    rfl
  · rw [edged_modes, setting, ← mode]
    exact congrArg (fun u : State => u.frt.modes) (setFollowMode_self s x)

/-- An edge at which a changed mode takes effect. -/
theorem edged_switched (switched : s.hcp.cfg.follow x ≠ s.followMode x) : let t := (s.edged i x b).recombined
    t.source x.src = { active := b, form := modeForm x (s.hcp.cfg.follow x) }
      ∧ t.capture x = .switched (s.hcp.cfg.follow x) b s.now := by
  intro t
  rw [edged_source, edged_capture, edge_switched switched]
  exact ⟨rfl, rfl⟩

/-- An edge in FOLLOW mode. -/
theorem edged_follow (setting : s.hcp.cfg.follow x = true) (mode : s.followMode x = true) :
    let t := (s.edged i x b).recombined
    let e := (s.capture x).edge (s.source x.src) x.chan s.now b
    t.capture x = e.1 ∧ t.source x.src = e.2.result (s.source x.src) := by
  intro t e
  rw [edged_source, edged_capture, edge_followed setting mode]
  exact ⟨rfl, rfl⟩

end

/-- The sources of the demand inputs but the turn inputs are wired (R114). -/
theorem turnSideOf_inputSrc : ∀ i : Fin 10, i ≠ 3 → i ≠ 4 → turnSideOf (inputSrc i) = none := by
  decide

/-- Where the turn source is inactive, the combined source of its side follows STOP (R116). -/
theorem recombined_stop {u : State} {x : TurnSide} {b : Bool} (off : (u.source x.src).active = false)
    (stop : (u.source 2).active = b) : u.recombined.source (combinedSrc x) = { active := b, form := .steady } := by
  rw [recombined_combined, recombined_turnSource, off, if_neg Bool.false_ne_true,
    recombined_source u (by decide) (by decide), stop]

/-- The change of a wired input, whose source follows it. -/
theorem wired_clauses (s : State) (i : Fin 10) (b : Bool) :
    let t := ((s.withInput i b).changeSource (inputSrc i) { s.source (inputSrc i) with active := b }).recombined
    t.fixed = { s.fixed with inputs := s.drt.inputs.set i b, modes := t.frt.modes } ∧ t.frt.modes = s.frt.modes
      ∧ t.source (inputSrc i) = { s.source (inputSrc i) with active := b } := by
  intro t
  have fixed : t.fixed = (s.withInput i b).fixed :=
    (recombined_fixed _).trans (changeSource_moves (ad := false) .nil _ _).fixed
  have modes : t.frt.modes = s.frt.modes := modes_of_fixed fixed
  have low : (inputSrc i).val < 10 := i.isLt
  refine ⟨?_, modes, ?_⟩
  · rw [modes, fixed]
    rfl
  · rw [recombined_source _ (fun e => by rw [e] at low; omega) (fun e => by rw [e] at low; omega), changeSource_source]

/-- An edge in FOLLOW mode, by its direction, the source, and the time since the last rising edge (R143, R144). -/
theorem followed_clauses (c : Capture) (v : Source) (chan : Chan) (now : Nat) (b : Bool) :
    let e := c.edge v chan now b
    (b = false → e.1 = { c with lastFall := some now } ∧ e.2.result v = v)
      ∧ (b = true → e.1.lastRise = some now ∧ e.1.lastFall = c.lastFall)
      ∧ (b = true → v.active = false → e.1.bad = 0 ∧ e.1.steady = false ∧
        e.2.result v = { active := true, form := .followed })
      ∧ ∀ d, b = true → v.active = true → c.lastRise.map (fun a => now - a) = some d →
        (d < ms 250 → e.1.bad = min 2 (c.bad + 1)
          ∧ (c.steady = true ∨ c.bad = 0 → e.1.steady = c.steady ∧ e.2.result v = v)
          ∧ (c.steady = false → 1 ≤ c.bad → e.1.steady = true ∧
            e.2.result v = { active := true, form := .flashing chan }))
        ∧ (ms 250 ≤ d → d ≤ ms 1500 → e.1.bad = 0 ∧ e.1.steady = false
          ∧ (c.steady = true → e.2.result v = { active := true, form := .followed })
          ∧ (c.steady = false → e.2.result v = v))
        ∧ (ms 1500 < d → e.1.bad = c.bad ∧ e.1.steady = c.steady ∧ e.2.result v = v) := by
  intro e
  refine ⟨fun fall => ?_, fun rise => ?_, fun rise off => ?_, fun d rise on period =>
    ⟨fun short => ?_, fun least most => ?_, fun long => ?_⟩⟩
  all_goals
    subst b
    simp only [e]
  · rw [edge_fall]
    refine ⟨rfl, ?_⟩
    dsimp only
    split <;> rfl
  · exact edge_rise c v chan now
  · rw [edge_first off]
    exact ⟨rfl, rfl, rfl⟩
  · rw [edge_later on, laterRise_short period short]
    exact ⟨shortPeriod_bad .., fun kept => shortPeriod_keeps (c := { c with lastRise := some now }) kept chan v,
      fun unsteady bad => shortPeriod_second (c := { c with lastRise := some now }) unsteady bad chan v⟩
  · rw [edge_later on, laterRise_good period least most]
    obtain ⟨bad, steady, result⟩ := goodPeriod_clears { c with lastRise := some now } v
    exact ⟨bad, steady, fun steady => result.trans (if_pos steady),
      fun unsteady => result.trans (if_neg (by rw [unsteady]; exact Bool.false_ne_true))⟩
  · rw [edge_later on, laterRise_long period long]
    obtain ⟨same, result⟩ := longPeriod_keeps { c with lastRise := some now } v
    rw [same]
    exact ⟨rfl, rfl, result⟩

/-- Settles O55: turn phases and combined sources, channels and generators, and the edges of the demand inputs. -/
theorem inputsDriveTheirSources : Obligations.InputsDriveTheirSources := by
  unfold Obligations.InputsDriveTheirSources
  intro side partner generator
  refine ⟨fun s x => ?phases, chanOf_eq, fun s c => ⟨startChan_afresh, fun p => startChan_joins, fun v => ?leaves⟩,
    fun s g => ?starts, fun s x => ⟨updateChan_unserved, fun c served => ?serves⟩, fun s x v => rfl, fun s => rfl,
    fun s awake => ⟨fun i b left right edge => ?wired, fun x b => ?turns, fun x e mode on rise =>
      ⟨_, followStretchEnd_ends awake mode on rise⟩, fun i b edge => ?inputs, fun x b => ?edges, fun i b =>
      demandInputChange_stands, fun x e mode on rise => ?stretch⟩⟩
  case phases =>
    intro v c input
    have source : v = s.source x.src := by cases x <;> rfl
    have chan : c = x.chan := by cases x <;> rfl
    have level : input = s.turnInput x := by cases x <;> rfl
    clear_value v c input
    subst source chan level
    refine ⟨turnPhase_inactive, turnPhase_followed, fun k on form => ?_, combinedActive_eq s x⟩
    rw [turnPhase_flashing on form]
    cases state : s.chan x.chan with
    | running => exact (chanPhase_running state).trans (by cases x <;> rfl)
    | following => exact chanPhase_following state
    | stopped => exact chanPhase_off (.inl state)
    | joining => exact chanPhase_off (.inr state)
  case leaves =>
    exact ⟨fun silent => leaveChan_silent silent v, fun running => ⟨fun p => leaveChan_takenOver running v,
      fun p => leaveChan_beside running v, leaveChan_last running v⟩⟩
  case starts =>
    intro p
    have period : s.effectivePeriod g s.hcp.cfg.flashPeriod = p := effectivePeriod_eq ..
    unfold State.startGen State.onPhase
    rw [period]
  case serves =>
    have sides : side = turnSideOf := funext fun y => (turnSideOf_eq y).symm
    clear_value side
    subst sides
    intro v owedGone
    have dropped : owedGone = fun u => u.dropFollowOwed x := funext fun u => by
      unfold State.dropFollowOwed
      cases turn : turnSideOf x <;> simp only [owedGone, turn]
    clear_value owedGone
    subst dropped
    exact ⟨updateChan_inactive served, fun k on form => updateChan_flashing served on form,
      fun y on form turn => updateChan_followed served on form turn, updateChan_steady served⟩
  case wired => exact demandInputChange_wired awake edge (turnSideOf_inputSrc i left right)
  case turns =>
    intro i edge
    have turn : turnSideOf (inputSrc i) = some x := by cases x <;> rfl
    have source : (s.edged i x b).source x.src = (s.edge x b).2.result (s.source x.src) := apply_source ..
    refine ⟨(s.edge x b).1, s.edged i x b, demandInputChange_turn awake edge turn, fun other => ?_, fun same => ?_,
      fun same follows setting mode after before => ?_⟩
    · rw [source] at other ⊢
      exact result_changes _ other
    · rw [source] at same
      exact result_stands _ same
    · rw [edge_followed setting mode, follows] at after
      have followed := edge_follows b before after
      rw [← follows, ← edge_followed setting mode] at followed
      unfold State.edged
      rw [followed]
      rfl
  case inputs =>
    cases side : turnSideOf (inputSrc i) with
    | none =>
      obtain ⟨fixed, modes, source⟩ := wired_clauses s i b
      refine ⟨_, demandInputChange_wired awake edge side, fixed, fun _ _ => ⟨source, modes⟩, fun left => ?_, fun right => ?_,
        fun stop left right => ?_, fun x => by
          cases x
          · exact recombined_combined _ .left
          · exact recombined_combined _ .right⟩
      · rw [left] at side
        cases side
      · rw [right] at side
        cases side
      · subst stop
        refine ⟨recombined_stop (x := .left) ?_ ?_, recombined_stop (x := .right) ?_ ?_⟩
        · exact (congrArg Source.active (changeSource_source_ne _ _ (by decide))).trans left
        · exact congrArg Source.active (changeSource_source ..)
        · exact (congrArg Source.active (changeSource_source_ne _ _ (by decide))).trans right
        · exact congrArg Source.active (changeSource_source ..)
    | some x =>
      refine ⟨_, demandInputChange_turn awake edge side, edged_fixed_modes s i x b, fun left right => ?_,
        fun left mode setting => ?_, fun right mode setting => ?_, fun stop => ?_,
        fun x => by
          cases x
          · exact recombined_combined _ .left
          · exact recombined_combined _ .right⟩
      · rw [turnSideOf_inputSrc i left right] at side
        cases side
      · rw [left] at side
        obtain rfl : TurnSide.left = x := Option.some.inj side
        exact edged_level i mode setting
      · rw [right] at side
        obtain rfl : TurnSide.right = x := Option.some.inj side
        exact edged_level i mode setting
      · rw [stop] at side
        cases side
  case edges =>
    intro i edge
    have turn : turnSideOf (inputSrc i) = some x := by cases x <;> rfl
    refine ⟨_, demandInputChange_turn awake edge turn, edged_fixed_modes s i x b, fun switched => ?_, 
      fun setting mode => ?_⟩
    · obtain ⟨source, capture⟩ := edged_switched i (b := b) switched
      refine ⟨edged_followMode s i x b, source, capture.trans ?_⟩
      unfold Capture.switched
      simp only [Bool.and_eq_true, Bool.not_eq_true']
    · obtain ⟨capture, source⟩ := edged_follow i (b := b) setting mode
      intro c period
      rw [capture, source]
      exact followed_clauses c (s.source x.src) x.chan s.now b
  case stretch =>
    refine ⟨_, followStretchEnd_ends awake mode on rise, ?_, ?_, ?_⟩
    · rw [recombined_turnSource, changeSource_source]
    · rw [recombined_capture, capture_of_captures (changeSource_captures ..), setCapture_capture]
    · rw [recombined_fixed]
      exact (changeSource_moves (ad := false) .nil x.src _).fixed

end Sys2Proof.Machine

namespace Sys2Proof.Machine

/-! ### What a command leaves of the stored list (R176, R178, R190) -/

/-- The cells change by the end of a write alone, the entries and the count of torn ones by the end of the scan besides. -/
structure ListKept (c : Instr) (s t : State) : Prop where
  cells : (∀ b, c ≠ .ktlWriteEnd b) → t.ktl.cells = s.ktl.cells
  entries : (∀ b, c ≠ .ktlWriteEnd b) → c ≠ .ktlScanEnd → t.ktl.entries = s.ktl.entries ∧ t.ktl.torn = s.ktl.torn

theorem ListKept.of_ktl {c : Instr} {s t : State} (same : t.ktl = s.ktl) : ListKept c s t :=
  ⟨fun _ => congrArg Ktl.cells same, fun _ _ => ⟨congrArg Ktl.entries same, congrArg Ktl.torn same⟩⟩

theorem ListKept.trans {c : Instr} {s t u : State} (p : ListKept c s t) (q : ListKept c t u) : ListKept c s u where
  cells hw := (q.cells hw).trans (p.cells hw)
  entries hw hs := ⟨(q.entries hw hs).1.trans (p.entries hw hs).1, (q.entries hw hs).2.trans (p.entries hw hs).2⟩

theorem Change.listKept {c : Instr} {s t : State} (m : Change c s t) : ListKept c s t := by
  cases m with
  | move _ m =>
    exact ⟨fun _ => congrArg Fixed.cells m.fixed, fun _ _ => ⟨congrArg Fixed.entries m.fixed, congrArg Fixed.torn m.fixed⟩⟩
  | scanned k h cells _ _ => exact ⟨fun _ => cells, fun _ other => absurd h other⟩
  | written k h _ =>
    obtain ⟨b, e⟩ := h
    exact ⟨fun other => absurd e (other b), fun other => absurd e (other b)⟩
  | latch b _ => exact ⟨fun _ => rfl, fun _ _ => ⟨rfl, rfl⟩⟩
  | last o _ => exact ⟨fun _ => rfl, fun _ _ => ⟨rfl, rfl⟩⟩
  | _ => exact .of_ktl rfl

theorem Changes.listKept {c : Instr} {s t : State} (m : Changes c s t) : ListKept c s t := by
  induction m with
  | nil => exact .of_ktl rfl
  | snoc _ m ih => exact ih.trans m.listKept

/-- Until a device reset begins, the RESET input changes the port, the clock and TURN_FAIL alone (R210). -/
theorem resetInput_eq {c : Instr} (hc : c.ofReset = true) (hr : c.resets = false) {s t : State}
    (q : exec c s = .next t) : ∃ n p b, t = { s with now := n, hcp := p, frt := { s.frt with turnFail := b } } := by
  cases c with
  | resetFall =>
      have q : execResetFall s = .next t := q
      unfold execResetFall at q
      split at q <;> cases q <;> exact ⟨_, _, _, rfl⟩
  | resetRise =>
      have q : execResetRise s = .next t := q
      unfold execResetRise at q
      split at q <;> cases q <;> exact ⟨_, _, _, rfl⟩
  | deviceResetEnd =>
      have q : execDeviceResetEnd s = .next t := q
      unfold execDeviceResetEnd at q
      split at q <;> cases q <;> exact ⟨_, _, _, rfl⟩
  | deviceReset | supplyReset => cases hr
  | _ => cases hc

/-- Settles O12: every change that a command makes keeps the list so. -/
theorem storedListChangesByWrites : Obligations.StoredListChangesByWrites := by
  intro c s t q hr hw
  have kept : ListKept c s t := by
    cases hc : c.ofReset with
    | false => exact (exec_changes hc q).listKept
    | true =>
      obtain ⟨_, _, _, same⟩ := resetInput_eq hc hr q
      exact .of_ktl (by rw [same])
  exact ⟨kept.cells hw, kept.entries hw⟩

end Sys2Proof.Machine

namespace Sys2Proof.Machine

/-! ### The answers of the stored list's commands (R182, R183, R200) -/

section
variable {s : State} (awake : s.portSilent = false)
include awake

theorem reply_answers (u : State) (r : HostResult) : reply s u r [] 0 = .next (u.answer (byte r.code)) := by
  rw [reply_awake awake, responseBytes_nil]
  rfl

theorem runWrite_refuses (u : State) {r : HostResult} (refused : r ≠ .accepted) :
    runWrite s (u, r) = .next (u.answer (byte r.code)) := by
  unfold runWrite
  rw [reply_answers awake, if_neg (by simpa using refused)]

theorem runWrite_accepts (u : State) : runWrite s (u, .accepted) = .next u.accepted := by
  unfold runWrite
  rw [reply_answers awake, if_pos (beq_self_eq_true _)]
  rfl

end

/-- The port answers, and the checks of R183 before a command's range are passed. -/
structure State.Writable (s : State) : Prop where
  awake : s.portSilent = false
  free : s.nvBusy = false
  unlocked : s.hcp.nvlock = false
  enabled : s.ktl.wel = true

theorem nvBusy_free {s : State} (scanned : s.ktl.scanning = false) (idle : s.ktl.write = none) : s.nvBusy = false := by
  unfold State.nvBusy
  rw [scanned, idle]
  rfl

/-! The checks that every write command makes (R183). -/

section
variable {s : State} {range : Bool} {own : Option HostResult} {place : State}

theorem writeCommand_busy (busy : s.nvBusy = true) : s.writeCommand range own place = (s, .busy) := if_pos busy

theorem writeCommand_locked (free : s.nvBusy = false) (locked : s.hcp.nvlock = true) :
    s.writeCommand range own place = (s.setWel false, .nvProtected) := by
  simp only [State.writeCommand, free, locked, Bool.false_eq_true, if_false, if_true]

theorem writeCommand_disabled (free : s.nvBusy = false) (unlocked : s.hcp.nvlock = false) (disabled : s.ktl.wel = false) :
    s.writeCommand range own place = (s, .notEnabled) := by
  simp only [State.writeCommand, free, unlocked, disabled, Bool.false_eq_true, Bool.not_false, if_false, if_true]

theorem State.Writable.outside (w : s.Writable) : s.writeCommand false own place = (s.setWel false, .badValue) := by
  simp only [State.writeCommand, w.free, w.unlocked, w.enabled, Bool.false_eq_true, Bool.not_true, Bool.not_false, if_false,
    if_true]

/-- A command in range is refused for a condition of its own, WEL cleared (R183). -/
theorem State.Writable.refuses (w : s.Writable) {r : HostResult} (condition : own = some r) (refused : r ≠ .accepted) :
    runWrite s (s.writeCommand true own place) = .next ((s.setWel false).answer (byte r.code)) := by
  subst condition
  simp only [State.writeCommand, w.free, w.unlocked, w.enabled, Bool.false_eq_true, Bool.not_true, if_false]
  exact runWrite_refuses w.awake _ refused

/-- A command in range with no condition against it is ACCEPTED, its write placed (R183). -/
theorem State.Writable.accepts (w : s.Writable) (proper : own = none) :
    runWrite s (s.writeCommand true own place) = .next place.accepted := by
  subst proper
  simp only [State.writeCommand, w.free, w.unlocked, w.enabled, Bool.false_eq_true, Bool.not_true, if_false]
  exact runWrite_accepts w.awake place

end

/-- Settles O39. -/
theorem writeEnableLatch : Obligations.WriteEnableLatch := by
  intro s awake
  have enable : exec .writeEnable s = if s.nvBusy then reply s s .busy [] 0
      else if s.hcp.nvlock then reply s s .nvProtected [] 0 else reply s (s.setWel true) .ok [] 0 := rfl
  have disable : exec .writeDisable s = if s.ktl.scanning then reply s s .busy [] 0
      else reply s (s.setWel false) .ok [] 0 := rfl
  rw [enable, disable]
  simp only [reply_answers awake, nvBusy_iff]
  constructor
  · split
    · rfl
    · split <;> rfl
  · split <;> rfl

/-- Every write command runs the common checks (R183). -/
theorem exec_write {c : Instr} {b : BitVec 8} (s : State)
    (write : c = .rememberUnit b ∨ c = .eraseEntry b ∨ c = .pinEntry b ∨ c = .unpinEntry b ∨ c = .eraseList) :
    ∃ range own place, exec c s = runWrite s (s.writeCommand range own place)
      ∧ (c = .rememberUnit b → ¬ (1 ≤ b.toNat ∧ b.toNat ≤ 3) → range = false)
      ∧ (c = .eraseEntry b ∨ c = .pinEntry b ∨ c = .unpinEntry b → 16 ≤ b.toNat → range = false) := by
  have entry : ∀ own place, ∃ range own' place', s.entryCommand b own place = s.writeCommand range own' place'
      ∧ (16 ≤ b.toNat → range = false) := by
    intro own place
    unfold State.entryCommand
    split
    · next i named =>
      refine ⟨true, _, _, rfl, fun large => ?_⟩
      unfold entryOf at named
      rw [dif_neg (by omega)] at named
      cases named
    · exact ⟨false, _, _, rfl, fun _ => rfl⟩
  rcases write with rfl | rfl | rfl | rfl | rfl
  · refine ⟨decide (1 ≤ b.toNat) && decide (b.toNat ≤ 3), _, _, rfl, fun _ outside => ?_, nofun⟩
    simpa [Classical.not_and_iff_not_or_not] using outside
  · obtain ⟨range, own, place, same, outside⟩ := entry _ _
    exact ⟨range, own, place, congrArg (runWrite s) same, nofun, fun _ => outside⟩
  · obtain ⟨range, own, place, same, outside⟩ := entry _ _
    exact ⟨range, own, place, congrArg (runWrite s) same, nofun, fun _ => outside⟩
  · obtain ⟨range, own, place, same, outside⟩ := entry _ _
    exact ⟨range, own, place, congrArg (runWrite s) same, nofun, fun _ => outside⟩
  · exact ⟨true, _, _, rfl, nofun, nofun⟩

/-- Settles O40: the checks that the write commands share, in their order. -/
theorem writeCommandsCheckInOrder : Obligations.WriteCommandsCheckInOrder := by
  intro c b s awake write
  obtain ⟨range, own, place, runs, unit, index⟩ := exec_write s write
  rw [runs]
  refine ⟨fun busy => ?busy, fun scanned idle => ⟨fun locked => ?locked, fun unlocked disabled => ?disabled,
    fun unlocked enabled => ?enabled⟩⟩
  case busy =>
    rw [writeCommand_busy ((nvBusy_iff s).mpr busy)]
    exact runWrite_refuses awake s nofun
  case locked =>
    rw [writeCommand_locked (nvBusy_free scanned idle) locked]
    exact runWrite_refuses awake _ nofun
  case disabled =>
    rw [writeCommand_disabled (nvBusy_free scanned idle) unlocked disabled]
    exact runWrite_refuses awake s nofun
  case enabled =>
    have w : s.Writable := ⟨awake, nvBusy_free scanned idle, unlocked, enabled⟩
    have refused : range = false →
        runWrite s (s.writeCommand range own place) = .next ((s.setWel false).answer 5) := by
      rintro rfl
      rw [w.outside]
      exact runWrite_refuses awake _ nofun
    exact ⟨fun named outside => refused (unit named outside), fun named outside => refused (index named outside)⟩

/-! ### The writes of one entry and of the list (R187 to R190) -/

/-- The entry that a byte names. -/
theorem entryOf_val {b : Byte} {i : Fin 16} (index : i.val = b.toNat) : entryOf b = some i := by
  unfold entryOf
  rw [dif_pos (index ▸ i.isLt)]
  exact congrArg some (Fin.ext index.symm)

theorem entryCommand_named {s : State} {b : Byte} {i : Fin 16} (index : i.val = b.toNat) (own : KtlEntry → Option HostResult)
    (place : Fin 16 → KtlEntry → State) :
    s.entryCommand b own place = s.writeCommand true (own (s.ktlEntry i)) (place i (s.ktlEntry i)) := by
  unfold State.entryCommand
  rw [entryOf_val index]

theorem erasable_isEmpty (s : State) : s.erasable.isEmpty = true ↔ ∀ k, (s.ktlEntry k).state = .pinned := by
  unfold State.erasable entryIndices
  rw [List.isEmpty_iff, List.filter_eq_nil_iff]
  simp

theorem placeWrite_eq (s : State) {kind : WriteKind} {n : Nat} (limit : kind.limit = n) (i : Fin 16) (e : KtlEntry) :
    s.placeWrite kind i e
      = s.setKtl { s.ktl with write := some { kind := kind, target := i, content := e, limit := s.now + n } } := by
  subst limit
  rfl

/-- Settles O41: each command's own condition, and the write that it places. -/
theorem entryWritesFillTheSlot : Obligations.EntryWritesFillTheSlot := by
  intro b i s awake index scanned idle unlocked enabled
  have w : s.Writable := ⟨awake, nvBusy_free scanned idle, unlocked, enabled⟩
  refine ⟨?erase, ?pin, ?unpin, ?list⟩
  case erase =>
    change runWrite s (s.entryCommand b _ _) = _
    rw [entryCommand_named index]
    by_cases pinned : (s.ktlEntry i).state = .pinned
    · rw [if_pos pinned]
      exact w.refuses (if_pos (beq_iff_eq.mpr pinned)) nofun
    · rw [if_neg pinned, w.accepts (if_neg (mt beq_iff_eq.mp pinned)), placeWrite_eq s (n := ms 20) rfl]
  case pin =>
    change runWrite s (s.entryCommand b _ _) = _
    rw [entryCommand_named index]
    by_cases valid : (s.ktlEntry i).state = .valid
    · rw [if_pos valid, w.accepts (if_pos (beq_iff_eq.mpr valid)), placeWrite_eq s (n := ms 6) rfl]
    · rw [if_neg valid]
      exact w.refuses (if_neg (mt beq_iff_eq.mp valid)) nofun
  case unpin =>
    change runWrite s (s.entryCommand b _ _) = _
    rw [entryCommand_named index]
    by_cases pinned : (s.ktlEntry i).state = .pinned
    · rw [if_pos pinned, w.accepts (if_pos (beq_iff_eq.mpr pinned)), placeWrite_eq s (n := ms 6) rfl]
    · rw [if_neg pinned]
      exact w.refuses (if_neg (mt beq_iff_eq.mp pinned)) nofun
  case list =>
    change runWrite s (s.writeCommand true none s.eraseAll) = _
    rw [w.accepts rfl]
    unfold State.eraseAll
    split
    · next empty =>
      rw [if_pos ((erasable_isEmpty s).mp empty)]
      rfl
    · next some => rw [if_neg (mt (erasable_isEmpty s).mpr some), placeWrite_eq s (n := ms 40) rfl]

/-! ### KTL READ (R192, R215) -/

theorem responseBytes_zeros (r : HostResult) (n : Nat) : responseBytes r [] n = byte r.code :: List.replicate n 0 := by
  simp [responseBytes]

theorem hintBytes_length (l : List Hint) : (l.flatMap hintBytes).length = 2 * l.length := by
  simp [List.length_flatMap, hintBytes, Nat.mul_comm]

/-- Hints of two bytes, the places that no hint fills left at zero (R215). -/
theorem hintPlaces_eq {l : List Hint} (room : l.length ≤ 24) : ((l.flatMap hintBytes) ++ List.replicate 48 0).take 48
    = (l.flatMap hintBytes) ++ List.replicate (48 - 2 * l.length) 0 := by
  have length := hintBytes_length l
  rw [List.take_append, List.take_of_length_le (by omega), List.take_replicate, length, Nat.min_eq_left (by omega)]

theorem entryBytes_length (e : KtlEntry) : e.bytes.length = 65 := by
  simp [KtlEntry.bytes, identityBytes, halfBytes, natBytes4]

theorem blank_bytes : KtlEntry.blank.bytes = List.replicate 65 0 := by decide

/-- The image of an entry behind the result OK (R192). -/
theorem entryImage_response (b : Byte) {i : Fin 16} (index : i.val = b.toNat) (e : KtlEntry) :
    responseBytes .ok (entryImage i.val e) 66
      = 0 :: b :: (if e.state == .empty then KtlEntry.blank else e).bytes := by
  have named : byte i.val = b := by
    rw [index]
    exact BitVec.ofNat_toNat ..
  have length : (entryImage i.val e).length = 66 := congrArg Nat.succ (entryBytes_length _)
  rw [responseBytes_full _ length, entryImage, named]
  rfl

/-- Settles O43. -/
theorem ktlReadShowsEntry : Obligations.KtlReadShowsEntry := by
  intro b s awake
  have reads : exec (.ktlRead b) s = if s.nvBusy then reply s s .busy [] 66
      else match entryOf b with
        | some i => reply s s .ok (entryImage i.val (s.ktlEntry i)) 66
        | none => reply s s .badValue [] 66 := rfl
  rw [reads]
  refine ⟨fun busy => ?busy, fun scanned idle => ?_⟩
  case busy =>
    rw [if_pos ((nvBusy_iff s).mpr busy), reply_awake awake, responseBytes_zeros]
    rfl
  rw [if_neg (by rw [nvBusy_free scanned idle]; decide)]
  refine ⟨fun large => ?outside, fun i index => ?inside⟩
  case outside =>
    have unnamed : entryOf b = none := dif_neg (by omega)
    rw [unnamed]
    dsimp only
    rw [reply_awake awake, responseBytes_zeros]
    rfl
  case inside =>
    rw [entryOf_val index]
    dsimp only
    rw [reply_awake awake, entryImage_response b index]
    refine ⟨fun empty => ?_, fun filled room => ?_⟩
    · rw [empty, beq_self_eq_true, if_pos rfl, blank_bytes]
    · rw [beq_eq_false_iff_ne.mpr filled, if_neg Bool.false_ne_true, KtlEntry.bytes, hintPlaces_eq room]
      simp only [List.append_assoc]
      rfl

end Sys2Proof.Machine

namespace Sys2Proof.Machine

/-! ### The entry that REMEMBER UNIT writes (R186) -/

/-- A VALID entry that holds the identity. -/
def State.mine (s : State) (id : Identity) (i : Fin 16) : Prop :=
  (s.ktlEntry i).state = .valid ∧ (s.ktlEntry i).identity = id

theorem holds_iff (e : KtlEntry) (id : Identity) : e.holds id = true ↔ e.state ≠ .empty ∧ e.identity = id := by
  unfold KtlEntry.holds
  rw [Bool.and_eq_true, bne_iff_ne, beq_iff_eq]

theorem mine_iff (s : State) (id : Identity) (i : Fin 16) :
    ((s.ktlEntry i).holds id && (s.ktlEntry i).state == .valid) = true ↔ s.mine id i := by
  rw [Bool.and_eq_true, holds_iff, beq_iff_eq]
  exact ⟨fun h => ⟨h.2, h.1.2⟩, fun h => ⟨⟨by rw [h.1]; nofun, h.2⟩, h.1⟩⟩

/-- The lowest index that a condition holds of. -/
theorem findIndex_lowest {q : Fin 16 → Bool} {i : Fin 16} (here : q i = true) (lowest : ∀ j, j < i → ¬ q j = true) :
    entryIndices.find? q = some i :=
  (find?_finRange q i).mpr ⟨here, fun j below => Bool.eq_false_iff.mpr (lowest j below)⟩

theorem findIndex_none {q : Fin 16 → Bool} (nowhere : ∀ j, ¬ q j = true) : entryIndices.find? q = none :=
  List.find?_eq_none.mpr fun j _ => nowhere j

/-- One entry looked at, in the search for the oldest VALID one. -/
def State.older (s : State) (best : Option (Fin 16)) (i : Fin 16) : Option (Fin 16) :=
  if (s.ktlEntry i).state == .valid then
    match best with
    | some b => if (s.ktlEntry i).stamp < (s.ktlEntry b).stamp then some i else best
    | none => some i
  else best

theorem oldestValid_eq (s : State) : s.oldestValid = entryIndices.foldl s.older none := rfl

section
variable {s : State}

theorem older_other {i : Fin 16} (other : (s.ktlEntry i).state ≠ .valid) (best : Option (Fin 16)) : s.older best i = best :=
  if_neg (by simpa using other)

theorem older_first {i : Fin 16} (valid : (s.ktlEntry i).state = .valid) : s.older none i = some i :=
  if_pos (by simpa using valid)

theorem older_some {i : Fin 16} (valid : (s.ktlEntry i).state = .valid) (b : Fin 16) :
    s.older (some b) i = if (s.ktlEntry i).stamp < (s.ktlEntry b).stamp then some i else some b :=
  if_pos (by simpa using valid)

/-- What the search has found so far is a VALID entry among those looked at. -/
theorem older_found {l : List (Fin 16)} {best : Option (Fin 16)} {b : Fin 16} (found : l.foldl s.older best = some b) :
    best = some b ∨ b ∈ l ∧ (s.ktlEntry b).state = .valid := by
  induction l generalizing best with
  | nil => exact .inl found
  | cons i l ih =>
    rcases ih found with step | ⟨later, valid⟩
    · by_cases valid : (s.ktlEntry i).state = .valid
      · have taken : s.older best i = some i ∨ s.older best i = best := by
          cases best with
          | none => exact .inl (older_first valid)
          | some c =>
            rw [older_some valid]
            split
            · exact .inl rfl
            · exact .inr rfl
        rcases taken with taken | kept
        · obtain rfl := Option.some.inj (taken.symm.trans step)
          exact .inr ⟨List.mem_cons_self, valid⟩
        · exact .inl (kept.symm.trans step)
      · exact .inl ((older_other valid best).symm.trans step)
    · exact .inr ⟨List.mem_cons_of_mem i later, valid⟩

/-- The oldest so far stays while no VALID entry is older. -/
theorem older_stays {l : List (Fin 16)} {b : Fin 16}
    (oldest : ∀ j ∈ l, (s.ktlEntry j).state = .valid → ¬ (s.ktlEntry j).stamp < (s.ktlEntry b).stamp) :
    l.foldl s.older (some b) = some b := by
  induction l with
  | nil => rfl
  | cons i l ih =>
    have step : s.older (some b) i = some b := by
      by_cases valid : (s.ktlEntry i).state = .valid
      · rw [older_some valid, if_neg (oldest i List.mem_cons_self valid)]
      · exact older_other valid _
    rw [List.foldl_cons, step]
    exact ih fun j member => oldest j (List.mem_cons_of_mem i member)

/-- The VALID entry with the smallest stamp is found, the lowest index among equals (R186). -/
theorem oldestValid_smallest {i : Fin 16} (valid : (s.ktlEntry i).state = .valid)
    (smallest : ∀ j, j ≠ i → (s.ktlEntry j).state = .valid → (s.ktlEntry i).stamp < (s.ktlEntry j).stamp
      ∨ (s.ktlEntry i).stamp = (s.ktlEntry j).stamp ∧ i < j) : s.oldestValid = some i := by
  obtain ⟨before, after, split⟩ := List.append_of_mem (List.mem_finRange i)
  have rising : (before ++ i :: after).Pairwise (· < ·) := split ▸ List.pairwise_lt_finRange 16
  obtain ⟨-, onward, across⟩ := List.pairwise_append.mp rising
  have below : ∀ j ∈ before, j < i := fun j member => across j member i List.mem_cons_self
  have taken : s.older (before.foldl s.older none) i = some i := by
    cases found : before.foldl s.older none with
    | none => exact older_first valid
    | some b =>
      obtain none | ⟨member, valid'⟩ := older_found found
      · contradiction
      · have lower := below b member
        have later : (s.ktlEntry i).stamp < (s.ktlEntry b).stamp :=
          (smallest b lower.ne valid').resolve_right fun equal => absurd equal.2 lower.asymm
        rw [older_some valid, if_pos later]
  have whole : entryIndices = before ++ i :: after := split
  rw [oldestValid_eq, whole, List.foldl_append, List.foldl_cons, taken]
  refine older_stays fun j member valid' => ?_
  have above : i < j := List.rel_of_pairwise_cons onward member
  rcases smallest j above.ne' valid' with later | ⟨equal, -⟩
  · exact later.asymm
  · exact equal.not_gt

theorem oldestValid_none (none : ∀ j, (s.ktlEntry j).state ≠ .valid) : s.oldestValid = .none := by
  cases found : s.oldestValid with
  | none => rfl
  | some b =>
    obtain start | ⟨-, valid⟩ := older_found (best := .none) found
    · cases start
    · exact absurd valid (none b)

variable {id : Identity}

theorem chooseEntry_mine {i : Fin 16} (mine : s.mine id i) (lowest : ∀ j, j < i → ¬ s.mine id j) :
    s.chooseEntry id = some i := by
  have found := findIndex_lowest (q := fun j => (s.ktlEntry j).holds id && (s.ktlEntry j).state == .valid)
    ((mine_iff s id i).mpr mine) fun j below => mt (mine_iff s id j).mp (lowest j below)
  unfold State.chooseEntry
  rw [found]

/-- Where no VALID entry holds the identity, an EMPTY entry is chosen, or the oldest. -/
theorem chooseEntry_other (none : ∀ j, ¬ s.mine id j) : s.chooseEntry id =
    (entryIndices.find? fun j => (s.ktlEntry j).state == .empty).or s.oldestValid := by
  have found := findIndex_none (q := fun j => (s.ktlEntry j).holds id && (s.ktlEntry j).state == .valid)
    fun j => mt (mine_iff s id j).mp (none j)
  unfold State.chooseEntry
  rw [found]
  dsimp only
  cases entryIndices.find? fun j => (s.ktlEntry j).state == .empty <;> rfl

theorem chooseEntry_empty {i : Fin 16} (none : ∀ j, ¬ s.mine id j) (empty : (s.ktlEntry i).state = .empty)
    (lowest : ∀ j, j < i → (s.ktlEntry j).state ≠ .empty) : s.chooseEntry id = some i := by
  have found := findIndex_lowest (q := fun j => (s.ktlEntry j).state == .empty) (beq_iff_eq.mpr empty)
    fun j below => mt beq_iff_eq.mp (lowest j below)
  rw [chooseEntry_other none, found]
  rfl

/-- With every entry in use the oldest VALID one is chosen, if any. -/
theorem chooseEntry_full (none : ∀ j, ¬ s.mine id j) (full : ∀ j, (s.ktlEntry j).state ≠ .empty) :
    s.chooseEntry id = s.oldestValid := by
  have found := findIndex_none (q := fun j => (s.ktlEntry j).state == .empty) fun j => mt beq_iff_eq.mp (full j)
  rw [chooseEntry_other none, found]
  rfl

theorem chooseEntry_pinned (pinned : ∀ j, (s.ktlEntry j).state = .pinned) : s.chooseEntry id = none := by
  rw [chooseEntry_full (fun j mine => absurd ((pinned j).symm.trans mine.1) nofun) fun j => by rw [pinned j]; nofun]
  exact oldestValid_none fun j => by rw [pinned j]; nofun

end

/-! ### The snapshot of a unit (R185) -/

/-- A live record of the unit with a tie. -/
def State.hinted (s : State) (number : Nat) (h : Handle) : Bool :=
  (s.live h).any fun r => r.unit == number && r.tie.isSome

theorem hinted_iff (s : State) (number : Nat) (h : Handle) :
    s.hinted number h = true ↔ ∃ r x, s.live h = some r ∧ r.unit = number ∧ r.tie = some x := by
  simp only [State.hinted, Option.any_eq_true, Bool.and_eq_true, beq_iff_eq, Option.isSome_iff_exists]
  exact ⟨fun ⟨r, live, unit, x, tie⟩ => ⟨r, x, live, unit, tie⟩, fun ⟨r, x, live, unit, tie⟩ => ⟨r, live, unit, x, tie⟩⟩

theorem unitHints_eq (s : State) (number first : Nat) : s.unitHints number first =
    (allHandles.filter (s.hinted number)).filterMap fun h => (s.live h).bind fun r => r.tie.map fun x =>
      { position := r.position + 1 - first, index := r.index, source := x } := by
  rw [List.filterMap_filter]
  refine List.filterMap_congr fun h _ => ?_
  unfold State.hinted
  cases live : s.live h with
  | none => rfl
  | some r =>
    by_cases unit : r.unit = number
    · cases tie : r.tie with
      | none => simp [unit, tie]
      | some x => simp [unit, tie]
    · simp [unit]

/-- The command's own conditions, in their order (R185). -/
theorem rememberCheck_unit {s : State} {number : Nat} {u : UnitRec} (unit : s.bue.units[number - 1]? = some u) :
    s.rememberCheck number = if u.outcome = .none then some .badState
      else if ∃ k, (s.ktlEntry k).state = .pinned ∧ (s.ktlEntry k).identity = s.unitIdentity u then some .nvProtected
      else if s.chooseEntry (s.unitIdentity u) = none then some .listFull else none := by
  have pinned : (entryIndices.any fun k => (s.ktlEntry k).holds (s.unitIdentity u) && (s.ktlEntry k).state == .pinned) = true
      ↔ ∃ k, (s.ktlEntry k).state = .pinned ∧ (s.ktlEntry k).identity = s.unitIdentity u := by
    simp only [List.any_eq_true, Bool.and_eq_true, holds_iff, beq_iff_eq]
    constructor
    · rintro ⟨k, -, ⟨-, identity⟩, state⟩
      exact ⟨k, state, identity⟩
    · rintro ⟨k, state, identity⟩
      exact ⟨k, List.mem_finRange k, ⟨by rw [state]; nofun, identity⟩, state⟩
  unfold State.rememberCheck
  rw [unit]
  dsimp only
  simp only [pinned, beq_iff_eq, Option.isNone_iff_eq_none]

/-- The snapshot stands in the write slot, the use counter one higher (R177, R185). -/
theorem remember_eq {s : State} {number : Nat} {u : UnitRec} {i : Fin 16} (unit : s.bue.units[number - 1]? = some u)
    (chosen : s.chooseEntry (s.unitIdentity u) = some i) :
    s.remember number = s.setKtl { s.ktl with
      useCounter := min 4294967295 (s.ktl.useCounter + 1)
      write := some {
        kind := .remember (24 < (s.unitHints number u.first).length), target := i, limit := s.now + ms 6
        content := {
          state := .valid, identity := s.unitIdentity u, digest := u.digest, nodeCount := u.nodeCount
          hints := (s.unitHints number u.first).take 24, stamp := min 4294967295 (s.ktl.useCounter + 1) } } } := by
  unfold State.remember
  rw [unit]
  dsimp only
  rw [chosen]
  rfl

theorem exec_rememberUnit (s : State) {b : BitVec 8} (lower : 1 ≤ b.toNat) (upper : b.toNat ≤ 3) :
    exec (.rememberUnit b) s
      = runWrite s (s.writeCommand true (s.rememberCheck b.toNat) (s.remember b.toNat)) := by
  change runWrite s (s.writeCommand (decide (1 ≤ b.toNat) && decide (b.toNat ≤ 3)) _ _) = _
  rw [decide_eq_true lower, decide_eq_true upper]
  rfl

/-- Settles O42: the entry chosen, the hints, and the command's conditions with the write that it places. -/
theorem rememberUnitSnapshots : Obligations.RememberUnitSnapshots := by
  refine ⟨fun s id => ⟨fun i => chooseEntry_mine, fun i => chooseEntry_empty, fun i none full valid smallest => ?oldest,
    chooseEntry_pinned⟩, fun s number first => ?hints, fun b s awake lower upper scanned idle unlocked enabled => ?command⟩
  case oldest => exact (chooseEntry_full none full).trans (oldestValid_smallest valid smallest)
  case hints =>
    refine ⟨allHandles.filter (s.hinted number), (List.pairwise_lt_finRange 96).filter _, fun h => ?_,
      unitHints_eq s number first⟩
    rw [List.mem_filter, ← hinted_iff]
    exact and_iff_right (mem_allHandles h)
  case command =>
    have w : s.Writable := ⟨awake, nvBusy_free scanned idle, unlocked, enabled⟩
    rw [exec_rememberUnit s lower upper]
    cases unit : s.bue.units[b.toNat - 1]? with
    | none =>
      refine w.refuses (r := .notFound) ?_ nofun
      unfold State.rememberCheck
      rw [unit]
    | some u =>
      have check := rememberCheck_unit unit
      dsimp only
      by_cases unmatched : u.outcome = .none
      · rw [if_pos unmatched] at check ⊢
        exact w.refuses check nofun
      rw [if_neg unmatched] at check ⊢
      by_cases pinned : ∃ k, (s.ktlEntry k).state = .pinned ∧ (s.ktlEntry k).identity = s.unitIdentity u
      · rw [if_pos pinned] at check ⊢
        exact w.refuses check nofun
      rw [if_neg pinned] at check ⊢
      cases chosen : s.chooseEntry (s.unitIdentity u) with
      | none => exact w.refuses (check.trans (if_pos chosen)) nofun
      | some i => rw [w.accepts (check.trans (if_neg (by rw [chosen]; nofun))), remember_eq unit chosen]

end Sys2Proof.Machine

namespace Sys2Proof.Machine

/-! ### Proofs leave ties alone (R104, R108 to R110) -/

/-- The lists stand as they were, and every record has its tie; only a record under proof has another state. -/
structure State.TiesKept (s t : State) : Prop where
  lists : t.drt.lists = s.drt.lists
  record : ∀ k r, s.record k = some r → ∃ r', t.record k = some r' ∧ r'.binding = r.binding ∧ r'.intended = r.intended
    ∧ (r.state ≠ .proving → r'.state = r.state)

theorem State.TiesKept.of_same {s t : State} (fdir : t.fdir = s.fdir) (lists : t.drt.lists = s.drt.lists) : s.TiesKept t :=
  ⟨lists, fun k r record => ⟨r, (record_of_fdir fdir k).trans record, rfl, rfl, fun _ => rfl⟩⟩

theorem State.TiesKept.trans {s t u : State} (first : s.TiesKept t) (second : t.TiesKept u) : s.TiesKept u := by
  refine ⟨second.lists.trans first.lists, fun k r record => ?_⟩
  obtain ⟨r', record, binding, intended, state⟩ := first.record k r record
  obtain ⟨r'', record, binding', intended', state'⟩ := second.record k r' record
  refine ⟨r'', record, binding'.trans binding, intended'.trans intended, fun other => ?_⟩
  have same := state other
  exact (state' (same ▸ other)).trans same

/-- The return of a record under proof to the list. -/
theorem commit_tiesKept {s : State} {h : Handle} {r : Record} (live : s.live h = some r) (proving : r.state = .proving) :
    s.TiesKept (s.commit h r r.returned) := by
  have lists : (s.commit h r r.returned).drt.lists = s.drt.lists := by
    obtain ⟨_, _, _, _, same⟩ := commit_asked s h r r.returned
    rw [same]
  obtain ⟨x, a, contents, reacts⟩ := commit_reacts s h r r.returned
  refine ⟨lists, fun k q record => ?_⟩
  rw [reacts]
  by_cases own : h = k
  · subst own
    obtain rfl := Option.some.inj ((live_record live).symm.trans record)
    have set : ({ s.setSlot h x with agenda := a } : State).record h = some r.returned :=
      (congrArg Slot.record (slot_setSlot s h x)).trans contents
    obtain ⟨m, after⟩ := reactWithheld_record _ h r r.returned (s.withheld h r) h set
    exact ⟨_, after, rfl, rfl, fun other => absurd proving other⟩
  · have kept : ({ s.setSlot h x with agenda := a } : State).record k = some q :=
      (congrArg Slot.record (slot_setSlot_ne s x own)).trans record
    obtain ⟨m, after⟩ := reactWithheld_record _ h r r.returned (s.withheld h r) k kept
    exact ⟨_, after, rfl, rfl, fun _ => rfl⟩

theorem returnProof_tiesKept (s : State) (p : Proof) (toHead standing : Bool) :
    s.TiesKept (s.returnProof p toHead standing) := by
  have claimed : s.TiesKept (s.claim p.handle p.gen Record.returnToList) := by
    unfold State.claim
    split
    · next r pair =>
      unfold Record.returnToList
      by_cases proving : r.state = .proving
      · rw [if_pos proving]
        exact commit_tiesKept (livePair_live pair) proving
      · rw [if_neg proving]
        exact .of_same rfl rfl
    · exact .of_same rfl rfl
  exact claimed.trans (.of_same rfl rfl)

/-- What a change of a source or of a tie does to a proof: its fields change, or its lamp goes back to the head of the list
(R108 to R110). -/
def State.ProofTurns (s t : State) : Prop := (∃ q, t = s.setProof q) ∨ ∃ p standing, t = s.returnProof p true standing

theorem proofTurns_refl (s : State) : s.ProofTurns s := .inl ⟨s.prv.proof, rfl⟩

theorem leaveSteady_turns (s : State) (p : Proof) : s.ProofTurns (s.leaveSteady p) := by
  unfold State.leaveSteady
  split
  · exact .inl ⟨_, rfl⟩
  · exact .inr ⟨_, _, rfl⟩

theorem watchSteady_turns (s : State) (p : Proof) (b : Bool) : s.ProofTurns (s.watchSteady p b) := by
  unfold State.watchSteady
  split
  · exact .inl ⟨_, rfl⟩
  · split
    · exact proofTurns_refl s
    · exact leaveSteady_turns s p

theorem proofSourceCheck_turns (s : State) : s.ProofTurns s.proofSourceCheck := by
  unfold State.proofSourceCheck
  split
  · exact proofTurns_refl s
  · split
    · exact proofTurns_refl s
    · split
      · exact proofTurns_refl s
      · split
        · split
          · exact .inr ⟨_, _, rfl⟩
          · exact proofTurns_refl s
        · exact proofTurns_refl s
        · exact watchSteady_turns ..
        · exact watchSteady_turns ..

theorem proofTieChanged_turns (s : State) (h : Handle) : s.ProofTurns (s.proofTieChanged h) := by
  unfold State.proofTieChanged
  split
  · exact proofTurns_refl s
  · split
    · split
      · split
        · split
          · exact .inr ⟨_, _, rfl⟩
          · exact leaveSteady_turns ..
        · exact leaveSteady_turns ..
      · exact proofSourceCheck_turns s
    · exact proofTurns_refl s

theorem proofTieChanged_tiesKept (s : State) (h : Handle) : s.TiesKept (s.proofTieChanged h) := by
  obtain ⟨q, same⟩ | ⟨p, standing, same⟩ := proofTieChanged_turns s h
  · exact same ▸ .of_same rfl rfl
  · exact same ▸ returnProof_tiesKept s p true standing

/-! ### A hint (R180) -/

/-- A hint is applied: the record stands in the unit matched, in a state and of a class that takes ties, is not so tied
already, and the source's list has room. -/
def State.hintApplies (s : State) (unit : Nat) (x : Hint) (n : NodeEntry) (r : Record) : Prop :=
  n.unit = unit ∧ (r.state = .provisional ∨ r.state = .proving ∨ r.state = .ready ∨ r.state = .bound)
    ∧ (r.cls = .lamp ∨ r.cls = .supply) ∧ r.tie ≠ some x.source ∧ (s.list x.source).length < 16

theorem takesHint_iff (q : RecState) :
    q.takesHint = true ↔ q = .provisional ∨ q = .proving ∨ q = .ready ∨ q = .bound := by
  cases q <;> simp [RecState.takesHint]

theorem hintApplies_iff (s : State) (unit : Nat) (x : Hint) (n : NodeEntry) (r : Record) :
    (n.unit = unit && r.state.takesHint && (r.cls == .lamp || r.cls == .supply) && !(r.tie == some x.source)
      && s.listHasRoom x.source) = true ↔ s.hintApplies unit x n r := by
  simp only [State.hintApplies, Bool.and_eq_true, Bool.or_eq_true, decide_eq_true_eq, takesHint_iff, beq_iff_eq,
    Bool.not_eq_true', beq_eq_false_iff_ne, State.listHasRoom, and_assoc]
  rfl

/-- A sound record that is given a source is BOUND to it (R73). -/
theorem retied_sound {r : Record} (sound : r.state = .ready ∨ r.state = .bound) (x : Src) :
    (r.retied (some x)).state = .bound ∧ (r.retied (some x)).binding = some x := by
  have usable : r.state.usable = true := by rcases sound with e | e <;> rw [e] <;> rfl
  rw [retied_eq]
  exact ⟨if_pos sound, if_pos usable⟩

/-- One that is not usable yet has the source as its intended one (R73). -/
theorem retied_unproved {r : Record} (unproved : r.state = .provisional ∨ r.state = .proving) (x : Src) :
    (r.retied (some x)).intended = some x := by
  have unusable : ¬ r.state.usable = true := by rcases unproved with e | e <;> rw [e] <;> nofun
  rw [retied_eq]
  exact if_neg unusable

section
variable {s : State} {first unit : Nat} {x : Hint} {h : Handle} {r : Record} {n : NodeEntry}

theorem applyHint_missing (missing : s.nodeAt (first + x.position - 1) = none
    ∨ s.recordOf (first + x.position - 1) x.index = none) : State.applyHint first unit s x = s := by
  unfold State.applyHint
  dsimp only
  split
  · next node function =>
    rw [node, function] at missing
    exact missing.elim nofun nofun
  · rfl

section
variable (node : s.nodeAt (first + x.position - 1) = some n) (function : s.recordOf (first + x.position - 1) x.index = some h)
  (live : s.live h = some r)
include node function live

theorem applyHint_other (other : ¬ s.hintApplies unit x n r) : State.applyHint first unit s x = s := by
  unfold State.applyHint
  dsimp only
  rw [node, function]
  dsimp only
  rw [live]
  exact if_neg (mt (hintApplies_iff s unit x n r).mp other)

theorem applyHint_applied (applies : s.hintApplies unit x n r) : State.applyHint first unit s x
    = ((s.changeTie h (some x.source)).proofTieChanged h).join h := by
  unfold State.applyHint
  dsimp only
  rw [node, function]
  dsimp only
  rw [live]
  exact if_pos ((hintApplies_iff s unit x n r).mpr applies)

/-- A hint that is applied ties the record to its source (R73, R121, R180). -/
theorem applyHint_ties (applies : s.hintApplies unit x n r) : let t := State.applyHint first unit s x
    h ∈ t.list x.source ∧ h ∈ t.agenda.joins ∧ ∃ r', t.record h = some r' ∧ r'.tie = some x.source
      ∧ (r.state = .ready ∨ r.state = .bound → r'.state = .bound ∧ r'.binding = some x.source)
      ∧ (r.state = .provisional ∨ r.state = .proving → r'.intended = some x.source) := by
  rw [applyHint_applied node function live applies]
  obtain ⟨-, -, -, other, -⟩ := applies
  obtain ⟨record, -, lists⟩ := changeTie_record live other
  have kept := proofTieChanged_tiesKept (s.changeTie h (some x.source)) h
  obtain ⟨r', after, binding, intended, state⟩ := kept.record h _ record
  refine ⟨?list, List.mem_cons_self, r', after, ?tie, fun sound => ?sound,
    fun unproved => intended.trans (retied_unproved unproved x.source)⟩
  case list =>
    have member : h ∈ (s.changeTie h (some x.source)).list x.source :=
      (lists x.source) ▸ (mem_relisted s h r.tie (some x.source) x.source).mpr (.inl rfl)
    have same : (((s.changeTie h (some x.source)).proofTieChanged h).join h).list x.source
        = (s.changeTie h (some x.source)).list x.source := congrArg (fun l : Vector (List Handle) 18 => l[x.source]) kept.lists
    exact same ▸ member
  case tie =>
    have tied := retied_tie r (some x.source)
    unfold Record.tie at tied ⊢
    rw [binding, intended]
    exact tied
  case sound =>
    obtain ⟨bound, bind⟩ := retied_sound sound x.source
    exact ⟨(state (bound.trans_ne nofun)).trans bound, binding.trans bind⟩

end
end

/-! ### The answer to a match (R179, R181) -/

section
variable {s : State} {m : MatchReq} {i : Fin 16}

theorem answerMatch_miss (none : ∀ j, ¬ ((s.ktlEntry j).state ≠ .empty ∧ (s.ktlEntry j).identity = m.identity)) :
    s.answerMatch m = (s, .miss) := by
  have found : s.findEntry m.identity = .none := findIndex_none fun j => mt (holds_iff _ _).mp (none j)
  unfold State.answerMatch
  rw [found]

/-- The lowest entry that holds the identity is the one matched (R179). -/
theorem findEntry_lowest (holds : (s.ktlEntry i).state ≠ .empty ∧ (s.ktlEntry i).identity = m.identity)
    (lowest : ∀ j, j < i → ¬ ((s.ktlEntry j).state ≠ .empty ∧ (s.ktlEntry j).identity = m.identity)) :
    s.findEntry m.identity = some i :=
  findIndex_lowest (q := fun j => (s.ktlEntry j).holds m.identity) ((holds_iff _ _).mpr holds)
    fun j below => mt (holds_iff _ _).mp (lowest j below)

theorem answerMatch_mismatch (found : s.findEntry m.identity = some i)
    (differs : (s.ktlEntry i).digest ≠ m.digest ∨ (s.ktlEntry i).nodeCount ≠ m.nodeCount) :
    s.answerMatch m = (s.raise .ktlMismatch, .mismatch) := by
  unfold State.answerMatch
  rw [found]
  exact if_neg fun same => differs.elim (absurd same.1) (absurd same.2)

/-- The state with the hints of an entry applied, in their order (R180). -/
def State.hintsApplied (s : State) (m : MatchReq) (i : Fin 16) : State :=
  (s.ktlEntry i).hints.foldl (State.applyHint m.first m.unit) s

theorem hintsApplied_moves (s : State) (m : MatchReq) (i : Fin 16) : Moves .claim s (s.hintsApplied m i) :=
  foldl_moves (fun _ x k => applyHint_moves k _ _ x) _ _ .nil

theorem hintsApplied_ktl (s : State) (m : MatchReq) (i : Fin 16) : (s.hintsApplied m i).ktl = s.ktl := by
  obtain ⟨-, -, ktl, -⟩ := (hintsApplied_moves s m i).claim
  exact ktl

theorem answerMatch_hit (found : s.findEntry m.identity = some i) (digest : (s.ktlEntry i).digest = m.digest)
    (count : (s.ktlEntry i).nodeCount = m.nodeCount) :
    s.answerMatch m = ((s.hintsApplied m i).renewStamp i, .hit) := by
  unfold State.answerMatch
  rw [found]
  exact if_pos ⟨digest, count⟩

/-- The stamp of the entry matched is renewed, unless NVLOCK is high (R177, R181, R184). -/
theorem hintsApplied_renewed (s : State) (m : MatchReq) (i : Fin 16) : (s.hintsApplied m i).renewStamp i =
    if s.hcp.nvlock = true then s.hintsApplied m i else (s.hintsApplied m i).setKtl { s.ktl with
      useCounter := min 4294967295 (s.ktl.useCounter + 1)
      write := some { kind := .renew, target := i, limit := s.now + ms 3
                      content := { s.ktlEntry i with stamp := min 4294967295 (s.ktl.useCounter + 1) } } } := by
  have moves := hintsApplied_moves s m i
  obtain ⟨-, -, ktl, hcp, -⟩ := moves.claim
  have now : (s.hintsApplied m i).now = s.now := congrArg Fixed.now moves.fixed
  unfold State.renewStamp State.ktlEntry
  rw [ktl, hcp, now]
  rfl

end

/-- The answer rests on the entries alone (R179). -/
theorem answerMatch_outcome_of_entries {s t : State} (same : t.ktl.entries = s.ktl.entries) (m : MatchReq) :
    (t.answerMatch m).2 = (s.answerMatch m).2 := by
  have entry : t.ktlEntry = s.ktlEntry := by
    funext i
    unfold State.ktlEntry
    rw [same]
  unfold State.answerMatch State.findEntry
  rw [entry]
  split
  · rfl
  · dsimp only
    split <;> rfl

/-- A match that is answered does not wait again. -/
theorem answerMatch_waiting (s : State) (m : MatchReq) : (s.answerMatch m).1.ktl.waiting = s.ktl.waiting := by
  unfold State.answerMatch
  split
  · rfl
  · next i _ =>
    dsimp only
    split
    · change ((s.hintsApplied m i).renewStamp i).ktl.waiting = _
      rw [hintsApplied_renewed]
      split
      · exact congrArg Ktl.waiting (hintsApplied_ktl s m i)
      · rfl
    · rfl

/-- What the engine does with an answer: the unit has its outcome, and the list is left alone (R44). -/
theorem matched_keeps (s : State) (n : Nat) (o : MatchOutcome) : (s.matched n o).ktl = s.ktl
    ∧ (s.matched n o).bue.units = s.bue.units.modify (n - 1) fun u => { u with outcome := o } := by
  have assigned : ∀ u : State, u.placeAssign.ktl = u.ktl ∧ u.placeAssign.bue.units = u.bue.units := fun u => by
    unfold State.placeAssign
    split
    · next a p _ _ =>
      have places := placeBue_places (u.setBue { u.bue with errand := .none }) (.assign a p.identity)
      obtain ⟨q, bue⟩ := places.bue
      obtain ⟨-, -, -, ktl⟩ := places.rest
      exact ⟨ktl, by rw [bue]; rfl⟩
    · exact ⟨rfl, rfl⟩
  unfold State.matched
  dsimp only
  split
  · exact ⟨rfl, rfl⟩
  · exact assigned _

theorem answerWaiting_none {s : State} (none : s.ktl.waiting = .none) : s.answerWaiting = s := by
  unfold State.answerWaiting
  rw [none]

/-- A match that waits is answered from the entries as they stand (R178, R190). -/
theorem answerWaiting_answers {s : State} {m : MatchReq} (waits : s.ktl.waiting = some m) :
    s.answerWaiting.ktl.waiting = none ∧ (s.answerWaiting.bue.units[m.unit - 1]?).map (·.outcome)
      = (s.bue.units[m.unit - 1]?).map fun _ => (s.answerMatch m).2 := by
  have eq : s.answerWaiting = (((s.setKtl { s.ktl with waiting := none }).answerMatch m).1).matched m.unit
      (s.answerMatch m).2 := by
    have outcome := answerMatch_outcome_of_entries (s := s) (t := s.setKtl { s.ktl with waiting := none }) rfl m
    rw [← outcome]
    unfold State.answerWaiting
    rw [waits]
  have waiting := answerMatch_waiting (s.setKtl { s.ktl with waiting := none }) m
  have bue := (answerMatch_same (s.setKtl { s.ktl with waiting := none }) m).1
  rw [eq]
  generalize ((s.setKtl { s.ktl with waiting := none }).answerMatch m).1 = u at waiting bue ⊢
  obtain ⟨ktl, units⟩ := matched_keeps u m.unit (s.answerMatch m).2
  rw [ktl, units, bue, List.getElem?_modify_eq]
  refine ⟨waiting, ?_⟩
  rw [setKtl_bue]
  cases s.bue.units[m.unit - 1]? <;> rfl

/-- An event of the list, up to its end: a match that waits is answered (R178, R190). -/
def State.listEvent (s : State) : State := s.answerWaiting.finish false

/-- Nothing of the list but the write slot, the use counter and the waiting match changes as an event of the list ends. -/
theorem listEvent_list (s : State) : s.listEvent.ktl.cells = s.ktl.cells ∧ s.listEvent.ktl.entries = s.ktl.entries
    ∧ s.listEvent.ktl.scanning = s.ktl.scanning ∧ s.listEvent.ktl.wel = s.ktl.wel ∧ s.listEvent.ktl.torn = s.ktl.torn
    ∧ s.listEvent.ktl.last = s.ktl.last := by
  have fixed : s.listEvent.fixed = s.fixed :=
    (finish_fixed _ false).trans (answerWaiting_moves (w := .walk) .nil).fixed
  generalize s.listEvent = t at fixed
  exact ⟨congrArg Fixed.cells fixed, congrArg Fixed.entries fixed, congrArg Fixed.scanning fixed, congrArg Fixed.wel fixed,
    congrArg Fixed.torn fixed, congrArg Fixed.last fixed⟩

theorem listEvent_entry (s : State) (i : Fin 16) : s.listEvent.ktlEntry i = s.ktlEntry i := by
  obtain ⟨-, entries, -⟩ := listEvent_list s
  unfold State.ktlEntry
  rw [entries]

/-- A flag that is set stays set. -/
theorem listEvent_flag {s : State} {n : Nat} (flag : s.hcp.flags.getLsbD n = true) :
    s.listEvent.hcp.flags.getLsbD n = true :=
  flagsKept_bit (flagsKept_trans (answerWaiting_moves (w := .walk) .nil).flags (finish_flags ..)) n flag

/-- With no match waiting and the engine quiet the event's end leaves the list as it is. -/
theorem listEvent_quiet {s : State} (none : s.ktl.waiting = .none) (quiet : s.engineQuiet) : s.listEvent.ktl = s.ktl := by
  unfold State.listEvent
  rw [answerWaiting_none none]
  obtain ⟨-, -, ktl, -⟩ := finish_quiet s false quiet
  exact ktl

/-- Either end of the list's work answers a waiting match (R178, R190). -/
theorem listEvent_answers {s u : State} {c : Instr} (ends : exec c s = .next u.listEvent)
    (waiting : u.ktl.waiting = s.ktl.waiting) (bue : u.bue = s.bue) (m : MatchReq) (waits : s.ktl.waiting = some m) :
    ∃ v : State, exec c s = .next (v.finish false) ∧ v.ktl.waiting = none
      ∧ (v.bue.units[m.unit - 1]?).map (·.outcome) = (s.bue.units[m.unit - 1]?).map fun _ => (u.answerMatch m).2 := by
  obtain ⟨answered, outcome⟩ := answerWaiting_answers (waiting.trans waits)
  exact ⟨u.answerWaiting, ends, answered, by rw [outcome, bue]⟩

end Sys2Proof.Machine

namespace Sys2Proof.Machine

/-! ### The end of the scan (R177, R178) -/

/-- One entry's part in the largest stamp. -/
def stampStep (m : Nat) (e : KtlEntry) : Nat := if e.state == .empty then m else max m e.stamp

theorem largestStamp_eq (l : List KtlEntry) : largestStamp l = l.foldl stampStep 0 := rfl

/-- The largest stamp is that of an entry in use, or where it began, and no entry in use has a larger one. -/
theorem foldl_stampStep (l : List KtlEntry) (m : Nat) : m ≤ l.foldl stampStep m
    ∧ (∀ e ∈ l, e.state ≠ .empty → e.stamp ≤ l.foldl stampStep m)
    ∧ (l.foldl stampStep m = m ∨ ∃ e ∈ l, e.state ≠ .empty ∧ e.stamp = l.foldl stampStep m) := by
  induction l generalizing m with
  | nil => exact ⟨le_refl m, nofun, .inl rfl⟩
  | cons e l ih =>
    obtain ⟨above, bounds, reached⟩ := ih (stampStep m e)
    rw [List.foldl_cons]
    by_cases empty : e.state = .empty
    · have step : stampStep m e = m := if_pos (beq_iff_eq.mpr empty)
      rw [step] at above bounds reached ⊢
      refine ⟨above, ?_, reached.imp_right fun ⟨d, member, rest⟩ => ⟨d, List.mem_cons_of_mem e member, rest⟩⟩
      intro d member used
      rcases List.mem_cons.mp member with rfl | later
      · exact absurd empty used
      · exact bounds d later used
    · have step : stampStep m e = max m e.stamp := if_neg (by simpa using empty)
      rw [step] at above bounds reached ⊢
      refine ⟨(le_max_left ..).trans above, ?_, ?_⟩
      · intro d member used
        rcases List.mem_cons.mp member with rfl | later
        · exact (le_max_right ..).trans above
        · exact bounds d later used
      · rcases reached with same | ⟨d, member, used, stamp⟩
        · rcases max_choice m e.stamp with left | right
          · exact .inl (same.trans left)
          · exact .inr ⟨e, List.mem_cons_self, empty, right.symm.trans same.symm⟩
        · exact .inr ⟨d, List.mem_cons_of_mem e member, used, stamp⟩

theorem mem_entries {v : Vector KtlEntry 16} {e : KtlEntry} : e ∈ v.toList ↔ ∃ i : Fin 16, v[i] = e := by
  rw [Vector.mem_toList_iff, Vector.mem_iff_getElem]
  exact ⟨fun ⟨i, hi, same⟩ => ⟨⟨i, hi⟩, same⟩, fun ⟨i, same⟩ => ⟨i.val, i.isLt, same⟩⟩

theorem taken_eq (c : KtlCell) :
    c.taken = if c.check = c.entry.check ∧ c.entry.state ≠ .empty then c.entry else KtlEntry.blank := by
  unfold KtlCell.taken KtlCell.sound
  simp only [Bool.and_eq_true, beq_iff_eq, bne_iff_ne]

theorem scanEnd_taken {s : State} (awake : s.hcp.inReset = false) (scanning : s.ktl.scanning = true) :
    exec .ktlScanEnd s = .next s.endScan.listEvent := by
  change runEvent s (if s.ktl.scanning then some s.endScan.answerWaiting else none) = _
  rw [if_pos scanning]
  exact runEvent_some awake _

/-- The use counter is the largest stamp taken (R177). -/
theorem endScan_useCounter (s : State) :
    (∀ i : Fin 16, (s.endScan.ktlEntry i).state ≠ .empty → (s.endScan.ktlEntry i).stamp ≤ s.endScan.ktl.useCounter)
    ∧ (s.endScan.ktl.useCounter = 0 ∨ ∃ i : Fin 16, (s.endScan.ktlEntry i).state ≠ .empty
        ∧ (s.endScan.ktlEntry i).stamp = s.endScan.ktl.useCounter) := by
  have counter : s.endScan.ktl.useCounter = s.endScan.ktl.entries.toList.foldl stampStep 0 :=
    largestStamp_eq _
  obtain ⟨-, bounds, reached⟩ := foldl_stampStep s.endScan.ktl.entries.toList 0
  rw [counter]
  refine ⟨fun i used => bounds _ (mem_entries.mpr ⟨i, rfl⟩) used, reached.imp_right fun ⟨e, member, used, stamp⟩ => ?_⟩
  obtain ⟨i, rfl⟩ := mem_entries.mp member
  exact ⟨i, used, stamp⟩

/-! ### The end of a write (R181, R190) -/

/-- What an entry of a write is taken as when it has been read back. -/
def readEntry (content : KtlEntry) (bad : BitVec 16) (i : Fin 16) : KtlEntry :=
  if bad.getLsbD i.val then KtlEntry.blank else content

/-- What its cell then holds. -/
def readCell (content : KtlEntry) (bad : BitVec 16) (i : Fin 16) : KtlCell :=
  if bad.getLsbD i.val then content.tornCell else content.cell

section
variable (content : KtlEntry) (bad : BitVec 16)

theorem readBackKtl_eq (k : Ktl) (i : Fin 16) : readBackKtl content bad k i = { k with
    cells := k.cells.set i (readCell content bad i), entries := k.entries.set i (readEntry content bad i) } := by
  unfold readBackKtl readCell readEntry
  split <;> rfl

theorem readBacks_rest (l : List (Fin 16)) (k : Ktl) :
    ∃ cells entries, l.foldl (readBackKtl content bad) k = { k with cells := cells, entries := entries } := by
  induction l generalizing k with
  | nil => exact ⟨k.cells, k.entries, rfl⟩
  | cons i l ih =>
    obtain ⟨cells, entries, same⟩ := ih (readBackKtl content bad k i)
    refine ⟨cells, entries, same.trans ?_⟩
    rw [readBackKtl_eq]

/-- The entries of a write are read back, the others stand as they were. -/
theorem readBacks_at (l : List (Fin 16)) (k : Ktl) (i : Fin 16) :
    (l.foldl (readBackKtl content bad) k).entries[i] = (if i ∈ l then readEntry content bad i else k.entries[i])
    ∧ (l.foldl (readBackKtl content bad) k).cells[i] = (if i ∈ l then readCell content bad i else k.cells[i]) := by
  induction l generalizing k with
  | nil => exact ⟨rfl, rfl⟩
  | cons j l ih =>
    obtain ⟨entries, cells⟩ := ih (readBackKtl content bad k j)
    rw [List.foldl_cons, entries, cells, readBackKtl_eq]
    by_cases later : i ∈ l
    · simp only [later, List.mem_cons_of_mem j later, if_true, and_self]
    · by_cases now : i = j
      · subst now
        simp [later]
      · have apart : (j : Nat) ≠ i := fun same => now (Fin.ext same.symm)
        simp [later, now, apart]

end

section
variable (s : State) (w : KtlWrite) (bad : BitVec 16)

/-- An entry of the write failed its read-back (R190). -/
def State.writeFails : Bool := (s.written w).any fun i => bad.getLsbD i.val

/-- The last outcome once the write has ended (R190); a renewal that succeeds tells none (R181). -/
def State.outcomeAfter : NvOutcome :=
  if s.writeFails w bad then .writeFailed else if w.kind == .renew then s.ktl.last else w.kind.agreed

/-- The list once its entries have been read back and the last outcome is `o`. -/
def State.ktlAfter (o : NvOutcome) : Ktl :=
  { (s.written w).foldl (readBackKtl w.content bad) s.ktl with wel := false, last := o, write := none }

/-- The end of a write: NV_DONE is set unless it is a renewal that succeeds (R181, R190). -/
theorem endWrite_eq : s.endWrite w bad = (if s.writeFails w bad || w.kind != .renew then s.raise .nvDone else s).setKtl
    (s.ktlAfter w bad (s.outcomeAfter w bad)) := by
  obtain ⟨cells, entries, same⟩ := readBacks_rest w.content bad (s.written w) s.ktl
  have reads := readBacks_ktl w.content bad (s.written w) s
  unfold State.ktlAfter State.outcomeAfter
  rw [same] at reads ⊢
  by_cases fails : s.writeFails w bad = true
  · rw [fails]
    unfold State.writeFails at fails
    simp only [State.endWrite, fails, reads, if_true]
    rfl
  · rw [Bool.not_eq_true] at fails
    rw [fails]
    unfold State.writeFails at fails
    cases renewal : w.kind == .renew with
    | true =>
      have told : (w.kind != .renew) = false := congrArg not renewal
      simp only [State.endWrite, fails, renewal, told, reads, Bool.false_eq_true, Bool.or_false, if_false, if_true]
      rfl
    | false =>
      have told : (w.kind != .renew) = true := congrArg not renewal
      simp only [State.endWrite, fails, renewal, told, reads, Bool.false_eq_true, Bool.or_true, if_false, if_true]
      rfl

theorem endWrite_ktl : (s.endWrite w bad).ktl = s.ktlAfter w bad (s.outcomeAfter w bad) := by
  rw [endWrite_eq, setKtl_ktl]

theorem endWrite_bue : (s.endWrite w bad).bue = s.bue := by
  rw [endWrite_eq, setKtl_bue]
  split <;> rfl

/-- NV_DONE is set for a write that failed, and for one that the host has ordered (R181, R190). -/
theorem endWrite_flag (told : s.writeFails w bad = true ∨ w.kind ≠ .renew) :
    (s.endWrite w bad).hcp.flags.getLsbD 9 = true := by
  rw [endWrite_eq, setKtl_hcp, if_pos (by simpa using told)]
  exact raise_bit _ .nvDone

theorem mem_written (i : Fin 16) : i ∈ s.written w ↔
    (w.kind = .eraseList ∧ (s.ktlEntry i).state ≠ .pinned) ∨ (w.kind ≠ .eraseList ∧ i = w.target) := by
  unfold State.written
  split
  · next list => simp [State.erasable, entryIndices, list]
  · next single =>
    have single : w.kind ≠ .eraseList := single
    simp [single]

theorem writeFails_iff : s.writeFails w bad = true ↔ ∃ i ∈ s.written w, bad.getLsbD i.val = true := List.any_eq_true

theorem writeFails_single {w : KtlWrite} (single : w.kind ≠ .eraseList) :
    s.writeFails w bad = bad.getLsbD w.target.val := by
  rw [Bool.eq_iff_iff, writeFails_iff]
  simp only [mem_written, single, false_and, false_or, ne_eq, not_false_eq_true, true_and, exists_eq_left]

theorem agreed_eq (k : WriteKind) : k.agreed = if k = .remember true then .hintsTruncated else .ok := by
  cases k with
  | remember truncated => cases truncated <;> rfl
  | _ => rfl

theorem writeEnd_taken {s : State} {w : KtlWrite} (awake : s.hcp.inReset = false) (write : s.ktl.write = some w) :
    exec (.ktlWriteEnd bad) s = .next (s.endWrite w bad).listEvent := by
  change runEvent s (s.ktl.write.map fun w => (s.endWrite w bad).answerWaiting) = _
  rw [write]
  exact runEvent_some awake _

/-- What an entry and its cell are when the write has ended (R190). -/
theorem endWrite_entry (i : Fin 16) :
    if (w.kind = .eraseList ∧ (s.ktlEntry i).state ≠ .pinned) ∨ (w.kind ≠ .eraseList ∧ i = w.target) then
      (bad.getLsbD i.val = false → (s.endWrite w bad).ktlEntry i = w.content
        ∧ (s.endWrite w bad).ktl.cells[i] = w.content.cell)
      ∧ (bad.getLsbD i.val = true → (s.endWrite w bad).ktlEntry i = KtlEntry.blank
        ∧ (s.endWrite w bad).ktl.cells[i] = w.content.tornCell)
    else (s.endWrite w bad).ktlEntry i = s.ktlEntry i ∧ (s.endWrite w bad).ktl.cells[i] = s.ktl.cells[i] := by
  obtain ⟨entry, cell⟩ := readBacks_at w.content bad (s.written w) s.ktl i
  have entry : (s.endWrite w bad).ktlEntry i = if i ∈ s.written w then readEntry w.content bad i else s.ktlEntry i := by
    unfold State.ktlEntry
    rw [endWrite_ktl]
    exact entry
  have cell : (s.endWrite w bad).ktl.cells[i] = if i ∈ s.written w then readCell w.content bad i else s.ktl.cells[i] := by
    rw [endWrite_ktl]
    exact cell
  rw [entry, cell]
  by_cases member : i ∈ s.written w
  · rw [if_pos ((mem_written s w i).mp member), if_pos member, if_pos member]
    unfold readEntry readCell
    exact ⟨fun good => by rw [good]; exact ⟨rfl, rfl⟩, fun failed => by rw [failed]; exact ⟨rfl, rfl⟩⟩
  · rw [if_neg (mt (mem_written s w i).mpr member), if_neg member, if_neg member]
    exact ⟨rfl, rfl⟩

theorem endWrite_waiting : (s.endWrite w bad).ktl.waiting = s.ktl.waiting := by
  obtain ⟨cells, entries, rest⟩ := readBacks_rest w.content bad (s.written w) s.ktl
  rw [endWrite_ktl, State.ktlAfter, rest]

theorem endWrite_useCounter : (s.endWrite w bad).ktl.useCounter = s.ktl.useCounter := by
  obtain ⟨cells, entries, rest⟩ := readBacks_rest w.content bad (s.written w) s.ktl
  rw [endWrite_ktl, State.ktlAfter, rest]

theorem endWrite_last : (s.endWrite w bad).listEvent.ktl.last = s.outcomeAfter w bad := by
  obtain ⟨-, -, -, -, -, last⟩ := listEvent_list (s.endWrite w bad)
  rw [last, endWrite_ktl]
  rfl

variable {s w bad}

theorem endWrite_failed (fails : s.writeFails w bad = true) : (s.endWrite w bad).listEvent.ktl.last = .writeFailed
    ∧ (s.endWrite w bad).listEvent.hcp.flags.getLsbD 9 = true :=
  ⟨(endWrite_last s w bad).trans (if_pos fails), listEvent_flag (endWrite_flag s w bad (.inl fails))⟩

theorem endWrite_agreed (good : s.writeFails w bad = false) (ordered : w.kind ≠ .renew) :
    (s.endWrite w bad).listEvent.ktl.last = (if w.kind = .remember true then .hintsTruncated else .ok)
    ∧ (s.endWrite w bad).listEvent.hcp.flags.getLsbD 9 = true := by
  refine ⟨?_, listEvent_flag (endWrite_flag s w bad (.inr ordered))⟩
  rw [endWrite_last, State.outcomeAfter, good, beq_eq_false_iff_ne.mpr ordered]
  exact agreed_eq _

/-- A renewal that succeeds leaves the last outcome alone (R181). -/
theorem endWrite_renewed (good : s.writeFails w bad = false) (renewal : w.kind = .renew) :
    (s.endWrite w bad).listEvent.ktl.last = s.ktl.last := by
  rw [endWrite_last, State.outcomeAfter, good, renewal]
  rfl

theorem writeFails_list (list : w.kind = .eraseList) :
    s.writeFails w bad = true ↔ ∃ i : Fin 16, (s.ktlEntry i).state ≠ .pinned ∧ bad.getLsbD i.val = true := by
  rw [writeFails_iff]
  simp only [mem_written, list, ne_eq, not_true, false_and, or_false, true_and]

end

/-- Settles O59: the answer to a match, a hint, and the two events of the list. -/
theorem scanAndWritesEnd : Obligations.ScanAndWritesEnd := by
  refine ⟨fun s m => ⟨answerMatch_miss, fun i holds lowest => ?answer⟩, fun s first unit x h r n node function live =>
    ⟨applyHint_other node function live, applyHint_ties node function live⟩, fun s first unit x => applyHint_missing,
    fun s awake => ⟨fun scanning => ?scan, fun w bad write => ?write⟩⟩
  case answer =>
    have found := findEntry_lowest holds lowest
    refine ⟨answerMatch_mismatch found, fun digest count => ⟨hintsApplied_ktl s m i, ?_⟩⟩
    rw [answerMatch_hit found digest count, hintsApplied_renewed]
    rfl
  case scan =>
    have ends := scanEnd_taken awake scanning
    obtain ⟨cells, -, scanned, wel, torn, -⟩ := listEvent_list s.endScan
    refine ⟨_, ends, scanned, fun i => ?_, torn, cells, wel, fun none quiet => ?_, listEvent_answers ends rfl rfl⟩
    · rw [listEvent_entry, ← taken_eq]
      exact Vector.getElem_map ..
    · have list := listEvent_quiet (s := s.endScan) none quiet
      simp only [listEvent_entry, list]
      exact endScan_useCounter s
  case write =>
    have ends := writeEnd_taken bad awake write
    obtain ⟨cells, -, -, wel, -⟩ := listEvent_list (s.endWrite w bad)
    rw [endWrite_ktl] at wel
    have waiting := endWrite_waiting s w bad
    have bue := endWrite_bue s w bad
    refine ⟨_, ends, fun i => ?entry, wel,
      fun single failed => endWrite_failed ((writeFails_single s bad single).trans failed),
      fun single good => endWrite_agreed ((writeFails_single s bad single).trans good),
      fun good renewal => endWrite_renewed ((writeFails_single s bad (by rw [renewal]; nofun)).trans good) renewal,
      fun list => ?list, fun none quiet => ?quiet, listEvent_answers ends waiting bue⟩
    case entry =>
      rw [listEvent_entry, cells]
      exact endWrite_entry s w bad i
    case list =>
      have ordered : w.kind ≠ .renew := by rw [list]; nofun
      refine ⟨listEvent_flag (endWrite_flag s w bad (.inr ordered)),
        fun failed => (endWrite_failed ((writeFails_list list).mpr failed)).1, fun good => ?_⟩
      have good : s.writeFails w bad = false := by
        rw [← Bool.not_eq_true, writeFails_list list]
        rintro ⟨i, unpinned, failed⟩
        rw [good i unpinned] at failed
        cases failed
      rw [(endWrite_agreed good ordered).1, list]
      rfl
    case quiet =>
      have quiet : (s.endWrite w bad).engineQuiet := by
        unfold State.engineQuiet
        rw [bue]
        exact quiet
      rw [listEvent_quiet (waiting.trans none) quiet, endWrite_useCounter, endWrite_ktl]
      exact ⟨rfl, rfl⟩

end Sys2Proof.Machine

namespace Sys2Proof.Machine

/-! ### The RESET input and device resets (R191, R210, R211) -/

theorem ended_eq (p : Spi) : p.ended = if p = .high then .high else .unframed := by
  cases p <;> rfl

theorem resetFall_taken {s : State} (high : s.hcp.resetLow = none) : exec .resetFall s = .next ({ s with hcp := { s.hcp with
    response := [], stream := .none, spi := s.hcp.spi.ended, resetLow := some s.now } } : State).drivePins :=
  if_neg (by rw [high]; nofun)

theorem resetRise_taken {s : State} {a : Nat} (low : s.hcp.resetLow = some a) : exec .resetRise s
    = .next ({ s with hcp := { s.hcp with resetLow := none, resetEnds := s.now + ms 1 } } : State).drivePins :=
  if_pos (by rw [low]; rfl)

theorem deviceReset_taken {s : State} {a : Nat} (low : s.hcp.resetLow = some a) (awake : s.hcp.inReset = false) :
    exec .deviceReset s = .next (s.advanceTo (a + ms 1)).deviceReset := by
  change execDeviceReset s = _
  unfold execDeviceReset
  rw [low, awake]
  rfl

theorem deviceResetEnd_taken {s : State} (lasts : s.hcp.inReset = true) (high : s.hcp.resetLow = none) :
    exec .deviceResetEnd s = .next ({ s.advanceTo s.hcp.resetEnds with
      hcp := { s.hcp with inReset := false, vddLow := false } } : State).drivePins :=
  if_pos (by rw [lasts, high]; rfl)

/-- While RESET is low ATTN is released (R206, R210). -/
theorem attnWanted_low {s : State} {a : Nat} (low : s.hcp.resetLow = some a) : s.attnWanted = false := by
  unfold State.attnWanted
  rw [low, Option.isNone_some, Bool.and_false, Bool.false_and]

theorem cutCells_idle {s : State} (idle : s.ktl.write = none) : s.cutCells = s.ktl.cells := by
  unfold State.cutCells
  rw [idle]

/-- A write of one entry that is cut tears that entry (R191). -/
theorem cutCells_single {s : State} {w : KtlWrite} (write : s.ktl.write = some w) (single : w.kind ≠ .eraseList) :
    s.cutCells = s.ktl.cells.set w.target w.content.tornCell := by
  unfold State.cutCells
  rw [write]
  dsimp only
  split
  · next list => exact absurd list single
  · rfl

/-- A device reset, of the state at its moment (R191, R210, R211). -/
theorem deviceReset_cleared (s : State) (n : Nat) : s.cleared (s.advanceTo n).deviceReset :=
  ⟨rfl, rfl, rfl, rfl, rfl, rfl, rfl, ended_eq _, cutCells_idle (s := s.advanceTo n),
    fun w => cutCells_single (s := s.advanceTo n) (w := w)⟩

/-- A fall of VDD that is told besides leaves the state cleared (R211). -/
theorem cleared_vddLow {s t : State} (cleared : s.cleared t) : s.cleared { t with hcp := { t.hcp with vddLow := true } } := by
  obtain ⟨whole, list, lasts, port, rest⟩ := cleared
  exact ⟨congrArg (fun u : State => { u with hcp := { t.hcp with vddLow := true } }) whole, list, lasts, port, rest⟩

/-- Settles O60: the edges of RESET, the device resets, and transactions that are not framed. -/
theorem resetsGiveResetValues : Obligations.ResetsGiveResetValues := by
  intro s
  refine ⟨fun high => ?fall, fun a low => ?rise, fun a low awake => ?device, ?supply, fun lasts high => ?ends,
    fun unframed => ?unframed, fun high silent => ?silent⟩
  case fall =>
    exact ⟨_, resetFall_taken high, rfl, attnWanted_low rfl, rfl, ended_eq _, rfl, rfl, rfl, rfl, rfl, rfl, rfl, rfl, rfl, rfl,
      rfl⟩
  case rise =>
    exact ⟨_, resetRise_taken low, rfl, rfl, rfl, rfl, rfl, rfl, rfl, rfl, rfl, rfl, rfl, rfl⟩
  case device => exact ⟨_, deviceReset_taken low awake, rfl, deviceReset_cleared s _, rfl⟩
  case supply =>
    have cleared : s.cleared s.deviceReset := by
      have same : s.advanceTo s.now = s := congrArg (fun n => { s with now := n }) (max_self s.now)
      have at_once := deviceReset_cleared s s.now
      rwa [same] at at_once
    exact ⟨_, rfl, rfl, cleared_vddLow cleared, rfl⟩
  case ends =>
    refine ⟨_, deviceResetEnd_taken lasts high, rfl, rfl, ?_, rfl, rfl, rfl, rfl, rfl⟩
    change (s.hcp.resetLow.isSome || false) = false
    rw [high]
    rfl
  case unframed =>
    have framing := framing_none (.inr (.inr unframed))
    refine ⟨?_, ?_, fun d => ?_, ?_, selectRise_unframed unframed⟩
    · unfold State.selectFall
      rw [unframed]
    · unfold State.clockFall
      rw [framing]
    · unfold State.clockRise
      rw [framing]
    · unfold State.sdo
      rw [framing]
      rfl
  case silent =>
    unfold State.selectFall
    rw [high]
    exact if_pos silent

end Sys2Proof.Machine
